-- ==== Sys2Proof/Word.lean ====
section
/-! DEFINITION. The word types of the KL96 (R5: bit 0 is the least significant; multi-byte values are
little-endian) and the plainest arithmetic on them. -/

namespace Sys2Proof

/-- A 32-bit register or code word. -/
abbrev Word := BitVec 32
/-- A 64-bit value: a register pair, an address, a special register. -/
abbrev DWord := BitVec 64
/-- A seven-bit field that names a register, predicate, tile, queue or special register (R36, R40). -/
abbrev Reg := BitVec 7
/-- One byte of storage. -/
abbrev Byte := BitVec 8

/-- The pair `hi:lo` as one 64-bit value: the low word lies in the even register (R8, R91). -/
def joinPair (lo hi : Word) : DWord := hi ++ lo
/-- The low word of a pair. -/
def loWord (x : DWord) : Word := x.setWidth 32
/-- The high word of a pair. -/
def hiWord (x : DWord) : Word := (x >>> 32).setWidth 32

end Sys2Proof
end

