-- ==== Sys2Proof/Codes.lean ====
section
/-! DEFINITION. The names that fields of instruction words stand for, and the messages that the outside
world (other packages, the host) brings to the machine. -/

namespace Sys2Proof

/-- Type codes of the ty field (R38), in code order. -/
inductive Ty where
  | s32 | ui32 | s64 | ui64 | s16 | ui16 | s8 | ui8 | f32 | f64 | f16 | bf16
  deriving DecidableEq, Repr, Inhabited

/-- Rounding codes (R11), in code order. -/
inductive Rnd where
  | rn | rz | ru | rd | sr
  deriving DecidableEq, Repr, Inhabited

/-- The 24 operand formats (R20), in code order. -/
inductive Fmt where
  | bfp2 | bfp3 | bfp4 | bfp5 | bfp6 | bfp7 | bfp8 | bfp12 | bfp16 | bfp24 | int2 | int4 | uint4 | int8 | uint8 | e2m1 | e2m3 | e3m2 | e4m3 | e5m2 | f16 | bf16 | f19 | f32
  deriving DecidableEq, Repr, Inhabited

/-- Memory spaces (R37), in code order. -/
inductive Space where
  | sp | cm | g | ws | sys
  deriving DecidableEq, Repr, Inhabited

/-- Access sizes (R37), in code order. -/
inductive Size where
  | b8 | b16 | b32 | b64 | b128
  deriving DecidableEq, Repr, Inhabited

/-- Memory orders (R37), in code order. -/
inductive Order where
  | weak | rlx | acq | rel
  deriving DecidableEq, Repr, Inhabited

/-- Scopes (R37), in code order. -/
inductive Scope where
  | grp | clu | die | pkg | sys
  deriving DecidableEq, Repr, Inhabited

/-- Atomic operations (R167), in code order. -/
inductive AtomOp where
  | add | smin | smax | umin | umax | and | or | xor | exch | cas | wrap | upto | fadd | fmin | fmax | downto
  deriving DecidableEq, Repr, Inhabited

/-- SHFL modes (R129), in code order. -/
inductive ShflMode where
  | lane | rot | step | flip
  deriving DecidableEq, Repr, Inhabited

/-- VOTE modes (R130), in code order. -/
inductive VoteMode where
  | mask | count | below | atleast | split
  deriving DecidableEq, Repr, Inhabited

/-- SPRED operations (R131), in code order. -/
inductive SpredOp where
  | add | min | max | and | or | xor | fadd | fmin | fmax
  deriving DecidableEq, Repr, Inhabited

/-- SIGWT conditions (R339), in code order. -/
inductive SigCond where
  | ge | eq | ne
  deriving DecidableEq, Repr, Inhabited

/-- RFT modes (R270), in code order. -/
inductive RftMode where
  | ret | skip | addr | endFibre | faultJob
  deriving DecidableEq, Repr, Inhabited

/-- TAGQ modes (R299), in code order. -/
inductive TagqMode where
  | aid | state | wait
  deriving DecidableEq, Repr, Inhabited

/-- INV types (R51), in code order. -/
inductive InvTy where
  | fp32 | int32 | uint32
  deriving DecidableEq, Repr, Inhabited

/-- AFEED kinds (R188), in code order. -/
inductive FeedKind where
  | reg | mem | b
  deriving DecidableEq, Repr, Inhabited

/-- What a patrol scrubber found (R246, R253). -/
inductive ScrubErr where
  | clean | corrected | uncorrectable
  deriving DecidableEq, Repr, Inhabited

/-- Status codes of asynchronous operations (R170), in code order. -/
inductive Status where
  | ok | fault | never | linkfail | denied | cancelled | dataerr | access
  deriving DecidableEq, Repr, Inhabited

/-- Kinds of recorded memory faults (R260). -/
inductive MemKind where
  | translation | protection | accessTable | misaligned | bounds | dataError | deferred
  deriving DecidableEq, Repr, Inhabited

/-- The entry a QPUSH sends to a home on another package (R227, R332): its words, the AIDs with their hop
numbers, and the producer's drained stamp. -/
structure PushMsg where
  queue : Nat
  words : List Word
  aids  : List (BitVec 32 × Nat)
  deriving DecidableEq, Repr, Inhabited

/-- How an explicit assumption is asked to end (R281, R298). -/
inductive Resolution where
  | affirm | deny (value : DWord) | withdraw
  deriving DecidableEq, Repr, Inhabited

/-- A message between collective sequencers (R324, R325). -/
structure CollMsg where
  job    : Nat
  tag    : Nat
  peer   : Nat           -- the package it comes from
  slot   : Nat
  ty     : Nat           -- TYPE of the sender's chunk
  values : List DWord    -- the chunk on the wire
  ord    : Nat           -- run ordinal, for an abort
  status : Status
  deriving DecidableEq, Repr, Inhabited

/-- Where a face of a crumb leads (R329): an operation of this package, or a router port
(0 to 35 the fabric ports, 36 + d the join of die d). -/
inductive FaceTo where
  | op (id : Nat) | port (p : Nat)
  deriving DecidableEq, Repr, Inhabited

/-- An interest as it reaches a router (R329): who asked, for which name, until which clk; the die and cluster that issued it, for its flow
(R317). -/
structure Interest where
  job      : Nat
  name     : DWord
  face     : FaceTo
  deadline : Nat
  die      : Nat
  clu      : Nat
  hops     : Nat         -- packages it may still enter (R317)
  deriving DecidableEq, Repr, Inhabited

/-- A named tile as it reaches a router on its way back (R330). -/
structure TileMsg where
  job   : Nat
  name  : DWord
  bytes : List Byte
  bad   : Bool           -- an uncorrectable element was read
  never : Bool           -- not a tile but the answer NEVER
  deriving DecidableEq, Repr, Inhabited

/-- What a fabric packet carries (R319 to R332). -/
inductive PktBody where
  | load    (die off size : Nat)
  | store   (die off : Nat) (bytes : List Byte)
  | atom    (die off size : Nat) (aop : AtomOp) (b b2 : DWord)
  | signal  (die off : Nat) (addIt : Bool) (v : DWord)
  | read    (die off len : Nat)
  | radd    (die off : Nat) (ty : Ty) (vals : List DWord)
  | push    (m : PushMsg)
  | resolve (aid : BitVec 32) (r : Resolution)
  | outcome (aid : BitVec 32) (die : Nat) (r : Resolution)
  | applied (aid : BitVec 32) (die : Nat)
  | chunk   (m : CollMsg)
  | credit  (m : CollMsg)
  | abort   (m : CollMsg)
  | deliver (die clu core rgi spOff bar : Nat) (bytes : List Byte) (st : Status)
  | pull    (die clu core rgi spOff len : Nat)
    -- a storer's read of a row of a buffer on another package (R326); the answer's bytes are the row's, then one for each 8-byte
    -- element, 1 where it could not be read
  | interest (i : Interest)
  | tile    (t : TileMsg)
  | report  (die : Nat) (gids : List Nat) (idle : Bool) (pushed popped sent recvd : BitVec 64)
    -- a die's report to a round of the completion check (R222), with the groups that system software placed there
  deriving DecidableEq, Repr, Inhabited

/-- A fabric packet (R317, R319, R322): source and target package, the flow it belongs to, its sequence
number in that flow, the hops it may still take, and its contents. -/
structure Packet where
  src  : Nat
  dst  : Nat
  die  : Nat            -- issuing die
  clu  : Nat            -- issuing cluster
  tdie : Nat            -- target die
  seq  : Nat
  hops : Nat
  job  : Nat
  body : PktBody
  deriving DecidableEq, Repr, Inhabited

/-- An acknowledgement of a packet of this package (R321, R322): the packet's number in the retransmit
buffer, the outcome at the target, and the bytes a read returned. -/
structure Ack where
  id     : Nat
  status : Status
  kind   : Option MemKind
  bytes  : List Byte
  deriving DecidableEq, Repr, Inhabited

/-- The fields every first word has beside its operands (R35): stall count, stop bit, guard bit. -/
structure Head where
  stall : BitVec 3
  stop  : Bool
  g     : Bool
  deriving DecidableEq, Repr, Inhabited

end Sys2Proof
end

