-- ==== Sys2Proof/Syntax.lean ====
section
/-! DEFINITION. The instructions: one constructor for each row of spec/opcode_table.json. The first 169 are
words that a clause holds (R47); the others are the table's events, each one step of a unit of the machine or
of the outside world, whole and indivisible (95_what_each_step_holds.md). A register, predicate, tile or queue
field keeps its seven bits; every code has become a name. -/

namespace Sys2Proof

/-- One row of the opcode table. -/
inductive Instr where
  | add (h : Head) (d : Reg) (a : Reg) (b : Reg)
  | sub (h : Head) (d : Reg) (a : Reg) (b : Reg)
  | mul (h : Head) (d : Reg) (a : Reg) (b : Reg)
  | and (h : Head) (d : Reg) (a : Reg) (b : Reg)
  | or (h : Head) (d : Reg) (a : Reg) (b : Reg)
  | xor (h : Head) (d : Reg) (a : Reg) (b : Reg)
  | andn (h : Head) (d : Reg) (a : Reg) (b : Reg)
  | shl (h : Head) (d : Reg) (a : Reg) (b : Reg)
  | shr (h : Head) (d : Reg) (a : Reg) (b : Reg)
  | sar (h : Head) (d : Reg) (a : Reg) (b : Reg)
  | rot (h : Head) (d : Reg) (a : Reg) (b : Reg)
  | mov (h : Head) (d : Reg) (a : Reg)
  | neg (h : Head) (d : Reg) (a : Reg)
  | abs (h : Head) (d : Reg) (a : Reg)
  | not (h : Head) (d : Reg) (a : Reg)
  | clz (h : Head) (d : Reg) (a : Reg)
  | popc (h : Head) (d : Reg) (a : Reg)
  | brev (h : Head) (d : Reg) (a : Reg)
  | addTyped (h : Head) (d : Reg) (a : Reg) (b : Reg) (ty : Ty) (sat : Bool)
  | subTyped (h : Head) (d : Reg) (a : Reg) (b : Reg) (ty : Ty) (sat : Bool)
  | mulTyped (h : Head) (d : Reg) (a : Reg) (b : Reg) (ty : Ty) (sat : Bool)
  | mulhi (h : Head) (d : Reg) (a : Reg) (b : Reg) (ty : Ty)
  | div (h : Head) (d : Reg) (a : Reg) (b : Reg) (ty : Ty) (sat : Bool)
  | rem (h : Head) (d : Reg) (a : Reg) (b : Reg) (ty : Ty)
  | minTyped (h : Head) (d : Reg) (a : Reg) (b : Reg) (ty : Ty)
  | maxTyped (h : Head) (d : Reg) (a : Reg) (b : Reg) (ty : Ty)
  | negTyped (h : Head) (d : Reg) (a : Reg) (ty : Ty) (sat : Bool)
  | absTyped (h : Head) (d : Reg) (a : Reg) (ty : Ty) (sat : Bool)
  | mad (h : Head) (d : Reg) (a : Reg) (b : Reg) (c : Reg) (ty : Ty) (sat : Bool)
  | bfx (h : Head) (d : Reg) (a : Reg) (b : Reg) (ty : Ty)
  | bfi (h : Head) (d : Reg) (a : Reg) (b : Reg) (c : Reg) (ty : Ty)
  | sel (h : Head) (d : Reg) (a : Reg) (b : Reg) (c : Reg) (ty : Ty)
  | addImm (h : Head) (d : Reg) (a : Reg) (lit : BitVec 32)
  | subImm (h : Head) (d : Reg) (a : Reg) (lit : BitVec 32)
  | mulImm (h : Head) (d : Reg) (a : Reg) (lit : BitVec 32)
  | andImm (h : Head) (d : Reg) (a : Reg) (lit : BitVec 32)
  | orImm (h : Head) (d : Reg) (a : Reg) (lit : BitVec 32)
  | xorImm (h : Head) (d : Reg) (a : Reg) (lit : BitVec 32)
  | andnImm (h : Head) (d : Reg) (a : Reg) (lit : BitVec 32)
  | shlImm (h : Head) (d : Reg) (a : Reg) (lit : BitVec 32)
  | shrImm (h : Head) (d : Reg) (a : Reg) (lit : BitVec 32)
  | sarImm (h : Head) (d : Reg) (a : Reg) (lit : BitVec 32)
  | rotImm (h : Head) (d : Reg) (a : Reg) (lit : BitVec 32)
  | minImm (h : Head) (d : Reg) (a : Reg) (lit : BitVec 32)
  | minImmU (h : Head) (d : Reg) (a : Reg) (lit : BitVec 32)
  | maxImm (h : Head) (d : Reg) (a : Reg) (lit : BitVec 32)
  | maxImmU (h : Head) (d : Reg) (a : Reg) (lit : BitVec 32)
  | movi (h : Head) (d : Reg) (imm : BitVec 14)
  | moviLit (h : Head) (d : Reg) (lit : BitVec 32)
  | movhi (h : Head) (d : Reg) (lit : BitVec 32)
  | setp (h : Head) (d : Reg) (a : Reg) (b : Reg) (c : Reg) (cond : BitVec 3) (ty : Ty) (merge : Bool) (tbl : BitVec 4)
  | plog (h : Head) (d : Reg) (a : Reg) (b : Reg) (c : Reg) (tbl : BitVec 8)
  | pmovToReg (h : Head) (d : Reg) (a : Reg)
  | pmovToPred (h : Head) (d : Reg) (a : Reg)
  | movs (h : Head) (d : Reg) (a : Reg)
  | movsw (h : Head) (d : Reg) (a : Reg)
  | bra (h : Head) (off : BitVec 21)
  | call (h : Head) (off : BitVec 21)
  | brx (h : Head) (a : Reg)
  | callx (h : Head) (a : Reg)
  | ret (h : Head)
  | endFibre (h : Head)
  | yield (h : Head)
  | nap (h : Head) (a : Reg)
  | nop (h : Head)
  | trap (h : Head) (d : Reg)
  | loopReg (h : Head) (a : Reg) (last : BitVec 16)
  | loopImm (h : Head) (cnt : BitVec 16) (last : BitVec 16)
  | lbrk (h : Head) (n : BitVec 32)
  | fork (h : Head) (d : Reg) (off : BitVec 32)
  | fadd (h : Head) (d : Reg) (a : Reg) (b : Reg) (rnd : Rnd)
  | fsub (h : Head) (d : Reg) (a : Reg) (b : Reg) (rnd : Rnd)
  | fmul (h : Head) (d : Reg) (a : Reg) (b : Reg) (rnd : Rnd)
  | fdiv (h : Head) (d : Reg) (a : Reg) (b : Reg) (rnd : Rnd)
  | ffma (h : Head) (d : Reg) (a : Reg) (b : Reg) (c : Reg) (rnd : Rnd)
  | fmin (h : Head) (d : Reg) (a : Reg) (b : Reg)
  | fmax (h : Head) (d : Reg) (a : Reg) (b : Reg)
  | frcp (h : Head) (d : Reg) (a : Reg) (rnd : Rnd)
  | fsqrt (h : Head) (d : Reg) (a : Reg) (rnd : Rnd)
  | frsq (h : Head) (d : Reg) (a : Reg) (rnd : Rnd)
  | frnd (h : Head) (d : Reg) (a : Reg) (rnd : Rnd)
  | fclass (h : Head) (d : Reg) (a : Reg) (ty : Ty)
  | fcmp (h : Head) (d : Reg) (a : Reg) (b : Reg) (c : Reg) (cond : BitVec 3) (merge : Bool) (tbl : BitVec 4)
  | dcmp (h : Head) (d : Reg) (a : Reg) (b : Reg) (c : Reg) (cond : BitVec 3) (merge : Bool) (tbl : BitVec 4)
  | fex2 (h : Head) (d : Reg) (a : Reg)
  | flg2 (h : Head) (d : Reg) (a : Reg)
  | fsin (h : Head) (d : Reg) (a : Reg)
  | fcos (h : Head) (d : Reg) (a : Reg)
  | ftanh (h : Head) (d : Reg) (a : Reg)
  | dadd (h : Head) (d : Reg) (a : Reg) (b : Reg) (rnd : Rnd)
  | dmul (h : Head) (d : Reg) (a : Reg) (b : Reg) (rnd : Rnd)
  | dfma (h : Head) (d : Reg) (a : Reg) (b : Reg) (c : Reg) (rnd : Rnd)
  | hadd2 (h : Head) (d : Reg) (a : Reg) (b : Reg) (ty : Ty) (rnd : Rnd)
  | hmul2 (h : Head) (d : Reg) (a : Reg) (b : Reg) (ty : Ty) (rnd : Rnd)
  | hfma2 (h : Head) (d : Reg) (a : Reg) (b : Reg) (c : Reg) (ty : Ty) (rnd : Rnd)
  | cvt (h : Head) (d : Reg) (a : Reg) (ty : Ty) (rnd : Rnd) (sat : Bool) (src : Ty)
  | qnt (h : Head) (d : Reg) (a : Reg) (c : Reg) (rnd : Rnd) (adj : Bool) (fmt : Fmt)
  | dqnt (h : Head) (d : Reg) (a : Reg) (c : Reg) (fmt : Fmt)
  | rand (h : Head) (d : Reg) (ty : Ty)
  | shfl (h : Head) (d : Reg) (a : Reg) (b : Reg) (c : Reg) (mode : ShflMode) (ty : Ty) (p : Reg)
  | vote (h : Head) (d : Reg) (a : Reg) (b : Reg) (c : Reg) (mode : VoteMode)
  | spred (h : Head) (d : Reg) (a : Reg) (c : Reg) (op : SpredOp) (ty : Ty) (rnd : Rnd) (scan : Bool)
  | qswap (h : Head) (d : Reg) (a : Reg) (ty : Ty) (dir : BitVec 2)
  | qbc (h : Head) (d : Reg) (a : Reg) (ty : Ty) (lane : BitVec 2)
  | ld (h : Head) (d : Reg) (a : Reg) (spc : Space) (sz : Size) (ord : Order) (sc : Scope) (off : BitVec 16)
  | st (h : Head) (a : Reg) (b : Reg) (spc : Space) (sz : Size) (ord : Order) (sc : Scope) (off : BitVec 16)
  | atom (h : Head) (d : Reg) (a : Reg) (b : Reg) (spc : Space) (sz : Size) (ord : Order) (sc : Scope) (aop : AtomOp) (off : BitVec 16)
  | red (h : Head) (a : Reg) (b : Reg) (spc : Space) (sz : Size) (ord : Order) (sc : Scope) (aop : AtomOp) (off : BitVec 16)
  | fence (h : Head) (d : Reg) (a : Reg)
  | efence (h : Head)
  | cpasync (h : Head) (d : Reg) (a : Reg) (b : Reg) (c : Reg) (bar : Bool) (ssp : Space) (dsp : Space)
  | gath (h : Head) (d : Reg) (a : Reg) (b : Reg) (c : Reg) (ssp : Space) (fmt : Fmt) (toq : Bool)
  | waitc (h : Head) (n : BitVec 8) (mask : BitVec 4)
  | ftest (h : Head) (d : Reg) (a : Reg)
  | fcancel (h : Head) (d : Reg) (a : Reg)
  | oqpop (h : Head) (d : Reg) (a : Reg) (n : BitVec 5)
  | oqrel (h : Head) (a : Reg)
  | aslice (h : Head) (d : Reg) (a : Reg) (hd : Bool)
  | astop (h : Head)
  | ploop (h : Head) (a : Reg) (last : BitVec 13)
  | afeed (h : Head) (d : Reg) (a : Reg) (b : Reg) (m : BitVec 11) (kind : FeedKind)
  | pwait (h : Head) (d : Reg) (n : BitVec 6)
  | barinit (h : Head) (a : Reg) (b : Reg)
  | bararr (h : Head) (a : Reg)
  | barwt (h : Head) (a : Reg) (b : Reg)
  | barst (h : Head) (d : Reg) (a : Reg)
  | cvdecl (h : Head) (c : Reg) (n : Reg)
  | mma (h : Head) (d : Reg) (a : Reg) (b : Reg) (c : Reg) (sc : Bool) (s32 : Bool) (fr : Bool) (spSrc : Bool) (reuse : Bool) (x : Bool) (fmt : Fmt) (hreg : Reg) (hd : Bool) (ssel : BitVec 2) (sreg : Reg)
  | accz (h : Head) (d : Reg)
  | accld (h : Head) (d : Reg) (a : Reg) (spc : Space)
  | accst (h : Head) (d : Reg) (a : Reg) (b : Reg) (rnd : Rnd) (spc : Space) (adj : Bool) (fmt : Fmt)
  | accrd (h : Head) (d : Reg) (a : Reg) (b : Reg)
  | qpush (h : Head) (d : Reg) (a : Reg) (b : Reg) (prio : BitVec 8) (t : Bool) (n : BitVec 3)
  | qpop (h : Head) (d : Reg) (a : Reg) (n : BitVec 3)
  | qpeek (h : Head) (d : Reg) (a : Reg) (c : Reg) (n : BitVec 3)
  | qcnt (h : Head) (d : Reg) (a : Reg)
  | dcarm (h : Head) (a : Reg) (b : Reg) (c : Reg) (q : Reg)
  | dcdec (h : Head) (a : Reg)
  | trig (h : Head)
  | dwait (h : Head) (d : Reg)
  | beat (h : Head)
  | evpost (h : Head) (a : Reg)
  | evpop (h : Head) (d : Reg) (nb : Bool)
  | guess (h : Head) (d : Reg) (a : Reg) (b : Reg) (c : Reg) (ty : Ty) (aidReg : Reg) (aid : Bool) (loc : Bool) (imm : Bool) (sw : Bool)
  | affirm (h : Head) (d : Reg) (a : Reg) (hd : Bool)
  | deny (h : Head) (d : Reg) (a : Reg) (b : Reg) (ty : Ty) (hd : Bool)
  | tagq (h : Head) (d : Reg) (a : Reg) (idx : BitVec 2) (mode : TagqMode)
  | puts (h : Head) (d : Reg) (a : Reg) (b : Reg) (c : Reg) (lh : Reg) (lhd : Bool) (addSig : Bool) (sig : Bool) (spc : Space)
  | get (h : Head) (d : Reg) (a : Reg) (b : Reg) (c : Reg) (bar : Bool) (spc : Space)
  | radd (h : Head) (d : Reg) (a : Reg) (b : Reg) (c : Reg) (ty : Ty) (lh : Reg) (lhd : Bool) (spc : Space)
  | sigwt (h : Head) (d : Reg) (a : Reg) (b : Reg) (c : Reg) (p : Reg) (cond : SigCond)
  | want (h : Head) (d : Reg) (a : Reg) (b : Reg) (c : Reg) (spc : Space) (life : BitVec 4)
  | announce (h : Head) (d : Reg) (a : Reg) (b : Reg) (c : Reg) (spc : Space)
  | twalk (h : Head) (d : Reg) (a : Reg) (tag : BitVec 6) (port : BitVec 6)
  | permit (h : Head) (d : Reg) (a : Reg) (b : Reg)
  | cseq (h : Head) (d : Reg) (a : Reg) (b : Reg)
  | sysc (h : Head) (n : Reg)
  | rft (h : Head) (a : Reg) (norep : Bool) (mode : RftMode)
  | awrd (h : Head) (d : Reg) (a : Reg) (b : Reg) (c : Reg)
  | awwr (h : Head) (d : Reg) (a : Reg) (b : Reg) (c : Reg)
  | hstop (h : Head) (d : Reg) (a : Reg) (grp : Bool)
  | hresume (h : Head) (a : Reg) (grp : Bool)
  | brkp (h : Head) (n : BitVec 8)
  | trace (h : Head) (a : Reg) (b : Reg) (two : Bool) (id : BitVec 8)
  | mark (h : Head) (m : BitVec 13)
  | rep (stop : Bool) (n : BitVec 6) (sd : Bool) (sa : Bool) (sb : Bool) (sc : Bool) (two : Bool)
  | inv (h : Head) (t : Reg) (x : Reg) (k : BitVec 2) (ty : InvTy) (y : Reg) (dec : Bool) (tol : BitVec 5) (iter : BitVec 6)
  | jmpt (h : Head) (idx : BitVec 20)
  | padw (h : Head)
  | variableLatencyComplete (op : Nat)
  | loadDataArrival (op : Nat)
  | storeAck (op : Nat)
  | scratchpadLoadComplete (op : Nat)
  | fibreEnd (fib : Nat)
  | groupResourceRelease (grp : Nat)
  | napWake (fib : Nat)
  | swapOut (grp : Nat)
  | checkpointSpillComplete (fib : Nat)
  | pacerFillComplete (op : Nat)
  | walkComplete (walk : Nat)
  | mmaStart (core : Nat)
  | mmaComplete (core : Nat)
  | copyPieceLand (op : Nat)
  | gathRowArrival (op : Nat) (row : Nat)
  | barwtTimeout (fib : Nat)
  | accTransferComplete (op : Nat)
  | groupPlace (cluster : Nat)
  | queueEntryArrive (msg : Nat)
  | qpopReturn (fib : Nat)
  | dcarmArrive (msg : Nat)
  | dcdecArrive (msg : Nat)
  | quiescenceRound (job : Nat)
  | handlerTakeRecord (core : Nat)
  | replayComplete (fib : Nat)
  | watchedOpResolve (die : Nat) (slot : Nat)
  | resolutionAtHome (msg : Nat)
  | affirmApply (die : Nat) (aid : BitVec 32)
  | denyApply (die : Nat) (aid : BitVec 32)
  | resolutionAck (die : Nat) (aid : BitVec 32)
  | localCompletion (op : Nat)
  | collEnd (prog : Nat)
  | collLoad (prog : Nat)
  | collSend (prog : Nat)
  | collRadd (prog : Nat)
  | collRecvAdd (prog : Nat)
  | collRecvCopy (prog : Nat)
  | collWrite (prog : Nat)
  | collSignal (prog : Nat)
  | collWaitge (prog : Nat)
  | tileWalkTile (walk : Nat)
  | walkPermitArrive (op : Nat)
  | sigwtRecheck (fib : Nat)
  | forcedRotation (core : Nat)
  | cohortRelease (job : Nat) (cohort : Nat)
  | queueCreditGrant (job : Nat) (queue : Nat) (die : Nat) (n : Nat)
  | queueDeadlock (job : Nat) (queue : Nat)
  | watchdogTest (job : Nat)
  | wsLoadComplete (die : Nat)
  | dtinvComplete (die : Nat)
  | evictionStopTimeout (grp : Nat)
  | evictionSave (grp : Nat)
  | packageReset
  | launch (fn : Nat) (queue : Nat) (idx : BitVec 16)
  | jobwait (fn : Nat) (queue : Nat) (idx : BitVec 16)
  | wsload (fn : Nat) (queue : Nat) (idx : BitVec 16)
  | halt (fn : Nat) (queue : Nat) (idx : BitVec 16)
  | resume (fn : Nat) (queue : Nat) (idx : BitVec 16)
  | kill (fn : Nat) (queue : Nat) (idx : BitVec 16)
  | unlistedCommand (fn : Nat) (queue : Nat) (idx : BitVec 16)
  | fabricPacketArrive (port : Nat) (pkt : Packet)
  | retransmitTimeout (seq : Nat)
  | interestArrive (port : Nat) (face : Interest)
  | faceDeadline (port : Nat) (face : Interest)
  | sigwtTimeout (fib : Nat)
  | dbgTokenResult
  | traceSample (core : Nat)
  | instructionFetchError (fib : Nat) (second : Bool)
  | hostInboundWrite (fn : Nat) (addr : Nat) (bytes : List Byte)
  | hostInboundRead (fn : Nat) (addr : Nat) (len : Nat)
  | queueCreditReturn (job : Nat) (queue : Nat) (die : Nat) (n : Nat)
  | wsPhaseEnter (die : Nat)
  | wsPhaseLeave (die : Nat)
  | wsLoadGo (die : Nat)
  | wsRefreshStart (die : Nat) (bank : Nat)
  | wsRefreshEnd (die : Nat) (bank : Nat)
  | wsScrubVisit (die : Nat) (off : Nat) (err : ScrubErr)
  | dramScrubVisit (granule : Nat) (err : ScrubErr)
  | dieFatalError (die : Nat)
  | dtinvPage (die : Nat)
  | dtinvJob (die : Nat)
  | dtinvAll (die : Nat)
  | dtinvReservedScope (die : Nat)
  | ceccClear (core : Nat)
  | deccClear (die : Nat)
  | cevdropClear (cluster : Nat)
  | fpstatReplayClear (port : Nat)
  | ucieLinkDown (die : Nat)
  | hqSqDoorbell (fn : Nat) (queue : Nat) (tail : BitVec 32)
  | hqCqDoorbell (fn : Nat) (queue : Nat) (head : BitVec 32)
  | lockInterfaceRequest (fn : Nat)
  | startInterfaceRequest (fn : Nat) (nonce : BitVec 256)
  | stopInterfaceRequest (fn : Nat)
  | getDeviceInterfaceReport (fn : Nat)
  | lockedFieldWrite (fn : Nat)
  | ideIntegrityFailure (fn : Nat)
  | functionLevelReset (fn : Nat)
  | salpolLock
  | voltageClockGlitch
  | fuseIntegrityFailure
  | powerLimit (clks : Nat)
  | thermalThrottle (clks : Nat)
  | thermalShutdown
  | flitCrcReplay (port : Nat) (again : Nat)
  | fabricLinkDown (port : Nat)
  | fabricPacketForward (pkt : Packet)
  | fabricAckArrive (ack : Ack)
  | collChunkArrive (msg : CollMsg)
  | collCreditGrant (msg : CollMsg)
  | collAbortReceive (msg : CollMsg)
  | tileReturn (port : Nat) (tile : TileMsg)
  | dbgStepFibre (core : Nat)
  | dbgStopSpan (core : Nat)
  | dbgResumeSpan (core : Nat)
  | dbgResumeFibre (core : Nat)
  | dbgTokenVerify
  | topdownClear (core : Nat)
  | topdownFreeze (core : Nat) (on : Bool)
  | noiseModeDirect (core : Nat)
  | noiseModeLog (core : Nat)
  | noiseModeReplay (core : Nat)
  | registerWrite (off : Nat) (size : Nat) (val : BitVec 64)
  | fabricLinkRetrain (port : Nat)
  | lifeCycleAdvance (state : BitVec 2)
  deriving DecidableEq, Repr

end Sys2Proof
end

