-- ==== Sys2Proof/Machine/Legal.lean ====
section
/-! DEFINITION. What each word reads and writes, and when its fields are legal (R38 to R40, R148). The causes
are those of R56. -/

namespace Sys2Proof

/-- A run of registers a field names: the first, how many, and the multiple the first must be (R40). -/
structure Run where
  start : Nat
  len   : Nat
  align : Nat
  deriving DecidableEq, Repr

/-- The registers of a run. -/
def Run.regs (r : Run) : List Nat := (List.range r.len).map (r.start + ·)
/-- A run that is only there under a condition. -/
def Run.when (b : Bool) (r : Run) : Run := if b then r else ⟨0, 0, 1⟩
/-- One of two runs. -/
def Run.either (b : Bool) (r q : Run) : Run := if b then r else q

/-- Types that fill an even:odd pair (R8, R91, R115). -/
def Ty.is64 : Ty → Bool
  | .s64 | .ui64 | .f64 => true
  | _ => false
/-- Integer types (R38). -/
def Ty.isInt : Ty → Bool
  | .f32 | .f64 | .f16 | .bf16 => false
  | _ => true
/-- Signed integer types (R16). -/
def Ty.signed : Ty → Bool
  | .s32 | .s64 | .s16 | .s8 => true
  | _ => false
/-- Width in bits (R8, R16). -/
def Ty.width : Ty → Nat
  | .s32 | .ui32 | .f32 => 32
  | .s64 | .ui64 | .f64 => 64
  | .s8 | .ui8 => 8
  | _ => 16
/-- Bits of precision of a float type, the hidden bit included (R8). -/
def Ty.prec : Ty → Nat
  | .f32 => 24 | .f64 => 53 | .f16 => 11 | .bf16 => 8
  | _ => 0
/-- The registers a field of this type names. -/
def Ty.run (t : Ty) (r : Reg) : Run := if t.is64 then ⟨r.toNat, 2, 2⟩ else ⟨r.toNat, 1, 1⟩

/-- The BFP formats, codes 0 to 9 (R20). -/
def Fmt.isBfp : Fmt → Bool
  | .bfp2 | .bfp3 | .bfp4 | .bfp5 | .bfp6 | .bfp7 | .bfp8 | .bfp12 | .bfp16 | .bfp24 => true
  | _ => false
/-- The integer formats the s32 mode accepts (R27). -/
def Fmt.isInt : Fmt → Bool
  | .int2 | .int4 | .uint4 | .int8 | .uint8 => true
  | _ => false
/-- The width of the BFP the format converts to, in narrow mode (R20). -/
def Fmt.width : Fmt → Nat
  | .bfp2 | .int2 => 2 | .bfp3 => 3 | .bfp4 | .int4 => 4 | .bfp5 | .uint4 => 5
  | .bfp6 | .e2m1 => 6 | .bfp7 => 7
  | .bfp8 | .int8 | .uint8 | .e2m3 | .e3m2 | .e4m3 | .e5m2 => 8
  | .bfp12 => 12 | .bfp16 | .f16 | .bf16 => 16 | .bfp24 | .f19 | .f32 => 24
/-- The width in exact mode, none where the format has no exact mode (R20). -/
def Fmt.exactWidth : Fmt → Option Nat
  | .uint8 => some 12 | .e3m2 => some 12 | .e4m3 => some 24
  | .e5m2 | .f16 | .bf16 | .f19 | .f32 => none
  | f => some f.width
/-- Whether the format has an exact mode (R20); a BFP operand is not converted and takes either bit (R180). -/
def Fmt.hasExact (f : Fmt) : Bool := f.exactWidth.isSome
/-- Bits of one stored element (R18, R20); FP19 fills a 32-bit word. -/
def Fmt.bits : Fmt → Nat
  | .bfp2 | .int2 => 2 | .bfp3 => 3 | .bfp4 | .int4 | .uint4 | .e2m1 => 4 | .bfp5 => 5
  | .bfp6 | .e2m3 | .e3m2 => 6 | .bfp7 => 7
  | .bfp8 | .int8 | .uint8 | .e4m3 | .e5m2 => 8
  | .bfp12 => 12 | .bfp16 | .f16 | .bf16 => 16 | .bfp24 => 24 | .f19 | .f32 => 32
/-- Registers of an A row of 64 elements (R179). -/
def Fmt.rowRegs (f : Fmt) : Nat := 2 * f.bits

/-- Spaces whose address operand is an even:odd pair (R164). -/
def Space.wide : Space → Bool
  | .g | .ws | .sys => true
  | _ => false
/-- The registers of an address operand. -/
def Space.run (s : Space) (r : Reg) : Run := if s.wide then ⟨r.toNat, 2, 2⟩ else ⟨r.toNat, 1, 1⟩
/-- Bytes of an access (R37). -/
def Size.bytes : Size → Nat
  | .b8 => 1 | .b16 => 2 | .b32 => 4 | .b64 => 8 | .b128 => 16
/-- The registers an access of this size moves (R164): one, an even pair, or four from a multiple of 4. -/
def Size.run (z : Size) (r : Reg) : Run :=
  match z with
  | .b64 => ⟨r.toNat, 2, 2⟩
  | .b128 => ⟨r.toNat, 4, 4⟩
  | _ => ⟨r.toNat, 1, 1⟩
/-- The data registers of an atomic: .cas uses two operands (R167). -/
def atomRun (o : AtomOp) (z : Size) (r : Reg) : Run :=
  if o == .cas then (if z == .b64 then ⟨r.toNat, 4, 4⟩ else ⟨r.toNat, 2, 2⟩) else z.run r

/-- Special registers that fill a pair (R48). -/
def srWide (n : Nat) : Bool := n == 0x07 || n == 0x08 || n == 0x14
/-- Special-register numbers that exist (R48). -/
def srListed (n : Nat) : Bool := n ≤ 0x1C || (0x20 ≤ n && n ≤ 0x27)
/-- Special registers that MOVSW writes (R48). -/
def srWritable (n : Nat) : Bool :=
  n == 0x08 || n == 0x09 || n == 0x0A || (0x0F ≤ n && n ≤ 0x11) || (0x13 ≤ n && n ≤ 0x1A) ||
  (0x20 ≤ n && n ≤ 0x27)

/-- VOTE modes that write a register (R130). -/
def voteToReg : VoteMode → Bool
  | .mask | .count | .below => true
  | _ => false
/-- The types an SPRED operation takes (R131). -/
def spredTyOk (o : SpredOp) (t : Ty) : Bool :=
  match o with
  | .fadd | .fmin | .fmax => t == .f32
  | _ => t != .f32
/-- CVT's .sat is for an integer source and a narrower or differently signed integer destination (R124). -/
def cvtSatOk (dst src : Ty) : Bool :=
  dst.isInt && src.isInt && (dst.width < src.width || dst.signed != src.signed)
/-- Conversions that can be inexact, which alone take a rounding code (R124). -/
def cvtRounds (dst src : Ty) : Bool :=
  if dst.isInt then !src.isInt
  else if src.isInt then dst.prec < (if src.signed then src.width - 1 else src.width)
  else !(dst == src || dst == .f64 || (dst == .f32 && src != .f64))

/-- The bits of AFEED's mods above the kind that the kind leaves unused are zero (R188). -/
def feedModsOk (k : FeedKind) (m : BitVec 11) : Bool :=
  match k with
  | .reg => m &&& 0x707#11 == 0
  | .mem => m &&& 0x7F8#11 == 0
  | .b => m &&& 0x400#11 == 0
/-- The source space of AFEED (R188) as a code. -/
def feedSpace (m : BitVec 11) : Nat := (m.extractLsb 2 0).toNat
/-- The codes of AFEED's mods that are listed: a space a Pacer access may name (R154), a format of R20, a mode the
format has. -/
def feedCodesOk (k : FeedKind) (m : BitVec 11) : Bool :=
  match k with
  | .reg => true
  | .mem => feedSpace m < 4
  | .b => feedSpace m < 4 && (m.extractLsb 7 3).toNat < 24 &&
      !(m.getLsbD 8 && (m.extractLsb 7 3).toNat ≥ 19)
/-- AFEED's a field: registers for kind 0, an address for the others. -/
def feedRunA (k : FeedKind) (m : BitVec 11) (r : Reg) : Run :=
  match k with
  | .reg => ⟨r.toNat, (m.extractLsb 7 3).toNat + 1, 1⟩
  | _ => if feedSpace m ≥ 2 then ⟨r.toNat, 2, 2⟩ else ⟨r.toNat, 1, 1⟩
/-- AFEED's b field: the byte count of kind 1. -/
def feedRunB (k : FeedKind) (_m : BitVec 11) (r : Reg) : Run := Run.when (k == .mem) ⟨r.toNat, 1, 1⟩

/-- The 32 predicates of a block (R104). -/
def blockPreds (k : Nat) : List Nat := (List.range 32).map (32 * k + ·)

/-- The registers a word reads and waits for (R40, R165, R170). -/
def Instr.reads : Instr → List Run
  | .add _ _ a b => [⟨a.toNat, 1, 1⟩, ⟨b.toNat, 1, 1⟩]
  | .sub _ _ a b => [⟨a.toNat, 1, 1⟩, ⟨b.toNat, 1, 1⟩]
  | .mul _ _ a b => [⟨a.toNat, 1, 1⟩, ⟨b.toNat, 1, 1⟩]
  | .and _ _ a b => [⟨a.toNat, 1, 1⟩, ⟨b.toNat, 1, 1⟩]
  | .or _ _ a b => [⟨a.toNat, 1, 1⟩, ⟨b.toNat, 1, 1⟩]
  | .xor _ _ a b => [⟨a.toNat, 1, 1⟩, ⟨b.toNat, 1, 1⟩]
  | .andn _ _ a b => [⟨a.toNat, 1, 1⟩, ⟨b.toNat, 1, 1⟩]
  | .shl _ _ a b => [⟨a.toNat, 1, 1⟩, ⟨b.toNat, 1, 1⟩]
  | .shr _ _ a b => [⟨a.toNat, 1, 1⟩, ⟨b.toNat, 1, 1⟩]
  | .sar _ _ a b => [⟨a.toNat, 1, 1⟩, ⟨b.toNat, 1, 1⟩]
  | .rot _ _ a b => [⟨a.toNat, 1, 1⟩, ⟨b.toNat, 1, 1⟩]
  | .neg _ _ a => [⟨a.toNat, 1, 1⟩]
  | .abs _ _ a => [⟨a.toNat, 1, 1⟩]
  | .not _ _ a => [⟨a.toNat, 1, 1⟩]
  | .clz _ _ a => [⟨a.toNat, 1, 1⟩]
  | .popc _ _ a => [⟨a.toNat, 1, 1⟩]
  | .brev _ _ a => [⟨a.toNat, 1, 1⟩]
  | .addTyped _ _ a b ty _ => [ty.run a, ty.run b]
  | .subTyped _ _ a b ty _ => [ty.run a, ty.run b]
  | .mulTyped _ _ a b ty _ => [ty.run a, ty.run b]
  | .mulhi _ _ a b ty => [ty.run a, ty.run b]
  | .div _ _ a b ty _ => [ty.run a, ty.run b]
  | .rem _ _ a b ty => [ty.run a, ty.run b]
  | .minTyped _ _ a b ty => [ty.run a, ty.run b]
  | .maxTyped _ _ a b ty => [ty.run a, ty.run b]
  | .negTyped _ _ a ty _ => [ty.run a]
  | .absTyped _ _ a ty _ => [ty.run a]
  | .mad _ _ a b c ty _ => [ty.run a, ty.run b, ty.run c]
  | .bfx _ _ a b ty => [ty.run a, ⟨b.toNat, 1, 1⟩]
  | .bfi _ _ a b c ty => [ty.run a, ⟨b.toNat, 1, 1⟩, ty.run c]
  | .sel _ _ a b _ ty => [ty.run a, ty.run b]
  | .addImm _ _ a _ => [⟨a.toNat, 1, 1⟩]
  | .subImm _ _ a _ => [⟨a.toNat, 1, 1⟩]
  | .mulImm _ _ a _ => [⟨a.toNat, 1, 1⟩]
  | .andImm _ _ a _ => [⟨a.toNat, 1, 1⟩]
  | .orImm _ _ a _ => [⟨a.toNat, 1, 1⟩]
  | .xorImm _ _ a _ => [⟨a.toNat, 1, 1⟩]
  | .andnImm _ _ a _ => [⟨a.toNat, 1, 1⟩]
  | .shlImm _ _ a _ => [⟨a.toNat, 1, 1⟩]
  | .shrImm _ _ a _ => [⟨a.toNat, 1, 1⟩]
  | .sarImm _ _ a _ => [⟨a.toNat, 1, 1⟩]
  | .rotImm _ _ a _ => [⟨a.toNat, 1, 1⟩]
  | .minImm _ _ a _ => [⟨a.toNat, 1, 1⟩]
  | .minImmU _ _ a _ => [⟨a.toNat, 1, 1⟩]
  | .maxImm _ _ a _ => [⟨a.toNat, 1, 1⟩]
  | .maxImmU _ _ a _ => [⟨a.toNat, 1, 1⟩]
  | .setp _ _ a b _ _ ty _ _ => [ty.run a, ty.run b]
  | .pmovToPred _ _ a => [⟨a.toNat, 1, 1⟩]
  | .movsw _ d a => [Run.either (srWide a.toNat) ⟨d.toNat, 2, 2⟩ ⟨d.toNat, 1, 1⟩]
  | .brx _ a => [⟨a.toNat, 2, 2⟩]
  | .callx _ a => [⟨a.toNat, 2, 2⟩]
  | .nap _ a => [⟨a.toNat, 1, 1⟩]
  | .loopReg _ a _ => [⟨a.toNat, 1, 1⟩]
  | .fadd _ _ a b _ => [⟨a.toNat, 1, 1⟩, ⟨b.toNat, 1, 1⟩]
  | .fsub _ _ a b _ => [⟨a.toNat, 1, 1⟩, ⟨b.toNat, 1, 1⟩]
  | .fmul _ _ a b _ => [⟨a.toNat, 1, 1⟩, ⟨b.toNat, 1, 1⟩]
  | .fdiv _ _ a b _ => [⟨a.toNat, 1, 1⟩, ⟨b.toNat, 1, 1⟩]
  | .ffma _ _ a b c _ => [⟨a.toNat, 1, 1⟩, ⟨b.toNat, 1, 1⟩, ⟨c.toNat, 1, 1⟩]
  | .fmin _ _ a b => [⟨a.toNat, 1, 1⟩, ⟨b.toNat, 1, 1⟩]
  | .fmax _ _ a b => [⟨a.toNat, 1, 1⟩, ⟨b.toNat, 1, 1⟩]
  | .frcp _ _ a _ => [⟨a.toNat, 1, 1⟩]
  | .fsqrt _ _ a _ => [⟨a.toNat, 1, 1⟩]
  | .frsq _ _ a _ => [⟨a.toNat, 1, 1⟩]
  | .frnd _ _ a _ => [⟨a.toNat, 1, 1⟩]
  | .fclass _ _ a ty => [ty.run a]
  | .fcmp _ _ a b _ _ _ _ => [⟨a.toNat, 1, 1⟩, ⟨b.toNat, 1, 1⟩]
  | .dcmp _ _ a b _ _ _ _ => [⟨a.toNat, 2, 2⟩, ⟨b.toNat, 2, 2⟩]
  | .fex2 _ _ a => [⟨a.toNat, 1, 1⟩]
  | .flg2 _ _ a => [⟨a.toNat, 1, 1⟩]
  | .fsin _ _ a => [⟨a.toNat, 1, 1⟩]
  | .fcos _ _ a => [⟨a.toNat, 1, 1⟩]
  | .ftanh _ _ a => [⟨a.toNat, 1, 1⟩]
  | .dadd _ _ a b _ => [⟨a.toNat, 2, 2⟩, ⟨b.toNat, 2, 2⟩]
  | .dmul _ _ a b _ => [⟨a.toNat, 2, 2⟩, ⟨b.toNat, 2, 2⟩]
  | .dfma _ _ a b c _ => [⟨a.toNat, 2, 2⟩, ⟨b.toNat, 2, 2⟩, ⟨c.toNat, 2, 2⟩]
  | .hadd2 _ _ a b _ _ => [⟨a.toNat, 1, 1⟩, ⟨b.toNat, 1, 1⟩]
  | .hmul2 _ _ a b _ _ => [⟨a.toNat, 1, 1⟩, ⟨b.toNat, 1, 1⟩]
  | .hfma2 _ _ a b c _ _ => [⟨a.toNat, 1, 1⟩, ⟨b.toNat, 1, 1⟩, ⟨c.toNat, 1, 1⟩]
  | .cvt _ _ a _ _ _ src => [src.run a]
  | .qnt _ _ a _ _ _ _ => [⟨a.toNat, 32, 1⟩]
  | .dqnt _ _ a c fmt => [⟨a.toNat, fmt.width, 1⟩, ⟨c.toNat, 1, 1⟩]
  | .shfl _ _ a b c _ ty _ => [ty.run a, ⟨b.toNat, 1, 1⟩, ⟨c.toNat, 1, 1⟩]
  | .vote _ _ _ b c mode => [Run.when (mode == .atleast) ⟨b.toNat, 1, 1⟩, ⟨c.toNat, 1, 1⟩]
  | .spred _ _ a c _ ty _ _ => [ty.run a, ⟨c.toNat, 1, 1⟩]
  | .qswap _ _ a ty _ => [ty.run a]
  | .qbc _ _ a ty _ => [ty.run a]
  | .ld _ _ a spc _ _ _ _ => [spc.run a]
  | .st _ a b spc sz _ _ _ => [spc.run a, sz.run b]
  | .atom _ _ a b spc sz _ _ aop _ => [spc.run a, atomRun aop sz b]
  | .red _ a b spc sz _ _ aop _ => [spc.run a, atomRun aop sz b]
  | .cpasync _ _ a b c bar ssp dsp => [dsp.run a, ssp.run b, Run.either bar ⟨c.toNat, 2, 2⟩ ⟨c.toNat, 1, 1⟩]
  | .gath _ _ a b c _ _ toq => [Run.when (!toq) ⟨a.toNat, 1, 1⟩, ⟨b.toNat, 2, 2⟩, ⟨c.toNat, 2, 2⟩]
  | .aslice _ _ a _ => [⟨a.toNat, 2, 2⟩]
  | .ploop _ a _ => [⟨a.toNat, 1, 1⟩]
  | .afeed _ _ a b m kind => [feedRunA kind m a, feedRunB kind m b]
  | .barinit _ a b => [⟨a.toNat, 1, 1⟩, ⟨b.toNat, 1, 1⟩]
  | .bararr _ a => [⟨a.toNat, 1, 1⟩]
  | .barwt _ a b => [⟨a.toNat, 1, 1⟩, ⟨b.toNat, 1, 1⟩]
  | .barst _ _ a => [⟨a.toNat, 1, 1⟩]
  | .mma _ _ a b _ sc _ _ spSrc _ _ fmt _ _ _ sreg => [⟨a.toNat, fmt.rowRegs, 1⟩, Run.when spSrc ⟨b.toNat, 1, 1⟩, Run.when (fmt.isBfp || sc) ⟨sreg.toNat, 1, 1⟩]
  | .accld _ _ a spc => [spc.run a]
  | .accst _ _ a b _ spc _ fmt => [spc.run a, Run.when (fmt != .f32) (spc.run b)]
  | .accrd _ _ _ b => [⟨b.toNat, 1, 1⟩]
  | .qpush _ _ a b _ t n => [⟨a.toNat, n.toNat + 1, 1⟩, Run.when t ⟨b.toNat, 1, 1⟩]
  | .dcarm _ a b c _ => [⟨a.toNat, 1, 1⟩, ⟨b.toNat, 1, 1⟩, ⟨c.toNat, 8, 1⟩]
  | .dcdec _ a => [⟨a.toNat, 1, 1⟩]
  | .evpost _ a => [⟨a.toNat, 1, 1⟩]
  | .guess _ _ _ b c ty _ _ loc imm _ => [Run.when (!imm) (ty.run b), Run.when loc ⟨c.toNat, 2, 2⟩]
  | .affirm _ _ a _ => [⟨a.toNat, 1, 1⟩]
  | .deny _ _ a b ty _ => [⟨a.toNat, 1, 1⟩, ty.run b]
  | .tagq _ _ a _ mode => [Run.when (mode != .aid) ⟨a.toNat, 1, 1⟩]
  | .puts _ _ a b c _ _ _ sig spc => [⟨a.toNat, 2, 2⟩, spc.run b, Run.either sig ⟨c.toNat, 6, 2⟩ ⟨c.toNat, 1, 1⟩]
  | .get _ _ a b c bar spc => [spc.run a, ⟨b.toNat, 2, 2⟩, Run.either bar ⟨c.toNat, 2, 2⟩ ⟨c.toNat, 1, 1⟩]
  | .radd _ _ a b c _ _ _ spc => [⟨a.toNat, 2, 2⟩, spc.run b, ⟨c.toNat, 1, 1⟩]
  | .sigwt _ _ a b c _ _ => [⟨a.toNat, 2, 2⟩, ⟨b.toNat, 2, 2⟩, ⟨c.toNat, 1, 1⟩]
  | .want _ _ a b c spc _ => [spc.run a, ⟨b.toNat, 2, 2⟩, ⟨c.toNat, 1, 1⟩]
  | .announce _ _ a b c spc => [spc.run a, ⟨b.toNat, 2, 2⟩, ⟨c.toNat, 1, 1⟩]
  | .twalk _ _ a _ _ => [⟨a.toNat, 2, 2⟩]
  | .permit _ _ a b => [⟨a.toNat, 1, 1⟩, ⟨b.toNat, 1, 1⟩]
  | .cseq _ _ a b => [⟨a.toNat, 2, 2⟩, ⟨b.toNat, 1, 1⟩]
  | .rft _ a _ mode => [Run.when (mode == .addr) ⟨a.toNat, 2, 2⟩]
  | .awrd _ _ a b _ => [⟨a.toNat, 1, 1⟩, ⟨b.toNat, 1, 1⟩]
  | .awwr _ d a b _ => [⟨d.toNat, 1, 1⟩, ⟨a.toNat, 1, 1⟩, ⟨b.toNat, 1, 1⟩]
  | .hstop _ _ a _ => [⟨a.toNat, 1, 1⟩]
  | .hresume _ a _ => [⟨a.toNat, 1, 1⟩]
  | .trace _ a b two _ => [⟨a.toNat, 1, 1⟩, Run.when two ⟨b.toNat, 1, 1⟩]
  | .inv _ t _ _ _ _ _ _ _ => [⟨t.toNat, 1, 1⟩]
  | _ => []

/-- The registers a word writes (R40). -/
def Instr.writes : Instr → List Run
  | .add _ d _ _ => [⟨d.toNat, 1, 1⟩]
  | .sub _ d _ _ => [⟨d.toNat, 1, 1⟩]
  | .mul _ d _ _ => [⟨d.toNat, 1, 1⟩]
  | .and _ d _ _ => [⟨d.toNat, 1, 1⟩]
  | .or _ d _ _ => [⟨d.toNat, 1, 1⟩]
  | .xor _ d _ _ => [⟨d.toNat, 1, 1⟩]
  | .andn _ d _ _ => [⟨d.toNat, 1, 1⟩]
  | .shl _ d _ _ => [⟨d.toNat, 1, 1⟩]
  | .shr _ d _ _ => [⟨d.toNat, 1, 1⟩]
  | .sar _ d _ _ => [⟨d.toNat, 1, 1⟩]
  | .rot _ d _ _ => [⟨d.toNat, 1, 1⟩]
  | .mov _ d _ => [⟨d.toNat, 1, 1⟩]
  | .neg _ d _ => [⟨d.toNat, 1, 1⟩]
  | .abs _ d _ => [⟨d.toNat, 1, 1⟩]
  | .not _ d _ => [⟨d.toNat, 1, 1⟩]
  | .clz _ d _ => [⟨d.toNat, 1, 1⟩]
  | .popc _ d _ => [⟨d.toNat, 1, 1⟩]
  | .brev _ d _ => [⟨d.toNat, 1, 1⟩]
  | .addTyped _ d _ _ ty _ => [ty.run d]
  | .subTyped _ d _ _ ty _ => [ty.run d]
  | .mulTyped _ d _ _ ty _ => [ty.run d]
  | .mulhi _ d _ _ ty => [ty.run d]
  | .div _ d _ _ ty _ => [ty.run d]
  | .rem _ d _ _ ty => [ty.run d]
  | .minTyped _ d _ _ ty => [ty.run d]
  | .maxTyped _ d _ _ ty => [ty.run d]
  | .negTyped _ d _ ty _ => [ty.run d]
  | .absTyped _ d _ ty _ => [ty.run d]
  | .mad _ d _ _ _ ty _ => [ty.run d]
  | .bfx _ d _ _ ty => [ty.run d]
  | .bfi _ d _ _ _ ty => [ty.run d]
  | .sel _ d _ _ _ ty => [ty.run d]
  | .addImm _ d _ _ => [⟨d.toNat, 1, 1⟩]
  | .subImm _ d _ _ => [⟨d.toNat, 1, 1⟩]
  | .mulImm _ d _ _ => [⟨d.toNat, 1, 1⟩]
  | .andImm _ d _ _ => [⟨d.toNat, 1, 1⟩]
  | .orImm _ d _ _ => [⟨d.toNat, 1, 1⟩]
  | .xorImm _ d _ _ => [⟨d.toNat, 1, 1⟩]
  | .andnImm _ d _ _ => [⟨d.toNat, 1, 1⟩]
  | .shlImm _ d _ _ => [⟨d.toNat, 1, 1⟩]
  | .shrImm _ d _ _ => [⟨d.toNat, 1, 1⟩]
  | .sarImm _ d _ _ => [⟨d.toNat, 1, 1⟩]
  | .rotImm _ d _ _ => [⟨d.toNat, 1, 1⟩]
  | .minImm _ d _ _ => [⟨d.toNat, 1, 1⟩]
  | .minImmU _ d _ _ => [⟨d.toNat, 1, 1⟩]
  | .maxImm _ d _ _ => [⟨d.toNat, 1, 1⟩]
  | .maxImmU _ d _ _ => [⟨d.toNat, 1, 1⟩]
  | .movi _ d _ => [⟨d.toNat, 1, 1⟩]
  | .moviLit _ d _ => [⟨d.toNat, 1, 1⟩]
  | .movhi _ d _ => [⟨d.toNat, 2, 2⟩]
  | .pmovToReg _ d _ => [⟨d.toNat, 1, 1⟩]
  | .movs _ d a => [Run.either (srWide a.toNat) ⟨d.toNat, 2, 2⟩ ⟨d.toNat, 1, 1⟩]
  | .fork _ d _ => [⟨d.toNat, 1, 1⟩]
  | .fadd _ d _ _ _ => [⟨d.toNat, 1, 1⟩]
  | .fsub _ d _ _ _ => [⟨d.toNat, 1, 1⟩]
  | .fmul _ d _ _ _ => [⟨d.toNat, 1, 1⟩]
  | .fdiv _ d _ _ _ => [⟨d.toNat, 1, 1⟩]
  | .ffma _ d _ _ _ _ => [⟨d.toNat, 1, 1⟩]
  | .fmin _ d _ _ => [⟨d.toNat, 1, 1⟩]
  | .fmax _ d _ _ => [⟨d.toNat, 1, 1⟩]
  | .frcp _ d _ _ => [⟨d.toNat, 1, 1⟩]
  | .fsqrt _ d _ _ => [⟨d.toNat, 1, 1⟩]
  | .frsq _ d _ _ => [⟨d.toNat, 1, 1⟩]
  | .frnd _ d _ _ => [⟨d.toNat, 1, 1⟩]
  | .fclass _ d _ _ => [⟨d.toNat, 1, 1⟩]
  | .fex2 _ d _ => [⟨d.toNat, 1, 1⟩]
  | .flg2 _ d _ => [⟨d.toNat, 1, 1⟩]
  | .fsin _ d _ => [⟨d.toNat, 1, 1⟩]
  | .fcos _ d _ => [⟨d.toNat, 1, 1⟩]
  | .ftanh _ d _ => [⟨d.toNat, 1, 1⟩]
  | .dadd _ d _ _ _ => [⟨d.toNat, 2, 2⟩]
  | .dmul _ d _ _ _ => [⟨d.toNat, 2, 2⟩]
  | .dfma _ d _ _ _ _ => [⟨d.toNat, 2, 2⟩]
  | .hadd2 _ d _ _ _ _ => [⟨d.toNat, 1, 1⟩]
  | .hmul2 _ d _ _ _ _ => [⟨d.toNat, 1, 1⟩]
  | .hfma2 _ d _ _ _ _ _ => [⟨d.toNat, 1, 1⟩]
  | .cvt _ d _ ty _ _ _ => [ty.run d]
  | .qnt _ d _ c _ _ fmt => [⟨d.toNat, fmt.width, 1⟩, ⟨c.toNat, 1, 1⟩]
  | .dqnt _ d _ _ _ => [⟨d.toNat, 32, 1⟩]
  | .rand _ d _ => [⟨d.toNat, 1, 1⟩]
  | .shfl _ d _ _ _ _ ty _ => [ty.run d]
  | .vote _ d _ _ _ mode => [Run.when (voteToReg mode) ⟨d.toNat, 1, 1⟩]
  | .spred _ d _ _ _ ty _ _ => [ty.run d]
  | .qswap _ d _ ty _ => [ty.run d]
  | .qbc _ d _ ty _ => [ty.run d]
  | .ld _ d _ _ sz _ _ _ => [sz.run d]
  | .atom _ d _ _ _ sz _ _ _ _ => [sz.run d]
  | .cpasync _ d _ _ _ _ _ _ => [⟨d.toNat, 1, 1⟩]
  | .gath _ d _ _ _ _ _ _ => [⟨d.toNat, 1, 1⟩]
  | .oqpop _ d _ n => [⟨d.toNat, n.toNat + 2, 1⟩]
  | .aslice _ d _ hd => [Run.when hd ⟨d.toNat, 1, 1⟩]
  | .mma _ _ _ _ _ _ _ _ _ _ _ _ hreg hd _ _ => [Run.when hd ⟨hreg.toNat, 1, 1⟩]
  | .accrd _ d _ _ => [⟨d.toNat, 32, 1⟩]
  | .qpop _ d _ n => [⟨d.toNat, n.toNat + 1, 1⟩]
  | .qpeek _ d _ _ n => [⟨d.toNat, n.toNat + 1, 1⟩]
  | .qcnt _ d _ => [⟨d.toNat, 1, 1⟩]
  | .dwait _ d => [⟨d.toNat, 1, 1⟩]
  | .evpop _ d _ => [⟨d.toNat, 4, 1⟩]
  | .guess _ d _ _ _ ty x aid _ _ _ => [ty.run d, Run.when aid ⟨x.toNat, 1, 1⟩]
  | .affirm _ d _ hd => [Run.when hd ⟨d.toNat, 1, 1⟩]
  | .deny _ d _ _ _ hd => [Run.when hd ⟨d.toNat, 1, 1⟩]
  | .tagq _ d _ _ _ => [⟨d.toNat, 1, 1⟩]
  | .puts _ d _ _ _ lh lhd _ _ _ => [⟨d.toNat, 1, 1⟩, Run.when lhd ⟨lh.toNat, 1, 1⟩]
  | .get _ d _ _ _ _ _ => [⟨d.toNat, 1, 1⟩]
  | .radd _ d _ _ _ _ lh lhd _ => [⟨d.toNat, 1, 1⟩, Run.when lhd ⟨lh.toNat, 1, 1⟩]
  | .sigwt _ d _ _ _ _ _ => [⟨d.toNat, 2, 2⟩]
  | .want _ d _ _ _ _ _ => [⟨d.toNat, 1, 1⟩]
  | .announce _ d _ _ _ _ => [⟨d.toNat, 1, 1⟩]
  | .twalk _ d _ _ _ => [⟨d.toNat, 1, 1⟩]
  | .cseq _ d _ _ => [⟨d.toNat, 1, 1⟩]
  | .awrd _ d _ _ c => [⟨d.toNat, 1, 1⟩, ⟨c.toNat, 1, 1⟩]
  | .awwr _ _ _ _ c => [⟨c.toNat, 1, 1⟩]
  | .hstop _ d _ _ => [⟨d.toNat, 1, 1⟩]
  | .inv _ _ x _ _ y _ _ _ => [⟨x.toNat, 1, 1⟩, ⟨y.toNat, 1, 1⟩]
  | _ => []

/-- The registers a word names without waiting for an operation that will write its status there (R170: MOV, FTEST, FCANCEL; R297: GUESS). -/
def Instr.probes : Instr → List Run
  | .mov _ _ a => [⟨a.toNat, 1, 1⟩]
  | .ftest _ _ a => [⟨a.toNat, 1, 1⟩]
  | .fcancel _ _ a => [⟨a.toNat, 1, 1⟩]
  | .guess _ _ a _ _ _ _ _ _ _ _ => [⟨a.toNat, 1, 1⟩]
  | _ => []

/-- The predicates a word reads, its guard apart (R41). -/
def Instr.readPreds : Instr → List Nat
  | .sel _ _ _ _ c _ => [c.toNat]
  | .setp _ _ _ _ c _ _ merge _ => if merge then [c.toNat] else []
  | .plog _ _ a b c _ => [a.toNat, b.toNat, c.toNat]
  | .pmovToReg _ _ a => blockPreds a.toNat
  | .fcmp _ _ _ _ c _ merge _ => if merge then [c.toNat] else []
  | .dcmp _ _ _ _ c _ merge _ => if merge then [c.toNat] else []
  | .vote _ _ a _ _ _ => [a.toNat]
  | _ => []

/-- The predicates a word writes. -/
def Instr.writePreds : Instr → List Nat
  | .setp _ d _ _ _ _ _ _ _ => [d.toNat]
  | .plog _ d _ _ _ _ => [d.toNat]
  | .pmovToPred _ d _ => blockPreds d.toNat
  | .fcmp _ d _ _ _ _ _ _ => [d.toNat]
  | .dcmp _ d _ _ _ _ _ _ => [d.toNat]
  | .shfl _ _ _ _ _ _ _ p => [p.toNat]
  | .vote _ d _ _ _ mode => if voteToReg mode then [] else [d.toNat]
  | .ftest _ d _ => [d.toNat]
  | .fcancel _ d _ => [d.toNat]
  | .barst _ d _ => [d.toNat]
  | .qpeek _ _ _ c _ => [c.toNat]
  | .sigwt _ _ _ _ _ p _ => [p.toNat]
  | .permit _ d _ _ => [d.toNat]
  | _ => []

/-- The accumulator tile a word names (R148). -/
def Instr.tile : Instr → Option Nat
  | .mma _ d _ _ _ _ _ _ _ _ _ _ _ _ _ _ => some d.toNat
  | .accz _ d => some d.toNat
  | .accld _ d _ _ => some d.toNat
  | .accst _ d _ _ _ _ _ _ => some d.toNat
  | .accrd _ _ a _ => some a.toNat
  | _ => none

/-- What makes the fields of an instruction illegal, each with its cause (R38, R39, R40 and the rule of the instruction): true where the field is illegal. -/
def Instr.faults : Instr → List (Bool × Nat)
  | .addTyped _ _ _ _ ty _ => [(!(List.elem ty [.s32, .ui32, .s64, .ui64, .s16, .ui16, .s8, .ui8]), 9)]
  | .subTyped _ _ _ _ ty _ => [(!(List.elem ty [.s32, .ui32, .s64, .ui64, .s16, .ui16, .s8, .ui8]), 9)]
  | .mulTyped _ _ _ _ ty _ => [(!(List.elem ty [.s32, .ui32, .s64, .ui64, .s16, .ui16, .s8, .ui8]), 9)]
  | .mulhi _ _ _ _ ty => [(!(List.elem ty [.s32, .ui32, .s64, .ui64, .s16, .ui16, .s8, .ui8]), 9)]
  | .div _ _ _ _ ty _ => [(!(List.elem ty [.s32, .ui32, .s64, .ui64, .s16, .ui16, .s8, .ui8]), 9)]
  | .rem _ _ _ _ ty => [(!(List.elem ty [.s32, .ui32, .s64, .ui64, .s16, .ui16, .s8, .ui8]), 9)]
  | .minTyped _ _ _ _ ty => [(!(List.elem ty [.s32, .ui32, .s64, .ui64, .s16, .ui16, .s8, .ui8]), 9)]
  | .maxTyped _ _ _ _ ty => [(!(List.elem ty [.s32, .ui32, .s64, .ui64, .s16, .ui16, .s8, .ui8]), 9)]
  | .negTyped _ _ _ ty _ => [(!(List.elem ty [.s32, .ui32, .s64, .ui64, .s16, .ui16, .s8, .ui8]), 9)]
  | .absTyped _ _ _ ty _ => [(!(List.elem ty [.s32, .s64, .s16, .s8]), 9)]
  | .mad _ _ _ _ _ ty _ => [(!(List.elem ty [.s32, .ui32, .s64, .ui64, .s16, .ui16, .s8, .ui8]), 9)]
  | .bfx _ _ _ _ ty => [(!(List.elem ty [.s32, .ui32, .s64, .ui64]), 9)]
  | .bfi _ _ _ _ _ ty => [(!(List.elem ty [.s32, .ui32, .s64, .ui64]), 9)]
  | .sel _ _ _ _ c ty => [(c.toNat ≥ 96, 6), (!(List.elem ty [.s32, .ui32, .f32, .s64, .ui64, .f64]), 9)]
  | .setp _ d _ _ c _ ty merge tbl => [(d.toNat ≥ 96, 6), (c.toNat ≥ 96, 6), (!(List.elem ty [.s32, .ui32, .s64, .ui64, .s16, .ui16, .s8, .ui8]), 9), (!merge && (c != 0 || tbl != 0), 3)]
  | .plog _ d a b c _ => [(d.toNat ≥ 96, 6), (a.toNat ≥ 96, 6), (b.toNat ≥ 96, 6), (c.toNat ≥ 96, 6)]
  | .pmovToReg _ _ a => [(a.toNat ≥ 3, 6)]
  | .pmovToPred _ d _ => [(d.toNat ≥ 3, 6)]
  | .movs _ _ a => [(!(srListed a.toNat), 0xC)]
  | .movsw _ _ a => [(!(srListed a.toNat && srWritable a.toNat), 0xC)]
  | .loopReg _ _ last => [(last.toNat < 2, 5)]
  | .loopImm _ _ last => [(last.toNat < 2, 5)]
  | .lbrk _ n => [(n.toNat == 0 || n.toNat > 4, 3)]
  | .fclass _ _ _ ty => [(!(List.elem ty [.f32, .f64, .f16, .bf16]), 9)]
  | .fcmp _ d _ _ c _ merge tbl => [(d.toNat ≥ 96, 6), (c.toNat ≥ 96, 6), (!merge && (c != 0 || tbl != 0), 3)]
  | .dcmp _ d _ _ c _ merge tbl => [(d.toNat ≥ 96, 6), (c.toNat ≥ 96, 6), (!merge && (c != 0 || tbl != 0), 3)]
  | .hadd2 _ _ _ _ ty _ => [(!(List.elem ty [.f16, .bf16]), 9)]
  | .hmul2 _ _ _ _ ty _ => [(!(List.elem ty [.f16, .bf16]), 9)]
  | .hfma2 _ _ _ _ _ ty _ => [(!(List.elem ty [.f16, .bf16]), 9)]
  | .cvt _ _ _ ty rnd sat src => [(sat && !(cvtSatOk ty src), 3), (rnd != .rn && !(cvtRounds ty src), 3)]
  | .qnt _ _ _ _ _ _ fmt => [(!fmt.isBfp, 9)]
  | .dqnt _ _ _ _ fmt => [(!fmt.isBfp, 9)]
  | .rand _ _ ty => [(!(List.elem ty [.ui32, .f32]), 9)]
  | .shfl _ _ _ _ _ _ ty p => [(!(List.elem ty [.s32, .ui32, .f32, .s64, .ui64, .f64]), 9), (p.toNat ≥ 96, 6)]
  | .vote _ d a b _ mode => [(!(voteToReg mode) && d.toNat ≥ 96, 6), (a.toNat ≥ 96, 6), (mode != .atleast && b != 0, 3)]
  | .spred _ _ _ _ op ty rnd _ => [(!(List.elem ty [.s32, .ui32, .s64, .ui64, .f32]), 9), (rnd == .sr, 9), (!(spredTyOk op ty), 9), (op != .fadd && rnd != .rn, 3)]
  | .qswap _ _ _ ty dir => [(!(List.elem ty [.s32, .ui32, .f32, .s64, .ui64, .f64]), 9), (dir == 3, 3)]
  | .qbc _ _ _ ty _ => [(!(List.elem ty [.s32, .ui32, .f32, .s64, .ui64, .f64]), 9)]
  | .ld _ _ _ _ sz ord sc _ => [(ord == .weak && sc != .grp, 3), (ord != .weak && sz == .b128, 9), (ord == .rel, 9)]
  | .st _ _ _ spc sz ord sc _ => [(ord == .weak && sc != .grp, 3), (ord != .weak && sz == .b128, 9), (ord == .acq, 9), (spc == .ws, 9)]
  | .atom _ _ _ _ spc sz ord sc aop _ => [(ord == .weak && sc != .grp, 3), (spc == .ws, 9), (!(sz == .b32 || sz == .b64), 9), (spc == .sys && !(aop == .add || aop == .exch || aop == .cas), 9)]
  | .red _ _ _ spc sz ord sc aop _ => [(ord == .weak && sc != .grp, 3), (spc == .ws, 9), (!(sz == .b32 || sz == .b64), 9), (spc == .sys && !(aop == .add || aop == .exch || aop == .cas), 9), (aop == .exch || aop == .cas, 9)]
  | .fence _ d a => [(d.toNat > 4, 9), (a.toNat > 1, 9)]
  | .cpasync _ _ _ _ _ _ ssp dsp => [(dsp == .ws || dsp == .sys, 9), (ssp == .sys, 9)]
  | .gath _ _ a _ _ ssp fmt toq => [(!(ssp == .cm || ssp == .g || ssp == .ws), 9), (!fmt.isBfp, 9), (!toq && fmt != .bfp2, 9), (toq && a.toNat ≥ 8, 6)]
  | .ftest _ d _ => [(d.toNat ≥ 96, 6)]
  | .fcancel _ d _ => [(d.toNat ≥ 96, 6)]
  | .oqpop _ _ a _ => [(a.toNat ≥ 8, 6)]
  | .oqrel _ a => [(a.toNat ≥ 8, 6)]
  | .aslice _ d _ hd => [(!hd && d != 0, 3)]
  | .afeed _ d _ b m kind => [(d.toNat ≥ 8, 6), (!(feedModsOk kind m), 3), (!(feedCodesOk kind m), 9), (kind != .mem && b != 0, 3)]
  | .pwait _ d _ => [(d.toNat ≥ 8, 6)]
  | .barst _ d _ => [(d.toNat ≥ 96, 6)]
  | .cvdecl _ c _ => [(c.toNat ≥ 16, 6)]
  | .mma _ d _ b c sc s32 fr spSrc _ x fmt hreg hd ssel sreg => [(d.toNat ≥ 6, 6), (c.toNat ≥ 16, 6), (!spSrc && b.toNat ≥ 8, 6), (x && !fmt.hasExact, 9), (s32 && (!fmt.isInt || sc), 9), (fr && spSrc, 9), (ssel == 3, 9), (!fmt.isBfp && !sc && (sreg != 0 || ssel != 0), 3), (!hd && hreg != 0, 3)]
  | .accz _ d => [(d.toNat ≥ 6, 6)]
  | .accld _ d _ spc => [(d.toNat ≥ 6, 6), (spc == .ws || spc == .sys, 9)]
  | .accst _ d _ b rnd spc adj fmt => [(d.toNat ≥ 6, 6), (spc == .ws || spc == .sys, 9), (!(fmt.isBfp || fmt == .f32), 9), (fmt == .f32 && (rnd != .rn || adj || b != 0), 3)]
  | .accrd _ _ a _ => [(a.toNat ≥ 6, 6)]
  | .qpush _ _ _ b _ t n => [(n.toNat ≥ 6, 3), (!t && b != 0, 3)]
  | .qpeek _ _ _ c _ => [(c.toNat ≥ 96, 6)]
  | .guess _ _ a _ c ty aidReg aid loc _ sw => [(!(List.elem ty [.s32, .ui32, .f32, .s64, .ui64, .f64]), 9), (sw && (a != 0 || loc), 3), (!aid && aidReg != 0, 3), (!loc && c != 0, 3)]
  | .affirm _ d _ hd => [(!hd && d != 0, 3)]
  | .deny _ d _ _ ty hd => [(!(List.elem ty [.s32, .ui32, .f32, .s64, .ui64, .f64]), 9), (!hd && d != 0, 3)]
  | .tagq _ _ a idx mode => [(mode != .aid && idx != 0, 3), (mode == .aid && a != 0, 3)]
  | .puts _ d _ _ _ lh lhd addSig sig spc => [(!(spc == .sp || spc == .g), 9), (addSig && !sig, 3), (!lhd && lh != 0, 3), (lhd && lh == d, 3)]
  | .get _ _ _ _ _ _ spc => [(!(spc == .sp || spc == .g), 9)]
  | .radd _ d _ _ _ ty lh lhd spc => [(!(List.elem ty [.s32, .ui32, .s64, .ui64, .f32, .f64]), 9), (!(spc == .sp || spc == .g), 9), (!lhd && lh != 0, 3), (lhd && lh == d, 3)]
  | .sigwt _ _ _ _ _ p _ => [(p.toNat ≥ 96, 6)]
  | .want _ _ _ _ _ spc _ => [(!(spc == .sp || spc == .g), 9)]
  | .announce _ _ _ _ _ spc => [(!(spc == .sp || spc == .g), 9)]
  | .twalk _ _ _ _ port => [(port.toNat ≥ 36, 9)]
  | .permit _ d _ _ => [(d.toNat ≥ 96, 6)]
  | .rft _ a _ mode => [(mode != .addr && a != 0, 3)]
  | .brkp h _ => [(!h.stop, 3)]
  | .trace _ _ b two _ => [(!two && b != 0, 3)]
  | _ => []

/-- Register runs that a field names without the word reading them whole: at 64-bit types BFX and BFI read only the low
word of the pair that b names (R100). -/
def Instr.pairsNamed : Instr → List Run
  | .bfx _ _ _ b ty => [ty.run b]
  | .bfi _ _ _ b _ ty => [ty.run b]
  | _ => []

/-- Every register run of a word (R40). -/
def Instr.runs (i : Instr) : List Run := i.reads ++ i.writes ++ i.probes ++ i.pairsNamed

/-- Register runs against an allocation of n registers (R40): true where a run is misaligned or passes n. -/
def runsBad (n : Nat) (rs : List Run) : Bool :=
  rs.any fun r => r.len != 0 && (r.start % r.align != 0 || r.start + r.len > n)

/-- Whether an instruction is legal whatever fibre issues it. -/
def Instr.legal (i : Instr) : Bool := !(i.faults.any (·.1)) && !(runsBad 128 i.runs)

end Sys2Proof
end

