-- ==== Sys2Proof/Config.lean ====
section
/-! DEFINITION. What an implementation fixes and the values the manual leaves open. A constant without a body is a
FREE VALUE: nothing can be proved of it but what holds for every value (log 2). -/

namespace Sys2Proof

/-- R41: with a short issue gap and no checking scoreboard, whether the consumer reads the producer's result (true)
or the register's value from before it. Arguments: the fibre, its count of issued words, the register. -/
opaque Config.shortReadsNew : Nat → Nat → Nat → Bool
/-- R195 to R200: how many of the recent writes that a load need not see yet it misses. Arguments: the fibre, the count of loads. -/
opaque Config.readsOld : Nat → Nat → Nat
/-- R192, R250: whether a copy that the walk cache has taken of a table entry still stands. Arguments: the die, %clk, the level. -/
opaque Config.walkCopyUsed : Nat → Nat → Nat → Bool
/-- R127: the noise source of a core, 16 bits at a time. Arguments: the core, the draw. -/
opaque Config.noise : Nat → Nat → BitVec 16
/-- R17, R24: the mantissa bytes written for a NaN block. Arguments: which block, the byte. -/
opaque Config.nanMantissa : Nat → Nat → BitVec 8
/-- R172: the byte a copy writes where undetected overlaps leave it open: whether the copy's own earlier write is seen. Arguments: the copy's operation, the byte. -/
opaque Config.aliasSeesCopy : Nat → Nat → Bool
/-- R306: the start nonce of a lock. Arguments: the function, how many locks came before. -/
opaque Config.tdiNonce : Nat → Nat → BitVec 256
/-- R307: SHA-384 over a byte string, as the security manager computes it. -/
opaque Config.sha384 : List Byte → BitVec 384
/-- R357: whether a signature over a token's bytes [159:0] verifies under the fused debug authority's key. -/
opaque Config.tokenSigned : List Byte → List Byte → Bool
/-- R357: the device serial number, the hash of its identity key, and the boot nonce of each reset. -/
opaque Config.serial : BitVec 128
/-- R357: hash of the device identity public key. -/
opaque Config.idHash : BitVec 384
/-- R357: the boot nonce drawn at the n-th reset. -/
opaque Config.bootNonce : Nat → BitVec 64
/-- R220: the STATUS of event 0x09 for a DCDEC of a free counter and a DCARM of an armed one. Argument: %clk. -/
opaque Config.misuseStatus : Nat → Status
/-- R231: what QCNT finds in a queue whose home is another package. Arguments: %clk, the queue. -/
opaque Config.remoteCount : Nat → Nat → Word
/-- R229, R230: the entry that the home of a queue on another package has ready for a QPOP or QPEEK, with its AIDs and hop counts; none
where it has none. Arguments: %clk, the queue. -/
opaque Config.remoteEntry : Nat → Nat → Option (List Word × List (BitVec 32 × Nat))
/-- R331: which of its die's eight router tile stores takes a tile. Argument: the tile's name. -/
opaque Config.tileStore : DWord → Nat
/-- R299: the state of an AID whose home is another package. Arguments: %clk, the AID. -/
opaque Config.remoteAid : Nat → BitVec 32 → BitVec 2
/-- R253, R255: the ADDR and CLUSTER fields of a die fatal record, whose line's address is lost. Arguments: the die, %clk. -/
opaque Config.lostLine : Nat → Nat → BitVec 55
/-- R301: bytes presented by the device at each CXL port. -/
opaque Config.cxlBytes : Nat → Nat

/-- R286: what a checkpoint saves of a register that is pending at its word. Arguments: the fibre's count of issued words, the register. -/
opaque Config.pendingSaved : Nat → Nat → Word

/-- The package's own number in the fabric (R190): a constant of the installation. -/
def Config.pkgNumber : Nat := 0
/-- What a byte that nothing has written reads as. The manual gives zero for new scratchpad and cluster-memory
allocations (R145, R212) and for tiles (R148); for every other memory it gives nothing: DESIGN CHOICE (log 3). -/
def Config.emptyByte : Byte := 0

end Sys2Proof
end

