-- ==== Sys2Proof/Machine/State.lean ====
section
/-! DEFINITION. The state of one KL96 package as plain data: its fibres, groups, cores, clusters, dies, jobs and
queues, the units of its Hifort base, and what is in flight between them. Nothing here is a function. -/

namespace Sys2Proof.Machine

/-! ## Small records -/

/-- A resumption point: clause header address and word index within the clause (R43). -/
structure RP where
  hdr : DWord
  idx : Nat
  deriving DecidableEq, Repr, Inhabited

/-- What a waiting fibre waits for (R82, R150, R365). -/
inductive Why where
  | memory | opQueue | counter | future | barrier | matrix | tag | queue | rendezvous | sigwt | dwait | nap
  | scoreboard | ending | fetch | replay | tagq | trig | tilePort
  | full                                  -- a class counter at its limit (R170)
  | engine                                -- a full engine queue (R151)
  deriving DecidableEq, Repr, Inhabited

/-- Run states (R82). -/
inductive RunState where
  | ready | waiting (w : Why) | stopped | halted | ended
  deriving DecidableEq, Repr, Inhabited

/-- Who holds a stopped fibre (R271, R273, R361, R275, R223, R293). -/
inductive Holder where
  | trap | hstop | debug | evict | fault | deny
  deriving DecidableEq, Repr, Inhabited

/-- One entry of the loop nest (R110). -/
structure LoopEntry where
  body  : DWord
  endH  : DWord
  exit  : DWord
  outer : Word
  deriving DecidableEq, Repr, Inhabited

/-- The kinds of access a replay record can stand for (R166, R184). -/
inductive AccKind where
  | ld | st | atom | red | accld | accst
  deriving DecidableEq, Repr, Inhabited

/-- One memory access as its word gave it: enough to perform it, and to perform it again at a replay (R164, R261). -/
structure Access where
  kind  : AccKind
  space : Space
  addr  : DWord
  size  : Nat
  order : Order
  scope : Scope
  aop   : AtomOp
  dst   : Nat
  ndst  : Nat            -- destination registers; 0 where none is written or the data is dropped (R272)
  data  : List Word
  base  : DWord          -- ACCLD, ACCST: data base (addr is the first byte of the row that failed, in a record)
  tile  : Nat            -- ACCLD, ACCST: physical tile, first row still to move, format, rounding, .adj,
  row   : Nat            -- exponent base and the noise drawn at issue (R184)
  fmt   : Fmt
  rnd   : Rnd
  adj   : Bool
  exps  : DWord
  noise : List (BitVec 16)
  deriving DecidableEq, Repr, Inhabited

/-- An access's place in its fibre's program order, the write-drain count at its word and a number that rises with issue, and the
safe-point ordinal of its word (R166, R204, R260). -/
structure Seat where
  seq : Nat
  num : Nat
  ord : BitVec 24
  deriving DecidableEq, Repr, Inhabited

/-- A replay-list record (R166, R260). -/
structure Replay where
  acc  : Access
  kind : MemKind
  seat : Seat
  deriving DecidableEq, Repr, Inhabited

/-- A fixed-latency result still inside its latency (R41): which register (or 128 + predicate), its value from before
the producer, and the issue gap still missing. -/
structure Inflight where
  slot : Nat
  old  : Word
  left : Nat
  deriving DecidableEq, Repr, Inhabited

/-- An INV in progress (R134). `phase`: 0 evaluates lo, 1 evaluates hi, 2 evaluates mid. -/
structure InvRun where
  at_   : RP
  w0    : Word           -- INV's two words as they issued (R136)
  w1    : Word
  resume : RP            -- the clause that follows the routine
  t     : Word
  lo    : Word
  hi    : Word
  flo   : Word
  fhi   : Word
  mid   : Word
  phase : Nat
  steps : Nat
  evals : Nat
  x     : Nat
  y     : Nat
  k     : Nat
  ty    : InvTy
  dec   : Bool
  tol   : Nat
  iter  : Nat
  stall : Nat            -- INV's stall count, applied after the last evaluation (R135)
  early : List Inflight  -- results of earlier words still inside their latency
  deriving DecidableEq, Repr, Inhabited

/-- The registers a trap writes (R56, R262). -/
structure TrapRegs where
  opc : Word
  opd : Word
  opa : Word
  opb : Word
  opi : Word
  cls : Word
  spo : Word
  deriving DecidableEq, Repr, Inhabited

/-- The hidden trap-return register: the saved point, and whether the default return is the word after it (R257). -/
structure TrapReturn where
  rp    : RP
  after : Bool
  rep   : Bool           -- a REP was in progress at the saved point (R50)
  report : Bool          -- an arithmetic report, which is not taken a second time (R87)
  hdr   : Option Word    -- the latched header of the saved point's clause; none at a header
  deriving DecidableEq, Repr, Inhabited

/-- Register poison (R161). -/
inductive PoisonKind where
  | access | storage
  deriving DecidableEq, Repr, Inhabited

/-- A checkpoint (R286). Registers it does not hold are none. -/
structure Checkpoint where
  rp       : RP
  regs     : List (Option Word)
  preds    : BitVec 96
  lr       : DWord
  lc       : Word
  rc       : Word
  rep      : Option RP
  loops    : List LoopEntry
  astat    : Word
  atrap    : Word
  mxerr    : Word
  ks       : List Word
  xr       : TrapRegs
  inH      : Bool
  ret      : Option TrapReturn
  nreplay  : Nat
  spilled  : Option Nat           -- where in the backing area it lies (R143)
  hdr      : Option Word          -- the latched header of its clause (R43)
  poison   : List (Nat × PoisonKind)
  num      : Nat                  -- operations of this number and above are younger than it
  deriving DecidableEq, Repr, Inhabited

/-- Source and destination of the fabric operations and copies. -/
structure Place where
  space : Space
  addr  : DWord
  deriving DecidableEq, Repr, Inhabited

/-- A fabric operation's parameters, read from its registers at issue (R336 to R344). -/
inductive FabOp where
  | puts (dst : DWord) (src : Place) (len : Nat) (sig : Option (DWord × DWord × Bool)) (lh : Option Nat)
  | get (dst : Place) (src : DWord) (len : Nat) (bar : Option Nat)
  | radd (ty : Ty) (dst : DWord) (src : Place) (cnt : Nat) (lh : Option Nat)
  | want (dst : Place) (name : DWord) (cap : Nat) (deadline : Nat)
  | announce (src : Place) (name : DWord) (len : Nat)
  | twalk (desc : DWord) (port tag : Nat)
  | cseq (desc : DWord) (tag : Word)
  deriving DecidableEq, Repr, Inhabited

/-- A held effect of a tainted fibre (R169, R225, R287). Handles name the operation that reports. -/
inductive HeldEff where
  | mem (a : Access)
  | dcarm (id count : Word) (succ : List Word) (q : Nat)
  | dcdec (id : Word)
  | trig
  | evpost (data : Word)
  | oqrel (q : Nat)
  | resolve (aid : BitVec 32) (r : Resolution) (op : Nat)
  | fab (o : FabOp) (op : Nat)
  | fence (sc : Scope)            -- a FENCE.ar between held effects (R169, R207)
  deriving DecidableEq, Repr, Inhabited

/-- A held effect with the ordinal its writes have in the fibre's write-drain count (R204), and its code site. -/
structure Held where
  wseq : Nat
  eff  : HeldEff
  ord  : BitVec 24
  bad  : Bool                     -- its place in the proofing buffer holds an uncorrectable error (R161)
  deriving DecidableEq, Repr, Inhabited

/-- Where an agent stands for the scopes (R194). -/
structure Locus where
  grp : Nat
  die : Nat
  clu : Nat
  deriving DecidableEq, Repr, Inhabited

/-- What a release carries: its scope, the agent that makes it, and the writes that happen before it, by number (R194, R198). -/
structure Sync where
  scope : Scope
  who   : Locus
  view  : List Nat
  deriving DecidableEq, Repr, Inhabited

/-- A recent write that some agents need not see yet (R195 to R200): its number, the bytes it replaced, its writer and that fibre's
write-drain count at the word, the scope it is strong at, and the releases that it carries. -/
structure Past where
  id    : Nat
  old   : List Host.Cell
  fib   : Nat
  who   : Locus
  seq   : Nat
  op    : Option Nat              -- the asynchronous operation whose data it writes (R203, R206)
  scope : Option Scope
  rels  : List Sync
  deriving DecidableEq, Repr, Inhabited

/-- Where what happens before a release waits for its acquires: a scope's instance, for FENCE.sc (R199); a barrier object, for the
arrivals of its present phase and of those over (R175); a job, for its triggers (R205); a named tile of a job (R330). -/
inductive Pub where
  | fence (sc : Scope) (inst : Nat) | arrived (loc : Nat) | phase (loc : Nat) | job (n : Nat) | tile (job : Nat) (name : DWord)
  deriving DecidableEq, Repr, Inhabited

/-- A piece that an engine reads from or writes to another package: the operation and the access it is for, its packet, and what came
back (R189, R190, R320). -/
structure Carry where
  op   : Nat
  addr : Nat
  n    : Nat
  write : Bool
  pkt  : Nat
  ans  : Option (Status × Option MemKind × List Byte)
  deriving DecidableEq, Repr, Inhabited

/-- An undo entry: the scratchpad bank word and its old contents (R288). -/
structure Undo where
  loc : Nat
  old : DWord
  deriving DecidableEq, Repr, Inhabited

/-- A queue entry at its home (R215). -/
structure QEntry where
  words  : List Word
  stamp  : Option (Nat × Nat)     -- producer fibre and its write-drain count
  aids   : List (BitVec 32 × Nat)
  relClk : Nat
  src    : Nat                    -- ascending source order of R216
  denied : Bool
  takenBy : Option (Nat × Nat)    -- popped tentatively by this fibre, as which of its pops (R290)
  view   : List Sync              -- what its releases bring to a fibre that pops it (R204, R220)
  lds    : List Nat               -- loads that its producer had out at the QPUSH (R204)
  deriving DecidableEq, Repr, Inhabited

/-- What a waiting fibre waits with, beyond its word. -/
inductive Wait where
  | nap (wake : Nat)
  | bar (off phase : Word) (deadline : Option Nat) (w0 w1 : Word)   -- and BARWT's words (R177)
  | sigwt (addr : DWord) (cond : SigCond) (operand : DWord) (d p : Nat) (deadline : Option Nat)
  | qpop (queue n d : Nat)
  | ending (early : Bool)         -- END, or RFT.end when early
  | signed (op : Nat)
  | replay (ret : RP)
  | ckpt
  deriving DecidableEq, Repr, Inhabited

/-- A fibre's arrival at a cross-lane word (R85). -/
structure Arrival where
  addr  : DWord
  mask  : Word
  quad  : Bool
  runs  : Bool                    -- the word executes for this fibre (it is not guarded off)
  instr : Instr
  vals  : List Word               -- the value it offers, its lane operand and its predicate, as its word read them
  lane  : Word
  p     : Bool
  deriving DecidableEq, Repr

/-- The agents that issue words (R77, R210, R267, R153): a Pacer context is held as one too, since it has the registers,
predicates, loop nest and resumption point of one. The sequencer and the tile-walk engines issue no words: `engine` is the
agent their accesses are made for, at a die, with a job's translations and a master ID of its own (R308). -/
inductive FibreKind where
  | real | helper | control (cluster : Nat) | handler (core slot : Nat) | pacer | engine (die job master : Nat)
  deriving DecidableEq, Repr, Inhabited

/-- A trap record with the fibre it came from (R266); none for a Pacer context. -/
structure TrapRec where
  words : List Word
  fib   : Option Nat
  grp   : Nat
  deriving DecidableEq, Repr, Inhabited

/-! ## The fibre (R74) -/

structure Fibre where
  kind   : FibreKind
  grp    : Nat                    -- its group's number in `groups`
  fid    : Nat
  rp     : RP
  hdr    : Option Word            -- the latched clause header, once its wait has passed
  regs   : List Word
  preds  : BitVec 96
  lr     : DWord
  lc     : Word
  rc     : Word
  rep    : Option RP              -- the REP in progress
  loops  : List LoopEntry         -- innermost first
  occp   : BitVec 8
  ocmx   : BitVec 8
  ocga   : BitVec 8
  ocfx   : BitVec 8
  astat  : Word
  atrap  : Word
  mxerr  : Word
  ks     : List Word              -- k0.lo, k0.hi, ..., k3.hi
  taint  : List (BitVec 32 × Nat)
  ckpt   : Option Checkpoint
  replay : List Replay
  xr     : TrapRegs
  inH    : Bool
  ret    : Option TrapReturn
  reported : Bool                 -- the arithmetic report of this word has been taken (R87)
  restarts : List (DWord × DWord)
  handles : List (Nat × Nat)      -- pending register, operation
  poison : List (Nat × PoisonKind)
  flight : List Inflight
  inv    : Option InvRun
  dropped : Bool                  -- the data of the pop it waits in is dropped (R272)
  token  : Option (Word × Word)   -- arrival token: offset, phase
  wait   : Option Wait
  arrive : Option Arrival
  run    : RunState
  woken  : Bool                   -- an event came since its waiting word was tried
  holds  : List Holder
  stopClk : Nat                   -- clk at which it stopped or ended (R89, R113)
  stopIn : Option Why             -- the wait it was stopped in, where its word waits by trying again (R90)
  stopReq : List Holder           -- stops asked for, taken at the next stop site
  stepping : Bool
  passCmp : Bool                  -- resumed: the next word is not matched again (R361)
  issued : Nat                    -- words issued: the argument of free values
  lastClk : Nat                   -- clk of the last issue (R151)
  wseq   : Nat                    -- writes issued so far (R204)
  held   : List Held              -- program order, oldest first
  undo   : List Undo              -- newest first
  service : List (Nat × QEntry)   -- task in service per queue (R219)
  trigd  : Bool
  mark   : BitVec 13
  seq    : Nat                    -- noise deliveries (R368)
  drawn  : List Nat               -- deliveries that the word at which it waits for more has been given (R368)
  useful : Nat                    -- slot-clk charged since the checkpoint (R366)
  serving : Option TrapRec        -- a handler fibre's trap record
  walked : Option Nat             -- the 64 KiB page whose walk, which it waited for, ended in an access-table violation (R250)
  guessing : Option (Nat × Nat × Option Place)   -- a GUESS that stalls: the issue count it is at, its operation, its place (R297)
  releasing : List Held           -- effects of an emptied taint still to be performed, oldest first (R207)
  relOp  : Option Nat             -- the access of the latest effect performed from there, which the next one follows (R207)
  lost   : Bool                   -- a released effect was lost to a data error: KIND 0x07 at its next word (R161, R258)
  seen   : List Nat               -- recent writes that its reads must not go back before (R197)
  acqs   : List Sync              -- releases it has read and not acquired, for its next fence (R198)
  rels   : List (Scope × List Nat)  -- what its last fence at each scope released: the writes that happen before (R198)
  owed   : Option TrapRegs        -- a member fault or barrier time-out that it has met and holds while tainted (R58, R86, R177)
  deriving DecidableEq, Repr

/-! ## Operations in flight -/

/-- How far an access's translation has come (R250). -/
inductive Xlat where
  | walking | at_ (loc : Nat) | remote (pkg die off : Nat) | sent (pkt : Nat) | failed (k : MemKind)
  | served                                -- performed; its instruction's other lanes are not (R146)
  deriving DecidableEq, Repr, Inhabited

/-- A copy (R172). -/
structure Copy where
  dst  : Place
  src  : Place
  len  : Nat
  pos  : Nat                      -- bytes landed
  bar  : Option Nat
  bad  : Bool                     -- an uncorrectable source element was met
  tainted : Bool
  fail : Option Status            -- a check at issue failed: the status the copy completes with
  before : List Host.Cell         -- .g to .g: what it has overwritten, which its source may meet by another name (R172)
  deriving DecidableEq, Repr, Inhabited

/-- A gather (R173). -/
structure Gather where
  table : DWord
  n     : Nat
  rowLen : Nat
  dst   : Nat                     -- .sp offset, or the queue number
  toq   : Bool
  fmt   : Fmt
  space : Space
  first : Nat                     -- number of the first reserved queue entry
  left  : List Nat                -- rows still to land
  st    : Status
  tainted : Bool
  wrote : Bool                    -- a row has written bytes of the destination (R171)
  deriving DecidableEq, Repr, Inhabited

/-- A signed MMA (R180 to R182). -/
structure MmaJob where
  grp    : Nat
  op     : Nat                    -- the last signer's operation: its place in program order
  ops    : List Nat               -- the operation of each signer
  tile   : Nat                    -- physical tile
  ltile  : Nat                    -- the group's name of it
  rows   : List (List Word × List Byte × List (Nat × Nat))  -- each signer's row, its two exponent or scale bytes, and what is
    -- substituted by zero (R28): the K index, or 64 + b for the scale byte of block b, with the register's linear index
  signers : List Nat              -- fibre numbers, ascending %fid
  fmt    : Fmt
  x      : Bool
  sc     : Bool
  s32    : Bool
  reuse  : Bool
  fr     : Bool
  spSrc  : Bool
  src    : Nat                    -- queue number or .sp offset
  deriving DecidableEq, Repr, Inhabited

/-- An accumulator word waiting at the tile ports (R159, R184). -/
inductive AccWork where
  | zero (tile : Nat)
  | read (tile row blk : Nat) (dst : Option Nat)    -- none: its data is dropped (R272)
  | move (a : Access)
  deriving DecidableEq, Repr, Inhabited

/-- What an operation does. -/
inductive OpBody where
  | mem (a : Access) (x : Xlat)
  | result (rs : List (Nat × Word)) (ps : List (Nat × Bool)) (nv : Word)
  | copy (c : Copy)
  | gath (g : Gather)
  | mma
  | acc (w : AccWork)
  | fab (o : FabOp) (pos : Nat) (sent : List Nat) (data : Option (List Byte)) (st : Status)
    -- bytes done, packets outstanding, the bytes read at local completion, first non-OK status
  | feed (grp q slot : Nat) (src : Place) (len : Nat) (b : Option (Fmt × Bool × Bool))   -- AFEED: .x and .sc of a B record
  | slice (grp : Nat)
  | permit (walk e buf : Nat) (pd : Nat)
  | resolve
  | stop (job : Option Nat) (grp : Option Nat)
  deriving DecidableEq, Repr, Inhabited

/-- The counters of R170. -/
inductive Cls where
  | cp | mx | ga | fx | none
  deriving DecidableEq, Repr, Inhabited

structure Op where
  id    : Nat
  fib   : Nat                     -- issuing fibre's number
  grp   : Nat
  job   : Nat
  cls   : Cls
  body  : OpBody
  done  : Option Status           -- finished, not yet retired
  ord   : BitVec 24               -- safe-point ordinal of the issuing word
  gone  : Bool                    -- its fibre has ended (R80)
  seq   : Nat                     -- its fibre's write-drain count at the issuing word (R204)
  start : Nat                     -- the clk its next request reached its place (R245)
  view  : List Nat                -- the writes its fibre had seen at its word, or at its release (R201)
  fenced : List (Scope × List Nat)  -- what the fibre's fences had released then (R198, R206)
  rgi   : Nat                     -- its group's resident-group index at the issuing word (R363), and its core there (R360)
  core  : Nat
  at_   : RP                      -- the issuing word: the lanes of one instruction share it, with the clk `born` (R146, R167)
  born  : Nat
  watched : List Nat              -- comparators that have made their record for it (R360)
  met   : List Nat                -- recent writes that what it has read goes back before none of (R197, R202)
  deriving DecidableEq, Repr, Inhabited

/-! ## The group -/

/-- A convergence register (R181). -/
structure Conv where
  n      : Nat
  signed : List (Nat × Nat)       -- fibre number, operation
  word   : DWord
  deriving DecidableEq, Repr, Inhabited

/-- States of an operand-queue slot (R155, R290). -/
inductive SlotState where
  | filling | full | popped | tentative (fib : Nat)
  deriving DecidableEq, Repr, Inhabited

structure Slot where
  num     : Nat
  state   : SlotState
  status  : Word                  -- R185
  payload : List Byte
  landed  : Nat                   -- order in which it became full
  gath    : Bool
  bad     : List (Nat × Nat)      -- bits of the payload that were uncorrectable (R161): first, how many
  kept    : Bool                  -- an ordered MMA at the head of the array's queue holds it while it fills (R183)
  deriving DecidableEq, Repr, Inhabited

/-- An operand queue (R155). -/
structure OQueue where
  e     : Nat
  b     : Nat                     -- bytes of a slot
  slots : List Slot               -- in AFEED or reservation order
  deriving DecidableEq, Repr, Inhabited

/-- An access-slice context's state (R156, R186, R187). -/
inductive SliceState where
  | none | running | ended | cancelled | faulted | waitingTrap
  deriving DecidableEq, Repr, Inhabited

/-- A Pacer context (R153). Its registers, predicates, loop nest and resumption point are those of the fibre `fib`. -/
structure Slice where
  state : SliceState
  fib   : Nat
  op    : Nat                     -- ASLICE's operation
  deriving DecidableEq, Repr, Inhabited

/-- An A latch: the rows of an open reuse chain (R182). -/
structure Chain where
  tile : Nat
  fmt  : Fmt
  x    : Bool
  sc   : Bool
  s32  : Bool
  rows : List (Nat × Nat × List Int × List Int)   -- exponents and mantissas of the two blocks of each row
  bad  : List (Nat × Nat × Nat × Nat)   -- row, K, supplier and register index of each substituted element
  deriving DecidableEq, Repr, Inhabited

structure Group where
  job     : Nat
  gid     : Nat
  die     : Nat
  clu     : Nat
  core    : Nat
  rgi     : Nat                   -- resident-group index
  n       : Nat
  regs    : Nat
  spad    : Nat
  umap    : List Nat
  smap    : List Nat
  tmap    : List Nat              -- physical tiles
  spec    : Word
  uhandler : DWord
  convs   : List Conv
  chain   : Option Chain
  slice   : Option Slice
  oqs     : List (Nat × OQueue)
  oqNext  : Nat
  active  : Bool
  actClk  : Nat                   -- when it entered the active set
  unprot  : List Nat              -- fibres ready at entry that have not issued since (R150)
  age     : Nat
  prio    : Nat
  placed  : Nat                   -- clk of placement
  beat    : Nat
  evict   : Option (Nat × Nat × Nat)   -- eviction asked for: the clk at which it is cancelled, and the group it makes room for (R275)
  tried   : List (Nat × Nat)      -- job and %gid of groups for which its eviction was cancelled
  out     : Bool                  -- evicted, saved, pending placement again (R277)
  savedSp : List Byte             -- its scratchpad and tiles while it is out
  savedTiles : List (List Word)
  savedBad : List (Nat × Nat)     -- uncorrectable elements of those tiles (R161)
  exited  : Bool
  freed   : Bool
  deriving DecidableEq, Repr

/-! ## The core -/

/-- A translation held by a TLB (R249, R250). -/
structure Tlb where
  job  : Nat
  base : Nat                      -- virtual page base
  size : Nat
  pa   : Nat
  tgt  : Nat
  r    : Bool
  w    : Bool
  x    : Bool
  deriving DecidableEq, Repr, Inhabited

/-- A ring of error-log records (R162, R254). -/
structure ErrRing where
  wptr : Nat
  rptr : Nat
  ovf  : Bool
  en   : Bool
  recs : List (Nat × BitVec 128)
  deriving DecidableEq, Repr, Inhabited

/-- A debug ring (R364). -/
structure DbgRing where
  base : DWord
  ctl  : Word
  wptr : Word
  rptr : Word
  deriving DecidableEq, Repr, Inhabited

/-- A comparator (R358). -/
structure Cmp where
  addr : DWord
  ctl  : Word
  deriving DecidableEq, Repr, Inhabited

/-- A batch that holds an issue slot of its core (R83, R151): the group, span and point its members share, the clk it began in, the
member that decides the slot's charge, when that member last issued, the leaf, and the clk the slot is still held. -/
structure SlotUse where
  grp   : Nat
  span  : Nat
  rp    : RP
  start : Nat
  fib   : Nat
  last  : Nat
  leaf  : Nat
  left  : Nat
  deriving DecidableEq, Repr, Inhabited

structure Core where
  icache : List (Nat × DWord × Word)      -- job, address, word
  tlb    : List Tlb
  trapq  : List TrapRec
  trapWait : List TrapRec                 -- records of fibres that stopped while the queue was full (R265)
  errs   : ErrRing
  cecc   : Word
  chentry : DWord
  cckbase : DWord
  ccksize : DWord
  cmps   : List Cmp
  cdbg   : Word
  evr    : DbgRing
  trr    : DbgRing
  td     : List (BitVec 64)
  ctdc   : Word
  tdClk  : Nat
  cnsc   : Word
  cnsb   : DWord
  cnsEnd : Word
  cnsNext : Word
  draws  : Nat                            -- noise delivered so far, in 16-bit units
  taken  : List Nat                       -- replay entries already delivered
  mmaq   : List MmaJob
  running : Option (MmaJob × Status)
  tiles  : List (Nat × List Word)
  tileBad : List (Nat × Nat)              -- uncorrectable elements: physical tile, element index (R161)
  samples : Nat
  dead   : Bool
  spans  : List (Nat × Nat)               -- span stops not yet complete: group, span (R90, R361)
  slots  : List SlotUse                   -- issue slots in use (R366)
  frozen : Nat                            -- the clk at which a handler-slot entry lets its slots go on (R152)
  spanSet : List (Nat × Nat)              -- spans with span-stop set, until they are resumed (R90)
  deriving DecidableEq, Repr

/-- A core at reset: the values of R162, R358, R364 to R368; where those rules give none, 0 (log 4). -/
def Core.reset : Core :=
  { icache := [], tlb := [], trapq := [], trapWait := [], errs := ⟨0, 0, false, true, []⟩, cecc := 0, chentry := 0, cckbase := 0,
    ccksize := 0, cmps := List.replicate 8 ⟨0, 0xFFFF0800⟩, cdbg := 0, evr := ⟨0, 0, 0, 0⟩, trr := ⟨0, 0, 0, 0⟩,
    td := List.replicate 20 0, ctdc := 0, tdClk := 0, cnsc := 0, cnsb := 0, cnsEnd := 0, cnsNext := 0, draws := 0,
    taken := [], mmaq := [], running := none, tiles := [], tileBad := [], samples := 0, dead := false, spans := [], slots := [], frozen := 0, spanSet := [] }

/-! ## Cluster, die, package -/

/-- What happens once an event record stands in the ring (R211). -/
inductive EvAct where
  | none
  | freeGroup (g : Nat)
  | complete (job : Nat) (st : Status)
  | requeue (job q : Nat) (e : QEntry)
  | deliver (core : Nat) (t : TrapRec)
  | resume (fib : Nat)
  | spill (job q : Nat)
  | deadlock (job : Nat)
  | lose (job : Nat)
  | hung (job : Nat)
  | drop (msg : Nat)
  deriving DecidableEq, Repr, Inhabited

/-- An armed dependence counter (R220). -/
structure DepCounter where
  count : Nat
  succ  : List Word
  queue : Nat
  job   : Nat
  view  : List Sync                       -- what the decrements so far release (R220)
  deriving DecidableEq, Repr, Inhabited

structure Cluster where
  events : List (BitVec 128)              -- oldest first
  evWait : List (BitVec 128 × EvAct)
  cevdrop : Word
  counters : List (Nat × DepCounter)
  nextCore : Nat
  tlb    : List Tlb
  deriving DecidableEq, Repr

/-- A cluster at reset (log 4 for CEVDROP, the counters and next_core). -/
def Cluster.reset : Cluster := ⟨[], [], 0, [], 0, []⟩

/-- States of an assumption slot (R281). -/
inductive AidState where
  | free | open | affirmed | denied
  deriving DecidableEq, Repr, Inhabited

/-- An assumption slot (R280 to R282). -/
structure AidSlot where
  state : AidState
  gen   : Nat
  job   : Nat
  fib   : Nat                             -- the guesser
  word  : DWord                           -- address of its GUESS
  value : DWord
  wide  : Bool
  auto  : Bool
  loc   : Option Place                    -- where the watched operation's result lies; none where it has no place
  op    : Nat                             -- watched operation, then the read of a place on another package
  seen  : Option (Option DWord)           -- what that read brought; none in it where it failed
  watch : Option Status                   -- the watched operation has retired with this status
  answer : Option DWord                   -- the value a deny carries
  recv  : List (Nat × Nat)                -- receiver set: package, die
  acked : List (Nat × Nat)
  deriving DecidableEq, Repr, Inhabited

/-- What a miss comes to: a translation, or the kind of its fault. -/
inductive MissEnd where
  | ok (t : Tlb) | error (k : MemKind)
  deriving DecidableEq, Repr, Inhabited

/-- A walk in flight (R250). -/
structure Walk where
  id  : Nat
  job : Nat
  va  : Nat
  cores : List (Nat × Nat)                -- clusters and cores whose misses it serves
  res   : Option MissEnd                  -- what it has come to, once a miss that merged with it has used it (R250)
  deriving DecidableEq, Repr, Inhabited

/-- What a copy in the walk cache was read for: the job, the lowest address bit of its level, the address bits from there on. -/
structure WalkKey where
  job : Nat
  lo  : Nat
  top : Nat
  deriving DecidableEq, Repr, Inhabited

/-- A stored tile (R331), most recently used first in its store. -/
structure StoredTile where
  job  : Nat
  name : DWord
  bytes : List Byte
  bad  : Bool
  deriving DecidableEq, Repr, Inhabited

/-- A crumb (R329). -/
structure Crumb where
  job   : Nat
  name  : DWord
  faces : List (FaceTo × Nat)
  out   : Option Interest                 -- an interest that waits here, the next router's table being full
  deriving DecidableEq, Repr, Inhabited

structure Die where
  wsctl  : Word
  wslsrc : DWord
  wsldst : DWord
  wsllen : DWord
  wsLeave : Bool                          -- PHASE = 0 was written while BUSY (R242)
  wsRun  : Nat × Nat × Nat                -- the load in progress: source, destination and length at its GO (R242)
  inRefresh : List Nat                    -- bank groups whose window the scrubber writes its corrections in (R246)
  wsFix  : List Nat                       -- words a scrubber corrects in the next window
  errs   : ErrRing
  decc   : Word
  dtinvc : Word
  dtinva : DWord
  dtinvj : Word
  inval  : Option (Nat × List Nat)        -- an invalidation: scope, accesses that must finish first
  walks  : List Walk
  filter : List (Nat × Nat)               -- job, address [56:16]; newest first
  wcache : List (WalkKey × Nat)           -- the walk cache: copies of upper-level entries (R250)
  slots  : List (Nat × AidSlot)
  counts : List (Nat × (BitVec 64 × BitVec 64 × BitVec 64 × BitVec 64))   -- job: PUSHED, POPPED, SENT, RECVD
  store  : List StoredTile
  crumbs : List Crumb
  dead   : Bool
  deriving DecidableEq, Repr

/-- A die at reset (R242, R254, R252, R280). -/
def Die.reset : Die :=
  { wsctl := 0, wslsrc := 0, wsldst := 0, wsllen := 0, wsLeave := false, wsRun := (0, 0, 0), inRefresh := [], wsFix := [],
    errs := ⟨0, 0, false, true, []⟩, decc := 0, dtinvc := 0, dtinva := 0, dtinvj := 0, inval := none, walks := [],
    filter := [], wcache := [], slots := [], counts := [], store := [], crumbs := [], dead := false }

/-- A queue of a job (R214, R217, R218, R228). -/
structure Queue where
  job   : Nat
  num   : Nat
  ovfBase : DWord
  ovfCnt : Nat
  depth : Nat
  home  : Nat × Nat × Nat                 -- package, die, cluster
  en    : Bool
  scope : Nat
  ring  : List QEntry                     -- release order
  ext   : List QEntry
  spilling : Bool
  extNext : Nat                           -- entries that have gone to the extension so far
  spillWait : List QEntry                 -- entries whose spill waits for its record (R211)
  waiters : List Nat                      -- fibres in order of arrival
  consumers : List Nat                    -- groups
  credits : List (Nat × Nat)              -- 4 × package + die, credits it holds
  inFlight : Nat                          -- room taken by entries on their way
  deriving DecidableEq, Repr, Inhabited

/-- A message inside the package on its way to its unit. -/
inductive MsgBody where
  | push (q : Nat) (e : QEntry) (fromDie : Nat)
  | dcarm (id count : Word) (succ : List Word) (q : Nat)
  | dcdec (id : Word)
  | resolve (aid : BitVec 32) (r : Resolution) (op : Option Nat)
  deriving DecidableEq, Repr, Inhabited

structure Msg where
  id   : Nat
  job  : Nat
  fib  : Nat
  stamp : Nat                             -- writes of the fibre that come first (R220)
  src  : Nat                              -- ascending source order
  body : MsgBody
  dead : Bool                             -- discarded at its counter, once the record of that stands (R211)
  who  : Locus                            -- its fibre's place, and the writes seen at its word (R220)
  view : List Nat
  deriving DecidableEq, Repr, Inhabited

/-- A die of another package that has work of a job (R222): 4 × package + die, the groups placed there, and its report to the round to come:
the idle flag and PUSHED, POPPED, SENT, RECVD. -/
structure Peer where
  die  : Nat
  gids : List Nat
  last : Option (Bool × (BitVec 64 × BitVec 64 × BitVec 64 × BitVec 64))
  deriving DecidableEq, Repr, Inhabited

/-- A job: its launch descriptor and what has become of it (R305, R212 to R223). -/
structure Job where
  entry  : DWord
  tramp  : DWord
  trampN : Nat
  groups : Nat
  fibres : Nat
  regs   : Nat
  tiles  : Nat
  spad   : Nat
  check  : Bool
  persistent : Bool
  spec   : Bool
  prio   : Nat
  watchdog : Nat
  retry  : Nat
  atrap  : Word
  producer : Nat
  cohort : Nat
  cm     : Nat
  clusters : Word
  save   : DWord
  dump   : DWord
  qtable : DWord
  qcount : Nat
  ctrLo  : Word
  ctrHi  : Word
  args   : List Word
  roots  : List DWord
  exports : DWord
  spill  : DWord
  spillLog : Nat
  fn     : Nat                            -- the function whose queue launched it
  launchClk : Nat
  lastIssue : Nat
  status : Option Status                  -- settled, with this status
  failed : Bool                           -- an event 0x05 was posted
  hung   : Bool
  late   : Nat                            -- the %gid that a watchdog's test judged hung first (R211, R223)
  ending : Option Nat                     -- its fibres are being stopped; the dump cause of R369
  halted : Bool                           -- stopped by HSTOP
  next   : List (Nat × Nat)               -- cluster, lowest undispatched %gid there
  cohorts : List (Nat × List Nat)         -- cohort, its cluster-memory units
  rounds : Nat                            -- quiescence rounds taken
  lastRound : Option (List (BitVec 64 × BitVec 64 × BitVec 64 × BitVec 64))
  peers  : List Peer                      -- dies of other packages that have work of it
  deriving DecidableEq, Repr, Inhabited

/-- TDI states (R306). -/
inductive TdiState where
  | unlocked | locked | run | error
  deriving DecidableEq, Repr, Inhabited

/-- A host command accepted from a submission ring (R304). -/
structure HostCmd where
  num  : Nat                              -- which of all commands it is: two alike in a ring are two
  idx  : BitVec 16
  op   : Nat
  ord  : Bool
  raw  : List Byte
  started : Bool
  pos  : Nat                              -- how far it has come: the die of a WSLOAD, the operation of a HALT
  st   : Status                           -- first non-OK status so far
  deriving DecidableEq, Repr, Inhabited

/-- A command queue of a function (R304). -/
structure HostQueue where
  sqb  : DWord
  cqb  : DWord
  cfg  : Word
  tail : Word
  head : Word
  sqHead : Nat
  cqTail : Nat
  phase : Bool
  cmds : List HostCmd                     -- not yet completed, in ring order
  cpls : List (BitVec 128)                -- completions waiting for room
  deriving DecidableEq, Repr, Inhabited

/-- One function of the host port (R303, R306). -/
structure Tdi where
  state : TdiState
  nonce : BitVec 256
  locks : Nat
  bar2  : Nat                             -- size of BAR 2
  bar2Base : Nat                          -- device physical address it opens on
  reqId : BitVec 16
  digest : BitVec 384
  queues : List (Nat × HostQueue)
  deriving DecidableEq, Repr, Inhabited

/-- A copy in the retransmit buffer (R321, R322). -/
structure Retx where
  id   : Nat
  pkt  : Packet
  port : Option Nat
  tries : Nat
  clk  : Nat
  op   : Option Nat
  deriving DecidableEq, Repr, Inhabited

/-- A running or finished collective program (R323 to R325). -/
structure Prog where
  id   : Nat
  job  : Nat
  tag  : Nat
  ord  : Nat
  op   : Nat
  die  : Nat
  src  : DWord
  dst  : DWord
  e    : Nat
  ty   : Nat
  dfmt : Nat
  chk  : Nat
  steps : List (BitVec 128)
  pc   : Nat
  acc  : List (Nat × List DWord)
  slots : List (Nat × CollMsg)            -- full slots
  bad  : Bool
  live : Bool                             -- still running
  sent : Option (List Nat)                -- a RADD or SIGNAL step that has begun, and its packets still out
  stepSt : Status                         -- first failure among them
  granted : List Nat                      -- slots whose credit is out
  deriving DecidableEq, Repr, Inhabited

/-- A tile that a walk has read and not yet delivered everywhere, in its port's share or in the reserve (R331). -/
structure Staged where
  tile    : Nat
  bytes   : List Byte
  st      : Status
  reserve : Bool
  bad     : List (Nat × Nat)              -- runs of bytes of a storer's tile that could not be read (R327)
  wrote   : Bool                          -- a storer's tile: its writes have left
  deriving DecidableEq, Repr, Inhabited

/-- A tile walk (R326, R327). -/
structure TWalk where
  id    : Nat
  job   : Nat
  port  : Nat
  tag   : Nat
  op    : Nat
  mem   : DWord
  die   : Nat
  mpitch : Nat
  spitch : Nat
  rowb  : Nat
  rows  : Nat
  nt    : Nat
  stride : Int
  storer : Bool
  k     : Nat
  dests : List (Nat × Nat × Nat)          -- .sp offset, barrier offset, locator word
  permits : List (Nat × Nat)              -- destination, buffer
  done  : List (Nat × Nat)                -- destination, tiles delivered
  closed : List Nat                       -- destinations completed with CANCELLED
  grps  : List (Option Nat)               -- the group each destination named when the walk started
  staged : List Staged                    -- tiles read and not yet delivered everywhere (R331)
  acks  : List (Nat × Nat × Nat)          -- packets out: packet, destination, tile
  st    : Status
  deriving DecidableEq, Repr, Inhabited

/-- The Hifort base and what belongs to the package as a whole. -/
structure Pkg where
  salpol : Word
  salstat : BitVec 7
  seclog : List (BitVec 128)
  lcstate : BitVec 2
  held   : Bool                           -- held in reset until a cold reset (R309, R310)
  resets : Nat
  access : List (Nat × List (Nat × BitVec 128))   -- target, valid entries by number
  routes : List (Nat × Word)
  names  : List (Nat × BitVec 128)
  fpstat : List Word
  seqs   : List ((Nat × Nat × Nat × Nat) × Nat)   -- target package and flow: next sequence number
  rseqs  : List ((Nat × Nat × Nat × Nat) × Nat)   -- source package and flow: next expected
  early  : List (Nat × Packet)                    -- packets held back, with their ingress port
  retx   : List Retx
  outq   : List Retx                              -- packets that wait for room in the retransmit buffer, oldest first (R316, R321)
  ackOut : List ((Nat × Nat × Nat × Nat) × Ack)   -- acknowledgements sent: source package and flow, and in `id` the sequence number
  fwd    : List (Nat × Packet)                    -- packets forwarded, by which port
  progs  : List Prog
  credits : List (Nat × Nat × Nat × Nat)          -- job, tag, package, slot: credits this package holds as a sender
  aborts : List CollMsg
  runs   : List ((Nat × Nat) × Nat)               -- job and tag: programs started
  walks  : List TWalk
  ports  : List (Nat × List StoredTile)           -- port tile stores
  pcrumbs : List (Nat × List Crumb)
  tdis   : List (Nat × Tdi)
  dbgtok : List Byte
  dbgStat : Nat
  dbgBusy : Bool
  dbgFeat : BitVec 4                              -- features that tokens have opened since reset
  nonce  : BitVec 64
  erased : Nat                                    -- times the session keys have been erased
  downDies : List Nat                             -- dies whose UCIe link is down
  posted : List (BitVec 16 × DWord × List Byte)   -- posted writes that left the host port, in order: requester ID, host address, bytes
  replies : List (List Byte)                      -- what the host answers to coming .sys reads, if scripted
  reports : List (List Byte)                      -- interface reports returned to the host
  reads  : List (List Byte)                       -- answers to inbound reads
  notified : List (Nat × Status)                  -- jobs whose end the host was told of
  hostSeen : List Nat                             -- recent writes that the host's agents can no longer miss (R312)
  deriving DecidableEq, Repr

/-! ## Whose turn it is -/

/-- One step of the machine: a fibre (or Pacer context) issues its next word, or a unit or the outside world takes the step of an event
row. -/
inductive Who where
  | fibre (k : Nat)
  | event (i : Instr)
  deriving DecidableEq, Repr

/-- A turn of the schedule: so many clk pass, then this step is taken (log 1). -/
structure Turn where
  delay : Nat
  who   : Who
  deriving DecidableEq, Repr

/-- Where a soft error strikes (R160, R161, R253). -/
inductive Struck where
  | reg (fib r : Nat)                     -- register file, Pacer context store or handler bank, by whose register it is
  | spad (core off : Nat)
  | tile (core tile el : Nat)
  | icache (core i : Nat)                 -- the i-th word that the instruction cache holds
  | queue (grp q num off : Nat)           -- 8 bytes of an entry
  | held (fib i : Nat)                    -- a held effect in the proofing buffer
  | cacheData (die addr : Nat) (dirty : Bool)
  | cacheTag (die addr : Nat) (dirty : Bool)
  | memory (addr : Nat)                   -- bonded DRAM or CXL memory
  | table (die addr : Nat)                -- a table entry, found by the die's walker
  | weight (die off : Nat)
  | cm (clu off : Nat)
  | tlb (die clu i : Nat)
  | utlb (core i : Nat)
  | tileStore (die i : Nat)                 -- a stored tile: of a die's share, or of a port's where die is 4 + port (R331)
  | walkCopy (die i : Nat)
  deriving DecidableEq, Repr, Inhabited

/-- A soft error: the clk at which it is found, where, whether it is corrected, and the fibre whose access finds it. -/
structure Strike where
  clk   : Nat
  place : Struck
  fixed : Bool
  fib   : Nat
  deriving DecidableEq, Repr, Inhabited

structure State where
  clk     : Nat
  turns   : List Turn                     -- the schedule, the model's own input (log 1)
  strikes : List Strike                   -- soft errors to come, the model's own input (R160, log 33)
  lastTurn : Option (Nat × Nat)           -- clk and rank of the last turn that has a rank among those of its clk (R75, R113, R233, R281)
  cur     : Nat                           -- the fibre whose turn it is, or was last
  nextId  : Nat                           -- number of the next operation, message, walk or program
  mem     : List Host.Cell                -- every byte store, by location number (Ops: Loc)
  past    : List Past                     -- the latest 64 writes that may still be unseen somewhere, newest first
  wrote   : Nat                           -- writes numbered so far
  looked  : Nat                           -- loads performed so far: the argument of a free value
  pubs    : List (Pub × List Nat)   -- the writes that happen before the releases made so far (R175, R199, R205, R330)
  carried : List Carry
  poisoned : List Nat                     -- poisoned 8-byte words, by location / 8; all of a granule of DRAM or CXL memory (R253)
  fibres  : List Fibre
  groups  : List Group
  jobs    : List Job
  ops     : List Op                       -- in issue order
  msgs    : List Msg
  queues  : List Queue
  cores   : List (Nat × Core)             -- cores that differ from their reset
  clusters : List (Nat × Cluster)
  dies    : List (Nat × Die)
  pkg     : Pkg
  deriving DecidableEq, Repr

/-- Why a step stops with a fault. -/
inductive Fault where
  /-- Raised where a word is to be executed and State names no fibre that could issue it: not a state of the machine.
  Safe: the hardware has no such step. -/
  | noFibre
  deriving DecidableEq, Repr

/-- Why a step has no meaning in this model. -/
inductive Refusal where
  /-- Raised by an arm of exec whose instruction has no meaning yet. Safe: nothing is claimed of it. -/
  | notModelled (mnemonic : String)
  deriving DecidableEq, Repr

/-! ## Reset -/

/-- The trap registers at creation: %spo reads as R263 gives; the others 0 (log 4). -/
def TrapRegs.reset : TrapRegs := ⟨0, 0, 0, 0, 0, 0, 0xFFFFFFFF⟩

/-- A fibre at creation, before launch arguments (R74). -/
def Fibre.fresh (kind : FibreKind) (grp fid nregs : Nat) (entry : DWord) (atrap : Word) (clk : Nat) : Fibre :=
  { kind := kind, grp := grp, fid := fid, rp := ⟨entry, 0⟩, hdr := none, regs := List.replicate nregs 0, preds := 0,
    lr := 0, lc := 0, rc := 0, rep := none, loops := [], occp := 0, ocmx := 0, ocga := 0, ocfx := 0, astat := 0,
    atrap := atrap, mxerr := 0, ks := List.replicate 8 0, taint := [], ckpt := none, replay := [],
    xr := TrapRegs.reset, inH := false, ret := none, reported := false, restarts := [], handles := [], poison := [],
    flight := [], inv := none, dropped := false, token := none, wait := none, arrive := none, run := .ready, woken := false, holds := [],
    stopClk := 0, stopIn := none, stopReq := [], stepping := false, passCmp := false, issued := 0, lastClk := clk, wseq := 0, held := [],
    undo := [], service := [], trigd := false, mark := 0, seq := 0, drawn := [], useful := 0, serving := none, walked := none, guessing := none,
    releasing := [], relOp := none, lost := false, seen := [], acqs := [], rels := [], owed := none }

/-- The control core's fibre at reset (R210): its code comes from system software, so it is held until that is
placed. Its clause address is 0 (log 4). -/
def Fibre.controlReset (c : Nat) : Fibre :=
  { Fibre.fresh (.control c) c 0 128 0 0 0 with run := .stopped }

/-- The package at reset (R301, R302, R308 to R310, R317, R318, R356). -/
def Pkg.reset : Pkg :=
  { salpol := 0x00002F05, salstat := 0, seclog := [], lcstate := 0, held := false, resets := 1,
    access := [(81, [(0, 0x00000000FFFFFFFFF8000800000000083#128)])],
    routes := [], names := [], fpstat := List.replicate 36 0, seqs := [], rseqs := [], early := [], retx := [], outq := [],
    ackOut := [], fwd := [], progs := [], credits := [], aborts := [], runs := [], walks := [], ports := [],
    pcrumbs := [], tdis := [], dbgtok := [], dbgStat := 0, dbgBusy := false, dbgFeat := 0,
    nonce := Config.bootNonce 0, erased := 0, downDies := [], posted := [], replies := [], reports := [], reads := [],
    notified := [], hostSeen := [] }

/-- The group a control core's fibre stands in (R75, R210): it holds %spec and %uhandler and the 256 KiB local store as
its .sp. It belongs to no job. -/
def Group.control (c : Nat) : Group :=
  { job := 0, gid := 0, die := c / 8, clu := c % 8, core := 8, rgi := 0, n := 1, regs := 128, spad := 262144, umap := [],
    smap := [], tmap := [], spec := 0, uhandler := 0, convs := List.replicate 16 ⟨0, [], 0⟩, chain := none, slice := none,
    oqs := [], oqNext := 0, active := true, actClk := 0, unprot := [], age := 0, prio := 0, placed := 0, beat := 0,
    evict := none, tried := [], out := false, savedSp := [], savedTiles := [], savedBad := [], exited := false, freed := false }

/-- The machine right after reset: no job, memory with nothing listed, every unit at its reset values. -/
def State.reset : State :=
  { clk := 0, turns := [], strikes := [], lastTurn := none, cur := 0, nextId := 0, mem := [], past := [], wrote := 0, looked := 0, pubs := [],
    carried := [], poisoned := [],
    fibres := (List.range 32).map Fibre.controlReset, groups := (List.range 32).map Group.control, jobs := [], ops := [], msgs := [], queues := [],
    cores := [], clusters := [], dies := [], pkg := Pkg.reset }

end Sys2Proof.Machine
end

