-- ==== Sys2Proof/Machine/Store.lean ====
section
/-! DEFINITION. Byte storage as one canonical list of cells, byte order, and the small list operations that the
units are kept with. -/

namespace Sys2Proof.Machine

/-! ## Bytes and numbers (R5: little-endian) -/

/-- The number whose bytes, lowest first, are given. -/
def leNat : List Byte → Nat
  | [] => 0
  | b :: bs => b.toNat + 256 * leNat bs

/-- The n low bytes of a number, lowest first. -/
def leBytes : Nat → Nat → List Byte
  | 0, _ => []
  | n + 1, x => BitVec.ofNat 8 x :: leBytes n (x / 256)

/-- The 32-bit words of a byte string. -/
def leWords : Nat → List Byte → List Word
  | 0, _ => []
  | n + 1, bs => BitVec.ofNat 32 (leNat (bs.take 4)) :: leWords n (bs.drop 4)

/-- The bytes of a list of words. -/
def wordBytes (ws : List Word) : List Byte := ws.flatMap fun w => leBytes 4 w.toNat

/-- The two words of a 64-bit value, low word first. -/
def dwords (x : DWord) : List Word := [loWord x, hiWord x]

/-- Bits [hi:lo] of a number. -/
def bitsOf (x hi lo : Nat) : Nat := (x >>> lo) % 2 ^ (hi + 1 - lo)

/-- A number as a 32-bit word. -/
def w32 (x : Nat) : Word := BitVec.ofNat 32 x
/-- A number as a 64-bit value. -/
def w64 (x : Nat) : DWord := BitVec.ofNat 64 x
/-- One bit as a number. -/
def bit (b : Bool) : Nat := if b then 1 else 0

/-! ## Memory: cells by location, addresses rising, no cell equal to the unlisted value (log 3) -/

/-- The byte at a location. -/
def Memory.get : List Host.Cell → Nat → Byte
  | [], _ => Config.emptyByte
  | (k, v) :: m, a => if k = a then v else Memory.get m a

/-- Memory with one byte written. -/
def Memory.put : List Host.Cell → Nat → Byte → List Host.Cell
  | [], a, v => if v = Config.emptyByte then [] else [(a, v)]
  | (k, w) :: m, a, v =>
    if a < k then (if v = Config.emptyByte then (k, w) :: m else (a, v) :: (k, w) :: m)
    else if a = k then (if v = Config.emptyByte then m else (a, v) :: m)
    else (k, w) :: Memory.put m a v

/-- Memory with a byte string written from a location upward. -/
def Memory.putAll : List Host.Cell → Nat → List Byte → List Host.Cell
  | m, _, [] => m
  | m, a, b :: bs => Memory.putAll (Memory.put m a b) (a + 1) bs

/-- The n bytes from a location upward. -/
def Memory.getAll (m : List Host.Cell) (a : Nat) : Nat → List Byte
  | 0 => []
  | n + 1 => Memory.get m a :: Memory.getAll m (a + 1) n

/-- Every address of the list is above `a`. -/
def Memory.above (a : Nat) : List Host.Cell → Bool
  | [] => true
  | (k, _) :: m => a < k && Memory.above a m

/-- The canonical form: addresses strictly rising, no cell that holds the unlisted value. -/
def Memory.wf : List Host.Cell → Bool
  | [] => true
  | (k, v) :: m => Memory.above k m && v != Config.emptyByte && Memory.wf m

/-! ## Lists as tables -/

/-- The entry of a table. -/
def look {α : Type} (k : Nat) : List (Nat × α) → Option α
  | [] => none
  | (j, v) :: l => if j = k then some v else look k l

/-- A table with one entry replaced, or added at its end. -/
def assign {α : Type} (k : Nat) (v : α) : List (Nat × α) → List (Nat × α)
  | [] => [(k, v)]
  | (j, w) :: l => if j = k then (k, v) :: l else (j, w) :: assign k v l

/-- The first element of a list that a test accepts, with its place. -/
def firstIdx {α : Type} (p : α → Bool) : List α → Nat → Option (Nat × α)
  | [], _ => none
  | x :: l, i => if p x then some (i, x) else firstIdx p l (i + 1)

/-- Insertion into a list kept in ascending order of a key; equal keys stay in order of insertion. -/
def insertBy {α : Type} (key : α → Nat) (x : α) : List α → List α
  | [] => [x]
  | y :: l => if key x < key y then x :: y :: l else y :: insertBy key x l

/-- A list in ascending order of a key, equal keys in their order. -/
def sortBy {α : Type} (key : α → Nat) (l : List α) : List α := l.foldl (fun acc x => insertBy key x acc) []

/-- The smallest number not in a list, below a limit. -/
def lowestFree (n : Nat) (used : List Nat) : Option Nat := (List.range n).find? fun i => !used.contains i

/-- A predicate block as a number of bits from a list, lowest first. -/
def packBits : List Bool → Nat
  | [] => 0
  | b :: bs => bit b + 2 * packBits bs

end Sys2Proof.Machine
end

