-- ==== Sys2Proof/Machine/Units.lean ====
section
/-! DEFINITION. Access to the units of the machine by number, and the records they keep: error logs (R162, R163, R254,
R255), the security log and its alarms (R309), the cluster event ring (R211), the debug rings (R363, R364). -/

namespace Sys2Proof.Machine

/-! ## Codes of statuses and fault kinds -/

/-- The code of a status (R170). -/
def statusNum : Status → Nat
  | .ok => 0 | .fault => 1 | .never => 2 | .linkfail => 3 | .denied => 4 | .cancelled => 5 | .dataerr => 6 | .access => 7
/-- The status of a code (R170). -/
def statusOf : Nat → Status
  | 0 => .ok | 1 => .fault | 2 => .never | 3 => .linkfail | 4 => .denied | 5 => .cancelled | 6 => .dataerr | _ => .access
/-- The number of a recorded fault kind (R260). -/
def kindNum : MemKind → Nat
  | .translation => 1 | .protection => 2 | .accessTable => 3 | .misaligned => 4 | .bounds => 5 | .dataError => 6
  | .deferred => 7
/-- The status of an engine operation that met a fault (R172, R320); a place whose die cannot be reached is a data error to a load
and LINKFAIL to an engine (R300). -/
def kindStatus : MemKind → Status
  | .accessTable => .access
  | .dataError => .linkfail
  | _ => .fault

/-! ## Units by number -/

/-- Cluster c of die d. -/
def cluIx (die clu : Nat) : Nat := 8 * die + clu
/-- Core k of a cluster; k = 8 is its control core. -/
def coreIx (die clu core : Nat) : Nat := 9 * cluIx die clu + core

def State.fibre? (s : State) (k : Nat) : Option Fibre := s.fibres[k]?
def State.group? (s : State) (g : Nat) : Option Group := s.groups[g]?
/-- The job of a %job number; 0 names none (R305). -/
def State.job? (s : State) (j : Nat) : Option Job := if j = 0 then none else s.jobs[j - 1]?
def State.op? (s : State) (id : Nat) : Option Op := s.ops.find? fun o => o.id == id
def State.core (s : State) (c : Nat) : Core := (look c s.cores).getD Core.reset
def State.cluster (s : State) (c : Nat) : Cluster := (look c s.clusters).getD Cluster.reset
def State.die (s : State) (d : Nat) : Die := (look d s.dies).getD Die.reset

def State.setFibre (s : State) (k : Nat) (f : Fibre) : State := { s with fibres := s.fibres.set k f }
def State.modFibre (s : State) (k : Nat) (u : Fibre → Fibre) : State := { s with fibres := s.fibres.modify k u }
/-- Every fibre changed, each by a function of its number. -/
def State.mapFibres (s : State) (u : Nat → Fibre → Fibre) : State := { s with fibres := s.fibres.mapIdx u }
def State.setGroup (s : State) (g : Nat) (x : Group) : State := { s with groups := s.groups.set g x }
def State.modGroup (s : State) (g : Nat) (u : Group → Group) : State := { s with groups := s.groups.modify g u }
def State.modJob (s : State) (j : Nat) (u : Job → Job) : State :=
  if j = 0 then s else { s with jobs := s.jobs.modify (j - 1) u }
def State.modOp (s : State) (id : Nat) (u : Op → Op) : State :=
  { s with ops := s.ops.map fun o => if o.id == id then u o else o }
/-- An operation goes, with what it had out to other packages. -/
def State.dropOp (s : State) (id : Nat) : State :=
  { s with ops := s.ops.filter fun o => o.id != id, carried := s.carried.filter fun c => c.op != id }
/-- What an operation's finished piece had out to other packages. -/
def State.dropCarried (s : State) (id : Nat) : State := { s with carried := s.carried.filter fun c => c.op != id }
def State.modCore (s : State) (c : Nat) (u : Core → Core) : State :=
  { s with cores := assign c (u (s.core c)) s.cores }
/-- Every core that differs from its reset changed. -/
def State.mapCores (s : State) (u : Core → Core) : State := { s with cores := s.cores.map fun c => (c.1, u c.2) }
def State.modCluster (s : State) (c : Nat) (u : Cluster → Cluster) : State :=
  { s with clusters := assign c (u (s.cluster c)) s.clusters }
def State.modDie (s : State) (d : Nat) (u : Die → Die) : State := { s with dies := assign d (u (s.die d)) s.dies }
def State.modPkg (s : State) (u : Pkg → Pkg) : State := { s with pkg := u s.pkg }
def State.modQueue (s : State) (job num : Nat) (u : Queue → Queue) : State :=
  { s with queues := s.queues.map fun q => if q.job == job && q.num == num then u q else q }
def State.queue? (s : State) (job num : Nat) : Option Queue := s.queues.find? fun q => q.job == job && q.num == num
/-- A number no operation, message, walk or program has yet. -/
def State.fresh (s : State) : Nat × State := (s.nextId, { s with nextId := s.nextId + 1 })
def State.addOp (s : State) (o : Op) : State := { s with ops := s.ops ++ [o] }
def State.addMsg (s : State) (m : Msg) : State := { s with msgs := s.msgs ++ [m] }

/-! ## Places (R4, R210) -/

/-- Where an agent stands. -/
structure Site where
  die  : Nat
  clu  : Nat
  core : Nat
  deriving DecidableEq, Repr

/-- The site of a handler fibre's core, and of everything else its group's. -/
def State.site (s : State) (f : Fibre) : Site :=
  match f.kind with
  | .handler c _ => ⟨c / 72, c / 9 % 8, c % 9⟩
  | .engine d _ _ => ⟨d, 0, 0⟩
  | _ => match s.group? f.grp with
    | some g => ⟨g.die, g.clu, g.core⟩
    | none => ⟨0, 0, 0⟩
def Site.cluIx (p : Site) : Nat := Machine.cluIx p.die p.clu
def Site.coreIx (p : Site) : Nat := Machine.coreIx p.die p.clu p.core
/-- The %job of a fibre; control cores and handler fibres belong to none. -/
def State.jobOf (s : State) (f : Fibre) : Nat :=
  match f.kind with
  | .handler _ _ => 0
  | .engine _ j _ => j
  | _ => ((s.group? f.grp).map (·.job)).getD 0
def Fibre.isHelper (f : Fibre) : Bool := f.kind == .helper
def Fibre.isPacer (f : Fibre) : Bool := f.kind == .pacer
def Fibre.isHandler (f : Fibre) : Bool := match f.kind with | .handler _ _ => true | _ => false
def Fibre.isControl (f : Fibre) : Bool := match f.kind with | .control _ => true | _ => false
/-- Whether privileged words may run (R59). -/
def Fibre.privileged (f : Fibre) : Bool := f.isHandler || f.isControl
def Fibre.tainted (f : Fibre) : Bool := !f.taint.isEmpty
/-- The group number of a fibre that stands in no group. -/
def noGroup : Nat := 2 ^ 32
/-- The agent that a unit's accesses are made for (R308). -/
def State.agent (s : State) (die job master : Nat) : Fibre := Fibre.fresh (.engine die job master) noGroup 0 0 0 0 s.clk
/-- The fibres of a group, with their numbers. -/
def State.members (s : State) (g : Nat) : List (Nat × Fibre) :=
  (s.fibres.mapIdx fun k f => (k, f)).filter fun p => p.2.grp == g && (p.2.kind == .real || p.2.kind == .helper)
/-- The fibre of a group's slot. -/
def State.slot? (s : State) (g fid : Nat) : Option (Nat × Fibre) := (s.members g).find? fun p => p.2.fid == fid
/-- The resident group of a core by its index (R149). -/
def State.resident? (s : State) (c rgi : Nat) : Option (Nat × Group) :=
  firstIdx (fun g => coreIx g.die g.clu g.core == c && g.rgi == rgi && !g.out && !g.freed) s.groups 0
/-- %job's groups, with their numbers. -/
def State.jobGroups (s : State) (j : Nat) : List (Nat × Group) :=
  (s.groups.mapIdx fun k g => (k, g)).filter fun p => p.2.job == j
/-- The master ID of an agent's accesses (R308). -/
def State.master (s : State) (f : Fibre) : Nat :=
  let p := s.site f
  match f.kind with
  | .engine _ _ m => m
  | _ =>
  if f.isHandler then 0x4200 + 64 * p.die + 8 * p.clu + p.core
  else if p.core = 8 then 0x4100 + 8 * p.die + p.clu
  else 0x4000 + 64 * p.die + 8 * p.clu + p.core

/-- The number that what a fibre's own word has out goes by. -/
def wordKey (k : Nat) : Nat := 2 ^ 40 + k
/-- An operation that a word of a fibre starts. -/
def State.newOp (s : State) (k : Nat) (f : Fibre) (id : Nat) (cls : Cls) (body : OpBody) (ord : BitVec 24) : Op :=
  { id := id, fib := k, grp := f.grp, job := s.jobOf f, cls := cls, body := body, done := none, ord := ord, gone := false, seq := f.wseq,
    start := s.clk, view := f.seen, fenced := f.rels, rgi := ((s.group? f.grp).map (·.rgi)).getD 0, core := (s.site f).coreIx, at_ := f.rp, born := s.clk, watched := [], met := [] }
/-- An operation's place in its fibre's program order. -/
def Op.seat (o : Op) : Seat := ⟨o.seq, o.id, o.ord⟩

/-! ## Locations: where each byte store begins in the one list of cells (R191) -/

def Loc.weight (die off : Nat) : Nat := 2 ^ 52 + die * 2 ^ 33 + off
def Loc.cm (clu off : Nat) : Nat := 2 ^ 53 + clu * 2 ^ 26 + off
def Loc.spad (core off : Nat) : Nat := 2 ^ 54 + core * 2 ^ 21 + off
def Loc.control (clu off : Nat) : Nat := 2 ^ 55 + clu * 2 ^ 18 + off

def State.getBytes (s : State) (loc n : Nat) : List Byte := Memory.getAll s.mem loc n
/-- What is left of the recent writes once a range is overwritten for every agent. -/
def trimPast (loc n : Nat) (l : List Past) : List Past :=
  l.filterMap fun p =>
    let old := p.old.filter fun c => !(loc ≤ c.1 && c.1 < loc + n)
    if old.isEmpty then none else some { p with old := old }
/-- Numbers of both lists. -/
def joinView (a b : List Nat) : List Nat := a ++ b.filter fun i => !a.contains i
/-- Bytes written for every agent at once. -/
def State.putBytes (s : State) (loc : Nat) (bs : List Byte) : State :=
  { s with mem := Memory.putAll s.mem loc bs, past := trimPast loc bs.length s.past }
/-- Bytes that are poisoned together where a location lies: the 64-byte granule of DRAM and CXL memory, the 8-byte word of every other
store (R161, R246, R253). -/
def poisonUnit (loc : Nat) : Nat := if loc < 2 ^ 52 then 64 else 8
/-- The words under which the poison of n bytes from a location on is kept. -/
def poisonKeys (loc n : Nat) : List Nat :=
  let u := poisonUnit loc
  if n = 0 then [] else (List.range ((loc + n - 1) / u - loc / u + 1)).map fun i => (loc / u + i) * u / 8
/-- Whether a range holds poison. -/
def State.poisonedAt (s : State) (loc n : Nat) : Bool := (poisonKeys loc n).any s.poisoned.contains
/-- The unit a location lies in is poisoned. -/
def State.poison (s : State) (loc : Nat) : State :=
  (poisonKeys loc 1).foldl (fun s w => if s.poisoned.contains w then s else { s with poisoned := insertBy id w s.poisoned }) s
/-- A write: its bytes land, and each unit written whole loses its poison (R253). -/
def State.store (s : State) (loc : Nat) (bs : List Byte) : State :=
  { (s.putBytes loc bs) with
    poisoned := s.poisoned.filter fun w => !(loc ≤ 8 * w && 8 * w + poisonUnit (8 * w) ≤ loc + bs.length) }

/-- The phase of a bank group's refresh calendar at a clk (R243). -/
def refreshPhase (g t : Nat) : Nat := (t + 96000 - 12000 * g) % 96000
/-- Whether bank group g is in its refresh window at a clk (R243). -/
def inWindow (g t : Nat) : Bool := refreshPhase g t < 3000
/-- Whether a weight-store read that reached its bank group at a clk waits now: the bank group is in its window, and the read came in
that window (R245). -/
def State.wsHeld (s : State) (loc start : Nat) : Bool :=
  let g := (loc - 2 ^ 52) % 2 ^ 33 / 0x30000000
  2 ^ 52 ≤ loc && loc < 2 ^ 53 && inWindow g s.clk && s.clk - start ≤ refreshPhase g s.clk

/-! ## Error logs -/

/-- Writes an error-log record into a ring of n slots; a correction only where EN is set (R162, R254). -/
def ErrRing.log (n : Nat) (corrected : Bool) (rec : BitVec 128) (r : ErrRing) : ErrRing :=
  if corrected && !r.en then r
  else if (r.wptr + 1) % n = r.rptr then { r with ovf := true }
  else { r with wptr := (r.wptr + 1) % n, recs := assign r.wptr rec r.recs }
/-- A saturating count (R162). -/
def satInc (w : Word) : Word := if w = 0xFFFFFFFF then w else w + 1
/-- A core error-log record (R163). -/
def coreRecord (clk coord index unit kind group fibre : Nat) : BitVec 128 :=
  BitVec.ofNat 128 ((clk % 2 ^ 32) <<< 96 ||| (coord % 2 ^ 32) <<< 64 ||| (index % 2 ^ 32) <<< 32 |||
    (unit % 16) <<< 28 ||| (kind % 16) <<< 24 ||| (group % 16) <<< 20 ||| fibre % 2 ^ 16)
def State.logCore (s : State) (core coord index unit kind group fibre : Nat) : State :=
  s.modCore core fun c =>
    { c with errs := c.errs.log 64 (kind == 0) (coreRecord s.clk coord index unit kind group fibre),
             cecc := if kind = 0 then satInc c.cecc else c.cecc }
/-- A die error-log record (R255). -/
def State.logDie (s : State) (die addr unit kind clu : Nat) (scrub : Bool) (job : Nat) : State :=
  let rec128 := BitVec.ofNat 128 ((s.clk % 2 ^ 32) <<< 96 ||| (addr % 2 ^ 52) <<< 44 ||| (unit % 16) <<< 40 |||
    (kind % 16) <<< 36 ||| (clu % 8) <<< 33 ||| bit scrub <<< 32 ||| job % 2 ^ 32)
  s.modDie die fun d =>
    { d with errs := d.errs.log 256 (kind == 0 || kind == 5) rec128,
             decc := if kind = 0 || kind = 5 then satInc d.decc else d.decc }

/-! ## Stopping and releasing fibres (R43, R82, R89, R90) -/

/-- What a waiting fibre's wait is called. -/
def Wait.why : Wait → Why
  | .nap _ => .nap
  | .bar _ _ _ _ _ => .barrier
  | .sigwt _ _ _ _ _ _ => .sigwt
  | .qpop _ _ _ => .queue
  | .ending _ => .ending
  | .signed _ => .matrix
  | .replay _ => .replay
  | .ckpt => .tag
/-- The run state a fibre has once nothing holds it: back in its wait, or ready (R90). -/
def Fibre.freeRun (f : Fibre) : RunState :=
  match f.wait, f.arrive with
  | some w, _ => .waiting w.why
  | none, some _ => .waiting .rendezvous
  | none, none => match f.stopIn with | some w => .waiting w | none => .ready
/-- The fibre stops where it stands, held by h. -/
def Fibre.hold (f : Fibre) (clk : Nat) (h : Holder) : Fibre :=
  match f.run with
  | .ended | .halted => f
  | .stopped => { f with holds := if f.holds.contains h then f.holds else f.holds ++ [h], stopReq := f.stopReq.filter (· != h) }
  | _ => { f with run := .stopped, stopClk := clk, stopIn := (match f.run with | .waiting w => some w | _ => none), holds := f.holds ++ [h], stopReq := f.stopReq.filter (· != h) }
/-- A stop asked for from outside: at once in a wait or when stopped, else before the next stop site (R90, R273). Inside INV no
stop lands, whatever a routine word waits for (R52, R137). -/
def Fibre.askStop (f : Fibre) (clk : Nat) (h : Holder) : Fibre :=
  let later := match f.run with | .ready => true | .waiting _ => f.inv.isSome | _ => false
  if !later then f.hold clk h
  else if f.stopReq.contains h then f else { f with stopReq := f.stopReq ++ [h] }
/-- One holder lets go; the fibre continues when no other holds it. -/
def Fibre.release (f : Fibre) (h : Holder) : Fibre :=
  let f := { f with stopReq := f.stopReq.filter (· != h) }
  match f.run with
  | .stopped =>
    let hs := f.holds.filter (· != h)
    if hs.isEmpty then { f with holds := [], run := f.freeRun, stopIn := none } else { f with holds := hs }
  | _ => f
/-- Stopped, stopped in a wait, halted or ended (R90, R273). -/
def Fibre.atRest (f : Fibre) : Bool :=
  match f.run with
  | .stopped | .halted | .ended => true
  | _ => false

/-- A job fault, watchdog firing or deadlock begins (R279, R223, R218): the job's fibres are asked to stop; `cause` is
R369's code. The rest happens when all of them stand (Jobs: settle). On a core or die that has stopped issue they stand at once. -/
def State.faultJob (s : State) (j cause : Nat) : State :=
  match s.job? j with
  | none => s
  | some job =>
    if job.status.isSome || job.ending.isSome then s
    else
      let s := s.modJob j fun x => { x with ending := some cause }
      s.mapFibres fun _ f =>
        if s.jobOf f == j && (f.kind == .real || f.kind == .helper || f.kind == .pacer) then
          (if (s.core (s.site f).coreIx).dead || (s.die (s.site f).die).dead then f.hold s.clk .fault else f.askStop s.clk .fault)
        else f

/-! ## Alarms (R309) -/

/-- The action code of an alarm source. -/
def salAction (pol : Word) (src : Nat) : Nat :=
  match src with
  | 0 => bitsOf pol.toNat 1 0
  | 1 => bitsOf pol.toNat 3 2
  | 2 => bitsOf pol.toNat 5 4
  | 3 => bitsOf pol.toNat 7 6
  | 4 => bitsOf pol.toNat 9 8
  | 5 => bitsOf pol.toNat 11 10
  | _ => bitsOf pol.toNat 13 12
/-- Jobs that a function's queue launched. -/
def State.fnJobs (s : State) (fn : Nat) : List Nat :=
  ((s.jobs.mapIdx fun i j => (i + 1, j)).filter fun p => p.2.fn == fn && p.2.status.isNone).map (·.1)
/-- A TDI enters ERROR: its jobs take a job fault (R306). -/
def State.tdiError (s : State) (fn : Nat) : State :=
  let s := s.modPkg fun p => { p with tdis := p.tdis.map fun t => if t.1 == fn then (fn, { t.2 with state := .error }) else t }
  (s.fnJobs fn).foldl (fun s j => s.faultJob j 3) s
/-- An alarm fires: log record, SALSTAT, and its action with every lower one. -/
def State.alarm (s : State) (src addr target master job : Nat) : State :=
  let rec128 := BitVec.ofNat 128 ((s.clk % 2 ^ 32) <<< 96 ||| (addr % 2 ^ 52) <<< 44 ||| (target % 256) <<< 36 |||
    (master % 2 ^ 16) <<< 20 ||| (src % 16) <<< 16)
  let act := salAction s.pkg.salpol src
  let s := s.modPkg fun p => { p with salstat := p.salstat ||| BitVec.ofNat 7 (1 <<< src),
                                      seclog := (p.seclog ++ [rec128]).drop (p.seclog.length + 1 - 64) }
  let s := if act ≥ 1 then s.faultJob job 3 else s
  let s := if act ≥ 2 then
      let s := s.modPkg fun p => { p with erased := p.erased + 1 }
      (s.pkg.tdis.filter fun t => t.2.state != .unlocked).foldl (fun s t => s.tdiError t.1) s
    else s
  if act ≥ 3 then s.modPkg fun p => { p with held := true } else s

/-! ## The event ring (R211) -/

/-- An event record. -/
def eventRecord (data job clk kind status core group fibre : Nat) : BitVec 128 :=
  BitVec.ofNat 128 ((data % 2 ^ 32) <<< 96 ||| (job % 2 ^ 32) <<< 64 ||| (clk % 2 ^ 32) <<< 32 ||| (kind % 32) <<< 27 |||
    (status % 8) <<< 24 ||| (core % 16) <<< 20 ||| (group % 16) <<< 16 ||| fibre % 2 ^ 16)
/-- Whether the ring takes a record now. -/
def State.eventRoom (s : State) (clu : Nat) : Bool :=
  (s.cluster clu).evWait.isEmpty && (s.cluster clu).events.length < 512
/-- A record is posted; what it reports waits with it where the ring is full (see Jobs: settle), and its CLK is then that of its writing. -/
def State.post (s : State) (clu : Nat) (rec : BitVec 128) (act : EvAct) : State :=
  if act == .none && s.eventRoom clu then s.modCluster clu fun c => { c with events := c.events ++ [rec] }
  else s.modCluster clu fun c => { c with evWait := c.evWait ++ [(rec, act)] }
/-- A record of a hardware source outside any core (R211). -/
def State.postHw (s : State) (clu data job kind : Nat) (st : Status) (act : EvAct) : State :=
  s.post clu (eventRecord data job s.clk kind (statusNum st) 0 0 0xFFFF) act
/-- A record about a fibre. -/
def State.postFibre (s : State) (f : Fibre) (data kind : Nat) (st : Status) (act : EvAct) : State :=
  let p := s.site f
  let rgi := ((s.group? f.grp).map (·.rgi)).getD 0
  s.post p.cluIx (eventRecord data (s.jobOf f) s.clk kind (statusNum st) p.core rgi f.fid) act

/-! ## Debug records (R356, R363, R364) -/

/-- Whether a debug feature is open (R356). -/
def State.feature (s : State) (n : Nat) : Bool :=
  if s.pkg.lcstate = 1 then s.pkg.dbgFeat.getLsbD n else true
/-- Slots of a ring. -/
def DbgRing.size (r : DbgRing) : Nat := 2 ^ (min (bitsOf r.ctl.toNat 4 0) 16 + 4)
/-- A record enters a ring in physical memory, or is dropped with OVF. -/
def State.ringPut (s : State) (core : Nat) (trace : Bool) (rec : List Word) : State :=
  let c := s.core core
  let r := if trace then c.trr else c.evr
  if !r.ctl.getLsbD 31 then s
  else if (r.wptr - r.rptr).toNat = r.size then
    let r := { r with ctl := r.ctl ||| 0x40000000 }
    s.modCore core fun c => if trace then { c with trr := r } else { c with evr := r }
  else
    let s := s.store (r.base.toNat + 32 * (r.wptr.toNat % r.size)) (wordBytes rec)
    let r := { r with wptr := r.wptr + 1 }
    s.modCore core fun c => if trace then { c with trr := r } else { c with evr := r }
/-- A debug, trace or sample record of a resident-group index goes to the rings its kind names. -/
def State.debugRecordOf (s : State) (rgi core kind cmp ord code : Nat) (f : Fibre) (flags : Nat) (d0 d1 : Word) : State :=
  let g := s.group? f.grp
  let rec8 := [w32 (kind <<< 24 ||| rgi <<< 20 ||| cmp <<< 16 ||| f.fid), w32 (s.jobOf f),
    w32 (ord <<< 8 ||| code), w32 (flags ||| bit f.tainted <<< 3), d0, d1, w32 ((g.map (·.gid)).getD 0), w32 s.clk]
  let s := if kind ≤ 6 || kind = 0xA || kind = 0xB then s.ringPut core false rec8 else s
  if s.feature 1 && (s.core core).trr.ctl.getLsbD (16 + (kind - 1)) then s.ringPut core true rec8 else s
/-- A record of a word that issues now names its group's present index. -/
def State.debugRecord (s : State) (core kind cmp ord code : Nat) (f : Fibre) (flags : Nat) (d0 d1 : Word) : State :=
  s.debugRecordOf (((s.group? f.grp).map (·.rgi)).getD 0) core kind cmp ord code f flags d0 d1

end Sys2Proof.Machine
end

