-- ==== Sys2Proof/Machine/Translate.lean ====
section
/-! DEFINITION. From an address as a word gives it to a location: the physical map (R301), access tables (R308), the
five-level walk (R248, R249), the TLBs and the fault filter (R250, R251), global pointers (R190, R320). -/

namespace Sys2Proof.Machine

/-- What an access does at its target (R249, R308). -/
inductive Acc where
  | read | write | atomic | fetch
  deriving DecidableEq, Repr

/-! ## The physical map (R301) -/

/-- Bytes of CXL port p's populated range; `left` is what remains of the 4 TiB. -/
def cxlLens : List Nat → Nat → List Nat
  | [], _ => []
  | p :: ps, left =>
    let n := min (Config.cxlBytes p / 65536 * 65536) left
    n :: cxlLens ps (left - n)
def cxlLen (p : Nat) : Nat := (cxlLens [0, 1, 2, 3] (2 ^ 42)).getD p 0
/-- Whether n bytes from pa lie wholly in a populated range of target kind tgt (R249, R301). For the weight store pa is
an offset (R249). -/
def populated (tgt pa n : Nat) : Bool :=
  match tgt with
  | 0 => pa / 2 ^ 36 < 4 && pa % 2 ^ 36 + n ≤ 48 * 2 ^ 30
  | 1 => 2 ^ 48 ≤ pa && (pa - 2 ^ 48) / 2 ^ 42 < 4 && (pa - 2 ^ 48) % 2 ^ 42 + n ≤ cxlLen ((pa - 2 ^ 48) / 2 ^ 42)
  | 2 => pa + n ≤ 6 * 2 ^ 30
  | 3 => 2 ^ 51 ≤ pa && pa + n ≤ 2 ^ 52
  | _ => false
/-- The access-table target of a physical address (R308). -/
def physTarget (pa : Nat) : Nat :=
  if pa < 2 ^ 48 then min (pa / 2 ^ 36) 3
  else if pa < 7 * 2 ^ 48 then 77 + min ((pa - 2 ^ 48) / 2 ^ 42) 3
  else if pa < 2 ^ 51 then 81 else 76
/-- Where the management registers begin. -/
def mgmtBase : Nat := 7 * 2 ^ 48
/-- The die whose cache is the home of a physical address (R301); 4 stands for no die: the Hifort base, which is home to the management
registers, and the host port. -/
def physHome (pa : Nat) : Nat :=
  if pa < 2 ^ 48 then min (pa / 2 ^ 36) 3 else if pa < mgmtBase then min ((pa - 2 ^ 48) / 2 ^ 42) 3 else 4

/-! ## Access tables (R308) -/

/-- Whether an entry covers a master and an address. -/
def entryCovers (e : BitVec 128) (master addr : Nat) : Bool :=
  let x := e.toNat
  let page := addr / 65536 % 2 ^ 36
  x.testBit 7 && bitsOf x 55 40 ≤ master && master ≤ bitsOf x 39 24 && bitsOf x 127 92 ≤ page && page ≤ bitsOf x 91 56
/-- Whether an entry gives the rights an access needs. -/
def entryAllows (e : BitVec 128) (a : Acc) : Bool :=
  match a with
  | .read => e.getLsbD 0
  | .write => e.getLsbD 1
  | .atomic => e.getLsbD 0 && e.getLsbD 1
  | .fetch => e.getLsbD 2
/-- The lowest-numbered covering entry decides; entries are kept in ascending order of their numbers. -/
def State.accessOk (s : State) (target master : Nat) (a : Acc) (addr : Nat) : Bool :=
  match ((look target s.pkg.access).getD []).find? fun e => entryCovers e.2 master addr with
  | some e => entryAllows e.2 a
  | none => false

/-! ## Table entries and walks (R248, R249) -/

/-- One level: index bits, bytes of one of its tables, bytes of a leaf page (0: no leaf). -/
structure Level where
  hi    : Nat
  lo    : Nat
  table : Nat
  page  : Nat
  deriving Repr
def levels : List Level :=
  [⟨56, 46, 16384, 0⟩, ⟨45, 35, 16384, 2 ^ 35⟩, ⟨34, 29, 512, 2 ^ 29⟩, ⟨28, 21, 2048, 2 ^ 21⟩, ⟨20, 16, 256, 2 ^ 16⟩]
/-- Address bits [51:8] of an entry. -/
def pteAddr (e : Nat) : Nat := bitsOf e 51 8 * 256
def pteTgt (e : Nat) : Nat := bitsOf e 59 57
/-- Reserved fields of an entry are zero. -/
def pteReservedOk (e : Nat) : Bool := bitsOf e 63 60 == 0 && bitsOf e 56 52 == 0 && bitsOf e 7 5 == 0

/-- What a walk ends in: a leaf, a fault kind, a table entry that the walker may not read (R308), or one that could not be read (R253). -/
inductive WalkEnd where
  | leaf (t : Tlb)
  | bad (k : MemKind)
  | violation (pa : Nat)
  | unreadable (pa : Nat)
  deriving DecidableEq, Repr

/-- What the walk cache holds an entry of a level for. -/
def Level.key (l : Level) (job va : Nat) : WalkKey := ⟨job, l.lo, bitsOf va 56 l.lo⟩
/-- Whether a target lies behind a die's UCIe link that is down (R300). -/
def State.unreachable (s : State) (target : Nat) : Bool :=
  s.pkg.downDies.any fun d => target == d || target == 4 + d || (8 ≤ target && target < 40 && (target - 8) / 8 == d) || target == 77 + d
/-- The entry of a level that a walk reads: the walk cache's copy of an upper-level entry, while that stands (R192, R250), else the
entry in memory. A table on a die that cannot be reached fails the walk as a data error (R300). -/
def State.tableEntry (s : State) (die job va : Nat) (l : Level) (table : Nat) : Except WalkEnd Nat :=
  let pa := table + 8 * bitsOf va l.hi l.lo
  let tgt := if pa < 2 ^ 48 then 0 else 1
  match (s.die die).wcache.find? fun c => c.1 == l.key job va && Config.walkCopyUsed die s.clk l.lo with
  | some c => .ok c.2
  | none =>
    if !populated tgt pa 8 then .error (.bad .translation)
    else if s.unreachable (physTarget pa) then .error (.bad .dataError)
    else if !s.accessOk (physTarget pa) (0x4340 + die) .read pa then .error (.violation pa)
    else if s.poisonedAt pa 8 then .error (.unreadable pa)
    else .ok (leNat (s.getBytes pa 8))
/-- The upper-level entries that a walk has read, for the walk cache. -/
def State.walkCopies (s : State) (die job va : Nat) : List Level → Nat → List (WalkKey × Nat)
  | [], _ => []
  | l :: ls, table =>
    match s.tableEntry die job va l table with
    | .ok e => if e.testBit 0 && pteReservedOk e && !e.testBit 1 && !ls.isEmpty then (l.key job va, e) :: State.walkCopies s die job va ls (pteAddr e) else []
    | .error _ => []
/-- Whether a valid entry is a leaf that a level can have: a page of that level, wholly in a populated range of its target (R249, R301). -/
def Level.leafOk (l : Level) (e : Nat) : Bool :=
  l.page != 0 && decide (pteTgt e < 4) && pteAddr e % max l.page 65536 == 0 && populated (pteTgt e) (pteAddr e) l.page
/-- Whether a valid entry points to a table of the next level. -/
def tableOk (next : Level) (e : Nat) : Bool := pteTgt e == 0 && pteAddr e % next.table == 0
/-- The walk from one table downward. -/
def State.walkFrom (s : State) (die job va : Nat) : List Level → Nat → WalkEnd
  | [], _ => .bad .translation
  | l :: ls, table =>
    match s.tableEntry die job va l table with
    | .error w => w
    | .ok e =>
      if !e.testBit 0 || !pteReservedOk e then .bad .translation
      else if e.testBit 1 then
        let a := pteAddr e
        let off := bitsOf va (l.lo - 1) 0
        if !l.leafOk e then .bad .translation
        else .leaf ⟨job, va - off, l.page, a, pteTgt e, e.testBit 2, e.testBit 3, e.testBit 4⟩
      else
        match ls with
        | [] => .bad .translation
        | n :: _ => if !tableOk n e then .bad .translation
                    else State.walkFrom s die job va ls (pteAddr e)

/-- The root table of a job on a die (R248). -/
def State.rootOf (s : State) (die job : Nat) : Nat := ((s.job? job).map fun j => (j.roots.getD die 0).toNat).getD 0
/-- The walk of a job's address on a die (R248). -/
def State.walk (s : State) (die job va : Nat) : WalkEnd :=
  match s.job? job with
  | none => .bad .translation
  | some _ => s.walkFrom die job (va % 2 ^ 57) levels (s.rootOf die job)

/-! ## TLBs and the fault filter (R250, R251) -/

def Tlb.covers (t : Tlb) (job va : Nat) : Bool := t.job == job && t.base ≤ va && va < t.base + t.size
/-- A translation the core or its cluster holds. -/
def State.tlbHit (s : State) (p : Site) (job va : Nat) : Option Tlb :=
  match (s.core p.coreIx).tlb.find? (·.covers job va) with
  | some t => some t
  | none => (s.cluster p.cluIx).tlb.find? (·.covers job va)
/-- Both TLBs take a translation; the oldest entry goes where there is no room. -/
def State.tlbFill (s : State) (p : Site) (t : Tlb) : State :=
  let s := s.modCore p.coreIx fun c => { c with tlb := (t :: c.tlb.filter (· != t)).take 64 }
  s.modCluster p.cluIx fun c => { c with tlb := (t :: c.tlb.filter (· != t)).take 2048 }
def State.filterHit (s : State) (die job va : Nat) : Bool := (s.die die).filter.contains (job, va / 65536)
/-- A page enters the fault filter, once; the oldest of 64 makes room (R251). -/
def Die.filterOut (d : Die) (job va : Nat) : Die :=
  if d.filter.contains (job, va / 65536) then d else { d with filter := ((job, va / 65536) :: d.filter).take 64 }
/-- A walk's result and what it leaves behind on its die: copies in the walk cache, a translation fault in the filter, and for a table entry
that the walker may not read the alarm, which names that entry (R309). An entry that cannot be read has its record from when the error
in it was found (R255). -/
def State.dieWalk (s : State) (die job va : Nat) : MissEnd × State :=
  let w := s.walk die job va
  let copies := s.walkCopies die job (va % 2 ^ 57) levels (s.rootOf die job)
  let s := s.modDie die fun d => { d with wcache := copies ++ d.wcache.filter fun c => !copies.any fun x => x.1 == c.1 }
  match w with
  | .leaf t => (.ok t, s)
  | .bad .translation => (.error .translation, s.modDie die (·.filterOut job va))
  | .bad k => (.error k, s)
  | .violation pa => (.error .accessTable, s.alarm 0 pa (physTarget pa) (0x4340 + die) job)
  | .unreadable _ => (.error .translation, s.modDie die (·.filterOut job va))
/-- Whether a walk serves a miss. -/
def Walk.serves (w : Walk) (job va : Nat) : Bool := w.job == job && w.va / 65536 == va / 65536
/-- What a miss comes to: a filter entry answers it at once (R251); it merges with an outstanding walk of its page, whose entries are read
once; else its own walk ends, and a leaf satisfies every waiting miss inside its page (R250). -/
def State.missDone (s : State) (die job va : Nat) : MissEnd × State :=
  if s.filterHit die job va then (.error .translation, s)
  else match ((s.die die).walks.find? (·.serves job va)).bind (·.res) with
    | some r => (r, s)
    | none =>
      let (r, s) := s.dieWalk die job va
      let ended := fun (w : Walk) => w.serves job va || match r with | .ok t => t.covers w.job w.va | .error _ => false
      (r, s.modDie die fun d => { d with walks := d.walks.map fun w => if ended w then { w with res := some r } else w })
/-- The same for an agent of a site: both its TLBs take a leaf. -/
def State.walkDone (s : State) (p : Site) (job va : Nat) : MissEnd × State :=
  match s.missDone p.die job va with
  | (.ok t, s) => (.ok t, s.tlbFill p t)
  | r => r
/-- Whether a leaf allows an access from a space (R249). -/
def leafKind (t : Tlb) (sp : Space) (a : Acc) : Option MemKind :=
  let rights := match a with
    | .read => t.r | .write => t.w | .atomic => t.r && t.w | .fetch => t.x
  let fits := match sp with
    | .ws => t.tgt == 2
    | .sys => t.tgt == 3
    | _ => t.tgt == 0 || t.tgt == 1
  if rights && fits then none else some .protection
/-- The location a leaf gives for an address: a physical address, or a place in the die's weight store. -/
def leafLoc (t : Tlb) (die va : Nat) : Nat :=
  let pa := t.pa + (va - t.base)
  if t.tgt = 2 then Loc.weight die pa else pa
/-- The access-table target and address of what a leaf gives. -/
def leafTarget (t : Tlb) (die va : Nat) : Nat × Nat :=
  let pa := t.pa + (va - t.base)
  if t.tgt = 2 then (4 + die, pa) else (physTarget pa, pa)

/-! ## Where an access goes -/

/-- The outcome of finding an access's place. -/
inductive Found where
  | at_ (loc : Nat)
  | remote (pkg die off : Nat)
  | walk (va : Nat)                     -- a TLB miss that no filter entry answers
  | bad (k : MemKind)
  deriving DecidableEq, Repr

/-- Rights at the target, judged where the access arrives there now; a violation fires alarm source 0 (R308). -/
def State.checkTarget (s : State) (now : Bool) (target master job : Nat) (a : Acc) (addr loc : Nat) : Found × State :=
  if !now then (.at_ loc, s)
  else if s.unreachable target then (.bad .dataError, s)
  else if s.accessOk target master a addr then (.at_ loc, s) else (.bad .accessTable, s.alarm 0 addr target master job)
/-- The target that holds a location, and the address it checks there: that of a .cm access is its offset (R308). The scratchpads and the
control cores' stores are no targets. -/
def locTarget (loc off : Nat) : Option (Nat × Nat) :=
  if loc < 2 ^ 52 then some (if mgmtBase ≤ loc && loc < 2 ^ 51 then (81, loc - mgmtBase) else (physTarget loc, loc))
  else if loc < 2 ^ 53 then some (4 + (loc - 2 ^ 52) / 2 ^ 33, (loc - 2 ^ 52) % 2 ^ 33)
  else if loc < 2 ^ 54 then some (8 + (loc - 2 ^ 53) / 2 ^ 26, off)
  else none
/-- An access that has its place arrives at its target: the table is judged as it stands now (R308). -/
def State.arriveAt (s : State) (master job : Nat) (a : Acc) (off loc : Nat) : Found × State :=
  match locTarget loc off with
  | some (target, addr) => s.checkTarget true target master job a addr loc
  | none => (.at_ loc, s)

/-- A translated access: leaf rights, then the access table. -/
def State.checkLeaf (s : State) (now : Bool) (t : Tlb) (die va master job : Nat) (sp : Space) (a : Acc) : Found × State :=
  match leafKind t sp a with
  | some k => (.bad k, s)
  | none => let (target, addr) := leafTarget t die va
            s.checkTarget now target master job a addr (leafLoc t die va)

/-- A local virtual address at a site, by TLB and filter only. -/
def State.findLocal (s : State) (now : Bool) (p : Site) (job va master : Nat) (sp : Space) (a : Acc) : Found × State :=
  if va ≥ 2 ^ 57 then (.bad .translation, s)
  else match s.tlbHit p job va with
    | some t => s.checkLeaf now t p.die va master job sp a
    | none => if s.filterHit p.die job va then (.bad .translation, s) else (.walk va, s)

/-- The window of a die in a job's export map: base and length (R320). -/
def State.window (s : State) (job die : Nat) : Nat × Nat :=
  match s.job? job with
  | none => (0, 0)
  | some j => let e := j.exports.toNat + 16 * die
              (leNat (s.getBytes e 8), leNat (s.getBytes (e + 8) 8))

/-- A space's offset on chip: scratchpad through the group's map (R145), the control core's store, cluster memory of
the group's cohort (R189, R212). -/
def State.spLoc (s : State) (g : Group) (off : Nat) : Nat :=
  if g.core = 8 then Loc.control (cluIx g.die g.clu) off
  else Loc.spad (coreIx g.die g.clu g.core) (4096 * g.smap.getD (off / 4096) 0 + off % 4096)
/-- A cohort's home cluster (R212): the k-th selected bit of the cluster set. -/
def clusterList (set : Word) : List Nat := (List.range 32).filter fun i => set.getLsbD i
def Job.home (j : Job) (cohort : Nat) : Nat :=
  let l := clusterList j.clusters
  l.getD (cohort % max l.length 1) 0
def State.cmLoc (s : State) (g : Group) (off : Nat) : Option (Nat × Nat) :=
  match s.job? g.job with
  | none => none
  | some j =>
    let cohort := g.gid / max j.cohort 1
    match look cohort j.cohorts with
    | none => none
    | some units => if off < j.cm then some (j.home cohort, Loc.cm (j.home cohort) (65536 * units.getD (off / 65536) 0 + off % 65536))
                    else none

/-- The translated address that an address of .g names: behind a pointer into this package, base + offset of the window (R320). -/
def State.windowed (s : State) (f : Fibre) (addr : Nat) : Nat :=
  if addr < 2 ^ 63 || f.privileged || bitsOf addr 62 53 != Config.pkgNumber then addr
  else ((s.window (s.jobOf f) (bitsOf addr 52 51)).1 + bitsOf addr 50 0) % 2 ^ 57
/-- How much of n bytes at an address lies in its 4 KiB page: a run that an engine handles at once. -/
def State.pageRun (s : State) (f : Fibre) (addr n : Nat) : Nat := min n (4096 - s.windowed f addr % 4096)
/-- The place of n bytes at an address of a space, for a fibre; the access table is judged where the access arrives at once. Physical
addresses where the agent has no translation (handler fibres R267; control cores, log 9). -/
def State.place (s : State) (now : Bool) (f : Fibre) (sp : Space) (addr n : Nat) (a : Acc) : Found × State :=
  let p := s.site f
  let job := s.jobOf f
  let master := s.master f
  match sp with
  | .sp =>
    match s.group? f.grp with
    | some g => if f.isHandler || addr + n > g.spad then (.bad .bounds, s) else (.at_ (s.spLoc g addr), s)
    | none => (.bad .bounds, s)
  | .cm =>
    match s.group? f.grp with
    | some g =>
      if f.isHandler then (.bad .protection, s) else
      match s.cmLoc g addr, s.cmLoc g (addr + n - 1) with
      | some (clu, loc), some _ => s.checkTarget now (8 + clu) master job a addr loc
      | _, _ => (.bad .protection, s)
    | none => (.bad .protection, s)
  | _ =>
    if f.privileged then
      let pa := addr % 2 ^ 52
      if sp == .g && addr < 2 ^ 52 && (populated 0 pa n || populated 1 pa n) then s.checkTarget now (physTarget pa) master job a pa pa
      else if sp == .g && mgmtBase ≤ pa && pa + n ≤ mgmtBase + 0x5000000 && addr < 2 ^ 52 then
        s.checkTarget now 81 master job a (pa - mgmtBase) pa
      else if (sp == .sys || (sp == .g && f.isHandler)) && addr < 2 ^ 52 && populated 3 pa n then s.checkTarget now 76 master job a pa pa
      else if sp == .ws && populated 2 pa n then s.checkTarget now (4 + p.die) master job a pa (Loc.weight p.die pa)
      else (.bad .translation, s)
    else if addr < 2 ^ 63 then s.findLocal now p job addr master sp a
    else if sp != .g then (.bad .translation, s)
    else
      let pkg := bitsOf addr 62 53
      let die := bitsOf addr 52 51
      let off := bitsOf addr 50 0
      if pkg != Config.pkgNumber then (.remote pkg die off, s)
      else
        let (base, len) := s.window job die
        if off + n > len then (.bad .translation, s)
        else s.findLocal now ⟨die, p.clu, p.core⟩ job ((base + off) % 2 ^ 57) master sp a

/-- The place of an access that arrives at its target now. -/
def State.find (s : State) (f : Fibre) (sp : Space) (addr n : Nat) (a : Acc) : Found × State := s.place true f sp addr n a
/-- The same with the walk made at once, or merged with the one of its page. -/
def State.placeNow (s : State) (now : Bool) (f : Fibre) (sp : Space) (addr n : Nat) (a : Acc) : Found × State :=
  match s.place now f sp addr n a with
  | (.walk va, s) =>
    let p := s.site f
    let die := if addr < 2 ^ 63 then p.die else bitsOf addr 52 51
    match s.walkDone ⟨die, p.clu, p.core⟩ (s.jobOf f) va with
    | (.ok t, s) => s.checkLeaf now t die va (s.master f) (s.jobOf f) sp a
    | (.error k, s) => (.bad k, s)
  | r => r
/-- Where an engine's piece goes, which arrives now. -/
def State.findNow (s : State) (f : Fibre) (sp : Space) (addr n : Nat) (a : Acc) : Found × State := s.placeNow true f sp addr n a

end Sys2Proof.Machine
end

