-- ==== Sys2Proof/Machine/Flags.lean ====
section
/-! DEFINITION. The arithmetic status of a fibre (R87): which conditions an operation raises, how %astat records them,
and the test before a reporting word. -/

namespace Sys2Proof.Machine

/-- The conditions an operation raises, in the order of %astat [5:0]. -/
structure Conds where
  nv  : Bool := false
  dz  : Bool := false
  of_ : Bool := false
  uf  : Bool := false
  nx  : Bool := false
  sat : Bool := false
  deriving DecidableEq, Repr, Inhabited

/-- No condition. -/
def Conds.none : Conds := {}
/-- What either of two operations raises. -/
def Conds.or (x y : Conds) : Conds :=
  ⟨x.nv || y.nv, x.dz || y.dz, x.of_ || y.of_, x.uf || y.uf, x.nx || y.nx, x.sat || y.sat⟩
/-- The conditions as bits [5:0]. -/
def Conds.bits (c : Conds) : Nat :=
  bit c.nv + 2 * bit c.dz + 4 * bit c.of_ + 8 * bit c.uf + 16 * bit c.nx + 32 * bit c.sat
/-- %astat after a word raised c: bits k and 8 + k. -/
def raiseBits (astat : Word) (c : Conds) : Word := astat ||| w32 (c.bits * 257)
/-- The fibre after its word raised c. -/
def Fibre.raise (f : Fibre) (c : Conds) : Fibre := { f with astat := raiseBits f.astat c }
/-- NEW AND EN: what an arithmetic report would report. -/
def Fibre.reportable (f : Fibre) : Word := (f.astat >>> 8) &&& f.atrap &&& 0x3F
/-- %astat with NEW cleared. -/
def clearNew (astat : Word) : Word := astat &&& ~~~0x3F00#32

end Sys2Proof.Machine
end

