-- ==== Sys2Proof/Machine/Float.lean ====
section
/-! DEFINITION. Floating point: decoding, one rounding of an exact result (R8 to R13), the arithmetic of R117 to R124 on
any of the four formats, and the special functions of R121. -/

namespace Sys2Proof.Machine

/-! ## Formats and values (R8) -/

/-- A vector format: widths of exponent and fraction. -/
structure FF where
  ew : Nat
  mw : Nat
  deriving DecidableEq, Repr
def FF.f16 : FF := ⟨5, 10⟩
def FF.bf16 : FF := ⟨8, 7⟩
def FF.f32 : FF := ⟨8, 23⟩
def FF.f64 : FF := ⟨11, 52⟩
def FF.bias (t : FF) : Nat := 2 ^ (t.ew - 1) - 1
/-- Exponent of the smallest normal number. -/
def FF.emin (t : FF) : Int := 1 - (t.bias : Int)
def FF.width (t : FF) : Nat := 1 + t.ew + t.mw
/-- The format of a float type. -/
def ffOf : Ty → FF
  | .f64 => .f64 | .f16 => .f16 | .bf16 => .bf16 | _ => .f32

/-- A value: NaN, infinity, or (−1)^neg × m × 2^e. -/
inductive FV where
  | nan (sig : Bool)
  | inf (neg : Bool)
  | fin (neg : Bool) (m : Nat) (e : Int)
  deriving DecidableEq, Repr

/-- The value of a bit pattern (R8). -/
def FF.val (t : FF) (x : Nat) : FV :=
  let m := x % 2 ^ t.mw
  let e := x / 2 ^ t.mw % 2 ^ t.ew
  let neg := x.testBit (t.ew + t.mw)
  if e = 2 ^ t.ew - 1 then (if m = 0 then .inf neg else .nan (!m.testBit (t.mw - 1)))
  else if e = 0 then .fin neg m (t.emin - t.mw)
  else .fin neg (m + 2 ^ t.mw) ((e : Int) - t.bias - t.mw)
def FF.signBit (t : FF) (neg : Bool) : Nat := bit neg <<< (t.ew + t.mw)
/-- The canonical quiet NaN. -/
def FF.qnan (t : FF) : Nat := (2 ^ t.ew - 1) <<< t.mw ||| 2 ^ (t.mw - 1)
def FF.infinity (t : FF) (neg : Bool) : Nat := t.signBit neg ||| (2 ^ t.ew - 1) <<< t.mw
def FF.maxFinite (t : FF) (neg : Bool) : Nat := t.signBit neg ||| ((2 ^ t.ew - 1) <<< t.mw - 1)
def FF.zero (t : FF) (neg : Bool) : Nat := t.signBit neg

/-! ## Rounding (R10 to R13) -/

/-- An exact magnitude m × 2^e in units of 2^q: the integer below, and the remainder over its denominator. -/
def cutAt (m : Nat) (e q : Int) : Nat × Nat × Nat :=
  if e ≥ q then (m * 2 ^ (e - q).toNat, 0, 1)
  else
    let k := (q - e).toNat
    (m / 2 ^ k, m % 2 ^ k, 2 ^ k)
/-- Whether a mode takes the neighbour away from zero (R11, R12). -/
def roundsUp (r : Rnd) (neg : Bool) (n rem den noise : Nat) : Bool :=
  match r with
  | .rn => 2 * rem > den || (2 * rem == den && n % 2 == 1)
  | .rz => false
  | .ru => !neg && rem != 0
  | .rd => neg && rem != 0
  | .sr => noise < rem * 65536 / den
/-- Rounded to a multiple of 2^q; whether that lost anything. -/
def roundAt (r : Rnd) (neg : Bool) (m : Nat) (e q : Int) (noise : Nat) : Nat × Bool :=
  let (n, rem, den) := cutAt m e q
  (if roundsUp r neg n rem den noise then n + 1 else n, rem != 0)
/-- What overflow delivers (R13). -/
def FF.overflow (t : FF) (r : Rnd) (neg : Bool) : Nat :=
  match r with
  | .rz => t.maxFinite neg
  | .ru => if neg then t.maxFinite neg else t.infinity neg
  | .rd => if neg then t.infinity neg else t.maxFinite neg
  | _ => t.infinity neg
/-- One rounding of the exact value (−1)^neg × m × 2^e. DESIGN CHOICE: R13 does not say whether .sr of a magnitude between the largest
finite one and 2^(emax+1) that delivers the largest finite value overflows; here only NX is raised, not OF (log 33). -/
def FF.round (t : FF) (r : Rnd) (neg : Bool) (m : Nat) (e : Int) (noise : Nat) : Nat × Conds :=
  if m = 0 then (t.zero neg, Conds.none)
  else
    let top : Int := (Nat.log2 m : Int) + e
    let q := max top t.emin - t.mw
    let (n, nx) := roundAt r neg m e q noise
    let carry := n ≥ 2 ^ (t.mw + 1)
    let n := if carry then n / 2 else n
    let q := if carry then q + 1 else q
    let field : Int := if n < 2 ^ t.mw then 0 else q + t.mw + t.bias
    if field ≥ (2 ^ t.ew - 1 : Nat) then (t.overflow r neg, { of_ := true, nx := true })
    else
      let tiny := top < t.emin && (roundAt r neg m e (top - t.mw) noise).1 < 2 ^ (t.emin - (top - t.mw)).toNat
      (t.signBit neg ||| field.toNat <<< t.mw ||| n % 2 ^ t.mw, { uf := tiny && nx, nx := nx })

/-! ## Arithmetic -/

/-- NaN operands: the canonical NaN, with NV for a signalling one (R9). -/
def FV.isSnan : FV → Bool
  | .nan s => s
  | _ => false
def FV.isNan : FV → Bool
  | .nan _ => true
  | _ => false
def FF.nanOf (t : FF) (xs : List FV) : Nat × Conds := (t.qnan, { nv := xs.any FV.isSnan })
def FF.invalid (t : FF) : Nat × Conds := (t.qnan, { nv := true })

/-- The exact sum of two finite values, rounded; an exact zero is −0 in .rd and for two −0 (R117). -/
def FF.sum (t : FF) (r : Rnd) (xn : Bool) (xm : Nat) (xe : Int) (yn : Bool) (ym : Nat) (ye : Int) (noise : Nat) : Nat × Conds :=
  let e := min xe ye
  let x : Int := (xm * 2 ^ (xe - e).toNat : Nat)
  let y : Int := (ym * 2 ^ (ye - e).toNat : Nat)
  let s := (if xn then -x else x) + (if yn then -y else y)
  if s = 0 then (t.zero (if xn == yn then xn else r == .rd), Conds.none)
  else t.round r (s < 0) s.natAbs e noise
def FF.add (t : FF) (r : Rnd) (a b noise : Nat) : Nat × Conds :=
  match t.val a, t.val b with
  | .nan s, y => t.nanOf [.nan s, y]
  | x, .nan s => t.nanOf [x, .nan s]
  | .inf s, .inf u => if s == u then (t.infinity s, Conds.none) else t.invalid
  | .inf s, _ => (t.infinity s, Conds.none)
  | _, .inf s => (t.infinity s, Conds.none)
  | .fin xn xm xe, .fin yn ym ye => t.sum r xn xm xe yn ym ye noise
/-- The operand with its sign changed. -/
def FF.negate (t : FF) (x : Nat) : Nat := x ^^^ t.signBit true
/-- a − b is a + (−b); a NaN keeps its kind. -/
def FF.sub (t : FF) (r : Rnd) (a b noise : Nat) : Nat × Conds := t.add r a (t.negate b) noise
def FF.mul (t : FF) (r : Rnd) (a b noise : Nat) : Nat × Conds :=
  match t.val a, t.val b with
  | .nan s, y => t.nanOf [.nan s, y]
  | x, .nan s => t.nanOf [x, .nan s]
  | .inf s, .inf u => (t.infinity (s != u), Conds.none)
  | .inf s, .fin u m _ => if m = 0 then t.invalid else (t.infinity (s != u), Conds.none)
  | .fin u m _, .inf s => if m = 0 then t.invalid else (t.infinity (s != u), Conds.none)
  | .fin xn xm xe, .fin yn ym ye => t.round r (xn != yn) (xm * ym) (xe + ye) noise
/-- Whether a product is 0 × ∞, which raises NV whatever the addend is (R9). -/
def zeroTimesInf : FV → FV → Bool
  | .inf _, .fin _ m _ => m == 0
  | .fin _ m _, .inf _ => m == 0
  | _, _ => false
def FF.fma (t : FF) (r : Rnd) (a b c noise : Nat) : Nat × Conds :=
  let x := t.val a
  let y := t.val b
  let z := t.val c
  if zeroTimesInf x y then t.invalid
  else if x.isNan || y.isNan || z.isNan then t.nanOf [x, y, z]
  else
    match x, y, z with
    | .fin xn xm xe, .fin yn ym ye, .fin zn zm ze => t.sum r (xn != yn) (xm * ym) (xe + ye) zn zm ze noise
    | .fin _ _ _, .fin _ _ _, .inf s => (t.infinity s, Conds.none)
    | x, y, z =>
      let neg := fun (v : FV) => match v with | .inf s => s | .fin s _ _ => s | .nan _ => false
      let s := neg x != neg y
      match z with
      | .inf u => if s == u then (t.infinity s, Conds.none) else t.invalid
      | _ => (t.infinity s, Conds.none)

/-- A quotient with enough bits for any rounding, the last one sticky. -/
def quotient (t : FF) (xm : Nat) (xe : Int) (ym : Nat) (ye : Int) : Nat × Int :=
  let k := t.mw + 26 + Nat.log2 ym
  let q := xm * 2 ^ k / ym
  (2 * q + bit (xm * 2 ^ k % ym != 0), xe - ye - k - 1)
def FF.div (t : FF) (r : Rnd) (a b noise : Nat) : Nat × Conds :=
  match t.val a, t.val b with
  | .nan s, y => t.nanOf [.nan s, y]
  | x, .nan s => t.nanOf [x, .nan s]
  | .inf _, .inf _ => t.invalid
  | .inf s, .fin u _ _ => (t.infinity (s != u), Conds.none)
  | .fin u _ _, .inf s => (t.zero (s != u), Conds.none)
  | .fin xn xm xe, .fin yn ym ye =>
    if ym = 0 then (if xm = 0 then t.invalid else (t.infinity (xn != yn), { dz := true }))
    else
      let (m, e) := quotient t xm xe ym ye
      t.round r (xn != yn) m e noise

/-- The integer square root, one bit at a time from the top. -/
def isqrtFrom (n : Nat) : Nat → Nat → Nat
  | 0, r => r
  | i + 1, r => if (r + 2 ^ i) * (r + 2 ^ i) ≤ n then isqrtFrom n i (r + 2 ^ i) else isqrtFrom n i r
def isqrt (n : Nat) : Nat := isqrtFrom n (Nat.log2 n / 2 + 1) 0
/-- A magnitude with an even exponent. -/
def evenExp (m : Nat) (e : Int) : Nat × Int := if e % 2 = 0 then (m, e) else (2 * m, e - 1)
/-- √a (R119). -/
def FF.sqrt (t : FF) (r : Rnd) (a noise : Nat) : Nat × Conds :=
  match t.val a with
  | .nan s => t.nanOf [.nan s]
  | .inf s => if s then t.invalid else (t.infinity false, Conds.none)
  | .fin s m e =>
    if m = 0 then (t.zero s, Conds.none)
    else if s then t.invalid
    else
      let (m, e) := evenExp m e
      let k := t.mw + 26
      let n := m * 2 ^ (2 * k)
      let q := isqrt n
      t.round r false (2 * q + bit (q * q != n)) (e / 2 - k - 1) noise
/-- 1 ÷ √a (R119). -/
def FF.rsqrt (t : FF) (r : Rnd) (a noise : Nat) : Nat × Conds :=
  match t.val a with
  | .nan s => t.nanOf [.nan s]
  | .inf s => if s then t.invalid else (t.zero false, Conds.none)
  | .fin s m e =>
    if m = 0 then (t.infinity s, { dz := true })
    else if s then t.invalid
    else
      let (m, e) := evenExp m e
      let k := t.mw + 28 + Nat.log2 m
      let q := isqrt (2 ^ (2 * k) / m)
      t.round r false (2 * q + bit (q * q * m != 2 ^ (2 * k))) (-(e / 2) - k - 1) noise
/-- 1 ÷ a (R119). -/
def FF.rcp (t : FF) (r : Rnd) (a noise : Nat) : Nat × Conds :=
  match t.val a with
  | .nan s => t.nanOf [.nan s]
  | .inf s => (t.zero s, Conds.none)
  | .fin s m e =>
    if m = 0 then (t.infinity s, { dz := true })
    else
      let (q, x) := quotient t 1 0 m e
      t.round r s q x noise
/-- Rounded to an integral value (R119). -/
def FF.integral (t : FF) (r : Rnd) (a noise : Nat) : Nat × Conds :=
  match t.val a with
  | .nan s => t.nanOf [.nan s]
  | .inf _ => (a, Conds.none)
  | .fin s m e =>
    if m = 0 then (a, Conds.none)
    else
      let (n, nx) := roundAt r s m e 0 noise
      ((t.round .rn s n 0 0).1, { nx := nx })

/-! ## Order, minimum and maximum, classes (R118 to R120) -/

/-- The order of two numbers: below, equal or above. -/
def cmpFin (x y : FV) : Ordering :=
  let key := fun (v : FV) (e : Int) => match v with
    | .fin s m x => let k : Int := (m * 2 ^ (x - e).toNat : Nat); if s then -k else k
    | _ => 0
  match x, y with
  | .inf s, .inf u => if s == u then .eq else if s then .lt else .gt
  | .inf s, _ => if s then .lt else .gt
  | _, .inf s => if s then .gt else .lt
  | .fin xs xm xe, .fin ys ym ye =>
    let e := min xe ye
    compare (key (.fin xs xm xe) e) (key (.fin ys ym ye) e)
  | _, _ => .eq
def FV.neg : FV → Bool
  | .inf s => s
  | .fin s _ _ => s
  | .nan _ => false
/-- Minimum (or maximum) number: −0 below +0, a lone NaN gives way, NV for a signalling one (R118). -/
def FF.minMax (t : FF) (max_ : Bool) (a b : Nat) : Nat × Conds :=
  let x := t.val a
  let y := t.val b
  let c : Conds := { nv := x.isSnan || y.isSnan }
  if x.isNan && y.isNan then (t.qnan, c)
  else if x.isNan then (b, c)
  else if y.isNan then (a, c)
  else
    let below := match cmpFin x y with
      | .lt => true
      | .gt => false
      | .eq => x.neg && !y.neg
    (if below != max_ then a else b, c)
/-- FCMP's conditions by fn (R120). -/
def FF.cmp (t : FF) (fn a b : Nat) : Bool × Conds :=
  let x := t.val a
  let y := t.val b
  let un := x.isNan || y.isNan
  let o := cmpFin x y
  let sig := x.isSnan || y.isSnan
  match fn with
  | 0 => (!un && o == .eq, { nv := sig })
  | 1 => (un || o != .eq, { nv := sig })
  | 2 => (!un && o == .lt, { nv := un })
  | 3 => (!un && o != .gt, { nv := un })
  | 4 => (!un && o == .gt, { nv := un })
  | 5 => (!un && o != .lt, { nv := un })
  | 6 => (un, { nv := sig })
  | _ => (!un, { nv := sig })
/-- FCLASS's bit number (R119). -/
def FF.classBit (t : FF) (a : Nat) : Nat :=
  match t.val a with
  | .nan s => if s then 0 else 1
  | .inf s => if s then 2 else 9
  | .fin s m _ =>
    let sub := a / 2 ^ t.mw % 2 ^ t.ew == 0
    if m = 0 then (if s then 5 else 6) else if sub then (if s then 4 else 7) else (if s then 3 else 8)

/-! ## Conversions (R15, R124) -/

/-- Float to float. -/
def cvtFF (src dst : FF) (r : Rnd) (a noise : Nat) : Nat × Conds :=
  match src.val a with
  | .nan s => dst.nanOf [.nan s]
  | .inf s => (dst.infinity s, Conds.none)
  | .fin s m e => dst.round r s m e noise
/-- Float to integer: rounded, saturated with NV, NaN to 0 with NV. -/
def cvtFI (src : FF) (lo hi : Int) (r : Rnd) (a noise : Nat) : Int × Conds :=
  match src.val a with
  | .nan _ => (0, { nv := true })
  | .inf s => (if s then lo else hi, { nv := true })
  | .fin s m e =>
    let (n, nx) := roundAt r s m e 0 noise
    let v : Int := if s then -(n : Int) else n
    if v < lo then (lo, { nv := true }) else if v > hi then (hi, { nv := true }) else (v, { nx := nx })
/-- Integer to float. -/
def cvtIF (dst : FF) (r : Rnd) (v : Int) (noise : Nat) : Nat × Conds := dst.round r (v < 0) v.natAbs 0 noise

/-! ## Special functions (R121): the exact value lies strictly between two bounds; where both round alike, that is the
result, else the bounds are made finer. -/

/-- ⌊ln 2 × 2^520⌋. -/
def ln2Bits : Nat := 0xb17217f7d1cf79abc9e3b39803f2f6af40f343267298b62d8a0d175b8baafa2be7b876206debac98559552fb4afa1b10ed2eae35c138214427573b291169b8253e
/-- ⌊π × 2^520⌋. -/
def piBits : Nat := 0x3243f6a8885a308d313198a2e03707344a4093822299f31d0082efa98ec4e6c89452821e638d01377be5466cf34e90c6cc0ac29b7c97c50dd3f84d5b5b547091792
/-- A constant of 520 fraction bits with p of them. -/
def constAt (c p : Nat) : Nat := c / 2 ^ (520 - p)

/-- Σ xⁿ/n! in fixed point with p fraction bits; each term is cut, so the sum is low by less than one unit a term. -/
def expSeries (p x : Nat) : Nat → Nat → Nat → Nat
  | 0, _, _ => 0
  | k + 1, n, term => term + expSeries p x k (n + 1) (term * x / 2 ^ p / (n + 1))
/-- Σ xx^j/((2j + a)!/a!) with alternating signs where asked: sin (a = 1) or cosh, sinh over x. -/
def evenSeries (p xx : Nat) (alt : Bool) (a : Nat) : Nat → Nat → Int → Int
  | 0, _, _ => 0
  | k + 1, j, term =>
    let next := term * xx / 2 ^ p / ((2 * j + a + 1) * (2 * j + a + 2) : Nat)
    term + evenSeries p xx alt a k (j + 1) (if alt then -next else next)
/-- Σ zz^j/(2j + 1): atanh z over z. -/
def atanhSeries (p zz : Nat) : Nat → Nat → Nat → Nat
  | 0, _, _ => 0
  | k + 1, j, pow => pow / (2 * j + 1) + atanhSeries p zz k (j + 1) (pow * zz / 2 ^ p)

/-- An approximation v × 2^e of a positive value, off by less than 2^16 units either way. -/
structure Approx where
  v : Nat
  e : Int
/-- Both bounds rounded; none where they differ. -/
def Approx.settle (a : Approx) (neg : Bool) : Option (Nat × Conds) :=
  let lo := FF.f32.round .rn neg (2 * (a.v - 65536) + 1) (a.e - 1) 0
  let hi := FF.f32.round .rn neg (2 * (a.v + 65536) - 1) (a.e - 1) 0
  if lo.1 == hi.1 then some (lo.1, { lo.2 with nx := true }) else none
/-- The result from two precisions; the coarser settles all but a vanishing share of operands. -/
def settleAt (neg : Bool) (f : Nat → Approx) : Nat × Conds :=
  match (f 200).settle neg with
  | some r => r
  | none =>
    match (f 440).settle neg with
    | some r => r
    | none => FF.f32.round .rn neg (2 * (f 440).v + 1) ((f 440).e - 1) 0

/-- 2^x for x = n + frac/2^k with a fraction in (0, 1). -/
def exp2Approx (n : Int) (frac k p : Nat) : Approx :=
  let x := frac * constAt ln2Bits p / 2 ^ k
  ⟨expSeries p x 90 0 (2 ^ p), n - p⟩
/-- FEX2. -/
def fex2 (a : Nat) : Nat × Conds :=
  match FF.f32.val a with
  | .nan s => FF.f32.nanOf [.nan s]
  | .inf s => (if s then FF.f32.zero false else FF.f32.infinity false, Conds.none)
  | .fin s m e =>
    let top : Int := (Nat.log2 m : Int) + e
    if m = 0 then FF.f32.round .rn false 1 0 0
    else if top ≥ 10 then (if s then FF.f32.round .rn false 1 (-1000) 0 else FF.f32.round .rn false 1 1000 0)
    else
      let k := if e < 0 then (-e).toNat else 0
      let v : Int := (m * 2 ^ (if e < 0 then 0 else e.toNat) : Nat)
      let v := if s then -v else v
      let n := v / (2 ^ k : Nat)
      let frac := (v - n * (2 ^ k : Nat)).toNat
      if frac = 0 then FF.f32.round .rn false 1 n 0 else settleAt false (exp2Approx n frac k)

/-- |log2 (2^n × y)| for y = m/2^j in [3/4, 3/2), and its sign. -/
def log2Approx (n : Int) (m j p : Nat) : Approx × Bool :=
  let one := 2 ^ j
  let below := m < one
  let num := if below then one - m else m - one
  -- z = |y − 1|/(y + 1) with p extra bits, so that a small logarithm keeps its precision
  let z := num * 2 ^ (2 * p) / (m + one)
  let zz := z * z / 2 ^ (3 * p)
  let ln := 2 * z * atanhSeries p zz 110 0 (2 ^ p) / 2 ^ p
  let l2 := ln * 2 ^ p / constAt ln2Bits p
  let whole : Int := n * (2 ^ (2 * p) : Nat)
  let v : Int := whole + (if below then -(l2 : Int) else l2)
  -- the value in units of 2^(−2p); bits below its relative precision are dropped, to the bound of Approx
  let d := Nat.log2 l2 - p
  (⟨v.natAbs / 2 ^ d, -(2 * p : Nat) + d⟩, v < 0)
/-- FLG2. -/
def flg2 (a : Nat) : Nat × Conds :=
  match FF.f32.val a with
  | .nan s => FF.f32.nanOf [.nan s]
  | .inf s => if s then FF.f32.invalid else (FF.f32.infinity false, Conds.none)
  | .fin s m e =>
    if m = 0 then (FF.f32.infinity true, { dz := true })
    else if s then FF.f32.invalid
    else
      let l := Nat.log2 m
      if m = 2 ^ l then cvtIF FF.f32 .rn (e + l) 0
      else
        let up := 2 * m ≥ 3 * 2 ^ l
        let j := if up then l + 1 else l
        let n : Int := e + j
        settleAt (log2Approx n m j 200).2 fun p => (log2Approx n m j p).1

/-- sin(π × m/2^k) for a ratio in (0, 1/2]. -/
def sinApprox (m k p : Nat) : Approx :=
  let x := m * constAt piBits p / 2 ^ k
  let xx := x * x / 2 ^ p
  let s := (evenSeries p xx true 1 90 0 (2 ^ p : Nat)).toNat
  ⟨m * (constAt piBits p * s / 2 ^ p) / 2 ^ (Nat.log2 m), -(k : Int) - p + Nat.log2 m⟩
/-- sin(π × v/2^k) for any integer v; an integral argument gives a zero of sign z. -/
def sinPi (v : Int) (k : Nat) (z : Bool) : Nat × Conds :=
  let turn := v.emod (2 ^ (k + 1) : Nat)
  let neg := turn ≥ (2 ^ k : Nat)
  let r := (if neg then turn - (2 ^ k : Nat) else turn).toNat
  if r = 0 then (FF.f32.zero z, Conds.none)
  else
    let r := if 2 * r > 2 ^ k then 2 ^ k - r else r
    if 2 * r = 2 ^ k then FF.f32.round .rn neg 1 0 0 else settleAt neg (sinApprox r k)
/-- An FP32 value as an integer over 2^k, k at least 1. -/
def overPow (s : Bool) (m : Nat) (e : Int) : Int × Nat :=
  let k := if e < 0 then (-e).toNat else 1
  let v : Int := (if e < 0 then m else m * 2 ^ (e.toNat + 1) : Nat)
  (if s then -v else v, k)
/-- FSIN. -/
def fsin (a : Nat) : Nat × Conds :=
  match FF.f32.val a with
  | .nan s => FF.f32.nanOf [.nan s]
  | .inf _ => FF.f32.invalid
  | .fin s m e => let (v, k) := overPow s m e; sinPi v k s
/-- FCOS: cos(πa) = sin(π(a + 1/2)). -/
def fcos (a : Nat) : Nat × Conds :=
  match FF.f32.val a with
  | .nan s => FF.f32.nanOf [.nan s]
  | .inf _ => FF.f32.invalid
  | .fin s m e => let (v, k) := overPow s m e; sinPi (v + (2 ^ (k - 1) : Nat)) k false

/-- tanh x for x = m/2^k in (0, 10): x × (sinh x/x)/cosh x. -/
def tanhApprox (m k p : Nat) : Approx :=
  let xx := m * m * 2 ^ p / 2 ^ (2 * k)
  let sh := (evenSeries p xx false 1 130 0 (2 ^ p : Nat)).toNat
  let ch := (evenSeries p xx false 0 130 0 (2 ^ p : Nat)).toNat
  ⟨m * (sh * 2 ^ p / ch) / 2 ^ (Nat.log2 m), -(k : Int) - p + Nat.log2 m⟩
/-- FTANH. -/
def ftanh (a : Nat) : Nat × Conds :=
  match FF.f32.val a with
  | .nan s => FF.f32.nanOf [.nan s]
  | .inf s => FF.f32.round .rn s 1 0 0
  | .fin s m e =>
    if m = 0 then (a, Conds.none)
    else if (Nat.log2 m : Int) + e ≥ 4 then FF.f32.round .rn s (2 ^ 40 - 1) (-40) 0
    else if (Nat.log2 m : Int) + e < -14 then FF.f32.round .rn s (m * 2 ^ 40 - 1) (e - 40) 0
    else settleAt s (tanhApprox m (-e).toNat)

end Sys2Proof.Machine
end

