-- ==== Sys2Proof/WellFormed.lean ====
section
/-! DEFINITION. Well-formed instructions: the terms of Instr whose fields the spec allows in some fibre. -/

namespace Sys2Proof

/-- An instruction the spec allows (R38 to R40 and the rule of the instruction). -/
abbrev WellFormed (i : Instr) : Prop := i.legal = true

end Sys2Proof
end

