-- ==== Sys2Proof/Decode.lean ====
section
/-! DEFINITION. Decoding: total on any words, rejecting with the cause of R56. After it the encoder, written from
the same tables. -/

namespace Sys2Proof

/-- The name a code of Ty stands for (R38); none where the code is reserved. -/
def Ty.ofCode : Nat → Option Ty
  | 0 => some .s32
  | 1 => some .ui32
  | 2 => some .s64
  | 3 => some .ui64
  | 4 => some .s16
  | 5 => some .ui16
  | 6 => some .s8
  | 7 => some .ui8
  | 8 => some .f32
  | 9 => some .f64
  | 10 => some .f16
  | 11 => some .bf16
  | _ => none

/-- The code of a name of Ty (R38). -/
def Ty.code : Ty → Nat
  | .s32 => 0
  | .ui32 => 1
  | .s64 => 2
  | .ui64 => 3
  | .s16 => 4
  | .ui16 => 5
  | .s8 => 6
  | .ui8 => 7
  | .f32 => 8
  | .f64 => 9
  | .f16 => 10
  | .bf16 => 11

/-- The name a code of Rnd stands for (R11); none where the code is reserved. -/
def Rnd.ofCode : Nat → Option Rnd
  | 0 => some .rn
  | 1 => some .rz
  | 2 => some .ru
  | 3 => some .rd
  | 4 => some .sr
  | _ => none

/-- The code of a name of Rnd (R11). -/
def Rnd.code : Rnd → Nat
  | .rn => 0
  | .rz => 1
  | .ru => 2
  | .rd => 3
  | .sr => 4

/-- The name a code of Fmt stands for (R20); none where the code is reserved. -/
def Fmt.ofCode : Nat → Option Fmt
  | 0 => some .bfp2
  | 1 => some .bfp3
  | 2 => some .bfp4
  | 3 => some .bfp5
  | 4 => some .bfp6
  | 5 => some .bfp7
  | 6 => some .bfp8
  | 7 => some .bfp12
  | 8 => some .bfp16
  | 9 => some .bfp24
  | 10 => some .int2
  | 11 => some .int4
  | 12 => some .uint4
  | 13 => some .int8
  | 14 => some .uint8
  | 15 => some .e2m1
  | 16 => some .e2m3
  | 17 => some .e3m2
  | 18 => some .e4m3
  | 19 => some .e5m2
  | 20 => some .f16
  | 21 => some .bf16
  | 22 => some .f19
  | 23 => some .f32
  | _ => none

/-- The code of a name of Fmt (R20). -/
def Fmt.code : Fmt → Nat
  | .bfp2 => 0
  | .bfp3 => 1
  | .bfp4 => 2
  | .bfp5 => 3
  | .bfp6 => 4
  | .bfp7 => 5
  | .bfp8 => 6
  | .bfp12 => 7
  | .bfp16 => 8
  | .bfp24 => 9
  | .int2 => 10
  | .int4 => 11
  | .uint4 => 12
  | .int8 => 13
  | .uint8 => 14
  | .e2m1 => 15
  | .e2m3 => 16
  | .e3m2 => 17
  | .e4m3 => 18
  | .e5m2 => 19
  | .f16 => 20
  | .bf16 => 21
  | .f19 => 22
  | .f32 => 23

/-- The name a code of Space stands for (R37); none where the code is reserved. -/
def Space.ofCode : Nat → Option Space
  | 0 => some .sp
  | 1 => some .cm
  | 2 => some .g
  | 3 => some .ws
  | 4 => some .sys
  | _ => none

/-- The code of a name of Space (R37). -/
def Space.code : Space → Nat
  | .sp => 0
  | .cm => 1
  | .g => 2
  | .ws => 3
  | .sys => 4

/-- The name a code of Size stands for (R37); none where the code is reserved. -/
def Size.ofCode : Nat → Option Size
  | 0 => some .b8
  | 1 => some .b16
  | 2 => some .b32
  | 3 => some .b64
  | 4 => some .b128
  | _ => none

/-- The code of a name of Size (R37). -/
def Size.code : Size → Nat
  | .b8 => 0
  | .b16 => 1
  | .b32 => 2
  | .b64 => 3
  | .b128 => 4

/-- The name a code of Order stands for (R37); none where the code is reserved. -/
def Order.ofCode : Nat → Option Order
  | 0 => some .weak
  | 1 => some .rlx
  | 2 => some .acq
  | 3 => some .rel
  | _ => none

/-- The code of a name of Order (R37). -/
def Order.code : Order → Nat
  | .weak => 0
  | .rlx => 1
  | .acq => 2
  | .rel => 3

/-- The name a code of Scope stands for (R37); none where the code is reserved. -/
def Scope.ofCode : Nat → Option Scope
  | 0 => some .grp
  | 1 => some .clu
  | 2 => some .die
  | 3 => some .pkg
  | 4 => some .sys
  | _ => none

/-- The code of a name of Scope (R37). -/
def Scope.code : Scope → Nat
  | .grp => 0
  | .clu => 1
  | .die => 2
  | .pkg => 3
  | .sys => 4

/-- The name a code of AtomOp stands for (R167); none where the code is reserved. -/
def AtomOp.ofCode : Nat → Option AtomOp
  | 0 => some .add
  | 1 => some .smin
  | 2 => some .smax
  | 3 => some .umin
  | 4 => some .umax
  | 5 => some .and
  | 6 => some .or
  | 7 => some .xor
  | 8 => some .exch
  | 9 => some .cas
  | 10 => some .wrap
  | 11 => some .upto
  | 12 => some .fadd
  | 13 => some .fmin
  | 14 => some .fmax
  | 15 => some .downto
  | _ => none

/-- The code of a name of AtomOp (R167). -/
def AtomOp.code : AtomOp → Nat
  | .add => 0
  | .smin => 1
  | .smax => 2
  | .umin => 3
  | .umax => 4
  | .and => 5
  | .or => 6
  | .xor => 7
  | .exch => 8
  | .cas => 9
  | .wrap => 10
  | .upto => 11
  | .fadd => 12
  | .fmin => 13
  | .fmax => 14
  | .downto => 15

/-- The name a code of ShflMode stands for (R129); none where the code is reserved. -/
def ShflMode.ofCode : Nat → Option ShflMode
  | 0 => some .lane
  | 1 => some .rot
  | 2 => some .step
  | 3 => some .flip
  | _ => none

/-- The code of a name of ShflMode (R129). -/
def ShflMode.code : ShflMode → Nat
  | .lane => 0
  | .rot => 1
  | .step => 2
  | .flip => 3

/-- The name a code of VoteMode stands for (R130); none where the code is reserved. -/
def VoteMode.ofCode : Nat → Option VoteMode
  | 0 => some .mask
  | 1 => some .count
  | 2 => some .below
  | 3 => some .atleast
  | 4 => some .split
  | _ => none

/-- The code of a name of VoteMode (R130). -/
def VoteMode.code : VoteMode → Nat
  | .mask => 0
  | .count => 1
  | .below => 2
  | .atleast => 3
  | .split => 4

/-- The name a code of SpredOp stands for (R131); none where the code is reserved. -/
def SpredOp.ofCode : Nat → Option SpredOp
  | 0 => some .add
  | 1 => some .min
  | 2 => some .max
  | 3 => some .and
  | 4 => some .or
  | 5 => some .xor
  | 6 => some .fadd
  | 7 => some .fmin
  | 8 => some .fmax
  | _ => none

/-- The code of a name of SpredOp (R131). -/
def SpredOp.code : SpredOp → Nat
  | .add => 0
  | .min => 1
  | .max => 2
  | .and => 3
  | .or => 4
  | .xor => 5
  | .fadd => 6
  | .fmin => 7
  | .fmax => 8

/-- The name a code of SigCond stands for (R339); none where the code is reserved. -/
def SigCond.ofCode : Nat → Option SigCond
  | 0 => some .ge
  | 1 => some .eq
  | 2 => some .ne
  | _ => none

/-- The code of a name of SigCond (R339). -/
def SigCond.code : SigCond → Nat
  | .ge => 0
  | .eq => 1
  | .ne => 2

/-- The name a code of RftMode stands for (R270); none where the code is reserved. -/
def RftMode.ofCode : Nat → Option RftMode
  | 0 => some .ret
  | 1 => some .skip
  | 2 => some .addr
  | 3 => some .endFibre
  | 4 => some .faultJob
  | _ => none

/-- The code of a name of RftMode (R270). -/
def RftMode.code : RftMode → Nat
  | .ret => 0
  | .skip => 1
  | .addr => 2
  | .endFibre => 3
  | .faultJob => 4

/-- The name a code of TagqMode stands for (R299); none where the code is reserved. -/
def TagqMode.ofCode : Nat → Option TagqMode
  | 0 => some .aid
  | 1 => some .state
  | 2 => some .wait
  | _ => none

/-- The code of a name of TagqMode (R299). -/
def TagqMode.code : TagqMode → Nat
  | .aid => 0
  | .state => 1
  | .wait => 2

/-- The name a code of InvTy stands for (R51); none where the code is reserved. -/
def InvTy.ofCode : Nat → Option InvTy
  | 0 => some .fp32
  | 1 => some .int32
  | 2 => some .uint32
  | _ => none

/-- The code of a name of InvTy (R51). -/
def InvTy.code : InvTy → Nat
  | .fp32 => 0
  | .int32 => 1
  | .uint32 => 2

/-- The name a code of FeedKind stands for (R188); none where the code is reserved. -/
def FeedKind.ofCode : Nat → Option FeedKind
  | 0 => some .reg
  | 1 => some .mem
  | 2 => some .b
  | _ => none

/-- The code of a name of FeedKind (R188). -/
def FeedKind.code : FeedKind → Nat
  | .reg => 0
  | .mem => 1
  | .b => 2

/-- The words of an instruction as fetched: the first word and the two that follow it (R31, R35). -/
structure Raw where
  w0 : Word
  w1 : Word
  w2 : Word
  deriving DecidableEq, Repr

/-- Stall, stop and guard bits (R35). -/
def Raw.h (r : Raw) : Head := ⟨r.w0.extractLsb 31 29, r.w0.getLsbD 28, r.w0.getLsbD 27⟩
/-- The major opcode (R35). -/
def Raw.major (r : Raw) : BitVec 6 := r.w0.extractLsb 26 21
/-- Operand fields of RRR (R36). -/
def Raw.d (r : Raw) : Reg := r.w0.extractLsb 20 14
/-- Operand field a. -/
def Raw.a (r : Raw) : Reg := r.w0.extractLsb 13 7
/-- Operand field b, which is f in RRF. -/
def Raw.b (r : Raw) : Reg := r.w0.extractLsb 6 0
/-- The immediate of RI (R36). -/
def Raw.imm14 (r : Raw) : BitVec 14 := r.w0.extractLsb 13 0
/-- The offset of OFF (R36). -/
def Raw.off21 (r : Raw) : BitVec 21 := r.w0.extractLsb 20 0
/-- XW fields (R37). -/
def Raw.c (r : Raw) : Reg := r.w1.extractLsb 31 25
/-- The function code. -/
def Raw.fn (r : Raw) : BitVec 5 := r.w1.extractLsb 24 20
/-- The type code. -/
def Raw.ty (r : Raw) : BitVec 4 := r.w1.extractLsb 19 16
/-- The rounding code. -/
def Raw.rnd (r : Raw) : BitVec 3 := r.w1.extractLsb 15 13
/-- The modifiers. -/
def Raw.mods (r : Raw) : BitVec 13 := r.w1.extractLsb 12 0
/-- The type a word names; a reserved code is reported by `tyBad`. -/
def Raw.tyName (r : Raw) : Ty := (Ty.ofCode r.ty.toNat).getD default
/-- A reserved type code (R38). -/
def Raw.tyBad (r : Raw) : Bool := (Ty.ofCode r.ty.toNat).isNone
/-- The rounding a word names. -/
def Raw.rndName (r : Raw) : Rnd := (Rnd.ofCode r.rnd.toNat).getD default
/-- A reserved rounding code (R11). -/
def Raw.rndBad (r : Raw) : Bool := (Rnd.ofCode r.rnd.toNat).isNone
/-- A nonzero rounding code, not a reserved one, in a word that does not round (R39, R115: codes 5 to 7 are always 0x09). -/
def Raw.rndUnused (r : Raw) : Bool := r.rnd != 0 && !r.rndBad
/-- XM fields (R37). -/
def Raw.spName (r : Raw) : Space := (Space.ofCode (r.w1.extractLsb 31 29).toNat).getD default
/-- The access size. -/
def Raw.szName (r : Raw) : Size := (Size.ofCode (r.w1.extractLsb 28 26).toNat).getD default
/-- The order. -/
def Raw.ordName (r : Raw) : Order := (Order.ofCode (r.w1.extractLsb 25 24).toNat).getD default
/-- The scope. -/
def Raw.scName (r : Raw) : Scope := (Scope.ofCode (r.w1.extractLsb 23 21).toNat).getD default
/-- The atomic operation code. -/
def Raw.aop (r : Raw) : BitVec 4 := r.w1.extractLsb 20 17
/-- The atomic operation. -/
def Raw.aopName (r : Raw) : AtomOp := (AtomOp.ofCode r.aop.toNat).getD default
/-- The no-return bit. -/
def Raw.nr (r : Raw) : Bool := r.w1.getLsbD 16
/-- The byte offset. -/
def Raw.off16 (r : Raw) : BitVec 16 := r.w1.extractLsb 15 0
/-- A reserved space, size or scope code (R164). -/
def Raw.xmBad (r : Raw) : Bool :=
  (Space.ofCode (r.w1.extractLsb 31 29).toNat).isNone || (Size.ofCode (r.w1.extractLsb 28 26).toNat).isNone ||
  (Scope.ofCode (r.w1.extractLsb 23 21).toNat).isNone

/-- ADD (R93). -/
def decAdd (r : Raw) : Instr × List (Bool × Nat) :=
  (.add (r.h) (r.d) (r.a) (r.b),
   [])

/-- SUB (R93). -/
def decSub (r : Raw) : Instr × List (Bool × Nat) :=
  (.sub (r.h) (r.d) (r.a) (r.b),
   [])

/-- MUL (R93). -/
def decMul (r : Raw) : Instr × List (Bool × Nat) :=
  (.mul (r.h) (r.d) (r.a) (r.b),
   [])

/-- AND (R93). -/
def decAnd (r : Raw) : Instr × List (Bool × Nat) :=
  (.and (r.h) (r.d) (r.a) (r.b),
   [])

/-- OR (R93). -/
def decOr (r : Raw) : Instr × List (Bool × Nat) :=
  (.or (r.h) (r.d) (r.a) (r.b),
   [])

/-- XOR (R93). -/
def decXor (r : Raw) : Instr × List (Bool × Nat) :=
  (.xor (r.h) (r.d) (r.a) (r.b),
   [])

/-- ANDN (R93). -/
def decAndn (r : Raw) : Instr × List (Bool × Nat) :=
  (.andn (r.h) (r.d) (r.a) (r.b),
   [])

/-- SHL (R93). -/
def decShl (r : Raw) : Instr × List (Bool × Nat) :=
  (.shl (r.h) (r.d) (r.a) (r.b),
   [])

/-- SHR (R93). -/
def decShr (r : Raw) : Instr × List (Bool × Nat) :=
  (.shr (r.h) (r.d) (r.a) (r.b),
   [])

/-- SAR (R93). -/
def decSar (r : Raw) : Instr × List (Bool × Nat) :=
  (.sar (r.h) (r.d) (r.a) (r.b),
   [])

/-- ROT (R93). -/
def decRot (r : Raw) : Instr × List (Bool × Nat) :=
  (.rot (r.h) (r.d) (r.a) (r.b),
   [])

/-- MOV (R94). -/
def decMov (r : Raw) : Instr × List (Bool × Nat) :=
  (.mov (r.h) (r.d) (r.a),
   [])

/-- NEG (R94). -/
def decNeg (r : Raw) : Instr × List (Bool × Nat) :=
  (.neg (r.h) (r.d) (r.a),
   [])

/-- ABS (R94). -/
def decAbs (r : Raw) : Instr × List (Bool × Nat) :=
  (.abs (r.h) (r.d) (r.a),
   [])

/-- NOT (R94). -/
def decNot (r : Raw) : Instr × List (Bool × Nat) :=
  (.not (r.h) (r.d) (r.a),
   [])

/-- CLZ (R94). -/
def decClz (r : Raw) : Instr × List (Bool × Nat) :=
  (.clz (r.h) (r.d) (r.a),
   [])

/-- POPC (R94). -/
def decPopc (r : Raw) : Instr × List (Bool × Nat) :=
  (.popc (r.h) (r.d) (r.a),
   [])

/-- BREV (R94). -/
def decBrev (r : Raw) : Instr × List (Bool × Nat) :=
  (.brev (r.h) (r.d) (r.a),
   [])

/-- ADD_TYPED (R95). -/
def decAddTyped (r : Raw) : Instr × List (Bool × Nat) :=
  (.addTyped (r.h) (r.d) (r.a) (r.b) (r.tyName) (r.mods.getLsbD 0),
   [(r.c != 0, 3), (r.tyBad, 9), (r.rnd != 0, 3), (r.mods &&& 0x1ffe#13 != 0, 3)])

/-- SUB_TYPED (R95). -/
def decSubTyped (r : Raw) : Instr × List (Bool × Nat) :=
  (.subTyped (r.h) (r.d) (r.a) (r.b) (r.tyName) (r.mods.getLsbD 0),
   [(r.c != 0, 3), (r.tyBad, 9), (r.rnd != 0, 3), (r.mods &&& 0x1ffe#13 != 0, 3)])

/-- MUL_TYPED (R95). -/
def decMulTyped (r : Raw) : Instr × List (Bool × Nat) :=
  (.mulTyped (r.h) (r.d) (r.a) (r.b) (r.tyName) (r.mods.getLsbD 0),
   [(r.c != 0, 3), (r.tyBad, 9), (r.rnd != 0, 3), (r.mods &&& 0x1ffe#13 != 0, 3)])

/-- MULHI (R95). -/
def decMulhi (r : Raw) : Instr × List (Bool × Nat) :=
  (.mulhi (r.h) (r.d) (r.a) (r.b) (r.tyName),
   [(r.c != 0, 3), (r.tyBad, 9), (r.rnd != 0, 3), (r.mods &&& 0x1fff#13 != 0, 3)])

/-- DIV (R96). -/
def decDiv (r : Raw) : Instr × List (Bool × Nat) :=
  (.div (r.h) (r.d) (r.a) (r.b) (r.tyName) (r.mods.getLsbD 0),
   [(r.c != 0, 3), (r.tyBad, 9), (r.rnd != 0, 3), (r.mods &&& 0x1ffe#13 != 0, 3)])

/-- REM (R96). -/
def decRem (r : Raw) : Instr × List (Bool × Nat) :=
  (.rem (r.h) (r.d) (r.a) (r.b) (r.tyName),
   [(r.c != 0, 3), (r.tyBad, 9), (r.rnd != 0, 3), (r.mods &&& 0x1fff#13 != 0, 3)])

/-- MIN_TYPED (R95). -/
def decMinTyped (r : Raw) : Instr × List (Bool × Nat) :=
  (.minTyped (r.h) (r.d) (r.a) (r.b) (r.tyName),
   [(r.c != 0, 3), (r.tyBad, 9), (r.rnd != 0, 3), (r.mods &&& 0x1fff#13 != 0, 3)])

/-- MAX_TYPED (R95). -/
def decMaxTyped (r : Raw) : Instr × List (Bool × Nat) :=
  (.maxTyped (r.h) (r.d) (r.a) (r.b) (r.tyName),
   [(r.c != 0, 3), (r.tyBad, 9), (r.rnd != 0, 3), (r.mods &&& 0x1fff#13 != 0, 3)])

/-- NEG_TYPED (R95). -/
def decNegTyped (r : Raw) : Instr × List (Bool × Nat) :=
  (.negTyped (r.h) (r.d) (r.a) (r.tyName) (r.mods.getLsbD 0),
   [(r.b != 0, 3), (r.c != 0, 3), (r.tyBad, 9), (r.rnd != 0, 3), (r.mods &&& 0x1ffe#13 != 0, 3)])

/-- ABS_TYPED (R95). -/
def decAbsTyped (r : Raw) : Instr × List (Bool × Nat) :=
  (.absTyped (r.h) (r.d) (r.a) (r.tyName) (r.mods.getLsbD 0),
   [(r.b != 0, 3), (r.c != 0, 3), (r.tyBad, 9), (r.rnd != 0, 3), (r.mods &&& 0x1ffe#13 != 0, 3)])

/-- MAD (R97). -/
def decMad (r : Raw) : Instr × List (Bool × Nat) :=
  (.mad (r.h) (r.d) (r.a) (r.b) (r.c) (r.tyName) (r.mods.getLsbD 0),
   [(r.tyBad, 9), (r.rnd != 0, 3), (r.mods &&& 0x1ffe#13 != 0, 3)])

/-- BFX (R100). -/
def decBfx (r : Raw) : Instr × List (Bool × Nat) :=
  (.bfx (r.h) (r.d) (r.a) (r.b) (r.tyName),
   [(r.c != 0, 3), (r.tyBad, 9), (r.rnd != 0, 3), (r.mods &&& 0x1fff#13 != 0, 3)])

/-- BFI (R100). -/
def decBfi (r : Raw) : Instr × List (Bool × Nat) :=
  (.bfi (r.h) (r.d) (r.a) (r.b) (r.c) (r.tyName),
   [(r.tyBad, 9), (r.rnd != 0, 3), (r.mods &&& 0x1fff#13 != 0, 3)])

/-- SEL (R101). -/
def decSel (r : Raw) : Instr × List (Bool × Nat) :=
  (.sel (r.h) (r.d) (r.a) (r.b) (r.c) (r.tyName),
   [(r.tyBad, 9), (r.rnd != 0, 3), (r.mods &&& 0x1fff#13 != 0, 3)])

/-- ADD_IMM (R98). -/
def decAddImm (r : Raw) : Instr × List (Bool × Nat) :=
  (.addImm (r.h) (r.d) (r.a) (r.w1),
   [])

/-- SUB_IMM (R98). -/
def decSubImm (r : Raw) : Instr × List (Bool × Nat) :=
  (.subImm (r.h) (r.d) (r.a) (r.w1),
   [])

/-- MUL_IMM (R98). -/
def decMulImm (r : Raw) : Instr × List (Bool × Nat) :=
  (.mulImm (r.h) (r.d) (r.a) (r.w1),
   [])

/-- AND_IMM (R98). -/
def decAndImm (r : Raw) : Instr × List (Bool × Nat) :=
  (.andImm (r.h) (r.d) (r.a) (r.w1),
   [])

/-- OR_IMM (R98). -/
def decOrImm (r : Raw) : Instr × List (Bool × Nat) :=
  (.orImm (r.h) (r.d) (r.a) (r.w1),
   [])

/-- XOR_IMM (R98). -/
def decXorImm (r : Raw) : Instr × List (Bool × Nat) :=
  (.xorImm (r.h) (r.d) (r.a) (r.w1),
   [])

/-- ANDN_IMM (R98). -/
def decAndnImm (r : Raw) : Instr × List (Bool × Nat) :=
  (.andnImm (r.h) (r.d) (r.a) (r.w1),
   [])

/-- SHL_IMM (R98). -/
def decShlImm (r : Raw) : Instr × List (Bool × Nat) :=
  (.shlImm (r.h) (r.d) (r.a) (r.w1),
   [])

/-- SHR_IMM (R98). -/
def decShrImm (r : Raw) : Instr × List (Bool × Nat) :=
  (.shrImm (r.h) (r.d) (r.a) (r.w1),
   [])

/-- SAR_IMM (R98). -/
def decSarImm (r : Raw) : Instr × List (Bool × Nat) :=
  (.sarImm (r.h) (r.d) (r.a) (r.w1),
   [])

/-- ROT_IMM (R98). -/
def decRotImm (r : Raw) : Instr × List (Bool × Nat) :=
  (.rotImm (r.h) (r.d) (r.a) (r.w1),
   [])

/-- MIN_IMM (R98). -/
def decMinImm (r : Raw) : Instr × List (Bool × Nat) :=
  (.minImm (r.h) (r.d) (r.a) (r.w1),
   [])

/-- MIN_IMM_U (R98). -/
def decMinImmU (r : Raw) : Instr × List (Bool × Nat) :=
  (.minImmU (r.h) (r.d) (r.a) (r.w1),
   [])

/-- MAX_IMM (R98). -/
def decMaxImm (r : Raw) : Instr × List (Bool × Nat) :=
  (.maxImm (r.h) (r.d) (r.a) (r.w1),
   [])

/-- MAX_IMM_U (R98). -/
def decMaxImmU (r : Raw) : Instr × List (Bool × Nat) :=
  (.maxImmU (r.h) (r.d) (r.a) (r.w1),
   [])

/-- MOVI (R99). -/
def decMovi (r : Raw) : Instr × List (Bool × Nat) :=
  (.movi (r.h) (r.d) (r.imm14),
   [])

/-- MOVI_LIT (R99). -/
def decMoviLit (r : Raw) : Instr × List (Bool × Nat) :=
  (.moviLit (r.h) (r.d) (r.w1),
   [(r.imm14 != 0, 3)])

/-- MOVHI (R99). -/
def decMovhi (r : Raw) : Instr × List (Bool × Nat) :=
  (.movhi (r.h) (r.d) (r.w1),
   [(r.imm14 != 0, 3)])

/-- SETP (R102). -/
def decSetp (r : Raw) : Instr × List (Bool × Nat) :=
  (.setp (r.h) (r.d) (r.a) (r.b) (r.c) (r.fn.setWidth 3) (r.tyName) (r.mods.getLsbD 4) (r.mods.extractLsb 3 0),
   [(r.tyBad, 9), (r.rnd != 0, 3), (r.mods &&& 0x1fe0#13 != 0, 3)])

/-- PLOG (R103). -/
def decPlog (r : Raw) : Instr × List (Bool × Nat) :=
  (.plog (r.h) (r.d) (r.a) (r.b) (r.c) (r.mods.extractLsb 7 0),
   [(r.ty != 0, 3), (r.rnd != 0, 3), (r.mods &&& 0x1f00#13 != 0, 3)])

/-- PMOV_TO_REG (R104). -/
def decPmovToReg (r : Raw) : Instr × List (Bool × Nat) :=
  (.pmovToReg (r.h) (r.d) (r.a),
   [])

/-- PMOV_TO_PRED (R104). -/
def decPmovToPred (r : Raw) : Instr × List (Bool × Nat) :=
  (.pmovToPred (r.h) (r.d) (r.a),
   [])

/-- MOVS (R105). -/
def decMovs (r : Raw) : Instr × List (Bool × Nat) :=
  (.movs (r.h) (r.d) (r.a),
   [])

/-- MOVSW (R105). -/
def decMovsw (r : Raw) : Instr × List (Bool × Nat) :=
  (.movsw (r.h) (r.d) (r.a),
   [])

/-- BRA (R106). -/
def decBra (r : Raw) : Instr × List (Bool × Nat) :=
  (.bra (r.h) (r.off21),
   [])

/-- CALL (R106). -/
def decCall (r : Raw) : Instr × List (Bool × Nat) :=
  (.call (r.h) (r.off21),
   [])

/-- BRX (R106). -/
def decBrx (r : Raw) : Instr × List (Bool × Nat) :=
  (.brx (r.h) (r.a),
   [(r.d != 0, 3)])

/-- CALLX (R106). -/
def decCallx (r : Raw) : Instr × List (Bool × Nat) :=
  (.callx (r.h) (r.a),
   [(r.d != 0, 3)])

/-- RET (R106). -/
def decRet (r : Raw) : Instr × List (Bool × Nat) :=
  (.ret (r.h),
   [(r.d != 0, 3), (r.a != 0, 3)])

/-- END (R80). -/
def decEndFibre (r : Raw) : Instr × List (Bool × Nat) :=
  (.endFibre (r.h),
   [(r.d != 0, 3), (r.a != 0, 3)])

/-- YIELD (R107). -/
def decYield (r : Raw) : Instr × List (Bool × Nat) :=
  (.yield (r.h),
   [(r.d != 0, 3), (r.a != 0, 3)])

/-- NAP (R107). -/
def decNap (r : Raw) : Instr × List (Bool × Nat) :=
  (.nap (r.h) (r.a),
   [(r.d != 0, 3)])

/-- NOP (R107). -/
def decNop (r : Raw) : Instr × List (Bool × Nat) :=
  (.nop (r.h),
   [(r.d != 0, 3), (r.a != 0, 3)])

/-- TRAP (R108). -/
def decTrap (r : Raw) : Instr × List (Bool × Nat) :=
  (.trap (r.h) (r.d),
   [(r.a != 0, 3)])

/-- LOOP_REG (R110). -/
def decLoopReg (r : Raw) : Instr × List (Bool × Nat) :=
  (.loopReg (r.h) (r.a) (r.w1.extractLsb 15 0),
   [(r.d != 0, 3), (r.w1.extractLsb 31 16 != 0, 3)])

/-- LOOP_IMM (R110). -/
def decLoopImm (r : Raw) : Instr × List (Bool × Nat) :=
  (.loopImm (r.h) (r.w1.extractLsb 31 16) (r.w1.extractLsb 15 0),
   [(r.d != 0, 3), (r.a != 0, 3)])

/-- LBRK (R112). -/
def decLbrk (r : Raw) : Instr × List (Bool × Nat) :=
  (.lbrk (r.h) (r.w1),
   [(r.d != 0, 3), (r.a != 0, 3)])

/-- FORK (R113). -/
def decFork (r : Raw) : Instr × List (Bool × Nat) :=
  (.fork (r.h) (r.d) (r.w1),
   [(r.a != 0, 3)])

/-- FADD (R117). -/
def decFadd (r : Raw) : Instr × List (Bool × Nat) :=
  (.fadd (r.h) (r.d) (r.a) (r.b) (r.rndName),
   [(r.c != 0, 3), (r.ty != 8, 9), (r.rndBad, 9), (r.mods &&& 0x1fff#13 != 0, 3)])

/-- FSUB (R117). -/
def decFsub (r : Raw) : Instr × List (Bool × Nat) :=
  (.fsub (r.h) (r.d) (r.a) (r.b) (r.rndName),
   [(r.c != 0, 3), (r.ty != 8, 9), (r.rndBad, 9), (r.mods &&& 0x1fff#13 != 0, 3)])

/-- FMUL (R117). -/
def decFmul (r : Raw) : Instr × List (Bool × Nat) :=
  (.fmul (r.h) (r.d) (r.a) (r.b) (r.rndName),
   [(r.c != 0, 3), (r.ty != 8, 9), (r.rndBad, 9), (r.mods &&& 0x1fff#13 != 0, 3)])

/-- FDIV (R117). -/
def decFdiv (r : Raw) : Instr × List (Bool × Nat) :=
  (.fdiv (r.h) (r.d) (r.a) (r.b) (r.rndName),
   [(r.c != 0, 3), (r.ty != 8, 9), (r.rndBad, 9), (r.mods &&& 0x1fff#13 != 0, 3)])

/-- FFMA (R117). -/
def decFfma (r : Raw) : Instr × List (Bool × Nat) :=
  (.ffma (r.h) (r.d) (r.a) (r.b) (r.c) (r.rndName),
   [(r.ty != 8, 9), (r.rndBad, 9), (r.mods &&& 0x1fff#13 != 0, 3)])

/-- FMIN (R118). -/
def decFmin (r : Raw) : Instr × List (Bool × Nat) :=
  (.fmin (r.h) (r.d) (r.a) (r.b),
   [(r.c != 0, 3), (r.ty != 8, 9), (r.rndUnused, 3), (r.rndBad, 9), (r.mods &&& 0x1fff#13 != 0, 3)])

/-- FMAX (R118). -/
def decFmax (r : Raw) : Instr × List (Bool × Nat) :=
  (.fmax (r.h) (r.d) (r.a) (r.b),
   [(r.c != 0, 3), (r.ty != 8, 9), (r.rndUnused, 3), (r.rndBad, 9), (r.mods &&& 0x1fff#13 != 0, 3)])

/-- FRCP (R119). -/
def decFrcp (r : Raw) : Instr × List (Bool × Nat) :=
  (.frcp (r.h) (r.d) (r.a) (r.rndName),
   [(r.b != 0, 3), (r.c != 0, 3), (r.ty != 8, 9), (r.rndBad, 9), (r.mods &&& 0x1fff#13 != 0, 3)])

/-- FSQRT (R119). -/
def decFsqrt (r : Raw) : Instr × List (Bool × Nat) :=
  (.fsqrt (r.h) (r.d) (r.a) (r.rndName),
   [(r.b != 0, 3), (r.c != 0, 3), (r.ty != 8, 9), (r.rndBad, 9), (r.mods &&& 0x1fff#13 != 0, 3)])

/-- FRSQ (R119). -/
def decFrsq (r : Raw) : Instr × List (Bool × Nat) :=
  (.frsq (r.h) (r.d) (r.a) (r.rndName),
   [(r.b != 0, 3), (r.c != 0, 3), (r.ty != 8, 9), (r.rndBad, 9), (r.mods &&& 0x1fff#13 != 0, 3)])

/-- FRND (R119). -/
def decFrnd (r : Raw) : Instr × List (Bool × Nat) :=
  (.frnd (r.h) (r.d) (r.a) (r.rndName),
   [(r.b != 0, 3), (r.c != 0, 3), (r.ty != 8, 9), (r.rndBad, 9), (r.mods &&& 0x1fff#13 != 0, 3)])

/-- FCLASS (R119). -/
def decFclass (r : Raw) : Instr × List (Bool × Nat) :=
  (.fclass (r.h) (r.d) (r.a) (r.tyName),
   [(r.b != 0, 3), (r.c != 0, 3), (r.tyBad, 9), (r.rndUnused, 3), (r.rndBad, 9), (r.mods &&& 0x1fff#13 != 0, 3)])

/-- FCMP (R120). -/
def decFcmp (r : Raw) : Instr × List (Bool × Nat) :=
  (.fcmp (r.h) (r.d) (r.a) (r.b) (r.c) (r.fn.setWidth 3) (r.mods.getLsbD 4) (r.mods.extractLsb 3 0),
   [(r.ty != 8, 9), (r.rndUnused, 3), (r.rndBad, 9), (r.mods &&& 0x1fe0#13 != 0, 3)])

/-- DCMP (R120). -/
def decDcmp (r : Raw) : Instr × List (Bool × Nat) :=
  (.dcmp (r.h) (r.d) (r.a) (r.b) (r.c) (r.fn.setWidth 3) (r.mods.getLsbD 4) (r.mods.extractLsb 3 0),
   [(r.ty != 9, 9), (r.rndUnused, 3), (r.rndBad, 9), (r.mods &&& 0x1fe0#13 != 0, 3)])

/-- FEX2 (R121). -/
def decFex2 (r : Raw) : Instr × List (Bool × Nat) :=
  (.fex2 (r.h) (r.d) (r.a),
   [(r.b != 0, 3), (r.c != 0, 3), (r.ty != 8, 9), (r.rndUnused, 3), (r.rndBad, 9), (r.mods &&& 0x1fff#13 != 0, 3)])

/-- FLG2 (R121). -/
def decFlg2 (r : Raw) : Instr × List (Bool × Nat) :=
  (.flg2 (r.h) (r.d) (r.a),
   [(r.b != 0, 3), (r.c != 0, 3), (r.ty != 8, 9), (r.rndUnused, 3), (r.rndBad, 9), (r.mods &&& 0x1fff#13 != 0, 3)])

/-- FSIN (R121). -/
def decFsin (r : Raw) : Instr × List (Bool × Nat) :=
  (.fsin (r.h) (r.d) (r.a),
   [(r.b != 0, 3), (r.c != 0, 3), (r.ty != 8, 9), (r.rndUnused, 3), (r.rndBad, 9), (r.mods &&& 0x1fff#13 != 0, 3)])

/-- FCOS (R121). -/
def decFcos (r : Raw) : Instr × List (Bool × Nat) :=
  (.fcos (r.h) (r.d) (r.a),
   [(r.b != 0, 3), (r.c != 0, 3), (r.ty != 8, 9), (r.rndUnused, 3), (r.rndBad, 9), (r.mods &&& 0x1fff#13 != 0, 3)])

/-- FTANH (R121). -/
def decFtanh (r : Raw) : Instr × List (Bool × Nat) :=
  (.ftanh (r.h) (r.d) (r.a),
   [(r.b != 0, 3), (r.c != 0, 3), (r.ty != 8, 9), (r.rndUnused, 3), (r.rndBad, 9), (r.mods &&& 0x1fff#13 != 0, 3)])

/-- DADD (R122). -/
def decDadd (r : Raw) : Instr × List (Bool × Nat) :=
  (.dadd (r.h) (r.d) (r.a) (r.b) (r.rndName),
   [(r.c != 0, 3), (r.ty != 9, 9), (r.rndBad, 9), (r.mods &&& 0x1fff#13 != 0, 3)])

/-- DMUL (R122). -/
def decDmul (r : Raw) : Instr × List (Bool × Nat) :=
  (.dmul (r.h) (r.d) (r.a) (r.b) (r.rndName),
   [(r.c != 0, 3), (r.ty != 9, 9), (r.rndBad, 9), (r.mods &&& 0x1fff#13 != 0, 3)])

/-- DFMA (R122). -/
def decDfma (r : Raw) : Instr × List (Bool × Nat) :=
  (.dfma (r.h) (r.d) (r.a) (r.b) (r.c) (r.rndName),
   [(r.ty != 9, 9), (r.rndBad, 9), (r.mods &&& 0x1fff#13 != 0, 3)])

/-- HADD2 (R123). -/
def decHadd2 (r : Raw) : Instr × List (Bool × Nat) :=
  (.hadd2 (r.h) (r.d) (r.a) (r.b) (r.tyName) (r.rndName),
   [(r.c != 0, 3), (r.tyBad, 9), (r.rndBad, 9), (r.mods &&& 0x1fff#13 != 0, 3)])

/-- HMUL2 (R123). -/
def decHmul2 (r : Raw) : Instr × List (Bool × Nat) :=
  (.hmul2 (r.h) (r.d) (r.a) (r.b) (r.tyName) (r.rndName),
   [(r.c != 0, 3), (r.tyBad, 9), (r.rndBad, 9), (r.mods &&& 0x1fff#13 != 0, 3)])

/-- HFMA2 (R123). -/
def decHfma2 (r : Raw) : Instr × List (Bool × Nat) :=
  (.hfma2 (r.h) (r.d) (r.a) (r.b) (r.c) (r.tyName) (r.rndName),
   [(r.tyBad, 9), (r.rndBad, 9), (r.mods &&& 0x1fff#13 != 0, 3)])

/-- CVT (R124). -/
def decCvt (r : Raw) : Instr × List (Bool × Nat) :=
  (.cvt (r.h) (r.d) (r.a) (r.tyName) (r.rndName) (r.mods.getLsbD 4) ((Ty.ofCode (r.mods.extractLsb 3 0).toNat).getD default),
   [(r.b != 0, 3), (r.c != 0, 3), (r.tyBad, 9), (r.rndBad, 9), ((Ty.ofCode (r.mods.extractLsb 3 0).toNat).isNone, 9), (r.mods &&& 0x1fe0#13 != 0, 3)])

/-- QNT (R125). -/
def decQnt (r : Raw) : Instr × List (Bool × Nat) :=
  (.qnt (r.h) (r.d) (r.a) (r.c) (r.rndName) (r.mods.getLsbD 5) ((Fmt.ofCode (r.mods.extractLsb 4 0).toNat).getD default),
   [(r.b != 0, 3), (r.ty != 8, 9), (r.rndBad, 9), ((Fmt.ofCode (r.mods.extractLsb 4 0).toNat).isNone, 9), (r.mods &&& 0x1fc0#13 != 0, 3)])

/-- DQNT (R126). -/
def decDqnt (r : Raw) : Instr × List (Bool × Nat) :=
  (.dqnt (r.h) (r.d) (r.a) (r.c) ((Fmt.ofCode (r.mods.extractLsb 4 0).toNat).getD default),
   [(r.b != 0, 3), (r.ty != 8, 9), (r.rndUnused, 3), (r.rndBad, 9), ((Fmt.ofCode (r.mods.extractLsb 4 0).toNat).isNone, 9), (r.mods &&& 0x1fe0#13 != 0, 3)])

/-- RAND (R127). -/
def decRand (r : Raw) : Instr × List (Bool × Nat) :=
  (.rand (r.h) (r.d) (r.tyName),
   [(r.a != 0, 3), (r.b != 0, 3), (r.c != 0, 3), (r.tyBad, 9), (r.rndUnused, 3), (r.rndBad, 9), (r.mods &&& 0x1fff#13 != 0, 3)])

/-- SHFL (R129). -/
def decShfl (r : Raw) : Instr × List (Bool × Nat) :=
  (.shfl (r.h) (r.d) (r.a) (r.b) (r.c) ((ShflMode.ofCode r.fn.toNat).getD default) (r.tyName) (r.mods.extractLsb 6 0),
   [(r.tyBad, 9), (r.rndUnused, 3), (r.rndBad, 9), (r.mods &&& 0x1f80#13 != 0, 3)])

/-- VOTE (R130). -/
def decVote (r : Raw) : Instr × List (Bool × Nat) :=
  (.vote (r.h) (r.d) (r.a) (r.b) (r.c) ((VoteMode.ofCode r.fn.toNat).getD default),
   [(r.ty != 0, 3), (r.rndUnused, 3), (r.rndBad, 9), (r.mods &&& 0x1fff#13 != 0, 3)])

/-- SPRED (R131). -/
def decSpred (r : Raw) : Instr × List (Bool × Nat) :=
  (.spred (r.h) (r.d) (r.a) (r.c) ((SpredOp.ofCode r.fn.toNat).getD default) (r.tyName) (r.rndName) (r.mods.getLsbD 0),
   [(r.b != 0, 3), (r.tyBad, 9), (r.rndBad, 9), (r.mods &&& 0x1ffe#13 != 0, 3)])

/-- QSWAP (R132). -/
def decQswap (r : Raw) : Instr × List (Bool × Nat) :=
  (.qswap (r.h) (r.d) (r.a) (r.tyName) (r.mods.extractLsb 1 0),
   [(r.b != 0, 3), (r.c != 0, 3), (r.tyBad, 9), (r.rndUnused, 3), (r.rndBad, 9), (r.mods &&& 0x1ffc#13 != 0, 3)])

/-- QBC (R132). -/
def decQbc (r : Raw) : Instr × List (Bool × Nat) :=
  (.qbc (r.h) (r.d) (r.a) (r.tyName) (r.mods.extractLsb 1 0),
   [(r.b != 0, 3), (r.c != 0, 3), (r.tyBad, 9), (r.rndUnused, 3), (r.rndBad, 9), (r.mods &&& 0x1ffc#13 != 0, 3)])

/-- LD (R164). -/
def decLd (r : Raw) : Instr × List (Bool × Nat) :=
  (.ld (r.h) (r.d) (r.a) (r.spName) (r.szName) (r.ordName) (r.scName) (r.off16),
   [(r.xmBad, 9), (r.b != 0, 3), (r.aop != 0 || r.nr, 3)])

/-- ST (R164). -/
def decSt (r : Raw) : Instr × List (Bool × Nat) :=
  (.st (r.h) (r.a) (r.b) (r.spName) (r.szName) (r.ordName) (r.scName) (r.off16),
   [(r.xmBad, 9), (r.d != 0, 3), (r.aop != 0 || r.nr, 3)])

/-- ATOM (R167). -/
def decAtom (r : Raw) : Instr × List (Bool × Nat) :=
  (.atom (r.h) (r.d) (r.a) (r.b) (r.spName) (r.szName) (r.ordName) (r.scName) (r.aopName) (r.off16),
   [(r.xmBad, 9)])

/-- RED (R167). -/
def decRed (r : Raw) : Instr × List (Bool × Nat) :=
  (.red (r.h) (r.a) (r.b) (r.spName) (r.szName) (r.ordName) (r.scName) (r.aopName) (r.off16),
   [(r.xmBad, 9), (r.d != 0, 3)])

/-- FENCE (R168). -/
def decFence (r : Raw) : Instr × List (Bool × Nat) :=
  (.fence (r.h) (r.d) (r.a),
   [])

/-- EFENCE (R168). -/
def decEfence (r : Raw) : Instr × List (Bool × Nat) :=
  (.efence (r.h),
   [(r.d != 0, 3), (r.a != 0, 3)])

/-- CPASYNC (R172). -/
def decCpasync (r : Raw) : Instr × List (Bool × Nat) :=
  (.cpasync (r.h) (r.d) (r.a) (r.b) (r.c) (r.mods.getLsbD 6) ((Space.ofCode (r.mods.extractLsb 5 3).toNat).getD default) ((Space.ofCode (r.mods.extractLsb 2 0).toNat).getD default),
   [(r.ty != 0, 3), (r.rnd != 0, 3), ((Space.ofCode (r.mods.extractLsb 5 3).toNat).isNone, 9), ((Space.ofCode (r.mods.extractLsb 2 0).toNat).isNone, 9), (r.mods &&& 0x1f80#13 != 0, 3)])

/-- GATH (R173). -/
def decGath (r : Raw) : Instr × List (Bool × Nat) :=
  (.gath (r.h) (r.d) (r.a) (r.b) (r.c) ((Space.ofCode (r.mods.extractLsb 8 6).toNat).getD default) ((Fmt.ofCode (r.mods.extractLsb 5 1).toNat).getD default) (r.mods.getLsbD 0),
   [(r.ty != 0, 3), (r.rnd != 0, 3), ((Space.ofCode (r.mods.extractLsb 8 6).toNat).isNone, 9), ((Fmt.ofCode (r.mods.extractLsb 5 1).toNat).isNone, 9), (r.mods &&& 0x1e00#13 != 0, 3)])

/-- WAITC (R171). -/
def decWaitc (r : Raw) : Instr × List (Bool × Nat) :=
  (.waitc (r.h) (r.mods.extractLsb 11 4) (r.mods.extractLsb 3 0),
   [(r.d != 0, 3), (r.a != 0, 3), (r.b != 0, 3), (r.c != 0, 3), (r.ty != 0, 3), (r.rnd != 0, 3), (r.mods &&& 0x1000#13 != 0, 3)])

/-- FTEST (R171). -/
def decFtest (r : Raw) : Instr × List (Bool × Nat) :=
  (.ftest (r.h) (r.d) (r.a),
   [(r.b != 0, 3), (r.c != 0, 3), (r.ty != 0, 3), (r.rnd != 0, 3), (r.mods &&& 0x1fff#13 != 0, 3)])

/-- FCANCEL (R171). -/
def decFcancel (r : Raw) : Instr × List (Bool × Nat) :=
  (.fcancel (r.h) (r.d) (r.a),
   [(r.b != 0, 3), (r.c != 0, 3), (r.ty != 0, 3), (r.rnd != 0, 3), (r.mods &&& 0x1fff#13 != 0, 3)])

/-- OQPOP (R186). -/
def decOqpop (r : Raw) : Instr × List (Bool × Nat) :=
  (.oqpop (r.h) (r.d) (r.a) (r.mods.extractLsb 4 0),
   [(r.b != 0, 3), (r.c != 0, 3), (r.ty != 0, 3), (r.rnd != 0, 3), (r.mods &&& 0x1fe0#13 != 0, 3)])

/-- OQREL (R186). -/
def decOqrel (r : Raw) : Instr × List (Bool × Nat) :=
  (.oqrel (r.h) (r.a),
   [(r.d != 0, 3), (r.b != 0, 3), (r.c != 0, 3), (r.ty != 0, 3), (r.rnd != 0, 3), (r.mods &&& 0x1fff#13 != 0, 3)])

/-- ASLICE (R187). -/
def decAslice (r : Raw) : Instr × List (Bool × Nat) :=
  (.aslice (r.h) (r.d) (r.a) (r.mods.getLsbD 0),
   [(r.b != 0, 3), (r.c != 0, 3), (r.ty != 0, 3), (r.rnd != 0, 3), (r.mods &&& 0x1ffe#13 != 0, 3)])

/-- ASTOP (R187). -/
def decAstop (r : Raw) : Instr × List (Bool × Nat) :=
  (.astop (r.h),
   [(r.d != 0, 3), (r.a != 0, 3), (r.b != 0, 3), (r.c != 0, 3), (r.ty != 0, 3), (r.rnd != 0, 3), (r.mods &&& 0x1fff#13 != 0, 3)])

/-- PLOOP (R188). -/
def decPloop (r : Raw) : Instr × List (Bool × Nat) :=
  (.ploop (r.h) (r.a) (r.mods.extractLsb 12 0),
   [(r.d != 0, 3), (r.b != 0, 3), (r.c != 0, 3), (r.ty != 0, 3), (r.rnd != 0, 3)])

/-- AFEED (R188). -/
def decAfeed (r : Raw) : Instr × List (Bool × Nat) :=
  (.afeed (r.h) (r.d) (r.a) (r.b) (r.mods.extractLsb 12 2) ((FeedKind.ofCode (r.mods.extractLsb 1 0).toNat).getD default),
   [(r.c != 0, 3), (r.ty != 0, 3), (r.rnd != 0, 3), ((FeedKind.ofCode (r.mods.extractLsb 1 0).toNat).isNone, 9)])

/-- PWAIT (R188). -/
def decPwait (r : Raw) : Instr × List (Bool × Nat) :=
  (.pwait (r.h) (r.d) (r.mods.extractLsb 5 0),
   [(r.a != 0, 3), (r.b != 0, 3), (r.c != 0, 3), (r.ty != 0, 3), (r.rnd != 0, 3), (r.mods &&& 0x1fc0#13 != 0, 3)])

/-- BARINIT (R175). -/
def decBarinit (r : Raw) : Instr × List (Bool × Nat) :=
  (.barinit (r.h) (r.a) (r.b),
   [(r.d != 0, 3), (r.c != 0, 3), (r.ty != 0, 3), (r.rnd != 0, 3), (r.mods &&& 0x1fff#13 != 0, 3)])

/-- BARARR (R175). -/
def decBararr (r : Raw) : Instr × List (Bool × Nat) :=
  (.bararr (r.h) (r.a),
   [(r.d != 0, 3), (r.b != 0, 3), (r.c != 0, 3), (r.ty != 0, 3), (r.rnd != 0, 3), (r.mods &&& 0x1fff#13 != 0, 3)])

/-- BARWT (R175). -/
def decBarwt (r : Raw) : Instr × List (Bool × Nat) :=
  (.barwt (r.h) (r.a) (r.b),
   [(r.d != 0, 3), (r.c != 0, 3), (r.ty != 0, 3), (r.rnd != 0, 3), (r.mods &&& 0x1fff#13 != 0, 3)])

/-- BARST (R175). -/
def decBarst (r : Raw) : Instr × List (Bool × Nat) :=
  (.barst (r.h) (r.d) (r.a),
   [(r.b != 0, 3), (r.c != 0, 3), (r.ty != 0, 3), (r.rnd != 0, 3), (r.mods &&& 0x1fff#13 != 0, 3)])

/-- CVDECL (R181). -/
def decCvdecl (r : Raw) : Instr × List (Bool × Nat) :=
  (.cvdecl (r.h) (r.c) (r.mods.extractLsb 6 0),
   [(r.d != 0, 3), (r.a != 0, 3), (r.b != 0, 3), (r.ty != 0, 3), (r.rnd != 0, 3), (r.mods &&& 0x1f80#13 != 0, 3)])

/-- MMA (R181). -/
def decMma (r : Raw) : Instr × List (Bool × Nat) :=
  (.mma (r.h) (r.d) (r.a) (r.b) (r.c) (r.mods.getLsbD 10) (r.mods.getLsbD 9) (r.mods.getLsbD 8) (r.mods.getLsbD 7) (r.mods.getLsbD 6) (r.mods.getLsbD 5) ((Fmt.ofCode (r.mods.extractLsb 4 0).toNat).getD default) (r.w2.extractLsb 16 10) (r.w2.getLsbD 9) (r.w2.extractLsb 8 7) (r.w2.extractLsb 6 0),
   [(r.ty != 0, 3), (r.rnd != 0, 3), ((Fmt.ofCode (r.mods.extractLsb 4 0).toNat).isNone, 9), (r.mods &&& 0x1800#13 != 0, 3), (r.w2.extractLsb 31 17 != 0, 3)])

/-- ACCZ (R184). -/
def decAccz (r : Raw) : Instr × List (Bool × Nat) :=
  (.accz (r.h) (r.d),
   [(r.a != 0, 3), (r.b != 0, 3), (r.c != 0, 3), (r.ty != 0, 3), (r.rnd != 0, 3), (r.mods &&& 0x1fff#13 != 0, 3)])

/-- ACCLD (R184). -/
def decAccld (r : Raw) : Instr × List (Bool × Nat) :=
  (.accld (r.h) (r.d) (r.a) ((Space.ofCode (r.mods.extractLsb 2 0).toNat).getD default),
   [(r.b != 0, 3), (r.c != 0, 3), (r.ty != 8, 9), (r.rnd != 0, 3), ((Space.ofCode (r.mods.extractLsb 2 0).toNat).isNone, 9), (r.mods &&& 0x1ff8#13 != 0, 3)])

/-- ACCST (R184). -/
def decAccst (r : Raw) : Instr × List (Bool × Nat) :=
  (.accst (r.h) (r.d) (r.a) (r.b) (r.rndName) ((Space.ofCode (r.mods.extractLsb 8 6).toNat).getD default) (r.mods.getLsbD 5) ((Fmt.ofCode (r.mods.extractLsb 4 0).toNat).getD default),
   [(r.c != 0, 3), (r.ty != 0, 3), (r.rndBad, 9), ((Space.ofCode (r.mods.extractLsb 8 6).toNat).isNone, 9), ((Fmt.ofCode (r.mods.extractLsb 4 0).toNat).isNone, 9), (r.mods &&& 0x1e00#13 != 0, 3)])

/-- ACCRD (R184). -/
def decAccrd (r : Raw) : Instr × List (Bool × Nat) :=
  (.accrd (r.h) (r.d) (r.a) (r.b),
   [(r.c != 0, 3), (r.ty != 0, 3), (r.rnd != 0, 3), (r.mods &&& 0x1fff#13 != 0, 3)])

/-- QPUSH (R227). -/
def decQpush (r : Raw) : Instr × List (Bool × Nat) :=
  (.qpush (r.h) (r.d) (r.a) (r.b) (r.mods.extractLsb 11 4) (r.mods.getLsbD 3) (r.mods.extractLsb 2 0),
   [(r.c != 0, 3), (r.ty != 0, 3), (r.rnd != 0, 3), (r.mods &&& 0x1000#13 != 0, 3)])

/-- QPOP (R229). -/
def decQpop (r : Raw) : Instr × List (Bool × Nat) :=
  (.qpop (r.h) (r.d) (r.a) (r.mods.extractLsb 2 0),
   [(r.b != 0, 3), (r.c != 0, 3), (r.ty != 0, 3), (r.rnd != 0, 3), (r.mods &&& 0x1ff8#13 != 0, 3)])

/-- QPEEK (R230). -/
def decQpeek (r : Raw) : Instr × List (Bool × Nat) :=
  (.qpeek (r.h) (r.d) (r.a) (r.c) (r.mods.extractLsb 2 0),
   [(r.b != 0, 3), (r.ty != 0, 3), (r.rnd != 0, 3), (r.mods &&& 0x1ff8#13 != 0, 3)])

/-- QCNT (R231). -/
def decQcnt (r : Raw) : Instr × List (Bool × Nat) :=
  (.qcnt (r.h) (r.d) (r.a),
   [(r.b != 0, 3), (r.c != 0, 3), (r.ty != 0, 3), (r.rnd != 0, 3), (r.mods &&& 0x1fff#13 != 0, 3)])

/-- DCARM (R232). -/
def decDcarm (r : Raw) : Instr × List (Bool × Nat) :=
  (.dcarm (r.h) (r.a) (r.b) (r.c) (r.mods.extractLsb 6 0),
   [(r.d != 0, 3), (r.ty != 0, 3), (r.rnd != 0, 3), (r.mods &&& 0x1f80#13 != 0, 3)])

/-- DCDEC (R232). -/
def decDcdec (r : Raw) : Instr × List (Bool × Nat) :=
  (.dcdec (r.h) (r.a),
   [(r.d != 0, 3), (r.b != 0, 3), (r.c != 0, 3), (r.ty != 0, 3), (r.rnd != 0, 3), (r.mods &&& 0x1fff#13 != 0, 3)])

/-- TRIG (R234). -/
def decTrig (r : Raw) : Instr × List (Bool × Nat) :=
  (.trig (r.h),
   [(r.d != 0, 3), (r.a != 0, 3), (r.b != 0, 3), (r.c != 0, 3), (r.ty != 0, 3), (r.rnd != 0, 3), (r.mods &&& 0x1fff#13 != 0, 3)])

/-- DWAIT (R234). -/
def decDwait (r : Raw) : Instr × List (Bool × Nat) :=
  (.dwait (r.h) (r.d),
   [(r.a != 0, 3), (r.b != 0, 3), (r.c != 0, 3), (r.ty != 0, 3), (r.rnd != 0, 3), (r.mods &&& 0x1fff#13 != 0, 3)])

/-- BEAT (R235). -/
def decBeat (r : Raw) : Instr × List (Bool × Nat) :=
  (.beat (r.h),
   [(r.d != 0, 3), (r.a != 0, 3), (r.b != 0, 3), (r.c != 0, 3), (r.ty != 0, 3), (r.rnd != 0, 3), (r.mods &&& 0x1fff#13 != 0, 3)])

/-- EVPOST (R236). -/
def decEvpost (r : Raw) : Instr × List (Bool × Nat) :=
  (.evpost (r.h) (r.a),
   [(r.d != 0, 3), (r.b != 0, 3), (r.c != 0, 3), (r.ty != 0, 3), (r.rnd != 0, 3), (r.mods &&& 0x1fff#13 != 0, 3)])

/-- EVPOP (R237). -/
def decEvpop (r : Raw) : Instr × List (Bool × Nat) :=
  (.evpop (r.h) (r.d) (r.mods.getLsbD 0),
   [(r.a != 0, 3), (r.b != 0, 3), (r.c != 0, 3), (r.ty != 0, 3), (r.rnd != 0, 3), (r.mods &&& 0x1ffe#13 != 0, 3)])

/-- GUESS (R297). -/
def decGuess (r : Raw) : Instr × List (Bool × Nat) :=
  (.guess (r.h) (r.d) (r.a) (r.b) (r.c) (r.tyName) (r.mods.extractLsb 10 4) (r.mods.getLsbD 3) (r.mods.getLsbD 2) (r.mods.getLsbD 1) (r.mods.getLsbD 0),
   [(r.tyBad, 9), (r.rnd != 0, 3), (r.mods &&& 0x1800#13 != 0, 3)])

/-- AFFIRM (R298). -/
def decAffirm (r : Raw) : Instr × List (Bool × Nat) :=
  (.affirm (r.h) (r.d) (r.a) (r.mods.getLsbD 0),
   [(r.b != 0, 3), (r.c != 0, 3), (r.ty != 0, 3), (r.rnd != 0, 3), (r.mods &&& 0x1ffe#13 != 0, 3)])

/-- DENY (R298). -/
def decDeny (r : Raw) : Instr × List (Bool × Nat) :=
  (.deny (r.h) (r.d) (r.a) (r.b) (r.tyName) (r.mods.getLsbD 0),
   [(r.c != 0, 3), (r.tyBad, 9), (r.rnd != 0, 3), (r.mods &&& 0x1ffe#13 != 0, 3)])

/-- TAGQ (R299). -/
def decTagq (r : Raw) : Instr × List (Bool × Nat) :=
  (.tagq (r.h) (r.d) (r.a) (r.mods.extractLsb 3 2) ((TagqMode.ofCode (r.mods.extractLsb 1 0).toNat).getD default),
   [(r.b != 0, 3), (r.c != 0, 3), (r.ty != 0, 3), (r.rnd != 0, 3), ((TagqMode.ofCode (r.mods.extractLsb 1 0).toNat).isNone, 9), (r.mods &&& 0x1ff0#13 != 0, 3)])

/-- PUTS (R336). -/
def decPuts (r : Raw) : Instr × List (Bool × Nat) :=
  (.puts (r.h) (r.d) (r.a) (r.b) (r.c) (r.mods.extractLsb 12 6) (r.mods.getLsbD 5) (r.mods.getLsbD 4) (r.mods.getLsbD 3) ((Space.ofCode (r.mods.extractLsb 2 0).toNat).getD default),
   [(r.ty != 0, 3), (r.rnd != 0, 3), ((Space.ofCode (r.mods.extractLsb 2 0).toNat).isNone, 9)])

/-- GET (R337). -/
def decGet (r : Raw) : Instr × List (Bool × Nat) :=
  (.get (r.h) (r.d) (r.a) (r.b) (r.c) (r.mods.getLsbD 3) ((Space.ofCode (r.mods.extractLsb 2 0).toNat).getD default),
   [(r.ty != 0, 3), (r.rnd != 0, 3), ((Space.ofCode (r.mods.extractLsb 2 0).toNat).isNone, 9), (r.mods &&& 0x1ff0#13 != 0, 3)])

/-- RADD (R338). -/
def decRadd (r : Raw) : Instr × List (Bool × Nat) :=
  (.radd (r.h) (r.d) (r.a) (r.b) (r.c) (r.tyName) (r.mods.extractLsb 12 6) (r.mods.getLsbD 5) ((Space.ofCode (r.mods.extractLsb 2 0).toNat).getD default),
   [(r.tyBad, 9), (r.rnd != 0, 3), ((Space.ofCode (r.mods.extractLsb 2 0).toNat).isNone, 9), (r.mods &&& 0x18#13 != 0, 3)])

/-- SIGWT (R339). -/
def decSigwt (r : Raw) : Instr × List (Bool × Nat) :=
  (.sigwt (r.h) (r.d) (r.a) (r.b) (r.c) (r.mods.extractLsb 8 2) ((SigCond.ofCode (r.mods.extractLsb 1 0).toNat).getD default),
   [(r.ty != 0, 3), (r.rnd != 0, 3), ((SigCond.ofCode (r.mods.extractLsb 1 0).toNat).isNone, 9), (r.mods &&& 0x1e00#13 != 0, 3)])

/-- WANT (R340). -/
def decWant (r : Raw) : Instr × List (Bool × Nat) :=
  (.want (r.h) (r.d) (r.a) (r.b) (r.c) ((Space.ofCode (r.mods.extractLsb 6 4).toNat).getD default) (r.mods.extractLsb 3 0),
   [(r.ty != 0, 3), (r.rnd != 0, 3), ((Space.ofCode (r.mods.extractLsb 6 4).toNat).isNone, 9), (r.mods &&& 0x1f80#13 != 0, 3)])

/-- ANNOUNCE (R341). -/
def decAnnounce (r : Raw) : Instr × List (Bool × Nat) :=
  (.announce (r.h) (r.d) (r.a) (r.b) (r.c) ((Space.ofCode (r.mods.extractLsb 2 0).toNat).getD default),
   [(r.ty != 0, 3), (r.rnd != 0, 3), ((Space.ofCode (r.mods.extractLsb 2 0).toNat).isNone, 9), (r.mods &&& 0x1ff8#13 != 0, 3)])

/-- TWALK (R342). -/
def decTwalk (r : Raw) : Instr × List (Bool × Nat) :=
  (.twalk (r.h) (r.d) (r.a) (r.mods.extractLsb 11 6) (r.mods.extractLsb 5 0),
   [(r.b != 0, 3), (r.c != 0, 3), (r.ty != 0, 3), (r.rnd != 0, 3), (r.mods &&& 0x1000#13 != 0, 3)])

/-- PERMIT (R343). -/
def decPermit (r : Raw) : Instr × List (Bool × Nat) :=
  (.permit (r.h) (r.d) (r.a) (r.b),
   [(r.c != 0, 3), (r.ty != 0, 3), (r.rnd != 0, 3), (r.mods &&& 0x1fff#13 != 0, 3)])

/-- CSEQ (R344). -/
def decCseq (r : Raw) : Instr × List (Bool × Nat) :=
  (.cseq (r.h) (r.d) (r.a) (r.b),
   [(r.c != 0, 3), (r.ty != 0, 3), (r.rnd != 0, 3), (r.mods &&& 0x1fff#13 != 0, 3)])

/-- SYSC (R269). -/
def decSysc (r : Raw) : Instr × List (Bool × Nat) :=
  (.sysc (r.h) (r.mods.extractLsb 6 0),
   [(r.d != 0, 3), (r.a != 0, 3), (r.b != 0, 3), (r.c != 0, 3), (r.ty != 0, 3), (r.rnd != 0, 3), (r.mods &&& 0x1f80#13 != 0, 3)])

/-- RFT (R270). -/
def decRft (r : Raw) : Instr × List (Bool × Nat) :=
  (.rft (r.h) (r.a) (r.mods.getLsbD 3) ((RftMode.ofCode (r.mods.extractLsb 2 0).toNat).getD default),
   [(r.d != 0, 3), (r.b != 0, 3), (r.c != 0, 3), (r.ty != 0, 3), (r.rnd != 0, 3), ((RftMode.ofCode (r.mods.extractLsb 2 0).toNat).isNone, 9), (r.mods &&& 0x1ff0#13 != 0, 3)])

/-- AWRD (R271). -/
def decAwrd (r : Raw) : Instr × List (Bool × Nat) :=
  (.awrd (r.h) (r.d) (r.a) (r.b) (r.c),
   [(r.ty != 0, 3), (r.rnd != 0, 3), (r.mods &&& 0x1fff#13 != 0, 3)])

/-- AWWR (R272). -/
def decAwwr (r : Raw) : Instr × List (Bool × Nat) :=
  (.awwr (r.h) (r.d) (r.a) (r.b) (r.c),
   [(r.ty != 0, 3), (r.rnd != 0, 3), (r.mods &&& 0x1fff#13 != 0, 3)])

/-- HSTOP (R273). -/
def decHstop (r : Raw) : Instr × List (Bool × Nat) :=
  (.hstop (r.h) (r.d) (r.a) (r.mods.getLsbD 0),
   [(r.b != 0, 3), (r.c != 0, 3), (r.ty != 0, 3), (r.rnd != 0, 3), (r.mods &&& 0x1ffe#13 != 0, 3)])

/-- HRESUME (R273). -/
def decHresume (r : Raw) : Instr × List (Bool × Nat) :=
  (.hresume (r.h) (r.a) (r.mods.getLsbD 0),
   [(r.d != 0, 3), (r.b != 0, 3), (r.c != 0, 3), (r.ty != 0, 3), (r.rnd != 0, 3), (r.mods &&& 0x1ffe#13 != 0, 3)])

/-- BRKP (R371). -/
def decBrkp (r : Raw) : Instr × List (Bool × Nat) :=
  (.brkp (r.h) (r.mods.extractLsb 7 0),
   [(r.d != 0, 3), (r.a != 0, 3), (r.b != 0, 3), (r.c != 0, 3), (r.ty != 0, 3), (r.rnd != 0, 3), (r.mods &&& 0x1f00#13 != 0, 3)])

/-- TRACE (R371). -/
def decTrace (r : Raw) : Instr × List (Bool × Nat) :=
  (.trace (r.h) (r.a) (r.b) (r.mods.getLsbD 8) (r.mods.extractLsb 7 0),
   [(r.d != 0, 3), (r.c != 0, 3), (r.ty != 0, 3), (r.rnd != 0, 3), (r.mods &&& 0x1e00#13 != 0, 3)])

/-- MARK (R371). -/
def decMark (r : Raw) : Instr × List (Bool × Nat) :=
  (.mark (r.h) (r.mods.extractLsb 12 0),
   [(r.d != 0, 3), (r.a != 0, 3), (r.b != 0, 3), (r.c != 0, 3), (r.ty != 0, 3), (r.rnd != 0, 3)])

/-- REP (R49). -/
def decRep (r : Raw) : Instr × List (Bool × Nat) :=
  (.rep (r.h.stop) (r.w0.extractLsb 17 12) (r.w0.getLsbD 11) (r.w0.getLsbD 10) (r.w0.getLsbD 9) (r.w0.getLsbD 8) (r.w0.getLsbD 7),
   [(r.h.stall != 0 || r.h.g, 3), (r.w0.extractLsb 6 0 != 0, 3)])

/-- INV (R134). -/
def decInv (r : Raw) : Instr × List (Bool × Nat) :=
  (.inv (r.h) (r.w0.extractLsb 17 11) (r.w0.extractLsb 10 4) (r.w0.extractLsb 3 2) ((InvTy.ofCode (r.w0.extractLsb 1 0).toNat).getD default) (r.w1.extractLsb 31 25) (r.w1.getLsbD 24) (r.w1.extractLsb 23 19) (r.w1.extractLsb 18 13),
   [((InvTy.ofCode (r.w0.extractLsb 1 0).toNat).isNone, 9), (r.w1.extractLsb 12 0 != 0, 3)])

/-- JMPT (R53). -/
def decJmpt (r : Raw) : Instr × List (Bool × Nat) :=
  (.jmpt (r.h) (r.w0.extractLsb 19 0),
   [])

/-- PADW (R53). -/
def decPadw (r : Raw) : Instr × List (Bool × Nat) :=
  (.padw (r.h),
   [(r.w0.extractLsb 17 0 != 0, 3)])

/-- The row of the opcode map (R47) that a word selects: its decoding, or the cause 0x01 of a reserved major, or
the cause 0x02 of an unlisted function code. -/
def selectRow (r : Raw) : Except Nat (Instr × List (Bool × Nat)) :=
  match r.major.toNat with
  | 0x0 => .ok (decAdd r)
  | 0x1 => .ok (decSub r)
  | 0x2 => .ok (decMul r)
  | 0x3 => .ok (decAnd r)
  | 0x4 => .ok (decOr r)
  | 0x5 => .ok (decXor r)
  | 0x6 => .ok (decAndn r)
  | 0x7 => .ok (decShl r)
  | 0x8 => .ok (decShr r)
  | 0x9 => .ok (decSar r)
  | 0xa => .ok (decRot r)
  | 0xb => match r.b.toNat with
    | 0 => .ok (decMov r)
    | 1 => .ok (decNeg r)
    | 2 => .ok (decAbs r)
    | 3 => .ok (decNot r)
    | 4 => .ok (decClz r)
    | 5 => .ok (decPopc r)
    | 6 => .ok (decBrev r)
    | _ => .error 2
  | 0xc => match r.fn.toNat with
    | 0 => .ok (decAddTyped r)
    | 1 => .ok (decSubTyped r)
    | 2 => .ok (decMulTyped r)
    | 3 => .ok (decMulhi r)
    | 4 => .ok (decDiv r)
    | 5 => .ok (decRem r)
    | 6 => .ok (decMinTyped r)
    | 7 => .ok (decMaxTyped r)
    | 8 => .ok (decNegTyped r)
    | 9 => .ok (decAbsTyped r)
    | _ => .error 2
  | 0xd => match r.fn.toNat with
    | 0 => .ok (decMad r)
    | _ => .error 2
  | 0xe => match r.fn.toNat with
    | 0 => .ok (decBfx r)
    | 1 => .ok (decBfi r)
    | _ => .error 2
  | 0xf => match r.fn.toNat with
    | 0 => .ok (decSel r)
    | _ => .error 2
  | 0x10 => match r.b.toNat with
    | 0 => .ok (decAddImm r)
    | 1 => .ok (decSubImm r)
    | 2 => .ok (decMulImm r)
    | 3 => .ok (decAndImm r)
    | 4 => .ok (decOrImm r)
    | 5 => .ok (decXorImm r)
    | 6 => .ok (decAndnImm r)
    | 7 => .ok (decShlImm r)
    | 8 => .ok (decShrImm r)
    | 9 => .ok (decSarImm r)
    | 10 => .ok (decRotImm r)
    | 11 => .ok (decMinImm r)
    | 12 => .ok (decMinImmU r)
    | 13 => .ok (decMaxImm r)
    | 14 => .ok (decMaxImmU r)
    | _ => .error 2
  | 0x11 => .ok (decMovi r)
  | 0x12 => .ok (decMoviLit r)
  | 0x13 => .ok (decMovhi r)
  | 0x18 => if r.fn.toNat < 8 then .ok (decSetp r) else .error 2
  | 0x19 => match r.fn.toNat with
    | 0 => .ok (decPlog r)
    | _ => .error 2
  | 0x1a => match r.b.toNat with
    | 0 => .ok (decPmovToReg r)
    | 1 => .ok (decPmovToPred r)
    | _ => .error 2
  | 0x1b => match r.b.toNat with
    | 0 => .ok (decMovs r)
    | 1 => .ok (decMovsw r)
    | _ => .error 2
  | 0x1c => .ok (decBra r)
  | 0x1d => .ok (decCall r)
  | 0x1e => match r.b.toNat with
    | 0 => .ok (decBrx r)
    | 1 => .ok (decCallx r)
    | 2 => .ok (decRet r)
    | 3 => .ok (decEndFibre r)
    | 4 => .ok (decYield r)
    | 5 => .ok (decNap r)
    | 6 => .ok (decNop r)
    | 7 => .ok (decTrap r)
    | _ => .error 2
  | 0x1f => match r.b.toNat with
    | 0 => .ok (decLoopReg r)
    | 1 => .ok (decLoopImm r)
    | 2 => .ok (decLbrk r)
    | 3 => .ok (decFork r)
    | _ => .error 2
  | 0x20 => match r.fn.toNat with
    | 0 => .ok (decFadd r)
    | 1 => .ok (decFsub r)
    | 2 => .ok (decFmul r)
    | 3 => .ok (decFmin r)
    | 4 => .ok (decFmax r)
    | 5 => .ok (decFdiv r)
    | _ => .error 2
  | 0x21 => match r.fn.toNat with
    | 0 => .ok (decFfma r)
    | _ => .error 2
  | 0x22 => match r.fn.toNat with
    | 0 => .ok (decFrcp r)
    | 1 => .ok (decFsqrt r)
    | 2 => .ok (decFrsq r)
    | 3 => .ok (decFrnd r)
    | 4 => .ok (decFclass r)
    | _ => .error 2
  | 0x23 => if r.fn.toNat < 8 then .ok (decFcmp r) else .error 2
  | 0x24 => match r.fn.toNat with
    | 0 => .ok (decDadd r)
    | 1 => .ok (decDmul r)
    | _ => .error 2
  | 0x25 => match r.fn.toNat with
    | 0 => .ok (decDfma r)
    | _ => .error 2
  | 0x26 => if r.fn.toNat < 8 then .ok (decDcmp r) else .error 2
  | 0x27 => match r.fn.toNat with
    | 0 => .ok (decHadd2 r)
    | 1 => .ok (decHmul2 r)
    | _ => .error 2
  | 0x28 => match r.fn.toNat with
    | 0 => .ok (decHfma2 r)
    | _ => .error 2
  | 0x2c => match r.fn.toNat with
    | 0 => .ok (decCvt r)
    | _ => .error 2
  | 0x2d => match r.fn.toNat with
    | 0 => .ok (decQnt r)
    | 1 => .ok (decDqnt r)
    | _ => .error 2
  | 0x2e => match r.fn.toNat with
    | 0 => .ok (decFex2 r)
    | 1 => .ok (decFlg2 r)
    | 2 => .ok (decFsin r)
    | 3 => .ok (decFcos r)
    | 4 => .ok (decFtanh r)
    | _ => .error 2
  | 0x2f => match r.fn.toNat with
    | 0 => .ok (decRand r)
    | _ => .error 2
  | 0x30 => if r.fn.toNat < 4 then .ok (decShfl r) else .error 2
  | 0x31 => if r.fn.toNat < 5 then .ok (decVote r) else .error 2
  | 0x32 => if r.fn.toNat < 9 then .ok (decSpred r) else .error 2
  | 0x33 => match r.fn.toNat with
    | 0 => .ok (decQswap r)
    | 1 => .ok (decQbc r)
    | _ => .error 2
  | 0x34 => .ok (decLd r)
  | 0x35 => .ok (decSt r)
  | 0x36 => .ok (if r.nr then decRed r else decAtom r)
  | 0x37 => match r.b.toNat with
    | 0 => .ok (decFence r)
    | 1 => .ok (decEfence r)
    | _ => .error 2
  | 0x38 => match r.fn.toNat with
    | 0 => .ok (decCpasync r)
    | 1 => .ok (decGath r)
    | _ => .error 2
  | 0x39 => match r.fn.toNat with
    | 0 => .ok (decWaitc r)
    | 1 => .ok (decFtest r)
    | 2 => .ok (decFcancel r)
    | 3 => .ok (decOqpop r)
    | 4 => .ok (decOqrel r)
    | 5 => .ok (decAslice r)
    | 6 => .ok (decAstop r)
    | 7 => .ok (decPloop r)
    | 8 => .ok (decAfeed r)
    | 9 => .ok (decPwait r)
    | _ => .error 2
  | 0x3a => match r.fn.toNat with
    | 0 => .ok (decBarinit r)
    | 1 => .ok (decBararr r)
    | 2 => .ok (decBarwt r)
    | 3 => .ok (decBarst r)
    | 4 => .ok (decCvdecl r)
    | _ => .error 2
  | 0x3b => match r.fn.toNat with
    | 0 => .ok (decMma r)
    | 1 => .ok (decAccz r)
    | 2 => .ok (decAccld r)
    | 3 => .ok (decAccst r)
    | 4 => .ok (decAccrd r)
    | _ => .error 2
  | 0x3c => match r.fn.toNat with
    | 0 => .ok (decQpush r)
    | 1 => .ok (decQpop r)
    | 2 => .ok (decQpeek r)
    | 3 => .ok (decQcnt r)
    | 4 => .ok (decDcarm r)
    | 5 => .ok (decDcdec r)
    | 6 => .ok (decTrig r)
    | 7 => .ok (decDwait r)
    | 8 => .ok (decBeat r)
    | 9 => .ok (decEvpost r)
    | 10 => .ok (decEvpop r)
    | 16 => .ok (decGuess r)
    | 17 => .ok (decAffirm r)
    | 18 => .ok (decDeny r)
    | 19 => .ok (decTagq r)
    | _ => .error 2
  | 0x3d => match r.fn.toNat with
    | 0 => .ok (decPuts r)
    | 1 => .ok (decGet r)
    | 2 => .ok (decRadd r)
    | 3 => .ok (decSigwt r)
    | 4 => .ok (decWant r)
    | 5 => .ok (decAnnounce r)
    | 6 => .ok (decTwalk r)
    | 7 => .ok (decPermit r)
    | 8 => .ok (decCseq r)
    | _ => .error 2
  | 0x3e => match r.fn.toNat with
    | 0 => .ok (decSysc r)
    | 1 => .ok (decRft r)
    | 2 => .ok (decAwrd r)
    | 3 => .ok (decAwwr r)
    | 4 => .ok (decHstop r)
    | 5 => .ok (decHresume r)
    | 8 => .ok (decBrkp r)
    | 9 => .ok (decTrace r)
    | 10 => .ok (decMark r)
    | _ => .error 2
  | 0x3F =>
    if r.w0.getLsbD 20 then .ok (decJmpt r)
    else match (r.w0.extractLsb 19 18).toNat with
      | 0 => .ok (decRep r)
      | 1 => .ok (decInv r)
      | 2 => .ok (decPadw r)
      | _ => .error 2
  | _ => .error 1

/-- The causes a list of checks gives. -/
def causesOf (l : List (Bool × Nat)) : List Nat := (l.filter (·.1)).map (·.2)
/-- The lowest code among several causes (R57). -/
def lowest : List Nat → Option Nat
  | [] => none
  | c :: cs => match lowest cs with
    | none => some c
    | some e => some (min c e)

/-- What decoding a word gives: the instruction its fields spell, and every static cause it has (R56). -/
structure Dec where
  instr  : Option Instr
  causes : List Nat
  deriving DecidableEq, Repr

/-- Decode an instruction's words. Register fields are checked against the largest allocation here; the fibre's own
allocation is checked where the word issues (R40). -/
def decodeRaw (r : Raw) : Dec :=
  match selectRow r with
  | .error c => ⟨none, [c]⟩
  | .ok (i, cs) => ⟨some i, causesOf (cs ++ i.faults ++ [(runsBad 128 i.runs, 6)])⟩

/-- The instruction a legal encoding stands for, or the cause of its decode trap (R56, R57). -/
def decode (r : Raw) : Except Nat Instr :=
  match lowest (decodeRaw r).causes, (decodeRaw r).instr with
  | some c, _ => .error c
  | none, some i => .ok i
  | none, none => .error 2

/-- Words of an instruction, as its major opcode fixes it; for 0x3B the second word decides (R31, R47). DESIGN CHOICE: a word of
a reserved major (0x14 to 0x17, 0x29 to 0x2B) counts as one, so that %xopi is 0 at its trap: the map gives it no count (log 33). -/
def wordCount (w0 w1 : Word) : Nat :=
  match (w0.extractLsb 26 21).toNat with
  | 0x3B => if (w1.extractLsb 24 20).toNat == 0 then 3 else 2
  | 0x3F => if !(w0.getLsbD 20) && w0.extractLsb 19 18 == 1 then 2 else 1
  | m =>
    if m ≤ 0x0B || m == 0x11 || (0x14 ≤ m && m ≤ 0x17) || (0x1A ≤ m && m ≤ 0x1E) || (0x29 ≤ m && m ≤ 0x2B) || m == 0x37
    then 1 else 2

/-- The engine class of a major opcode; none for 0x3F, whose words follow the rules of prefixes (R32). -/
def majorClass (m : Nat) : Option Nat :=
  if m ≤ 0x1B then some 0
  else if m ≤ 0x1F || m == 0x3C then some 4
  else if m ≤ 0x33 then some 0
  else if m ≤ 0x37 then some 1
  else if m == 0x3B then some 2
  else if m == 0x3E then some 5
  else if m == 0x3F then none
  else some 3

/-- A clause header (R30). -/
structure Header where
  count  : Nat
  cls    : Nat
  cp     : Bool
  mx     : Bool
  ga     : Bool
  fx     : Bool
  thr    : Nat
  guard  : Nat
  pol    : Bool
  deriving DecidableEq, Repr

/-- The fields of a word read as a clause header (R30). -/
def Header.ofWord (w : Word) : Header :=
  ⟨(w.extractLsb 31 28).toNat, (w.extractLsb 27 25).toNat, w.getLsbD 24, w.getLsbD 23, w.getLsbD 22, w.getLsbD 21,
   (w.extractLsb 20 18).toNat, (w.extractLsb 17 11).toNat, w.getLsbD 10⟩

/-- The decode causes of a header (R30, R56). -/
def headerCauses (w : Word) : List Nat :=
  let h := Header.ofWord w
  causesOf [(w.extractLsb 9 0 != 0, 3), (h.cls == 7, 4), (h.count == 0, 5), (h.guard ≥ 96, 6)]

/-- A header word. -/
def headerWord (count cls mask thr guard : Nat) (pol : Bool) : Word :=
  BitVec.ofNat 4 count ++ BitVec.ofNat 3 cls ++ BitVec.ofNat 4 mask ++ BitVec.ofNat 3 thr ++ BitVec.ofNat 7 guard ++
  BitVec.ofBool pol ++ 0#10

/-! ## The encoder -/

/-- A first word of layout RRR or RRF (R35, R36). -/
def wRRR (h : Head) (m : BitVec 6) (d a b : Reg) : Word := h.stall ++ BitVec.ofBool h.stop ++ BitVec.ofBool h.g ++ m ++ d ++ a ++ b
/-- A first word of layout RI. -/
def wRI (h : Head) (m : BitVec 6) (d : Reg) (i : BitVec 14) : Word := h.stall ++ BitVec.ofBool h.stop ++ BitVec.ofBool h.g ++ m ++ d ++ i
/-- A first word of layout OFF or PFX. -/
def wOFF (h : Head) (m : BitVec 6) (o : BitVec 21) : Word := h.stall ++ BitVec.ofBool h.stop ++ BitVec.ofBool h.g ++ m ++ o
/-- An extension word of layout XW (R37). -/
def wXW (c : Reg) (fn : BitVec 5) (ty : BitVec 4) (rnd : BitVec 3) (mods : BitVec 13) : Word := c ++ fn ++ ty ++ rnd ++ mods
/-- An extension word of layout XM (R37). -/
def wXM (sp : Space) (sz : Size) (o : Order) (sc : Scope) (aop : BitVec 4) (nr : Bool) (off : BitVec 16) : Word :=
  BitVec.ofNat 3 sp.code ++ BitVec.ofNat 3 sz.code ++ BitVec.ofNat 2 o.code ++ BitVec.ofNat 3 sc.code ++ aop ++ BitVec.ofBool nr ++ off

/-- The words of an instruction, from the encoding tables of R30 to R52 and of its own rule: the encoder. The
events of the table have no words. -/
def encode : Instr → List Word
  | .add h d a b => [wRRR h 0x0 d a b]
  | .sub h d a b => [wRRR h 0x1 d a b]
  | .mul h d a b => [wRRR h 0x2 d a b]
  | .and h d a b => [wRRR h 0x3 d a b]
  | .or h d a b => [wRRR h 0x4 d a b]
  | .xor h d a b => [wRRR h 0x5 d a b]
  | .andn h d a b => [wRRR h 0x6 d a b]
  | .shl h d a b => [wRRR h 0x7 d a b]
  | .shr h d a b => [wRRR h 0x8 d a b]
  | .sar h d a b => [wRRR h 0x9 d a b]
  | .rot h d a b => [wRRR h 0xa d a b]
  | .mov h d a => [wRRR h 0xb d a 0]
  | .neg h d a => [wRRR h 0xb d a 1]
  | .abs h d a => [wRRR h 0xb d a 2]
  | .not h d a => [wRRR h 0xb d a 3]
  | .clz h d a => [wRRR h 0xb d a 4]
  | .popc h d a => [wRRR h 0xb d a 5]
  | .brev h d a => [wRRR h 0xb d a 6]
  | .addTyped h d a b ty sat => [wRRR h 0xc d a b, wXW 0 0 (BitVec.ofNat 4 ty.code) 0 (0#12 ++ BitVec.ofBool sat)]
  | .subTyped h d a b ty sat => [wRRR h 0xc d a b, wXW 0 1 (BitVec.ofNat 4 ty.code) 0 (0#12 ++ BitVec.ofBool sat)]
  | .mulTyped h d a b ty sat => [wRRR h 0xc d a b, wXW 0 2 (BitVec.ofNat 4 ty.code) 0 (0#12 ++ BitVec.ofBool sat)]
  | .mulhi h d a b ty => [wRRR h 0xc d a b, wXW 0 3 (BitVec.ofNat 4 ty.code) 0 0]
  | .div h d a b ty sat => [wRRR h 0xc d a b, wXW 0 4 (BitVec.ofNat 4 ty.code) 0 (0#12 ++ BitVec.ofBool sat)]
  | .rem h d a b ty => [wRRR h 0xc d a b, wXW 0 5 (BitVec.ofNat 4 ty.code) 0 0]
  | .minTyped h d a b ty => [wRRR h 0xc d a b, wXW 0 6 (BitVec.ofNat 4 ty.code) 0 0]
  | .maxTyped h d a b ty => [wRRR h 0xc d a b, wXW 0 7 (BitVec.ofNat 4 ty.code) 0 0]
  | .negTyped h d a ty sat => [wRRR h 0xc d a 0, wXW 0 8 (BitVec.ofNat 4 ty.code) 0 (0#12 ++ BitVec.ofBool sat)]
  | .absTyped h d a ty sat => [wRRR h 0xc d a 0, wXW 0 9 (BitVec.ofNat 4 ty.code) 0 (0#12 ++ BitVec.ofBool sat)]
  | .mad h d a b c ty sat => [wRRR h 0xd d a b, wXW c 0 (BitVec.ofNat 4 ty.code) 0 (0#12 ++ BitVec.ofBool sat)]
  | .bfx h d a b ty => [wRRR h 0xe d a b, wXW 0 0 (BitVec.ofNat 4 ty.code) 0 0]
  | .bfi h d a b c ty => [wRRR h 0xe d a b, wXW c 1 (BitVec.ofNat 4 ty.code) 0 0]
  | .sel h d a b c ty => [wRRR h 0xf d a b, wXW c 0 (BitVec.ofNat 4 ty.code) 0 0]
  | .addImm h d a lit => [wRRR h 0x10 d a 0, (lit)]
  | .subImm h d a lit => [wRRR h 0x10 d a 1, (lit)]
  | .mulImm h d a lit => [wRRR h 0x10 d a 2, (lit)]
  | .andImm h d a lit => [wRRR h 0x10 d a 3, (lit)]
  | .orImm h d a lit => [wRRR h 0x10 d a 4, (lit)]
  | .xorImm h d a lit => [wRRR h 0x10 d a 5, (lit)]
  | .andnImm h d a lit => [wRRR h 0x10 d a 6, (lit)]
  | .shlImm h d a lit => [wRRR h 0x10 d a 7, (lit)]
  | .shrImm h d a lit => [wRRR h 0x10 d a 8, (lit)]
  | .sarImm h d a lit => [wRRR h 0x10 d a 9, (lit)]
  | .rotImm h d a lit => [wRRR h 0x10 d a 10, (lit)]
  | .minImm h d a lit => [wRRR h 0x10 d a 11, (lit)]
  | .minImmU h d a lit => [wRRR h 0x10 d a 12, (lit)]
  | .maxImm h d a lit => [wRRR h 0x10 d a 13, (lit)]
  | .maxImmU h d a lit => [wRRR h 0x10 d a 14, (lit)]
  | .movi h d imm => [wRI h 0x11 d imm]
  | .moviLit h d lit => [wRI h 0x12 d 0, lit]
  | .movhi h d lit => [wRI h 0x13 d 0, lit]
  | .setp h d a b c cond ty merge tbl => [wRRR h 0x18 d a b, wXW c (cond.setWidth 5) (BitVec.ofNat 4 ty.code) 0 (0#8 ++ BitVec.ofBool merge ++ tbl)]
  | .plog h d a b c tbl => [wRRR h 0x19 d a b, wXW c 0 0 0 (0#5 ++ tbl)]
  | .pmovToReg h d a => [wRRR h 0x1a d a 0]
  | .pmovToPred h d a => [wRRR h 0x1a d a 1]
  | .movs h d a => [wRRR h 0x1b d a 0]
  | .movsw h d a => [wRRR h 0x1b d a 1]
  | .bra h off => [wOFF h 0x1c off]
  | .call h off => [wOFF h 0x1d off]
  | .brx h a => [wRRR h 0x1e 0 a 0]
  | .callx h a => [wRRR h 0x1e 0 a 1]
  | .ret h => [wRRR h 0x1e 0 0 2]
  | .endFibre h => [wRRR h 0x1e 0 0 3]
  | .yield h => [wRRR h 0x1e 0 0 4]
  | .nap h a => [wRRR h 0x1e 0 a 5]
  | .nop h => [wRRR h 0x1e 0 0 6]
  | .trap h d => [wRRR h 0x1e d 0 7]
  | .loopReg h a last => [wRRR h 0x1f 0 a 0, (0#16 ++ last)]
  | .loopImm h cnt last => [wRRR h 0x1f 0 0 1, (cnt ++ last)]
  | .lbrk h n => [wRRR h 0x1f 0 0 2, (n)]
  | .fork h d off => [wRRR h 0x1f d 0 3, (off)]
  | .fadd h d a b rnd => [wRRR h 0x20 d a b, wXW 0 0 8 (BitVec.ofNat 3 rnd.code) 0]
  | .fsub h d a b rnd => [wRRR h 0x20 d a b, wXW 0 1 8 (BitVec.ofNat 3 rnd.code) 0]
  | .fmul h d a b rnd => [wRRR h 0x20 d a b, wXW 0 2 8 (BitVec.ofNat 3 rnd.code) 0]
  | .fdiv h d a b rnd => [wRRR h 0x20 d a b, wXW 0 5 8 (BitVec.ofNat 3 rnd.code) 0]
  | .ffma h d a b c rnd => [wRRR h 0x21 d a b, wXW c 0 8 (BitVec.ofNat 3 rnd.code) 0]
  | .fmin h d a b => [wRRR h 0x20 d a b, wXW 0 3 8 0 0]
  | .fmax h d a b => [wRRR h 0x20 d a b, wXW 0 4 8 0 0]
  | .frcp h d a rnd => [wRRR h 0x22 d a 0, wXW 0 0 8 (BitVec.ofNat 3 rnd.code) 0]
  | .fsqrt h d a rnd => [wRRR h 0x22 d a 0, wXW 0 1 8 (BitVec.ofNat 3 rnd.code) 0]
  | .frsq h d a rnd => [wRRR h 0x22 d a 0, wXW 0 2 8 (BitVec.ofNat 3 rnd.code) 0]
  | .frnd h d a rnd => [wRRR h 0x22 d a 0, wXW 0 3 8 (BitVec.ofNat 3 rnd.code) 0]
  | .fclass h d a ty => [wRRR h 0x22 d a 0, wXW 0 4 (BitVec.ofNat 4 ty.code) 0 0]
  | .fcmp h d a b c cond merge tbl => [wRRR h 0x23 d a b, wXW c (cond.setWidth 5) 8 0 (0#8 ++ BitVec.ofBool merge ++ tbl)]
  | .dcmp h d a b c cond merge tbl => [wRRR h 0x26 d a b, wXW c (cond.setWidth 5) 9 0 (0#8 ++ BitVec.ofBool merge ++ tbl)]
  | .fex2 h d a => [wRRR h 0x2e d a 0, wXW 0 0 8 0 0]
  | .flg2 h d a => [wRRR h 0x2e d a 0, wXW 0 1 8 0 0]
  | .fsin h d a => [wRRR h 0x2e d a 0, wXW 0 2 8 0 0]
  | .fcos h d a => [wRRR h 0x2e d a 0, wXW 0 3 8 0 0]
  | .ftanh h d a => [wRRR h 0x2e d a 0, wXW 0 4 8 0 0]
  | .dadd h d a b rnd => [wRRR h 0x24 d a b, wXW 0 0 9 (BitVec.ofNat 3 rnd.code) 0]
  | .dmul h d a b rnd => [wRRR h 0x24 d a b, wXW 0 1 9 (BitVec.ofNat 3 rnd.code) 0]
  | .dfma h d a b c rnd => [wRRR h 0x25 d a b, wXW c 0 9 (BitVec.ofNat 3 rnd.code) 0]
  | .hadd2 h d a b ty rnd => [wRRR h 0x27 d a b, wXW 0 0 (BitVec.ofNat 4 ty.code) (BitVec.ofNat 3 rnd.code) 0]
  | .hmul2 h d a b ty rnd => [wRRR h 0x27 d a b, wXW 0 1 (BitVec.ofNat 4 ty.code) (BitVec.ofNat 3 rnd.code) 0]
  | .hfma2 h d a b c ty rnd => [wRRR h 0x28 d a b, wXW c 0 (BitVec.ofNat 4 ty.code) (BitVec.ofNat 3 rnd.code) 0]
  | .cvt h d a ty rnd sat src => [wRRR h 0x2c d a 0, wXW 0 0 (BitVec.ofNat 4 ty.code) (BitVec.ofNat 3 rnd.code) (0#8 ++ BitVec.ofBool sat ++ BitVec.ofNat 4 src.code)]
  | .qnt h d a c rnd adj fmt => [wRRR h 0x2d d a 0, wXW c 0 8 (BitVec.ofNat 3 rnd.code) (0#7 ++ BitVec.ofBool adj ++ BitVec.ofNat 5 fmt.code)]
  | .dqnt h d a c fmt => [wRRR h 0x2d d a 0, wXW c 1 8 0 (0#8 ++ BitVec.ofNat 5 fmt.code)]
  | .rand h d ty => [wRRR h 0x2f d 0 0, wXW 0 0 (BitVec.ofNat 4 ty.code) 0 0]
  | .shfl h d a b c mode ty p => [wRRR h 0x30 d a b, wXW c (BitVec.ofNat 5 mode.code) (BitVec.ofNat 4 ty.code) 0 (0#6 ++ p)]
  | .vote h d a b c mode => [wRRR h 0x31 d a b, wXW c (BitVec.ofNat 5 mode.code) 0 0 0]
  | .spred h d a c op ty rnd scan => [wRRR h 0x32 d a 0, wXW c (BitVec.ofNat 5 op.code) (BitVec.ofNat 4 ty.code) (BitVec.ofNat 3 rnd.code) (0#12 ++ BitVec.ofBool scan)]
  | .qswap h d a ty dir => [wRRR h 0x33 d a 0, wXW 0 0 (BitVec.ofNat 4 ty.code) 0 (0#11 ++ dir)]
  | .qbc h d a ty lane => [wRRR h 0x33 d a 0, wXW 0 1 (BitVec.ofNat 4 ty.code) 0 (0#11 ++ lane)]
  | .ld h d a spc sz ord sc off => [wRRR h 0x34 d a 0, wXM spc sz ord sc 0 false off]
  | .st h a b spc sz ord sc off => [wRRR h 0x35 0 a b, wXM spc sz ord sc 0 false off]
  | .atom h d a b spc sz ord sc aop off => [wRRR h 0x36 d a b, wXM spc sz ord sc (BitVec.ofNat 4 aop.code) false off]
  | .red h a b spc sz ord sc aop off => [wRRR h 0x36 0 a b, wXM spc sz ord sc (BitVec.ofNat 4 aop.code) true off]
  | .fence h d a => [wRRR h 0x37 d a 0]
  | .efence h => [wRRR h 0x37 0 0 1]
  | .cpasync h d a b c bar ssp dsp => [wRRR h 0x38 d a b, wXW c 0 0 0 (0#6 ++ BitVec.ofBool bar ++ BitVec.ofNat 3 ssp.code ++ BitVec.ofNat 3 dsp.code)]
  | .gath h d a b c ssp fmt toq => [wRRR h 0x38 d a b, wXW c 1 0 0 (0#4 ++ BitVec.ofNat 3 ssp.code ++ BitVec.ofNat 5 fmt.code ++ BitVec.ofBool toq)]
  | .waitc h n mask => [wRRR h 0x39 0 0 0, wXW 0 0 0 0 (0#1 ++ n ++ mask)]
  | .ftest h d a => [wRRR h 0x39 d a 0, wXW 0 1 0 0 0]
  | .fcancel h d a => [wRRR h 0x39 d a 0, wXW 0 2 0 0 0]
  | .oqpop h d a n => [wRRR h 0x39 d a 0, wXW 0 3 0 0 (0#8 ++ n)]
  | .oqrel h a => [wRRR h 0x39 0 a 0, wXW 0 4 0 0 0]
  | .aslice h d a hd => [wRRR h 0x39 d a 0, wXW 0 5 0 0 (0#12 ++ BitVec.ofBool hd)]
  | .astop h => [wRRR h 0x39 0 0 0, wXW 0 6 0 0 0]
  | .ploop h a last => [wRRR h 0x39 0 a 0, wXW 0 7 0 0 (last)]
  | .afeed h d a b m kind => [wRRR h 0x39 d a b, wXW 0 8 0 0 (m ++ BitVec.ofNat 2 kind.code)]
  | .pwait h d n => [wRRR h 0x39 d 0 0, wXW 0 9 0 0 (0#7 ++ n)]
  | .barinit h a b => [wRRR h 0x3a 0 a b, wXW 0 0 0 0 0]
  | .bararr h a => [wRRR h 0x3a 0 a 0, wXW 0 1 0 0 0]
  | .barwt h a b => [wRRR h 0x3a 0 a b, wXW 0 2 0 0 0]
  | .barst h d a => [wRRR h 0x3a d a 0, wXW 0 3 0 0 0]
  | .cvdecl h c n => [wRRR h 0x3a 0 0 0, wXW c 4 0 0 (0#6 ++ n)]
  | .mma h d a b c sc s32 fr spSrc reuse x fmt hreg hd ssel sreg => [wRRR h 0x3b d a b, wXW c 0 0 0 (0#2 ++ BitVec.ofBool sc ++ BitVec.ofBool s32 ++ BitVec.ofBool fr ++ BitVec.ofBool spSrc ++ BitVec.ofBool reuse ++ BitVec.ofBool x ++ BitVec.ofNat 5 fmt.code), (0#15 ++ hreg ++ BitVec.ofBool hd ++ ssel ++ sreg)]
  | .accz h d => [wRRR h 0x3b d 0 0, wXW 0 1 0 0 0]
  | .accld h d a spc => [wRRR h 0x3b d a 0, wXW 0 2 8 0 (0#10 ++ BitVec.ofNat 3 spc.code)]
  | .accst h d a b rnd spc adj fmt => [wRRR h 0x3b d a b, wXW 0 3 0 (BitVec.ofNat 3 rnd.code) (0#4 ++ BitVec.ofNat 3 spc.code ++ BitVec.ofBool adj ++ BitVec.ofNat 5 fmt.code)]
  | .accrd h d a b => [wRRR h 0x3b d a b, wXW 0 4 0 0 0]
  | .qpush h d a b prio t n => [wRRR h 0x3c d a b, wXW 0 0 0 0 (0#1 ++ prio ++ BitVec.ofBool t ++ n)]
  | .qpop h d a n => [wRRR h 0x3c d a 0, wXW 0 1 0 0 (0#10 ++ n)]
  | .qpeek h d a c n => [wRRR h 0x3c d a 0, wXW c 2 0 0 (0#10 ++ n)]
  | .qcnt h d a => [wRRR h 0x3c d a 0, wXW 0 3 0 0 0]
  | .dcarm h a b c q => [wRRR h 0x3c 0 a b, wXW c 4 0 0 (0#6 ++ q)]
  | .dcdec h a => [wRRR h 0x3c 0 a 0, wXW 0 5 0 0 0]
  | .trig h => [wRRR h 0x3c 0 0 0, wXW 0 6 0 0 0]
  | .dwait h d => [wRRR h 0x3c d 0 0, wXW 0 7 0 0 0]
  | .beat h => [wRRR h 0x3c 0 0 0, wXW 0 8 0 0 0]
  | .evpost h a => [wRRR h 0x3c 0 a 0, wXW 0 9 0 0 0]
  | .evpop h d nb => [wRRR h 0x3c d 0 0, wXW 0 10 0 0 (0#12 ++ BitVec.ofBool nb)]
  | .guess h d a b c ty aidReg aid loc imm sw => [wRRR h 0x3c d a b, wXW c 16 (BitVec.ofNat 4 ty.code) 0 (0#2 ++ aidReg ++ BitVec.ofBool aid ++ BitVec.ofBool loc ++ BitVec.ofBool imm ++ BitVec.ofBool sw)]
  | .affirm h d a hd => [wRRR h 0x3c d a 0, wXW 0 17 0 0 (0#12 ++ BitVec.ofBool hd)]
  | .deny h d a b ty hd => [wRRR h 0x3c d a b, wXW 0 18 (BitVec.ofNat 4 ty.code) 0 (0#12 ++ BitVec.ofBool hd)]
  | .tagq h d a idx mode => [wRRR h 0x3c d a 0, wXW 0 19 0 0 (0#9 ++ idx ++ BitVec.ofNat 2 mode.code)]
  | .puts h d a b c lh lhd addSig sig spc => [wRRR h 0x3d d a b, wXW c 0 0 0 (lh ++ BitVec.ofBool lhd ++ BitVec.ofBool addSig ++ BitVec.ofBool sig ++ BitVec.ofNat 3 spc.code)]
  | .get h d a b c bar spc => [wRRR h 0x3d d a b, wXW c 1 0 0 (0#9 ++ BitVec.ofBool bar ++ BitVec.ofNat 3 spc.code)]
  | .radd h d a b c ty lh lhd spc => [wRRR h 0x3d d a b, wXW c 2 (BitVec.ofNat 4 ty.code) 0 (lh ++ BitVec.ofBool lhd ++ 0#2 ++ BitVec.ofNat 3 spc.code)]
  | .sigwt h d a b c p cond => [wRRR h 0x3d d a b, wXW c 3 0 0 (0#4 ++ p ++ BitVec.ofNat 2 cond.code)]
  | .want h d a b c spc life => [wRRR h 0x3d d a b, wXW c 4 0 0 (0#6 ++ BitVec.ofNat 3 spc.code ++ life)]
  | .announce h d a b c spc => [wRRR h 0x3d d a b, wXW c 5 0 0 (0#10 ++ BitVec.ofNat 3 spc.code)]
  | .twalk h d a tag port => [wRRR h 0x3d d a 0, wXW 0 6 0 0 (0#1 ++ tag ++ port)]
  | .permit h d a b => [wRRR h 0x3d d a b, wXW 0 7 0 0 0]
  | .cseq h d a b => [wRRR h 0x3d d a b, wXW 0 8 0 0 0]
  | .sysc h n => [wRRR h 0x3e 0 0 0, wXW 0 0 0 0 (0#6 ++ n)]
  | .rft h a norep mode => [wRRR h 0x3e 0 a 0, wXW 0 1 0 0 (0#9 ++ BitVec.ofBool norep ++ BitVec.ofNat 3 mode.code)]
  | .awrd h d a b c => [wRRR h 0x3e d a b, wXW c 2 0 0 0]
  | .awwr h d a b c => [wRRR h 0x3e d a b, wXW c 3 0 0 0]
  | .hstop h d a grp => [wRRR h 0x3e d a 0, wXW 0 4 0 0 (0#12 ++ BitVec.ofBool grp)]
  | .hresume h a grp => [wRRR h 0x3e 0 a 0, wXW 0 5 0 0 (0#12 ++ BitVec.ofBool grp)]
  | .brkp h n => [wRRR h 0x3e 0 0 0, wXW 0 8 0 0 (0#5 ++ n)]
  | .trace h a b two id => [wRRR h 0x3e 0 a b, wXW 0 9 0 0 (0#4 ++ BitVec.ofBool two ++ id)]
  | .mark h m => [wRRR h 0x3e 0 0 0, wXW 0 10 0 0 (m)]
  | .rep stop n sd sa sb sc two => [wOFF ⟨0, stop, false⟩ 0x3f (0#3 ++ n ++ BitVec.ofBool sd ++ BitVec.ofBool sa ++ BitVec.ofBool sb ++ BitVec.ofBool sc ++ BitVec.ofBool two ++ 0#7)]
  | .inv h t x k ty y dec tol iter => [wOFF h 0x3f (1#3 ++ t ++ x ++ k ++ BitVec.ofNat 2 ty.code), (y ++ BitVec.ofBool dec ++ tol ++ iter ++ 0#13)]
  | .jmpt h idx => [wOFF h 0x3f (1#1 ++ idx)]
  | .padw h => [wOFF h 0x3f (2#3 ++ 0#18)]
  | _ => []

/-- The words of an instruction as the decoder reads them, missing extension words read as 0. -/
def rawOf (ws : List Word) : Raw := ⟨ws.getD 0 0, ws.getD 1 0, ws.getD 2 0⟩

/-- The instruction this decoder reads from bits numbered as spec/opcode_table.json numbers them: bit 0 is the least
significant bit of the first word, later words count on from it, and every bit above `nbits` is 0. -/
def decodeTableWord (nbits w : Nat) : Option Instr :=
  let v := w % 2 ^ nbits
  match decode ⟨BitVec.ofNat 32 v, BitVec.ofNat 32 (v / 2 ^ 32), BitVec.ofNat 32 (v / 2 ^ 64)⟩ with
  | .ok i => some i
  | .error _ => none

end Sys2Proof
end

