-- ==== Sys2Proof/Machine/Scopes.lean ====
section
/-! DEFINITION. Scopes: their instances, which recent writes an agent need not see, what a release carries and an acquire
brings, fences (R194 to R200; log 6). -/

namespace Sys2Proof.Machine

/-! ## Instances (R194, R195) -/

/-- The scope that a fence or a queue names (R168, R214). -/
def scopeOf : Nat → Scope
  | 0 => .grp | 1 => .clu | 2 => .die | 3 => .pkg | _ => .sys
/-- Where a fibre counts as an agent: in its cohort's home cluster, wherever its group was resumed (R278); else where it stands. -/
def State.locus (s : State) (f : Fibre) : Locus :=
  match (s.group? f.grp).bind fun g => (s.job? g.job).map fun j => j.home (g.gid / max j.cohort 1) with
  | some c => ⟨f.grp, c / 8, c % 8⟩
  | none => ⟨f.grp, (s.site f).die, (s.site f).clu⟩
/-- Whether b lies in a's instance of a scope. -/
def inInstance (sc : Scope) (a b : Locus) : Bool :=
  match sc with
  | .grp => a.grp == b.grp
  | .clu => a.die == b.die && a.clu == b.clu
  | .die => a.die == b.die
  | .pkg => a.die < 4 && b.die < 4
  | .sys => true
/-- Agents outside the package, in no instance but that of .sys: the requester of a function of the host port, and another package. -/
def hostLocus (fn : Nat) : Locus := ⟨2 ^ 32 + fn, 4, 32⟩
def packageLocus (pkg : Nat) : Locus := ⟨2 ^ 33 + pkg, 5, 33⟩
/-- Whether two strong accesses, or fences, reach each other's agent. -/
def mutuallyScoped (sa : Scope) (a : Locus) (sb : Scope) (b : Locus) : Bool := inInstance sa a b && inInstance sb b a
/-- The scope an access acts at: one to .sp at .grp, whatever it names (R195). -/
def Access.reach (a : Access) : Scope := if a.space == .sp then .grp else a.scope
/-- The scope an access is strong at; none for a weak one. ATOM and RED of order 0 act as .rlx (R167, R196). -/
def Access.strength (a : Access) : Option Scope :=
  if a.order == .weak && !(a.kind == .atom || a.kind == .red) then none else some a.reach

/-! ## Sets of writes -/

/-- The numbers that still stand for a write some agent may not see. -/
def State.live (s : State) (v : List Nat) : List Nat := v.filter fun i => s.past.any (·.id == i)
/-- A release joins a list of them, one of each scope and agent. -/
def addSync (l : List Sync) (x : Sync) : List Sync :=
  match l.find? fun e => e.scope == x.scope && e.who == x.who with
  | some _ => l.map fun e => if e.scope == x.scope && e.who == x.who then { e with view := joinView e.view x.view } else e
  | none => l ++ [x]
/-- The writes that the releases of a list bring to an acquire at a scope. -/
def acquired (l : List Sync) (sc : Scope) (me : Locus) : List Nat :=
  l.foldl (fun v e => if mutuallyScoped e.scope e.who sc me then joinView v e.view else v) []
/-- A fibre sees more writes. -/
def Fibre.join (f : Fibre) (v : List Nat) : Fibre := { f with seen := joinView f.seen v }
/-- The writes that happen before a word of a fibre: those it had seen, and its own up to its write-drain count there, some of which may
have landed since (R201, R204). -/
def State.viewAt (s : State) (k seq : Nat) (view : List Nat) : List Nat :=
  joinView view ((s.past.filter fun p => p.fib == k && p.op.isNone && p.seq ≤ seq).map (·.id))
/-- An operation's own writes (R172, R206). -/
def State.viewOfOp (s : State) (op : Nat) : List Nat := (s.past.filter fun p => p.op == some op).map (·.id)

/-! ## Releases and acquires that name no location of their own (R175, R199, R204, R205, R220, R330) -/

/-- What a kind of release has published. -/
def State.published (s : State) (x : Pub) : List Nat := ((s.pubs.find? fun e => e.1 == x).map (·.2)).getD []
/-- A release adds to it. -/
def State.publish (s : State) (x : Pub) (v : List Nat) : State :=
  let v := s.live (joinView (s.published x) v)
  let rest := s.pubs.filter fun e => e.1 != x
  { s with pubs := if v.isEmpty then rest else (x, v) :: rest }
/-- An acquire takes it up. -/
def State.acquire (s : State) (x : Pub) (f : Fibre) : Fibre := f.join (s.published x)

/-! ## Reading -/

/-- Whether a write put a byte into a range. -/
def Past.meets (p : Past) (loc n : Nat) : Bool := p.old.any fun c => loc ≤ c.1 && c.1 < loc + n
/-- Whether a write went into a scratchpad or a control core's store: its banks serve it to every reader at once, unless it is an
engine's piece (R146, R203). -/
def Past.banked (p : Past) : Bool := p.op.isNone && p.old.any fun c => 2 ^ 54 ≤ c.1
/-- Whether a load need not see a write: another fibre's or an engine's, none that its order binds it to, and, where it is an acquire
mutually scoped with it, not one strong at a scope that holds both (R197, R200, R203). -/
def State.mayMiss (s : State) (k : Nat) (f : Fibre) (a : Access) (p : Past) : Bool :=
  (p.fib != k || p.op.isSome) && !p.banked && !f.seen.contains p.id &&
    !(a.order == .acq && match p.scope with | some sc => mutuallyScoped sc p.who a.reach (s.locus f) | none => false)
/-- The writes into a load's range, newest first, that it misses, and those that it does not: how many of the newest it misses is
free. -/
def State.splitPast (s : State) (k : Nat) (f : Fibre) (a : Access) (loc : Nat) : List Past × List Past :=
  let hits := s.past.filter (·.meets loc a.size)
  let free := hits.takeWhile (s.mayMiss k f a)
  let n := if free.isEmpty then 0 else Config.readsOld k s.looked % (free.length + 1)
  (free.take n, hits.drop n)
/-- Bytes with some writes taken back, newest first. -/
def takeBack (loc : Nat) (bs : List Byte) (l : List Past) : List Byte :=
  l.foldl (fun bs p => bs.mapIdx fun i b => (look (loc + i) p.old).getD b) bs
/-- The writes of a list, newest first, that supply a byte of a range. -/
def supplying (loc n : Nat) : List Past → List Nat → List Past
  | [], _ => []
  | p :: l, taken =>
    if p.old.any fun c => loc ≤ c.1 && c.1 < loc + n && !taken.contains c.1 then p :: supplying loc n l (p.old.map (·.1) ++ taken)
    else supplying loc n l taken
/-- What a fibre knows once it has read what the writes `l` left in a range: it goes back before none of them (R197), and it has met
their releases (R198). -/
def State.observe (s : State) (f : Fibre) (a : Access) (loc : Nat) (l : List Past) : Fibre :=
  let met := (supplying loc a.size l []).flatMap (·.rels)
  let got := if a.order == .acq then acquired met a.reach (s.locus f) else []
  let f := f.join (joinView (l.map (·.id)) got)
  { f with acqs := (met.filter fun e => !e.view.all f.seen.contains).foldl addSync f.acqs }

/-! ## Writing -/

/-- A write enters the list of recent ones: what it replaced in `before`, the releases it carries, a release of its own (R198), those of a
fence before it, and for an ATOM or RED those of the value it replaces. Its fibre has seen it, unless an engine writes it (R203). -/
def State.notePast (s before : State) (k : Nat) (f : Fibre) (strong rel : Option Scope) (chain : List Sync) (loc n seq : Nat)
    (op : Option Nat) : State :=
  let me := s.locus f
  let own : List Sync := match rel with | some sc => [⟨sc, me, joinView f.seen [s.wrote]⟩] | none => []
  let fenced : List Sync := f.rels.map fun e => ⟨e.1, me, e.2⟩
  let rels := (own ++ fenced ++ chain).foldl addSync []
  let cells := (List.range n).map fun i => (loc + i, Memory.get before.mem (loc + i))
  let s : State := { s with past := (⟨s.wrote, cells, k, me, seq, op, strong, rels⟩ :: before.past).take 64, wrote := s.wrote + 1 }
  if op.isSome then s else s.modFibre k fun f => { f with seen := s.live (joinView f.seen [s.wrote - 1]) }
/-- A write from outside the package enters the list: strong at .sys, and a release there of what its agent is taken to know (log 6). -/
def State.noteOutside (s before : State) (who : Locus) (view : List Nat) (loc n : Nat) : State :=
  let cells := (List.range n).map fun i => (loc + i, Memory.get before.mem (loc + i))
  { s with past := (⟨s.wrote, cells, 2 ^ 32, who, 0, none, some .sys, [⟨.sys, who, joinView view [s.wrote]⟩]⟩ :: before.past).take 64
           wrote := s.wrote + 1 }
/-- The releases that an ATOM or RED of a range hands on: those of every write that comes before it in coherence order (R198). -/
def State.carriedBy (s : State) (loc n : Nat) : List Sync := (s.past.filter (·.meets loc n)).flatMap (·.rels)

/-! ## The host's agents (R208, R312) -/

/-- A .sys store that has left: what it releases the host no longer misses. -/
def State.releaseToHost (s : State) : State :=
  let got := acquired ((s.past.head?.map (·.rels)).getD []) .sys (hostLocus 0)
  s.modPkg fun p => { p with hostSeen := s.live (joinView p.hostSeen got) }
/-- A posted write of a function's requester: it releases the requester's earlier ones, and what the host had seen. -/
def State.hostStore (s : State) (fn loc : Nat) (bs : List Byte) : State :=
  let own := (s.past.filter fun p => p.who == hostLocus fn).map (·.id)
  (s.store loc bs).noteOutside s (hostLocus fn) (joinView s.pkg.hostSeen own) loc bs.length
/-- An inbound read: it misses no write of its own requester and none that was released towards the host; of others how many of the newest
it misses is free. -/
def State.hostLoad (s : State) (fn loc n : Nat) : List Byte × State :=
  let hits := s.past.filter (·.meets loc n)
  let free := hits.takeWhile fun p => p.who != hostLocus fn && !s.pkg.hostSeen.contains p.id
  let m := if free.isEmpty then 0 else Config.readsOld (2 ^ 32 + fn) s.looked % (free.length + 1)
  let kept := hits.drop m
  let got := acquired ((supplying loc n kept []).flatMap (·.rels)) .sys (hostLocus fn)
  (takeBack loc (s.getBytes loc n) (free.take m), ({ s with looked := s.looked + 1 } : State).modPkg fun p =>
    { p with hostSeen := s.live (joinView p.hostSeen (joinView (kept.map (·.id)) got)) })

/-! ## Fences (R198, R199) -/

/-- A scope's instance, by number. -/
def instanceOf (sc : Scope) (a : Locus) : Nat :=
  match sc with
  | .grp => a.grp
  | .clu => cluIx a.die a.clu
  | .die => a.die
  | .pkg => 0
  | .sys => 0
/-- A fence at a scope: it acquires what earlier reads met and releases what the fibre has seen; a .sc fence also takes up what the
instance's earlier ones published, and publishes. -/
def State.fenceAt (s : State) (k : Nat) (f : Fibre) (sc : Scope) (seq : Bool) : State :=
  let me := s.locus f
  let f := f.join (acquired f.acqs sc me)
  let f := if seq then s.acquire (.fence sc (instanceOf sc me)) f else f
  let f := { f with acqs := f.acqs.filter fun e => !e.view.all f.seen.contains
                    rels := (sc, f.seen) :: f.rels.filter fun e => e.1 != sc }
  let s := s.setFibre k f
  if seq then s.publish (.fence sc (instanceOf sc me)) f.seen else s

end Sys2Proof.Machine
end

