-- ==== Sys2Proof/Machine/Ops.lean ====
section
/-! DEFINITION. The named operations on a fibre's registers and predicates, on operations in flight and their handles,
and TAKING A TRAP: the user route (R262 to R264), the system route (R265, R266), and the return (R270). -/

namespace Sys2Proof.Machine

/-! ## Registers and predicates -/

/-- A register's contents. -/
def Fibre.reg (f : Fibre) (r : Nat) : Word := f.regs.getD r 0
/-- A predicate; p0 reads 1 (R2). -/
def Fibre.pred (f : Fibre) (p : Nat) : Bool := p == 0 || f.preds.getLsbD p
/-- A register written: poison clears (R161), a pending handle is detached (R170). -/
def Fibre.setReg (f : Fibre) (r : Nat) (v : Word) : Fibre :=
  { f with regs := f.regs.set r v, poison := f.poison.filter (·.1 != r), handles := f.handles.filter (·.1 != r) }
/-- Registers written in order. -/
def Fibre.setRegs (f : Fibre) : List (Nat × Word) → Fibre
  | [] => f
  | (r, v) :: l => (f.setReg r v).setRegs l
/-- Consecutive registers written. -/
def Fibre.setRun (f : Fibre) : Nat → List Word → Fibre
  | _, [] => f
  | r, v :: vs => (f.setReg r v).setRun (r + 1) vs
/-- A bit of the predicate word set or cleared; writes to p0 are discarded (R2). -/
def predSet (ps : BitVec 96) (p : Nat) (v : Bool) : BitVec 96 :=
  if p = 0 then ps
  else if v then ps ||| BitVec.ofNat 96 (2 ^ p) else ps &&& ~~~(BitVec.ofNat 96 (2 ^ p))
def Fibre.setPred (f : Fibre) (p : Nat) (v : Bool) : Fibre := { f with preds := predSet f.preds p v }
def Fibre.setPreds (f : Fibre) : List (Nat × Bool) → Fibre
  | [] => f
  | (p, v) :: l => (f.setPred p v).setPreds l
/-- A register made poisoned. -/
def Fibre.poisonReg (f : Fibre) (k : PoisonKind) (r : Nat) : Fibre :=
  { f with poison := f.poison.filter (·.1 != r) ++ [(r, k)] }
/-- A register made pending on an operation; it is written, so its poison clears (R170). -/
def Fibre.setHandle (f : Fibre) (r op : Nat) : Fibre :=
  { f with handles := f.handles.filter (·.1 != r) ++ [(r, op)], poison := f.poison.filter (·.1 != r) }
/-- The operation a register is pending on. -/
def Fibre.handle? (f : Fibre) (r : Nat) : Option Nat := (f.handles.find? fun h => h.1 == r).map (·.2)
/-- The register as a word reads it: inside a producer's latency, without the checking scoreboard, the new value or the
one from before the producer, which of the two is free (R41, log 2). -/
def Fibre.read (f : Fibre) (k r : Nat) : Word :=
  match f.flight.find? fun e => e.slot == r with
  | none => f.reg r
  | some e => if Config.shortReadsNew k f.issued r then f.reg r else e.old
/-- A pair as a word reads it. -/
def Fibre.readPair (f : Fibre) (k r : Nat) : DWord := joinPair (f.read k r) (f.read k (r + 1))
/-- What the choice between a predicate's values goes by: a PMOV block in flight, the 31 or 32 results of one word, is one write and is
seen whole or not at all (R104); any other predicate goes by its own number. -/
def Fibre.predKey (f : Fibre) (p left : Nat) : Nat :=
  if 31 ≤ (f.flight.filter fun e => 128 ≤ e.slot && (e.slot - 128) / 32 == p / 32 && e.left == left).length then 256 + p / 32 else 128 + p
/-- A predicate as a word reads it. -/
def Fibre.readPred (f : Fibre) (k p : Nat) : Bool :=
  match f.flight.find? fun e => e.slot == 128 + p with
  | none => f.pred p
  | some e => if Config.shortReadsNew k f.issued (f.predKey p e.left) then f.pred p else e.old.getLsbD 0

/-! ## Counters of the asynchronous classes (R170) -/

def Fibre.oc (f : Fibre) : Cls → BitVec 8
  | .cp => f.occp | .mx => f.ocmx | .ga => f.ocga | .fx => f.ocfx | .none => 0
def Fibre.setOc (f : Fibre) (c : Cls) (v : BitVec 8) : Fibre :=
  match c with
  | .cp => { f with occp := v } | .mx => { f with ocmx := v } | .ga => { f with ocga := v } | .fx => { f with ocfx := v }
  | .none => f

/-! ## Operations in flight -/

/-- A checkpoint taken while a register was pending saves what its operation leaves there, if it is pending still as that retires (log 12). -/
def Checkpoint.settled (c : Checkpoint) (r op : Nat) (v : Word) : Checkpoint :=
  if op < c.num && (c.regs.getD r none).isSome then { c with regs := c.regs.set r (some v) } else c
/-- The place of a register's word in a checkpoint that has been written out (R143). -/
def Checkpoint.wordAt (c : Checkpoint) (base r : Nat) : Nat := base + 4 * ((c.regs.take r).filter (·.isSome)).length
/-- A register pending on an operation takes its status, in the fibre's checkpoint too. -/
def State.settleReg (s : State) (k r op : Nat) (v : Word) : State :=
  let s := match (s.fibre? k).bind (·.ckpt) with
    | some c => match c.spilled with
      | some a => if c.settled r op v != c then s.store (c.wordAt a r) (wordBytes [v]) else s
      | none => s
    | none => s
  s.modFibre k fun f => { f.setReg r v with ckpt := f.ckpt.map fun c => c.settled r op v }

/-- An operation retires: its reads and writes happen before what its fibre does from now on (R202, log 6), its fibre's counter falls, every register pending on it takes the status code, every
assumption that watches it is told (R170, R291). -/
def State.retire (s : State) (o : Op) (st : Status) : State :=
  let s := s.dropOp o.id
  let s := { s with dies := s.dies.map fun d => (d.1, { d.2 with slots := d.2.slots.map fun e =>
    if e.2.op == o.id && e.2.auto && e.2.state == .open && e.2.watch.isNone then (e.1, { e.2 with watch := some st }) else e }) }
  if o.gone then s
  else
    let mine := (s.past.filter fun p => p.op == some o.id).map (·.id)
    let s := s.modFibre o.fib fun f => { f.setOc o.cls (f.oc o.cls - 1) with seen := s.live (joinView (joinView f.seen mine) o.met) }
    (((s.fibre? o.fib).map (·.handles)).getD [] |>.filter fun h => h.2 == o.id).foldl
      (fun s h => s.settleReg o.fib h.1 o.id (w32 (statusNum st))) s
/-- The finished operations at the head of a fibre's class retire, in issue order (R170). -/
def State.retireHead (s : State) (fib : Nat) (c : Cls) : State :=
  ((s.ops.filter fun o => o.fib == fib && o.cls == c).takeWhile fun o => o.done.isSome).foldl
    (fun s o => s.retire o (o.done.getD .ok)) s
/-- An operation finishes with a status and retires when its turn comes; one without a counter retires at once. -/
def State.finishOp (s : State) (id : Nat) (st : Status) : State :=
  match s.op? id with
  | none => s
  | some o =>
    match o.cls with
    | .none => s.retire o st
    | c => (s.modOp id fun o => { o with done := some st }).retireHead o.fib c

/-! ## Safe points (R353, R354) -/

/-- Bytes of a job's address on a die, as hardware looks them up; no right is checked. -/
def State.peek (s : State) (die job va n : Nat) : Option (List Byte) :=
  match s.walk die job va with
  | .leaf t => some (s.getBytes (leafLoc t die va) n)
  | _ => none
/-- A safe-point entry. -/
structure SafePoint where
  obj  : Nat
  ord  : Nat
  stop : Bool
  live : Nat
  deriving DecidableEq, Repr
/-- The entry with a byte offset in a sorted table (R353). -/
def State.searchTable (s : State) (die job table off : Nat) : Nat → Nat → Nat → Option (List Byte)
  | 0, _, _ => none
  | fuel + 1, lo, hi =>
    if hi ≤ lo then none
    else
      let mid := (lo + hi) / 2
      match s.peek die job (table + 32 * mid) 32 with
      | none => none
      | some e =>
        let o := leNat (e.take 4)
        if o = off then some e
        else if o < off then s.searchTable die job table off fuel (mid + 1) hi
        else s.searchTable die job table off fuel lo mid
/-- The directory entry that covers an address (R354). DESIGN CHOICE: a zero field of an entry that is not zero is ignored, as no status
exists that could report it (R6, log 33). -/
def State.searchDir (s : State) (die job dir addr : Nat) : List Nat → Option (Nat × Nat × Nat × Nat)
  | [] => none
  | i :: is =>
    match s.peek die job (dir + 32 * i) 32 with
    | none => none
    | some e =>
      let base := leNat (e.take 8)
      let len := leNat ((e.drop 8).take 8)
      if base ≤ addr && addr < base + len then
        some (i, base, leNat ((e.drop 16).take 8), leNat ((e.drop 24).take 4))
      else s.searchDir die job dir addr is
/-- The safe-point entry of a code address of a job. -/
def State.safePoint (s : State) (die job addr : Nat) : Option SafePoint :=
  match s.job? job with
  | none => none
  | some j =>
    if j.save = 0 then none
    else match s.searchDir die job j.save.toNat addr (List.range 128) with
      | none => none
      | some (i, base, table, n) =>
        match s.searchTable die job table (addr - base) 33 0 n with
        | none => some ⟨i, 0xFFFFFF, false, 2 ^ 128 - 1⟩
        | some e => some ⟨i, leNat ((e.drop 4).take 3), (e.getD 7 0).getLsbD 0, leNat ((e.drop 8).take 16)⟩
/-- The address of the word at a resumption point; a header's own address where nothing of the clause is latched. -/
def RP.addr (p : RP) : Nat := p.hdr.toNat + 4 + 4 * p.idx
/-- The safe-point ordinal of a resumption point, 0xFF_FFFF where it has none. -/
def State.ordAt (s : State) (f : Fibre) (p : RP) : BitVec 24 :=
  match s.safePoint (s.site f).die (s.jobOf f) p.addr with
  | some e => BitVec.ofNat 24 e.ord
  | none => 0xFFFFFF
/-- %spo for a site (R263). -/
def State.spoAt (s : State) (f : Fibre) (p : RP) : Word :=
  match s.safePoint (s.site f).die (s.jobOf f) p.addr with
  | some e => w32 (e.obj <<< 24 ||| e.ord)
  | none => 0xFFFFFFFF

/-! ## Fatal errors -/

/-- A core fatal error in a handler fibre's register, by the register's linear index, or in a handler fibre's trap: the core stops issue,
and each resident group's job takes a job fault (R161, R163, R267, R279). -/
def State.coreFatal (s : State) (core index fid : Nat) : State :=
  let s := s.logCore core 0 index 8 5 0 fid
  let s := s.modCore core fun c => { c with dead := true }
  let jobs := (s.groups.filter fun g => coreIx g.die g.clu g.core == core && !g.freed && !g.out).map (·.job)
  let s := s.mapFibres fun _ f => if (s.site f).coreIx == core then f.hold s.clk .fault else f
  jobs.foldl (fun s j => s.faultJob j 4) s
/-- A die fatal error: issue stops on every core of the die, and each job with work there takes a fault: groups on it, or groups still to
be placed there (R253). -/
def State.dieFatal (s : State) (die : Nat) : State :=
  let s := s.modDie die fun d => { d with dead := true }
  let waiting := (s.jobs.mapIdx fun i j => (i + 1, j)).filter fun p => p.2.status.isNone && p.2.next.any fun c => c.1 / 8 == die && c.2 < p.2.groups
  let jobs := (s.groups.filter fun g => g.die == die && !g.freed && !g.out).map (·.job) ++ waiting.map (·.1)
  let s := s.mapFibres fun _ f => if (s.site f).die == die then f.hold s.clk .fault else f
  jobs.foldl (fun s j => s.faultJob j 5) s
/-- An access-slice fault (R156), of an uncorrectable register by its linear index: the context stops, the core log gets a record,
ASLICE's future completes FAULT. -/
def State.sliceFaultAt (s : State) (g index : Nat) : State :=
  match s.group? g with
  | none => s
  | some grp =>
    match grp.slice with
    | none => s
    | some sl =>
      let s := s.logCore (coreIx grp.die grp.clu grp.core) 0 index 5 4 grp.rgi 0xFFFF
      let s := s.modGroup g fun x => { x with slice := some { sl with state := .faulted } }
      let s := s.modFibre sl.fib fun f => { f with run := .ended, wait := none }
      s.finishOp sl.op .fault
/-- An access-slice fault of another cause. -/
def State.sliceFault (s : State) (g : Nat) : State := s.sliceFaultAt g 0

/-! ## Taking a trap -/

/-- What a trap meets before it is taken (R58, R78, R259, R267, R156): a helper halts before the word, a tainted fibre
stalls, a handler fibre's trap is fatal to its core, a Pacer context takes an access-slice fault. -/
def State.barTrap (s : State) (k : Nat) (f : Fibre) : Option State :=
  if f.isHelper then some (s.setFibre k { f with run := .halted, wait := none, arrive := none })
  else if f.isPacer then some (s.sliceFault f.grp)
  else if f.tainted then some (s.setFibre k { f with run := .waiting .tag, woken := false })
  else if f.isHandler then some (s.coreFatal (s.site f).coreIx 0 f.fid)
  else none
/-- Whether an address can be a clause header (R44, R264). -/
def badHeader (a : DWord) : Bool := a.extractLsb' 0 2 != 0#2 || a.extractLsb' 57 7 != 0#7
/-- Whether a core's instruction cache holds a word. -/
def State.cached (s : State) (core job : Nat) (a : DWord) : Option Word :=
  ((s.core core).icache.find? fun e => e.1 == job && e.2.1 == a).map (·.2.2)
/-- Where a trap finds its fibre: a trap inside an INV routine abandons the evaluation and names INV's first word, as R52 says
of stall-short (log 12). -/
def Fibre.trapPoint (f : Fibre) (p : RP) : RP := match f.inv with | some v => v.at_ | none => p
/-- The latched header of a point's clause, none where the point is the header itself. -/
def State.headerAt (s : State) (f : Fibre) (p : RP) : Option Word :=
  if p.hdr == f.rp.hdr then f.hdr else s.cached (s.site f).coreIx (s.jobOf f) p.hdr
/-- The fibre at the start of its handler (R262): the trap registers written, the point saved, nothing else changed. A step that
was past its first word ends before the handler's first stop site (R89). -/
def Fibre.enterHandler (f : Fibre) (x : TrapRegs) (at_ : RP) (after : Bool) (hdr : Option Word) (uhandler : DWord) : Fibre :=
  { f with xr := x, ret := some ⟨at_, after, f.rep.isSome, x.cls == 0x13, hdr⟩, inH := true, rp := ⟨uhandler, 0⟩, hdr := none, rep := none,
           inv := none, wait := none, run := .ready, reported := false, walked := none, passCmp := false, owed := none }
/-- A user trap: the fibre branches to its group's %uhandler (R262), or its job takes a job fault (R264). -/
def State.userTrap (s : State) (k : Nat) (x : TrapRegs) (at_ : RP) (after : Bool) : State :=
  match s.fibre? k with
  | none => s
  | some f =>
    match s.barTrap k f with
    | some s => s
    | none =>
      let at_ := f.trapPoint at_
      let x := { x with spo := s.spoAt f at_ }
      let u := ((s.group? f.grp).map (·.uhandler)).getD 0
      if f.inH || u = 0 || badHeader u then
        (s.setFibre k { f with xr := x, rp := at_, inv := none, wait := none, owed := none, run := .stopped, holds := [.fault], stopClk := s.clk }).faultJob
          (s.jobOf f) 3
      else s.setFibre k (f.enterHandler x at_ after (s.headerAt f at_) u)
/-- The trap registers of a decode trap, and of every cause that R56 describes by its word (R56). -/
def wordTrap (f : Fibre) (w0 w1 : Word) (cause : Nat) : TrapRegs :=
  { f.xr with opc := w0, opd := (w0 >>> 14) &&& 0x7F, opa := (w0 >>> 7) &&& 0x7F, opb := w0 &&& 0x7F, opi := w1, cls := w32 cause }

/-- A trap record (R266). -/
def State.trapRecord (s : State) (f : Fibre) (fib : Option Nat) (kind code : Nat) (at_ : RP) (w5 w6 : Word) : TrapRec :=
  let rgi := ((s.group? f.grp).map (·.rgi)).getD 0
  let id := match fib with | some _ => f.fid | none => 0x3FF
  { words := [w32 (kind <<< 24 ||| code <<< 16 ||| rgi <<< 12 ||| id), w32 (s.jobOf f), loWord at_.hdr, hiWord at_.hdr,
      w32 ((s.ordAt f at_).toNat <<< 8 ||| f.replay.length <<< 4 ||| at_.idx), w5, w6, w32 s.clk],
    fib := fib, grp := f.grp }
/-- A record enters a core's trap queue of 64, or waits for a place in it (R265). -/
def Core.pushTrap (c : Core) (r : TrapRec) : Core :=
  if c.trapWait.isEmpty && c.trapq.length < 64 then { c with trapq := c.trapq ++ [r] } else { c with trapWait := c.trapWait ++ [r] }
/-- Records that wait take the places that are free, oldest first (R265). -/
def Core.refillTraps (c : Core) : Core :=
  { c with trapq := c.trapq ++ c.trapWait.take (64 - c.trapq.length), trapWait := c.trapWait.drop (64 - c.trapq.length) }
/-- A system trap: a record goes to the core's handler slot and the fibre stays stopped (R265); with the queue full it stays
stopped before its word and its record enters when a place frees. A fibre with a task in service posts event 0x03 first (R219). -/
def State.systemTrap (s : State) (k kind code : Nat) (at_ : RP) (w5 w6 : Word) : State :=
  match s.fibre? k with
  | none => s
  | some f =>
    match s.barTrap k f with
    | some s => s
    | none =>
      let core := (s.site f).coreIx
      let at_ := f.trapPoint at_
      let rec8 := s.trapRecord f (some k) kind code at_ w5 w6
      let f' := { f with xr := { f.xr with spo := s.spoAt f at_ }, rp := at_, hdr := s.headerAt f at_, inv := none, wait := none,
                         run := .stopped, stopIn := none, holds := f.holds ++ [.trap], stopClk := s.clk, reported := false, walked := none }
      let s := s.setFibre k f'
      match f.service.reverse with
      | [] => s.modCore core (·.pushTrap rec8)
      | e :: l => (l.reverse.foldl (fun s x => s.postFibre f (x.2.words.getD 6 0).toNat 0x03 .ok .none) s).postFibre f
          (e.2.words.getD 6 0).toNat 0x03 .ok (.deliver core rec8)

/-! ## Replay lists (R260, R261) -/

/-- The system kind that delivers a list, with the first record that gives it; none where the user route is taken. -/
def deliverKind (l : List Replay) : Option (Nat × Replay) :=
  let pick := fun (k : MemKind) (n : Nat) => (l.find? fun r => r.kind == k).map fun r => (n, r)
  match pick .translation 1, pick .protection 2, pick .accessTable 3, pick .dataError 8 with
  | some x, _, _, _ => some x
  | none, some x, _, _ => some x
  | none, none, some x, _ => some x
  | none, none, none, x => x
/-- A nonempty list is delivered at a word (R261). -/
def State.deliver (s : State) (k : Nat) (at_ : RP) (w0 w1 : Word) : State :=
  match s.fibre? k with
  | none => s
  | some f =>
    match deliverKind f.replay with
    | some (n, r) => s.systemTrap k n f.replay.length at_ (loWord r.acc.addr) (hiWord r.acc.addr)
    | none =>
      match f.replay with
      | [] => s
      | r :: _ =>
        let x := { wordTrap f w0 w1 0x1B with opd := w32 (kindNum r.kind), opa := w32 f.replay.length }
        s.userTrap k { x with opb := loWord r.acc.addr, opi := hiWord r.acc.addr &&& 0x1FFFFFF } at_ false

/-! ## Return from a trap (R270) -/

/-- The fibre continues at a resumption point: its clause goes on without a new wait, a REP at the point resumes with the repeats that %rc
holds, which may be none (R43, R50). -/
def Fibre.resumeAt (f : Fibre) (p : RP) (hdr : Option Word) (rep : Bool) : Fibre :=
  { f with rp := p, hdr := hdr, rep := if rep then some p else none, run := .ready, wait := none }
/-- The fibre continues at a clause header (R43). -/
def Fibre.jump (f : Fibre) (a : DWord) : Fibre := { f with rp := ⟨a, 0⟩, hdr := none, rep := none, run := .ready }

end Sys2Proof.Machine
end

