-- ==== Sys2Proof/Machine/Issue.lean ====
section
/-! DEFINITION. What the issue of a word needs of it: its head (R35), how many words it fills (R31), its fixed latency
(R92, R116), the registers and predicates its result lands in. -/

namespace Sys2Proof

/-- The stall count, stop bit and guard bit of a word (R35); REP has stall 0 and G 0 (R49). -/
def Instr.head : Instr → Head
  | .add h _ _ _ => h
  | .sub h _ _ _ => h
  | .mul h _ _ _ => h
  | .and h _ _ _ => h
  | .or h _ _ _ => h
  | .xor h _ _ _ => h
  | .andn h _ _ _ => h
  | .shl h _ _ _ => h
  | .shr h _ _ _ => h
  | .sar h _ _ _ => h
  | .rot h _ _ _ => h
  | .mov h _ _ => h
  | .neg h _ _ => h
  | .abs h _ _ => h
  | .not h _ _ => h
  | .clz h _ _ => h
  | .popc h _ _ => h
  | .brev h _ _ => h
  | .addTyped h _ _ _ _ _ => h
  | .subTyped h _ _ _ _ _ => h
  | .mulTyped h _ _ _ _ _ => h
  | .mulhi h _ _ _ _ => h
  | .div h _ _ _ _ _ => h
  | .rem h _ _ _ _ => h
  | .minTyped h _ _ _ _ => h
  | .maxTyped h _ _ _ _ => h
  | .negTyped h _ _ _ _ => h
  | .absTyped h _ _ _ _ => h
  | .mad h _ _ _ _ _ _ => h
  | .bfx h _ _ _ _ => h
  | .bfi h _ _ _ _ _ => h
  | .sel h _ _ _ _ _ => h
  | .addImm h _ _ _ => h
  | .subImm h _ _ _ => h
  | .mulImm h _ _ _ => h
  | .andImm h _ _ _ => h
  | .orImm h _ _ _ => h
  | .xorImm h _ _ _ => h
  | .andnImm h _ _ _ => h
  | .shlImm h _ _ _ => h
  | .shrImm h _ _ _ => h
  | .sarImm h _ _ _ => h
  | .rotImm h _ _ _ => h
  | .minImm h _ _ _ => h
  | .minImmU h _ _ _ => h
  | .maxImm h _ _ _ => h
  | .maxImmU h _ _ _ => h
  | .movi h _ _ => h
  | .moviLit h _ _ => h
  | .movhi h _ _ => h
  | .setp h _ _ _ _ _ _ _ _ => h
  | .plog h _ _ _ _ _ => h
  | .pmovToReg h _ _ => h
  | .pmovToPred h _ _ => h
  | .movs h _ _ => h
  | .movsw h _ _ => h
  | .bra h _ => h
  | .call h _ => h
  | .brx h _ => h
  | .callx h _ => h
  | .ret h => h
  | .endFibre h => h
  | .yield h => h
  | .nap h _ => h
  | .nop h => h
  | .trap h _ => h
  | .loopReg h _ _ => h
  | .loopImm h _ _ => h
  | .lbrk h _ => h
  | .fork h _ _ => h
  | .fadd h _ _ _ _ => h
  | .fsub h _ _ _ _ => h
  | .fmul h _ _ _ _ => h
  | .fdiv h _ _ _ _ => h
  | .ffma h _ _ _ _ _ => h
  | .fmin h _ _ _ => h
  | .fmax h _ _ _ => h
  | .frcp h _ _ _ => h
  | .fsqrt h _ _ _ => h
  | .frsq h _ _ _ => h
  | .frnd h _ _ _ => h
  | .fclass h _ _ _ => h
  | .fcmp h _ _ _ _ _ _ _ => h
  | .dcmp h _ _ _ _ _ _ _ => h
  | .fex2 h _ _ => h
  | .flg2 h _ _ => h
  | .fsin h _ _ => h
  | .fcos h _ _ => h
  | .ftanh h _ _ => h
  | .dadd h _ _ _ _ => h
  | .dmul h _ _ _ _ => h
  | .dfma h _ _ _ _ _ => h
  | .hadd2 h _ _ _ _ _ => h
  | .hmul2 h _ _ _ _ _ => h
  | .hfma2 h _ _ _ _ _ _ => h
  | .cvt h _ _ _ _ _ _ => h
  | .qnt h _ _ _ _ _ _ => h
  | .dqnt h _ _ _ _ => h
  | .rand h _ _ => h
  | .shfl h _ _ _ _ _ _ _ => h
  | .vote h _ _ _ _ _ => h
  | .spred h _ _ _ _ _ _ _ => h
  | .qswap h _ _ _ _ => h
  | .qbc h _ _ _ _ => h
  | .ld h _ _ _ _ _ _ _ => h
  | .st h _ _ _ _ _ _ _ => h
  | .atom h _ _ _ _ _ _ _ _ _ => h
  | .red h _ _ _ _ _ _ _ _ => h
  | .fence h _ _ => h
  | .efence h => h
  | .cpasync h _ _ _ _ _ _ _ => h
  | .gath h _ _ _ _ _ _ _ => h
  | .waitc h _ _ => h
  | .ftest h _ _ => h
  | .fcancel h _ _ => h
  | .oqpop h _ _ _ => h
  | .oqrel h _ => h
  | .aslice h _ _ _ => h
  | .astop h => h
  | .ploop h _ _ => h
  | .afeed h _ _ _ _ _ => h
  | .pwait h _ _ => h
  | .barinit h _ _ => h
  | .bararr h _ => h
  | .barwt h _ _ => h
  | .barst h _ _ => h
  | .cvdecl h _ _ => h
  | .mma h _ _ _ _ _ _ _ _ _ _ _ _ _ _ _ => h
  | .accz h _ => h
  | .accld h _ _ _ => h
  | .accst h _ _ _ _ _ _ _ => h
  | .accrd h _ _ _ => h
  | .qpush h _ _ _ _ _ _ => h
  | .qpop h _ _ _ => h
  | .qpeek h _ _ _ _ => h
  | .qcnt h _ _ => h
  | .dcarm h _ _ _ _ => h
  | .dcdec h _ => h
  | .trig h => h
  | .dwait h _ => h
  | .beat h => h
  | .evpost h _ => h
  | .evpop h _ _ => h
  | .guess h _ _ _ _ _ _ _ _ _ _ => h
  | .affirm h _ _ _ => h
  | .deny h _ _ _ _ _ => h
  | .tagq h _ _ _ _ => h
  | .puts h _ _ _ _ _ _ _ _ _ => h
  | .get h _ _ _ _ _ _ => h
  | .radd h _ _ _ _ _ _ _ _ => h
  | .sigwt h _ _ _ _ _ _ => h
  | .want h _ _ _ _ _ _ => h
  | .announce h _ _ _ _ _ => h
  | .twalk h _ _ _ _ => h
  | .permit h _ _ _ => h
  | .cseq h _ _ _ => h
  | .sysc h _ => h
  | .rft h _ _ _ => h
  | .awrd h _ _ _ _ => h
  | .awwr h _ _ _ _ => h
  | .hstop h _ _ _ => h
  | .hresume h _ _ => h
  | .brkp h _ => h
  | .trace h _ _ _ _ => h
  | .mark h _ => h
  | .inv h _ _ _ _ _ _ _ _ => h
  | .jmpt h _ => h
  | .padw h => h
  | .rep stop _ _ _ _ _ _ => ⟨0, stop, false⟩
  | _ => ⟨0, false, false⟩

/-- The fixed latency of a word, 0 where it has none (R92, R116). -/
def Instr.latency : Instr → Nat
  | .add _ _ _ _ => 2
  | .sub _ _ _ _ => 2
  | .and _ _ _ _ => 2
  | .or _ _ _ _ => 2
  | .xor _ _ _ _ => 2
  | .andn _ _ _ _ => 2
  | .shl _ _ _ _ => 2
  | .shr _ _ _ _ => 2
  | .sar _ _ _ _ => 2
  | .rot _ _ _ _ => 2
  | .mov _ _ _ => 2
  | .neg _ _ _ => 2
  | .abs _ _ _ => 2
  | .not _ _ _ => 2
  | .clz _ _ _ => 2
  | .popc _ _ _ => 2
  | .brev _ _ _ => 2
  | .addImm _ _ _ _ => 2
  | .subImm _ _ _ _ => 2
  | .andImm _ _ _ _ => 2
  | .orImm _ _ _ _ => 2
  | .xorImm _ _ _ _ => 2
  | .andnImm _ _ _ _ => 2
  | .shlImm _ _ _ _ => 2
  | .shrImm _ _ _ _ => 2
  | .sarImm _ _ _ _ => 2
  | .rotImm _ _ _ _ => 2
  | .minImm _ _ _ _ => 2
  | .minImmU _ _ _ _ => 2
  | .maxImm _ _ _ _ => 2
  | .maxImmU _ _ _ _ => 2
  | .movi _ _ _ => 2
  | .moviLit _ _ _ => 2
  | .movhi _ _ _ => 2
  | .setp _ _ _ _ _ _ _ _ _ => 2
  | .plog _ _ _ _ _ _ => 2
  | .pmovToReg _ _ _ => 2
  | .pmovToPred _ _ _ => 2
  | .movs _ _ _ => 2
  | .fmin _ _ _ _ => 2
  | .fmax _ _ _ _ => 2
  | .fcmp _ _ _ _ _ _ _ _ => 2
  | .fclass _ _ _ _ => 2
  | .mul _ _ _ _ => 4
  | .mulImm _ _ _ _ => 4
  | .fadd _ _ _ _ _ => 4
  | .fsub _ _ _ _ _ => 4
  | .fmul _ _ _ _ _ => 4
  | .ffma _ _ _ _ _ _ => 4
  | .frnd _ _ _ _ => 4
  | .hadd2 _ _ _ _ _ _ => 4
  | .hmul2 _ _ _ _ _ _ => 4
  | .hfma2 _ _ _ _ _ _ _ => 4
  | .addTyped _ _ _ _ ty _ => if ty.is64 then 3 else 2
  | .subTyped _ _ _ _ ty _ => if ty.is64 then 3 else 2
  | .minTyped _ _ _ _ ty => if ty.is64 then 3 else 2
  | .maxTyped _ _ _ _ ty => if ty.is64 then 3 else 2
  | .negTyped _ _ _ ty _ => if ty.is64 then 3 else 2
  | .absTyped _ _ _ ty _ => if ty.is64 then 3 else 2
  | .bfx _ _ _ _ ty => if ty.is64 then 3 else 2
  | .bfi _ _ _ _ _ ty => if ty.is64 then 3 else 2
  | .sel _ _ _ _ _ ty => if ty.is64 then 3 else 2
  | .mulTyped _ _ _ _ ty _ => if ty.is64 then 8 else 4
  | .mulhi _ _ _ _ ty => if ty.is64 then 8 else 4
  | .mad _ _ _ _ _ ty _ => if ty.is64 then 8 else 4
  | .cvt _ _ _ ty _ _ src => if ty.is64 || src.is64 then 6 else 4
  | .dcmp _ _ _ _ _ _ _ _ => 6
  | .dadd _ _ _ _ _ => 8
  | .dmul _ _ _ _ _ => 8
  | .dfma _ _ _ _ _ _ => 8
  | .frcp _ _ _ _ => 12
  | .frsq _ _ _ _ => 12
  | .fex2 _ _ _ => 12
  | .flg2 _ _ _ => 12
  | .ftanh _ _ _ => 12
  | .fsin _ _ _ => 16
  | .fcos _ _ _ => 16
  | _ => 0

/-- How many words an instruction fills (R31). -/
def Instr.size (i : Instr) : Nat := (encode i).length

/-- Where a word's result lands: registers by number, predicates as 128 + p; a write to p0 is discarded (R40). MOVHI leaves the even register alone (R99). -/
def Instr.slots (i : Instr) : List Nat :=
  match i with
  | .movhi _ d _ => [d.toNat + 1]
  | _ => i.writes.flatMap Run.regs ++ (i.writePreds.filter (· != 0)).map (128 + ·)

/-- What a word's sources are for the issue gap (R41): registers, and predicates as 128 + p. -/
def Instr.sources (i : Instr) : List Nat :=
  (i.reads ++ i.probes).flatMap Run.regs ++ i.readPreds.map (128 + ·)

/-- The FP64 words, which hold their slot for 2 clk (R116). -/
def Instr.fp64 : Instr → Bool
  | .dadd _ _ _ _ _ => true
  | .dmul _ _ _ _ _ => true
  | .dfma _ _ _ _ _ _ => true
  | .dcmp _ _ _ _ _ _ _ _ => true
  | _ => false

/-- The words that only the control core and handler fibres may issue (R59). -/
def Instr.privileged : Instr → Bool
  | .evpop _ _ _ => true
  | .awrd _ _ _ _ _ => true
  | .awwr _ _ _ _ _ => true
  | .hstop _ _ _ _ => true
  | .hresume _ _ _ => true
  | _ => false

/-- The words that test %astat before they execute (R87). -/
def Instr.reports : Instr → Bool
  | .bararr _ _ => true
  | .barwt _ _ _ => true
  | .efence _ => true
  | .endFibre _ => true
  | _ => false

end Sys2Proof
end

