-- ==== Sys2Proof/Machine/Fetch.lean ====
section
/-! DEFINITION. Fetching words of code through the core's instruction cache and the translation path (R29, R55, R59). -/

namespace Sys2Proof.Machine

/-- A walk for an address begins, or the miss merges into one of the die that is out (R250). -/
def State.startWalk (s : State) (p : Site) (job va : Nat) : State :=
  let same := fun (w : Walk) => w.job == job && w.va / 65536 == va / 65536
  if (s.die p.die).walks.any same then
    let join := fun (w : Walk) => if same w && !w.cores.contains (p.clu, p.core) then { w with cores := w.cores ++ [(p.clu, p.core)] } else w
    s.modDie p.die fun d => { d with walks := d.walks.map join }
  else
    let (id, s) := s.fresh
    s.modDie p.die fun d => { d with walks := d.walks ++ [⟨id, job, va, [(p.clu, p.core)], none⟩] }

/-- What fetching one word gives. -/
inductive Fetched where
  | ok (w : Word)
  | walk
  | bad (kind : Nat)        -- KIND 0x01 to 0x03, or 0x06 (R59)
  deriving DecidableEq, Repr

/-- The words the instruction cache has room for (R141); the word fetched longest ago makes room (DESIGN CHOICE, log 33). -/
def icacheWords : Nat := 49152
/-- A word enters a core's instruction cache. -/
def Core.keepWord (c : Core) (job : Nat) (a : DWord) (w : Word) : Core :=
  { c with icache := (c.icache ++ [(job, a, w)]).drop (c.icache.length + 1 - icacheWords) }
/-- One word of code for a fibre. An uncorrectable word reads so again when it is refetched (R59). R300 gives the kind of a load
from memory behind a UCIe link that is down and none for a fetch: DESIGN CHOICE, KIND 0x02 (log 33). -/
def State.fetchWord (s : State) (f : Fibre) (a : DWord) : Fetched × State :=
  let p := s.site f
  let job := s.jobOf f
  match s.cached p.coreIx job a with
  | some w => (.ok w, s)
  | none =>
    if a.toNat ≥ 2 ^ 57 then (.bad 1, s)
    else match s.find f .g a.toNat 4 .fetch with
      | (.at_ loc, s) =>
        if s.poisonedAt loc 4 then (.bad 6, s)
        else
          let w := w32 (leNat (s.getBytes loc 4))
          (.ok w, s.modCore p.coreIx fun c => c.keepWord job a w)
      | (.walk va, s) => if f.walked == some (va / 65536) then (.bad 3, s) else (.walk, s.startWalk p job va)
      | (.bad .translation, s) => (.bad 1, s)
      | (.bad .accessTable, s) => (.bad 3, s)
      | (.bad _, s) => (.bad 2, s)
      | (.remote _ _ _, s) => (.bad 1, s)

/-- n words of code from an address on. -/
def State.fetchWords (s : State) (f : Fibre) (a : DWord) : Nat → Except (Fetched × DWord) (List Word) × State
  | 0 => (.ok [], s)
  | n + 1 =>
    match s.fetchWord f a with
    | (.ok w, s) =>
      match s.fetchWords f (a + 4) n with
      | (.ok ws, s) => (.ok (w :: ws), s)
      | r => r
    | (r, s) => (.error (r, a), s)

/-- The fibre meets a failed or unfinished fetch of the word at `a` (R59): it waits, or takes the system trap. -/
def State.fetchStop (s : State) (k : Nat) (f : Fibre) (r : Fetched) (a : DWord) (at_ : RP) (w0 w1 : Word) : State :=
  match r with
  | .ok _ => s
  | .walk => s.setFibre k { f with run := .waiting .fetch, woken := false }
  | .bad kind =>
    if kind = 6 then s.systemTrap k 6 0 at_ w0 w1
    else s.systemTrap k kind 0 at_ (loWord a) (hiWord a)

/-- The words of the instruction a fibre issues, as last fetched: a repeat's are those of REP's target in memory. -/
def State.issuedWords (s : State) (f : Fibre) (i : Instr) : Word × Word :=
  let ws := encode i
  match f.rep with
  | none => (ws.getD 0 0, ws.getD 1 0)
  | some p =>
    let a := RP.addr ⟨p.hdr, p.idx + 1⟩
    let get := fun (d : Nat) (w : Word) => (s.cached (s.site f).coreIx (s.jobOf f) (BitVec.ofNat 64 (a + 4 * d))).getD w
    (get 0 (ws.getD 0 0), if ws.length < 2 then 0 else get 1 (ws.getD 1 0))

/-! ## The clause of a fibre -/

/-- The latched header's fields. -/
def Fibre.header (f : Fibre) : Header := Header.ofWord (f.hdr.getD 0)
/-- The clause header after this clause (R45). -/
def Fibre.nextClause (f : Fibre) : DWord := f.rp.hdr + BitVec.ofNat 64 (4 * (f.header.count + 1))
/-- The address of the word the fibre stands at; in a repeat, of REP's target. -/
def Fibre.pc (f : Fibre) : DWord :=
  BitVec.ofNat 64 (RP.addr (if f.rep.isSome then ⟨f.rp.hdr, f.rp.idx + 1⟩ else f.rp))

/-- The loop test when a clause has issued its last word (R110): innermost entries whose end clause it is count down or
pop, and the next header follows. -/
def loopTest (ended : DWord) (next : DWord) (lc : Word) : List LoopEntry → DWord × Word × List LoopEntry
  | [] => (next, lc, [])
  | e :: es =>
    if e.endH != ended then (next, lc, e :: es)
    else if lc.toNat ≤ 1 then loopTest ended e.exit e.outer es
    else (e.body, lc - 1, e :: es)

/-- The fibre leaves the clause `ended` at its end, not by a branch. -/
def Fibre.leave (f : Fibre) (ended next : DWord) : Fibre :=
  let (pc, lc, ls) := loopTest ended next f.lc f.loops
  { f with rp := ⟨pc, 0⟩, hdr := none, lc := lc, loops := ls, rep := none, run := .ready }

end Sys2Proof.Machine
end

