-- ==== Sys2Proof/Machine/Inverse.lean ====
section
/-! DEFINITION. The invert prefix: keys, comparison, and the judgement at the end of each evaluation (R133 to R136). -/

namespace Sys2Proof.Machine

/-- A NaN bit pattern of FP32. -/
def f32Nan (v : Word) : Bool := (v.toNat % 2 ^ 31) > 0x7F800000
/-- The number an FP32 pattern stands for on a scale that keeps the order; both zeros are 0. -/
def f32Rank (v : Word) : Int := let m : Int := (v.toNat % 2 ^ 31 : Nat); if v.getLsbD 31 then -m else m

/-- ORD: a key that grows with the value (R133). -/
def ordKey (t : InvTy) (v : Word) : Word :=
  match t with
  | .fp32 => if v.getLsbD 31 then ~~~v else v ||| 0x80000000
  | .int32 => v ^^^ 0x80000000
  | .uint32 => v
/-- ORD's inverse. -/
def ordInv (t : InvTy) (k : Word) : Word :=
  match t with
  | .fp32 => if k.getLsbD 31 then k ^^^ 0x80000000 else ~~~k
  | .int32 => k ^^^ 0x80000000
  | .uint32 => k
/-- A value's rank in its type, none for NaN. -/
def invRank (t : InvTy) (v : Word) : Option Int :=
  match t with
  | .fp32 => if f32Nan v then none else some (f32Rank v)
  | .int32 => some v.toInt
  | .uint32 => some v.toNat
def invNan (t : InvTy) (v : Word) : Bool := (invRank t v).isNone
/-- CMP(x, y): x ≤ y for .inc, x ≥ y for .dec, numerically; false with a NaN (R133). -/
def invCmp (t : InvTy) (dec : Bool) (x y : Word) : Bool :=
  match invRank t x, invRank t y with
  | some a, some b => if dec then b ≤ a else a ≤ b
  | _, _ => false
/-- Numeric equality in the type. -/
def invEq (t : InvTy) (x y : Word) : Bool :=
  match invRank t x, invRank t y with
  | some a, some b => a == b
  | _, _ => false

/-- What follows an evaluation. -/
inductive InvOut where
  | again (v : InvRun) (x : Word)
  | done (v : InvRun) (x : Word)
  | bracket (v : InvRun) (code : Nat)
  | mono (v : InvRun) (code : Nat)

/-- The loop of R134: another midpoint, or the result. -/
def InvRun.loop (v : InvRun) : InvOut :=
  let lo := ordKey v.ty v.lo
  let hi := ordKey v.ty v.hi
  if hi.toNat - lo.toNat > v.tol + 1 && v.steps < v.iter then
    let mid := ordInv v.ty (w32 (lo.toNat + (hi.toNat - lo.toNat) / 2))
    .again { v with mid := mid, phase := 2 } mid
  else .done v (if invCmp v.ty v.dec v.fhi v.t then v.hi else v.lo)
/-- The judgement of one evaluation's output (R134, R136). -/
def InvRun.judge (v : InvRun) (out : Word) : InvOut :=
  let v := { v with evals := v.evals + 1 }
  let cmp := invCmp v.ty v.dec
  match v.phase with
  | 0 => .again { v with flo := out, phase := 1 } v.hi
  | 1 =>
    let v := { v with fhi := out }
    if invNan v.ty v.flo || invNan v.ty out then .bracket v 3
    else if !cmp v.flo v.t then .bracket v 0
    else if !cmp v.t out && !invEq v.ty v.t out then .bracket v 1
    else v.loop
  | _ =>
    let v := { v with steps := v.steps + 1 }
    if invNan v.ty out then .mono v 0
    else if !cmp v.flo out || !cmp out v.fhi then .mono v 1
    else if cmp out v.t then InvRun.loop { v with lo := v.mid, flo := out }
    else InvRun.loop { v with hi := v.mid, fhi := out }

/-- Whether a result inside its latency comes from before INV: those of the routine are complete at an evaluation's end. -/
def InvRun.keeps (v : InvRun) (e : Inflight) : Bool :=
  e.slot != v.x && v.early.any fun x => x.slot == e.slot && x.old == e.old && decide (e.left ≤ x.left)
/-- The bracket pair written. -/
def Fibre.setBracket (f : Fibre) (k : Nat) (lo hi : Word) : Fibre := { f with ks := (f.ks.set (2 * k) lo).set (2 * k + 1) hi }

/-- An invert trap (R136): cause 0x16 or 0x17 at INV's first word. DESIGN CHOICE: where the routine itself wrote wX after the evaluation's
argument, what it wrote stands at the trap (R134, log 33). -/
def State.invTrap (s : State) (k : Nat) (f : Fibre) (v : InvRun) (cause code : Nat) : State :=
  let x := { f.xr with opc := v.w0, opd := w32 code, opa := w32 v.evals, opb := ordKey v.ty v.lo, opi := v.w1, cls := w32 cause }
  let f' := if cause = 0x17 then f.setBracket v.k v.lo v.hi else f
  if f.isHelper then s.setFibre k { f with rp := v.at_, inv := none, run := .halted }
  else if f.tainted then s.setFibre k { f with run := .waiting .tag, woken := false }
  else (s.setFibre k { f' with inv := none }).userTrap k x v.at_ false

/-- At the end of an INV routine's clause: the evaluation is judged, and the next begins, or INV is done, or traps. Every
result of the evaluation is complete by then (R135). Elsewhere nothing happens. -/
def State.invEnd (s : State) (k : Nat) : State :=
  match s.fibre? k with
  | none => s
  | some f =>
    match f.inv with
    | none => s
    | some v =>
      if f.rp.idx < f.header.count then s
      else if s.ops.any (fun o => o.fib == k && !o.gone && match o.body with | .result _ _ _ => true | _ => false) then s
      else
        let f := { f with flight := f.flight.filter v.keeps }
        match v.judge (f.reg v.y) with
        | .again v x => s.setFibre k { (f.setReg v.x x) with rp := ⟨f.rp.hdr, 0⟩, inv := some v }
        | .done v x =>
          let ended := if (f.loops.head?.map (·.endH)) == some v.at_.hdr then v.at_.hdr else f.rp.hdr
          let rest := f.flight.filterMap fun e => if e.left > v.stall then some { e with left := e.left - v.stall } else none
          s.setFibre k { (((f.setReg v.x x).setBracket v.k v.lo v.hi).leave ended v.resume.hdr) with inv := none, flight := rest }
        | .bracket v c => s.invTrap k f v 0x16 c
        | .mono v c => s.invTrap k f v 0x17 c

end Sys2Proof.Machine
end

