-- ==== Sys2Proof/Machine/Operands.lean ====
section
/-! DEFINITION. The issue of a word: what it must pass before it executes (R33, R41, R42, R59, R165, R166, R259), its
operand forms, and how the fibre moves on (R41, R43, R49, R50, R110, R134). -/

namespace Sys2Proof.Machine

/-! ## Guard and weight -/

/-- Whether the clause guard holds for the fibre (R33). -/
def Fibre.guardHolds (f : Fibre) (k : Nat) : Bool := f.readPred k f.header.guard != f.header.pol
/-- The clk a word counts for the issue gap (R41). -/
def Fibre.weight (f : Fibre) (i : Instr) : Nat := i.head.stall.toNat + (if f.header.cls = 6 then 2 else 1)

/-! ## What a word waits for -/

/-- The registers and predicates (128 + p) an operation in flight still writes. -/
def Op.targets (o : Op) : List Nat :=
  match o.body with
  | .mem a _ => (List.range a.ndst).map (a.dst + ·)
  | .result rs ps _ => rs.map (·.1) ++ ps.map (128 + ·.1)
  | .acc (.read _ _ _ (some d)) => (List.range 32).map (d + ·)
  | .permit _ _ _ p => [128 + p]
  | _ => []
/-- What a wait for an operation's result is called: a result of the core's units, an accumulator row, or memory (R365). -/
def Op.lateness (o : Op) : Why :=
  match o.body with
  | .result _ _ _ => .scoreboard
  | .acc _ => .tilePort
  | _ => .memory
/-- A fibre's own operations. -/
def State.opsOf (s : State) (k : Nat) : List Op := s.ops.filter fun o => o.fib == k && !o.gone
/-- A fibre's outstanding LD, ST, ATOM and RED (R165, R168). -/
def State.accesses (s : State) (k : Nat) : List Op :=
  (s.opsOf k).filter fun o => match o.body with | .mem _ _ => o.done.isNone | _ => false
/-- The slots still to be written by operations in flight. -/
def State.pendingSlots (s : State) (k : Nat) : List Nat := (s.opsOf k).flatMap Op.targets

/-! ## The gate (R259) -/

/-- What becomes of a word at issue: no fibre, discarded by its guard, kept from executing, or executing. -/
inductive Gate where
  | noFibre
  | off (f : Fibre)
  | held (s : State)
  | go (f : Fibre)

/-- The fibre waits and tries its word again. -/
def State.waitFor (s : State) (k : Nat) (f : Fibre) (w : Why) : State := s.setFibre k { f with run := .waiting w, woken := false }

/-- What a chain compares (R182): for a BFP format not the .x bit. -/
def chainKey (fmt : Fmt) (x sc s32 : Bool) : Fmt × Bool × Bool × Bool := (fmt, x && !fmt.isBfp, sc, s32)
def Chain.key (c : Chain) := chainKey c.fmt c.x c.sc c.s32
def MmaJob.key (j : MmaJob) := chainKey j.fmt j.x j.sc j.s32
/-- The chain a group will have once the MMAs that wait have started. -/
def State.chainAhead (s : State) (grp core : Nat) : Option (Fmt × Bool × Bool × Bool) :=
  ((s.core core).mmaq.filter fun j => j.grp == grp).foldl (fun _ j => if j.reuse then some j.key else none)
    (((s.group? grp).bind (·.chain)).map Chain.key)
/-- The registers of its A row and scales that an MMA ignores, because its group's chain will still be open (R182). -/
def State.latchedRegs (s : State) (f : Fibre) : Instr → List Nat
  | .mma _ _ a b _ sc s32 _ spSrc _ x fmt _ _ _ sreg =>
    if s.chainAhead f.grp (s.site f).coreIx == some (chainKey fmt x sc s32) then
      ((⟨a.toNat, fmt.rowRegs, 1⟩ : Run).regs ++ (if fmt.isBfp || sc then [sreg.toNat] else [])).filter fun r => !(spSrc && r == b.toNat)
    else []
  | _ => []
/-- The dependence scoreboard (R41, R165, R170): a word waits for outstanding results among its registers and for the
handles it reads. -/
def State.dependence (s : State) (k : Nat) (f : Fibre) (i : Instr) : Option State :=
  let unread := s.latchedRegs f i
  let named := i.sources.filter (!unread.contains ·) ++ i.slots
  match (s.opsOf k).find? fun o => o.targets.any named.contains with
  | some o => some (s.waitFor k f o.lateness)
  | none =>
  if (i.reads.flatMap Run.regs).any fun r => (f.handle? r).isSome && !unread.contains r then some (s.waitFor k f .future)
  else none

/-- Stall-short under the checking scoreboard (R42). -/
def State.stallShort (s : State) (k : Nat) (f : Fibre) (i : Instr) : Option State :=
  let check := ((s.job? (s.jobOf f)).map (·.check)).getD false
  let srcs := i.sources.filter (!(s.latchedRegs f i).contains ·) ++ (if i.head.g then [128 + f.header.guard] else [])
  if check && f.flight.any (fun e => srcs.contains e.slot) then
    let (w0, w1) := s.issuedWords f i
    some (s.userTrap k (wordTrap f w0 w1 0x0A) f.rp false)
  else none

/-- The computed target of a control word (R44, R270). -/
def Fibre.target (f : Fibre) (k : Nat) : Instr → Option DWord
  | .brx _ a => some (f.readPair k a.toNat)
  | .callx _ a => some (f.readPair k a.toNat)
  | .ret _ => some f.lr
  | .rft _ a _ .addr => some (f.readPair k a.toNat)
  | _ => none
/-- A bad control target, cause 0x0B (R44). -/
def State.badTarget (s : State) (k : Nat) (f : Fibre) (i : Instr) : Option State :=
  match f.target k i with
  | some a => if badHeader a then
      let (w0, w1) := s.issuedWords f i
      some (s.userTrap k (wordTrap f w0 w1 0x0B) f.rp false) else none
  | none => none

/-- A privileged word outside control mode and the handler slot: KIND 0x04 (R59). -/
def State.privilege (s : State) (k : Nat) (f : Fibre) (i : Instr) : Option State :=
  if i.privileged && !f.privileged then
    let (w0, w1) := s.issuedWords f i
    some (s.systemTrap k 4 0 f.rp w0 w1)
  else none

/-- The registers whose poison a word meets; MMA's A row and scales are substituted by zero instead (R28, R161). -/
def poisonReads (i : Instr) (f : Fibre) : List (Nat × PoisonKind) :=
  let regs := match i with
    | .mov _ _ a => [a.toNat]
    | _ => i.reads.flatMap Run.regs
  let arow := match i with
    | .mma _ _ a _ _ sc _ _ _ _ _ fmt _ _ _ sreg =>
      (⟨a.toNat, fmt.rowRegs, 1⟩ : Run).regs ++ (if fmt.isBfp || sc then [sreg.toNat] else [])
    | _ => []
  (regs.filterMap fun r => f.poison.find? fun p => p.1 == r).filter fun p => !(arow.contains p.1 && p.2 == .storage)

/-- Poisoned registers are read: access poison acts as an EFENCE (R166), which an empty list lets pass; storage poison raises KIND 0x05
(R161). -/
def State.meetsPoison (s : State) (k : Nat) (f : Fibre) (i : Instr) : List (Nat × PoisonKind) → Option State
  | [] => none
  | (r, .storage) :: _ => some (s.systemTrap k 5 r f.rp 0 0)
  | (_, .access) :: l =>
    if !(s.accesses k).isEmpty || (!f.releasing.isEmpty && f.replay.length < 8) then some (s.waitFor k f .memory)
    else if f.replay.isEmpty then State.meetsPoison s k f i l
    else
      let (w0, w1) := s.issuedWords f i
      match s.barTrap k f with
      | some s => some s
      | none => some (s.deliver k f.rp w0 w1)
/-- The poison among the registers a word reads. -/
def State.poisoned? (s : State) (k : Nat) (f : Fibre) (i : Instr) : Option State :=
  s.meetsPoison k f i ((poisonReads i f).filter fun p => !(s.latchedRegs f i).contains p.1)

/-- The arithmetic report (R87). -/
def State.report (s : State) (k : Nat) (f : Fibre) (i : Instr) : Option State :=
  if i.reports && !f.reported && f.reportable != 0 then
    let (w0, _) := s.issuedWords f i
    match s.barTrap k f with
    | some s => some s
    | none => some ((s.setFibre k { f with astat := clearNew f.astat }).userTrap k
        { f.xr with opc := w0, opi := f.reportable, cls := 0x13 } f.rp false)
  else none

/-- The first of several conditions that holds. -/
def firstOf : List (Option State) → Option State
  | [] => none
  | some s :: _ => some s
  | none :: l => firstOf l

/-- The gate of a word of the current fibre: guard, then the conditions of R259 in their order. -/
def gate (i : Instr) (s : State) : Gate :=
  match s.fibre? s.cur with
  | none => .noFibre
  | some f =>
    let k := s.cur
    if i.head.g && (s.pendingSlots k).contains (128 + f.header.guard) then .held (s.waitFor k f .scoreboard)
    else if i.head.g && !f.guardHolds k then .off f
    else
      match firstOf [s.dependence k f i, s.stallShort k f i, s.badTarget k f i, s.privilege k f i, s.poisoned? k f i,
                     s.report k f i] with
      | some s => .held s
      | none => .go f

/-! ## Moving on -/

/-- The fibre passes an instruction of n words (R43, R49, R50). A clause of an INV routine that is done keeps the fibre
at its end: the evaluation is judged there (R134). -/
def Fibre.pass (f : Fibre) (n : Nat) : Fibre :=
  let go := fun (f : Fibre) (idx : Nat) =>
    if idx < f.header.count || f.inv.isSome then { f with rp := ⟨f.rp.hdr, idx⟩, run := .ready }
    else f.leave f.rp.hdr f.nextClause
  match f.rep with
  | none => go f (f.rp.idx + n)
  | some _ =>
    if f.rc.toNat ≤ 1 then go { f with rc := 0, rep := none } (f.rp.idx + 1 + n)
    else { f with rc := f.rc - 1, run := .ready }

/-- Results still inside their latency after a word that counts w clk and writes `slots` with latency L, 0 for none (R41): a
result that is written anew is no longer in flight from its older producer. -/
def flightAfter (f0 : Fibre) (w L : Nat) (slots : List Nat) : List Inflight :=
  let rest := f0.flight.filterMap fun e => if e.left > w && !slots.contains e.slot then some { e with left := e.left - w } else none
  if L ≤ w then rest
  else rest ++ slots.map fun x =>
    ⟨x, if x < 128 then f0.reg x else (if f0.pred (x - 128) then 1 else 0), L - w⟩

/-- Slot-clk charged to a leaf of the top-down tree (R365, R366). -/
def State.charge (s : State) (core leaf n : Nat) : State :=
  if (s.core core).ctdc.getLsbD 1 then s
  else s.modCore core fun c => { c with td := c.td.modify leaf (· + BitVec.ofNat 64 n) }

/-- A fibre's word takes an issue slot of its core: that of its batch, whose oldest member decides the charge, or a free one (R83,
R366). -/
def Core.takeSlot (c : Core) (u : SlotUse) : Core :=
  let same := fun (x : SlotUse) => x.grp == u.grp && x.span == u.span && x.rp == u.rp && x.start == u.start
  if c.slots.any same then { c with slots := c.slots.map fun x => if same x && u.last < x.last then u else x }
  else { c with slots := c.slots ++ [u] }
/-- What every issued word leaves in its fibre beside its own effect: the issue counts and the gaps. -/
def Fibre.counted (f1 f0 : Fibre) (i : Instr) (executes : Bool) (clk : Nat) : Fibre :=
  { f1 with flight := flightAfter f0 (f0.weight i) i.latency (if executes then i.slots else []),
            issued := f0.issued + 1, lastClk := clk, reported := false, passCmp := false, walked := none }

/-- Issue seen from outside the fibre: the job's last issue by a fibre (R223), the group's protection (R150), and of a group's fibre the
issue slot it takes. A Pacer context is no fibre. -/
def State.noteIssue (s : State) (k : Nat) (f : Fibre) (i : Instr) (executes : Bool) : State :=
  let s := if f.isPacer then s else s.modJob (s.jobOf f) fun j => { j with lastIssue := s.clk }
  let s := s.modGroup f.grp fun g => { g with unprot := g.unprot.filter (· != k) }
  if f.isPacer || f.privileged then s
  else s.modCore (s.site f).coreIx fun c => c.takeSlot
    { grp := f.grp, span := f.fid / 32, rp := f.rp, start := s.clk, fib := k, last := f.lastClk,
      leaf := if f.isHelper then 1 else if executes then 0 else 2, left := if f.header.cls = 6 || i.fp64 then 2 else 1 }

/-- The word is done: f0 is the fibre before it, f1 with its effect; the fibre moves past it. -/
def State.finish (s : State) (k : Nat) (i : Instr) (f0 f1 : Fibre) : State :=
  ((s.setFibre k ((f1.counted f0 i true s.clk).pass i.size)).noteIssue k f0 i true).invEnd k
/-- The word is done and the fibre goes to a clause header (R44). -/
def State.finishTo (s : State) (k : Nat) (i : Instr) (f0 f1 : Fibre) (target : DWord) : State :=
  (s.setFibre k ((f1.counted f0 i true s.clk).jump target)).noteIssue k f0 i true
/-- The word is discarded by its guard (R33). -/
def State.finishOff (s : State) (k : Nat) (i : Instr) (f : Fibre) : State :=
  (s.setFibre k ((f.counted f i false s.clk).pass i.size)).noteIssue k f i false

/-- The issue of a word: discarded, kept, or executed by its body. -/
def issueWord (i : Instr) (s : State) (body : Nat → Fibre → State) : Host.Outcome State Fault Refusal :=
  match gate i s with
  | .noFibre => .fault .noFibre
  | .off f => .next (s.finishOff s.cur i f)
  | .held s' => .next s'
  | .go f => .next (body s.cur f)

/-! ## Operand forms -/

/-- A register operand at a type, as a 64-bit value: a pair, a whole register, or the low 16 or 8 bits (R91, R115). -/
def Fibre.operand (f : Fibre) (k : Nat) (t : Ty) (r : Reg) : Nat :=
  if t.is64 then (f.readPair k r.toNat).toNat else (f.read k r.toNat).toNat % 2 ^ t.width
/-- A bit pattern of n bits as an exact integer. -/
def exact (signed : Bool) (n x : Nat) : Int :=
  if signed && x ≥ 2 ^ (n - 1) then (x : Int) - (2 ^ n : Nat) else (x : Int)
/-- A register operand as the exact integer it stands for (R16, R91). -/
def Fibre.intOperand (f : Fibre) (k : Nat) (t : Ty) (r : Reg) : Int := exact t.signed t.width (f.operand k t r)
/-- The register words of an integer result of type t: wrapped to the type, then extended to the register (R91). -/
def intResult (t : Ty) (v : Int) : List Word :=
  let x := v.emod (2 ^ t.width : Nat)
  let y := exact t.signed t.width x.toNat
  if t.is64 then dwords (BitVec.ofInt 64 y) else [BitVec.ofInt 32 y]
/-- The range of an integer type. -/
def tyMin (t : Ty) : Int := if t.signed then -(2 ^ (t.width - 1) : Nat) else 0
def tyMax (t : Ty) : Int := if t.signed then (2 ^ (t.width - 1) : Nat) - 1 else (2 ^ t.width : Nat) - 1
/-- An exact result clamped to its type under .sat (R91). -/
def clampTo (t : Ty) (sat : Bool) (v : Int) : Int × Conds :=
  if sat && v < tyMin t then (tyMin t, { sat := true })
  else if sat && v > tyMax t then (tyMax t, { sat := true })
  else (v, Conds.none)
/-- The base of an address operand: a register or a pair (R164). -/
def Fibre.base (f : Fibre) (k : Nat) (sp : Space) (r : Reg) : Nat :=
  if sp.wide then (f.readPair k r.toNat).toNat else (f.read k r.toNat).toNat
/-- Base plus sign-extended offset, in the width of the base (R164). -/
def addrOf (sp : Space) (base : Nat) (off : BitVec 16) : Nat :=
  if sp.wide then (BitVec.ofNat 64 base + off.signExtend 64).toNat else (BitVec.ofNat 32 base + off.signExtend 32).toNat
/-- n consecutive registers. -/
def Fibre.readRun (f : Fibre) (k r n : Nat) : List Word := (List.range n).map fun j => f.read k (r + j)

end Sys2Proof.Machine
end

