-- ==== Sys2Proof/Machine/Regs.lean ====
section
/-! DEFINITION. The management registers: where each stands (R302, R317, R318, R328, R357 to R368), what reading it
gives and what writing it does (R7). -/

namespace Sys2Proof.Machine

/-! ## Halves and tables -/

/-- One half of a 64-bit register. -/
def half (x : DWord) (hi : Bool) : Word := if hi then hiWord x else loWord x
def setHalf (x : DWord) (hi : Bool) (w : Word) : DWord := if hi then joinPair (loWord x) w else joinPair w (hiWord x)
/-- Word j of a 128-bit record. -/
def quarter (x : BitVec 128) (j : Nat) : Word := (x >>> (32 * j)).setWidth 32
def setQuarter (x : BitVec 128) (j : Nat) (w : Word) : BitVec 128 :=
  (x &&& ~~~((0xFFFFFFFF#128) <<< (32 * j))) ||| (w.setWidth 128 <<< (32 * j))
/-- A table kept in ascending order of its numbers, with one entry replaced or added. -/
def assignSorted {α : Type} (k : Nat) (v : α) : List (Nat × α) → List (Nat × α)
  | [] => [(k, v)]
  | (j, w) :: l => if k < j then (k, v) :: (j, w) :: l else if j = k then (k, v) :: l else (j, w) :: assignSorted k v l

/-! ## Error rings as registers (R162, R254) -/

/-- CELCTL or DELCTL as read. -/
def ErrRing.ctl (r : ErrRing) : Word := w32 (r.wptr <<< 16 ||| r.rptr <<< 8 ||| bit r.ovf <<< 1 ||| bit r.en)
def ErrRing.write (n : Nat) (r : ErrRing) (w : Word) : ErrRing :=
  { r with rptr := bitsOf w.toNat 15 8 % n, ovf := r.ovf && !w.getLsbD 1, en := w.getLsbD 0 }
def ErrRing.word (r : ErrRing) (off : Nat) : Word := quarter ((look (off / 16) r.recs).getD 0) (off / 4 % 4)

/-! ## The weight-load phase (R242) -/

/-- Whether a job's tables on a die map a weight-store page: by a leaf that a walk would take. -/
def State.mapsWeight (s : State) : List Level → Nat → Bool
  | [], _ => false
  | l :: ls, table =>
    (List.range (l.table / 8)).any fun i =>
      let e := leNat (s.getBytes (table + 8 * i) 8)
      e.testBit 0 && pteReservedOk e && (if e.testBit 1 then pteTgt e == 2 && l.leafOk e
        else match ls with
          | [] => false
          | n :: _ => tableOk n e && s.mapsWeight ls (pteAddr e))
def State.jobMapsWeight (s : State) (die job : Nat) : Bool :=
  match s.job? job with
  | some j => (j.roots.getD die 0) != 0 && s.mapsWeight levels (j.roots.getD die 0).toNat
  | none => false
/-- WSCTL with a status and with bits set or cleared. -/
def wsStatus (w : Word) (st : Status) : Word := (w &&& ~~~0x0E000000#32) ||| w32 (statusNum st <<< 25)
/-- A write of PHASE = 1. -/
def State.wsEnter (s : State) (d : Nat) : State :=
  let blocked := s.groups.any fun g => g.die == d && g.core < 8 && !g.out && !g.exited && !g.freed && s.jobMapsWeight d g.job
  s.modDie d fun x =>
    if blocked then { x with wsctl := wsStatus (x.wsctl &&& ~~~1#32) .access }
    else { x with wsctl := wsStatus (x.wsctl ||| 1) .ok, wsLeave := false }
/-- A write of PHASE = 0; while BUSY it takes effect when the load ends. -/
def State.wsExit (s : State) (d : Nat) : State :=
  s.modDie d fun x =>
    if x.wsctl.getLsbD 8 then { x with wsLeave := true } else { x with wsctl := wsStatus (x.wsctl &&& ~~~1#32) .ok }
/-- GO (R242): a bad request completes at once with FAULT, a good one makes the engine busy. -/
def State.wsGo (s : State) (d : Nat) : State :=
  s.modDie d fun x =>
    let ok := x.wsctl.getLsbD 0 && !x.wsctl.getLsbD 8 && x.wslsrc.toNat % 64 == 0 && x.wsldst.toNat % 64 == 0 &&
      x.wsllen.toNat % 64 == 0 && x.wsldst.toNat + x.wsllen.toNat ≤ 6 * 2 ^ 30 && [0, 1, 3].any fun t => populated t x.wslsrc.toNat x.wsllen.toNat
    if ok then { x with wsctl := x.wsctl ||| 0x100, wsRun := (x.wslsrc.toNat, x.wsldst.toNat, x.wsllen.toNat) }
    else { x with wsctl := wsStatus x.wsctl .fault }

/-! ## Translation invalidation (R252) -/

/-- The page that holds DTINVA for job DTINVJ by the tables as they stand: base and size; 64 KiB where they map none. -/
def State.dtinvPage (s : State) (d : Nat) : Nat × Nat :=
  let x := s.die d
  match (s.modDie d fun x => { x with wcache := [] }).walk d x.dtinvj.toNat x.dtinva.toNat with
  | .leaf t => (t.base, t.size)
  | _ => (x.dtinva.toNat / 65536 * 65536, 65536)
/-- Whether an invalidation of a scope covers a page of a job: it may translate an address of the page that holds DTINVA. -/
def dtinvHits (d : Die) (page : Nat × Nat) (scope job base size : Nat) : Bool :=
  match scope with
  | 0 => job == d.dtinvj.toNat && decide (base < page.1 + page.2) && decide (page.1 < base + size)
  | 1 => job == d.dtinvj.toNat
  | _ => true
/-- GO of DTINVC: matching entries go at once, with what walks have come to; the accesses translated before must finish first. SCOPE 3 does
nothing. -/
def State.dtinvStart (s : State) (d scope : Nat) : State :=
  if scope = 3 then s
  else
    let x := s.die d
    let page := s.dtinvPage d
    let keep := fun (t : Tlb) => !dtinvHits x page scope t.job t.base t.size
    let s : State := { s with cores := s.cores.map fun c => if c.1 / 72 == d then (c.1, { c.2 with tlb := c.2.tlb.filter keep }) else c }
    let s : State := { s with clusters := s.clusters.map fun c => if c.1 / 8 == d then (c.1, { c.2 with tlb := c.2.tlb.filter keep }) else c }
    let busy := (s.ops.filter fun o => match o.body with
      | .mem a (.at_ _) => a.space.wide && ((s.fibre? o.fib).map fun f => (if a.addr.getLsbD 63 then (a.addr.extractLsb' 51 2).toNat else (s.site f).die) == d).getD false
      | _ => false).map (·.id)
    s.modDie d fun x => { x with
      dtinvc := (x.dtinvc &&& 6) ||| 1, inval := some (scope, busy),
      filter := x.filter.filter (fun e => !dtinvHits x page scope e.1 (e.2 * 65536) 65536),
      walks := x.walks.map fun w => if dtinvHits x page scope w.job (w.va / 65536 * 65536) 65536 then { w with res := none } else w,
      wcache := x.wcache.filter fun c => !dtinvHits x page scope c.1.job (c.1.top * 2 ^ c.1.lo) (2 ^ c.1.lo) }

/-! ## Top-down counters (R365, R366) -/

/-- The counters as they stand: the idle leaf is what no other leaf took of 4 slots per clk. -/
def Core.tdNow (c : Core) (clk : Nat) : List (BitVec 64) :=
  if c.ctdc.getLsbD 1 then c.td
  else
    let rest := (c.td.set 16 0).foldl (fun n x => n + x.toNat) 0
    c.td.set 16 (BitVec.ofNat 64 (4 * (clk - c.tdClk) - rest))
def State.tdClear (s : State) (core : Nat) : State :=
  s.modCore core fun c => { c with td := List.replicate 20 0, tdClk := s.clk }
def State.tdFreeze (s : State) (core : Nat) (on : Bool) : State :=
  s.modCore core fun c =>
    if on == c.ctdc.getLsbD 1 then c
    else if on then { c with td := c.tdNow s.clk, ctdc := 2 }
    else { c with tdClk := s.clk - (c.td.foldl (fun n x => n + x.toNat) 0) / 4, ctdc := 0 }

/-- CNSC.MODE written; 3 is ignored (R368). -/
def State.noiseMode (s : State) (core mode : Nat) : State :=
  if mode = 3 then s else s.modCore core fun c => { c with cnsc := (c.cnsc &&& 0x3FFFFFFF) ||| w32 (mode <<< 30) }

/-! ## TDISP locks on access-table entries (R306) -/

/-- The locked function whose master ID an entry names. -/
def State.lockedBy (s : State) (e : BitVec 128) : Option Nat :=
  (s.pkg.tdis.find? fun t => t.2.state != .unlocked && e.getLsbD 7 &&
    ((bitsOf e.toNat 55 40 ≤ 0x8000 + t.1 && 0x8000 + t.1 ≤ bitsOf e.toNat 39 24) ||
     (bitsOf e.toNat 55 40 ≤ 0x8040 + t.1 && 0x8040 + t.1 ≤ bitsOf e.toNat 39 24))).map (·.1)
/-- A write to a locked field or range of a function: ERROR from CONFIG_LOCKED and RUN, with alarm source 1 (R306). -/
def State.lockedWrite (s : State) (fn : Nat) : State :=
  match look fn s.pkg.tdis with
  | some t =>
    match t.state with
    | .locked | .run => (s.tdiError fn).alarm 1 0 76 (0x8000 + fn) 0
    | _ => s
  | none => s

/-! ## Where an offset leads -/

/-- The block of an offset (R302). -/
inductive Block where
  | pkg (off : Nat)
  | die (d off : Nat)
  | cluster (c off : Nat)
  | core (c off : Nat)
  | none
  deriving DecidableEq, Repr
def blockOf (off : Nat) : Block :=
  let d := off / 0x1000000
  let o := off % 0x1000000
  if d = 0 then .pkg o
  else if d > 4 then .none
  else
    let c := o / 0x100000
    let p := o % 0x100000
    if c = 0 then .die (d - 1) o
    else if c > 8 then .none
    else
      let k := p / 0x10000
      if k = 0 then .cluster (cluIx (d - 1) (c - 1)) p
      else if k > 8 then .none
      else .core (coreIx (d - 1) (c - 1) (k - 1)) (p % 0x10000)

/-- The package's open debug features as DBGCTL shows them. -/
def State.featBits (s : State) : Nat := if s.pkg.lcstate = 1 then s.pkg.dbgFeat.toNat else 15

/-- A 32-bit read of a package register. -/
def State.pkgRead (s : State) (o : Nat) : Word :=
  let hi := o % 8 == 4
  let p := s.pkg
  if o = 0 then p.salpol
  else if o = 8 then p.salstat.setWidth 32
  else if o = 0x10 then p.lcstate.setWidth 32
  else if o = 0x18 then w32 (bit p.dbgBusy <<< 31 ||| p.dbgStat <<< 28 ||| bit p.dbgBusy <<< 27 ||| s.featBits)
  else if o / 8 = 4 then half p.nonce hi
  else if 0x40 ≤ o && o < 0x50 then quarter Config.serial ((o - 0x40) / 4)
  else if 0x60 ≤ o && o < 0x90 then (Config.idHash >>> (8 * (o - 0x60))).setWidth 32
  else if 0x1000 ≤ o && o < 0x1400 then quarter (p.seclog.getD ((o - 0x1000) / 16) 0) (o / 4 % 4)
  else if 0x2000 ≤ o && o < 0x2000 + 8 * 36 then (if hi then 0 else p.fpstat.getD ((o - 0x2000) / 8) 0)
  else if 0x100000 ≤ o && o < 0x100000 + 82 * 0x1000 then
    quarter ((look (o % 0x1000 / 16) ((look ((o - 0x100000) / 0x1000) p.access).getD [])).getD 0) (o / 4 % 4)
  else if 0x200000 ≤ o && o < 0x204000 then quarter ((look ((o - 0x200000) / 16) p.names).getD 0) (o / 4 % 4)
  else if 0x300000 ≤ o && o < 0x301000 then (look ((o - 0x300000) / 4) p.routes).getD 0
  else 0
/-- A 32-bit read of a die register. -/
def Die.read (x : Die) (o : Nat) : Word :=
  let hi := o % 8 == 4
  if o = 0 then x.wsctl
  else if o / 8 = 1 then half x.wslsrc hi
  else if o / 8 = 2 then half x.wsldst hi
  else if o / 8 = 3 then half x.wsllen hi
  else if o = 0x20 then x.errs.ctl
  else if o = 0x24 then x.decc
  else if o = 0x28 then x.dtinvc
  else if o / 8 = 6 then half x.dtinva hi
  else if o = 0x38 then x.dtinvj
  else if 0x1000 ≤ o && o < 0x2000 then x.errs.word (o - 0x1000)
  else 0
/-- A 32-bit read of a core register; `feat` says which debug features are open (R356). -/
def Core.read (x : Core) (clk : Nat) (feat : Nat → Bool) (o : Nat) : Word :=
  let hi := o % 8 == 4
  let when_ := fun (n : Nat) (w : Word) => if feat n then w else 0
  if o = 0 then x.errs.ctl
  else if o = 4 then x.cecc
  else if o / 8 = 1 then half x.chentry hi
  else if o / 8 = 2 then half x.cckbase hi
  else if o / 8 = 3 then half x.ccksize hi
  else if 0x400 ≤ o && o < 0x800 then x.errs.word (o - 0x400)
  else if 0x800 ≤ o && o < 0x880 then
    let c := x.cmps.getD ((o - 0x800) / 16) default
    when_ 0 (match o / 4 % 4 with | 0 => loWord c.addr | 1 => hiWord c.addr | 2 => c.ctl | _ => 0)
  else if o = 0x880 then when_ 0 x.cdbg
  else if o / 8 = 0x111 then when_ 0 (half x.evr.base hi)
  else if o = 0x890 then when_ 0 x.evr.ctl
  else if o / 8 = 0x113 then when_ 0 (if hi then x.evr.wptr else x.evr.rptr)
  else if o / 8 = 0x114 then when_ 1 (half x.trr.base hi)
  else if o = 0x8A8 then when_ 1 x.trr.ctl
  else if o / 8 = 0x116 then when_ 1 (if hi then x.trr.wptr else x.trr.rptr)
  else if o / 8 = 0x117 then when_ 3 (half x.cnsb hi)
  else if o = 0x8C0 then when_ 3 x.cnsc
  else if o / 8 = 0x119 then when_ 3 (if hi then x.cnsEnd else x.cnsNext)
  else if o = 0x8D0 then when_ 2 x.ctdc
  else if 0x900 ≤ o && o < 0x900 + 8 * 20 then when_ 2 (half ((x.tdNow clk).getD ((o - 0x900) / 8) 0) hi)
  else 0

/-- A 32-bit read of a management register; an unlisted offset reads 0 (R302). -/
def State.regRead32 (s : State) (off : Nat) : Word :=
  match blockOf off with
  | .pkg o => s.pkgRead o
  | .die d o => (s.die d).read o
  | .cluster c o => if o = 0 then (s.cluster c).cevdrop else 0
  | .core c o => (s.core c).read s.clk s.feature o
  | .none => 0

/-- A 32-bit write of a package register. -/
def State.pkgWrite (s : State) (o : Nat) (w : Word) : State :=
  if o = 0 then s.modPkg fun p =>
    { p with salpol := (if p.salpol.getLsbD 31 then p.salpol else w &&& 0x3FFF) ||| (w &&& 0x80000000) }
  else if o = 8 then s.modPkg fun p => { p with salstat := p.salstat &&& ~~~(w.setWidth 7) }
  else if o = 0x18 then (if w.getLsbD 31 then s.modPkg fun p => { p with dbgBusy := true } else s)
  else if 0x100 ≤ o && o < 0x200 then s.modPkg fun p =>
    let t := (p.dbgtok ++ List.replicate 256 0).take 256
    { p with dbgtok := t.take (o - 0x100) ++ leBytes 4 w.toNat ++ t.drop (o - 0x100 + 4) }
  else if 0x2000 ≤ o && o < 0x2000 + 8 * 36 then
    (if o % 8 = 4 then s else s.modPkg fun p =>
      { p with fpstat := p.fpstat.modify ((o - 0x2000) / 8) fun x => x &&& 0x80010000 &&& ~~~(w &&& 0x10000) })
  else if 0x100000 ≤ o && o < 0x100000 + 82 * 0x1000 then
    let t := (o - 0x100000) / 0x1000
    let i := o % 0x1000 / 16
    let tab := (look t s.pkg.access).getD []
    let e := (look i tab).getD 0
    match s.lockedBy e with
    | some fn => s.lockedWrite fn
    | none =>
      let e := setQuarter e (o / 4 % 4) w &&& 0xFFFFFFFFFFFFFFFFFFFFFFFFFFFF0087
      s.modPkg fun p => { p with access := assign t (assignSorted i e tab) p.access }
  else if 0x200000 ≤ o && o < 0x204000 then s.modPkg fun p =>
    let i := (o - 0x200000) / 16
    let e := setQuarter ((look i p.names).getD 0) (o / 4 % 4) w &&& 0xFFFFFFFFFFFFFFFFFFFFFFF000000001
    { p with names := assignSorted i e p.names }
  else if 0x300000 ≤ o && o < 0x301000 then s.modPkg fun p =>
    { p with routes := assign ((o - 0x300000) / 4) (w &&& 0x83FFFFFF) p.routes }
  else s
/-- A 32-bit write of a die register. -/
def State.dieWrite (s : State) (d o : Nat) (w : Word) : State :=
  let hi := o % 8 == 4
  if o = 0 then
    let s := if w.getLsbD 0 then (if (s.die d).wsctl.getLsbD 0 then s else s.wsEnter d)
             else (if (s.die d).wsctl.getLsbD 0 then s.wsExit d else s)
    if w.getLsbD 1 then s.wsGo d else s
  else if o / 8 = 1 then s.modDie d fun x => { x with wslsrc := setHalf x.wslsrc hi w }
  else if o / 8 = 2 then s.modDie d fun x => { x with wsldst := setHalf x.wsldst hi w }
  else if o / 8 = 3 then s.modDie d fun x => { x with wsllen := setHalf x.wsllen hi w }
  else if o = 0x20 then s.modDie d fun x => { x with errs := x.errs.write 256 w }
  else if o = 0x24 then s.modDie d fun x => { x with decc := 0 }
  else if o = 0x28 then
    let runs := (s.die d).dtinvc.getLsbD 0
    let s := s.modDie d fun x => { x with dtinvc := (w &&& 6) ||| (x.dtinvc &&& 1) }
    if w.getLsbD 0 && !runs then s.dtinvStart d (bitsOf w.toNat 2 1) else s
  else if o / 8 = 6 then s.modDie d fun x => { x with dtinva := setHalf x.dtinva hi w &&& 0x01FFFFFFFFFF0000 }
  else if o = 0x38 then s.modDie d fun x => { x with dtinvj := w }
  else s
/-- A control word of a debug ring written (R364). -/
def DbgRing.write (r : DbgRing) (trace : Bool) (w : Word) : DbgRing :=
  let mask : Word := if trace then 0x87FFF81F else 0x8000001F
  { r with ctl := (w &&& mask) ||| (r.ctl &&& 0x40000000 &&& ~~~w) }
/-- A 32-bit write of a core register. -/
def State.coreWrite (s : State) (c o : Nat) (w : Word) : State :=
  let hi := o % 8 == 4
  let upd := fun (n : Nat) (u : Core → Core) => if s.feature n then s.modCore c u else s
  if o = 0 then s.modCore c fun x => { x with errs := x.errs.write 64 w }
  else if o = 4 then s.modCore c fun x => { x with cecc := 0 }
  else if o / 8 = 1 then s.modCore c fun x => { x with chentry := setHalf x.chentry hi w }
  else if o / 8 = 2 then s.modCore c fun x => { x with cckbase := setHalf x.cckbase hi w }
  else if o / 8 = 3 then s.modCore c fun x => { x with ccksize := setHalf x.ccksize hi w }
  else if 0x800 ≤ o && o < 0x880 then upd 0 fun x =>
    { x with cmps := x.cmps.modify ((o - 0x800) / 16) fun p =>
      match o / 4 % 4 with
      | 0 => { p with addr := setHalf p.addr false w }
      | 1 => { p with addr := setHalf p.addr true (w &&& 0x01FFFFFF) }
      | 2 => { p with ctl := w &&& 0xFFFFFBFF }
      | _ => p }
  else if o = 0x880 then upd 0 fun x =>
    { x with cdbg := (w &&& 0x7E00FFFF) ||| (x.cdbg &&& 0x81000000) ||| (w &&& 0x80000000) }
  else if o / 8 = 0x111 then upd 0 fun x => { x with evr := { x.evr with base := setHalf x.evr.base hi w } }
  else if o = 0x890 then upd 0 fun x => { x with evr := x.evr.write false w }
  else if o = 0x898 then upd 0 fun x => { x with evr := { x.evr with rptr := w } }
  else if o / 8 = 0x114 then upd 1 fun x => { x with trr := { x.trr with base := setHalf x.trr.base hi w } }
  else if o = 0x8A8 then upd 1 fun x => { x with trr := x.trr.write true w }
  else if o = 0x8B0 then upd 1 fun x => { x with trr := { x.trr with rptr := w } }
  else if o / 8 = 0x117 then upd 3 fun x => { x with cnsb := setHalf x.cnsb hi w }
  else if o = 0x8C0 then upd 3 fun x =>
    let mode := if w.toNat / 2 ^ 30 = 3 then x.cnsc &&& 0xC0000000 else w &&& 0xC0000000
    { x with cnsc := mode ||| (w &&& 0x1F) ||| (x.cnsc &&& 0x20000000 &&& ~~~w) }
  else if o = 0x8C8 then upd 3 fun x => { x with cnsNext := w }
  else if o = 0x8CC then upd 3 fun x => { x with cnsEnd := w }
  else if o = 0x8D0 then
    (if s.feature 2 then
      let s := s.tdFreeze c (w.getLsbD 1)
      if w.getLsbD 0 then s.tdClear c else s
     else s)
  else s

/-- A 32-bit write of a management register; an unlisted offset is ignored (R302). -/
def State.regWrite32 (s : State) (off : Nat) (w : Word) : State :=
  match blockOf off with
  | .pkg o => s.pkgWrite o w
  | .die d o => s.dieWrite d o w
  | .cluster c o => if o = 0 then s.modCluster c fun x => { x with cevdrop := 0 } else s
  | .core c o => s.coreWrite c o w
  | .none => s

/-- A read of 4 or 8 bytes of the window; other sizes name no register. -/
def State.regRead (s : State) (off size : Nat) : Nat :=
  match size with
  | 4 => (s.regRead32 off).toNat
  | 8 => (joinPair (s.regRead32 off) (s.regRead32 (off + 4))).toNat
  | _ => 0
/-- A write of 4 or 8 bytes, the low word first (R302). -/
def State.regWrite (s : State) (off size : Nat) (v : DWord) : State :=
  match size with
  | 4 => s.regWrite32 off (loWord v)
  | 8 => (s.regWrite32 off (loWord v)).regWrite32 (off + 4) (hiWord v)
  | _ => s
/-- The offset of a physical address in the management window. -/
def regOffset (loc : Nat) : Option Nat := if 7 * 2 ^ 48 ≤ loc && loc < 7 * 2 ^ 48 + 0x5000000 then some (loc - 7 * 2 ^ 48) else none

end Sys2Proof.Machine
end

