-- ==== Sys2Proof/Machine/Link.lean ====
section
/-! DEFINITION. Sending a packet into the fabric: routes and ports (R317, R318), flows and sequence numbers (R319), the
retransmit buffer and its room (R316, R321, R322). -/

namespace Sys2Proof.Machine

/-- Why a packet cannot leave. -/
inductive SendFail where
  | noRoute | noPort | denied
  deriving DecidableEq, Repr
/-- The recorded kind and the operation status of such a failure (R317, R320). -/
def SendFail.kind : SendFail → MemKind
  | .noRoute => .translation | .noPort => .dataError | .denied => .accessTable
def SendFail.status : SendFail → Status
  | .noRoute => .fault | .noPort => .linkfail | .denied => .access

/-- Whether a port's link is up (R318). -/
def Pkg.portUp (p : Pkg) (port : Nat) : Bool := (p.fpstat.getD port 0).getLsbD 31
/-- The ports of a route entry, in order (R317). -/
def routePorts (e : Word) : List Nat :=
  ([bitsOf e.toNat 5 0, bitsOf e.toNat 11 6, bitsOf e.toNat 17 12, bitsOf e.toNat 23 18]).take (bitsOf e.toNat 25 24 + 1)
/-- The port a flow leaves by (R317). -/
def Pkg.egress (p : Pkg) (dst die clu tdie : Nat) : Except SendFail Nat :=
  let e := (look dst p.routes).getD 0
  if !e.getLsbD 31 then .error .noRoute
  else
    let up := (routePorts e).filter p.portUp
    if up.isEmpty then .error .noPort else .ok (up.getD ((8 * die + clu + tdie) % up.length) 0)
/-- The global pointer of an offset on a die of a package (R190). -/
def globalPtr (pkg die off : Nat) : Nat := 2 ^ 63 + pkg * 2 ^ 53 + die * 2 ^ 51 + off

def tyBytes (t : Ty) : Nat := if t.is64 then 8 else 4
/-- Bytes that a packet's copy takes in the retransmit buffer (R316, R321): its data. DESIGN CHOICE (log 33): a packet without data counts
64, since the spec gives its copy no size. -/
def bodyBytes : PktBody → Nat
  | .store _ _ bs => bs.length
  | .radd _ _ t vs => vs.length * tyBytes t
  | .tile t => t.bytes.length
  | .chunk m => 8 * m.values.length
  | .deliver _ _ _ _ _ _ bs _ => bs.length
  | _ => 64
/-- Whether the 16 MiB of the buffer have room for n more bytes. -/
def Pkg.fits (p : Pkg) (n : Nat) : Bool := decide ((p.retx.map fun r => bodyBytes r.pkt.body).sum + n ≤ 16 * 2 ^ 20)
/-- Whether n bytes can be sent now: packets that wait already come first. -/
def State.retxRoom (s : State) (n : Nat) : Bool := s.pkg.outq.isEmpty && s.pkg.fits n
/-- A packet leaves with its copy in the buffer; where that has no room it waits, in order (R321). -/
def Pkg.post (p : Pkg) (r : Retx) : Pkg :=
  if p.outq.isEmpty && p.fits (bodyBytes r.pkt.body) then { p with retx := p.retx ++ [r] } else { p with outq := p.outq ++ [r] }
/-- Packets that wait leave as room comes, at most n of them. -/
def Pkg.advance (now : Nat) : Nat → Pkg → Pkg
  | 0, p => p
  | n + 1, p =>
    match p.outq with
    | [] => p
    | r :: l =>
      if p.fits (bodyBytes r.pkt.body) then Pkg.advance now n { p with retx := p.retx ++ [{ r with clk := now }], outq := l } else p
/-- A copy leaves the buffer, and packets that waited for its room go. -/
def Pkg.drop (p : Pkg) (now id : Nat) : Pkg :=
  Pkg.advance now p.outq.length { p with retx := p.retx.filter fun x => x.id != id }

/-- A packet of a flow leaves for another package; `addr` is what the port's access table checks it by (R308). -/
def State.send (s : State) (p : Site) (job master dst tdie addr : Nat) (a : Acc) (body : PktBody) (op : Option Nat) :
    Except SendFail Nat × State :=
  match s.pkg.egress dst p.die p.clu tdie with
  | .error e => (.error e, s)
  | .ok port =>
    if !s.accessOk (40 + port) master a addr then (.error .denied, s.alarm 0 addr (40 + port) master job)
    else
      let flow := (dst, p.die, p.clu, tdie)
      let n := ((s.pkg.seqs.find? fun e => e.1 == flow).map (·.2)).getD 0
      let (id, s) := s.fresh
      let pkt : Packet := ⟨Config.pkgNumber, dst, p.die, p.clu, tdie, n, 16, job, body⟩
      (.ok id, s.modPkg fun x => { x with seqs := (flow, n + 1) :: x.seqs.filter (fun e => e.1 != flow) }.post
        ⟨id, pkt, some port, 0, s.clk, op⟩)
/-- A packet of named data leaves by a port for the next package (R329, R330). It is its own flow there: its number is the package's. -/
def State.sendNamed (s : State) (port dst die clu tdie hops job : Nat) (body : PktBody) : State :=
  let (id, s) := s.fresh
  s.modPkg fun x => x.post ⟨id, ⟨Config.pkgNumber, dst, die, clu, tdie, id, hops, job, body⟩, some port, 0, s.clk, none⟩

end Sys2Proof.Machine
end

