-- ==== Sys2Proof/Machine/Access.lean ====
section
/-! DEFINITION. Memory accesses: issue (R164, R165), faults and replay records (R166, R260), performance at their
location with the order the rules keep (R164, R197, R198, R208, R288), atomics (R167), watches (R360). -/

namespace Sys2Proof.Machine

/-! ## Atomic operations (R167) -/

/-- The new value of an atomic at n bits: old contents, operand b, and the second operand of .cas. -/
def atomNew (o : AtomOp) (n old b b2 : Nat) : Nat :=
  let t := if n = 64 then FF.f64 else FF.f32
  let lt := fun (x y : Nat) => decide (exact true n x < exact true n y)
  match o with
  | .add => (old + b) % 2 ^ n
  | .smin => if lt b old then b else old
  | .smax => if lt old b then b else old
  | .umin => min old b
  | .umax => max old b
  | .and => old &&& b
  | .or => old ||| b
  | .xor => old ^^^ b
  | .exch => b
  | .cas => if old = b then b2 else old
  | .wrap => if b = 0 then (old + 1) % 2 ^ n else (old + 1) % 2 ^ n % b
  | .upto => if old < b then old + 1 else old
  | .fadd => (t.add .rn old b 0).1
  | .fmin => (t.minMax false old b).1
  | .fmax => (t.minMax true old b).1
  | .downto => if old > b then old - 1 else old
/-- The operands of an atomic from its data registers. -/
def atomArgs (size : Nat) (data : List Word) : Nat × Nat :=
  if size = 8 then ((joinPair (data.getD 0 0) (data.getD 1 0)).toNat, (joinPair (data.getD 2 0) (data.getD 3 0)).toNat)
  else ((data.getD 0 0).toNat, (data.getD 1 0).toNat)
/-- The bytes a store writes: the low bytes of its registers. -/
def storeBytes (size : Nat) (data : List Word) : List Byte := (wordBytes data).take size
/-- The register words a load of some bytes writes, zero-extended (R164). -/
def loadWords (bs : List Byte) : List Word := leWords ((bs.length + 3) / 4) (bs ++ List.replicate 3 0)
/-- Whether an access reads memory, and writes it. -/
def AccKind.reads : AccKind → Bool
  | .ld | .atom | .red | .accld => true
  | _ => false
def AccKind.writes : AccKind → Bool
  | .st | .atom | .red | .accst => true
  | _ => false
def AccKind.acc : AccKind → Acc
  | .ld | .accld => .read
  | .st | .accst => .write
  | _ => .atomic

/-! ## Faults (R166, R260) -/

/-- Whether an access raises its fibre's write-drain count (R204). -/
def AccKind.counted : AccKind → Bool
  | .st | .atom | .red => true
  | _ => false
/-- Whether access a comes before access b in the program order of their fibre: reads follow the counted word whose count they
carry. -/
def comesBefore (a : AccKind) (ta : Seat) (b : AccKind) (tb : Seat) : Bool :=
  if ta.seq != tb.seq then ta.seq < tb.seq
  else if a.counted != b.counted then a.counted
  else ta.num < tb.num
/-- Whether an access matches a recorded one (R260). -/
def matchesRecord (a : Access) (r : Replay) : Bool :=
  r.acc.space == a.space &&
    (if a.space.wide then r.acc.addr.extractLsb' 16 48 == a.addr.extractLsb' 16 48
     else r.acc.addr.extractLsb' 16 16 == a.addr.extractLsb' 16 16)
/-- Whether a record of an earlier access keeps an access from being performed. -/
def Fibre.defers (f : Fibre) (a : Access) (t : Seat) : Bool :=
  f.replay.any fun r => matchesRecord a r && comesBefore r.acc.kind r.seat a.kind t
/-- A record takes its place in a list kept in program order. -/
def insertRecord (x : Replay) : List Replay → List Replay
  | [] => [x]
  | r :: l => if comesBefore x.acc.kind x.seat r.acc.kind r.seat then x :: r :: l else r :: insertRecord x l
/-- A fibre takes a record, its destinations poisoned. -/
def Fibre.takeRecord (f : Fibre) (x : Replay) : Fibre :=
  ((List.range x.acc.ndst).map (x.acc.dst + ·)).foldl (fun f r => f.poisonReg .access r) { f with replay := insertRecord x f.replay }
/-- Whether a fibre's operation in flight is a later access that a record keeps from being performed. -/
def Op.deferredBy (o : Op) (r : Replay) : Bool :=
  match o.body with
  | .mem _ (.sent _) => false
  | .mem _ .served => false
  | .mem a _ => o.done.isNone && matchesRecord a r && comesBefore r.acc.kind r.seat a.kind o.seat
  | _ => false
/-- Whether AWWR has written a load's or an atomic's destination, so that it makes no record (R272). -/
def Access.overridden (a : Access) : Bool := (a.kind == .ld || a.kind == .atom) && a.ndst == 0
/-- A record is made: the destinations are poisoned, and each later access to the page that is not performed yet joins the list
(R166, R260). A load or atomic whose destination AWWR has written makes none (R272). -/
def State.recordFault (s : State) (k : Nat) (a : Access) (kind : MemKind) (t : Seat) : State :=
  if a.overridden then s
  else
    let r : Replay := ⟨a, kind, t⟩
    let later := (s.opsOf k).filter (·.deferredBy r)
    let s : State := { s with ops := s.ops.filter fun o => !later.any (·.id == o.id) }
    later.foldl (fun s o => match o.body with
      | .mem b _ => if b.overridden then s else s.modFibre k (·.takeRecord ⟨b, .deferred, o.seat⟩)
      | _ => s) (s.modFibre k (·.takeRecord r))

/-! ## Watches (R360) -/

/-- The SPACE code of CMPC. -/
def watchSpace : Space → Nat
  | .sp => 1 | .cm => 2 | _ => 0
/-- Whether a comparator matches an access of n bytes. -/
def Cmp.watches (c : Cmp) (f : Fibre) (rgi : Nat) (sp : Space) (addr n : Nat) (write : Bool) : Bool :=
  let x := c.ctl.toNat
  let kind := bitsOf x 5 4
  let len := 2 ^ bitsOf x 3 0
  let lo := c.addr.toNat % 2 ^ 57 / len * len
  (kind == 3 || (kind == 2 && write)) && bitsOf x 9 8 == watchSpace sp &&
    (bitsOf x 31 16 == 0xFFFF || bitsOf x 31 16 == f.fid) && (x.testBit 11 || bitsOf x 15 12 == rgi) &&
    addr < lo + len && lo < addr + n && !f.isHelper
/-- Asks the fibres of a span, or one fibre, to stop for debug (R89, R90); a Pacer context is no fibre. -/
def State.askDebug (s : State) (k : Nat) (f : Fibre) (span : Bool) : State :=
  let s := if span then s.modCore (s.site f).coreIx fun c =>
      { c with spanSet := if c.spanSet.contains (f.grp, f.fid / 32) then c.spanSet else c.spanSet ++ [(f.grp, f.fid / 32)] } else s
  s.mapFibres fun j x =>
    if j == k || (span && x.grp == f.grp && x.fid / 32 == f.fid / 32 && (x.kind == .real || x.kind == .helper)) then
      x.askStop s.clk .debug else x
/-- An access or engine piece is performed for a fibre, issued on a core under a resident-group index: one record at most, of the
comparators that match and have made none for it, and the stop it asks for; with those comparators. -/
def State.watchOf (s : State) (k core rgi : Nat) (done : List Nat) (sp : Space) (addr n : Nat) (write : Bool) (code : Nat) (ord : BitVec 24)
    (gone : Bool) : List Nat × State :=
  match s.fibre? k with
  | none => ([], s)
  | some f =>
    let hits := ((s.core core).cmps.mapIdx fun i c => (i, c)).filter fun p => p.2.watches f rgi sp addr n write && !done.contains p.1
    match hits with
    | [] => ([], s)
    | (i, _) :: _ =>
      if !s.feature 0 then ([], s)
      else
        let stop := hits.any (fun p => !p.2.ctl.getLsbD 6) && !gone && !f.isPacer
        let span := hits.any fun p => p.2.ctl.getLsbD 7
        let s := s.debugRecordOf rgi core 5 i ord.toNat code f
          (bit gone ||| bit (span && stop) <<< 1 ||| bit (!stop) <<< 2) (w32 addr) (w32 (addr / 2 ^ 32))
        (hits.map (·.1), if stop then s.askDebug k f span else s)
/-- A fibre's own access is performed. -/
def State.watch (s : State) (k : Nat) (sp : Space) (addr n : Nat) (write : Bool) (code : Nat) (ord : BitVec 24) (gone : Bool) : State :=
  match s.fibre? k with
  | none => s
  | some f => (s.watchOf k (s.site f).coreIx (((s.group? f.grp).map (·.rgi)).getD 0) [] sp addr n write code ord gone).2
/-- An operation's piece is read or written: each comparator makes one record, at the first piece that it matches (R360). -/
def State.watchOp (s : State) (o : Op) (sp : Space) (addr n : Nat) (write : Bool) : State :=
  let (hits, s) := s.watchOf o.fib o.core o.rgi (((s.op? o.id).getD o).watched) sp addr n write (bit write) o.ord o.gone
  if hits.isEmpty then s else s.modOp o.id fun x => { x with watched := x.watched ++ hits }

/-! ## Undo entries and held writes (R207, R288) -/

/-- The 8-byte bank words that n bytes from a location touch. -/
def bankWords (loc n : Nat) : List Nat := if n = 0 then [] else (List.range ((loc + n - 1) / 8 - loc / 8 + 1)).map (loc / 8 + ·)
/-- Whether a fibre's group has left its core for its saved context (R277). -/
def State.isOut (s : State) (f : Fibre) : Bool := ((s.group? f.grp).map (·.out)).getD false
/-- Whether another fibre on its core holds an undo entry for a bank word of the range. -/
def State.loggedByOther (s : State) (k loc n : Nat) : Bool :=
  (s.fibres.mapIdx fun j f => (j, f)).any fun p =>
    p.1 != k && (p.2.undo.any fun u => (bankWords loc n).contains (u.loc / 8)) && !s.isOut p.2
/-- Whether an operation of a fibre was issued under the taint that it has now: it is younger than the checkpoint. -/
def Fibre.covers (f : Fibre) (op : Nat) : Bool := f.tainted && ((f.ckpt.map fun c => decide (c.num ≤ op)).getD true)
/-- Undo entries for the bank words that a tainted fibre's store, RED or copy, by its operation, is about to write in its own .sp; every
write makes its own (R288). -/
def State.logUndo (s : State) (k op loc n : Nat) : State :=
  s.modFibre k fun f =>
    if !f.covers op then f
    else (bankWords loc n).foldl (fun f w => { f with undo := ⟨8 * w, w64 (leNat (s.getBytes (8 * w) 8))⟩ :: f.undo }) f
/-- Bytes the proofing buffer of a core holds (R289). -/
def heldBytes : HeldEff → Nat
  | .dcarm _ _ _ _ => 64
  | .fab _ _ => 64
  | .fence _ => 0
  | _ => 32
/-- Whether a fibre is on a core, its group not evicted. -/
def State.standsOn (s : State) (core : Nat) (f : Fibre) : Bool := (s.site f).coreIx == core && !s.isOut f
/-- Whether an operation's fibre is on a core under the taint that the operation was issued in. -/
def State.taintedOn (s : State) (core : Nat) (o : Op) : Bool := ((s.fibre? o.fib).map fun f => s.standsOn core f && f.covers o.id).getD false
/-- Undo entries a write of n bytes at a location needs (R288, R289). -/
def State.newUndo (s : State) (k loc n : Nat) : Nat :=
  match s.fibre? k with
  | some _ => (bankWords loc n).length
  | none => 0
def State.proofingUsed (s : State) (core : Nat) : Nat :=
  (s.fibres.filter (s.standsOn core)).foldl
    (fun n f => n + ((f.held ++ f.releasing).map fun h => heldBytes h.eff).sum + 16 * f.undo.length) 0 +
  (s.ops.map fun o => match o.body with
    | .copy c => if c.dst.space == .sp && s.taintedOn core o
                 then 16 * (bankWords (c.dst.addr.toNat + c.pos) (c.len - c.pos)).length else 0
    | .gath g => if !g.toq && s.taintedOn core o
                 then 16 * (g.left.map fun r => (bankWords (g.dst + r * g.rowLen) g.rowLen).length).sum else 0
    | .mem a (.at_ loc) => if a.space == .sp && a.kind.writes && s.taintedOn core o then 16 * (s.newUndo o.fib loc a.size) else 0
    | _ => 0).sum
/-- A held effect joins the fibre's list, in program order; false where the buffer has no room. -/
def State.hold (s : State) (f : Fibre) (e : HeldEff) (ord : BitVec 24) : Option Fibre :=
  if s.proofingUsed (s.site f).coreIx + heldBytes e > 65536 then none
  else some { f with wseq := f.wseq + 1, held := f.held ++ [⟨f.wseq + 1, e, ord, false⟩] }
/-- The bytes a fibre's load sees: memory, and over it the fibre's own held writes issued before it, those that are being released
among them (R207). -/
def State.overlay (s : State) (f : Fibre) (loc n wseq : Nat) (bs : List Byte) : List Byte :=
  ((f.releasing ++ f.held).filter fun h => h.wseq ≤ wseq).foldl (fun bs h =>
    match h.eff with
    | .mem a =>
      match s.placeNow false f a.space a.addr.toNat a.size .write with
      | (.at_ l, _) =>
        let old := leNat ((List.range a.size).map fun i => if loc ≤ l + i && l + i < loc + n then bs.getD (l + i - loc) 0 else Memory.get s.mem (l + i))
        let new := if a.kind == .red then leBytes a.size (atomNew a.aop (8 * a.size) old (atomArgs a.size a.data).1 (atomArgs a.size a.data).2)
                   else storeBytes a.size a.data
        (List.range n).map fun i => if l ≤ loc + i && loc + i < l + a.size then new.getD (loc + i - l) 0 else bs.getD i 0
      | _ => bs
    | _ => bs) bs

/-! ## The order of one fibre's accesses -/

/-- Whether two ranges meet. -/
def meets (a n b m : Nat) : Bool := a < b + m && b < a + n
/-- Whether an older outstanding access keeps a younger one of its fibre from being performed: an acquire, anything
before a release, one location, .sys order (R164, R198, R208); a place not yet known counts as one that may meet. -/
def blocks (old new : Access) (xo xn : Xlat) : Bool :=
  old.order == .acq || new.order == .rel || (old.space == .sys && new.space == .sys) ||
  match xo, xn with
  | .at_ a, .at_ b => meets a old.size b new.size
  | .at_ _, .walking => old.space == new.space || (old.space.wide && new.space.wide)
  | .walking, .at_ _ => old.space == new.space || (old.space.wide && new.space.wide)
  | .walking, .walking => old.space == new.space || (old.space.wide && new.space.wide)
  | .remote _ _ _, .remote _ _ _ => meets old.addr.toNat old.size new.addr.toNat new.size
  | .sent _, .remote _ _ _ => meets old.addr.toNat old.size new.addr.toNat new.size
  | _, _ => false
/-- Whether an outstanding access may be performed, or leave for another package, now. -/
def State.mayPerform (s : State) (o : Op) (a : Access) (x : Xlat) : Bool :=
  (s.accesses o.fib).all fun p => p.id == o.id || match p.body with
    | .mem _ .served => true
    | .mem b y => !comesBefore b.kind p.seat a.kind o.seat || !blocks b a y x
    | _ => true
/-- Whether two operations are lanes of one instruction: issued together by one span at one word (R83, R146). -/
def State.lanes (s : State) (o p : Op) : Bool :=
  o.grp == p.grp && o.at_ == p.at_ && o.born == p.born &&
    ((s.fibre? o.fib).map (·.fid / 32)) == ((s.fibre? p.fib).map (·.fid / 32)) && o.fib != p.fib
/-- Whether other lanes of a load's or atomic's instruction are still to be served (R146). -/
def State.lanesLeft (s : State) (o : Op) : Bool :=
  s.ops.any fun p => p.done.isNone && (match p.body with | .mem b x => b.kind.reads && x != .served | _ => false) && s.lanes o p
/-- The scratchpad instructions all of whose lanes have been served are complete: their destinations can be read (R146). -/
def State.releaseLanes (s : State) : State :=
  { s with ops := s.ops.filter fun o => match o.body with | .mem _ .served => s.lanesLeft o | _ => true }
/-- Whether an atomic lane comes next at its location: those of its instruction with a lower %fid have been performed (R167). -/
def State.laneTurn (s : State) (o : Op) (a : Access) : Bool :=
  !(a.kind == .atom || a.kind == .red) || s.ops.all fun p => match p.body with
    | .mem _ .served => true
    | .mem b _ => !(b.kind == a.kind && b.space == a.space && b.addr.toNat < a.addr.toNat + a.size && a.addr.toNat < b.addr.toNat + b.size) ||
        p.done.isSome || !s.lanes o p || ((s.fibre? o.fib).map (·.fid)).getD 0 < ((s.fibre? p.fib).map (·.fid)).getD 0
    | _ => true
/-- The scratchpad banks that n bytes from a location touch (R145). -/
def banksOf (loc n : Nat) : List Nat := (bankWords loc n).map (· % 32)

/-! ## Performing an access at its location -/

/-- A read of n bytes at a location; management registers answer by their rules (R302). -/
def State.readAt (s : State) (loc n : Nat) : List Byte :=
  match regOffset loc with
  | some off => leBytes n (s.regRead off n)
  | none => s.getBytes loc n
/-- The requester ID of a job's outbound requests: that of the function whose queue launched it, function 0 for what no job asks (R303). -/
def State.requester (s : State) (job : Nat) : BitVec 16 :=
  let fn := ((s.job? job).map (·.fn)).getD 0
  ((look fn s.pkg.tdis).map (·.reqId)).getD (BitVec.ofNat 16 fn)
/-- A write of bytes at a location. Stores to host memory are also the posted writes of R208, under a requester's ID (R303). -/
def State.writeAt (s : State) (req : BitVec 16) (loc : Nat) (bs : List Byte) : State :=
  match regOffset loc with
  | some off => s.regWrite off bs.length (w64 (leNat bs))
  | none =>
    let s := s.store loc bs
    if 2 ^ 51 ≤ loc && loc < 2 ^ 52 then s.modPkg fun p => { p with posted := p.posted ++ [(req, w64 (loc - 2 ^ 51), bs)] } else s

/-- The data of a load reach its registers; a destination that AWWR wrote meanwhile is not written (R272). -/
def Fibre.receive (f : Fibre) (a : Access) (ws : List Word) : Fibre := f.setRun a.dst (ws.take a.ndst)
/-- Whether writes to a space are seen by agents of several instances (R189, R195); .sp is its group's alone. -/
def sharedSpace : Space → Bool
  | .g | .cm | .sys => true
  | _ => false
/-- Whether a location belongs to the host (R301). -/
def inHost (loc : Nat) : Bool := 2 ^ 51 ≤ loc && loc < 2 ^ 52
/-- Whether a fibre's write to a range is kept among the recent ones: others may see it late, or it is strong, or it follows a fence, or the
range holds one that is kept (R195, R198). -/
def State.keepsWrite (s : State) (f : Fibre) (a : Access) (loc : Nat) : Bool :=
  sharedSpace a.space || a.strength.isSome || !f.rels.isEmpty || s.past.any (·.meets loc a.size)
/-- A fibre's write: others may see it late (R195 to R200). A store that leaves by the host port releases towards the host (R312). -/
def State.writeFor (s : State) (k : Nat) (f : Fibre) (a : Access) (chain : List Sync) (loc seq : Nat) (bs : List Byte) : State :=
  if s.keepsWrite f a loc && (regOffset loc).isNone then
    let t := (s.writeAt (s.requester (s.jobOf f)) loc bs).notePast s k f a.strength (if a.order == .rel then some a.reach else none) chain loc bs.length seq none
    if inHost loc then t.releaseToHost else t
  else s.writeAt (s.requester (s.jobOf f)) loc bs
/-- What a write of no fibre's word, or one of a signal, leaves at a location: it carries the releases of the value it changes, and
those given (R198, R206). -/
def State.chainWrite (s : State) (k : Nat) (f : Fibre) (rels : List Sync) (change : Bool) (loc : Nat) (bs : List Byte) : State :=
  let rels := rels ++ if change then s.carriedBy loc bs.length else []
  if rels.isEmpty || (regOffset loc).isSome then s.writeAt (s.requester (s.jobOf f)) loc bs
  else (s.writeAt (s.requester (s.jobOf f)) loc bs).notePast s k { f with rels := [] } (some .sys) none rels loc bs.length 0 none
/-- A piece that an engine writes: for an operation of a fibre others, and the fibre until it retires, may see it late, in .sp too (R203). -/
def State.landPiece (s : State) (k : Nat) (f : Fibre) (o : Option Op) (loc : Nat) (bs : List Byte) : State :=
  match o with
  | some o =>
    if (regOffset loc).isNone then
      (s.writeAt (s.requester (s.jobOf f)) loc bs).notePast s k { f with rels := o.fenced } none none [] loc bs.length o.seq (some o.id)
    else s.writeAt (s.requester (s.jobOf f)) loc bs
  | none => s.writeAt (s.requester (s.jobOf f)) loc bs
/-- The bytes a load finds at its location, and what its fibre then knows (R196 to R198, R207). -/
def State.loadFor (s : State) (k : Nat) (f : Fibre) (a : Access) (loc seq : Nat) : List Byte × State :=
  if sharedSpace a.space || s.past.any (·.meets loc a.size) then
    let (missed, kept) := s.splitPast k f a loc
    (s.overlay f loc a.size seq (takeBack loc (s.readAt loc a.size) missed),
      { s with looked := s.looked + 1 }.modFibre k fun f => s.observe f a loc kept)
  else (s.overlay f loc a.size seq (s.readAt loc a.size), s)
/-- An atomic's new contents. -/
def atomBytes (a : Access) (old : List Byte) : List Byte :=
  leBytes a.size (atomNew a.aop (8 * a.size) (leNat old) (atomArgs a.size a.data).1 (atomArgs a.size a.data).2)

/-- What a load brings to the releases that its fibre made after it while it was out (R204). -/
def QEntry.told (e : QEntry) (op : Nat) (v : List Nat) : QEntry :=
  if e.lds.contains op then { e with lds := e.lds.filter (· != op), view := e.view.map fun x => { x with view := joinView x.view v } } else e
def State.tellEntries (s : State) (k op : Nat) (v : List Nat) : State :=
  { s with
    queues := s.queues.map fun q => { q with ring := q.ring.map (·.told op v), ext := q.ext.map (·.told op v), spillWait := q.spillWait.map (·.told op v) }
    msgs := s.msgs.map fun m => match m.body with
      | .push q e d => { m with body := .push q (e.told op v) d }
      | _ => if m.fib == k && op < m.id then { m with view := joinView m.view v } else m }
/-- The port refuses the outbound requests of a job's TDI in ERROR, and in CONFIG_LOCKED, where its DMA is not yet enabled (R306). -/
def State.sysRefused (s : State) (job : Nat) : Bool :=
  match s.job? job with
  | some j => ((look j.fn s.pkg.tdis).map fun t => t.state == .error || t.state == .locked).getD false
  | none => false

/-- One access performed at its location: the effect on memory, the registers, the record of an uncorrectable element,
the watch. -/
def State.performAt (s : State) (k : Nat) (a : Access) (loc : Nat) (t : Seat) : State :=
  match s.fibre? k with
  | none => s
  | some f =>
    if inHost loc && s.sysRefused (s.jobOf f) then s.recordFault k a .accessTable t
    else if a.kind.reads && s.poisonedAt loc a.size then
      s.recordFault k a .dataError t
    else
      let code := match a.kind with | .ld => 0 | .st => 1 | _ => 2
      let s := s.watch k a.space a.addr.toNat a.size a.kind.writes code t.ord false
      match a.kind with
      | .ld =>
        match inHost loc, s.pkg.replies with
        | true, r :: rs =>
          let s := s.modPkg fun p => { p with replies := rs }
          s.modFibre k fun f => f.receive a (loadWords ((r ++ List.replicate a.size 0).take a.size))
        | _, _ =>
          let (bs, s) := s.loadFor k f a loc t.seq
          let got := ((s.fibre? k).map fun g => g.seen.filter fun i => !f.seen.contains i).getD []
          (s.tellEntries k t.num got).modFibre k fun f => f.receive a (loadWords bs)
      | .st =>
        let s := if a.space == .sp then s.logUndo k t.num loc a.size else s
        s.writeFor k f a [] loc t.seq (storeBytes a.size a.data)
      | _ =>
        let old := s.readAt loc a.size
        let s := if a.space == .sp then s.logUndo k t.num loc a.size else s
        let g := s.observe f a loc (s.past.filter (·.meets loc a.size))
        let s := ((s.modFibre k fun f => { f with seen := g.seen, acqs := g.acqs }).tellEntries k t.num (g.seen.filter fun i => !f.seen.contains i)).writeFor k g a (s.carriedBy loc a.size) loc t.seq (atomBytes a old)
        s.modFibre k fun f => f.receive a (loadWords old)

/-- Whether an access to a location must wait for another fibre's undo entry (R288). -/
def State.undoBlocked (s : State) (k : Nat) (a : Access) (loc : Nat) : Bool :=
  a.space == .sp && s.loggedByOther k loc a.size
/-- Whether an access's bank requests are at the head of their queues: those of accesses of the core issued before it are served
first (R146). -/
def State.bankTurn (s : State) (o : Op) (a : Access) (loc : Nat) : Bool :=
  a.space != .sp || s.ops.all fun p => o.id ≤ p.id || match p.body with
    | .mem b (.at_ l) => b.space != .sp || l / 2 ^ 21 != loc / 2 ^ 21 || p.done.isSome || !(banksOf l b.size).any (banksOf loc a.size).contains ||
        !s.mayPerform p b (.at_ l) || s.undoBlocked p.fib b l
    | _ => true

/-! ## Issue -/

/-- The place of the word at which a fibre stands. -/
def State.seatNow (s : State) (f : Fibre) : Seat := ⟨f.wseq, s.nextId, s.ordAt f f.rp⟩

/-- The packet of a remote access (R319). -/
def remoteBody (a : Access) (die off : Nat) : PktBody :=
  match a.kind with
  | .ld => .load die off a.size
  | .st => .store die off (storeBytes a.size a.data)
  | _ => .atom die off a.size a.aop (w64 (atomArgs a.size a.data).1) (w64 (atomArgs a.size a.data).2)

/-- The die whose tables translate an address for an agent (R190). -/
def transDie (p : Site) (addr : DWord) : Nat := if addr.getLsbD 63 then (addr.extractLsb' 51 2).toNat else p.die
/-- An access enters the machine at its place in the program order: it faults at once, or becomes an operation in flight (R165, R166,
R250). -/
def State.issueAccess (s : State) (k : Nat) (a : Access) (seq : Nat) (ord : BitVec 24) : State :=
  match s.fibre? k with
  | none => s
  | some f =>
    let (id, s) := s.fresh
    let t : Seat := ⟨seq, id, ord⟩
    let out := fun (s : State) (x : Xlat) => s.addOp { s.newOp k f id .none (.mem a x) ord with seq := seq }
    if f.defers a t then s.recordFault k a .deferred t
    else if a.addr.toNat % a.size != 0 then s.recordFault k a .misaligned t
    else
      match s.place false f a.space a.addr.toNat a.size a.kind.acc with
      | (.bad kind, s) => s.recordFault k a kind t
      | (.at_ loc, s) => out s (.at_ loc)
      | (.walk va, s) =>
        let p := s.site f
        out (s.startWalk ⟨transDie p a.addr, p.clu, p.core⟩ (s.jobOf f) va) .walking
      | (.remote pkg die off, s) => out s (.remote pkg die off)
/-- An access to another package leaves once the order of its fibre's accesses allows it (R198, R319). -/
def State.sendRemote (s : State) (o : Op) : State :=
  match o.body, s.fibre? o.fib with
  | .mem a (.remote pkg die off), some f =>
    if o.done.isSome || !s.mayPerform o a (.remote pkg die off) || !s.laneTurn o a then s
    else match s.send (s.site f) (s.jobOf f) (s.master f) pkg die a.addr.toNat a.kind.acc (remoteBody a die off) (some o.id) with
      | (.error e, s) => (s.dropOp o.id).recordFault o.fib a e.kind o.seat
      | (.ok pkt, s) => s.modOp o.id fun o => { o with body := .mem a (.sent pkt) }
  | _, _ => s
/-- Every access to another package that may leave does. -/
def State.sendRemotes (s : State) : State :=
  (s.ops.filter fun o => match o.body with | .mem _ (.remote _ _ _) => true | _ => false).foldl (fun s o =>
    match s.op? o.id with
    | some o => s.sendRemote o
    | none => s) s

/-- Accesses a fibre has out, its ACCLDs and ACCSTs among them, since each may come to its list, and the records there (R165). -/
def State.accessCount (s : State) (k : Nat) (f : Fibre) : Nat :=
  (s.accesses k).length + ((s.opsOf k).filter fun o => o.done.isNone && match o.body with | .acc (.move _) => true | _ => false).length +
    f.replay.length
/-- Whether the fibre may have one more access out; effects still being released come before it (R165, R207). -/
def State.accessRoom (s : State) (k : Nat) (f : Fibre) : Bool := s.accessCount k f < 8 && f.releasing.isEmpty
/-- Whether nothing of a fibre's earlier accesses is still to be performed. -/
def State.accessesDone (s : State) (k : Nat) (f : Fibre) : Bool := (s.accesses k).isEmpty && f.releasing.isEmpty

/-- A waiting access whose walk is done finds its place, or faults. -/
def State.resolveAccess (s : State) (id : Nat) : State :=
  match s.op? id with
  | none => s
  | some o =>
  match o.body, s.fibre? o.fib with
  | .mem a .walking, some f =>
    match s.place false f a.space a.addr.toNat a.size a.kind.acc with
    | (.at_ loc, s) => s.modOp o.id fun o => { o with body := .mem a (.at_ loc), start := s.clk }
    | (.bad kind, s) => (s.dropOp o.id).recordFault o.fib a kind o.seat
    | (_, s) => s
  | _, _ => s

end Sys2Proof.Machine
end

