-- ==== Sys2Proof/Machine/Queues.lean ====
section
/-! DEFINITION. Task queues at their homes (R214 to R219, R227, R228) and dependence counters (R220, R232, R233): what
releasing, ordering, removing an entry and applying a counter word do. -/

namespace Sys2Proof.Machine

/-! ## The write-drain count (R204) -/

/-- Whether an operation is an access of a fibre up to a count and not yet performed; a word that stamps raises the count, so that the
loads before it stand below (R196, R204). -/
def Op.upTo (o : Op) (n : Nat) : Bool :=
  match o.body with
  | .mem _ _ => o.seq ≤ n && o.done.isNone
  | _ => false
/-- Whether every stamped write has been performed: none in flight, held, being released or on the replay list (R204, R220, R260). -/
def State.drained (s : State) (stamp : Option (Nat × Nat)) : Bool :=
  match stamp with
  | none => true
  | some (k, n) => !(s.ops.any fun o => o.fib == k && o.upTo n) &&
      ((s.fibre? k).map fun f => (f.releasing ++ f.held).all (fun h => h.wseq > n) &&
        f.replay.all fun r => !r.acc.kind.writes || r.seat.seq > n).getD true

/-! ## Identifiers (R280) -/

def mkAid (die slot gen : Nat) : BitVec 32 := BitVec.ofNat 32 (Config.pkgNumber <<< 22 ||| die <<< 20 ||| slot <<< 12 ||| gen)
def aidPkg (a : BitVec 32) : Nat := bitsOf a.toNat 31 22
def aidDie (a : BitVec 32) : Nat := bitsOf a.toNat 21 20
def aidSlot (a : BitVec 32) : Nat := bitsOf a.toNat 19 12
def aidGen (a : BitVec 32) : Nat := bitsOf a.toNat 11 0
/-- The slot an AID names at its home on this package, where it is taken and of that generation. -/
def State.slotOf (s : State) (a : BitVec 32) : Option AidSlot :=
  if a = 0 || aidPkg a != Config.pkgNumber then none
  else match look (aidSlot a) (s.die (aidDie a)).slots with
    | some x => if x.gen = aidGen a && x.state != .free then some x else none
    | none => none
def State.modSlot (s : State) (a : BitVec 32) (u : AidSlot → AidSlot) : State :=
  s.modDie (aidDie a) fun d => { d with slots := d.slots.map fun e => if e.1 == aidSlot a then (e.1, u e.2) else e }
/-- The lowest-numbered free slot of a die. -/
def Die.freeSlot (d : Die) : Option Nat := lowestFree 256 ((d.slots.filter fun e => e.2.state != .free).map (·.1))
/-- The generation a slot's next mint gets. -/
def Die.nextGen (d : Die) (i : Nat) : Nat :=
  match look i d.slots with
  | some x => if x.gen = 4095 then 1 else x.gen + 1
  | none => 1
/-- Whether dies may join an AID's receiver set (R282). -/
def State.mayJoin (s : State) (a : BitVec 32) (pkg die : Nat) : Bool :=
  match s.slotOf a with
  | some x => x.recv.contains (pkg, die) || x.recv.length < 64
  | none => true
def State.joinSet (s : State) (a : BitVec 32) (pkg die : Nat) : State :=
  s.modSlot a fun x => if x.gen = aidGen a && !x.recv.contains (pkg, die) then { x with recv := x.recv ++ [(pkg, die)] } else x

/-- Whether an AID can join nothing any more, as its home on this package has it: denied, or gone from its slot (R229, R282). -/
def State.deadAid (s : State) (a : BitVec 32) : Bool :=
  aidPkg a == Config.pkgNumber && match s.slotOf a with
    | some x => x.state == .denied
    | none => true

/-! ## The order of a queue (R216) -/

def QEntry.prio (e : QEntry) : Nat := bitsOf (e.words.getD 7 0).toNat 31 24
def QEntry.tries (e : QEntry) : Nat := bitsOf (e.words.getD 7 0).toNat 23 16
def QEntry.task (e : QEntry) : Nat := (e.words.getD 6 0).toNat
/-- Whether a comes before b: PRIO, release clk, TASK, source. -/
def QEntry.before (a b : QEntry) : Bool :=
  if a.prio != b.prio then b.prio < a.prio
  else if a.relClk != b.relClk then a.relClk < b.relClk
  else if a.task != b.task then a.task < b.task
  else a.src < b.src
/-- The entry first in order among those no fibre has taken, with its place in the ring. -/
def firstEntry : List QEntry → Nat → Option (Nat × QEntry)
  | [], _ => none
  | e :: l, i =>
    match e.takenBy, firstEntry l (i + 1) with
    | some _, r => r
    | none, some (j, x) => if x.before e then some (j, x) else some (i, e)
    | none, none => some (i, e)

/-! ## Counts (R222) -/

/-- The four counts of a job on a die: PUSHED, POPPED, SENT, RECVD. -/
abbrev Counts := BitVec 64 × BitVec 64 × BitVec 64 × BitVec 64
def Die.countsOf (d : Die) (job : Nat) : Counts := (look job d.counts).getD (0, 0, 0, 0)
def State.count (s : State) (die job : Nat) (u : Counts → Counts) : State :=
  s.modDie die fun d => { d with counts := assign job (u (d.countsOf job)) d.counts }
def State.countPushed (s : State) (die job : Nat) : State := s.count die job fun c => (c.1 + 1, c.2.1, c.2.2.1, c.2.2.2)
def State.countPopped (s : State) (die job : Nat) : State := s.count die job fun c => (c.1, c.2.1 + 1, c.2.2.1, c.2.2.2)
def State.countSent (s : State) (die job : Nat) : State := s.count die job fun c => (c.1, c.2.1, c.2.2.1 + 1, c.2.2.2)
def State.countRecvd (s : State) (die job : Nat) : State := s.count die job fun c => (c.1, c.2.1, c.2.2.1, c.2.2.2 + 1)

/-! ## Release, removal and refill (R217) -/

def Queue.homeDie (q : Queue) : Nat := q.home.2.1
def Queue.homeClu (q : Queue) : Nat := cluIx q.home.2.1 q.home.2.2
/-- The agent that a home's accesses to its queue's extension are made for: its control core's master, with the job's translations. -/
def State.queueAgent (s : State) (q : Queue) : Fibre := s.agent q.homeDie q.job (0x4100 + q.homeClu)
/-- Where the n-th spilled entry lies: the extension is filled round and round (DESIGN CHOICE, log 33). -/
def Queue.extAddr (q : Queue) (n : Nat) : Nat := q.ovfBase.toNat + 32 * (n % max q.ovfCnt 1)
/-- An entry goes to the extension: its 32 bytes to memory, the home's metadata beside them (R214, R217). -/
def State.spillEntry (s : State) (job num : Nat) (e : QEntry) : State :=
  match s.queue? job num with
  | none => s
  | some q =>
    let s := match s.findNow (s.queueAgent q) .g (q.extAddr q.extNext) 32 .write with
      | (.at_ loc, s) => s.store loc (wordBytes e.words)
      | (_, s) => s
    s.modQueue job num fun q => { q with ext := q.ext ++ [e], extNext := q.extNext + 1, spilling := true }
/-- The oldest entry of the extension as memory has it; where it cannot be read, as it went there (DESIGN CHOICE, log 33). -/
def State.spilledEntry (s : State) (q : Queue) (e : QEntry) : QEntry × State :=
  match s.findNow (s.queueAgent q) .g (q.extAddr (q.extNext - q.ext.length)) 32 .read with
  | (.at_ loc, s) => (if s.poisonedAt loc 32 then e else { e with words := leWords 8 (s.getBytes loc 32) }, s)
  | (_, s) => (e, s)
/-- One entry goes a place on, in release order: from the extension into the ring as a slot is free (R217); once the episode's record
stands, from behind the extension into it. One that finds ring and extension full, as a counter's successor may, waits behind them
(DESIGN CHOICE, log 33). -/
def State.queueStep (s : State) (job num : Nat) : Option State :=
  match s.queue? job num with
  | none => none
  | some q =>
    let room := decide (q.ring.length < q.depth)
    match q.ext, q.spillWait with
    | e :: l, _ =>
      if room then
        let (e, s) := s.spilledEntry q e
        some (s.modQueue job num fun q => { q with ring := q.ring ++ [e], ext := l, spilling := !(l.isEmpty && q.spillWait.isEmpty) })
      else behind q
    | [], e :: l =>
      if room && q.ovfCnt == 0 then some (s.modQueue job num fun q => { q with ring := q.ring ++ [e], spillWait := l, spilling := false })
      else behind q
    | [], [] => none
where
  behind (q : Queue) : Option State :=
    match q.spillWait with
    | e :: l => if q.spilling && q.ext.length < q.ovfCnt then some ((s.modQueue job num fun q => { q with spillWait := l }).spillEntry job num e) else none
    | [] => none
/-- Entries move on while one can. -/
def State.refillQueue (s : State) (job num : Nat) : Nat → State
  | 0 => s
  | n + 1 =>
    match s.queueStep job num with
    | some s => s.refillQueue job num n
    | none => s
def State.settleQueue (s : State) (job num : Nat) : State :=
  s.refillQueue job num (((s.queue? job num).map fun q => q.ext.length + 2 * q.spillWait.length).getD 0)
/-- An entry leaves the ring. -/
def State.takeOut (s : State) (job num i : Nat) : State :=
  (s.modQueue job num fun q => { q with ring := q.ring.eraseIdx i }).settleQueue job num
/-- Denied entries that have come to the front are removed; each counts as popped (R229, R290). To a pop, an entry whose AID its home holds
denied is one too, though the queue's die has not applied that yet (R284). -/
def State.dropDeniedN (s : State) (job num : Nat) (popped : Bool) : Nat → State
  | 0 => s
  | n + 1 =>
    match s.queue? job num with
    | none => s
    | some q =>
      match firstEntry q.ring 0 with
      | some (i, e) =>
        if e.denied || (popped && e.aids.any fun a => s.deadAid a.1) then
          ((s.takeOut job num i).countPopped q.homeDie job).dropDeniedN job num popped n
        else s
      | none => s
def State.dropDenied (s : State) (job num : Nat) (popped : Bool) : State :=
  match s.queue? job num with
  | some q => if q.home.1 == Config.pkgNumber then s.dropDeniedN job num popped (q.ring.length + q.ext.length + q.spillWait.length) else s
  | none => s
/-- An entry leaves the ring, and a denied one that comes to the front with that goes too. -/
def State.removeEntry (s : State) (job num i : Nat) : State := (s.takeOut job num i).dropDenied job num false
/-- An entry leaves for a queue whose home is another package (R319). -/
def State.pushAway (s : State) (p : Site) (master : Nat) (q : Queue) (e : QEntry) : State :=
  (s.send p q.job master q.home.1 q.homeDie 0 .write (.push ⟨q.num, e.words, e.aids⟩) none).2
/-- An entry is released into a queue: into the ring, or the extension. The first of a spill episode waits there with event 0x06, and
what comes behind it too (R211, R217). A queue of another package is sent it from a site of this one, and counts it as SENT. -/
def State.releaseEntry (s : State) (job num : Nat) (p : Site) (e : QEntry) : State :=
  match s.queue? job num with
  | none => s
  | some q =>
    if q.home.1 != Config.pkgNumber then (s.countSent p.die job).pushAway p (0x4100 + p.cluIx) q e
    else
      let s := s.countPushed q.homeDie job
      let e := { e with relClk := s.clk }
      let s :=
        if q.ring.length < q.depth && q.ext.isEmpty && q.spillWait.isEmpty then s.modQueue job num fun q => { q with ring := q.ring ++ [e] }
        else if q.spilling && q.spillWait.isEmpty && q.ext.length < q.ovfCnt then s.spillEntry job num e
        else
          let s := s.modQueue job num fun q => { q with spillWait := q.spillWait ++ [e] }
          if q.spillWait.isEmpty && !q.spilling && q.ovfCnt != 0 then s.postHw q.homeClu num job 6 .ok (.spill job num) else s
      if e.denied then s.dropDenied job num false else s
/-- Event 0x06 stands: the entries that waited with it go to the extension, and on from there where the ring has drained meanwhile. -/
def State.spillNow (s : State) (job num : Nat) : State :=
  ((s.modQueue job num fun q => { q with spilling := true }).settleQueue job num).dropDenied job num false
/-- A fibre's service of a queue passes to a new entry (R219). -/
def Fibre.serve (f : Fibre) (num : Nat) (e : QEntry) : Fibre := { f with service := assign num e f.service }
/-- A popped entry leaves the queue and enters its fibre's service; POPPED rises at the queue's home. -/
def State.popEntry (s : State) (job num i k : Nat) (e : QEntry) : State :=
  match s.queue? job num with
  | none => s
  | some q =>
    let s := s.removeEntry job num i
    (if q.home.1 == Config.pkgNumber then s.countPopped q.homeDie job else s).modFibre k fun f => f.serve num e
/-- The place of the entry that a fibre took first of those it took tentatively. -/
def firstTaken (k : Nat) (l : List QEntry) : Option (Nat × QEntry) :=
  (l.mapIdx fun i e => (i, e)).foldl (fun b p =>
    match p.2.takenBy with
    | some (j, n) => if j != k then b else match b with
      | some y => if n < ((y.2.takenBy.map (·.2)).getD 0) then some p else b
      | none => some p
    | none => b) none
/-- Every entry that a fibre took tentatively is popped now, in the order of its pops (R229, R290). -/
def State.popTaken (s : State) (job num k : Nat) : Nat → State
  | 0 => s
  | n + 1 =>
    match s.queue? job num with
    | none => s
    | some q =>
      match firstTaken k q.ring with
      | some (i, e) => (s.popEntry job num i k { e with takenBy := none }).popTaken job num k n
      | none => s

/-! ## Room and credits (R228) -/

/-- Free places of a home that no credit and no entry on its way holds. -/
def Queue.free (q : Queue) : Nat :=
  q.depth + q.ovfCnt - (q.ring.length + q.ext.length + q.spillWait.length + q.inFlight + (q.credits.map (·.2)).sum)
/-- A credit a die holds, or a free place for a push from the home's own die. -/
def Queue.hasRoom (q : Queue) (die : Nat) : Bool :=
  if q.home.1 == Config.pkgNumber && q.homeDie == die then q.free > 0 else (look die q.credits).getD 0 > 0
def Queue.takeRoom (q : Queue) (die : Nat) : Queue :=
  if q.home.1 == Config.pkgNumber && q.homeDie == die then { q with inFlight := q.inFlight + 1 }
  else { q with credits := assign die ((look die q.credits).getD 0 - 1) q.credits,
                inFlight := if q.home.1 == Config.pkgNumber then q.inFlight + 1 else q.inFlight }
/-- Whether a queue is configured (R226). -/
def State.configured (s : State) (job num : Nat) : Bool := ((s.queue? job num).map (·.en)).getD false
/-- A place in the source order of R216 and R220: package, die and cluster, then core or counter, group, %fid. -/
def sourceKey (pkg die clu unit grp fid : Nat) : Nat := ((((pkg * 4 + die) * 8 + clu) * 4096 + unit) * 16 + grp) * 65536 + fid
def State.sourceOf (s : State) (f : Fibre) : Nat :=
  let p := s.site f
  sourceKey Config.pkgNumber p.die p.clu p.core (((s.group? f.grp).map (·.rgi)).getD 0) f.fid

/-! ## Task failure (R219) -/

/-- An abandoned entry in service: requeued with TRIES + 1 and event 0x04, or lost with event 0x05; either once the record stands (R211). -/
def State.abandon (s : State) (f : Fibre) (num : Nat) (e : QEntry) : State :=
  let job := s.jobOf f
  let task := e.task
  if e.tries < ((s.job? job).map (·.retry)).getD 0 then
    let w7 := (e.words.getD 7 0) + 0x10000
    s.postFibre f task 0x04 .ok (.requeue job num { e with words := e.words.set 7 w7, takenBy := none, stamp := none, view := [], lds := [] })
  else s.postFibre f task 0x05 .ok (.lose job)
/-- Every entry in a fibre's service is abandoned. -/
def State.abandonAll (s : State) (k : Nat) : State :=
  match s.fibre? k with
  | none => s
  | some f => (f.service.foldl (fun s e => s.abandon f e.1 e.2) s).modFibre k fun f => { f with service := [] }

/-! ## Dependence counters (R220, R232) -/

/-- The cluster of a counter ID. -/
def counterClu (id : Word) : Nat := bitsOf id.toNat 16 12
/-- The check of R232 that discards a counter word. The ranges are taken as they stand: first and last 0 give counter 0, and only a first above its
last gives none (DESIGN CHOICE, log 33: R66 and R305 do not say how a descriptor states no range). -/
def State.counterBad (s : State) (job : Nat) (id : Word) (arm : Option (Word × Nat)) : Option Status :=
  let range := match s.job? job with
    | some j => j.ctrLo.toNat ≤ id.toNat && id.toNat ≤ j.ctrHi.toNat
    | none => false
  if id.toNat ≥ 2 ^ 17 then some .fault
  else if !range then some .access
  else match arm with
    | some (n, q) => if n.toNat > 65535 || !s.configured job q then some .fault else none
    | none => none
/-- The place of a counter. -/
def counterIx (id : Word) : Nat := bitsOf id.toNat 11 0
/-- The scope of a queue (R204). -/
def State.queueScope (s : State) (job num : Nat) : Scope := ((s.queue? job num).map fun q => scopeOf q.scope).getD .sys
/-- The successor of a counter is released to its queue, untagged, with an empty stamp, and with what the decrements released (R220, R233). -/
def State.releaseSuccessor (s : State) (job q : Nat) (succ : List Word) (id : Word) (view : List Sync) : State :=
  let w7 := (succ.getD 7 0) &&& 0xFF000000
  let clu := counterClu id
  s.releaseEntry job q ⟨clu / 8, clu % 8, 8⟩
    ⟨succ.set 7 w7, none, [], s.clk, sourceKey Config.pkgNumber (clu / 8) (clu % 8) (counterIx id) 0 0, false, none, view, []⟩
/-- DCARM at its counter; the status of event 0x09 where the word is discarded. That of the two misuses of R220's table is not stated
(log 2). -/
def State.armCounter (s : State) (job : Nat) (id n : Word) (succ : List Word) (q : Nat) : Except Status State :=
  match s.counterBad job id (some (n, q)) with
  | some st => .error st
  | none =>
    match look (counterIx id) (s.cluster (counterClu id)).counters with
    | some _ => .error (Config.misuseStatus s.clk)
    | none =>
      .ok (if n = 0 then s.releaseSuccessor job q succ id []
           else s.modCluster (counterClu id) fun c => { c with counters := assignSorted (counterIx id) ⟨n.toNat, succ, q, job, []⟩ c.counters })
/-- DCDEC at its counter, by an agent that releases some writes. -/
def State.decCounter (s : State) (job : Nat) (id : Word) (who : Locus) (v : List Nat) : Except Status State :=
  match s.counterBad job id none with
  | some st => .error st
  | none =>
    let i := counterIx id
    match look i (s.cluster (counterClu id)).counters with
    | none => .error (Config.misuseStatus s.clk)
    | some c =>
      let view := if v.isEmpty then c.view else addSync c.view ⟨s.queueScope c.job c.queue, who, v⟩
      .ok (if c.count > 1 then
             s.modCluster (counterClu id) fun x => { x with counters := assignSorted i { c with count := c.count - 1, view := view } x.counters }
           else
             (s.modCluster (counterClu id) fun x => { x with counters := x.counters.filter (·.1 != i) }).releaseSuccessor c.job c.queue c.succ id view)
/-- Whether a counter word would release a successor (R220). -/
def State.releases (s : State) (job : Nat) : MsgBody → Bool
  | .dcarm id n _ q => n == 0 && (s.counterBad job id (some (n, q))).isNone && (look (counterIx id) (s.cluster (counterClu id)).counters).isNone
  | .dcdec id => (s.counterBad job id none).isNone && ((look (counterIx id) (s.cluster (counterClu id)).counters).map fun c => decide (c.count ≤ 1)).getD false
  | _ => false

/-- Loads of a fibre that are still out (R204). -/
def State.loadsOut (s : State) (k : Nat) : List Nat :=
  ((s.opsOf k).filter fun o => match o.body with | .mem a x => a.kind.reads && x != .served && o.done.isNone | _ => false).map (·.id)
/-- A message leaves a fibre for its unit, with the writes that come before it. -/
def State.sendMsg (s : State) (k : Nat) (f : Fibre) (body : MsgBody) : State :=
  let (id, s) := s.fresh
  s.addMsg ⟨id, s.jobOf f, k, f.wseq, s.sourceOf f, body, false, s.locus f, f.seen⟩
def State.msg? (s : State) (id : Nat) : Option Msg := s.msgs.find? fun m => m.id == id
def State.dropMsg (s : State) (id : Nat) : State := { s with msgs := s.msgs.filter fun m => m.id != id }
/-- A counter word is discarded: event 0x09, which it waits for (R211, R232). -/
def State.discardWord (s : State) (m : Msg) (id : Word) (st : Status) : State :=
  ({ s with msgs := s.msgs.map fun x => if x.id == m.id then { x with dead := true } else x } : State).postHw (counterClu id) id.toNat m.job 9 st (.drop m.id)
/-- What a counter word does at its counter. -/
def State.counterWord (s : State) (m : Msg) (id : Word) : Except Status State → State
  | .ok s => s.dropMsg m.id
  | .error st => s.discardWord m id st

end Sys2Proof.Machine
end

