-- ==== Sys2Proof/Machine/Fabric.lean ====
section
/-! DEFINITION. What the engines and the fabric operations do to memory: reads and writes by pieces (R172, R201), the
checks at issue (R334, R336 to R342), local and remote completion (R321, R322), inbound global accesses (R320). -/

namespace Sys2Proof.Machine

/-! ## Pieces -/

/-- Length of the piece at `pos` of a run cut at the destination's 256-byte boundaries (R172). -/
def pieceLen (dst pos len : Nat) : Nat := min (256 - (dst + pos) % 256) (len - pos)
/-- Every piece of a run: place and length. -/
def pieces (dst len : Nat) : Nat → Nat → List (Nat × Nat)
  | 0, _ => []
  | n + 1, pos => if pos < len then (pos, pieceLen dst pos len) :: pieces dst len n (pos + pieceLen dst pos len) else []
def piecesOf (dst len : Nat) : List (Nat × Nat) := pieces dst len (len / 256 + 2) 0

/-- The answer to a piece read from or written to another package: status, recorded kind, bytes. -/
def State.answerOf (s : State) (addr n : Nat) (write : Bool) : Option (Status × Option MemKind × List Byte) :=
  (s.carried.find? fun c => c.addr == addr && c.n == n && c.write == write && c.ans.isSome).bind (·.ans)
/-- The fibre as it stood at a write-drain count: with the effects it held then (R207). -/
def Fibre.asOf (f : Fibre) (seq : Nat) : Fibre := { f with held := (f.releasing ++ f.held).filter (·.wseq ≤ seq), releasing := [] }
/-- An operation has read a range: from its retirement on, its fibre's reads go back before none of the writes there (R197, R202). -/
def State.noteMet (s : State) (id : Option Nat) (loc n : Nat) : State :=
  match id, (s.past.filter (·.meets loc n)).map (·.id) with
  | some id, v@(_ :: _) => s.modOp id fun o => { o with met := joinView o.met v }
  | _, _ => s
/-- Bytes read by an engine for a fibre's operation, page by page; where the fibre holds effects, as its own loads would see them (R201,
R207). A function whose DMA is closed is refused the host port (R306). -/
def State.engineReadN (s : State) (id : Option Nat) (f : Fibre) (sp : Space) : Nat → Nat → Nat → Except Status (List Byte) × State
  | 0, _, _ => (.ok [], s)
  | fuel + 1, addr, n =>
    if n = 0 then (.ok [], s)
    else
      let m := s.pageRun f addr n
      match s.findNow f sp addr m .read with
      | (.at_ loc, s) =>
        if inHost loc && s.sysRefused (s.jobOf f) then (.error .access, s)
        else if s.poisonedAt loc m then (.error .dataerr, s)
        else match State.engineReadN (s.noteMet id loc m) id f sp fuel (addr + m) (n - m) with
          | (.ok bs, s) => (.ok (s.overlay f loc m f.wseq (s.readAt loc m) ++ bs), s)
          | r => r
      | (.bad k, s) => (.error (kindStatus k), s)
      | (_, s) =>
        match s.answerOf addr m false with
        | some (.ok, _, got) =>
          match State.engineReadN s id f sp fuel (addr + m) (n - m) with
          | (.ok bs, s) => (.ok ((got ++ List.replicate m 0).take m ++ bs), s)
          | r => r
        | some (st, _, _) => (.error st, s)
        | none => (.error .fault, s)
/-- An engine's read sees memory, without what the fibre holds. -/
def State.engineRead (s : State) (id : Option Nat) (f : Fibre) (sp : Space) (addr n : Nat) : Except Status (List Byte) × State :=
  s.engineReadN id { f with held := [], releasing := [] } sp (n / 4096 + 2) addr n
/-- The read of an operation that a tainted fibre issued at a write-drain count sees the effects that it held then. -/
def State.engineReadAs (s : State) (id : Option Nat) (f : Fibre) (seq : Nat) (sp : Space) (addr n : Nat) : Except Status (List Byte) × State :=
  s.engineReadN id (f.asOf seq) sp (n / 4096 + 2) addr n
/-- Bytes written by an engine, page by page, for an operation or for a unit whose writes every agent sees at once; a tainted copy into
.sp logs the old words first (R288). -/
def State.engineWriteN (s : State) (k : Nat) (f : Fibre) (o : Option Op) (sp : Space) (undo : Bool) : Nat → Nat → List Byte → Option Status × State
  | 0, _, _ => (none, s)
  | fuel + 1, addr, bs =>
    if bs.isEmpty then (none, s)
    else
      let m := s.pageRun f addr bs.length
      match s.findNow f sp addr m .write with
      | (.at_ loc, s) =>
        if inHost loc && s.sysRefused (s.jobOf f) then (some .access, s)
        else
          let s := match o with
            | some o => if undo && (sp == Space.sp) then s.logUndo k o.id loc m else s
            | none => s
          State.engineWriteN (s.landPiece k f o loc (bs.take m)) k f o sp undo fuel (addr + m) (bs.drop m)
      | (.bad x, s) => (some (kindStatus x), s)
      | (_, s) =>
        match s.answerOf addr m true with
        | some (.ok, _, _) => State.engineWriteN s k f o sp undo fuel (addr + m) (bs.drop m)
        | some (st, _, _) => (some st, s)
        | none => (some .fault, s)
def State.engineWrite (s : State) (k : Nat) (f : Fibre) (o : Option Op) (sp : Space) (undo : Bool) (addr : Nat) (bs : List Byte) :
    Option Status × State :=
  s.engineWriteN k f o sp undo (bs.length / 4096 + 2) addr bs
/-- Bytes that a unit of the core writes to memory for a fibre's job. -/
def State.unitWrite (s : State) (k : Nat) (f : Fibre) (addr : Nat) (bs : List Byte) : State := (s.engineWrite k f none .g false addr bs).2
/-- A range of an address as the engines cut it: page by page. -/
def State.pagesOf (s : State) (f : Fibre) : Nat → Nat → Nat → List (Nat × Nat)
  | 0, _, _ => []
  | fuel + 1, addr, n =>
    if n = 0 then []
    else let m := s.pageRun f addr n; (addr, m) :: s.pagesOf f fuel (addr + m) (n - m)
/-- Whether a page of a range has a miss that must wait: 512 walks of its die are in flight, none of them for that page (R250). -/
def State.walkBlocked (s : State) (f : Fibre) (sp : Space) (addr n : Nat) (a : Acc) : Bool :=
  (s.pagesOf f (n / 4096 + 2) addr n).any fun p => match s.place false f sp p.1 p.2 a with
    | (.walk va, _) =>
      let w := (s.die (if p.1 < 2 ^ 63 then (s.site f).die else bitsOf p.1 52 51)).walks
      decide (512 ≤ w.length) && !w.any (·.serves (s.jobOf f) va)
    | _ => false
/-- Whether a piece must wait: into the group's .sp for another fibre's undo entry (R288), elsewhere for a walk. -/
def State.pieceBlocked (s : State) (k : Nat) (f : Fibre) (sp : Space) (addr n : Nat) : Bool :=
  if sp == .sp then
    (s.pagesOf f (n / 4096 + 2) addr n).any fun p => match s.place false f .sp p.1 p.2 .write with
      | (.at_ loc, _) => s.loggedByOther k loc p.2
      | _ => false
  else s.walkBlocked f sp addr n .write
/-- Whether an engine's read waits: for a walk; one of the weight store that was made at a clk for the refresh window of a bank group that one
of its pages lies in (R245). -/
def State.wsBlocked (s : State) (f : Fibre) (sp : Space) (addr n start : Nat) : Bool :=
  s.walkBlocked f sp addr n .read ||
  sp == .ws && (s.pagesOf f (n / 4096 + 2) addr n).any fun p => match s.placeNow false f sp p.1 p.2 .read with
    | (.at_ loc, _) => s.wsHeld loc start
    | _ => false
/-- Whether some page of a range fails translation. -/
def State.untranslated (s : State) (f : Fibre) (sp : Space) (addr n : Nat) : Bool :=
  (s.pagesOf f (n / 4096 + 2) addr n).any fun p => match (s.placeNow false f sp p.1 p.2 .read).1 with
    | .bad .translation => true
    | _ => false
/-- Whether every access the fibre issued before an operation is complete, none of them still to be released (R201). -/
def State.olderDone (s : State) (o : Op) : Bool :=
  o.gone || ((s.accesses o.fib).all fun p => match p.body with
    | .mem a _ => !comesBefore a.kind p.seat .ld o.seat
    | _ => true) &&
  ((s.fibre? o.fib).map fun f => f.releasing.all fun h => o.seq < h.wseq).getD true

/-! ## Issue checks (R334 to R342) -/

/-- The package an address names. -/
def pkgOf (addr : Nat) : Nat := if addr < 2 ^ 63 then Config.pkgNumber else bitsOf addr 62 53
/-- Overlap of ranges of .g as written, judged only in one form (R172, R336). -/
def overlaps (a n b m : Nat) : Bool := (decide (a < 2 ^ 63) == decide (b < 2 ^ 63)) && a < b + m && b < a + n
/-- Whether a scratchpad range lies within .spad (R145). -/
def State.spadOk (s : State) (f : Fibre) (off n : Nat) : Bool :=
  !f.isHandler && ((s.group? f.grp).map fun g => decide (off + n ≤ g.spad)).getD false
/-- Whether a place keeps the limits of a source or destination: alignment, .spad. -/
def State.placeOk (s : State) (f : Fibre) (p : Place) (n align : Nat) : Bool :=
  p.addr.toNat % align == 0 && (p.space != .sp || s.spadOk f p.addr.toNat n)
/-- Whether a barrier object at an offset can take an arrival. -/
def State.barPlaceOk (s : State) (f : Fibre) (off : Nat) : Bool := off % 16 == 0 && s.spadOk f off 16
/-- A fabric word's checks at issue. -/
def State.fabOk (s : State) (f : Fibre) : FabOp → Bool
  | .puts dst src len sig _ =>
    len ≤ 16777216 && len % 4 == 0 && dst.toNat % 4 == 0 && s.placeOk f src len 4 &&
    (match sig with
     | some (a, _, _) => a.toNat % 8 == 0 && pkgOf a.toNat == pkgOf dst.toNat
     | none => true) &&
    !(src.space == .g && pkgOf dst.toNat == Config.pkgNumber && overlaps dst.toNat len src.addr.toNat len)
  | .get dst src len bar =>
    len ≤ 16777216 && len % 4 == 0 && src.toNat % 4 == 0 && s.placeOk f dst len 4 &&
    (dst.space != .g || pkgOf dst.addr.toNat == Config.pkgNumber) &&
    (match bar with | some b => s.barPlaceOk f b | none => true) &&
    !(dst.space == .g && pkgOf src.toNat == Config.pkgNumber && overlaps dst.addr.toNat len src.toNat len)
  | .radd ty dst src cnt _ =>
    cnt ≤ 65536 && dst.toNat % tyBytes ty == 0 && s.placeOk f src (cnt * tyBytes ty) (tyBytes ty)
  | .want dst _ cap _ =>
    4 ≤ cap && cap ≤ 65536 && cap % 4 == 0 && s.placeOk f dst cap 4 &&
    (dst.space != .g || pkgOf dst.addr.toNat == Config.pkgNumber)
  | .announce src _ len => 4 ≤ len && len ≤ 65536 && len % 4 == 0 && s.placeOk f src len 1
  | .twalk desc _ _ => desc.toNat % 32 == 0
  | .cseq desc tag => desc.toNat % 64 == 0 && tag.toNat < 65536

/-! ## Operations -/

/-- The local-completion handle's operation of a fabric operation. -/
def FabOp.local? : FabOp → Option Nat
  | .puts _ _ _ _ lh => lh
  | .radd _ _ _ _ lh => lh
  | _ => none
/-- A fabric operation ends; a local handle still out ends with it. -/
def State.finishFab (s : State) (o : Op) (st : Status) : State :=
  match o.body with
  | .fab x _ _ _ _ =>
    let s := match x.local? with
      | some l => s.finishOp l st
      | none => s
    s.finishOp o.id st
  | _ => s.finishOp o.id st
/-- A first failure kept. -/
def mergeStatus (old new : Status) : Status := if old = .ok then new else old
/-- The flow that an operation's packets leave by: its target's package and die (R317). -/
def FabOp.flow? : FabOp → Option (Nat × Nat)
  | .puts dst _ _ _ _ => some (pkgOf dst.toNat, bitsOf dst.toNat 52 51)
  | .radd _ dst _ _ _ => some (pkgOf dst.toNat, bitsOf dst.toNat 52 51)
  | .get _ src _ _ => some (pkgOf src.toNat, bitsOf src.toNat 52 51)
  | _ => none
/-- Whether a fabric operation is still only held by its fibre (R287). -/
def Fibre.holdsOp (f : Fibre) (op : Nat) : Bool := (f.releasing ++ f.held).any fun h => match h.eff with | .fab _ id => id == op | _ => false
/-- Whether no operation of an operation's flow that issued before it still has its packets to send (R319), and, for a RADD, no earlier one of its
fibre to its package is still to be performed (R338). -/
def State.flowReady (s : State) (o : Op) (f : Fibre) (x : FabOp) : Bool :=
  let p := s.site f
  s.ops.all fun y => !decide (y.id < o.id) || y.done.isSome || match y.body, s.fibre? y.fib with
    | .fab z 0 [] none .ok, some g => g.holdsOp y.id || z.flow? != x.flow? || (s.site g).die != p.die || (s.site g).clu != p.clu
    | .fab z _ [] (some _) _, some _ => (match x, z with
      | .radd _ _ _ _ _, .radd _ _ _ _ _ => y.fib != o.fib || z.flow?.map (·.1) != x.flow?.map (·.1) || z.flow?.map (·.1) != some Config.pkgNumber
      | _, _ => true)
    | _, _ => true
/-- A fabric word's operation begins at its issue or release: it fails its checks at once, or runs. The operation is
already in flight under `id`. -/
def State.startFab (s : State) (f : Fibre) (o : FabOp) (id : Nat) : State :=
  let s := s.modOp id fun x => { x with view := f.seen, fenced := f.rels }
  if s.fabOk f o then s.modOp id fun x => { x with body := .fab o 0 [] none .ok }
  else
    let s := s.modOp id fun x => { x with body := .fab o 0 [] none .fault }
    match s.op? id with
    | some x => s.finishFab x .fault
    | none => s

/-! ## Pieces that engines read from and write to other packages (R189, R190, R320) -/

/-- One piece is asked for, or sent, once; whether its answer is here. -/
def State.askPiece (s : State) (id : Nat) (f : Fibre) (addr n : Nat) (w : Option (List Byte)) : Bool × State :=
  match s.carried.find? fun c => c.op == id && c.addr == addr && c.n == n && c.write == w.isSome with
  | some c => (c.ans.isSome, s)
  | none =>
    if !s.retxRoom n then (false, s)
    else
      let die := bitsOf addr 52 51
      let off := bitsOf addr 50 0
      let body := match w with | some bs => PktBody.store die off bs | none => PktBody.read die off n
      match s.send (s.site f) (s.jobOf f) (s.master f) (pkgOf addr) die addr (if w.isSome then .write else .read) body (some id) with
      | (.error e, s) => (true, { s with carried := s.carried ++ [⟨id, addr, n, w.isSome, 0, some (e.status, some e.kind, [])⟩] })
      | (.ok pkt, s) => (false, { s with carried := s.carried ++ [⟨id, addr, n, w.isSome, pkt, none⟩] })
/-- The pieces of a range, with the bytes of each where it is written. -/
def State.askPieces (s : State) (id : Nat) (f : Fibre) (start : Nat) (w : Option (List Byte)) : List (Nat × Nat) → Bool × State
  | [] => (true, s)
  | (addr, n) :: l =>
    let (here, s) := s.askPiece id f addr n (w.map fun bs => (bs.drop (addr - start)).take n)
    let (rest, s) := State.askPieces s id f start w l
    (here && rest, s)
/-- Whether everything an operation reads from, or writes to, a range is at hand: what lies on another package is asked for, or sent,
and answered. The operation's own answers come first from then on. -/
def State.atHand (s : State) (id : Nat) (f : Fibre) (sp : Space) (addr n : Nat) (w : Option (List Byte)) : Bool × State :=
  if sp != .g || pkgOf addr == Config.pkgNumber then (true, s)
  else
    let (here, s) := s.askPieces id f addr w (s.pagesOf f (n / 4096 + 2) addr n)
    (here, { s with carried := (s.carried.filter fun c => c.op == id) ++ s.carried.filter fun c => c.op != id })
/-- The failure of a range on another package, by kind, once it is answered. -/
def State.answerFault (s : State) (f : Fibre) (addr n : Nat) (write : Bool) : Option MemKind :=
  (s.pagesOf f (n / 4096 + 2) addr n).findSome? fun p =>
    match s.answerOf p.1 p.2 write with
    | some (.ok, _, _) => none
    | some (_, k, _) => some (k.getD .translation)
    | none => none

/-- A list of packets of one operation leaves in order; the first that cannot leave ends the sending. -/
def State.sendAll (s : State) (p : Site) (job master dst tdie : Nat) (op : Nat) (a : Acc) :
    List (Nat × PktBody) → Except Status (List Nat) × State
  | [] => (.ok [], s)
  | (addr, b) :: l =>
    match s.send p job master dst tdie addr a b (some op) with
    | (.error e, s) => (.error e.status, s)
    | (.ok id, s) =>
      match State.sendAll s p job master dst tdie op a l with
      | (.ok ids, s) => (.ok (id :: ids), s)
      | r => r

/-- A 64-bit signal update on this package, for a PUTS with what it releases, its own data and what a FENCE.sys before it did, or for
the sequencer (R206, R336). -/
def State.signalHere (s : State) (f : Fibre) (o : Option Op) (addr : Nat) (add : Bool) (v : DWord) : Option Status × State :=
  match s.findNow f .g addr 8 (if add then .atomic else .write) with
  | (.at_ loc, s) =>
    if add && s.poisonedAt loc 8 then (some .dataerr, s)
    else
      let old := w64 (leNat (s.readAt loc 8))
      let rels : List Sync := match o with
        | some o => [⟨.sys, s.locus f, (o.fenced.filter fun e => e.1 == .sys).foldl (fun v e => joinView v e.2) (s.viewOfOp o.id)⟩]
        | none => []
      (none, s.chainWrite ((o.map (·.fib)).getD s.fibres.length) f rels add loc (leBytes 8 (if add then old + v else v).toNat))
  | (.bad k, s) => (some (kindStatus k), s)
  | (_, s) => (some .fault, s)

/-- One element of a RADD at a location: integer sums wrap, float sums round to nearest even (R338). -/
def raddNew (ty : Ty) (old v : Nat) : Nat :=
  match ty with
  | .f32 => (FF.f32.add .rn old v 0).1
  | .f64 => (FF.f64.add .rn old v 0).1
  | _ => (old + v) % 2 ^ (8 * tyBytes ty)
/-- RADD elements from an address on this package upward; the status of the first element that fails. -/
def State.raddHere (s : State) (f : Fibre) (ty : Ty) : Nat → List Nat → Option Status × State
  | _, [] => (none, s)
  | addr, v :: vs =>
    match s.findNow f .g addr (tyBytes ty) .atomic with
    | (.at_ loc, s) =>
      let bad := s.poisonedAt loc (tyBytes ty)
      let s := if bad then s
        else s.chainWrite s.fibres.length f [] true loc (leBytes (tyBytes ty) (raddNew ty (leNat (s.readAt loc (tyBytes ty))) v))
      match State.raddHere s f ty (addr + tyBytes ty) vs with
      | (st, s) => (if bad then some .dataerr else st, s)
    | (.bad k, s) => (some (kindStatus k), s)
    | (_, s) => (some .fault, s)
/-- The elements of a byte string. -/
def elements (w : Nat) : Nat → List Byte → List Nat
  | 0, _ => []
  | n + 1, bs => leNat (bs.take w) :: elements w n (bs.drop w)

/-- Local completion of a PUTS (R336): the source is read; a remote destination's packets leave. -/
def State.localPuts (s : State) (o : Op) (f : Fibre) (x : FabOp) (dst : DWord) (src : Place) (len : Nat) : State :=
  let (here, s) := s.atHand o.id f src.space src.addr.toNat len none
  if !here then s else
  match s.engineRead (some o.id) f src.space src.addr.toNat len with
  | (.error st, s) => s.finishFab o st
  | (.ok bs, s) =>
    let s := s.watchOp o src.space src.addr.toNat len false
    let s := match x.local? with | some l => s.finishOp l .ok | none => s
    if pkgOf dst.toNat = Config.pkgNumber then s.modOp o.id fun y => { y with body := .fab x 0 [] (some bs) .ok }
    else
      let die := bitsOf dst.toNat 52 51
      let off := bitsOf dst.toNat 50 0
      let list := (piecesOf dst.toNat len).map fun p => (dst.toNat + p.1, PktBody.store die (off + p.1) ((bs.drop p.1).take p.2))
      match s.sendAll (s.site f) o.job (s.master f) (pkgOf dst.toNat) die o.id .write list with
      | (.ok ids, s) => s.modOp o.id fun y => { y with body := .fab x len ids (some []) .ok }
      | (.error st, s) => s.finishFab o st
/-- Local completion of a RADD (R338). -/
def State.localRadd (s : State) (o : Op) (f : Fibre) (x : FabOp) (ty : Ty) (dst : DWord) (src : Place) (cnt : Nat) : State :=
  let len := cnt * tyBytes ty
  let (here, s) := s.atHand o.id f src.space src.addr.toNat len none
  if !here then s else
  match s.engineRead (some o.id) f src.space src.addr.toNat len with
  | (.error st, s) => s.finishFab o st
  | (.ok bs, s) =>
    let s := s.watchOp o src.space src.addr.toNat len false
    let s := match x.local? with | some l => s.finishOp l .ok | none => s
    if pkgOf dst.toNat = Config.pkgNumber then s.modOp o.id fun y => { y with body := .fab x 0 [] (some bs) .ok }
    else
      let die := bitsOf dst.toNat 52 51
      let off := bitsOf dst.toNat 50 0
      let list := (piecesOf dst.toNat len).map fun p => (dst.toNat + p.1,
        PktBody.radd die (off + p.1) ty ((elements (tyBytes ty) (p.2 / tyBytes ty) (bs.drop p.1)).map w64))
      match s.sendAll (s.site f) o.job (s.master f) (pkgOf dst.toNat) die o.id .atomic list with
      | (.ok ids, s) => s.modOp o.id fun y => { y with body := .fab x len ids (some []) .ok }
      | (.error st, s) => s.finishFab o st
/-- The end of a PUTS whose data are written: the signal, then the handle. `sent` is empty. -/
def State.endPuts (s : State) (o : Op) (f : Fibre) (x : FabOp) (dst : DWord) (sig : Option (DWord × DWord × Bool)) (st : Status)
    (signalled : Bool) : State :=
  match sig with
  | none => s.finishFab o st
  | some (a, v, add) =>
    if st != .ok || signalled then s.finishFab o st
    else if pkgOf dst.toNat = Config.pkgNumber then
      match s.signalHere f (some o) a.toNat add v with
      | (some e, s) => s.finishFab o e
      | (none, s) => s.finishFab o .ok
    else
      let die := bitsOf a.toNat 52 51
      match s.sendAll (s.site f) o.job (s.master f) (pkgOf a.toNat) die o.id (if add then .atomic else .write)
        [(a.toNat, PktBody.signal die (bitsOf a.toNat 50 0) add v)] with
      | (.ok ids, s) => s.modOp o.id fun y => { y with body := .fab x 0 ids none .ok }
      | (.error e, s) => s.finishFab o e

/-! ## Inbound accesses (R320) -/

/-- The location an inbound global access reaches. -/
def State.inbound (s : State) (job die off n : Nat) (a : Acc) (port src : Nat) : Except MemKind Nat × State :=
  let (base, len) := s.window job die
  let addr := globalPtr Config.pkgNumber die off
  if off + n > len then (.error .translation, s)
  else if s.pkg.downDies.contains die then (.error .dataError, s)
  else if !s.accessOk (40 + port) src a addr then (.error .accessTable, s.alarm 0 addr (40 + port) src job)
  else
    let va := (base + off) % 2 ^ 57
    match s.missDone die job va with
    | (.ok t, s) => match leafKind t .g a with
      | some k => (.error k, s)
      | none => (.ok (leafLoc t die va), s)
    | (.error k, s) => (.error k, s)
/-- What an applied packet answers: status, record kind, bytes. -/
structure Answer where
  status : Status := .ok
  kind   : Option MemKind := none
  bytes  : List Byte := []
  deriving DecidableEq, Repr
/-- A range cut where it meets a 64 KiB page of the target's address. -/
def State.splitPage (s : State) (job die off n : Nat) : List (Nat × Nat) :=
  let m := 65536 - ((s.window job die).1 + off) % 65536
  if n ≤ m then [(off, n)] else [(off, m), (off + m, n - m)]
/-- The locations of an inbound access's parts. -/
def State.inboundLocs (s : State) (job port src die : Nat) (a : Acc) : List (Nat × Nat) → Except MemKind (List (Nat × Nat)) × State
  | [] => (.ok [], s)
  | (off, n) :: l =>
    match s.inbound job die off n a port src with
    | (.error k, s) => (.error k, s)
    | (.ok loc, s) => match State.inboundLocs s job port src die a l with
      | (.ok r, s) => (.ok ((loc, n) :: r), s)
      | r => r
/-- The bytes of an inbound read, part by part. -/
def State.inboundRead (s : State) (job port src die : Nat) : List (Nat × Nat) → Answer × State
  | [] => ({}, s)
  | (off, n) :: l =>
    match s.inbound job die off n .read port src with
    | (.error k, s) => ({ status := kindStatus k, kind := some k }, s)
    | (.ok loc, s) =>
      if s.poisonedAt loc n then ({ status := .dataerr, kind := some .dataError }, s)
      else
        let r := State.inboundRead s job port src die l
        ({ r.1 with bytes := s.readAt loc n ++ r.1.bytes }, r.2)
/-- A write from another package: who acquires it has all that its package may have seen (log 6); a change hands on the releases of what it
changes (R198). -/
def State.outsideWrite (s : State) (job src : Nat) (change : Bool) (loc : Nat) (bs : List Byte) : State :=
  let chain := if change then s.carriedBy loc bs.length else []
  let t := (s.writeAt (s.requester job) loc bs).noteOutside s (packageLocus src) (s.past.map (·.id)) loc bs.length
  { t with past := match t.past with | p :: l => { p with rels := chain.foldl addSync p.rels } :: l | [] => [] }
/-- An inbound write, part by part. -/
def State.inboundWrite (s : State) (job port src die : Nat) : List (Nat × List Byte) → Answer × State
  | [] => ({}, s)
  | (off, bs) :: l =>
    match s.inbound job die off bs.length .write port src with
    | (.error k, s) => ({ status := kindStatus k, kind := some k }, s)
    | (.ok loc, s) =>
      State.inboundWrite (s.outsideWrite job src false loc bs) job port src die l
/-- An inbound update of up to 8 bytes: from its old contents to the new; what it was is the answer's bytes where `back`. -/
def State.inboundUpdate (s : State) (job port src die off size : Nat) (a : Acc) (back : Bool) (new : Nat → Nat) : Answer × State :=
  match s.inboundLocs job port src die a (s.splitPage job die off size) with
  | (.error k, s) => ({ status := kindStatus k, kind := some k }, s)
  | (.ok l, s) =>
    if a == .atomic && l.any fun x => s.poisonedAt x.1 x.2 then ({ status := .dataerr, kind := some .dataError }, s)
    else
      let old := l.flatMap fun x => s.readAt x.1 x.2
      let bs := leBytes size (new (leNat old))
      ({ bytes := if back then old else [] },
        (l.foldl (fun (x : Nat × State) p => (x.1 + p.2, x.2.outsideWrite job src (a == .atomic) p.1 ((bs.drop x.1).take p.2))) (0, s)).2)
/-- A memory packet applied at its target (R320). -/
def State.inboundMem (s : State) (job port src : Nat) : PktBody → Answer × State
  | .load die off size => s.inboundRead job port src die (s.splitPage job die off size)
  | .read die off len => s.inboundRead job port src die (s.splitPage job die off len)
  | .store die off bs =>
    s.inboundWrite job port src die ((s.splitPage job die off bs.length).map fun p => (p.1, (bs.drop (p.1 - off)).take p.2))
  | .atom die off size aop b b2 =>
    s.inboundUpdate job port src die off size .atomic true fun old => atomNew aop (8 * size) old b.toNat b2.toNat
  | .signal die off add v =>
    s.inboundUpdate job port src die off 8 (if add then .atomic else .write) false fun old => (if add then w64 old + v else v).toNat
  | .radd die off ty vals =>
    -- an element that is uncorrectable stays as it is, the others are added; any other failure ends it (R338)
    let w := tyBytes ty
    let r := vals.foldl (fun (acc : Nat × Answer × State) v =>
      let (o, x, s) := acc
      if x.status != .ok && x.status != .dataerr then acc
      else
        let y := s.inboundUpdate job port src die o w .atomic false fun old => raddNew ty old (v.toNat % 2 ^ (8 * w))
        (o + w, if y.1.status == .ok then x else y.1, y.2)) (off, {}, s)
    r.2
  | _ => ({}, s)

end Sys2Proof.Machine
end

