-- ==== Sys2Proof/Machine/Assume.lean ====
section
/-! DEFINITION. The assumption units: identifiers and slots (R280 to R282), taint and checkpoints (R283 to R286), held
effects at release (R207, R292), rolling back (R293, R294), resolution at the home (R281, R298). -/

namespace Sys2Proof.Machine

/-! ## Taint and checkpoints (R283 to R286) -/

/-- AIDs added to a taint, the lower hop number kept; none where COUNT would pass 4. -/
def joinAids (t : List (BitVec 32 × Nat)) : List (BitVec 32 × Nat) → Option (List (BitVec 32 × Nat))
  | [] => some t
  | (a, h) :: l =>
    match t.find? fun e => e.1 == a with
    | some _ => joinAids (t.map fun e => if e.1 == a then (a, min e.2 h) else e) l
    | none => if t.length < 4 then joinAids (t ++ [(a, h)]) l else none
/-- A FENCE.ar that stands between held effects is none itself. -/
def HeldEff.isFence : HeldEff → Bool
  | .fence _ => true
  | _ => false
/-- %taint. -/
def Fibre.taintWord (f : Fibre) : Word :=
  w32 ((((f.held.filter fun h => !h.eff.isFence).length + f.undo.length) % 4096) <<< 8 ||| (f.taint.foldl (fun n e => max n e.2) 0) <<< 4 |||
    bit f.ckpt.isSome <<< 3 ||| f.taint.length)
/-- The registers live before a word (R353 to R355). -/
def State.liveAt (s : State) (f : Fibre) (p : RP) : Nat :=
  match s.safePoint (s.site f).die (s.jobOf f) p.addr with
  | some e => if e.stop then e.live else 2 ^ 128 - 1
  | none => 2 ^ 128 - 1
/-- A checkpoint at a word (R286). -/
def State.checkpointAt (s : State) (f : Fibre) (p : RP) : Checkpoint :=
  let live := s.liveAt f p
  { rp := p, regs := f.regs.mapIdx fun r v =>
      if !live.testBit r then none else if (f.handle? r).isSome then some (Config.pendingSaved f.issued r) else some v, preds := f.preds, lr := f.lr,
    lc := f.lc, rc := f.rc, rep := f.rep, loops := f.loops, astat := f.astat, atrap := f.atrap, mxerr := f.mxerr, ks := f.ks,
    xr := f.xr, inH := f.inH, ret := f.ret, nreplay := f.replay.length, spilled := none, hdr := f.hdr,
    poison := f.poison.filter fun e => live.testBit e.1, num := s.nextId }
/-- Registers a checkpoint takes in the units of R143: those it holds, the predicates and the point. -/
def Checkpoint.weight (c : Checkpoint) : Nat := (c.regs.filter (·.isSome)).length + 6
/-- Whether the free register units of a core have room for one more checkpoint (R143). -/
def State.ckptRoom (s : State) (core n : Nat) : Bool :=
  let taken := ((s.groups.filter fun g => coreIx g.die g.clu g.core == core && !g.freed && !g.out).map fun g => g.umap.length).sum
  let held := ((s.fibres.filter fun f => (s.site f).coreIx == core && !((s.group? f.grp).map (·.out)).getD true).map fun f =>
    match f.ckpt with | some c => if c.spilled.isSome then 0 else c.weight | none => 0).sum
  held + n ≤ 1024 * (256 - taken)
/-- A place of the core's checkpoint backing area that holds no checkpoint: 1,024 bytes, the lowest free (R143; DESIGN CHOICE, log 33). -/
def State.ckptPlace (s : State) (core : Nat) : Option Nat :=
  let c := s.core core
  let used := s.fibres.filterMap fun f => f.ckpt.bind (·.spilled)
  ((List.range (min (c.ccksize.toNat / 1024) 2048)).map fun i => c.cckbase.toNat + 1024 * i).find? fun a => !used.contains a
/-- The words of a checkpoint in the backing area: its registers in ascending order, its predicates, its point (log 33). -/
def Checkpoint.stored (c : Checkpoint) : List Word :=
  (c.regs.filterMap id) ++ [c.preds.setWidth 32, (c.preds >>> 32).setWidth 32, (c.preds >>> 64).setWidth 32] ++ dwords c.rp.hdr ++ [w32 c.rp.idx]
/-- Values dealt out, in order, to the registers that a checkpoint holds. -/
def dealRegs : List (Option Word) → List Word → List (Option Word)
  | [], _ => []
  | none :: l, ws => none :: dealRegs l ws
  | some _ :: l, ws => some (ws.getD 0 0) :: dealRegs l (ws.drop 1)
/-- A checkpoint as it lies: the words of one that was written out are read back (R143). -/
def State.ckptNow (s : State) (c : Checkpoint) : Checkpoint :=
  match c.spilled with
  | none => c
  | some a =>
    let n := (c.regs.filter (·.isSome)).length
    let ws := leWords (n + 6) (s.getBytes a (4 * (n + 6)))
    let w := fun (i : Nat) => ws.getD (n + i) 0
    { c with regs := dealRegs c.regs ws, preds := (w 2 ++ w 1 ++ w 0 : BitVec 96), rp := ⟨joinPair (w 3) (w 4), (w 5).toNat⟩ }
/-- A fibre's checkpoint is written to its place in the backing area. -/
def State.storeCkpt (s : State) (f : Fibre) : State :=
  match f.ckpt with
  | some c => match c.spilled with | some a => s.store a (wordBytes c.stored) | none => s
  | none => s
/-- A core's units are needed for a group: checkpoints that no longer have room in free units move to the backing area (R143). DESIGN CHOICE
(log 33): where the area has no room for one, it stays in its units and the group is placed all the same; the spec is silent. -/
def State.moveCkpts (s : State) (core : Nat) : Nat → State
  | 0 => s
  | n + 1 =>
    if s.ckptRoom core 0 then s
    else match firstIdx (fun f => (s.site f).coreIx == core && (f.ckpt.map fun c => c.spilled.isNone).getD false) s.fibres 0, s.ckptPlace core with
      | some (k, f), some a =>
        let f := { f with ckpt := f.ckpt.map fun c => { c with spilled := some a } }
        ((s.setFibre k f).storeCkpt f).moveCkpts core n
      | _, _ => s
/-- The fibre as it joins a first AID: with its checkpoint, or waiting for it to be written out; where the backing area is full too, in a
tag stall without one. -/
def State.ensureCkpt (s : State) (f : Fibre) (p : RP) : Fibre :=
  if f.ckpt.isSome && (f.tainted || (f.ckpt.map (·.rp)) == some p) then f
  else
    let c := s.checkpointAt f p
    if s.ckptRoom (s.site f).coreIx c.weight then { f with ckpt := some c, useful := 0 }
    else match s.ckptPlace (s.site f).coreIx with
      | some a => { f with ckpt := some { c with spilled := some a }, useful := 0, wait := some .ckpt, run := .waiting .tag }
      | none => { f with ckpt := none, run := .waiting .tag, woken := false }
/-- Whether a fibre that has just come to need its checkpoint must wait for it (R143). -/
def Fibre.ckptStalls (f : Fibre) : Bool := f.wait == some .ckpt || f.ckpt.isNone
/-- The word at which a fibre stands; inside an INV routine, INV's first word (R52). -/
def Fibre.here (f : Fibre) : RP := match f.inv with | some v => v.at_ | none => f.rp

/-! ## Messages of resolutions -/

/-- AFFIRM's, DENY's or a withdrawal's message leaves for the AID's home; a package that cannot be reached ends it
(R332). -/
def State.sendResolution (s : State) (k : Nat) (f : Fibre) (a : BitVec 32) (r : Resolution) (op : Nat) : State :=
  if aidPkg a = Config.pkgNumber then s.sendMsg k f (.resolve a r (some op))
  else match s.send (s.site f) (s.jobOf f) (s.master f) (aidPkg a) (aidDie a) 0 .write (.resolve a r) (some op) with
    | (.ok _, s) => s
    | (.error e, s) => (s.finishOp op e.status).faultJob (s.jobOf f) 3
/-- A slot's outcome: recorded, and sent to the receivers on other packages (R281). -/
def State.settleSlot (s : State) (a : BitVec 32) (r : Resolution) (value : Option DWord) : State :=
  match s.slotOf a with
  | none => s
  | some x =>
    let st : AidState := match r with | .affirm => .affirmed | _ => .denied
    let s := s.modSlot a fun x => { x with state := st, answer := value }
    (x.recv.filter fun d => d.1 != Config.pkgNumber).foldl (fun s d =>
      match s.send ⟨aidDie a, 0, 0⟩ x.job 0x4000 d.1 d.2 0 .write (.outcome a d.2 r) none with
      | (.ok _, s) => s
      | (.error _, s) => s.faultJob x.job 3) s
/-- A resolution at its home, with the status its handle takes (R298). -/
def State.resolveHome (s : State) (job : Nat) (a : BitVec 32) (r : Resolution) : Status × State :=
  match s.slotOf a with
  | none => (.fault, s)
  | some x =>
    if x.job != job then (.access, s)
    else if x.auto then (.fault, s)
    else match x.state with
      | .affirmed => (.cancelled, s)
      | .denied => (.denied, s)
      | .free => (.fault, s)
      | .open =>
        let v := match r with | .deny v => some v | _ => none
        (.ok, s.settleSlot a r v)

/-! ## Held effects at release (R207, R292) -/

/-- OQREL: the oldest popped slot's permit returns (R186). -/
def State.oqRelease (s : State) (g q : Nat) : State :=
  s.modGroup g fun x =>
    match look q x.oqs with
    | none => x
    | some oq =>
      match firstIdx (fun e => e.state == .popped) oq.slots 0 with
      | some (i, _) => { x with oqs := assign q { oq with slots := oq.slots.eraseIdx i } x.oqs }
      | none => x
/-- One held effect performed, other than an access or a fence: what it sends comes after the writes held before it. -/
def State.performHeld (s : State) (k : Nat) (h : Held) : State :=
  match s.fibre? k with
  | none => s
  | some f =>
    let g := { f with wseq := h.wseq - 1 }
    match h.eff with
    | .mem _ => s
    | .fence _ => s
    | .dcarm id n succ q => s.sendMsg k g (.dcarm id n succ q)
    | .dcdec id => s.sendMsg k g (.dcdec id)
    | .trig => (s.publish (.job (s.jobOf f)) f.seen).modFibre k fun f => { f with trigd := true }
    | .evpost d => s.postFibre f d.toNat 0x0B .ok .none
    | .oqrel q => s.oqRelease f.grp q
    | .resolve a r op => s.sendResolution k g a r op
    | .fab o op => s.startFab f o op
/-- The operation that reports for an effect. -/
def HeldEff.op? : HeldEff → Option Nat
  | .resolve _ _ op => some op
  | .fab _ op => some op
  | _ => none
/-- An effect lost to a data error is not performed: the core logs it, the fibre takes KIND 0x07 at its next word (R161, R163, R258), and
a handle it would have reported to takes DATAERR. -/
def State.loseHeld (s : State) (k : Nat) (f : Fibre) (e : HeldEff) : State :=
  let s := s.logCore (s.site f).coreIx 0 0 7 3 (((s.group? f.grp).map (·.rgi)).getD 0) f.fid
  let s := s.modFibre k fun f => { f with lost := true }
  match e.op? with
  | some op => s.finishOp op .dataerr
  | none => s
/-- The oldest effect that a fibre's emptied taint releases, performed in its turn: once the access released before it is performed
(R207). None while it must wait, also an access for room (R165), a fence, TRIG and a fabric word for every access before it (R205). -/
def State.releaseHead (s : State) (k : Nat) : Option State :=
  match s.fibre? k with
  | none => none
  | some f =>
    match f.releasing with
    | [] => none
    | h :: l =>
      let f1 := { f with releasing := l }
      let done := (s.accesses k).all fun o => h.wseq ≤ o.seq
      let s1 := s.setFibre k f1
      if h.bad then some (s1.loseHeld k f1 h.eff)
      else if (f.relOp.bind s.op?).isSome then none
      else match h.eff with
        | .mem a =>
          if s.accessCount k f < 8 then some ((s1.modFibre k fun f => { f with relOp := some s.nextId }).issueAccess k a h.wseq h.ord) else none
        | .fence sc => if done then some (s1.fenceAt k f1 sc false) else none
        | .trig => if done then some (s1.performHeld k h) else none
        | .fab _ _ => if done then some (s1.performHeld k h) else none
        | _ => some (s1.performHeld k h)
/-- Effects being released are performed while the oldest may be. -/
def State.releaseN (s : State) (k : Nat) : Nat → State
  | 0 => s
  | n + 1 => match s.releaseHead k with | some s => s.releaseN k n | none => s
/-- Every fibre's effects go on being released. -/
def State.releaseAll (s : State) : State :=
  ((s.fibres.mapIdx fun k f => (k, f)).filter fun p => !p.2.releasing.isEmpty).foldl (fun s p => s.releaseN p.1 p.2.releasing.length) s
/-- Operand-queue entries a fibre took tentatively change state (R290). -/
def State.tentativeSlots (s : State) (k grp : Nat) (new : SlotState) : State :=
  s.modGroup grp fun g => { g with oqs := g.oqs.map fun q =>
    (q.1, { q.2 with slots := q.2.slots.map fun e => if e.state == .tentative k then { e with state := new } else e }) }
/-- A fibre whose taint has emptied (R292 steps 2 and 3). -/
def State.untaint (s : State) (k : Nat) : State :=
  match s.fibre? k with
  | none => s
  | some f =>
    let job := s.jobOf f
    let s := s.setFibre k { f with ckpt := none, undo := [], held := [], releasing := f.releasing ++ f.held, useful := 0 }
    let s := s.queues.foldl (fun s q => if q.job == job then s.popTaken job q.num k q.ring.length else s) s
    let s := s.tentativeSlots k f.grp .popped
    s.releaseN k (f.releasing.length + f.held.length)

/-! ## Applying an outcome on a die (R292, R293) -/

/-- Whether a fibre's taint holds an AID on a die of this package. -/
def State.carries (s : State) (die : Option Nat) (a : BitVec 32) (f : Fibre) : Bool :=
  (f.taint.any fun e => e.1 == a) && (match die with | some d => (s.site f).die == d | none => true)
/-- Queue entries and messages lose an affirmed AID, or are marked denied. -/
def markEntry (a : BitVec 32) (deny : Bool) (e : QEntry) : QEntry :=
  if e.aids.any fun x => x.1 == a then
    (if deny then { e with denied := true } else { e with aids := e.aids.filter fun x => x.1 != a })
  else e
/-- Whether a queue's home is another package. -/
def State.goesAway (s : State) (job q : Nat) : Bool := ((s.queue? job q).map fun x => x.home.1 != Config.pkgNumber).getD false
/-- On a die: in the queues it is the home of, and in its messages to other packages that have not left yet. -/
def State.markEntries (s : State) (die : Option Nat) (a : BitVec 32) (deny : Bool) : State :=
  { s with
    queues := s.queues.map fun q =>
      if (match die with | some d => q.homeDie == d | none => true) then
        { q with ring := q.ring.map (markEntry a deny), ext := q.ext.map (markEntry a deny), spillWait := q.spillWait.map (markEntry a deny) } else q
    msgs := s.msgs.map fun m => match m.body with
      | .push q e d =>
        if (match die with | some x => d == x && s.goesAway m.job q | none => true) then { m with body := .push q (markEntry a deny e) d } else m
      | _ => m }
/-- Denied entries that stand at the front of a queue of a die are removed (R290). -/
def State.dropFront (s : State) (die : Option Nat) : State :=
  s.queues.foldl (fun s q => if (match die with | some d => q.homeDie == d | none => true) then s.dropDenied q.job q.num false else s) s
/-- An entry as it reaches a queue's die: where that die has applied and acknowledged the outcome of one of its AIDs it comes late and is
treated alike; one whose AID has gone from its slot is dropped as a denied one is (R282). -/
def State.arriving (s : State) (die : Nat) (e : QEntry) : QEntry :=
  (e.aids.filter fun x => aidPkg x.1 == Config.pkgNumber).foldl (fun e x => match s.slotOf x.1 with
    | none => markEntry x.1 true e
    | some y =>
      if !y.acked.contains (Config.pkgNumber, die) then e
      else match y.state with
        | .affirmed => markEntry x.1 false e
        | .denied => markEntry x.1 true e
        | _ => e) e
/-- Whether a tagged message that a die sent, or any die, has still to be confirmed by the die it goes to (R282). -/
def State.tagsOut (s : State) (die : Option Nat) (a : BitVec 32) : Bool :=
  let mine := fun (d : Nat) => match die with | some x => d == x | none => true
  (s.msgs.any fun m => match m.body with | .push q e d => mine d && !s.goesAway m.job q && e.aids.any fun x => x.1 == a | _ => false) ||
    (s.pkg.retx ++ s.pkg.outq).any fun r => match r.pkt.body with | .push m => mine r.pkt.die && m.aids.any fun x => x.1 == a | _ => false
/-- The fibres of a die that carry an AID. -/
def State.carriers (s : State) (die : Option Nat) (a : BitVec 32) : List Nat :=
  ((s.fibres.mapIdx fun k f => (k, f)).filter fun p => s.carries die a p.2).map (·.1)
/-- An affirm applied on a die; `none` stands for every die, for an AID of another package. -/
def State.applyAffirm (s : State) (die : Option Nat) (a : BitVec 32) : State :=
  (s.carriers die a).foldl (fun s k =>
    let s := s.modFibre k fun f => { f with taint := f.taint.filter fun e => e.1 != a }
    if ((s.fibre? k).map fun f => f.taint.isEmpty).getD false then s.untaint k else s) (s.markEntries die a false)

/-- Whether nothing a fibre issued still writes its registers, and neither a store nor a copy of its present taint still writes .sp (R288,
R293). -/
def State.rollReady (s : State) (k : Nat) : Bool :=
  let mine := fun (o : Op) => ((s.fibre? k).map fun f => f.covers o.id).getD false
  (s.opsOf k).all fun o => o.done.isSome || match o.body with
    | .mem a _ => a.ndst == 0 && !(a.kind.writes && a.space == .sp && mine o)
    | .result _ _ _ => false
    | .acc (.read _ _ _ _) => false
    | .permit _ _ _ _ => false
    | .copy c => !(c.tainted && c.dst.space == .sp && mine o)
    | .gath g => !(g.tainted && !g.toq && mine o)
    | _ => true
/-- A fibre stops where it stands for a roll-back, leaving its wait, rendezvous or INV. -/
def State.stopForDeny (s : State) (k : Nat) : State :=
  let s := s.modFibre k fun f => { (f.hold s.clk .deny) with wait := none, arrive := none, inv := none, stopIn := none }
  { s with queues := s.queues.map fun q => { q with waiters := q.waiters.filter (· != k) } }
/-- Registers, flags and point of a checkpoint restored, a register that it does not hold as 0. The handles are none of it (R286): a register
that is pending on an operation from before it stays pending, unless it is dead there. -/
def Fibre.restore (f : Fibre) (c : Checkpoint) : Fibre :=
  { f with
    regs := f.regs.mapIdx fun r _ => (c.regs.getD r none).getD 0
    handles := f.handles.filter fun p => p.2 < c.num && (c.regs.getD p.1 none).isSome
    poison := c.poison, preds := c.preds, lr := c.lr, lc := c.lc, rc := c.rc, rep := c.rep, loops := c.loops,
    astat := c.astat, atrap := c.atrap, mxerr := c.mxerr, ks := c.ks, xr := c.xr, inH := c.inH, ret := c.ret,
    replay := f.replay.take c.nreplay, rp := c.rp, hdr := c.hdr, inv := none, arrive := none, wait := none, flight := [], dropped := false,
    reported := false, taint := [], ckpt := none, held := [], undo := [], useful := 0, guessing := none, owed := none, drawn := [] }
/-- At most four restart records, the oldest dropped first (R294). -/
def addRestart (l : List (DWord × DWord)) (word v : DWord) : List (DWord × DWord) :=
  (l.filter (fun e => e.1 != word) ++ [(word, v)]).drop ((l.filter (fun e => e.1 != word)).length + 1 - 4)
/-- The operations of held effects that are discarded: their handles take DENIED. -/
def heldOps (l : List Held) : List Nat := l.flatMap fun h => match h.eff with
  | .resolve _ _ op => [op]
  | .fab o op => op :: o.local?.toList
  | _ => []
/-- An undo entry goes back to its bank word; that of an evicted group's to the saved scratchpad (R277). -/
def State.undoWord (s : State) (grp : Nat) (u : Undo) : State :=
  match s.group? grp with
  | some g =>
    if g.out then
      match (List.range ((g.spad + 4095) / 4096)).find? fun i => s.spLoc g (4096 * i) ≤ u.loc && u.loc < s.spLoc g (4096 * i) + 4096 with
      | some i =>
        let off := 4096 * i + (u.loc - s.spLoc g (4096 * i))
        s.modGroup grp fun g => { g with savedSp := (g.savedSp.take off ++ leBytes 8 u.old.toNat ++ g.savedSp.drop (off + 8)).take g.savedSp.length }
      | none => s
    else s.putBytes u.loc (leBytes 8 u.old.toNat)
  | none => s
/-- A fibre rolls back (R293 steps 3 to 5). -/
def State.rollback (s : State) (k : Nat) (a : BitVec 32) : State :=
  match s.fibre? k with
  | none => s
  | some f =>
    match f.ckpt.map s.ckptNow with
    | none => s
    | some c =>
      let dead := heldOps f.held
      let s : State := { s with ops := s.ops.filter fun o => !dead.contains o.id }
      let s := f.undo.foldl (fun s u => s.undoWord f.grp u) s
      let s : State := { s with queues := s.queues.map fun q =>
        if q.home.1 == Config.pkgNumber then
          { q with ring := q.ring.map fun e => if (e.takenBy.map (·.1)) == some k then
              { e with takenBy := none, denied := e.denied || e.aids.any fun x => x.1 == a } else e }
        else { q with ring := q.ring.filter fun e => (e.takenBy.map (·.1)) != some k } }
      let s := (s.dropFront none).tentativeSlots k f.grp .full
      let core := (s.site f).coreIx
      let s := if (s.core core).ctdc.getLsbD 1 then s else s.modCore core fun x =>
        { x with td := (x.td.modify 0 (· - BitVec.ofNat 64 f.useful)).modify 3 (· + BitVec.ofNat 64 f.useful) }
      -- its counters fall by the operations that were only held
      let f' := f.setOc .fx (f.ocfx - BitVec.ofNat 8 (f.held.filter fun h => match h.eff with | .fab _ _ => true | _ => false).length)
      let f' := f'.restore c
      let f' := { f' with run := match f.run with | .waiting _ => .ready | r => r }
      let f' := f'.release .deny
      let s := (s.setFibre k f').retireHead k .fx
      let s := if f.holds.contains .debug then
          s.debugRecord core 0xB 0 (s.ordAt f' f'.rp).toNat 0 f' 0 0 0 else s
      -- its other open assumptions are withdrawn (R294)
      let mine := (List.range 4).flatMap fun d => ((s.die d).slots.filter fun e => e.2.fib == k && e.2.state == .open).map fun e => mkAid d e.1 e.2.gen
      mine.foldl (fun s b => s.settleSlot b .withdraw none) s
/-- A deny that carries a value leaves its guesser, on the guesser's die, a restart record, also where an other AID's deny has rolled that
back already (R294). -/
def State.noteRestart (s : State) (die : Option Nat) (a : BitVec 32) : State :=
  match s.slotOf a with
  | none => s
  | some x =>
    match x.answer, s.fibre? x.fib with
    | some v, some f =>
      if f.run == .ended || (match die with | some d => (s.site f).die != d | none => false) then s
      else s.modFibre x.fib fun f => { f with restarts := addRestart f.restarts x.word v }
    | _, _ => s
/-- A deny or withdrawal applied on a die: fibres that must still wait are stopped first; done when all have rolled
back. The second component says whether it is done. -/
def State.applyDeny (s : State) (die : Option Nat) (a : BitVec 32) : State × Bool :=
  let ks := s.carriers die a
  let s := ks.foldl (fun s k => s.stopForDeny k) s
  if ks.all s.rollReady then (((ks.foldl (fun s k => s.rollback k a) (s.markEntries die a true)).noteRestart die a).dropFront die, true)
  else (s, false)

/-- A job fault withdraws the job's open assumptions (R295); its fibres are ended by then. -/
def State.withdrawJob (s : State) (job : Nat) : State :=
  let open_ := (List.range 4).flatMap fun d =>
    ((s.die d).slots.filter fun e => e.2.job == job && e.2.state == .open).map fun e => (mkAid d e.1 e.2.gen, e.2.op, e.2.auto)
  open_.foldl (fun s x => s.settleSlot x.1 .withdraw none) s

end Sys2Proof.Machine
end

