-- ==== Sys2Proof/Machine/Saved.lean ====
section
/-! DEFINITION. Context blocks (R276) and dumps (R369) as bytes. R276 gives the order of the parts; the places of the
fields inside a part are this model's (log 10). -/

namespace Sys2Proof.Machine

/-- A count and the words of a list's items. -/
def countedWords {α : Type} (l : List α) (u : α → List Word) : List Word := w32 l.length :: l.flatMap u
def RP.words (p : RP) : List Word := dwords p.hdr ++ [w32 p.idx]
def LoopEntry.words (e : LoopEntry) : List Word := dwords e.body ++ dwords e.endH ++ dwords e.exit ++ [e.outer]
def TrapRegs.words (x : TrapRegs) : List Word := [x.opc, x.opd, x.opa, x.opb, x.opi, x.cls, x.spo]
/-- 96 predicates as three words. -/
def predWords (p : BitVec 96) : List Word := [p.setWidth 32, (p >>> 32).setWidth 32, (p >>> 64).setWidth 32]
/-- Poison flags: a bit per register, access poison first, then storage poison. -/
def poisonWords (l : List (Nat × PoisonKind)) : List Word :=
  [PoisonKind.access, PoisonKind.storage].flatMap fun k => (List.range 4).map fun j =>
    w32 ((l.filter fun e => e.2 == k && e.1 / 32 == j).foldl (fun n e => n ||| 1 <<< (e.1 % 32)) 0)
/-- A trap return (R257). -/
def TrapReturn.words (r : TrapReturn) : List Word := r.rp.words ++ [w32 (bit r.after)]
def Checkpoint.words (c : Checkpoint) : List Word :=
  c.rp.words ++ countedWords c.regs (fun r => match r with | some v => [1, v] | none => [0]) ++ predWords c.preds ++ dwords c.lr ++
    [c.lc, c.rc, c.astat, c.atrap, c.mxerr] ++ c.ks ++ c.xr.words ++ countedWords c.loops LoopEntry.words ++ [w32 c.nreplay] ++
    w32 (bit c.inH) :: (match c.ret with | some r => 1 :: r.words | none => [0])
def aidWords (l : List (BitVec 32 × Nat)) : List Word := countedWords l fun e => [e.1, w32 e.2]
def Replay.words (r : Replay) : List Word := dwords r.acc.addr ++ [w32 (kindNum r.kind), w32 r.seat.ord.toNat]
def AccKind.num : AccKind → Nat
  | .ld => 0 | .st => 1 | .atom => 2 | .red => 3 | .accld => 4 | .accst => 5
def Place.words (p : Place) : List Word := w32 p.space.code :: dwords p.addr
/-- An optional field: 1 and its words, or 0. -/
def optWords {α : Type} (x : Option α) (u : α → List Word) : List Word := match x with | some v => 1 :: u v | none => [0]
/-- A fabric word's parameters. -/
def FabOp.words : FabOp → List Word
  | .puts dst src len sig lh => 0 :: dwords dst ++ src.words ++ [w32 len] ++
      optWords sig (fun x => dwords x.1 ++ dwords x.2.1 ++ [w32 (bit x.2.2)]) ++ optWords lh fun l => [w32 l]
  | .get dst src len bar => 1 :: dst.words ++ dwords src ++ [w32 len] ++ optWords bar fun b => [w32 b]
  | .radd ty dst src cnt lh => 2 :: w32 ty.code :: dwords dst ++ src.words ++ [w32 cnt] ++ optWords lh fun l => [w32 l]
  | .want dst name cap dl => 3 :: dst.words ++ dwords name ++ [w32 cap] ++ dwords (w64 dl)
  | .announce src name len => 4 :: src.words ++ dwords name ++ [w32 len]
  | .twalk desc port tag => 5 :: dwords desc ++ [w32 port, w32 tag]
  | .cseq desc tag => 6 :: dwords desc ++ [tag]
def Resolution.words : Resolution → List Word
  | .affirm => [0] | .deny v => 1 :: dwords v | .withdraw => [2]
def Held.words (h : Held) : List Word :=
  w32 h.ord.toNat :: match h.eff with
    | .mem a => [1, w32 a.kind.num, w32 a.space.code, w32 a.order.code, w32 a.scope.code, w32 a.aop.code] ++ dwords a.addr ++ [w32 a.size] ++ a.data
    | .dcarm id n succ q => [3, id, n, w32 q] ++ succ
    | .dcdec id => [4, id]
    | .trig => [5]
    | .evpost d => [6, d]
    | .oqrel q => [7, w32 q]
    | .resolve a r op => [8, a, w32 op] ++ Resolution.words r
    | .fab o op => [9, w32 op] ++ o.words
    | .fence sc => [10, w32 (match sc with | .grp => 0 | .clu => 1 | .die => 2 | .pkg => 3 | .sys => 4)]
/-- The registers a context block holds: those live at the stop site, or all in a wait and after END (R80, R276, R355). -/
def State.savedRegs (s : State) (f : Fibre) : List Word :=
  let live := if f.wait.isSome || f.arrive.isSome || f.stopIn.isSome || f.run == .ended then 2 ^ 128 - 1 else s.liveAt f f.rp
  (f.regs.mapIdx fun r v => (live.testBit r, v)).filterMap fun e => if e.1 then some e.2 else none
/-- A fibre's part. -/
def State.fibreWords (s : State) (f : Fibre) : List Word :=
  countedWords (s.savedRegs f) (fun v => [v]) ++ poisonWords f.poison ++ predWords f.preds ++ f.rp.words ++
    [w32 (bit f.inH)] ++ (match f.ret with | some r => 1 :: r.words | none => [0]) ++
    dwords f.lr ++ [f.lc, f.rc] ++ countedWords f.loops LoopEntry.words ++
    [w32 (f.ocfx.toNat <<< 24 ||| f.ocga.toNat <<< 16 ||| f.ocmx.toNat <<< 8 ||| f.occp.toNat), f.astat, f.atrap, f.mxerr] ++
    f.xr.words ++ f.ks ++ countedWords f.replay Replay.words ++
    (match f.wait with | some (.nap w) => dwords (w64 w) | _ => [0, 0]) ++ aidWords f.taint ++
    (match f.ckpt with | some c => 1 :: c.words | none => [0]) ++ countedWords (f.releasing ++ f.held) Held.words ++
    countedWords f.service (fun e => w32 e.1 :: e.2.words)
/-- The group's scratchpad and tiles: an evicted group's as its context keeps them. -/
def State.spadBytes (s : State) (g : Group) : List Byte :=
  if g.out then g.savedSp
  else (List.range ((g.spad + 4095) / 4096)).flatMap fun u => s.getBytes (s.spLoc g (4096 * u)) (min 4096 (g.spad - 4096 * u))
def State.tileWords (s : State) (g : Group) (t : Nat) : List Word :=
  let l := (look t (s.core (coreIx g.die g.clu g.core)).tiles).getD []
  l ++ List.replicate (65536 - l.length) 0
def State.groupTiles (s : State) (g : Group) : List (List Word) := if g.out then g.savedTiles else g.tmap.map (s.tileWords g)
/-- The state code of an access-slice context. -/
def sliceCode : SliceState → Nat
  | .none => 0 | .running => 1 | .ended => 2 | .cancelled => 3 | .faulted => 4 | .waitingTrap => 5
def Slot.words (e : Slot) : List Word :=
  [w32 e.num, e.status, w32 (match e.state with | .filling => 0 | .full => 1 | .popped => 2 | .tentative _ => 3)]
/-- A context block. -/
def State.contextBlock (s : State) (gi : Nat) (g : Group) : List Byte :=
  let header := [w32 g.job, w32 g.gid, w32 g.prio, g.spec] ++ dwords g.uhandler ++
    [w32 g.n, w32 g.regs, w32 g.spad, w32 g.tmap.length, w32 (match g.slice with | some x => sliceCode x.state | none => 0)]
  let fs := s.members gi
  wordBytes (header ++ List.replicate (64 - header.length) 0 ++ fs.flatMap (fun p => s.fibreWords p.2)) ++
    wordBytes (g.convs.flatMap fun c => w32 c.n :: countedWords c.signed (fun e => [w32 e.1])) ++
    wordBytes (countedWords (fs.filterMap fun p => match p.2.wait with | some (.bar off ph dl _ _) => some (p.2.fid, off, ph, dl) | _ => none)
      fun e => [w32 e.1, e.2.1, e.2.2.1] ++ dwords (w64 (e.2.2.2.getD 0))) ++
    s.spadBytes g ++ (s.groupTiles g).flatMap wordBytes ++
    wordBytes (match g.chain with
      | some c => [1, w32 c.tile] ++ countedWords c.rows fun r =>
          [w32 r.1, w32 r.2.1] ++ countedWords r.2.2.1 (fun m => [BitVec.ofInt 32 m]) ++ countedWords r.2.2.2 fun m => [BitVec.ofInt 32 m]
      | none => [0]) ++
    (match g.slice with
     | none => []
     | some x => wordBytes (match s.fibre? x.fib with | some f => s.fibreWords f | none => []) ++
        g.oqs.flatMap fun q => (q.2.slots.filter fun e => e.state != .filling).flatMap fun e => wordBytes e.words ++ e.payload)
/-- The header of a dump (R369). -/
def dumpHeader (job status cause blocks clk : Nat) : List Byte :=
  wordBytes [w32 job, w32 (cause <<< 8 ||| status), w32 blocks, 0] ++ leBytes 8 clk ++ List.replicate 40 0
/-- What a dump lists beside the blocks: queue entries and armed counters (R279). -/
def State.dumpLists (s : State) (job : Nat) : List Byte :=
  ((s.queues.filter fun q => q.job == job).flatMap fun q => (q.ring ++ q.ext ++ q.spillWait).flatMap fun e => wordBytes e.words) ++
  (s.clusters.flatMap fun c => (c.2.counters.filter fun x => x.2.job == job).flatMap fun x =>
    wordBytes ([w32 (c.1 * 4096 + x.1), w32 x.2.count, w32 x.2.queue, 0] ++ x.2.succ))
/-- A job's dump is written to its dump area; that of a job without placed groups, its header and lists, by the control core of cluster 0. -/
def State.dump (s : State) (j cause : Nat) : State :=
  match s.job? j with
  | none => s
  | some job =>
    let gs := sortBy (fun p => p.2.gid) (s.jobGroups j)
    let bytes := dumpHeader j 1 cause gs.length s.clk ++ gs.flatMap (fun p => s.contextBlock p.1 p.2) ++ s.dumpLists j
    match gs.flatMap fun p => s.members p.1 with
    | (k, f) :: _ => s.unitWrite k f job.dump.toNat bytes
    | [] => s.unitWrite s.fibres.length (s.agent 0 j 0x4100) job.dump.toNat bytes
/-- A group's block is written to the save region after the directory's 4 KiB; block n of a job lies behind n regions
of 2^22 bytes (log 10). -/
def State.writeContext (s : State) (gi : Nat) (g : Group) : State :=
  match s.job? g.job, s.members gi with
  | some job, (k, f) :: _ => s.unitWrite k f (job.save.toNat + 4096 + g.gid * 2 ^ 22) (s.contextBlock gi g)
  | _, _ => s
/-- The die whose memory holds a group's block, by its package; the group's own where the save region is not reached. -/
def State.saveDie (s : State) (gi : Nat) (g : Group) : Nat × Nat :=
  match s.job? g.job, s.members gi with
  | some job, (_, f) :: _ =>
    match (s.findNow f .g (job.save.toNat + 4096 + g.gid * 2 ^ 22) 1 .write).1 with
    | .at_ loc => (Config.pkgNumber, physHome loc)
    | .remote pkg die _ => (pkg, die)
    | _ => (Config.pkgNumber, g.die)
  | _, _ => (Config.pkgNumber, g.die)

/-- A group that is evicted is lost to the tile walks that it is a destination of, wherever it comes back (R327). -/
def State.loseWalks (s : State) (gi : Nat) : State :=
  s.modPkg fun p => { p with walks := p.walks.map fun w => { w with grps := w.grps.map fun x => if x == some gi then none else x } }

/-! ## Receiver sets of a tainted group (R282, R295) -/

/-- Whether a die may join the receiver set of every AID that a group's fibres carry. -/
def State.mayHoldTaints (s : State) (gi : Nat) (d : Nat × Nat) : Bool :=
  (s.members gi).all fun p => p.2.taint.all fun a => s.mayJoin a.1 d.1 d.2
/-- A die joins them before it holds the group or its context. -/
def State.joinTaints (s : State) (gi : Nat) (d : Nat × Nat) : State :=
  (s.members gi).foldl (fun s p => p.2.taint.foldl (fun s a => s.joinSet a.1 d.1 d.2) s) s

end Sys2Proof.Machine
end

