-- ==== Sys2Proof/Machine/Jobs.lean ====
section
/-! DEFINITION. Ends: of fibres (R80), groups (R81), jobs (R222, R223, R279); the active set (R149, R150); and what takes
effect after a step: event records that find room (R211), job faults whose fibres have all come to rest. -/

namespace Sys2Proof.Machine

/-! ## The active set (R149, R150) -/

/-- Ready, or in a wait that is over: its word would go on now (Schedule: wakeRetries). -/
def Fibre.isReady (f : Fibre) : Bool := match f.run with | .ready => true | .waiting _ => f.woken | _ => false
/-- A group's fibres as the scheduler sees them. -/
def State.groupReady (s : State) (g : Nat) : Bool := (s.members g).any fun p => p.2.isReady
def Group.coreIx (g : Group) : Nat := Machine.coreIx g.die g.clu g.core
def Group.resident (g : Group) : Bool := !g.out && !g.freed && !g.exited
/-- Fibres of a group with its helpers (R77). -/
def Group.slots (g : Group) : Nat := (g.n + 3) / 4 * 4
/-- The groups of a core that a test accepts, with their numbers. -/
def State.coreGroups (s : State) (core : Nat) (p : Group → Bool) : List (Nat × Group) :=
  (s.groups.mapIdx fun i g => (i, g)).filter fun x => x.2.job != 0 && x.2.resident && x.2.coreIx == core && p x.2
/-- Whether one more group of n slots fits the active set. -/
def State.activeRoom (s : State) (core n : Nat) : Bool :=
  let act := s.coreGroups core (·.active)
  act.length < 8 && (act.map fun x => x.2.slots).sum + n ≤ 1024
/-- The pending group with a ready fibre and the greatest ready age; ties go to the lower group number. -/
def State.oldestPending (s : State) (core : Nat) : Option (Nat × Group) :=
  ((s.coreGroups core fun g => !g.active && g.evict.isNone).filter fun x => s.groupReady x.1).foldl (fun b x =>
    match b with
    | none => some x
    | some y => if y.2.age < x.2.age then some x else b) none
/-- A group enters the active set. -/
def State.enterActive (s : State) (g : Nat) : State :=
  let ready := ((s.members g).filter fun p => p.2.isReady).map (·.1)
  s.modGroup g fun x => { x with active := true, actClk := s.clk, age := 0, unprot := ready }
/-- Free positions are filled, oldest first (R150 step 2). -/
def State.swapIn (s : State) (core : Nat) : Nat → State
  | 0 => s
  | n + 1 =>
    match s.oldestPending core with
    | none => s
    | some (g, x) => if s.activeRoom core x.slots then (s.enterActive g).swapIn core n else s
def State.leaveActive (s : State) (g : Nat) : State := s.modGroup g fun x => { x with active := false, unprot := [] }
/-- Every core's free positions are filled (R150 step 2). -/
def State.swapAll (s : State) : State :=
  (((s.groups.filter fun g => !g.active && g.resident && g.job != 0).map Group.coreIx).eraseDups).foldl (fun s c => s.swapIn c 16) s
/-- How many of the next n clk a core is frozen by a handler-slot entry (R152). -/
def State.frozenFor (s : State) (core n : Nat) : Nat := min n ((s.core core).frozen - s.clk)
/-- Ready ages of pending groups after n clk; frozen clk do not count (R150, R152). -/
def State.ageGroups (s : State) (n : Nat) : State :=
  { s with groups := s.groups.mapIdx fun i g =>
    if !g.active && g.resident && g.job != 0 && s.groupReady i then { g with age := g.age + (n - s.frozenFor g.coreIx n) } else g }

/-! ## The end of a fibre and of a group (R80, R81) -/

/-- A fibre ends: pending handles are detached, its operations run on without it, its slot is free. -/
def State.endOne (s : State) (k : Nat) : State :=
  let s := s.modFibre k fun f => { f with
    run := .ended, stopClk := s.clk, holds := [], stopReq := [], owed := none, wait := none, arrive := none, inv := none, rep := none, loops := [],
    restarts := [], handles := [], replay := [], releasing := [], relOp := none, lost := false, service := [], flight := [], occp := 0, ocmx := 0, ocga := 0, ocfx := 0 }
  { s with
    carried := s.carried.filter fun c => c.op != wordKey k
    ops := s.ops.filterMap fun o => if o.fib == k then (if o.done.isSome then none else some { o with gone := true }) else some o
    queues := s.queues.map fun q => { q with waiters := q.waiters.filter (· != k) } }
/-- The quad's helpers end with its last real fibre. -/
def State.endHelpers (s : State) (g fid : Nat) : State :=
  let quad := (s.members g).filter fun p => p.2.fid / 4 == fid / 4
  if quad.all fun p => p.2.isHelper || p.2.run == .ended then
    (quad.filter fun p => p.2.isHelper && p.2.run != .ended).foldl (fun s p => s.endOne p.1) s
  else s
/-- The group exits with its last real fibre; event 0x01 (R213). -/
def State.exitGroup (s : State) (g : Nat) : State :=
  match s.group? g with
  | none => s
  | some x =>
    let real := (s.members g).filter fun p => !p.2.isHelper
    if x.exited || x.job = 0 || !(real.all fun p => p.2.run == .ended) then s
    else
      let s := ((s.members g).filter fun p => p.2.run != .ended).foldl (fun s p => s.endOne p.1) s
      let s := s.modGroup g fun x => { x with exited := true, active := false, unprot := [] }
      let s : State := { s with queues := s.queues.map fun q => { q with consumers := q.consumers.filter (· != g) } }
      let s := s.post (cluIx x.die x.clu) (eventRecord x.gid x.job s.clk 1 0 x.core x.rgi 0xFFFF) (.freeGroup g)
      s.swapIn x.coreIx 16
/-- A fibre that ends without TRIG releases at its END (R205). -/
def State.releaseEnd (s : State) (f : Fibre) : State := if f.kind == .real && !f.trigd then s.publish (.job (s.jobOf f)) f.seen else s
/-- Step 5 of R80, with what follows from it. -/
def State.endFibre (s : State) (k : Nat) : State :=
  match s.fibre? k with
  | none => s
  | some f =>
    -- a step whose fibre ends first (R361)
    let s := if f.stepping then
        (s.modFibre k fun f => { f with stepping := false }).debugRecord (s.site f).coreIx 3 0 (s.ordAt f f.rp).toNat 0 f 16 0 0
      else s
    (((s.releaseEnd f).endOne k).endHelpers f.grp f.fid).exitGroup f.grp
/-- Whether the waits of R80 steps 3 and 4 are over: a barrier arrival writes the group's scratchpad too. -/
def State.endReady (s : State) (k : Nat) (f : Fibre) : Bool :=
  s.accessesDone k f && (s.opsOf k).all fun o => o.done.isSome || match o.body with
    | .result _ _ _ => false
    | .acc (.read _ _ _ _) => false
    | .copy c => c.dst.space != .sp && c.bar.isNone
    | .gath g => g.toq
    | .fab (.get d _ _ b) _ _ _ _ => d.space != .sp && b.isNone
    | .fab (.want d _ _ _) _ _ _ _ => d.space != .sp
    | _ => true
/-- A group's resources are released (R81, R156): the access slice ends, and everything it held is free. -/
def State.freeGroup (s : State) (g : Nat) : State :=
  match s.group? g with
  | none => s
  | some x =>
    let s := match x.slice with
      | some sl => s.modFibre sl.fib fun f => { f with run := .ended, wait := none }
      | none => s
    let s := s.modGroup g fun x => { x with freed := true, slice := none, oqs := [], chain := none }
    { s with ops := s.ops.filter fun o => match o.body with | .feed gr _ _ _ _ _ => gr != g | _ => true }

/-! ## The end of a job (R222, R223, R279) -/

/-- Completion is declared: the status, the host's notice, everything that ends with a job; its groups that have not exited do so,
each with its record (R81, R213, R240). -/
def State.completeJob (s : State) (j : Nat) (st : Status) : State :=
  let s := s.modJob j fun x => { x with status := some st }
  let s := if ((s.job? j).map fun x => x.failed && x.ending.isNone).getD false then s.dump j 3 else s
  let gs := (s.jobGroups j).filter fun p => !p.2.exited
  let s := gs.foldl (fun s p =>
    ((s.members p.1).foldl (fun s m => if m.2.run == .ended then s else s.endOne m.1) s).exitGroup p.1) s
  let s : State := { s with dies := s.dies.map fun d => (d.1, { d.2 with store := d.2.store.filter (·.job != j) }) }
  s.modPkg fun p => { p with
    notified := p.notified ++ [(j, st)], aborts := p.aborts.filter (·.job != j),
    ports := p.ports.map fun t => (t.1, t.2.filter (·.job != j)) }
/-- Work in flight is settled item by item (R279): engine and fabric operations retire with FAULT, held effects go,
tasks are requeued or lost, trap records go with their fibres. Accesses run on. -/
def State.settleWork (s : State) (j : Nat) : State :=
  let ks := ((s.fibres.mapIdx fun k f => (k, f)).filter fun p => s.jobOf p.2 == j && p.2.run != .ended).map (·.1)
  let held := ks.flatMap fun k => ((s.fibre? k).map fun f => heldOps (f.releasing ++ f.held)).getD []
  let s := held.foldl (fun s op => s.finishOp op .denied) s
  let eng := (s.ops.filter fun o => o.job == j && o.done.isNone && (match o.body with | .mem _ _ => false | .stop _ _ => false | _ => true)).map (·.id)
  let s := eng.foldl (fun s op => s.finishOp op .fault) s
  let s := ks.foldl (fun s k => s.abandonAll k) s
  let s := s.withdrawJob j
  let s : State := { s with
    cores := s.cores.map fun c => (c.1, Core.refillTraps { c.2 with
      trapq := c.2.trapq.filter fun t => ((s.group? t.grp).map (·.job)).getD 0 != j
      trapWait := c.2.trapWait.filter fun t => ((s.group? t.grp).map (·.job)).getD 0 != j
      mmaq := c.2.mmaq.filter fun m => ((s.group? m.grp).map (·.job)).getD 0 != j
      running := match c.2.running with
        | some m => if ((s.group? m.1.grp).map (·.job)).getD 0 == j then none else c.2.running
        | none => none }) }
  let s := s.modPkg fun p => { p with walks := p.walks.filter (·.job != j),
                                      progs := p.progs.map fun x => if x.job == j then { x with live := false } else x }
  ks.foldl (fun s k => s.modFibre k fun f => { f with
    held := [], releasing := [], undo := [], taint := [], ckpt := none, run := .ended, holds := [], stopReq := [], wait := none, arrive := none,
    handles := [] }) s
/-- Whether a group waits for work: every real, unended fibre waits in QPOP on an empty queue (R222, R223). -/
def State.idleInPop (s : State) (j g : Nat) : Bool :=
  (s.members g).all fun p => p.2.isHelper || p.2.run == .ended || (p.2.run == .waiting .queue && match p.2.wait with
    | some (.qpop q _ _) => ((s.queue? j q).map fun x => x.ring.isEmpty && x.ext.isEmpty).getD true
    | _ => false)
/-- The watchdog's period in clk (R223; the scope file gives 1.5 GHz); 0 where it is off. -/
def Job.period (j : Job) : Nat := if j.watchdog = 0 then 0 else 1500 * 2 ^ j.watchdog
/-- The groups of a persistent job with no beat for a period. -/
def State.unbeaten (s : State) (j : Nat) (period : Nat) : List (Nat × Group) :=
  sortBy (fun p => p.2.gid) ((s.jobGroups j).filter fun p => !p.2.exited && decide (max p.2.beat p.2.placed + period ≤ s.clk) && !s.idleInPop j p.1)
/-- The watchdog's clocks after n clk (R89, R223, R273): time with a fibre of the job stopped for debug or by HSTOP does not count, and a group
that waits for work counts as beating. -/
def State.watchPass (s : State) (n : Nat) : State :=
  let held := fun (j : Nat) => s.fibres.any fun f => f.run == .stopped && (f.holds.contains .debug || f.holds.contains .hstop) && s.jobOf f == j
  { s with
    jobs := s.jobs.mapIdx fun i x => if x.watchdog != 0 && held (i + 1) then { x with lastIssue := x.lastIssue + n } else x
    groups := s.groups.mapIdx fun i g =>
      if ((s.job? g.job).map fun x => x.watchdog == 0 || !x.persistent).getD true then g
      else if s.idleInPop g.job i then { g with beat := s.clk + n }
      else if held g.job then { g with beat := max g.beat g.placed + n } else g }
/-- The settlement of a job that ends with a fault, and the event of its completion. -/
def State.settleJob (s : State) (j : Nat) : State :=
  let s := s.settleWork j
  s.postHw 0 (((s.job? j).map (·.rounds)).getD 0) j 2 .fault (.complete j .fault)
/-- A job fault whose fibres all stand: the dump, the events, the settlement (R279); of a hung job that, and the mark, once event 0x08
stands (R211, R223). -/
def State.endJob (s : State) (j cause : Nat) : State :=
  let s := (s.modJob j fun x => { x with ending := some (cause + 16) }).dump j cause
  if cause = 1 then s.postHw 0 (((s.job? j).map (·.late)).getD 0) j 8 .fault (.hung j) else s.settleJob j
/-- Whether every fibre of a job is at rest; a Pacer context is none. -/
def State.jobAtRest (s : State) (j : Nat) : Bool :=
  s.fibres.all fun f => s.jobOf f != j || f.isPacer || f.atRest
/-- Jobs whose fault can be carried out now. -/
def State.settleJobs (s : State) : State :=
  (s.jobs.mapIdx fun i x => (i + 1, x)).foldl (fun s p =>
    match p.2.ending with
    | some c => if c < 16 && s.jobAtRest p.1 then s.endJob p.1 c else s
    | none => s) s

/-! ## Event records that waited (R211) -/

/-- What takes effect with a record. -/
def State.applyAct (s : State) : EvAct → State
  | .none => s
  | .freeGroup _ => s
  | .complete j st => s.completeJob j st
  | .requeue job q e => s.releaseEntry job q ⟨e.src / (sourceKey 0 1 0 0 0 0) % 4, e.src / (sourceKey 0 0 1 0 0 0) % 8, 8⟩ e
  | .deliver core t => s.modCore core (·.pushTrap t)
  | .resume k => s.modFibre k fun f => f.release .trap
  | .spill job q => s.spillNow job q
  | .deadlock job => s.faultJob job 2
  | .lose job => s.modJob job fun j => { j with failed := true }
  | .hung job => ((s.modJob job fun j => { j with hung := true }).modPkg fun p => { p with notified := p.notified ++ [(job, .fault)] }).settleJob job
  | .drop m => s.dropMsg m
/-- A record with the clk of its writing (R211). -/
def stampRecord (r : BitVec 128) (clk : Nat) : BitVec 128 := setQuarter r 1 (w32 clk)
/-- Waiting records of a cluster enter its ring while there is room. -/
def State.drainEvents (s : State) (clu : Nat) : Nat → State
  | 0 => s
  | n + 1 =>
    match (s.cluster clu).evWait with
    | [] => s
    | (r, a) :: l =>
      if (s.cluster clu).events.length < 512 then
        ((s.modCluster clu fun c => { c with events := c.events ++ [stampRecord r s.clk], evWait := l }).applyAct a).drainEvents clu n
      else s
/-- Whether a cluster's ring already holds the record that frees a group. -/
def State.exitStands (s : State) (clu g : Nat) : Bool := (s.cluster clu).evWait.all fun e => e.2 != .freeGroup g

/-- HSTOPs whose targets all stand (R273): their handles take OK. -/
def State.settleStops (s : State) : State :=
  (s.ops.filter fun o => match o.body with
    | .stop j g => o.done.isNone && s.fibres.all fun f =>
        !(f.kind == .real || f.kind == .helper) || f.atRest ||
        !((match j with | some j => s.jobOf f == j | none => false) || (match g with | some g => f.grp == g | none => false))
    | _ => false).foldl (fun s o => s.finishOp o.id .ok) s
/-- Span stops that are complete: a record of KIND 0x04 (R90, R361, R363). -/
def State.settleSpans (s : State) : State :=
  s.cores.foldl (fun s c =>
    c.2.spans.foldl (fun s p =>
      let l := (s.members p.1).filter fun m => m.2.fid / 32 == p.2
      if l.all fun m => m.2.atRest then
        let s := s.modCore c.1 fun c => { c with spans := c.spans.filter (· != p) }
        (match l.head? with
         | some m => s.debugRecord c.1 4 0 0xFFFFFF 0 { m.2 with fid := 32 * p.2, taint := [] } 0 0 0
         | none => s)
      else s) s) s
/-- After a step: waiting records, then jobs that can be ended, then their records. -/
def State.settle (s : State) : State :=
  let s := s.clusters.foldl (fun s c => s.drainEvents c.1 (c.2.evWait.length + 4)) s
  let s := s.releaseLanes.releaseAll.sendRemotes.settleJobs.settleStops.settleSpans.swapAll
  s.clusters.foldl (fun s c => s.drainEvents c.1 (c.2.evWait.length + 4)) s
end Sys2Proof.Machine
end

