-- ==== Sys2Proof/Machine/Codeword.lean ====
section
/-! DEFINITION. What makes a word illegal beyond its own fields: its clause, the fibre's allocation, the agent that
issues it, and the framing of REP and INV (R31, R32, R40, R46, R49, R52, R56, R154, R210). -/

namespace Sys2Proof.Machine

/-! ## Places and agents -/

/-- Words only a Pacer context may issue (R154). -/
def pacerOnly : Instr → Bool
  | .ploop _ _ _ => true
  | .afeed _ _ _ _ _ _ => true
  | .pwait _ _ _ => true
  | _ => false
/-- Words that a control core or handler fibre has no unit for (R56, R210, R267). -/
def unitOnly : Instr → Bool
  | .mma .. => true
  | .accz _ _ => true
  | .accld _ _ _ _ => true
  | .accst .. => true
  | .accrd _ _ _ _ => true
  | .oqpop _ _ _ _ => true
  | .oqrel _ _ => true
  | .aslice _ _ _ _ => true
  | .astop _ => true
  | .guess .. => true
  | _ => false
def isLoop : Instr → Bool
  | .loopReg _ _ _ => true
  | .loopImm _ _ _ => true
  | .ploop _ _ _ => true
  | _ => false
/-- Whether an access slice may hold a word (R154). -/
def pacerWord (i : Instr) (w0 : Word) : Bool :=
  let m := (w0.extractLsb 26 21).toNat
  if m ≤ 0x13 || (0x18 ≤ m && m ≤ 0x1A) then true
  else match i with
    | .movs _ _ _ => true
    | .bra _ _ => true
    | .ld _ _ _ sp _ _ _ _ => sp != .sys
    | .gath .. => true
    | .waitc _ _ _ => true
    | .astop _ => true
    | _ => pacerOnly i
/-- The predicates that a word's predicate fields name (R154): PMOV's field holds a block number. -/
def predsNamed (i : Instr) : List Nat :=
  match i with
  | .pmovToReg _ _ _ => []
  | .pmovToPred _ _ _ => []
  | _ => i.readPreds ++ i.writePreds

/-- The causes a word has from its clause and its issuer. -/
def placeCauses (cls idx count nregs ntiles : Nat) (pacer priv : Bool) (i : Instr) (w0 : Word) (words : Nat) : List Nat :=
  causesOf [
    ((match majorClass (w0.extractLsb 26 21).toNat with | some c => cls != 6 && c != cls | none => false), 4),
    (idx + words > count, 5),
    (isLoop i && idx + words != count, 5),
    (runsBad nregs i.runs, 6),
    ((match i.tile with | some t => t ≥ ntiles && !priv | none => false), 6),
    (pacerOnly i && !pacer, 8),
    (unitOnly i && priv, 8)]
/-- Second words that between them spell every function, type, space, size and order, their other bits 0. -/
def secondWords : List Word :=
  (List.range 512).map (fun x => w32 ((x % 32) <<< 20 ||| (x / 32) <<< 16)) ++ (List.range 256).map fun x => w32 (x <<< 24)
/-- The causes below 5 of a misframed instruction of which so many words are there: those it has whatever the missing ones hold. -/
def straddleCauses (r : Raw) (here : Nat) : List Nat :=
  let fills : List Raw := if here ≤ 1 then secondWords.map fun x => ⟨r.w0, x, 0⟩ else [⟨r.w0, r.w1, 0⟩]
  [1, 2, 3, 4].filter fun c => fills.all fun x => (decodeRaw x).causes.contains c
/-- The causes of one word as its raw bits stand. An instruction whose last words lie past the clause's end is misframed (0x05), and has
what its class and the words that are there give; no lower cause is read from words it does not have (R31, R57; DEDUCED, log 33). -/
def wordCauses (cls idx count nregs ntiles : Nat) (pacer priv : Bool) (r : Raw) : List Nat :=
  let d := decodeRaw r
  let n := wordCount r.w0 r.w1
  let own := if idx + n > count then straddleCauses r (count - idx) ++ d.causes.filter (5 ≤ ·) else d.causes
  match d.instr with
  | some i => own ++ placeCauses cls idx count nregs ntiles pacer priv i r.w0 n
  | none =>
    own ++ causesOf [
      ((match majorClass (r.w0.extractLsb 26 21).toNat with | some c => cls != 6 && c != cls | none => false), 4),
      (idx + n > count, 5)]

/-! ## REP (R49) -/

/-- Operand fields. -/
structure Fields where
  d : Bool
  a : Bool
  b : Bool
  c : Bool
  deriving DecidableEq, Repr
/-- The fields a target of REP uses as a register, predicate or accumulator. -/
def stepFields : Instr → Fields
  | .add .. => ⟨true, true, true, false⟩
  | .sub .. => ⟨true, true, true, false⟩
  | .mul .. => ⟨true, true, true, false⟩
  | .and .. => ⟨true, true, true, false⟩
  | .or .. => ⟨true, true, true, false⟩
  | .xor .. => ⟨true, true, true, false⟩
  | .andn .. => ⟨true, true, true, false⟩
  | .shl .. => ⟨true, true, true, false⟩
  | .shr .. => ⟨true, true, true, false⟩
  | .sar .. => ⟨true, true, true, false⟩
  | .rot .. => ⟨true, true, true, false⟩
  | .mov .. => ⟨true, true, false, false⟩
  | .neg .. => ⟨true, true, false, false⟩
  | .abs .. => ⟨true, true, false, false⟩
  | .not .. => ⟨true, true, false, false⟩
  | .clz .. => ⟨true, true, false, false⟩
  | .popc .. => ⟨true, true, false, false⟩
  | .brev .. => ⟨true, true, false, false⟩
  | .addTyped .. => ⟨true, true, true, false⟩
  | .subTyped .. => ⟨true, true, true, false⟩
  | .mulTyped .. => ⟨true, true, true, false⟩
  | .mulhi .. => ⟨true, true, true, false⟩
  | .div .. => ⟨true, true, true, false⟩
  | .rem .. => ⟨true, true, true, false⟩
  | .minTyped .. => ⟨true, true, true, false⟩
  | .maxTyped .. => ⟨true, true, true, false⟩
  | .negTyped .. => ⟨true, true, false, false⟩
  | .absTyped .. => ⟨true, true, false, false⟩
  | .mad .. => ⟨true, true, true, true⟩
  | .bfx .. => ⟨true, true, true, false⟩
  | .bfi .. => ⟨true, true, true, true⟩
  | .sel .. => ⟨true, true, true, true⟩
  | .addImm .. => ⟨true, true, false, false⟩
  | .subImm .. => ⟨true, true, false, false⟩
  | .mulImm .. => ⟨true, true, false, false⟩
  | .andImm .. => ⟨true, true, false, false⟩
  | .orImm .. => ⟨true, true, false, false⟩
  | .xorImm .. => ⟨true, true, false, false⟩
  | .andnImm .. => ⟨true, true, false, false⟩
  | .shlImm .. => ⟨true, true, false, false⟩
  | .shrImm .. => ⟨true, true, false, false⟩
  | .sarImm .. => ⟨true, true, false, false⟩
  | .rotImm .. => ⟨true, true, false, false⟩
  | .minImm .. => ⟨true, true, false, false⟩
  | .minImmU .. => ⟨true, true, false, false⟩
  | .maxImm .. => ⟨true, true, false, false⟩
  | .maxImmU .. => ⟨true, true, false, false⟩
  | .movi .. => ⟨true, false, false, false⟩
  | .moviLit .. => ⟨true, false, false, false⟩
  | .movhi .. => ⟨true, false, false, false⟩
  | .setp _ _ _ _ _ _ _ merge _ => ⟨true, true, true, merge⟩
  | .plog .. => ⟨true, true, true, true⟩
  | .pmovToReg .. => ⟨true, false, false, false⟩
  | .pmovToPred .. => ⟨false, true, false, false⟩
  | .fadd .. => ⟨true, true, true, false⟩
  | .fsub .. => ⟨true, true, true, false⟩
  | .fmul .. => ⟨true, true, true, false⟩
  | .fdiv .. => ⟨true, true, true, false⟩
  | .ffma .. => ⟨true, true, true, true⟩
  | .fmin .. => ⟨true, true, true, false⟩
  | .fmax .. => ⟨true, true, true, false⟩
  | .frcp .. => ⟨true, true, false, false⟩
  | .fsqrt .. => ⟨true, true, false, false⟩
  | .frsq .. => ⟨true, true, false, false⟩
  | .frnd .. => ⟨true, true, false, false⟩
  | .fclass .. => ⟨true, true, false, false⟩
  | .fcmp _ _ _ _ _ _ merge _ => ⟨true, true, true, merge⟩
  | .dcmp _ _ _ _ _ _ merge _ => ⟨true, true, true, merge⟩
  | .fex2 .. => ⟨true, true, false, false⟩
  | .flg2 .. => ⟨true, true, false, false⟩
  | .fsin .. => ⟨true, true, false, false⟩
  | .fcos .. => ⟨true, true, false, false⟩
  | .ftanh .. => ⟨true, true, false, false⟩
  | .dadd .. => ⟨true, true, true, false⟩
  | .dmul .. => ⟨true, true, true, false⟩
  | .dfma .. => ⟨true, true, true, true⟩
  | .hadd2 .. => ⟨true, true, true, false⟩
  | .hmul2 .. => ⟨true, true, true, false⟩
  | .hfma2 .. => ⟨true, true, true, true⟩
  | .cvt .. => ⟨true, true, false, false⟩
  | .qnt .. => ⟨true, true, false, true⟩
  | .dqnt .. => ⟨true, true, false, true⟩
  | .rand .. => ⟨true, false, false, false⟩
  | .shfl .. => ⟨true, true, true, true⟩
  | .vote _ _ _ _ _ mode => ⟨voteToReg mode || true, true, mode == .atleast, true⟩
  | .spred .. => ⟨true, true, false, true⟩
  | .qswap .. => ⟨true, true, false, false⟩
  | .qbc .. => ⟨true, true, false, false⟩
  | .ld .. => ⟨true, true, false, false⟩
  | .st .. => ⟨false, true, true, false⟩
  | .atom .. => ⟨true, true, true, false⟩
  | .red .. => ⟨false, true, true, false⟩
  | _ => ⟨false, false, false, false⟩
/-- A target's words at repeat j: the stepped fields raised. -/
def stepRaw (r : Raw) (s : Fields) (by_ : Nat) : Raw :=
  let up := fun (on : Bool) (w : Word) (lo : Nat) =>
    if on then
      let f := (bitsOf w.toNat (lo + 6) lo + by_) % 128
      (w &&& ~~~(w32 (0x7F <<< lo))) ||| w32 (f <<< lo)
    else w
  ⟨up s.b (up s.a (up s.d r.w0 14) 7) 0, up s.c r.w1 25, r.w2⟩
/-- Whether a stepped field passes 127 on its way. -/
def stepOver (r : Raw) (s : Fields) (by_ : Nat) : Bool :=
  (s.d && r.d.toNat + by_ > 127) || (s.a && r.a.toNat + by_ > 127) || (s.b && r.b.toNat + by_ > 127) ||
    (s.c && bitsOf r.w1.toNat 31 25 + by_ > 127)
/-- Whether a target's major may be repeated. -/
def repMajor (m : Nat) : Bool := m ≤ 0x1A || (0x20 ≤ m && m ≤ 0x36)
/-- The causes REP has from its target: its framing, the step mask, the target's own causes, and the range of its register,
pair and predicate fields at its repeats (R40, R49). R49 names the last repeat; DESIGN CHOICE: every repeat is checked, so that
an odd pair at a middle one is cause 0x06 at REP too (log 33). -/
def repCauses (cls idx count nregs ntiles : Nat) (pacer priv : Bool) (n : Nat) (s : Fields) (stride : Nat) (t : Raw) : List Nat :=
  if idx + 1 ≥ count then [5]
  else
    let d := decodeRaw t
    let u := match d.instr with | some i => stepFields i | none => ⟨true, true, true, true⟩
    causesOf [(!repMajor (t.w0.extractLsb 26 21).toNat, 7), (t.h.stop, 7),
      ((s.d && !u.d) || (s.a && !u.a) || (s.b && !u.b) || (s.c && !u.c), 7),
      (stepOver t s ((n - 1) * stride), 6)] ++
    wordCauses cls (idx + 1) count nregs ntiles pacer priv t ++
    (List.range n).flatMap fun j =>
      let d := decodeRaw (stepRaw t s (j * stride))
      d.causes.filter (· == 6) ++ match d.instr with
        | some i => causesOf [(runsBad nregs i.runs, 6)]
        | none => []

/-! ## INV (R52) -/

/-- Whether a routine may hold a word of a major (R52). -/
def invMajor (m : Nat) : Bool := m ≤ 0x1B || (0x20 ≤ m && m ≤ 0x2E)
/-- Whether a word names stochastic rounding: code 4 of rnd in an XW word whose row rounds. -/
def namesSr (i : Instr) (r : Raw) : Bool :=
  i.size > 1 && (let m := (r.w0.extractLsb 26 21).toNat; 0x20 ≤ m && m ≤ 0x2D) && bitsOf r.w1.toNat 15 13 == 4
/-- Causes of a routine's header (R52). -/
def routineHeaderCauses (w : Word) : List Nat :=
  headerCauses w ++ causesOf [(w.extractLsb 27 0 != 0 || (Header.ofWord w).count == 0, 7)]
/-- Causes of a routine's word beyond those it has anywhere. -/
def routineWordCauses (r : Raw) : List Nat :=
  causesOf [(!invMajor (r.w0.extractLsb 26 21).toNat, 7), (r.h.g, 7), (r.h.stop, 7),
    ((match (decodeRaw r).instr with
      | some (.movsw _ _ _) => true
      | some i => namesSr i r
      | none => false), 7)]
/-- The words of a clause from an index on, each with its causes, in address order: offset in words from the header, raw
words, causes. -/
def clauseCauses (cls count nregs ntiles : Nat) (pacer priv : Bool) : Nat → Nat → List Word → List (Nat × Raw × List Nat)
  | 0, _, _ => []
  | fuel + 1, idx, ws =>
    match ws with
    | [] => []
    | w :: rest =>
      let r : Raw := ⟨w, rest.getD 0 0, rest.getD 1 0⟩
      let n := max (wordCount r.w0 r.w1) 1
      (idx, r, wordCauses cls idx count nregs ntiles pacer priv r ++ routineWordCauses r) ::
        clauseCauses cls count nregs ntiles pacer priv fuel (idx + n) (ws.drop n)

/-! ## A Pacer context's own trap (R156) -/

/-- The queues a context uses, as a mask (R258). -/
def Group.queueMask (g : Group) : Nat := g.oqs.foldl (fun n q => n ||| 1 <<< q.1) 0
/-- KIND 0x0A: a translation fault of a Pacer access. The context waits for the handler. -/
def State.pacerTrap (s : State) (k : Nat) (f : Fibre) (at_ : RP) : State :=
  match s.group? f.grp with
  | none => s
  | some g =>
    let r := s.trapRecord f none 0x0A g.queueMask at_ 0 0
    let s := s.setFibre k { f with rp := at_, run := .stopped, holds := [.trap], stopClk := s.clk }
    let s := s.modGroup f.grp fun x => { x with slice := x.slice.map fun l => { l with state := .waitingTrap } }
    s.modCore g.coreIx (·.pushTrap r)

end Sys2Proof.Machine
end

