-- ==== Sys2Proof/Machine/IntOps.lean ====
section
/-! DEFINITION. Integer words (R93 to R101). -/

namespace Sys2Proof.Machine

/-! ## Shapes of words -/

/-- A word of fixed latency that writes a run of registers from d on and raises conditions. -/
def aluWord (i : Instr) (d : Nat) (s : State) (v : Nat → Fibre → List Word × Conds) : Host.Outcome State Fault Refusal :=
  issueWord i s fun k f => s.finish k i f ((f.setRun d (v k f).1).raise (v k f).2)
/-- The operation under which a result without a fixed latency comes (R92). -/
def resultOp (s : State) (id k : Nat) (f : Fibre) (rs : List (Nat × Word)) (ps : List (Nat × Bool)) : Op :=
  s.newOp k f id .none (.result rs ps 0) 0xFFFFFF
/-- Registers of a run with their values. -/
def runOf (d : Nat) (ws : List Word) : List (Nat × Word) := (ws.mapIdx fun j w => (d + j, w))
/-- A word whose result comes later: its conditions are raised at issue, its registers are written by
VARIABLE_LATENCY_COMPLETE. -/
def lateWord (i : Instr) (d : Nat) (s : State) (v : Nat → Fibre → List Word × Conds) : Host.Outcome State Fault Refusal :=
  issueWord i s fun k f =>
    let (id, s') := s.fresh
    (s'.addOp (resultOp s id k f (runOf d (v k f).1) [])).finish k i f (f.raise (v k f).2)
/-- A word on whole registers that raises nothing. -/
def plainWord (i : Instr) (d : Reg) (s : State) (v : Nat → Fibre → Word) : Host.Outcome State Fault Refusal :=
  aluWord i d.toNat s fun k f => ([v k f], Conds.none)

/-! ## 32-bit operations (R93, R94) -/

def shl32 (a b : Word) : Word := if b.toNat < 32 then a <<< b.toNat else 0
def shr32 (a b : Word) : Word := if b.toNat < 32 then a >>> b.toNat else 0
def sar32 (a b : Word) : Word := if b.toNat < 32 then a.sshiftRight b.toNat else if a.getLsbD 31 then 0xFFFFFFFF else 0
def rot32 (a b : Word) : Word := a.rotateLeft (b.toNat % 32)
/-- Leading zero bits of the n low bits of a number. -/
def leadingZeros (x : Nat) : Nat → Nat
  | 0 => 0
  | n + 1 => if x.testBit n then 0 else 1 + leadingZeros x n
/-- One bits among the n low bits. -/
def ones (x : Nat) : Nat → Nat
  | 0 => 0
  | n + 1 => bit (x.testBit n) + ones x n
def clz32 (a : Word) : Word := w32 (leadingZeros a.toNat 32)
def popc32 (a : Word) : Word := w32 (ones a.toNat 32)
def brev32 (a : Word) : Word := w32 (packBits ((List.range 32).map fun i => a.getLsbD (31 - i)))
def smin32 (a b : Word) : Word := if a.slt b then a else b
def smax32 (a b : Word) : Word := if a.slt b then b else a
def umin32 (a b : Word) : Word := if a.toNat < b.toNat then a else b
def umax32 (a b : Word) : Word := if a.toNat < b.toNat then b else a

/-- d = a op b. -/
def binWord (i : Instr) (d a b : Reg) (op : Word → Word → Word) (s : State) : Host.Outcome State Fault Refusal :=
  plainWord i d s fun k f => op (f.read k a.toNat) (f.read k b.toNat)
/-- d = op a. -/
def unWord (i : Instr) (d a : Reg) (op : Word → Word) (s : State) : Host.Outcome State Fault Refusal :=
  plainWord i d s fun k f => op (f.read k a.toNat)
/-- d = a op literal (R98). -/
def immWord (i : Instr) (d a : Reg) (lit : Word) (op : Word → Word → Word) (s : State) : Host.Outcome State Fault Refusal :=
  plainWord i d s fun k f => op (f.read k a.toNat) lit

def execAdd (h : Head) (d a b : Reg) (s : State) := binWord (.add h d a b) d a b (· + ·) s
def execSub (h : Head) (d a b : Reg) (s : State) := binWord (.sub h d a b) d a b (· - ·) s
def execMul (h : Head) (d a b : Reg) (s : State) := binWord (.mul h d a b) d a b (· * ·) s
def execAnd (h : Head) (d a b : Reg) (s : State) := binWord (.and h d a b) d a b (· &&& ·) s
def execOr (h : Head) (d a b : Reg) (s : State) := binWord (.or h d a b) d a b (· ||| ·) s
def execXor (h : Head) (d a b : Reg) (s : State) := binWord (.xor h d a b) d a b (· ^^^ ·) s
def execAndn (h : Head) (d a b : Reg) (s : State) := binWord (.andn h d a b) d a b (fun x y => x &&& ~~~y) s
def execShl (h : Head) (d a b : Reg) (s : State) := binWord (.shl h d a b) d a b shl32 s
def execShr (h : Head) (d a b : Reg) (s : State) := binWord (.shr h d a b) d a b shr32 s
def execSar (h : Head) (d a b : Reg) (s : State) := binWord (.sar h d a b) d a b sar32 s
def execRot (h : Head) (d a b : Reg) (s : State) := binWord (.rot h d a b) d a b rot32 s

/-- MOV copies a register with its pending handle (R170): both then name one operation. -/
def execMov (h : Head) (d a : Reg) (s : State) : Host.Outcome State Fault Refusal :=
  issueWord (.mov h d a) s fun k f =>
    let f1 := f.setReg d.toNat (f.read k a.toNat)
    let f1 := match f.handle? a.toNat with
      | some op => f1.setHandle d.toNat op
      | none => f1
    s.finish k (.mov h d a) f f1
def execNeg (h : Head) (d a : Reg) (s : State) := unWord (.neg h d a) d a (fun x => 0 - x) s
def execAbs (h : Head) (d a : Reg) (s : State) := unWord (.abs h d a) d a (fun x => if x.getLsbD 31 then 0 - x else x) s
def execNot (h : Head) (d a : Reg) (s : State) := unWord (.not h d a) d a (fun x => ~~~x) s
def execClz (h : Head) (d a : Reg) (s : State) := unWord (.clz h d a) d a clz32 s
def execPopc (h : Head) (d a : Reg) (s : State) := unWord (.popc h d a) d a popc32 s
def execBrev (h : Head) (d a : Reg) (s : State) := unWord (.brev h d a) d a brev32 s

/-! ## Typed operations (R91, R95 to R97) -/

/-- A typed binary operation on exact integers, clamped under .sat. -/
def typedWord (i : Instr) (d a b : Reg) (ty : Ty) (sat : Bool) (op : Int → Int → Int) (s : State) :
    Host.Outcome State Fault Refusal :=
  aluWord i d.toNat s fun k f =>
    let r := clampTo ty sat (op (f.intOperand k ty a) (f.intOperand k ty b))
    (intResult ty r.1, r.2)
/-- A typed unary operation. -/
def typedUnWord (i : Instr) (d a : Reg) (ty : Ty) (sat : Bool) (op : Int → Int) (s : State) : Host.Outcome State Fault Refusal :=
  aluWord i d.toNat s fun k f =>
    let r := clampTo ty sat (op (f.intOperand k ty a))
    (intResult ty r.1, r.2)
/-- DIV with its borderline values (R96). -/
def divInt (ty : Ty) (sat : Bool) (a b : Int) : Int × Conds :=
  if b = 0 then ((if ty.signed then (if 0 ≤ a then tyMax ty else tyMin ty) else tyMax ty), { dz := true })
  else clampTo ty sat (Int.tdiv a b)
/-- REM (R96). -/
def remInt (a b : Int) : Int × Conds :=
  if b = 0 then (a, { dz := true }) else (Int.tmod a b, Conds.none)

def execAddTyped (h : Head) (d a b : Reg) (ty : Ty) (sat : Bool) (s : State) :=
  typedWord (.addTyped h d a b ty sat) d a b ty sat (· + ·) s
def execSubTyped (h : Head) (d a b : Reg) (ty : Ty) (sat : Bool) (s : State) :=
  typedWord (.subTyped h d a b ty sat) d a b ty sat (· - ·) s
def execMulTyped (h : Head) (d a b : Reg) (ty : Ty) (sat : Bool) (s : State) :=
  typedWord (.mulTyped h d a b ty sat) d a b ty sat (· * ·) s
/-- MULHI: the exact product's high half, by floor division. -/
def execMulhi (h : Head) (d a b : Reg) (ty : Ty) (s : State) :=
  typedWord (.mulhi h d a b ty) d a b ty false (fun x y => (x * y).fdiv (2 ^ ty.width : Nat)) s
def execDiv (h : Head) (d a b : Reg) (ty : Ty) (sat : Bool) (s : State) :=
  lateWord (.div h d a b ty sat) d.toNat s fun k f =>
    let r := divInt ty sat (f.intOperand k ty a) (f.intOperand k ty b)
    (intResult ty r.1, r.2)
def execRem (h : Head) (d a b : Reg) (ty : Ty) (s : State) :=
  lateWord (.rem h d a b ty) d.toNat s fun k f =>
    let r := remInt (f.intOperand k ty a) (f.intOperand k ty b)
    (intResult ty r.1, r.2)
def execMinTyped (h : Head) (d a b : Reg) (ty : Ty) (s : State) := typedWord (.minTyped h d a b ty) d a b ty false min s
def execMaxTyped (h : Head) (d a b : Reg) (ty : Ty) (s : State) := typedWord (.maxTyped h d a b ty) d a b ty false max s
def execNegTyped (h : Head) (d a : Reg) (ty : Ty) (sat : Bool) (s : State) :=
  typedUnWord (.negTyped h d a ty sat) d a ty sat (fun x => 0 - x) s
def execAbsTyped (h : Head) (d a : Reg) (ty : Ty) (sat : Bool) (s : State) :=
  typedUnWord (.absTyped h d a ty sat) d a ty sat (fun x => if x < 0 then 0 - x else x) s
def execMad (h : Head) (d a b c : Reg) (ty : Ty) (sat : Bool) (s : State) : Host.Outcome State Fault Refusal :=
  aluWord (.mad h d a b c ty sat) d.toNat s fun k f =>
    let r := clampTo ty sat (f.intOperand k ty a * f.intOperand k ty b + f.intOperand k ty c)
    (intResult ty r.1, r.2)

/-! ## Bit fields and selection (R100, R101) -/

/-- pos and len of a field descriptor, len cut to the width. -/
def fieldPos (b : Word) : Nat := bitsOf b.toNat 7 0
def fieldLen (w : Nat) (b : Word) : Nat := min (bitsOf b.toNat 15 8) w
/-- BFX on W bits. -/
def bfxBits (w : Nat) (signed : Bool) (a : Nat) (b : Word) : Nat :=
  let pos := fieldPos b
  let len := fieldLen w b
  if len = 0 || pos ≥ w then 0
  else
    let v := (a >>> pos) % 2 ^ len
    if signed && v.testBit (len - 1) then v + (2 ^ w - 2 ^ len) else v
/-- BFI on W bits. -/
def bfiBits (w : Nat) (a : Nat) (b : Word) (c : Nat) : Nat :=
  let pos := fieldPos b
  let len := fieldLen w b
  if len = 0 || pos ≥ w then c
  else
    let m := ((2 ^ len - 1) <<< pos) % 2 ^ w
    ((a % 2 ^ len) <<< pos) % 2 ^ w ||| (c &&& (2 ^ w - 1 - m))
/-- The words of a value at a type's width. -/
def tyWords (ty : Ty) (v : Nat) : List Word := if ty.is64 then dwords (w64 v) else [w32 v]

def execBfx (h : Head) (d a b : Reg) (ty : Ty) (s : State) : Host.Outcome State Fault Refusal :=
  aluWord (.bfx h d a b ty) d.toNat s fun k f =>
    (tyWords ty (bfxBits ty.width ty.signed (f.operand k ty a) (f.read k b.toNat)), Conds.none)
def execBfi (h : Head) (d a b c : Reg) (ty : Ty) (s : State) : Host.Outcome State Fault Refusal :=
  aluWord (.bfi h d a b c ty) d.toNat s fun k f =>
    (tyWords ty (bfiBits ty.width (f.operand k ty a) (f.read k b.toNat) (f.operand k ty c)), Conds.none)
def execSel (h : Head) (d a b c : Reg) (ty : Ty) (s : State) : Host.Outcome State Fault Refusal :=
  aluWord (.sel h d a b c ty) d.toNat s fun k f =>
    (f.readRun k (if f.readPred k c.toNat then a.toNat else b.toNat) (if ty.is64 then 2 else 1), Conds.none)

/-! ## Immediate forms and literals (R98, R99) -/

def execAddImm (h : Head) (d a : Reg) (lit : Word) (s : State) := immWord (.addImm h d a lit) d a lit (· + ·) s
def execSubImm (h : Head) (d a : Reg) (lit : Word) (s : State) := immWord (.subImm h d a lit) d a lit (· - ·) s
def execMulImm (h : Head) (d a : Reg) (lit : Word) (s : State) := immWord (.mulImm h d a lit) d a lit (· * ·) s
def execAndImm (h : Head) (d a : Reg) (lit : Word) (s : State) := immWord (.andImm h d a lit) d a lit (· &&& ·) s
def execOrImm (h : Head) (d a : Reg) (lit : Word) (s : State) := immWord (.orImm h d a lit) d a lit (· ||| ·) s
def execXorImm (h : Head) (d a : Reg) (lit : Word) (s : State) := immWord (.xorImm h d a lit) d a lit (· ^^^ ·) s
def execAndnImm (h : Head) (d a : Reg) (lit : Word) (s : State) := immWord (.andnImm h d a lit) d a lit (fun x y => x &&& ~~~y) s
def execShlImm (h : Head) (d a : Reg) (lit : Word) (s : State) := immWord (.shlImm h d a lit) d a lit shl32 s
def execShrImm (h : Head) (d a : Reg) (lit : Word) (s : State) := immWord (.shrImm h d a lit) d a lit shr32 s
def execSarImm (h : Head) (d a : Reg) (lit : Word) (s : State) := immWord (.sarImm h d a lit) d a lit sar32 s
def execRotImm (h : Head) (d a : Reg) (lit : Word) (s : State) := immWord (.rotImm h d a lit) d a lit rot32 s
def execMinImm (h : Head) (d a : Reg) (lit : Word) (s : State) := immWord (.minImm h d a lit) d a lit smin32 s
def execMinImmU (h : Head) (d a : Reg) (lit : Word) (s : State) := immWord (.minImmU h d a lit) d a lit umin32 s
def execMaxImm (h : Head) (d a : Reg) (lit : Word) (s : State) := immWord (.maxImm h d a lit) d a lit smax32 s
def execMaxImmU (h : Head) (d a : Reg) (lit : Word) (s : State) := immWord (.maxImmU h d a lit) d a lit umax32 s
def execMovi (h : Head) (d : Reg) (imm : BitVec 14) (s : State) := plainWord (.movi h d imm) d s fun _ _ => imm.signExtend 32
def execMoviLit (h : Head) (d : Reg) (lit : Word) (s : State) := plainWord (.moviLit h d lit) d s fun _ _ => lit
/-- MOVHI writes the odd register of the pair; w(d) is not written. -/
def execMovhi (h : Head) (d : Reg) (lit : Word) (s : State) :=
  aluWord (.movhi h d lit) (d.toNat + 1) s fun _ _ => ([lit], Conds.none)

end Sys2Proof.Machine
end

