-- ==== Sys2Proof/Machine/Noise.lean ====
section
/-! DEFINITION. The core's noise source (R12, R127) and its log and replay modes (R368). -/

namespace Sys2Proof.Machine

/-- What asking the source for a word's bits gives: the deliveries, the first of them and a wait for the rest, or a replay stop with its
code. -/
inductive Draw where
  | got (vals : List Nat) (s : State)
  | wait (vals : List Nat) (s : State)
  | stop (code : Nat)

/-- The mode the source runs in: direct while the feature is closed (R356). -/
def State.noiseModeOf (s : State) (core : Nat) : Nat :=
  if s.feature 3 then bitsOf (s.core core).cnsc.toNat 31 30 else 0
/-- Entries of the noise log. -/
def Core.noiseSize (c : Core) : Nat := 2 ^ (bitsOf c.cnsc.toNat 4 0 + 4)
/-- Where log entry i lies. -/
def Core.noiseAt (c : Core) (i : Nat) : Nat := c.cnsb.toNat + 16 * (i % c.noiseSize)
/-- A log entry. -/
def noiseEntry (v seq gid fid : Nat) (wide : Bool) : List Byte :=
  leBytes 4 v ++ leBytes 4 seq ++ leBytes 4 gid ++ leBytes 2 fid ++ leBytes 1 (bit wide) ++ leBytes 1 0
/-- Fresh bits of a core from its j-th draw on (log 2). -/
def freshNoise (core draw : Nat) (wide : Bool) : Nat :=
  if wide then (Config.noise core draw).toNat + 65536 * (Config.noise core (draw + 1)).toNat else (Config.noise core draw).toNat

/-- At most n fresh deliveries, each logged where `log` is set; in log mode they stop where the log is full. -/
def State.drawFresh (s : State) (core gid fid seq : Nat) (wide log : Bool) : Nat → List Nat × State
  | 0 => ([], s)
  | n + 1 =>
    let c := s.core core
    if log && (c.cnsNext - c.cnsEnd).toNat == c.noiseSize then ([], s)
    else
    let v := freshNoise core c.draws wide
    let s := if log then s.store (c.noiseAt c.cnsNext.toNat) (noiseEntry v seq gid fid wide) else s
    let s := s.modCore core fun c => { c with draws := c.draws + (if wide then 2 else 1), cnsNext := if log then c.cnsNext + 1 else c.cnsNext }
    let r := State.drawFresh s core gid fid (seq + 1) wide log n
    (v :: r.1, r.2)

/-- The place of a fibre's own entry with a sequence number among the entries still to be delivered. -/
def State.findEntry (s : State) (core gid fid seq : Nat) : Nat → Nat → Option Nat
  | 0, _ => none
  | n + 1, i =>
    let c := s.core core
    let e := s.getBytes (c.noiseAt i) 16
    if !c.taken.contains i && leNat ((e.drop 4).take 4) == seq % 2 ^ 32 && leNat ((e.drop 8).take 4) == gid && leNat ((e.drop 12).take 2) == fid
    then some i else State.findEntry s core gid fid seq n (i + 1)
/-- NEXT passes every entry that has been delivered. -/
def Core.advance (c : Core) : Nat → Core
  | 0 => c
  | n + 1 =>
    if c.taken.contains c.cnsNext.toNat then
      Core.advance { c with taken := c.taken.filter (· != c.cnsNext.toNat), cnsNext := c.cnsNext + 1 } n
    else c
/-- n replayed deliveries. DESIGN CHOICE: the bits of an entry that the log format gives as 0 (byte [15], [7:1] of [14]) are not looked at,
as no status exists that could report them (R6, log 33). -/
def State.drawReplay (s : State) (core gid fid seq : Nat) (wide : Bool) : Nat → Draw
  | 0 => .got [] s
  | n + 1 =>
    let c := s.core core
    let left := (c.cnsEnd - c.cnsNext).toNat
    match s.findEntry core gid fid seq (min left c.noiseSize) c.cnsNext.toNat with
    | none => if left = 0 then .stop 0 else .wait [] s
    | some i =>
      let e := s.getBytes (c.noiseAt i) 16
      if (e.getD 14 0).getLsbD 0 != wide then .stop 1
      else
        let v := leNat (e.take (if wide then 4 else 2))
        let s := s.modCore core fun c => Core.advance { c with taken := c.taken ++ [i] } (c.taken.length + 1)
        match State.drawReplay s core gid fid (seq + 1) wide n with
        | .got vs s => .got (v :: vs) s
        | .wait vs s => .wait (v :: vs) s
        | d => d
/-- Up to n deliveries of one word: where the log is full, or an entry is missing from it, the rest come later. -/
def State.draw (s : State) (f : Fibre) (n : Nat) (wide : Bool) : Draw :=
  let core := (s.site f).coreIx
  let gid := ((s.group? f.grp).map (·.gid)).getD 0
  match s.noiseModeOf core with
  | 2 => s.drawReplay core gid f.fid f.seq wide n
  | 1 =>
    let r := s.drawFresh core gid f.fid f.seq wide true n
    if r.1.length = n then .got r.1 r.2 else .wait r.1 r.2
  | _ => let r := s.drawFresh core gid f.fid f.seq wide false n; .got r.1 r.2

/-- A word's body with its noise; without noise to draw nothing happens to the source. A log without room is a memory wait; a
replay stop is a debug stop before the word with KIND 0x0A (R368). -/
def State.withNoise (s : State) (k : Nat) (f : Fibre) (n : Nat) (wide : Bool) (body : List Nat → State → Fibre → State) : State :=
  if n = 0 then body [] s f
  else match s.draw f (n - f.drawn.length) wide with
    | .got vs s => body (f.drawn ++ vs) s { f with seq := f.seq + vs.length, drawn := [] }
    | .wait vs s => s.waitFor k { f with seq := f.seq + vs.length, drawn := f.drawn ++ vs } .memory
    | .stop code =>
      let core := (s.site f).coreIx
      let s := s.modCore core fun c => { c with cnsc := c.cnsc ||| 0x20000000 }
      (s.setFibre k (f.hold s.clk .debug)).debugRecord core 0xA 0 (s.ordAt f f.here).toNat code f 0 0 0
/-- How many deliveries a rounding of n elements takes. -/
def srDraws (r : Rnd) (n : Nat) : Nat := if r = .sr then n else 0

/-- A word of fixed latency that may round n elements stochastically. -/
def roundWord (i : Instr) (d : Nat) (r : Rnd) (n : Nat) (s : State) (v : Nat → Fibre → List Nat → List Word × Conds) :
    Host.Outcome State Fault Refusal :=
  issueWord i s fun k f => s.withNoise k f (srDraws r n) false fun ns s f' =>
    s.finish k i f ((f'.setRun d (v k f ns).1).raise (v k f ns).2)
/-- The same for a word whose result comes later. -/
def lateRoundWord (i : Instr) (d : Nat) (r : Rnd) (n : Nat) (s : State) (v : Nat → Fibre → List Nat → List Word × Conds) :
    Host.Outcome State Fault Refusal :=
  issueWord i s fun k f => s.withNoise k f (srDraws r n) false fun ns s f' =>
    let (id, s') := s.fresh
    (s'.addOp (resultOp s id k f (runOf d (v k f ns).1) [])).finish k i f (f'.raise (v k f ns).2)

/-- RAND (R127): 32 bits, drawn once by every executing fibre, helpers too. -/
def execRand (h : Head) (d : Reg) (ty : Ty) (s : State) : Host.Outcome State Fault Refusal :=
  issueWord (.rand h d ty) s fun k f => s.withNoise k f 1 true fun ns s f' =>
    let n := ns.getD 0 0
    -- (n >> 8) × 2^−24 is exact
    let w := if ty = .f32 then w32 (FF.f32.round .rn false (n / 256) (-24) 0).1 else w32 n
    let (id, s') := s.fresh
    (s'.addOp (resultOp s id k f [(d.toNat, w)] [])).finish k (.rand h d ty) f f'

end Sys2Proof.Machine
end

