-- ==== Sys2Proof/Machine/Pred.lean ====
section
/-! DEFINITION. Predicate words (R102 to R104). -/

namespace Sys2Proof.Machine

/-- A word that writes predicates and raises conditions. -/
def predWord (i : Instr) (s : State) (v : Nat → Fibre → List (Nat × Bool) × Conds) : Host.Outcome State Fault Refusal :=
  issueWord i s fun k f => s.finish k i f ((f.setPreds (v k f).1).raise (v k f).2)
/-- A compare's result merged with a predicate (R102). -/
def merged (merge : Bool) (tbl : BitVec 4) (r p : Bool) : Bool := if merge then tbl.getLsbD (2 * bit r + bit p) else r
/-- The outcome of a comparison: 0 below, 1 equal, 2 above. -/
def outcome (a b : Int) : Nat := if a < b then 0 else if a = b then 1 else 2

def execSetp (h : Head) (d a b c : Reg) (cond : BitVec 3) (ty : Ty) (merge : Bool) (tbl : BitVec 4) (s : State) :=
  predWord (.setp h d a b c cond ty merge tbl) s fun k f =>
    ([(d.toNat, merged merge tbl (cond.getLsbD (outcome (f.intOperand k ty a) (f.intOperand k ty b))) (f.readPred k c.toNat))],
     Conds.none)
def execPlog (h : Head) (d a b c : Reg) (tbl : BitVec 8) (s : State) :=
  predWord (.plog h d a b c tbl) s fun k f =>
    ([(d.toNat, tbl.getLsbD (4 * bit (f.readPred k a.toNat) + 2 * bit (f.readPred k b.toNat) + bit (f.readPred k c.toNat)))],
     Conds.none)
/-- A block of 32 predicates as a word. -/
def Fibre.predBlock (f : Fibre) (k blk : Nat) : Word := w32 (packBits ((blockPreds blk).map fun p => f.readPred k p))
def execPmovToReg (h : Head) (d a : Reg) (s : State) := plainWord (.pmovToReg h d a) d s fun k f => f.predBlock k a.toNat
def execPmovToPred (h : Head) (d a : Reg) (s : State) :=
  predWord (.pmovToPred h d a) s fun k f =>
    ((List.range 32).map fun j => (32 * d.toNat + j, (f.read k a.toNat).getLsbD j), Conds.none)

end Sys2Proof.Machine
end

