-- ==== Sys2Proof/Machine/Control.lean ====
section
/-! DEFINITION. Special registers (R48, R105, R244), branches, calls and simple control (R106 to R108), loops (R109 to
R112), FORK (R79, R113), PADW and JMPT (R53). -/

namespace Sys2Proof.Machine

/-! ## Special registers -/

/-- %wscal of a cluster at a clk (R243, R244). -/
def wscal (clu clk : Nat) : Word :=
  let ph := refreshPhase clu clk
  if ph < 3000 then w32 (1 <<< 31 ||| clu <<< 25 ||| (3000 - ph)) else w32 (clu <<< 25 ||| (96000 - ph))
/-- The register words of a special register. -/
def State.readSpecial (s : State) (f : Fibre) (n : Nat) : List Word :=
  let p := s.site f
  let g := s.group? f.grp
  match n with
  | 0x00 => [w32 f.fid]
  | 0x01 => [w32 ((g.map (·.gid)).getD 0)]
  | 0x02 => [w32 Config.pkgNumber]
  | 0x03 => [w32 p.die]
  | 0x04 => [w32 p.clu]
  | 0x05 => [w32 p.core]
  | 0x06 => [w32 (s.jobOf f)]
  | 0x07 => dwords (w64 s.clk)
  | 0x08 => dwords f.lr
  | 0x09 => [f.lc]
  | 0x0A => [f.rc]
  | 0x0B => [f.occp.setWidth 32]
  | 0x0C => [f.ocmx.setWidth 32]
  | 0x0D => [f.ocga.setWidth 32]
  | 0x0E => [f.ocfx.setWidth 32]
  | 0x0F => [f.astat]
  | 0x10 => [f.atrap]
  | 0x11 => [f.mxerr]
  | 0x12 => [f.taintWord]
  | 0x13 => [(g.map (·.spec)).getD 0]
  | 0x14 => dwords ((g.map (·.uhandler)).getD 0)
  | 0x15 => [f.xr.opc]
  | 0x16 => [f.xr.opd]
  | 0x17 => [f.xr.opa]
  | 0x18 => [f.xr.opb]
  | 0x19 => [f.xr.opi]
  | 0x1A => [f.xr.cls]
  | 0x1B => [wscal p.clu s.clk]
  | 0x1C => [f.xr.spo]
  | _ => [f.ks.getD (n - 0x20) 0]
/-- Whether a REP is in progress, at the word or suspended by a trap (R50). -/
def Fibre.repHeld (f : Fibre) : Bool := f.rep.isSome || (f.inH && (f.ret.map (·.rep)).getD false)
/-- A special register of the fibre written (R105); reserved bits stay 0 (R7). DESIGN CHOICE: MOVS %lc after MOVSW to %lc reads the
new count at once, before the loop's next back-edge test takes it up (log 33). -/
def Fibre.writeSpecial (f : Fibre) (n : Nat) (v v2 : Word) : Fibre :=
  match n with
  | 0x08 => { f with lr := joinPair v v2 }
  | 0x09 => if f.loops.isEmpty then f else { f with lc := v }
  | 0x0A => if f.repHeld then { f with rc := v } else f
  | 0x0F => { f with astat := v &&& 0x3F3F }
  | 0x10 => { f with atrap := v &&& 0x3F }
  | 0x11 => { f with mxerr := v &&& 0xFFFF000D }
  | 0x15 => { f with xr := { f.xr with opc := v } }
  | 0x16 => { f with xr := { f.xr with opd := v } }
  | 0x17 => { f with xr := { f.xr with opa := v } }
  | 0x18 => { f with xr := { f.xr with opb := v } }
  | 0x19 => { f with xr := { f.xr with opi := v } }
  | 0x1A => { f with xr := { f.xr with cls := v } }
  | _ => if n ≥ 0x20 then { f with ks := f.ks.set (n - 0x20) v } else f
/-- The group-shared registers written (R75). -/
def Group.writeSpecial (g : Group) (n : Nat) (v v2 : Word) : Group :=
  match n with
  | 0x13 => { g with spec := v &&& 1 }
  | 0x14 => { g with uhandler := joinPair v v2 }
  | _ => g
def groupSpecial (n : Nat) : Bool := n == 0x13 || n == 0x14

def execMovs (h : Head) (d a : Reg) (s : State) : Host.Outcome State Fault Refusal :=
  aluWord (.movs h d a) d.toNat s fun _ f => (s.readSpecial f a.toNat, Conds.none)
def execMovsw (h : Head) (d a : Reg) (s : State) : Host.Outcome State Fault Refusal :=
  issueWord (.movsw h d a) s fun k f =>
    let v := f.read k d.toNat
    let v2 := if srWide a.toNat then f.read k (d.toNat + 1) else 0
    if groupSpecial a.toNat then
      (if f.isHelper then s else s.modGroup f.grp fun g => g.writeSpecial a.toNat v v2).finish k (.movsw h d a) f f
    else s.finish k (.movsw h d a) f (f.writeSpecial a.toNat v v2)

/-! ## Branches and calls -/

/-- A word that goes to a clause header. -/
def jumpWord (i : Instr) (s : State) (target : Nat → Fibre → DWord) (link : Bool) : Host.Outcome State Fault Refusal :=
  issueWord i s fun k f => s.finishTo k i f (if link then { f with lr := f.nextClause } else f) (target k f)
/-- The target of BRA and CALL (R44). -/
def Fibre.near (f : Fibre) (off : BitVec 21) : DWord := f.pc + (off.signExtend 64 <<< 2)

def execBra (h : Head) (off : BitVec 21) (s : State) := jumpWord (.bra h off) s (fun _ f => f.near off) false
def execCall (h : Head) (off : BitVec 21) (s : State) := jumpWord (.call h off) s (fun _ f => f.near off) true
def execBrx (h : Head) (a : Reg) (s : State) := jumpWord (.brx h a) s (fun k f => f.readPair k a.toNat) false
def execCallx (h : Head) (a : Reg) (s : State) := jumpWord (.callx h a) s (fun k f => f.readPair k a.toNat) true
def execRet (h : Head) (s : State) := jumpWord (.ret h) s (fun _ f => f.lr) false

/-! ## Simple control -/

/-- A fibre whose word must wait for an empty taint (R287). -/
def State.stallTag (s : State) (k : Nat) (f : Fibre) : State := s.waitFor k f .tag
/-- A fibre begins a wait at its word, which counts as issued. -/
def State.beginWait (s : State) (k : Nat) (i : Instr) (f0 f1 : Fibre) (w : Wait) : State :=
  (s.setFibre k { (f1.counted f0 i true s.clk) with wait := some w, run := .waiting w.why }).noteIssue k f0 i true

/-- END (R80): once the taint is empty the waits begin. -/
def execEndFibre (h : Head) (s : State) : Host.Outcome State Fault Refusal :=
  issueWord (.endFibre h) s fun k f =>
    if f.tainted then s.stallTag k f
    else s.beginWait k (.endFibre h) f f (.ending false)
def execYield (h : Head) (s : State) := issueWord (.yield h) s fun k f => s.finish k (.yield h) f f
def execNap (h : Head) (a : Reg) (s : State) : Host.Outcome State Fault Refusal :=
  issueWord (.nap h a) s fun k f =>
    let n := (f.read k a.toNat).toNat
    if n = 0 then s.finish k (.nap h a) f f else s.beginWait k (.nap h a) f f (.nap (s.clk + n))
def execNop (h : Head) (s : State) := issueWord (.nop h) s fun k f => s.finish k (.nop h) f f
def execPadw (h : Head) (s : State) := issueWord (.padw h) s fun k f => s.finish k (.padw h) f f
/-- TRAP (R108), a word like others for the issue gap (R41). -/
def execTrap (h : Head) (d : Reg) (s : State) : Host.Outcome State Fault Refusal :=
  let i := Instr.trap h d
  issueWord i s fun k f =>
    match s.barTrap k f with
    | some s => s
    | none =>
      let x := { f.xr with opc := (s.issuedWords f i).1, opd := d.setWidth 32, opa := 0, opb := 0, opi := 0, cls := 0x14 }
      ((s.setFibre k (f.counted f i true s.clk)).noteIssue k f i true).userTrap k x f.rp true

/-! ## Loops -/

/-- What the header walk of LOOP ends in. -/
inductive LoopWalk where
  | found (endH exit : DWord)
  | bad
  | stop (r : Fetched) (a : DWord)
  deriving DecidableEq, Repr
/-- Whether word n of a clause body is an instruction's first word. -/
def isFirstWord : Nat → Nat → List Word → Bool
  | 0, _, _ => false
  | fuel + 1, n, ws =>
    match ws with
    | [] => false
    | w :: rest =>
      if n = 0 then true
      else
        let m := max (wordCount w (rest.getD 0 0)) 1
        if n < m then false else isFirstWord fuel (n - m) (ws.drop m)
/-- WALK (R110): headers from `hdr` until the clause that holds the word at `endw`. -/
def State.walkLoop (s : State) (f : Fibre) (endw : DWord) : Nat → DWord → LoopWalk × State
  | 0, _ => (.bad, s)
  | fuel + 1, hdr =>
    match s.fetchWord f hdr with
    | (.ok w, s) =>
      let n := (Header.ofWord w).count
      let next := hdr + BitVec.ofNat 64 (4 * (n + 1))
      if endw.toNat ≤ hdr.toNat then (.bad, s)
      else if next.toNat ≤ endw.toNat then State.walkLoop s f endw fuel next
      else match s.fetchWords f (hdr + 4) n with
        | (.ok ws, s) => (if isFirstWord 16 ((endw.toNat - hdr.toNat) / 4 - 1) ws then .found hdr next else .bad, s)
        | (.error (r, a), s) => (.stop r a, s)
    | (r, s) => (.stop r hdr, s)
/-- LOOP's effect (R110). DEDUCED: the header walk and its 0x05 traps are LOOP's own, taken only where LOOP executes; R57's causes of a
guarded-off LOOP are those its words carry (log 33). -/
def State.startLoop (s : State) (k : Nat) (i : Instr) (f : Fibre) (cnt : Word) (last : BitVec 16) : State :=
  let (w0, w1) := s.issuedWords f i
  if f.loops.length ≥ 4 then s.userTrap k { f.xr with cls := 0x15 } f.rp false
  else
    let body := f.nextClause
    match s.walkLoop f (f.pc + BitVec.ofNat 64 (4 * last.toNat)) (last.toNat + 2) body with
    | (.stop r a, s) => s.fetchStop k f r a f.rp w0 w1
    | (.bad, s) => s.userTrap k (wordTrap f w0 w1 5) f.rp false
    | (.found e exit, s) =>
      if (f.loops.head?.map fun l => decide (exit.toNat > l.exit.toNat)).getD false then s.userTrap k (wordTrap f w0 w1 5) f.rp false
      else if cnt = 0 then s.finishTo k i f f exit
      else s.finishTo k i f { f with loops := ⟨body, e, exit, f.lc⟩ :: f.loops, lc := cnt } body

def execLoopReg (h : Head) (a : Reg) (last : BitVec 16) (s : State) : Host.Outcome State Fault Refusal :=
  issueWord (.loopReg h a last) s fun k f => s.startLoop k (.loopReg h a last) f (f.read k a.toNat) last
def execLoopImm (h : Head) (cnt last : BitVec 16) (s : State) : Host.Outcome State Fault Refusal :=
  issueWord (.loopImm h cnt last) s fun k f => s.startLoop k (.loopImm h cnt last) f (cnt.setWidth 32) last
def execLbrk (h : Head) (n : BitVec 32) (s : State) : Host.Outcome State Fault Refusal :=
  issueWord (.lbrk h n) s fun k f =>
    match f.loops[n.toNat - 1]? with
    | none => s.userTrap k { f.xr with cls := 0x15 } f.rp false
    | some e => s.finishTo k (.lbrk h n) f { f with loops := f.loops.drop n.toNat, lc := e.outer } e.exit

/-! ## FORK -/

/-- The stack pointer and frame word of a fibre slot (R70, R305), for an allocation of n registers. -/
def Job.stackOf (j : Job) (gid slots fid : Nat) : Word × Word :=
  let size := 2 ^ j.spillLog
  let a := j.spill.toNat + (gid * slots + fid) * size
  (w32 (a + size), w32 (a / 2 ^ 32))
/-- The initial registers of a fibre (R74). -/
def initRegs (j : Job) (gid slots fid nregs : Nat) (args : List Word) : List Word :=
  let base := (List.range nregs).map fun r => if r < 8 then args.getD r 0 else 0
  if nregs < 16 then base
  else (base.set (nregs - 2) (j.stackOf gid slots fid).1).set (nregs - 1) (j.stackOf gid slots fid).2
/-- The lowest real slot whose fibre has ended (R79); one that ends in this clk is not free yet (R113). -/
def State.freeSlot (s : State) (g : Nat) : Option (Nat × Fibre) :=
  (sortBy (fun p => p.2.fid) (s.members g)).find? fun p => p.2.kind == .real && p.2.run == .ended && p.2.stopClk < s.clk
/-- The child that FORK creates in a slot, with the parent's w0 to w7 as FORK reads them: the numbers that order its writes and
count its words run on from the slot's last fibre. In a span whose span-stop is set it stops at its first stop site (R90), and so it does
for an eviction, a job fault or an HSTOP that its parent is still on the way to stop for (R273, R275, R279). DESIGN CHOICE: w0 to w7 are
no source registers of FORK for the issue gap (R41, R42): a value still inside its latency reaches the child old or new, and a .check
job takes no 0x0A for it (log 33). -/
def State.forkChild (s : State) (k : Nat) (f : Fibre) (old : Fibre) (g : Group) (target : DWord) : Fibre :=
  let j := (s.job? g.job).getD default
  let asked := f.stopReq.filter (· != .debug)
  { Fibre.fresh .real f.grp old.fid f.regs.length target f.atrap s.clk with
    regs := initRegs j g.gid g.slots old.fid f.regs.length (f.readRun k 0 8), issued := old.issued, wseq := old.wseq, seen := f.seen,
    stopReq := if (s.core g.coreIx).spanSet.contains (f.grp, old.fid / 32) then asked ++ [.debug] else asked }
/-- FORK (R113): a tainted parent stalls. The parent's accesses, and what is still to be written to its w0 to w7, come first (R74). Where a
child is created, the parent has fenced at group scope and the child has acquired what that released (R79). -/
def execFork (h : Head) (d : Reg) (off : BitVec 32) (s : State) : Host.Outcome State Fault Refusal :=
  issueWord (.fork h d off) s fun k f =>
    let i := Instr.fork h d off
    let target := f.pc + (off.signExtend 64 <<< 2)
    let give := fun (s : State) (f1 : Fibre) (v : Word) =>
      let (id, s') := s.fresh
      (s'.addOp (resultOp s id k f [(d.toNat, v)] [])).finish k i f f1
    if f.isHelper then give s f 0xFFFFFFFF
    else if f.tainted then s.stallTag k f
    else if !s.accessesDone k f || (s.pendingSlots k).any (· < 8) then s.waitFor k f .memory
    else if f.handles.any (·.1 < 8) then s.waitFor k f .future
    else match s.group? f.grp, s.freeSlot f.grp with
      | some g, some (c, old) =>
        (match s.meetsPoison k f i (f.poison.filter (·.1 < 8)) with
         | some s => s
         | none =>
           let s := s.fenceAt k f .grp false
           let f1 := (s.fibre? k).getD f
           give (s.setFibre c (s.forkChild k f1 old g target)) f1 (w32 old.fid))
      | _, _ => give s f 0xFFFFFFFF

/-! ## JMPT (R53) -/

/-- The code of a JMPT load failure (R258). -/
def jmptCode : MemKind → Nat
  | .translation => 1 | .protection => 2 | .accessTable => 3 | _ => 6
def execJmpt (h : Head) (idx : BitVec 20) (s : State) : Host.Outcome State Fault Refusal :=
  issueWord (.jmpt h idx) s fun k f =>
    let i := Instr.jmpt h idx
    let (w0, w1) := s.issuedWords f i
    let j := (s.job? (s.jobOf f)).getD default
    let ea := j.tramp + BitVec.ofNat 64 (8 * idx.toNat)
    let fail := fun (s : State) (c : Nat) => s.systemTrap k 0x0B c f.rp (loWord ea) (hiWord ea)
    if idx.toNat ≥ j.trampN then s.userTrap k (wordTrap f w0 w1 0x0B) f.rp false
    else if s.walkBlocked f .g ea.toNat 8 .read then s.waitFor k f .memory
    else match s.findNow f .g ea.toNat 8 .read with
      | (.at_ loc, s) =>
        if s.poisonedAt loc 8 then fail s 6
        else
          let e := w64 (leNat (s.getBytes loc 8))
          if e = 0 || badHeader e then s.userTrap k (wordTrap f w0 w1 0x0B) f.rp false
          else s.finishTo k i f f e
      | (.bad kind, s) => fail s (jmptCode kind)
      | (_, s) => fail s 1

end Sys2Proof.Machine
end

