-- ==== Sys2Proof/Machine/Mem.lean ====
section
/-! DEFINITION. Loads, stores, atomics and fences (R164 to R169). -/

namespace Sys2Proof.Machine

/-- The word is done; what its effect did to the fibre stands in the state already. -/
def State.finishNow (s : State) (k : Nat) (i : Instr) (f0 : Fibre) : State := s.finish k i f0 ((s.fibre? k).getD f0)
/-- An access as its word gives it. -/
def Fibre.access (f : Fibre) (k : Nat) (kind : AccKind) (sp : Space) (a : Reg) (off : BitVec 16) (size : Nat) (ord : Order) (sc : Scope)
    (aop : AtomOp) (dst ndst : Nat) (data : List Word) : Access :=
  { (default : Access) with
    kind := kind, space := sp, addr := w64 (addrOf sp (f.base k sp a) off), size := size, order := ord, scope := sc, aop := aop,
    dst := dst, ndst := ndst, data := data }
/-- A Pacer context's load: on a translation fault the context waits at its word (R156); any other failure stops it. -/
def State.pacerLoad (s : State) (k : Nat) (f : Fibre) (i : Instr) (a : Access) : State :=
  if a.addr.toNat % a.size != 0 then s.sliceFault f.grp
  else match s.find f a.space a.addr.toNat a.size .read with
    | (.at_ loc, s) =>
      if s.poisonedAt loc a.size then s.sliceFault f.grp
      else
        let (id, s) := s.fresh
        (s.addOp (s.newOp k f id .none (.mem a (.at_ loc)) 0xFFFFFF)).finish k i f f
    | (.walk va, s) => if f.walked == some (va / 65536) then s.sliceFault f.grp else (s.startWalk ⟨transDie (s.site f) a.addr, (s.site f).clu, (s.site f).core⟩ (s.jobOf f) va).waitFor k f .memory
    | (.bad .translation, s) => s.pacerTrap k f f.rp
    | (.bad _, s) => s.sliceFault f.grp
    | (.remote _ _ _, s) =>
      let (here, s) := s.atHand (wordKey k) f .g a.addr.toNat a.size none
      let r := s.answerOf a.addr.toNat a.size false
      if !here then s.waitFor k f .memory
      else
        let s := s.dropCarried (wordKey k)
        match r with
        | some (.ok, _, bs) => s.finish k i f (f.setRun a.dst (loadWords ((bs ++ List.replicate a.size 0).take a.size)))
        | some (_, some .translation, _) => s.pacerTrap k f f.rp
        | _ => s.sliceFault f.grp

/-- Whether a held effect is a store to .sys, which a later .sys load does not pass (R208). -/
def HeldEff.inSys : HeldEff → Bool
  | .mem a => a.space == .sys
  | _ => false
/-- LD (R164, R165). -/
def execLd (h : Head) (d a : Reg) (spc : Space) (sz : Size) (ord : Order) (sc : Scope) (off : BitVec 16) (s : State) :
    Host.Outcome State Fault Refusal :=
  let i := Instr.ld h d a spc sz ord sc off
  issueWord i s fun k f =>
    let x := f.access k .ld spc a off sz.bytes ord sc .add d.toNat (sz.run d).len []
    if f.isPacer then s.pacerLoad k f i x
    else if spc == .sys && f.held.any (fun h => h.eff.inSys) then s.stallTag k f
    else if !s.accessRoom k f then s.waitFor k f .memory
    else (s.issueAccess k x f.wseq (s.ordAt f f.rp)).finishNow k i f
/-- A write (ST, or RED): suppressed in a helper, held in a tainted fibre unless it goes to its group's own .sp (R78, R169,
R288). -/
def State.issueWrite (s : State) (k : Nat) (f : Fibre) (i : Instr) (x : Access) : State :=
  if f.isHelper then s.finish k i f f
  else if f.tainted && x.space != .sp then
    match s.hold f (.mem x) (s.ordAt f f.rp) with
    | some f1 => s.finish k i f f1
    | none => s.stallTag k f
  else
    let undo := match s.find f .sp x.addr.toNat x.size .write with
      | (.at_ loc, _) => if f.tainted then 16 * s.newUndo k loc x.size else 0
      | _ => 0
    if undo > 0 && s.proofingUsed (s.site f).coreIx + undo > 65536 then s.stallTag k f
    else if !s.accessRoom k f then s.waitFor k f .memory
    else ((s.modFibre k fun f => { f with wseq := f.wseq + 1 }).issueAccess k x (f.wseq + 1) (s.ordAt f f.rp)).finishNow k i f
/-- ST (R164, R165). -/
def execSt (h : Head) (a b : Reg) (spc : Space) (sz : Size) (ord : Order) (sc : Scope) (off : BitVec 16) (s : State) :
    Host.Outcome State Fault Refusal :=
  let i := Instr.st h a b spc sz ord sc off
  issueWord i s fun k f =>
    s.issueWrite k f i (f.access k .st spc a off sz.bytes ord sc .add 0 0 (f.readRun k b.toNat (sz.run b).len))
/-- The data registers of an atomic: b, and for .cas the value that follows it (R167). -/
def atomData (f : Fibre) (k : Nat) (b : Reg) (sz : Size) (aop : AtomOp) : List Word :=
  f.readRun k b.toNat ((sz.run b).len * (if aop = .cas then 2 else 1))
/-- ATOM (R167): a tainted fibre stalls; a helper's destination takes 0. -/
def execAtom (h : Head) (d a b : Reg) (spc : Space) (sz : Size) (ord : Order) (sc : Scope) (aop : AtomOp) (off : BitVec 16) (s : State) :
    Host.Outcome State Fault Refusal :=
  let i := Instr.atom h d a b spc sz ord sc aop off
  issueWord i s fun k f =>
    let n := (sz.run d).len
    let x := f.access k .atom spc a off sz.bytes ord sc aop d.toNat n (atomData f k b sz aop)
    if f.isHelper then s.finish k i f (f.setRun d.toNat (List.replicate n 0))
    else if f.tainted then s.stallTag k f
    else if !s.accessRoom k f then s.waitFor k f .memory
    else ((s.modFibre k fun f => { f with wseq := f.wseq + 1 }).issueAccess k x (f.wseq + 1) (s.ordAt f f.rp)).finishNow k i f
/-- RED (R167). -/
def execRed (h : Head) (a b : Reg) (spc : Space) (sz : Size) (ord : Order) (sc : Scope) (aop : AtomOp) (off : BitVec 16) (s : State) :
    Host.Outcome State Fault Refusal :=
  let i := Instr.red h a b spc sz ord sc aop off
  issueWord i s fun k f => s.issueWrite k f i (f.access k .red spc a off sz.bytes ord sc aop 0 0 (atomData f k b sz aop))
/-- FENCE (R168, R198, R199): the fibre's earlier accesses are performed before any later one. A tainted fibre stalls at .sc; a
FENCE.ar stands between its held effects, and orders them at their release (R169, R207). -/
def execFence (h : Head) (d a : Reg) (s : State) : Host.Outcome State Fault Refusal :=
  let i := Instr.fence h d a
  issueWord i s fun k f =>
    if f.tainted && a == 1 then s.stallTag k f
    else if !s.accessesDone k f then s.waitFor k f .memory
    else
      let f1 := if f.held.isEmpty then f else { f with wseq := f.wseq + 1, held := f.held ++ [⟨f.wseq + 1, .fence (scopeOf d.toNat), s.ordAt f f.rp, false⟩] }
      ((s.setFibre k f1).fenceAt k f1 (scopeOf d.toNat) (a == 1)).finishNow k i f
/-- Whether an effect a tainted fibre holds is one of its stores or RED (R169). -/
def HeldEff.isAccess : HeldEff → Bool
  | .mem _ => true
  | _ => false
/-- Whether a fibre's effects wait to be released behind a full replay list, which only a delivery can empty (R165, R261). -/
def State.releaseStuck (s : State) (k : Nat) (f : Fibre) : Bool := (s.accesses k).isEmpty && 8 ≤ f.replay.length && !f.releasing.isEmpty
/-- EFENCE (R168): it waits for the fibre's accesses, those it holds too (R207), then delivers a nonempty replay list (R261). -/
def execEfence (h : Head) (s : State) : Host.Outcome State Fault Refusal :=
  let i := Instr.efence h
  issueWord i s fun k f =>
    if (!s.accessesDone k f && !s.releaseStuck k f) || f.held.any fun h => h.eff.isAccess then s.waitFor k f .memory
    else if f.replay.isEmpty then s.finish k i f f
    else let w := s.issuedWords f i; s.deliver k f.rp w.1 w.2

end Sys2Proof.Machine
end

