-- ==== Sys2Proof/Machine/Barrier.lean ====
section
/-! DEFINITION. Barrier objects in scratchpad (R174 to R177). -/

namespace Sys2Proof.Machine

/-- The four words of a barrier object. -/
structure Barrier where
  phase    : Word
  expected : Word
  arrived  : Word
  status   : Word
  deriving DecidableEq, Repr, Inhabited
def State.barrierAt (s : State) (loc : Nat) : Barrier :=
  let w := leWords 4 (s.getBytes loc 16)
  ⟨w.getD 0 0, w.getD 1 0, w.getD 2 0, w.getD 3 0⟩
def State.putBarrier (s : State) (loc : Nat) (b : Barrier) : State := s.putBytes loc (wordBytes [b.phase, b.expected, b.arrived, b.status])
/-- One arrival (R176); an engine's merges its status. -/
def Barrier.arrive (b : Barrier) (st : Status) : Barrier :=
  let cur := bitsOf b.status.toNat 18 16
  let cur := if st != .ok && cur == 0 then statusNum st else cur
  let n := b.arrived + 1
  let goal := if b.expected = 0 then 65536 else b.expected
  if n = goal then ⟨b.phase + 1, b.expected, 0, w32 cur⟩ else ⟨b.phase, b.expected, n, w32 (cur <<< 16 ||| bitsOf b.status.toNat 2 0)⟩
/-- A failed part of a delivery whose arrival is still to come (R327). -/
def Barrier.note (b : Barrier) (st : Status) : Barrier :=
  if st != .ok && bitsOf b.status.toNat 18 16 == 0 then { b with status := w32 (statusNum st <<< 16 ||| bitsOf b.status.toNat 2 0) } else b
/-- An arrival releases what happens before it to those that leave the phase (R175). -/
def State.arriveBarrier (s : State) (loc : Nat) (st : Status) (view : List Nat) : State :=
  let b := s.barrierAt loc
  let s := (s.putBarrier loc (b.arrive st)).publish (.arrived loc) view
  if (b.arrive st).phase = b.phase then s
  else
    let s := s.publish (.phase loc) (s.published (.arrived loc))
    { s with pubs := s.pubs.filter fun e => e.1 != .arrived loc }

/-- A barrier word: its object's place once the fibre's accesses are complete and no other fibre's undo entry covers it
(R288); a bad offset raises its memory fault at once (R174), with its record (of an access with no destination), unless the fibre has to
hold the trap (R259). -/
def State.barrierWord (s : State) (k : Nat) (f : Fibre) (i : Instr) (off : Word) (body : State → Nat → State) : State :=
  let fault := fun (kind : MemKind) =>
    match s.barTrap k f with
    | some s => s
    | none =>
    let s := if f.replay.length < 8 then
        s.modFibre k (·.takeRecord ⟨{ (default : Access) with kind := .ld, space := .sp, addr := off.setWidth 64, size := 16 }, kind, s.seatNow f⟩)
      else s
    let w := s.issuedWords f i
    s.deliver k f.rp w.1 w.2
  if !s.accessesDone k f then s.waitFor k f .memory
  else if off.toNat % 16 != 0 then fault .misaligned
  else match s.find f .sp off.toNat 16 .atomic with
    | (.at_ loc, s) => if s.loggedByOther k loc 16 then s.waitFor k f .memory else body s loc
    | _ => fault .bounds

def execBarinit (h : Head) (a b : Reg) (s : State) : Host.Outcome State Fault Refusal :=
  let i := Instr.barinit h a b
  issueWord i s fun k f =>
    if f.isHelper then s.finish k i f f
    else if f.tainted then s.stallTag k f
    else s.barrierWord k f i (f.read k a.toNat) fun s loc =>
      (s.putBarrier loc { s.barrierAt loc with expected := f.read k b.toNat &&& 0xFFFF, arrived := 0, status := 0 }).finish k i f f
/-- BARARR: the token names the object and its phase before the arrival. -/
def execBararr (h : Head) (a : Reg) (s : State) : Host.Outcome State Fault Refusal :=
  let i := Instr.bararr h a
  issueWord i s fun k f =>
    if f.isHelper then s.finish k i f f
    else if f.tainted then s.stallTag k f
    else s.barrierWord k f i (f.read k a.toNat) fun s loc =>
      (s.arriveBarrier loc .ok f.seen).finish k i f { f with token := some (f.read k a.toNat, (s.barrierAt loc).phase) }
/-- The phase a BARWT waits to see left. -/
def Fibre.waitPhase (f : Fibre) (off now : Word) : Word :=
  match f.token with
  | some (o, p) => if o = off then p else now
  | none => now
def execBarwt (h : Head) (a b : Reg) (s : State) : Host.Outcome State Fault Refusal :=
  let i := Instr.barwt h a b
  issueWord i s fun k f =>
    let off := f.read k a.toNat
    let n := (f.read k b.toNat).toNat
    s.barrierWord k f i off fun s loc =>
      let now := (s.barrierAt loc).phase
      let p := f.waitPhase off now
      if now != p then s.finish k i f (s.acquire (.phase loc) f)
      else
        let w := s.issuedWords f i
        s.beginWait k i f f (.bar off p (if n = 0 then none else some (s.clk + n)) w.1 w.2)
def execBarst (h : Head) (d a : Reg) (s : State) : Host.Outcome State Fault Refusal :=
  let i := Instr.barst h d a
  issueWord i s fun k f =>
    s.barrierWord k f i (f.read k a.toNat) fun s loc =>
      s.finish k i f (f.setPred d.toNat (bitsOf (s.barrierAt loc).status.toNat 2 0 != 0))

/-- A fibre leaves a wait past its word of n words; one stopped in its wait stays stopped. -/
def Fibre.leaveWait (f : Fibre) (n : Nat) : Fibre :=
  let f' := { f with wait := none }.pass n
  { f' with run := match f.run with | .stopped => .stopped | _ => f'.run }
/-- Fibres whose barrier's phase has changed leave their waits. -/
def State.wakeBarriers (s : State) : State :=
  s.mapFibres fun k f =>
    match f.run, f.wait with
    | .waiting .barrier, some (.bar off p _ _ _) =>
      match s.find f .sp off.toNat 16 .atomic with
      | (.at_ loc, _) => if (s.barrierAt loc).phase != p && !s.loggedByOther k loc 16 then (s.acquire (.phase loc) f).leaveWait 2 else f
      | _ => f
    | _, _ => f
/-- BARWT_TIMEOUT (R177): one record for each real, unended fibre of the group whose token is not of this phase, then the
user trap. A tainted fibre holds the trap (R259), a helper halts. -/
def execBarwtTimeout (fib : Nat) (s : State) : Host.Outcome State Fault Refusal :=
  .next <| match s.fibre? fib with
  | none => s
  | some f =>
    match f.run, f.wait with
    | .waiting .barrier, some (.bar off p (some t) w0 w1) =>
      if s.clk < t || f.tainted then s
      else if f.isHelper then s.setFibre fib { f with run := .halted, wait := none }
      else
        let core := (s.site f).coreIx
        let missing := sortBy (fun x => x.2.fid) ((s.members f.grp).filter fun x =>
          !x.2.isHelper && x.2.run != .ended && x.2.token != some (off, p))
        let s := missing.foldl (fun s x => s.debugRecord core 6 0 (s.ordAt x.2 x.2.rp).toNat 0 x.2 0 off 0) s
        (s.setFibre fib { f with wait := none, run := .ready }).userTrap fib
          { f.xr with opc := w0, opi := w1, opa := w32 missing.length,
                      opb := w32 ((missing.head?.map fun x => x.2.fid).getD 0), cls := 0x18 } f.rp false
    | _, _ => s

end Sys2Proof.Machine
end

