-- ==== Sys2Proof/Machine/Bfp.lean ====
section
/-! DEFINITION. Block floating point: the operand formats (R20), conversion of a block (R21 to R23), quantisation (R24), the
products and sums of the matrix engine (R25 to R28). -/

namespace Sys2Proof.Machine

/-! ## Streams and elements (R18, R20) -/

/-- Element i of a stream of n-bit elements. -/
def streamAt (n x i : Nat) : Nat := x / 2 ^ (n * i) % 2 ^ n
/-- A stream of n-bit elements from their two's-complement values. -/
def streamOf (n : Nat) : List Int → Nat
  | [] => 0
  | v :: vs => (v.emod (2 ^ n : Nat)).toNat + 2 ^ n * streamOf n vs
/-- A small format without infinities: every pattern is a number. -/
def FF.finite (t : FF) (x : Nat) : FV :=
  let m := x % 2 ^ t.mw
  let e := x / 2 ^ t.mw % 2 ^ t.ew
  let neg := x.testBit (t.ew + t.mw)
  if e = 0 then .fin neg m (t.emin - t.mw) else .fin neg (m + 2 ^ t.mw) ((e : Int) - t.bias - t.mw)
/-- The value of an exact integer. -/
def FV.ofInt (v : Int) : FV := .fin (v < 0) v.natAbs 0
/-- The value of one stored element (R20); FP19 lies in bits [31:13] of its word. -/
def elemVal (t : Fmt) (x : Nat) : FV :=
  match t with
  | .uint4 | .uint8 => .fin false x 0
  | .e2m1 => FF.finite ⟨2, 1⟩ x
  | .e2m3 => FF.finite ⟨2, 3⟩ x
  | .e3m2 => FF.finite ⟨3, 2⟩ x
  | .e4m3 => if x % 128 = 127 then .nan false else FF.finite ⟨4, 3⟩ x
  | .e5m2 => FF.val ⟨5, 2⟩ x
  | .f16 => FF.f16.val x
  | .bf16 => FF.bf16.val x
  | .f19 => FF.val ⟨8, 10⟩ (x / 8192)
  | .f32 => FF.f32.val x
  | t => FV.ofInt (exact true t.bits x)
/-- h of an exact floating-point format (R21). -/
def exactTop : Fmt → Nat
  | .e2m1 | .e2m3 => 3
  | .e3m2 => 5
  | _ => 9

/-! ## A converted block -/

/-- A block of 32: exponent, mantissas, underflows, and what it adds to %mxerr. -/
structure BfpBlock where
  e   : Nat
  ms  : List Int
  ufc : Nat
  sat : Bool
  eovf : Bool
  deriving DecidableEq, Repr
/-- A block that is all NaN, or all zero (R17). -/
def nanBlock (eovf : Bool) : BfpBlock := ⟨255, List.replicate 32 0, 0, false, eovf⟩
def zeroBlock : BfpBlock := ⟨0, List.replicate 32 0, 0, false, false⟩

/-- One mantissa at a step 2^q: rounded, saturated to w bits; whether it saturated. -/
def mantissa (w : Nat) (r : Rnd) (q : Int) (v : FV) (noise : Nat) : Int × Bool :=
  match v with
  | .fin neg m e =>
    let n : Int := (roundAt r neg m e q noise).1
    let n := if neg then -n else n
    let lo : Int := -(2 ^ (w - 1) : Nat)
    let hi : Int := (2 ^ (w - 1) : Nat) - 1
    if n < lo then (lo, true) else if n > hi then (hi, true) else (n, false)
  | _ => (0, false)
/-- The step of a shared exponent (R17). -/
def blockStep (w : Nat) (e : Int) : Int := e - 127 - ((w : Int) - 2)
/-- Every mantissa at an exponent. -/
def blockAt (w : Nat) (r : Rnd) (e : Int) (vs : List FV) (ns : List Nat) : BfpBlock :=
  let xs := vs.mapIdx fun i v => mantissa w r (blockStep w e) v (ns.getD i 0)
  let under := (vs.zip xs).filter fun p => (match p.1 with | .fin _ m _ => m != 0 | _ => false) && p.2.1 == 0
  ⟨e.toNat, xs.map (·.1), under.length, xs.any (·.2), false⟩
def FV.isFinite : FV → Bool
  | .fin _ _ _ => true
  | _ => false
def FV.isZero : FV → Bool
  | .fin _ m _ => m == 0
  | _ => false
/-- ⌊log2⌋ of the largest magnitude (R22). -/
def topExp : List FV → Option Int
  | [] => none
  | v :: vs =>
    let t : Option Int := match v with | .fin _ m e => if m = 0 then none else some ((Nat.log2 m : Int) + e) | _ => none
    match t, topExp vs with
    | some a, some b => some (max a b)
    | some a, none => some a
    | none, b => b
/-- The special cases of R23 around an exponent choice. -/
def convertAt (w : Nat) (r : Rnd) (vs : List FV) (ns : List Nat) (e : Int) : BfpBlock :=
  if !vs.all FV.isFinite then nanBlock false
  else if vs.all FV.isZero then zeroBlock
  else if e > 254 then nanBlock true
  else blockAt w r (max e 1) vs ns
/-- Narrow choice of the exponent (R22). -/
def narrowExp (vs : List FV) : Int := (topExp vs).getD 0 + 127
/-- Exact choice of the exponent at a scale (R21). -/
def exactExp (t : Fmt) (scale : Nat) (w : Nat) : Int := if t.isInt then (scale : Int) + w - 2 else (scale : Int) + exactTop t
/-- A value times 2^k. -/
def FV.scale (k : Int) : FV → FV
  | .fin s m e => .fin s m (e + k)
  | v => v
/-- A block of one of the formats as the matrix engine and the Pacer convert it; for a BFP format `scale` is the block's
exponent and nothing is converted (R180). `bad` elements enter as zero (R28). -/
def convertBlock (t : Fmt) (x : Bool) (scale : Nat) (els : List Nat) : BfpBlock :=
  if t.isBfp then ⟨scale, els.map fun v => exact true t.bits v, 0, false, false⟩
  else if scale = 255 then nanBlock false
  else
    let vs := els.map fun v => (elemVal t v).scale ((scale : Int) - 127)
    if x then let w := t.exactWidth.getD t.width; convertAt w .rn vs [] (exactExp t scale w)
    else convertAt t.width .rn vs [] (narrowExp vs)
/-- The width of the converted operand. -/
def convertedWidth (t : Fmt) (x : Bool) : Nat := if x then t.exactWidth.getD t.width else t.width

/-- Quantisation of 32 FP32 values (R24), with the .adj trial. -/
def quantise (w : Nat) (r : Rnd) (adj : Bool) (vs : List Nat) (ns : List Nat) : BfpBlock :=
  let vs := vs.map FF.f32.val
  let b := convertAt w r vs ns (narrowExp vs)
  if adj && b.ufc > 0 && b.e > 1 && b.e < 255 then
    let c := blockAt w r (b.e - 1 : Nat) vs ns
    if c.sat then b else c
  else b
/-- The bytes of a block's mantissas. In a NaN block they are a free value (log 2). -/
def BfpBlock.bytes (b : BfpBlock) (w key : Nat) : List Byte :=
  if b.e = 255 then (List.range (4 * w)).map fun i => Config.nanMantissa key i
  else leBytes (4 * w) (streamOf w b.ms)
/-- One decoded element of a block as FP32 (R126). -/
def dequant (w e : Nat) (m : Int) : Nat × Conds :=
  if e = 0 then (0, Conds.none)
  else if e = 255 then (FF.f32.qnan, Conds.none)
  else FF.f32.round .rn (m < 0) m.natAbs (blockStep w e) 0

/-! ## Products and sums (R25 to R27) -/

/-- The exact sum of products of two blocks. -/
def dot : List Int → List Int → Int
  | a :: as, b :: bs => a * b + dot as bs
  | _, _ => 0
/-- PARTIAL (R25). -/
def partial_ (w : Nat) (ea : Nat) (a : List Int) (eb : Nat) (b : List Int) : Nat :=
  if ea = 255 || eb = 255 then FF.f32.qnan
  else if ea = 0 || eb = 0 then 0
  else let p := dot a b
       (FF.f32.round .rn (p < 0) p.natAbs (blockStep w ea + blockStep w eb) 0).1
/-- One accumulation in FP32 (R26). -/
def accumulate (acc p : Nat) : Nat := (FF.f32.add .rn acc p 0).1
/-- One accumulation of the s32 mode (R27): the sum, and whether it saturated. -/
def accumulate32 (acc : Word) (p : Int) : Word × Bool :=
  let v := acc.toInt + p
  if v < -(2 ^ 31 : Nat) then (0x80000000, true) else if v > (2 ^ 31 : Nat) - 1 then (0x7FFFFFFF, true) else (BitVec.ofInt 32 v, false)

/-! ## %mxerr (R178) -/

/-- %mxerr with underflows added and flags set. -/
def mxerrWith (x : Word) (ufc : Nat) (derr eovf sat : Bool) : Word :=
  w32 (min (x.toNat / 65536 + ufc) 65535 * 65536 ||| x.toNat % 65536 ||| bit derr <<< 3 ||| bit eovf <<< 2 ||| bit sat)
def Fibre.mxEvents (f : Fibre) (ufc : Nat) (derr eovf sat : Bool) : Fibre := { f with mxerr := mxerrWith f.mxerr ufc derr eovf sat }

end Sys2Proof.Machine
end

