-- ==== Sys2Proof/Machine/Async.lean ====
section
/-! DEFINITION. Asynchronous copies and gathers (R170 to R173). -/

namespace Sys2Proof.Machine

/-! ## Issue of an asynchronous operation (R170) -/

/-- A counter that stands at 255 makes the word wait. -/
def Fibre.counterFull (f : Fibre) (c : Cls) : Bool := c != .none && f.oc c == 255
/-- The operation in flight, the counter raised, the handle register pending. -/
def State.launchOp (s : State) (k : Nat) (f : Fibre) (c : Cls) (d : Option Nat) (body : OpBody) (ord : BitVec 24) : Nat × Fibre × State :=
  let (id, s) := s.fresh
  let f := f.setOc c (f.oc c + 1)
  let f := match d with
    | some d => f.setHandle d id
    | none => f
  (id, f, s.addOp (s.newOp k f id c body ord))

/-! ## CPASYNC (R172) -/

/-- The checks of a copy at issue; none where the copy runs. -/
def State.copyFail (s : State) (f : Fibre) (dst src : Place) (len : Nat) (bar : Option Nat) : Option Status :=
  let together := dst.space == src.space && (dst.space != .g || dst.addr.getLsbD 63 == src.addr.getLsbD 63)
  if dst.addr.toNat % 4 != 0 || src.addr.toNat % 4 != 0 || len % 4 != 0 || len > 16777216 then some .fault
  else if (match bar with | some b => !s.barPlaceOk f b | none => false) then some .fault
  else if together && dst.addr.toNat < src.addr.toNat + len && src.addr.toNat < dst.addr.toNat + len then some .fault
  else none
def execCpasync (h : Head) (d a b c : Reg) (bar : Bool) (ssp dsp : Space) (s : State) : Host.Outcome State Fault Refusal :=
  let i := Instr.cpasync h d a b c bar ssp dsp
  issueWord i s fun k f =>
    let dst : Place := ⟨dsp, w64 (f.base k dsp a)⟩
    let src : Place := ⟨ssp, w64 (f.base k ssp b)⟩
    let len := (f.read k c.toNat).toNat
    let off := if bar then some (f.read k (c.toNat + 1)).toNat else none
    let fail := s.copyFail f dst src len off
    let room := 16 * (bankWords dst.addr.toNat len).length
    if f.isHelper then s.finish k i f (f.setReg d.toNat 5)
    else if f.tainted && (dsp != .sp || (fail.isNone && s.proofingUsed (s.site f).coreIx + room > 65536)) then s.stallTag k f
    else if f.counterFull .cp then s.waitFor k f .full
    else
      let (_, f1, s) := s.launchOp k f .cp (some d.toNat) (.copy ⟨dst, src, len, 0, off, false, f.tainted && fail.isNone, fail, []⟩) (s.ordAt f f.rp)
      s.finish k i f f1
/-- A copy ends: its one arrival, if it has a barrier in place, then its status. -/
def State.endCopy (s : State) (o : Op) (f : Fibre) (c : Copy) (st : Status) : State :=
  let s := match c.bar with
    | some b =>
      if s.barPlaceOk f b then
        (match s.find f .sp b 16 .atomic with
         | (.at_ loc, s) => s.arriveBarrier loc st (joinView (s.viewAt o.fib o.seq o.view) (s.viewOfOp o.id))
         | (_, s) => s)
      else s
    | none => s
  s.finishOp o.id st
/-- Whether another fibre's undo entry keeps a copy from its next step (R288). -/
def State.copyBlocked (s : State) (o : Op) (f : Fibre) (c : Copy) : Bool :=
  let n := pieceLen c.dst.addr.toNat c.pos c.len
  (c.pos < c.len && c.fail.isNone && (s.pieceBlocked o.fib f c.dst.space (c.dst.addr.toNat + c.pos) n ||
    s.pieceBlocked o.fib f c.src.space (c.src.addr.toNat + c.pos) n || s.wsBlocked f c.src.space (c.src.addr.toNat + c.pos) n o.start)) ||
  (match c.bar with | some b => s.barPlaceOk f b && s.pieceBlocked o.fib f .sp b 16 | none => false)
/-- The locations of n bytes at an address. -/
def State.locsOf (s : State) (f : Fibre) (sp : Space) (addr n : Nat) : List (Option Nat) :=
  (List.range n).map fun i => match s.findNow f sp (addr + i) 1 .read with
    | (.at_ loc, _) => some loc
    | _ => none
/-- The next source piece. A byte the copy has overwritten already under another name is the one from before, or the
copy's own: which of the two is free (R172, log 2). -/
def State.copyBytes (s : State) (op seq : Nat) (f : Fibre) (c : Copy) (n : Nat) : Except Status (List Byte) × State :=
  match s.engineReadAs (some op) f (if c.tainted then seq else 0) c.src.space (c.src.addr.toNat + c.pos) n with
  | (.ok bs, s) =>
    if c.before.isEmpty then (.ok bs, s)
    else
      let old := (s.locsOf f c.src.space (c.src.addr.toNat + c.pos) n).map fun l => l.bind fun x => look x c.before
      (.ok ((bs.zip old).mapIdx fun i e => match e.2 with
        | some v => if Config.aliasSeesCopy op (c.pos + i) then e.1 else v
        | none => e.1), s)
  | r => r
/-- What a piece about to be written overwrites, where that must be kept. -/
def State.overwritten (s : State) (f : Fibre) (c : Copy) (at_ n : Nat) : List Host.Cell :=
  if c.dst.space == .g && c.src.space == .g then
    (s.locsOf f .g at_ n).filterMap fun l => l.map fun x => (x, Memory.get s.mem x)
  else []
/-- One step of a copy: its next piece, or its end. -/
def State.landCopy (s : State) (o : Op) (f : Fibre) (c : Copy) : State :=
  match c.fail with
  | some st => s.endCopy o f c st
  | none =>
    if c.pos ≥ c.len then s.endCopy o f c (if c.bad then .dataerr else .ok)
    else
      let at_ := c.dst.addr.toNat + c.pos
      let n := pieceLen c.dst.addr.toNat c.pos c.len
      let (here, s) := s.atHand o.id f c.src.space (c.src.addr.toNat + c.pos) n none
      if !here then s else
      let (r, s) := s.copyBytes o.id o.seq f c n
      let (bs, bad) : List Byte × Bool := match r with | .ok bs => (bs, false) | .error _ => (List.replicate n 0, true)
      match r with
      | .error .ok | .error .fault | .error .never | .error .linkfail | .error .denied | .error .cancelled => s.endCopy o f c .fault
      | .error .access => s.endCopy o f c .access
      | _ =>
        let (here, s) := s.atHand o.id f c.dst.space at_ n (some bs)
        if !here then s else
        let before := c.before ++ s.overwritten f c at_ n
        match s.engineWrite o.fib f (some o) c.dst.space c.tainted at_ bs with
        | (some st, s) => s.endCopy o f c st
        | (none, s) =>
          let s := (s.watchOp o c.src.space (c.src.addr.toNat + c.pos) n false).watchOp o c.dst.space at_ n true
          let c := { c with pos := c.pos + n, bad := c.bad || bad, before := before }
          if c.pos ≥ c.len then s.endCopy o f c (if c.bad then .dataerr else .ok)
          else (s.modOp o.id fun o => { o with body := .copy c, start := s.clk }).dropCarried o.id

/-! ## GATH (R173) -/

/-- Bytes of a B record of a BFP width (R179). -/
def recordBytes (w : Nat) : Nat := 1024 + 4096 * w
def State.oq? (s : State) (g q : Nat) : Option OQueue := (s.group? g).bind fun x => look q x.oqs
def State.modOq (s : State) (g q : Nat) (u : OQueue → OQueue) : State :=
  s.modGroup g fun x => match look q x.oqs with
    | some o => { x with oqs := assign q (u o) x.oqs }
    | none => x
/-- n slots reserved at the end of a queue's order. -/
def State.reserve (s : State) (g q n : Nat) (gath : Bool) : State :=
  let first := ((s.group? g).map (·.oqNext)).getD 0
  (s.modOq g q fun o => { o with slots := o.slots ++ (List.range n).map fun j =>
    { num := first + j, state := .filling, status := 0, payload := [], landed := 0, gath := gath, bad := [], kept := false } }).modGroup g
      fun x => { x with oqNext := first + n }
/-- A slot becomes full. -/
def State.fillSlot (s : State) (g q num : Nat) (status : Word) (payload : List Byte) (bad : List (Nat × Nat)) : State :=
  let order := ((s.group? g).map (·.oqNext)).getD 0
  (s.modOq g q fun o => { o with slots := o.slots.map fun e =>
    if e.num == num then { e with state := .full, status := status, payload := payload, landed := order, bad := bad } else e }).modGroup g
      fun x => { x with oqNext := order + 1 }
def execGath (h : Head) (d a b c : Reg) (ssp : Space) (fmt : Fmt) (toq : Bool) (s : State) : Host.Outcome State Fault Refusal :=
  let i := Instr.gath h d a b c ssp fmt toq
  issueWord i s fun k f =>
    let table := f.readPair k b.toNat
    let n := (f.read k c.toNat).toNat
    let rowLen := if toq then recordBytes fmt.width else (f.read k (c.toNat + 1)).toNat
    let dst := if toq then a.toNat else (f.read k a.toNat).toNat
    let q := s.oq? f.grp a.toNat
    let ok := 1 ≤ n && n ≤ 4096 &&
      (if toq then n ≤ 64 && (match q with | some o => decide (n ≤ o.e) && decide (rowLen ≤ o.b) | none => false)
       else decide (4 ≤ rowLen) && decide (rowLen ≤ 65536) && rowLen % 4 == 0)
    let room := 16 * ((List.range n).map fun r => (bankWords (dst + r * rowLen) rowLen).length).sum
    if f.isHelper then s.finish k i f (f.setReg d.toNat 5)
    else if f.tainted && (toq || (ok && s.proofingUsed (s.site f).coreIx + room > 65536)) then s.stallTag k f
    else if f.counterFull .ga then s.waitFor k f .full
    else if toq && ok && (match q with | some o => decide (o.e < o.slots.length + n) | none => false) then s.waitFor k f .opQueue
    else
      let first := ((s.group? f.grp).map (·.oqNext)).getD 0
      let g : Gather := { table := table, n := n, rowLen := rowLen, dst := dst, toq := toq, fmt := fmt, space := ssp, first := first,
                          left := if ok then List.range n else [], st := if ok then .ok else .fault, tainted := f.tainted && ok, wrote := false }
      let s := if toq && ok then s.reserve f.grp dst n true else s
      let (id, f1, s) := s.launchOp k f .ga (some d.toNat) (.gath g) (s.ordAt f f.rp)
      let s := s.finish k i f f1
      if ok then s else s.finishOp id .fault
/-- Which 8-byte elements of n bytes at an address were uncorrectable. -/
def State.badUnits (s : State) (f : Fibre) (sp : Space) (addr n : Nat) : List Nat :=
  (List.range ((n + 7) / 8)).filter fun u =>
    match s.findNow f sp (addr + 8 * u) (min 8 (n - 8 * u)) .read with
    | (.at_ loc, _) => s.poisonedAt loc (min 8 (n - 8 * u))
    | _ => false
/-- The bits of 8-byte elements. -/
def unitBits (bad : List Nat) : List (Nat × Nat) := bad.map fun u => (64 * u, 64)
/-- Bytes with the listed 8-byte elements as zeros. -/
def blank (bad : List Nat) (bs : List Byte) : List Byte := bs.mapIdx fun i b => if bad.contains (i / 8) then 0 else b
/-- n bytes read as they stand, uncorrectable elements as zeros. -/
def State.readBlank (s : State) (id : Option Nat) (f : Fibre) (seq : Nat) (sp : Space) (addr n : Nat) : Except Status (List Byte × List Nat) × State :=
  match s.engineReadAs id f seq sp addr n with
  | (.ok bs, s) => (.ok (bs, []), s)
  | (.error .dataerr, s) =>
    let bad := s.badUnits f sp addr n
    match ({ s with poisoned := [] } : State).engineReadAs id f seq sp addr n with
    | (.ok bs, _) => (.ok (blank bad bs, bad), s)
    | (.error e, _) => (.error e, s)
  | (.error e, s) => (.error e, s)
/-- A row is done with a status; the gather ends with its last row. -/
def State.rowDone (s : State) (o : Op) (g : Gather) (row : Nat) (st : Status) : State :=
  let g := { g with left := g.left.filter (· != row), st := mergeStatus g.st st }
  let s := s.modOp o.id fun o => { o with body := .gath g }
  if g.left.isEmpty then s.finishOp o.id g.st else s
/-- The address a row of a gather comes from, as its table has it. -/
def State.rowSource (s : State) (f : Fibre) (g : Gather) (row : Nat) : Nat :=
  match s.engineRead none f .g (g.table.toNat + 8 * row) 8 with
  | (.ok t, _) => leNat t
  | _ => 0
/-- Whether a range fails translation in some page, here or on another package, whose answer is at hand: a Pacer's access then makes its context
wait (R156). -/
def State.pacerMiss (s : State) (f : Fibre) (sp : Space) (addr n : Nat) : Bool :=
  f.isPacer && (s.untranslated f sp addr n || (sp == .g && pkgOf addr != Config.pkgNumber && s.answerFault f addr n false == some .translation))
/-- A row of a gather arrives (R173). -/
def State.landRow (s : State) (o : Op) (f : Fibre) (g : Gather) (row : Nat) : State :=
  let fail := fun (s : State) (st : Status) =>
    let s := if g.toq then s.fillSlot o.grp g.dst (g.first + row) (w32 (if st = .dataerr then 6 else 1)) [] [] else s
    s.rowDone o g row st
  let seq := if g.tainted then o.seq else 0
  let (here, s) := s.atHand o.id f .g (g.table.toNat + 8 * row) 8 none
  if !here then s else
  if s.pacerMiss f .g (g.table.toNat + 8 * row) 8 then (s.dropCarried o.id).pacerTrap o.fib f f.rp else
  match s.engineReadAs (some o.id) f seq .g (g.table.toNat + 8 * row) 8 with
  | (.error st, s) => fail (s.dropCarried o.id) st
  | (.ok t, s) =>
    let src := leNat t
    let (here, s) := s.atHand o.id f g.space src g.rowLen none
    if !here then s else
    if s.pacerMiss f g.space src g.rowLen then (s.dropCarried o.id).pacerTrap o.fib f f.rp else
    let r := s.readBlank (some o.id) f seq g.space src g.rowLen
    match (r.1, r.2.dropCarried o.id) with
    | (.error st, s) => fail s st
    | (.ok (bs, bad), s) =>
      let s := s.watchOp o g.space src g.rowLen false
      if g.toq then
        (s.fillSlot o.grp g.dst (g.first + row) (if bad.isEmpty then 0 else 6) bs (unitBits bad)).rowDone o { g with wrote := true } row
          (if bad.isEmpty then .ok else .dataerr)
      else if !bad.isEmpty then fail s .dataerr
      else
        let begins := match (s.placeNow false f .sp (g.dst + row * g.rowLen) (s.pageRun f (g.dst + row * g.rowLen) g.rowLen) .write).1 with
          | .at_ _ => true
          | _ => false
        match s.engineWrite o.fib f (some o) .sp g.tainted (g.dst + row * g.rowLen) bs with
        | (some st, s) => s.rowDone o { g with wrote := g.wrote || begins } row st
        | (none, s) => (s.watchOp o .sp (g.dst + row * g.rowLen) g.rowLen true).rowDone o { g with wrote := true } row .ok

/-! ## WAITC, FTEST, FCANCEL (R171) -/

def execWaitc (h : Head) (n : BitVec 8) (mask : BitVec 4) (s : State) : Host.Outcome State Fault Refusal :=
  let i := Instr.waitc h n mask
  issueWord i s fun k f =>
    let high := fun (j : Nat) (c : BitVec 8) => mask.getLsbD j && decide (n.toNat < c.toNat)
    if high 3 f.occp || high 2 f.ocmx || high 1 f.ocga || high 0 f.ocfx then s.waitFor k f .counter else s.finish k i f f
def execFtest (h : Head) (d a : Reg) (s : State) : Host.Outcome State Fault Refusal :=
  let i := Instr.ftest h d a
  issueWord i s fun k f => s.finish k i f (f.setPred d.toNat (f.handle? a.toNat).isNone)
/-- Whether an operation may still be cancelled: nothing of it has been written (R171, R334). -/
def Op.cancellable (o : Op) : Bool :=
  o.done.isNone && match o.body with
  | .copy c => c.pos == 0 && c.fail.isNone
  | .gath g => !g.wrote && !g.left.isEmpty
  | .fab (.get _ _ _ _) pos _ _ _ => pos == 0
  | .fab (.want _ _ _ _) pos _ _ _ => pos == 0
  | .fab (.twalk _ _ _) pos _ _ _ => pos == 0
  | _ => false
/-- The end of a GET that passed its checks (R337): its arrival, whatever its status. -/
def State.endGet (s : State) (o : Op) (f : Fibre) (bar : Option Nat) (st : Status) : State :=
  let s := match bar with
    | some b => (match s.find f .sp b 16 .atomic with
      | (.at_ loc, s) => s.arriveBarrier loc st (joinView (s.viewAt o.fib o.seq o.view) (s.viewOfOp o.id))
      | (_, s) => s)
    | none => s
  s.finishFab o st
/-- An operation is cancelled: a copy or a GET still makes its arrival; a gather's slots that still fill become full records of status
CANCELLED; a face or a walk goes. -/
def State.cancel (s : State) (o : Op) : State :=
  match o.body, s.fibre? o.fib with
  | .copy c, some f => s.endCopy o f c .cancelled
  | .gath g, _ =>
    let s := if g.toq then g.left.foldl (fun s r => s.fillSlot o.grp g.dst (g.first + r) 5 [] []) s else s
    s.finishOp o.id .cancelled
  | .fab (.want _ name _ _) _ _ _ _, _ =>
    let drop := fun (l : List Crumb) => (l.map fun c =>
      if c.job == o.job && c.name == name then { c with faces := c.faces.filter fun x => x.1 != .op o.id } else c).filter fun c => !c.faces.isEmpty
    let s : State := { s with dies := s.dies.map fun d => (d.1, { d.2 with crumbs := drop d.2.crumbs }) }
    s.finishFab o .cancelled
  | .fab (.twalk _ _ _) _ _ _ _, _ => (s.modPkg fun p => { p with walks := p.walks.filter fun w => w.op != o.id }).finishFab o .cancelled
  | b, f =>
    let s := s.modPkg fun p =>
      let free := fun (r : Retx) => if r.op == some o.id then { r with op := none } else r
      { p with retx := p.retx.map free, outq := p.outq.map free }
    match b, f with
    | .fab (.get _ _ _ bar) _ _ _ _, some f => s.endGet o f bar .cancelled
    | _, _ => s.finishFab o .cancelled
def execFcancel (h : Head) (d a : Reg) (s : State) : Host.Outcome State Fault Refusal :=
  let i := Instr.fcancel h d a
  issueWord i s fun k f =>
    if f.isHelper then s.finish k i f (f.setPred d.toNat false)
    else if f.tainted then s.stallTag k f
    else match (f.handle? a.toNat).bind s.op? with
      | some o =>
        if o.cancellable then ((s.cancel o).modFibre k fun f => f.setPred d.toNat true).finishNow k i f
        else s.finish k i f (f.setPred d.toNat false)
      | none => s.finish k i f (f.setPred d.toNat false)

end Sys2Proof.Machine
end

