-- ==== Sys2Proof/Machine/Pacer.lean ====
section
/-! DEFINITION. Access slices and operand queues (R153 to R156, R185 to R188). -/

namespace Sys2Proof.Machine

/-! ## Records -/

/-- A record's status word (R185). -/
def recordStatus (ufc : Nat) (eovf sat : Bool) (st : Nat) : Word :=
  w32 (min ufc 65535 <<< 16 ||| bit eovf <<< 4 ||| bit sat <<< 3 ||| st)
/-- Whether n bits from `lo` on meet bad bits. -/
def bitsBad (bad : List (Nat × Nat)) (lo n : Nat) : Bool := bad.any fun e => e.1 < lo + n && lo < e.1 + e.2
/-- n-bit elements of a stream that lies at bit `at_`, bad ones as zero, each with whether it was bad. -/
def elemsOf (n count at_ : Nat) (bad : List (Nat × Nat)) (x : Nat) : List (Nat × Bool) :=
  (List.range count).map fun i => let b := bitsBad bad (at_ + n * i) n; (if b then 0 else streamAt n x i, b)
/-- A list cut into k parts of n items. -/
def parts {α : Type} (n : Nat) : Nat → List α → List (List α)
  | 0, _ => []
  | k + 1, l => l.take n :: parts n k (l.drop n)
/-- Block b of column j of AFEED's memory image, converted (R188): the column's bytes, its scale byte where it has one. An
erroneous scale or exponent byte makes a zero block, an erroneous element enters as zero (R28). The second component lists
the bits of the record that are substituted. -/
def imageBlock (t : Fmt) (x : Bool) (col : List Byte) (scale : Option Byte) (bad : List (Nat × Nat)) (j b : Nat) :
    BfpBlock × List (Nat × Nat) :=
  let n := t.bits
  let w := convertedWidth t x
  let els := ((elemsOf n 64 (64 * n * j) bad (leNat col)).drop (32 * b)).take 32
  let lost := (els.mapIdx fun i e => (8 * 1024 + 64 * w * j + w * (32 * b + i), e.2)).filterMap fun e => if e.2 then some (e.1, w) else none
  if scale.isSome && bitsBad bad (8 * (4096 * n + 2 * j + b)) 8 then (zeroBlock, (8 * (2 * j + b), 8) :: lost)
  else (convertBlock t x ((scale.map (·.toNat)).getD 127) (els.map (·.1)), lost)
/-- The mantissa bytes of a block in a record. -/
def BfpBlock.recordBytes (t : Fmt) (w key : Nat) (b : BfpBlock) : List Byte :=
  if t.isBfp then leBytes (4 * w) (streamOf w b.ms) else b.bytes w key
/-- The B record an image converts to, with its status word and its substituted bits (R179, R188). -/
def feedRecord (t : Fmt) (x sc : Bool) (raw : List Byte) (bad : List (Nat × Nat)) (key : Nat) : Word × List Byte × List (Nat × Nat) :=
  let cols := parts (8 * t.bits) 512 raw
  let scales := parts 2 512 (raw.drop (4096 * t.bits))
  let scaled := t.isBfp || sc
  let pairs := (cols.zip scales).mapIdx fun j e => (List.range 2).map fun b =>
    imageBlock t x e.1 (if scaled then some (e.2.getD b 0) else none) bad j b
  let blocks := pairs.flatten.map (·.1)
  let w := convertedWidth t x
  (recordStatus (blocks.map (·.ufc)).sum (blocks.any (·.eovf)) (blocks.any (·.sat)) (if bad.isEmpty then 0 else 6),
   blocks.map (fun b => BitVec.ofNat 8 b.e) ++ (blocks.mapIdx fun i b => b.recordBytes t w (key * 1024 + i)).flatten,
   pairs.flatten.flatMap (·.2))

/-! ## OQPOP and OQREL (R186) -/

/-- Bytes that queues take. -/
def queueBytes (l : List (Nat × OQueue)) : Nat := (l.map fun q => q.2.e * q.2.b).sum
/-- Where a queue's memory begins in its core's queue memory (R163): after those of the core's earlier groups and of the group's lower
queues (DESIGN CHOICE, log 33). -/
def State.queueBase (s : State) (grp q : Nat) : Nat :=
  let core := ((s.group? grp).map fun g => coreIx g.die g.clu g.core).getD 0
  ((s.groups.take grp).filter fun g => coreIx g.die g.clu g.core == core && !g.freed && !g.out).foldl (fun n g => n + queueBytes g.oqs)
    (queueBytes ((((s.group? grp).map (·.oqs)).getD []).filter fun e => e.1 < q))
/-- Where byte `off` of an entry lies in the queue memory. -/
def State.queueIndex (s : State) (grp q : Nat) (oq : OQueue) (e : Slot) (off : Nat) : Nat := s.queueBase grp q + e.num % max oq.e 1 * oq.b + off
/-- The records of the erroneous elements that a pop brings to registers (R160, R163). -/
def State.logPop (s : State) (f : Fibre) (q n : Nat) (e : Slot) : State :=
  match s.oq? f.grp q with
  | none => s
  | some oq => (e.bad.filter fun b => b.1 < 32 * n).foldl (fun s b =>
      s.logCore (s.site f).coreIx 0 (s.queueIndex f.grp q oq e (b.1 / 8)) 4 1 (((s.group? f.grp).map (·.rgi)).getD 0) f.fid) s
/-- The registers an OQPOP of n payload words writes. -/
def popWords (n : Nat) (e : Slot) : List Word := e.status :: leWords n e.payload
/-- Registers that take storage poison with a popped entry (R161). -/
def popPoison (d n : Nat) (e : Slot) : List Nat := ((List.range n).filter fun j => bitsBad e.bad (32 * j) 32).map (d + 1 + ·)
/-- A word that takes an entry is done; where AWWR wrote its destinations meanwhile the data is dropped (R272). -/
def Fibre.takeWords (f : Fibre) (d : Nat) (ws : List Word) (bad : List Nat) : Fibre :=
  if f.dropped then { f with dropped := false } else bad.foldl (fun f r => f.poisonReg .storage r) (f.setRun d ws)
def execOqpop (h : Head) (d a : Reg) (n : BitVec 5) (s : State) : Host.Outcome State Fault Refusal :=
  let i := Instr.oqpop h d a n
  issueWord i s fun k f =>
    let cnt := n.toNat + 1
    let none_ := fun (st : Nat) => s.finish k i f (f.takeWords d.toNat (w32 st :: List.replicate cnt 0) [])
    let slots := ((s.oq? f.grp a.toNat).map (·.slots)).getD []
    if f.isHelper then none_ 5
    else match firstIdx (fun e => e.state == .full && !e.kept) slots 0 with
      | some (j, e) =>
        let st : SlotState := if f.tainted then .tentative k else .popped
        ((s.logPop f a.toNat cnt e).modOq f.grp a.toNat fun q => { q with slots := q.slots.modify j fun x => { x with state := st } }).finish k i f
          (f.takeWords d.toNat (popWords cnt e) (popPoison d.toNat cnt e))
      | none =>
        let state := ((s.group? f.grp).bind (·.slice)).map (·.state)
        let reserved := slots.any fun e => e.gath && e.state == .filling
        if reserved || state == some .running || state == some .waitingTrap then s.waitFor k f .opQueue
        else none_ (if state == some .faulted then 1 else 5)
/-- OQREL: a tainted fibre holds it (R287). -/
def execOqrel (h : Head) (a : Reg) (s : State) : Host.Outcome State Fault Refusal :=
  let i := Instr.oqrel h a
  issueWord i s fun k f =>
    if f.isHelper then s.finish k i f f
    else if f.tainted then
      match s.hold f (.oqrel a.toNat) (s.ordAt f f.rp) with
      | some f1 => s.finish k i f f1
      | none => s.stallTag k f
    else (s.oqRelease f.grp a.toNat).finish k i f f

/-! ## ASLICE and ASTOP (R187) -/

/-- The queue fields of a descriptor: queue number, E and B of each enabled queue; none where a field is illegal. -/
def sliceQueues (desc : List Byte) : Option (List (Nat × OQueue)) :=
  let word := fun (q : Nat) => leNat ((desc.drop (8 + 4 * q)).take 4)
  let ok := (List.range 8).all fun q =>
    let w := word q
    bitsOf w 30 22 == 0 && bitsOf w 15 9 == 0 && (!w.testBit 31 || (1 ≤ bitsOf w 8 0 && bitsOf w 8 0 ≤ 388))
  if ok then some (((List.range 8).filter fun q => (word q).testBit 31).map fun q =>
    (q, { e := bitsOf (word q) 21 16 + 1, b := 256 * bitsOf (word q) 8 0, slots := [] }))
  else none
/-- Queue memory of a core that is taken. -/
def State.queueTaken (s : State) (core : Nat) : Nat :=
  ((s.groups.filter fun g => coreIx g.die g.clu g.core == core && !g.freed && !g.out).map fun g => queueBytes g.oqs).sum
/-- Whether a group has a context: one that has not ended, been cancelled or failed (R187). -/
def Group.sliceStands (g : Group) : Bool := match g.slice with
  | some x => x.state == .running || x.state == .waitingTrap
  | none => false
/-- A Pacer context as ASLICE starts it. Its %fid, for which the spec gives no value, reads 0xFFFF (DESIGN CHOICE, log 33). -/
def pacerFibre (f : Fibre) (entry : DWord) (clk : Nat) : Fibre :=
  { Fibre.fresh .pacer f.grp 0xFFFF 32 entry 0 clk with regs := (List.range 32).map fun r => if r < 8 then f.reg r else 0 }
/-- ASLICE: a tainted issuer stalls; the issuer's accesses, and what is still to be written to its w0 to w7, come before they are copied, and
their poison is met. A context that is over leaves its queue memory to a new one (log 28). -/
def execAslice (h : Head) (d a : Reg) (hd : Bool) (s : State) : Host.Outcome State Fault Refusal :=
  let i := Instr.aslice h d a hd
  issueWord i s fun k f =>
    if f.isHelper then s.finish k i f (if hd then f.setReg d.toNat 5 else f)
    else if f.tainted then s.stallTag k f
    else if !s.accessesDone k f || (s.pendingSlots k).any (· < 8) then s.waitFor k f .memory
    else if f.handles.any (·.1 < 8) then s.waitFor k f .future
    else match s.meetsPoison k f i (f.poison.filter (·.1 < 8)) with
    | some s => s
    | none =>
      let addr := (f.readPair k a.toNat).toNat
      if s.walkBlocked f .g addr 40 .read then s.waitFor k f .memory else
      let (here, s) := s.atHand (wordKey k) f .g addr 40 none
      if !here then s.waitFor k f .memory else
      let (r, s) := s.engineRead none f .g addr 40
      let s := s.dropCarried (wordKey k)
      let (id, f1, s) := s.launchOp k f .none (if hd then some d.toNat else none) (.slice f.grp) (s.ordAt f f.rp)
      let fail := fun (s : State) => (s.finish k i f f1).finishOp id .fault
      match r, s.group? f.grp with
      | .ok desc, some g =>
        match sliceQueues desc with
        | some qs =>
          if addr % 8 != 0 || g.sliceStands || s.queueTaken (s.site f).coreIx + queueBytes qs > 229376 + queueBytes g.oqs then fail s
          else
            let p := s.fibres.length
            let s : State := { s with fibres := s.fibres ++ [pacerFibre f (w64 (leNat (desc.take 8))) s.clk] }
            (s.modGroup f.grp fun x => { x with slice := some ⟨.running, p, id⟩, oqs := qs }).finish k i f f1
        | none => fail s
      | _, _ => fail s
/-- Whether an operation still fills slots for a fibre. -/
def Op.fills (o : Op) (k : Nat) : Bool :=
  o.fib == k && o.done.isNone && match o.body with
    | .feed _ _ _ _ _ _ => true
    | .gath g => g.toq
    | _ => false
/-- A context is over, in a state, and ASLICE's operation ends. -/
def State.endSlice (s : State) (g : Nat) (sl : Slice) (new : SliceState) (st : Status) : State :=
  ((s.modGroup g fun x => { x with slice := some { sl with state := new } }).modFibre sl.fib fun f =>
    { f with run := .ended, holds := [], stopReq := [], wait := none }).finishOp sl.op st
/-- Slots that a Pacer context was filling are free; a fibre's reservations stay. -/
def State.freeFilling (s : State) (g k : Nat) : State :=
  let kept := s.ops.flatMap fun o => match o.body with
    | .gath x => if x.toq && o.grp == g && o.fib != k && o.done.isNone then (List.range x.n).map fun r => x.first + r else []
    | _ => []
  s.modGroup g fun x => { x with oqs := x.oqs.map fun q => (q.1, { q.2 with
    slots := q.2.slots.filter fun e => e.state != .filling || kept.contains e.num }) }
/-- ASTOP. -/
def execAstop (h : Head) (s : State) : Host.Outcome State Fault Refusal :=
  let i := Instr.astop h
  issueWord i s fun k f =>
    match (s.group? f.grp).bind (·.slice) with
    | none => if f.tainted then s.stallTag k f else s.finish k i f f
    | some sl =>
      if f.isPacer then
        (if s.ops.any fun o => o.fills k then s.waitFor k f .opQueue else (s.finish k i f f).endSlice f.grp sl .ended .ok)
      else if f.isHelper then s.finish k i f f
      else if f.tainted then s.stallTag k f
      else if sl.state == .running || sl.state == .waitingTrap then
        let s := s.freeFilling f.grp sl.fib
        let s : State := { s with ops := s.ops.filter fun o => o.fib != sl.fib }
        (s.endSlice f.grp sl .cancelled .cancelled).finish k i f f
      else s.finish k i f f

/-! ## The Pacer's own words (R188) -/

/-- PLOOP: LOOP on the context's nest. A translation fault of the header walk makes the context wait. -/
def execPloop (h : Head) (a : Reg) (last : BitVec 13) (s : State) : Host.Outcome State Fault Refusal :=
  let i := Instr.ploop h a last
  issueWord i s fun k f =>
    match s.walkLoop f (f.pc + BitVec.ofNat 64 (4 * last.toNat)) (last.toNat + 2) f.nextClause with
    | (.stop (.bad 1) _, s) => s.pacerTrap k f f.rp
    | _ => s.startLoop k i f (f.read k a.toNat) (last.setWidth 16)
/-- The format an AFEED's mods name. -/
def feedFmt (m : BitVec 11) : Fmt := (Fmt.ofCode (m.extractLsb 7 3).toNat).getD .bfp2
/-- The source of an AFEED. -/
def Fibre.feedPlace (f : Fibre) (k : Nat) (m : BitVec 11) (a : Reg) : Place :=
  let sp := (Space.ofCode (feedSpace m)).getD .g
  ⟨sp, w64 (f.base k sp a)⟩
def execAfeed (h : Head) (d a b : Reg) (m : BitVec 11) (kind : FeedKind) (s : State) : Host.Outcome State Fault Refusal :=
  let i := Instr.afeed h d a b m kind
  issueWord i s fun k f =>
    let fmt := feedFmt m
    let n := (m.extractLsb 7 3).toNat + 1
    let size := match kind with
      | .reg => 4 * n
      | .mem => (f.read k b.toNat).toNat
      | .b => recordBytes (convertedWidth fmt (m.getLsbD 8))
    let src := f.feedPlace k m a
    let aligned := match kind with | .reg => true | .mem => src.addr.toNat % 4 == 0 | .b => src.addr.toNat % 8 == 0
    match s.oq? f.grp d.toNat with
    | none => s.sliceFault f.grp
    | some q =>
      if size = 0 || size > q.b || !aligned then s.sliceFault f.grp
      else if q.slots.length ≥ q.e then s.waitFor k f .opQueue
      else
        let num := ((s.group? f.grp).map (·.oqNext)).getD 0
        let s := s.reserve f.grp d.toNat 1 false
        match kind with
        | .reg => (s.fillSlot f.grp d.toNat num 0 (wordBytes (f.readRun k a.toNat n)) []).finish k i f f
        | .mem =>
          let r := s.launchOp k f .none none (.feed f.grp d.toNat num src size none) 0xFFFFFF
          r.2.2.finish k i f r.2.1
        | .b =>
          let len := 4096 * fmt.bits + (if fmt.isBfp || m.getLsbD 9 then 1024 else 0)
          let r := s.launchOp k f .none none (.feed f.grp d.toNat num src len (some (fmt, m.getLsbD 8, m.getLsbD 9))) 0xFFFFFF
          r.2.2.finish k i f r.2.1
/-- PWAIT: until the queue has n free permits. -/
def execPwait (h : Head) (d : Reg) (n : BitVec 6) (s : State) : Host.Outcome State Fault Refusal :=
  let i := Instr.pwait h d n
  issueWord i s fun k f =>
    match s.oq? f.grp d.toNat with
    | none => s.sliceFault f.grp
    | some q =>
      if n.toNat + 1 > q.e then s.sliceFault f.grp
      else if q.slots.length + n.toNat + 1 > q.e then s.waitFor k f .opQueue
      else s.finish k i f f

/-! ## A fill (PACER_FILL_COMPLETE) -/

/-- A fill's last byte lands: its slot is full. -/
def execPacerFillComplete (op : Nat) (s : State) : Host.Outcome State Fault Refusal :=
  .next <| match s.op? op with
  | none => s
  | some o =>
    match o.body, s.fibre? o.fib with
    | .feed g q slot src len b, some f =>
      let state := ((s.group? g).bind (·.slice)).map (·.state)
      if state != some .running || ((s.group? g).map (·.out)).getD true || s.wsBlocked f src.space src.addr.toNat len o.start then s
      else
        let (here, s) := s.atHand op f src.space src.addr.toNat len none
        if !here then s
        else if s.pacerMiss f src.space src.addr.toNat len then (s.dropCarried op).pacerTrap o.fib f f.rp
        else
        let done := fun (s : State) (status : Word) (bs : List Byte) (bad : List (Nat × Nat)) => (s.fillSlot g q slot status bs bad).dropOp op
        match s.readBlank (some op) f 0 src.space src.addr.toNat len with
        | (.error st, s) => done s (w32 (if st = .access then 7 else 1)) [] []
        | (.ok (bs, bad), s) =>
          let s := s.watchOp o src.space src.addr.toNat len false
          match b with
          | none => done s (w32 (if bad.isEmpty then 0 else 6)) bs (unitBits bad)
          | some (fmt, x, sc) => let r := feedRecord fmt x sc bs (unitBits bad) op; done s r.1 r.2.1 r.2.2
    | _, _ => s

end Sys2Proof.Machine
end

