-- ==== Sys2Proof/Machine/Matrix.lean ====
section
/-! DEFINITION. The matrix engine: signatures and rounds (R181), MMA (R179 to R183), the accumulator words (R184), data errors
(R28, R163, R209). -/

namespace Sys2Proof.Machine

/-! ## Tiles -/

/-- The uncorrectable elements of a tile. -/
def State.tileLost (s : State) (core t : Nat) : List Nat := ((s.core core).tileBad.filter fun e => e.1 == t).map (·.2)
/-- A tile's rows of 512 elements as they are read: an uncorrectable element is substituted by zero (R161). -/
def State.tileRows (s : State) (core t : Nat) : List (List Word) :=
  let l := (look t (s.core core).tiles).getD []
  let l := match s.tileLost core t with
    | [] => l
    | lost => l.mapIdx fun i v => if lost.contains i then 0 else v
  parts 512 128 (l ++ List.replicate (65536 - l.length) 0)
/-- A tile written whole, and one row of it written; what is written is correct again. -/
def State.setTile (s : State) (core t : Nat) (rows : List (List Word)) : State :=
  s.modCore core fun c => { c with tiles := assign t rows.flatten c.tiles, tileBad := c.tileBad.filter fun e => e.1 != t }
def State.setTileRow (s : State) (core t r : Nat) (row : List Word) : State :=
  let lost := s.tileLost core t
  (s.setTile core t ((s.tileRows core t).set r row)).modCore core fun c =>
    { c with tileBad := c.tileBad ++ (lost.filter fun e => e / 512 != r).map fun e => (t, e) }
/-- Records of elements of a tile that a read substitutes by zero (R163, R209). -/
def State.logTile (s : State) (core rgi : Nat) (lost : List Nat) : State :=
  lost.foldl (fun s e => s.logCore core (e / 512 <<< 16 ||| e % 512) e 2 2 rgi 0xFFFF) s

/-! ## Rounds -/

/-- CVDECL. -/
def execCvdecl (h : Head) (c n : Reg) (s : State) : Host.Outcome State Fault Refusal :=
  let i := Instr.cvdecl h c n
  issueWord i s fun k f =>
    let open_ := ((s.group? f.grp).map fun g => (g.convs.getD c.toNat default).signed.isEmpty).getD true
    if f.isHelper then s.finish k i f f
    else if f.tainted then s.stallTag k f
    else if !open_ then s.waitFor k f .matrix
    else (s.modGroup f.grp fun g => { g with convs := g.convs.set c.toNat ⟨n.toNat + 1, [], 0⟩ }).finish k i f f
/-- A signer's row as its registers hold it: words, exponents or scales, what storage poison makes zero. -/
def rowOf (k : Nat) (f : Fibre) (a : Nat) (fmt : Fmt) (scaled : Bool) (sreg sel : Nat) : List Word × List Byte × List (Nat × Nat) :=
  let n := fmt.bits
  let poisoned := fun (r : Nat) => f.poison.contains (r, .storage)
  let lin := fun (r : Nat) => f.fid * f.regs.length + r
  let lost := (List.range 64).filterMap fun i =>
    ((List.range ((n * i + n - 1) / 32 - n * i / 32 + 1)).map fun d => a + n * i / 32 + d).find? poisoned |>.map fun r => (i, lin r)
  let sv := (f.read k sreg).toNat
  (f.readRun k a fmt.rowRegs,
   if scaled then [BitVec.ofNat 8 (sv / 2 ^ (8 * sel)), BitVec.ofNat 8 (sv / 2 ^ (8 * sel + 8))] else [127, 127],
   lost ++ if scaled && poisoned sreg then [(64, lin sreg), (65, lin sreg)] else [])
/-- The signers of a round leave their convergence wait (R181). -/
def State.leaveRound (s : State) (job : MmaJob) : State :=
  (job.signers.zip job.ops).foldl (fun s p => s.modFibre p.1 fun f => if f.wait == some (.signed p.2) then f.leaveWait 3 else f) s
/-- A full round enters the engine's queue; its signers are ranked by %fid. -/
def State.enterRound (s : State) (grp core c : Nat) (make : List (Nat × Nat) → MmaJob) : State :=
  match s.group? grp with
  | none => s
  | some g =>
    let conv := g.convs.getD c default
    let ranked := sortBy (fun p => ((s.fibre? p.1).map (·.fid)).getD 0) conv.signed
    let job := make ranked
    let ahead := s.chainAhead grp core
    let s := s.modGroup grp fun g => { g with convs := g.convs.set c ⟨conv.n, [], 0⟩ }
    let s := s.modCore core fun x => { x with mmaq := x.mmaq ++ [job] }
    if ahead == some job.key then s.leaveRound job else s
/-- MMA: a signature (R181). -/
def execMma (h : Head) (d a b c : Reg) (sc s32 fr spSrc reuse x : Bool) (fmt : Fmt) (hreg : Reg) (hd : Bool) (ssel : BitVec 2) (sreg : Reg)
    (s : State) : Host.Outcome State Fault Refusal :=
  let i := Instr.mma h d a b c sc s32 fr spSrc reuse x fmt hreg hd ssel sreg
  issueWord i s fun k f =>
    let core := (s.site f).coreIx
    let conv := ((s.group? f.grp).map fun g => g.convs.getD c.toNat default).getD default
    if f.isHelper then s.finish k i f (if hd then f.setReg hreg.toNat 5 else f)
    else if f.tainted then s.stallTag k f
    else if conv.n = 0 || (!conv.signed.isEmpty && conv.word != f.pc) then
      let w := s.issuedWords f i
      s.userTrap k (wordTrap f w.1 w.2 0x19) f.rp false
    else if conv.signed.any fun p => p.1 == k then s.waitFor k f .matrix
    else if f.counterFull .mx then s.waitFor k f .full
    else if conv.signed.length + 1 ≥ conv.n && (s.core core).mmaq.length ≥ 4 then s.waitFor k f .matrix
    else
      let (id, f1, s) := s.launchOp k f .mx (if hd then some hreg.toNat else none) .mma (s.ordAt f f.rp)
      let s := s.beginWait k i f f1 (.signed id)
      let signed := conv.signed ++ [(k, id)]
      let s := s.modGroup f.grp fun g => { g with convs := g.convs.set c.toNat ⟨conv.n, signed, f.pc⟩ }
      if signed.length < conv.n then s
      else s.enterRound f.grp core c.toNat fun ranked =>
        let row := fun (p : Nat × Nat) => match s.fibre? p.1 with
          | some y => rowOf p.1 y a.toNat fmt (fmt.isBfp || sc) sreg.toNat ssel.toNat
          | none => ([], [], [])
        let src := if spSrc then
            (ranked.head?.bind fun p => (s.fibre? p.1).map fun y => (y.read p.1 b.toNat).toNat).getD 0 else b.toNat
        { grp := f.grp, op := id, ops := ranked.map (·.2), tile := ((s.group? f.grp).map fun g => g.tmap.getD d.toNat 0).getD 0,
          ltile := d.toNat, rows := ranked.map row, signers := ranked.map (·.1), fmt := fmt, x := x, sc := sc, s32 := s32,
          reuse := reuse, fr := fr, spSrc := spSrc, src := src }

/-! ## Operand A -/

/-- The integer value of an element (R27). -/
def intVal (t : Fmt) (v : Nat) : Int :=
  match t with
  | .uint4 | .uint8 => v
  | t => exact true t.bits v
/-- A row's two blocks (R182): converted, or for .s32 the elements' integer values. -/
def rowBlocks (j : MmaJob) (r : List Word × List Byte × List (Nat × Nat)) : BfpBlock × BfpBlock :=
  let all := leNat (wordBytes r.1)
  let els := (List.range 64).map fun i => if r.2.2.any (·.1 == i) then 0 else streamAt j.fmt.bits all i
  let block := fun (b : Nat) =>
    let e := (els.drop (32 * b)).take 32
    if j.s32 then ⟨127, e.map (intVal j.fmt), 0, false, false⟩
    else if r.2.2.any (·.1 == 64 + b) then zeroBlock
    else convertBlock j.fmt j.x (r.2.1.getD b 127).toNat e
  (block 0, block 1)
/-- The A operand of an MMA: the rows of its group's open chain, or its signers' rows; and the chain afterwards. The last
component says whether the rows were converted now. -/
def State.operandA (s : State) (j : MmaJob) : Chain × Option Chain × List (BfpBlock × BfpBlock) :=
  let fresh := fun (_ : Unit) =>
    let blocks := j.rows.map (rowBlocks j)
    let lost := (j.rows.zip j.signers).mapIdx fun i r => r.1.2.2.map fun e =>
      (i, (if e.1 ≥ 64 then 32 * (e.1 - 64) else e.1), ((s.fibre? r.2).map (·.fid)).getD 0xFFFF, e.2)
    let c : Chain :=
      { tile := j.tile, fmt := j.fmt, x := j.x, sc := j.sc, s32 := j.s32,
        rows := blocks.map fun p => (p.1.e, p.2.e, p.1.ms, p.2.ms), bad := lost.flatten }
    (c, (if j.reuse then some c else none), blocks)
  match (s.group? j.grp).bind (·.chain) with
  | some c => if c.key == j.key then (c, (if j.reuse then some c else none), []) else fresh ()
  | none => fresh ()

/-! ## Operand B -/

/-- A B record: its blocks per column, and the substituted elements as K, column and byte offset in the record (R179). Mantissas are
signed, but for the UINT formats under .s32, whose values are zero-extended (R27). DESIGN CHOICE: an erroneous exponent byte under .s32,
where exponents play no part, leaves the mantissas in and still counts as a substitution (log 33). -/
def recordBlocks (signed : Bool) (w : Nat) (rec : List Byte) (bad : List (Nat × Nat)) :
    List ((Nat × List Int) × (Nat × List Int)) × List (Nat × Nat × Nat) :=
  let cols := parts (8 * w) 512 (rec.drop 1024)
  let exps := parts 2 512 (rec.take 1024)
  let one := fun (j : Nat) (c : List Byte × List Byte) =>
    let els := elemsOf w 64 (8 * 1024 + 64 * w * j) bad (leNat c.1)
    let ebad := fun (b : Nat) => bitsBad bad (8 * (2 * j + b)) 8
    let e := fun (b : Nat) => if ebad b then 0 else (c.2.getD b 0).toNat
    let ms := els.map fun v => exact signed w v.1
    (((e 0, ms.take 32), (e 1, ms.drop 32)),
     ((els.mapIdx fun i v => (i, v.2)).filterMap fun v => if v.2 then some (v.1, j, 1024 + 8 * w * j + w * v.1 / 8) else none) ++
       ((List.range 2).filter ebad).map fun b => (32 * b, j, 2 * j + b))
  let r := (cols.zip exps).mapIdx one
  (r.map (·.1), if bad.isEmpty then [] else r.flatMap (·.2))
/-- The queue entry an MMA takes (R183); none while it must wait. -/
def MmaJob.entry (j : MmaJob) (q : OQueue) : Option (Nat × Slot) :=
  let free := (q.slots.mapIdx fun i e => (i, e)).filter fun p => p.2.state == .filling || p.2.state == .full
  if j.fr then (free.filter fun p => p.2.state == .full).foldl (fun b p =>
      match b with
      | some y => if p.2.landed < y.2.landed then some p else some y
      | none => some p) none
  else match free.head? with
    | some p => if p.2.state == .full then some p else none
    | none => none
/-- What an MMA finds as its B operand. -/
inductive BSource where
  | wait
  | fault
  | got (status : Word) (rec : List Byte) (bad : List (Nat × Nat)) (index : Nat → Nat) (s : State)
/-- Whether every access that the signers issued before their signatures is complete (R201). -/
def State.signersDone (s : State) (j : MmaJob) : Bool := j.ops.all fun op => ((s.op? op).map s.olderDone).getD true
/-- The record of an MMA: its queue entry, taken; or its scratchpad record once no undo entry lies in it (R179, R288). -/
def State.operandB (s : State) (j : MmaJob) : BSource :=
  let len := recordBytes (convertedWidth j.fmt j.x)
  if j.spSrc then
    match j.signers.head?.bind s.fibre? with
    | none => .fault
    | some f =>
      if j.src % 8 != 0 || !s.spadOk f j.src len then .fault
      else if !s.signersDone j || (List.range (len / 4096 + 1)).any fun p => s.pieceBlocked s.fibres.length f .sp (j.src + 4096 * p) (min 4096 (len - 4096 * p)) then .wait
      else match s.readBlank (some j.op) f 0 .sp j.src len with
        | (.ok (bs, bad), t) => .got 0 bs (unitBits bad) (fun off => match (s.find f .sp (j.src + off) 1 .read).1 with
            | .at_ loc => loc % 2 ^ 21
            | _ => 0) t
        | _ => .fault
  else
    match s.oq? j.grp j.src with
    | none => .wait
    | some q =>
      match j.entry q with
      | none => .wait
      | some (i, e) =>
        .got e.status e.payload e.bad (s.queueIndex j.grp j.src q e) (s.modOq j.grp j.src fun q => { q with slots := q.slots.eraseIdx i })

/-- An ordered MMA at the head of the array's queue holds the oldest entry of its queue while that fills (R183). -/
def State.keepEntry (s : State) (j : MmaJob) : State :=
  if j.spSrc || j.fr then s
  else s.modOq j.grp j.src fun q =>
    match firstIdx (fun e => e.state == .filling || e.state == .full) q.slots 0 with
    | some (i, _) => { q with slots := q.slots.modify i fun e => { e with kept := true } }
    | none => q

/-! ## The computation -/

/-- One output element: block 0, then block 1 (R25 to R27). -/
def mmaElem (s32 : Bool) (w : Nat) (a b : (Nat × List Int) × (Nat × List Int)) (d : Word) : Word × Bool :=
  if s32 then
    let x := accumulate32 d (dot a.1.2 b.1.2)
    let y := accumulate32 x.1 (dot a.2.2 b.2.2)
    (y.1, x.2 || y.2)
  else
    let x := accumulate d.toNat (partial_ w a.1.1 a.1.2 b.1.1 b.1.2)
    (w32 (accumulate x (partial_ w a.2.1 a.2.2 b.2.1 b.2.2)), false)
/-- D after an MMA, and whether an s32 sum saturated. Rows that no signer supplied are zero blocks. -/
def mmaRows (s32 : Bool) (w : Nat) (a : List (Nat × Nat × List Int × List Int)) (cols : List ((Nat × List Int) × (Nat × List Int)))
    (d : List (List Word)) : List (List Word) × Bool :=
  let r := d.mapIdx fun i row =>
    let x := a.getD i (0, 0, List.replicate 32 0, List.replicate 32 0)
    List.zipWith (fun b v => mmaElem s32 w ((x.1, x.2.2.1), (x.2.1, x.2.2.2)) b v) cols row
  (r.map fun row => row.map (·.1), r.any fun row => row.any (·.2))
/-- Records of substituted elements (R163, R209). -/
def State.logSubst (s : State) (core rgi : Nat) (a : List (Nat × Nat × Nat × Nat)) (aUnit : Nat) (b : List (Nat × Nat × Nat)) (bUnit : Nat)
    (index : Nat → Nat) : State :=
  let s := a.foldl (fun s e => s.logCore core (e.1 <<< 16 ||| e.2.1) e.2.2.2 aUnit 2 rgi e.2.2.1) s
  b.foldl (fun s e => s.logCore core (e.1 <<< 16 ||| e.2.1) (index e.2.2) bUnit 2 rgi 0xFFFF) s
/-- Whether an older accumulator word still holds a tile (R159). -/
def State.accOlder (s : State) (core tile op : Nat) : Bool :=
  s.ops.any fun o => o.id < op && o.done.isNone && ((s.group? o.grp).map Group.coreIx) == some core && match o.body with
    | .acc (.zero t) => t == tile
    | .acc (.read t _ _ _) => t == tile
    | .acc (.move a) => a.tile == tile
    | _ => false
/-- An MMA whose A and B stand computes (R182). -/
def State.compute (s : State) (core : Nat) (j : MmaJob) (b : BSource) : State × Status :=
  let (a, chain, conv) := s.operandA j
  let rgi := ((s.group? j.grp).map (·.rgi)).getD 0
  let latched := conv.isEmpty
  -- conversion events of a row go to its signer
  let s := ((j.signers.zip j.ops).zip conv).foldl (fun s p =>
    if (s.op? p.1.2).isSome then s.modFibre p.1.1 fun f =>
      f.mxEvents (p.2.1.ufc + p.2.2.ufc) false (p.2.1.eovf || p.2.2.eovf) (p.2.1.sat || p.2.2.sat) else s) s
  let s := s.modGroup j.grp fun g => { g with chain := chain }
  match b with
  | .wait | .fault => (s, .fault)
  | .got status rec bad index s' =>
    let s : State := { s' with fibres := s.fibres, groups := s'.groups.modify j.grp fun g => { g with chain := chain } }
    let code := bitsOf status.toNat 2 0
    if code = 1 || code = 7 || code = 5 then (s, statusOf code)
    else
      let w := convertedWidth j.fmt j.x
      let (cols, lost) := recordBlocks (!(j.s32 && (j.fmt == .uint4 || j.fmt == .uint8))) w rec bad
      let (rows, sat) := mmaRows j.s32 w a.rows cols (s.tileRows core j.tile)
      let tileLost := s.tileLost core j.tile
      let s := s.setTile core j.tile rows
      let s := (s.logSubst core rgi a.bad (if latched then 6 else 0) lost (if j.spSrc then 1 else 4) index).logTile core rgi tileLost
      let derr := !a.bad.isEmpty || !lost.isEmpty || !tileLost.isEmpty || code = 6
      let s := (j.signers.zip j.ops).foldl (fun s p =>
        if (s.op? p.2).isSome then s.modFibre p.1 fun f =>
          f.mxEvents (bitsOf status.toNat 31 16) derr (status.getLsbD 4) (sat || status.getLsbD 3) else s) s
      (s, if derr then .dataerr else .ok)
/-- MMA_START: the oldest waiting MMA starts once the array is free, its B record stands and its tile is free. -/
def execMmaStart (core : Nat) (s : State) : Host.Outcome State Fault Refusal :=
  .next <| match (s.core core).mmaq with
  | [] => s
  | j :: rest =>
    if (s.core core).running.isSome || (s.core core).dead || s.accOlder core j.tile j.op then s
    else match s.operandB j with
      | .wait => s.keepEntry j
      | b =>
        let (s, st) := s.compute core j b
        (s.modCore core fun c => { c with mmaq := rest, running := some (j, st) }).leaveRound j
/-- MMA_COMPLETE: the running MMA retires for every signer. -/
def execMmaComplete (core : Nat) (s : State) : Host.Outcome State Fault Refusal :=
  .next <| match (s.core core).running with
  | none => s
  | some (j, st) => j.ops.foldl (fun s op => s.finishOp op st) (s.modCore core fun c => { c with running := none })

/-! ## Accumulator words (R184) -/

/-- The physical tile a word names. -/
def State.physTile (s : State) (f : Fibre) (d : Reg) : Nat := ((s.group? f.grp).map fun g => g.tmap.getD d.toNat 0).getD 0
/-- An accumulator word that counts in %oc.mx. DEDUCED: a transfer, which may make a record, waits as a memory word does while the fibre's
accesses and its list come to 8, so that the list does not overflow (R165, log 16). -/
def State.accWord (s : State) (k : Nat) (f f' : Fibre) (i : Instr) (w : AccWork) : State :=
  let r := s.launchOp k f' .mx none (.acc w) (s.ordAt f f.rp)
  r.2.2.finish k i f r.2.1
def execAccz (h : Head) (d : Reg) (s : State) : Host.Outcome State Fault Refusal :=
  let i := Instr.accz h d
  issueWord i s fun k f =>
    if f.isHelper then s.finish k i f f
    else if f.tainted then s.stallTag k f
    else if f.counterFull .mx then s.waitFor k f .full
    else s.accWord k f f i (.zero (s.physTile f d))
def execAccld (h : Head) (d a : Reg) (spc : Space) (s : State) : Host.Outcome State Fault Refusal :=
  let i := Instr.accld h d a spc
  issueWord i s fun k f =>
    if f.isHelper then s.finish k i f f
    else if f.tainted then s.stallTag k f
    else if f.counterFull .mx then s.waitFor k f .full
    else if !s.accessRoom k f then s.waitFor k f .memory
    else
      let base := w64 (f.base k spc a)
      s.accWord k f f i (.move { (default : Access) with
        kind := .accld, space := spc, addr := base, size := 1, base := base, tile := s.physTile f d, row := 0, fmt := .f32 })
def execAccst (h : Head) (d a b : Reg) (rnd : Rnd) (spc : Space) (adj : Bool) (fmt : Fmt) (s : State) : Host.Outcome State Fault Refusal :=
  let i := Instr.accst h d a b rnd spc adj fmt
  issueWord i s fun k f =>
    if f.isHelper then s.finish k i f f
    else if f.tainted then s.stallTag k f
    else if f.counterFull .mx then s.waitFor k f .full
    else if !s.accessRoom k f then s.waitFor k f .memory
    else s.withNoise k f (if fmt = .f32 then 0 else srDraws rnd 65536) false fun ns s f' =>
      let base := w64 (f.base k spc a)
      s.accWord k f f' i (.move { (default : Access) with
        kind := .accst, space := spc, addr := base, size := 1, base := base, tile := s.physTile f d, row := 0, fmt := fmt, rnd := rnd,
        adj := adj, exps := if fmt = .f32 then 0 else w64 (f.base k spc b), noise := ns.map (BitVec.ofNat 16) })
def execAccrd (h : Head) (d a b : Reg) (s : State) : Host.Outcome State Fault Refusal :=
  let i := Instr.accrd h d a b
  issueWord i s fun k f =>
    let v := (f.read k b.toNat).toNat
    let r := s.launchOp k f .none none (.acc (.read (s.physTile f a) (bitsOf v 22 16) (bitsOf v 8 5) (some d.toNat))) (s.ordAt f f.rp)
    r.2.2.finish k i f r.2.1

/-! ## Transfers -/

/-- The first failure of n bytes at an address, page by page. -/
def State.rangeFault (s : State) (f : Fibre) (sp : Space) (acc : Acc) : Nat → Nat → Nat → Option MemKind × State
  | 0, _, _ => (none, s)
  | fuel + 1, addr, n =>
    if n = 0 then (none, s)
    else
      let m := s.pageRun f addr n
      match s.findNow f sp addr m acc with
      | (.at_ loc, s) => if acc == .read && s.poisonedAt loc m then (some .dataError, s) else State.rangeFault s f sp acc fuel (addr + m) (n - m)
      | (.bad k, s) => (some k, s)
      | (_, s) =>
        match s.answerFault f addr m (acc != .read) with
        | some k => (some k, s)
        | none => State.rangeFault s f sp acc fuel (addr + m) (n - m)
/-- What one row of a transfer reads or writes: address and length of each part; for ACCST the bytes, and the events. -/
structure RowMove where
  bits : List (Nat × List Byte)
  eovf : Bool := false
  sat  : Bool := false
/-- Row r of an ACCST as bytes (R184). -/
def storeRow (a : Access) (key : Nat) (row : List Word) : RowMove :=
  let base := a.base.toNat
  if a.fmt = .f32 then { bits := [(base + 2048 * a.row, wordBytes row)] }
  else
    let w := a.fmt.width
    let noise := a.noise.drop (512 * a.row) |>.map (·.toNat)
    let blocks := (List.range 16).map fun b =>
      quantise w a.rnd a.adj (((row.drop (32 * b)).take 32).map (·.toNat)) ((noise.drop (32 * b)).take 32)
    let at_ := a.exps.toNat + 16 * a.row
    { bits := [(base + 64 * w * a.row, (blocks.mapIdx fun i b => b.bytes w (key * 2048 + 16 * a.row + i)).flatten),
               (at_, blocks.map fun b => BitVec.ofNat 8 b.e), (at_ + 2048, blocks.map fun b => BitVec.ofNat 8 b.ufc)],
      eovf := blocks.any (·.eovf), sat := blocks.any (·.sat) }
/-- The first part of a row that fails. -/
def State.partsFault (s : State) (f : Fibre) (sp : Space) (acc : Acc) : List (Nat × Nat) → Option (Nat × MemKind) × State
  | [] => (none, s)
  | (addr, n) :: l =>
    match s.rangeFault f sp acc (n / 4096 + 2) addr n with
    | (some k, s) => (some (addr, k), s)
    | (none, s) => State.partsFault s f sp acc l
/-- Whether every part of a row is at hand (R189). -/
def State.partsAtHand (s : State) (id : Nat) (f : Fibre) (sp : Space) (write : Bool) : List (Nat × List Byte) → Bool × State
  | [] => (true, s)
  | (addr, bs) :: l =>
    let (here, s) := s.atHand id f sp addr bs.length (if write then some bs else none)
    let (rest, s) := State.partsAtHand s id f sp write l
    (here && rest, s)
/-- The rows of a transfer from `a.row` on, in order. It stops at the first row that fails, with its record (R184), and waits with no
status at one that another package has still to bring or take. -/
def State.moveRows (s : State) (o : Op) (f : Fibre) (core : Nat) : Nat → Access → Option Status × State
  | 0, _ => (some .ok, s)
  | fuel + 1, a =>
    let wait := fun (s : State) => ((none, s.modOp o.id fun x => { x with body := .acc (.move a) }) : Option Status × State)
    if a.row ≥ 128 then (some .ok, s)
    else if a.kind = .accld then
      let addr := a.base.toNat + 2048 * a.row
      let (here, s) := s.partsAtHand o.id f a.space false [(addr, List.replicate 2048 0)]
      if !here then wait s else
      match s.partsFault f a.space .read [(addr, 2048)] with
      | (some (x, k), s) =>
        let s := s.setTile core a.tile ((s.tileRows core a.tile).take a.row ++ List.replicate (128 - a.row) (List.replicate 512 0))
        (some .fault, s.recordFault o.fib { a with addr := w64 x } k o.seat)
      | (none, s) =>
        match s.engineRead (some o.id) f a.space addr 2048 with
        | (.ok bs, s) =>
          let s := s.watchOp o a.space addr 2048 true
          State.moveRows (s.setTileRow core a.tile a.row (leWords 512 bs)) o f core fuel { a with row := a.row + 1 }
        | (.error st, s) => (some st, s)
    else
      let m := storeRow a o.id ((s.tileRows core a.tile).getD a.row [])
      let (here, s) := s.partsAtHand o.id f a.space true m.bits
      if !here then wait s else
      match s.partsFault f a.space .write (m.bits.map fun p => (p.1, p.2.length)) with
      | (some (x, k), s) => (some .fault, s.recordFault o.fib { a with addr := w64 x } k o.seat)
      | (none, s) =>
        let s := m.bits.foldl (fun s p => (s.engineWrite o.fib f (some o) a.space false p.1 p.2).2) s
        let s := m.bits.foldl (fun s p => s.watchOp o a.space p.1 p.2.length true) s
        let lost := (s.tileLost core a.tile).filter fun e => e / 512 == a.row
        let s := s.logTile core (((s.group? o.grp).map (·.rgi)).getD 0) lost
        let s := s.modFibre o.fib fun f => f.mxEvents 0 (!lost.isEmpty) m.eovf m.sat
        State.moveRows s o f core fuel { a with row := a.row + 1 }
/-- A whole transfer: a misaligned base stops it before its first row. -/
def State.moveTile (s : State) (o : Op) (f : Fibre) (core : Nat) (a : Access) : Option Status × State :=
  if a.base.toNat % 16 != 0 then (some .fault, s.recordFault o.fib { a with addr := a.base } .misaligned o.seat)
  else if a.exps.toNat % 16 != 0 then (some .fault, s.recordFault o.fib { a with addr := a.exps } .misaligned o.seat)
  else s.moveRows o f core 129 a
/-- Whether other fibres' undo entries keep a transfer waiting (R288). -/
def State.moveBlocked (s : State) (o : Op) (f : Fibre) (a : Access) : Bool :=
  let n := if a.fmt = .f32 then 262144 else 64 * 128 * a.fmt.width
  a.space == .sp && ((List.range (n / 4096)).any (fun p => s.pieceBlocked o.fib f .sp (a.base.toNat + 4096 * p) 4096) ||
    (a.fmt != .f32 && s.pieceBlocked o.fib f .sp a.exps.toNat 4096))
/-- ACC_TRANSFER_COMPLETE: an accumulator word acts once no older MMA or accumulator word holds its tile. -/
def execAccTransferComplete (op : Nat) (s : State) : Host.Outcome State Fault Refusal :=
  .next <| match s.op? op with
  | none => s
  | some o =>
    match o.body, s.fibre? o.fib, (s.group? o.grp).map Group.coreIx with
    | .acc w, some f, some core =>
      let tile := match w with | .zero t => t | .read t _ _ _ => t | .move a => a.tile
      let c := s.core core
      let mmas := c.mmaq ++ (match c.running with | some r => [r.1] | none => [])
      if o.done.isSome || c.dead || s.accOlder core tile op || mmas.any fun j => j.tile == tile && j.op < op then s
      else match w with
        | .zero t => (s.setTile core t (List.replicate 128 (List.replicate 512 0))).finishOp op .ok
        | .read t r b d =>
          let ws := (((s.tileRows core t).getD r []).drop (32 * b)).take 32
          let lost := (s.tileLost core t).filter fun e => e / 32 == 16 * r + b
          let s := s.logTile core (((s.group? o.grp).map (·.rgi)).getD 0) lost
          let s := if o.gone || lost.isEmpty then s else s.modFibre o.fib fun f => f.mxEvents 0 true false false
          let s := match d with
            | some d => if o.gone then s else s.modFibre o.fib fun f => f.setRun d ws
            | none => s
          s.finishOp op .ok
        | .move a =>
          if s.moveBlocked o f a || !s.olderDone o then s
          else match s.moveTile o f core a with
            | (some st, s) => s.finishOp op st
            | (none, s) => s
    | _, _, _ => s

end Sys2Proof.Machine
end

