-- ==== Sys2Proof/Machine/QueueWords.lean ====
section
/-! DEFINITION. Task queues, dependence counters, triggers, beats and event records: the words (R224 to R237) and the
events at the homes (R216 to R223, R228, R229). -/

namespace Sys2Proof.Machine

/-! ## Shared -/

/-- The unconfigured-queue trap (R226). -/
def State.queueTrap (s : State) (k : Nat) (f : Fibre) (i : Instr) (q : Nat) : State :=
  let w := s.issuedWords f i
  s.userTrap k { f.xr with opc := w.1, opd := w32 q, opi := w.2, cls := 0x1A } f.rp false
/-- An effect held while tainted, or performed at once (R225). -/
def State.holdOr (s : State) (k : Nat) (f : Fibre) (i : Instr) (e : HeldEff) (now : State) : State :=
  if f.isHelper then s.finish k i f f
  else if f.tainted then
    match s.hold f e (s.ordAt f f.rp) with
    | some f1 => s.finish k i f f1
    | none => s.stallTag k f
  else now
/-- The fibre's group is a registered consumer (R218). -/
def Queue.register (q : Queue) (g : Nat) : Queue := if q.consumers.contains g then q else { q with consumers := q.consumers ++ [g] }

/-! ## Words -/

/-- Words 6 and 7 of a pushed entry, and its payload (R227). -/
def pushWords (payload : List Word) (task : Word) (prio : BitVec 8) : List Word :=
  (payload ++ List.replicate 6 0).take 6 ++ [task, prio.setWidth 32 <<< 24]
def execQpush (h : Head) (d a b : Reg) (prio : BitVec 8) (t : Bool) (n : BitVec 3) (s : State) : Host.Outcome State Fault Refusal :=
  let i := Instr.qpush h d a b prio t n
  issueWord i s fun k f =>
    let job := s.jobOf f
    let die := (s.site f).die
    match s.queue? job d.toNat with
    | none => s.queueTrap k f i d.toNat
    | some q =>
      if !q.en then s.queueTrap k f i d.toNat
      else if f.isHelper then s.finish k i f f
      else if !q.hasRoom die then s.waitFor k f .queue
      else if !f.taint.all (fun e => s.mayJoin e.1 q.home.1 q.homeDie) then s.stallTag k f
      else
        let e : QEntry := ⟨pushWords (f.readRun k a.toNat (n.toNat + 1)) (if t then f.read k b.toNat else 0) prio, some (k, f.wseq),
          f.taint.map fun e => (e.1, e.2 + 1), 0, s.sourceOf f, false, none, [⟨scopeOf q.scope, s.locus f, f.seen⟩], s.loadsOut k⟩
        let s := f.taint.foldl (fun s e => s.joinSet e.1 q.home.1 q.homeDie) (s.modQueue job d.toNat fun q => q.takeRoom die)
        let s := if q.home.1 == Config.pkgNumber && q.homeDie == die then s else s.countSent die job
        (s.sendMsg k f (.push d.toNat e die)).finish k i f { f with wseq := f.wseq + 1 }
/-- QPOP: the group registers and the fibre waits; QPOP_RETURN gives it its entry. -/
def execQpop (h : Head) (d a : Reg) (n : BitVec 3) (s : State) : Host.Outcome State Fault Refusal :=
  let i := Instr.qpop h d a n
  issueWord i s fun k f =>
    let job := s.jobOf f
    let cnt := n.toNat + 1
    if !s.configured job a.toNat then s.queueTrap k f i a.toNat
    else if f.isHelper then s.finish k i f (f.setRun d.toNat (List.replicate cnt 0))
    else
      let s := s.modQueue job a.toNat fun q =>
        { q.register f.grp with waiters := if q.waiters.contains k then q.waiters else q.waiters ++ [k] }
      s.beginWait k i f f (.qpop a.toNat cnt d.toNat)

/-- What the entry first in order meets on its way to a fibre (R229 steps 3 to 5). -/
inductive PopStep where
  | empty
  | drain
  | tag
  | ready (i : Nat) (e : QEntry) (taint : List (BitVec 32 × Nat))
  deriving DecidableEq, Repr
/-- Denied entries are dropped first. An AID that would break the taint's bounds, or whose receiver set takes no further die (R282), is waited
for. What the home on another package has ready is a free value (log 2, log 18). -/
def State.popLook (s : State) (k : Nat) (f : Fibre) (job num : Nat) : PopStep × State :=
  let s := s.dropDenied job num true
  match (s.queue? job num).bind fun q => if q.home.1 == Config.pkgNumber then firstEntry q.ring 0 else
    (Config.remoteEntry s.clk num).map fun e => (q.ring.length, ⟨e.1, none, e.2, s.clk, 0, false, none, [], []⟩) with
  | none => (.empty, s)
  | some (i, e) =>
    let spec := ((s.group? f.grp).map fun g => g.spec.getLsbD 0).getD false
    if !s.drained e.stamp then (.drain, s)
    else if e.aids.isEmpty then (.ready i e f.taint, s)
    else if !spec || e.aids.any (fun a => a.2 ≥ 3) then (.tag, s)
    else match joinAids f.taint e.aids with
      | none => (.tag, s)
      | some t =>
        if e.aids.all fun a => s.mayJoin a.1 Config.pkgNumber (s.site f).die then
          (.ready i e t, e.aids.foldl (fun s a => s.joinSet a.1 Config.pkgNumber (s.site f).die) s)
        else (.tag, s)
/-- A pop acquires at its queue's scope: what its producer had seen and the writes of its stamp (R204), or what the decrements of its
counter released (R220). -/
def State.acquireEntry (s : State) (f : Fibre) (job num : Nat) (e : QEntry) : Fibre :=
  let sc := s.queueScope job num
  let f := f.join (acquired e.view sc (s.locus f))
  match e.stamp with
  | some (k, n) => f.join ((s.past.filter fun p =>
      p.fib == k && p.op.isNone && p.seq ≤ n && mutuallyScoped sc p.who sc (s.locus f)).map (·.id))
  | none => f
/-- The fibre with the AIDs joined; its checkpoint is taken at `at_` where the taint was empty, and one left from a word that
joined nothing goes. -/
def State.joinTaint (s : State) (f : Fibre) (t : List (BitVec 32 × Nat)) (at_ : RP) : Fibre :=
  if t.isEmpty then { f with ckpt := none } else { s.ensureCkpt f at_ with taint := t }
/-- Whether a join must first wait for its checkpoint to be written out (R143, R286). -/
def State.ckptWaits (s : State) (f : Fibre) (t : List (BitVec 32 × Nat)) (at_ : RP) : Bool :=
  !t.isEmpty && (s.ensureCkpt f at_).ckptStalls

def execQpeek (h : Head) (d a c : Reg) (n : BitVec 3) (s : State) : Host.Outcome State Fault Refusal :=
  let i := Instr.qpeek h d a c n
  issueWord i s fun k f =>
    let job := s.jobOf f
    let cnt := n.toNat + 1
    if !s.configured job a.toNat then s.queueTrap k f i a.toNat
    else if f.isHelper then s.finish k i f ((f.setRun d.toNat (List.replicate cnt 0)).setPred c.toNat false)
    else match (s.modQueue job a.toNat fun q => q.register f.grp).popLook k f job a.toNat with
      | (.empty, s) => s.finish k i f ((f.setRun d.toNat (List.replicate cnt 0)).setPred c.toNat false)
      | (.drain, s) => s.waitFor k f .queue
      | (.tag, s) => s.stallTag k f
      | (.ready _ e t, s) =>
        if s.ckptWaits f t f.rp then s.setFibre k (s.ensureCkpt f f.rp)
        else s.finish k i f (((s.joinTaint (s.acquireEntry f job a.toNat e) t f.rp).setRun d.toNat (e.words.take cnt)).setPred c.toNat true)
def execQcnt (h : Head) (d a : Reg) (s : State) : Host.Outcome State Fault Refusal :=
  let i := Instr.qcnt h d a
  issueWord i s fun k f =>
    match s.queue? (s.jobOf f) a.toNat with
    | none => s.queueTrap k f i a.toNat
    | some q =>
      if !q.en then s.queueTrap k f i a.toNat
      else
        let n := if q.home.1 == Config.pkgNumber then w32 (q.ring.length + q.ext.length) else Config.remoteCount s.clk a.toNat
        s.finish k i f (f.setReg d.toNat n)
def execDcarm (h : Head) (a b c q : Reg) (s : State) : Host.Outcome State Fault Refusal :=
  let i := Instr.dcarm h a b c q
  issueWord i s fun k f =>
    let id := f.read k a.toNat
    let cnt := f.read k b.toNat
    let succ := f.readRun k c.toNat 8
    s.holdOr k f i (.dcarm id cnt succ q.toNat) ((s.sendMsg k f (.dcarm id cnt succ q.toNat)).finish k i f { f with wseq := f.wseq + 1 })
def execDcdec (h : Head) (a : Reg) (s : State) : Host.Outcome State Fault Refusal :=
  let i := Instr.dcdec h a
  issueWord i s fun k f =>
    s.holdOr k f i (.dcdec (f.read k a.toNat)) ((s.sendMsg k f (.dcdec (f.read k a.toNat))).finish k i f { f with wseq := f.wseq + 1 })
/-- TRIG: the release first, then the fibre counts; a second one does nothing (R205, R234). -/
def execTrig (h : Head) (s : State) : Host.Outcome State Fault Refusal :=
  let i := Instr.trig h
  issueWord i s fun k f =>
    if f.trigd || f.held.any (fun h => h.eff == .trig) then s.finish k i f f
    else s.holdOr k f i .trig (if !s.accessesDone k f then s.waitFor k f .trig
      else (s.publish (.job (s.jobOf f)) f.seen).finish k i f { f with trigd := true })
/-- Whether every group of a job has been placed: here, or on another package by its dies' reports. -/
def State.allPlaced (s : State) (j : Nat) : Bool :=
  ((s.job? j).map fun x => decide (x.groups ≤ (s.jobGroups j).length + (x.peers.map fun p => p.gids.length).sum)).getD true
/-- What a DWAIT finds (R221): none while it waits. -/
def State.producerDone (s : State) (p : Nat) : Option Word :=
  match s.job? p with
  | none => some 0
  | some j =>
    if j.hung || (j.status.map (· != .ok)).getD false then some 1
    else if j.status.isSome then some 0
    else if s.allPlaced p && (s.jobGroups p).all (fun g => (s.members g.1).all fun m => m.2.isHelper || m.2.run == .ended || m.2.trigd) then some 0
    else none
def execDwait (h : Head) (d : Reg) (s : State) : Host.Outcome State Fault Refusal :=
  let i := Instr.dwait h d
  issueWord i s fun k f =>
    let p := ((s.job? (s.jobOf f)).map (·.producer)).getD 0
    match s.producerDone p with
    | some v => s.finish k i f ((s.acquire (.job p) f).setReg d.toNat v)
    | none => s.waitFor k f .dwait
def execBeat (h : Head) (s : State) : Host.Outcome State Fault Refusal :=
  let i := Instr.beat h
  issueWord i s fun k f =>
    (if f.isHelper then s else s.modGroup f.grp fun g => { g with beat := s.clk }).finish k i f f
/-- EVPOST: a control core's own record finds no room and is dropped (R211). -/
def execEvpost (h : Head) (a : Reg) (s : State) : Host.Outcome State Fault Refusal :=
  let i := Instr.evpost h a
  issueWord i s fun k f =>
    let clu := (s.site f).cluIx
    s.holdOr k f i (.evpost (f.read k a.toNat))
      (if s.eventRoom clu then (s.postFibre f (f.read k a.toNat).toNat 0x0B .ok .none).finish k i f f
       else if f.isControl then (s.modCluster clu fun c => { c with cevdrop := satInc c.cevdrop }).finish k i f f
       else s.waitFor k f .queue)
def execEvpop (h : Head) (d : Reg) (nb : Bool) (s : State) : Host.Outcome State Fault Refusal :=
  let i := Instr.evpop h d nb
  issueWord i s fun k f =>
    let clu := (s.site f).cluIx
    match (s.cluster clu).events with
    | r :: rest => (s.modCluster clu fun c => { c with events := rest }).finish k i f (f.setRun d.toNat ((List.range 4).map (quarter r)))
    | [] => if nb then s.finish k i f (f.setRun d.toNat [0, 0, 0, 0]) else s.waitFor k f .queue

/-! ## QUEUE_ENTRY_ARRIVE (R216, R227) -/

/-- Whether an older message of the same fibre to the same place is still on its way. -/
def State.msgBehind (s : State) (m : Msg) (same : MsgBody → Bool) : Bool := s.msgs.any fun x => x.fib == m.fib && decide (x.stamp < m.stamp) && same x.body
def execQueueEntryArrive (msg : Nat) (s : State) : Host.Outcome State Fault Refusal :=
  .next <| match s.msg? msg with
  | none => s
  | some m =>
    match m.body with
    | .push num e fromDie =>
      if s.msgBehind m (fun b => match b with | .push q _ _ => q == num | _ => false) then s
      else match s.queue? m.job num with
        | none => s
        | some q =>
          if q.home.1 == Config.pkgNumber then
            let s := if fromDie == q.homeDie then s else s.countRecvd q.homeDie m.job
            ((s.modQueue m.job num fun q => { q with inFlight := q.inFlight - 1 }).releaseEntry m.job num ⟨q.homeDie, q.homeClu % 8, 8⟩ (s.arriving q.homeDie e)).dropMsg msg
          else if !s.drained e.stamp then s
          else match s.fibre? m.fib with
            | none => s
            | some f => (s.pushAway (s.site f) (s.master f) q e).dropMsg msg
    | _ => s

/-! ## QPOP_RETURN (R229) -/

/-- The fibre whose turn it is among those that wait in QPOP on a queue; it keeps it while its checkpoint is written out (R143). -/
def State.firstWaiter (s : State) (q : Queue) : Option Nat :=
  q.waiters.find? fun k => ((s.fibre? k).map fun f => f.run != .stopped).getD false
/-- The entry goes to the fibre: taken tentatively while it is tainted (R290), else popped. -/
def State.givePop (s : State) (k : Nat) (f : Fibre) (job num n d i : Nat) (e : QEntry) (t : List (BitVec 32 × Nat)) : State :=
  let f1 := ((s.joinTaint (s.acquireEntry f job num e) t f.rp).takeWords d (e.words.take n) []).leaveWait 2
  let s := (s.setFibre k f1).modQueue job num fun q => { q with waiters := q.waiters.filter (· != k) }
  let away := ((s.queue? job num).map fun q => q.home.1 != Config.pkgNumber).getD false
  if t.isEmpty then (if away then s.modFibre k fun f => f.serve num e else s.popEntry job num i k e)
  else
    let (n, s) := s.fresh
    s.modQueue job num fun q => { q with ring := if away then q.ring ++ [{ e with takenBy := some (k, n) }]
                                                 else q.ring.modify i fun e => { e with takenBy := some (k, n) } }
def execQpopReturn (fib : Nat) (s : State) : Host.Outcome State Fault Refusal :=
  .next <| match s.fibre? fib with
  | none => s
  | some f =>
    match f.run, f.wait with
    | .waiting _, some (.qpop num n d) =>
      let job := s.jobOf f
      let still := fun (s : State) (w : Why) => s.modFibre fib fun f => { f with run := .waiting w }
      if ((s.queue? job num).bind s.firstWaiter) != some fib then s
      else match s.popLook fib f job num with
        | (.ready i e t, s) =>
          if s.ckptWaits f t f.rp then s.setFibre fib (s.ensureCkpt f f.rp) else s.givePop fib f job num n d i e t
        | (.tag, s) => still s .tag
        | (_, s) => still s .queue
    | _, _ => s

/-! ## Counters (DCARM_ARRIVE, DCDEC_ARRIVE) -/

/-- Whether a counter word must still wait behind earlier ones of its fibre, on their way or still to be released: those to counters of its
cluster, and where it would release a successor every one (R233, R238). -/
def State.counterBehind (s : State) (m : Msg) (clu : Nat) : Bool :=
  let all := s.releases m.job m.body
  (s.msgBehind m fun b => match b with
    | .dcarm x _ _ _ => all || counterClu x == clu
    | .dcdec x => all || counterClu x == clu
    | _ => false) ||
  ((s.fibre? m.fib).map fun f => f.releasing.any fun h => decide (h.wseq ≤ m.stamp) && match h.eff with
    | .dcarm x _ _ _ => all || counterClu x == clu
    | .dcdec x => all || counterClu x == clu
    | _ => false).getD false
def execDcarmArrive (msg : Nat) (s : State) : Host.Outcome State Fault Refusal :=
  .next <| match s.msg? msg with
  | none => s
  | some m =>
    match m.body with
    | .dcarm id n succ q =>
      if m.dead || s.counterBehind m (counterClu id) then s else s.counterWord m id (s.armCounter m.job id n succ q)
    | _ => s
/-- DCDEC is performed once every write its fibre issued before it has been (R220). -/
def execDcdecArrive (msg : Nat) (s : State) : Host.Outcome State Fault Refusal :=
  .next <| match s.msg? msg with
  | none => s
  | some m =>
    match m.body with
    | .dcdec id =>
      if m.dead || s.counterBehind m (counterClu id) || !s.drained (some (m.fib, m.stamp)) then s
      else s.counterWord m id (s.decCounter m.job id m.who (s.live (s.viewAt m.fib m.stamp m.view)))
    | _ => s

/-! ## Credits (R228) -/

/-- A home grants places to a die, named by 4 × package + die: out of its free ones, at most 64 to a die. What a home on another package
grants is for a die of this one. -/
def execQueueCreditGrant (job queue die n : Nat) (s : State) : Host.Outcome State Fault Refusal :=
  .next <| match s.queue? job queue with
  | none => s
  | some q =>
    let has := (look die q.credits).getD 0
    let home := q.home.1 == Config.pkgNumber
    if !q.en || (!home && die ≥ 4) || die ≥ 4096 || (home && (q.homeDie == die || q.free < n)) || has + n > 64 then s
    else s.modQueue job queue fun q => { q with credits := assign die (has + n) q.credits }
def execQueueCreditReturn (job queue die n : Nat) (s : State) : Host.Outcome State Fault Refusal :=
  .next <| match s.queue? job queue with
  | none => s
  | some q =>
    let has := (look die q.credits).getD 0
    if has < n then s else s.modQueue job queue fun q => { q with credits := assign die (has - n) q.credits }

/-! ## QUEUE_DEADLOCK (R218) -/

/-- Whether a fibre waits in a QPUSH to a queue: there is still no room for it. -/
def State.waitsInPush (s : State) (f : Fibre) (num : Nat) : Bool :=
  let word := fun (d : Nat) => (s.cached (s.site f).coreIx (s.jobOf f) (BitVec.ofNat 64 (f.rp.addr + 4 * d))).getD 0
  f.run == .waiting .queue && f.wait.isNone && match (decodeRaw ⟨word 0, word 1, 0⟩).instr with
    | some (.qpush _ d _ _ _ _ _) => d.toNat == num && ((s.queue? (s.jobOf f) num).map fun q => !q.hasRoom (s.site f).die).getD false
    | _ => false
def execQueueDeadlock (job queue : Nat) (s : State) : Host.Outcome State Fault Refusal :=
  .next <| match s.queue? job queue with
  | none => s
  | some q =>
    let blocked := q.consumers.all fun g => (s.members g).all fun m => m.2.isHelper || m.2.run == .ended || s.waitsInPush m.2 queue
    if q.consumers.isEmpty || !blocked || !s.allPlaced job || ((s.job? job).map fun j => j.ending.isSome || j.status.isSome).getD true then s
    else if (s.cluster q.homeClu).evWait.any fun e => e.2 == .deadlock job then s
    else s.postHw q.homeClu queue job 7 .ok (.deadlock job)

/-! ## QUIESCENCE_ROUND (R222) -/

/-- Whether an engine, collective or fabric operation is one the completion check waits for. -/
def Op.engine (o : Op) : Bool :=
  o.done.isNone && match o.body with
    | .copy _ => true
    | .gath _ => true
    | .mma => true
    | .acc (.move _) => true
    | .acc (.zero _) => true
    | .fab _ _ _ _ _ => true
    | .permit _ _ _ _ => true
    | _ => false
/-- Whether every die of a job reports itself idle: no counter word of its fibres is still on its way, and no entry waits to be requeued or
given up (R219, R220, R222, R238). -/
def State.jobIdle (s : State) (j : Nat) : Bool :=
  let gs := s.jobGroups j
  s.allPlaced j && !(s.ops.any fun o => o.job == j && o.engine) &&
    !(s.msgs.any fun m => m.job == j && match m.body with | .dcarm _ _ _ _ => true | .dcdec _ => true | _ => false) &&
    !(s.clusters.any fun c => c.2.evWait.any fun e => match e.2 with | .requeue x _ _ => x == j | .lose x => x == j | _ => false) &&
    (((s.job? j).map fun x => x.peers.all fun p => (p.last.map (·.1)).getD false).getD true) &&
    (if ((s.job? j).map (·.persistent)).getD false then gs.all fun g => g.2.exited || s.idleInPop j g.1 else gs.all fun g => g.2.exited)
/-- The four counts of every die of the job: this package's, and others' as they report them. -/
def State.jobCounts (s : State) (j : Nat) : List Counts :=
  ((List.range 4).map fun d => (s.die d).countsOf j) ++ ((s.job? j).map fun x => x.peers.map fun p => (p.last.map (·.2)).getD (0, 0, 0, 0)).getD []
/-- A round is over: it counts, a matching one is kept, and the next one needs new reports. -/
def Job.round (j : Job) (r : Option (List Counts)) : Job :=
  { j with rounds := j.rounds + 1, lastRound := r, peers := j.peers.map fun p => { p with last := none } }
/-- A die of another package reports for the round to come (R222). -/
def Job.report (j : Job) (die : Nat) (gids : List Nat) (r : Bool × Counts) : Job :=
  { j with peers := j.peers.filter (·.die != die) ++ [⟨die, gids, some r⟩] }
/-- Whether counts balance: PUSHED = POPPED everywhere, SENT = RECVD in sum. -/
def balanced (l : List Counts) : Bool := (l.all fun c => c.1 == c.2.1) && (l.map fun c => c.2.2.1.toNat).sum == (l.map fun c => c.2.2.2.toNat).sum
def execQuiescenceRound (job : Nat) (s : State) : Host.Outcome State Fault Refusal :=
  .next <| match s.job? job with
  | none => s
  | some j =>
    let posted := (s.cluster 0).evWait.any fun e => match e.2 with | .complete x _ => x == job | _ => false
    if j.status.isSome || j.ending.isSome || posted || j.peers.any (fun p => p.last.isNone) then s
    else
      let counts := s.jobCounts job
      let ok := s.jobIdle job && balanced counts
      let s := s.modJob job fun x => x.round (if ok then some counts else none)
      if ok && j.lastRound == some counts then
        let st : Status := if j.failed then .fault else .ok
        s.postHw 0 (j.rounds + 1) job 2 st (.complete job st)
      else s

/-! ## WATCHDOG_TEST (R223) -/

/-- WATCHDOG_TEST: a job judged hung is to stop; the %gid of the first group judged hung is event 0x08's DATA. -/
def execWatchdogTest (job : Nat) (s : State) : Host.Outcome State Fault Refusal :=
  .next <| match s.job? job with
  | none => s
  | some j =>
    let late := if j.persistent then !(s.unbeaten job j.period).isEmpty else decide (max j.lastIssue j.launchClk + j.period ≤ s.clk)
    let hung := if j.persistent then s.unbeaten job j.period else sortBy (fun p => p.2.gid) ((s.jobGroups job).filter fun p => !p.2.exited)
    if j.period = 0 || !late || j.ending.isSome || j.status.isSome then s
    else (s.modJob job fun x => { x with late := (hung.head?.map fun p => p.2.gid).getD 0 }).faultJob job 1

/-- A write of CEVDROP clears it (R211). -/
def execCevdropClear (cluster : Nat) (s : State) : Host.Outcome State Fault Refusal :=
  .next (s.modCluster cluster fun c => { c with cevdrop := 0 })

end Sys2Proof.Machine
end

