-- ==== Sys2Proof/Machine/AssumeWords.lean ====
section
/-! DEFINITION. GUESS, AFFIRM, DENY and TAGQ (R296 to R299), and the events of an assumption: its resolution (R281, R291),
its outcome on each die (R292, R293), the checkpoint written out (R143). -/

namespace Sys2Proof.Machine

/-! ## GUESS (R297) -/

/-- Where the result of an operation lies: its first destination bytes (R297). -/
def State.resultPlace (s : State) (o : Op) : Option Place :=
  match o.body with
  | .copy c => some c.dst
  | .gath g => if g.toq then none else some ⟨.sp, w64 g.dst⟩
  | .fab (.puts dst _ _ _ _) _ _ _ _ => some ⟨.g, dst⟩
  | .fab (.get dst _ _ _) _ _ _ _ => some dst
  | .fab (.radd _ dst _ _ _) _ _ _ _ => some ⟨.g, dst⟩
  | .fab (.want dst _ _ _) _ _ _ _ => some dst
  | .fab (.cseq _ _) _ _ _ _ => (s.pkg.progs.find? fun p => p.op == o.id).map fun p => ⟨.g, p.dst⟩
  | _ => none
/-- The destination of a GUESS written. -/
def Fibre.putWide (f : Fibre) (d : Nat) (wide : Bool) (v : DWord) : Fibre := f.setRun d (if wide then dwords v else [loWord v])
/-- LOAD_W as a load of the fibre; a place that is none fails in translation. -/
def State.guessLoad (s : State) (k : Nat) (i : Instr) (f : Fibre) (d : Nat) (wide : Bool) (p : Option Place) : State :=
  let f1 := if f.tainted then f else { f with ckpt := none }
  let a : Access := { (default : Access) with
    kind := .ld, space := (p.map (·.space)).getD .g, addr := (p.map (·.addr)).getD 0, size := if wide then 8 else 4,
    dst := d, ndst := if wide then 2 else 1 }
  if !s.accessRoom k f then s.waitFor k f .memory
  else
    let s := s.setFibre k f1
    (match p with
     | some _ => s.issueAccess k a f.wseq (s.ordAt f f.rp)
     | none => s.recordFault k a .translation (s.seatNow f)).finishNow k i f
/-- The operation and place a GUESS watches: those of its handle, or those it found when it began to stall. -/
def State.guessWatch (s : State) (k : Nat) (f : Fibre) (a c : Reg) (loc : Bool) : Option (Nat × Option Place) :=
  match f.guessing with
  | some (n, op, p) => if n = f.issued then some (op, p) else fresh
  | none => fresh
where
  fresh : Option (Nat × Option Place) :=
    ((f.handle? a.toNat).bind s.op?).map fun o => (o.id, if loc then some ⟨.g, f.readPair k c.toNat⟩ else s.resultPlace o)
/-- A slot opens and the guess is written (MINT). -/
def State.mint (s : State) (k : Nat) (i : Instr) (f : Fibre) (slot : Nat) (x : AidSlot) (aidReg : Option Nat) (d : Nat) : State :=
  let die := (s.site f).die
  let aid := mkAid die slot ((s.die die).nextGen slot)
  let x := { x with gen := (s.die die).nextGen slot, recv := [(Config.pkgNumber, die)] }
  let f1 := s.joinTaint f (f.taint ++ [(aid, 0)]) f.rp
  let f1 := match aidReg with | some r => f1.setReg r aid | none => f1
  (s.modDie die fun y => { y with slots := assignSorted slot x y.slots }).finish k i f (f1.putWide d x.wide x.value)
def execGuess (h : Head) (d a b c : Reg) (ty : Ty) (aidReg : Reg) (aid loc imm sw : Bool) (s : State) : Host.Outcome State Fault Refusal :=
  let i := Instr.guess h d a b c ty aidReg aid loc imm sw
  issueWord i s fun k f =>
    let wide := ty.is64
    let g : DWord := if imm then b.setWidth 64 else if wide then f.readPair k b.toNat else (f.read k b.toNat).setWidth 64
    let plain := if f.tainted then f else { f with ckpt := none }
    let watch := if sw then some (0, none) else s.guessWatch k f a c loc
    let misplaced := loc && (f.readPair k c.toNat).toNat % (if wide then 8 else 4) != 0
    if f.isHelper then s.finish k i f ((if aid then f.setReg aidReg.toNat 0 else f).putWide d.toNat wide g)
    else match f.restarts.find? fun e => e.1 == f.pc with
      | some e => s.finish k i f (({ plain with restarts := f.restarts.filter (·.1 != f.pc) } : Fibre).putWide d.toNat wide e.2)
      | none =>
        match watch with
        | none => if loc then s.guessLoad k i f d.toNat wide (some ⟨.g, f.readPair k c.toNat⟩) else s.finish k i f (plain.putWide d.toNat wide 0)
        | some (op, place) =>
          let stall := fun (f : Fibre) => s.stallTag k { f with guessing := if sw then none else some (f.issued, op, place) }
          let retired := !sw && (s.op? op).isNone
          if misplaced then s.guessLoad k i f d.toNat wide place
          else if f.taint.length ≥ 4 then stall f
          else match (s.die (s.site f).die).freeSlot with
            | none => if retired then s.guessLoad k i f d.toNat wide place else stall f
            | some slot =>
              let e := s.ensureCkpt f f.rp
              if e.ckptStalls then s.setFibre k { e with guessing := if sw then none else some (f.issued, op, place) }
              else s.mint k i f slot
                { state := .open, gen := 0, job := s.jobOf f, fib := k, word := f.pc, value := g, wide := wide, auto := !sw, loc := place,
                  op := op, seen := none, watch := if retired then some (statusOf (f.reg a.toNat).toNat) else none, answer := none,
                  recv := [], acked := [] } (if aid then some aidReg.toNat else none) d.toNat

/-! ## AFFIRM, DENY, TAGQ (R298, R299) -/

/-- A resolution is sent, or held while the issuer is tainted. -/
def State.resolveWord (s : State) (k : Nat) (f : Fibre) (i : Instr) (d : Option Nat) (a : BitVec 32) (r : Resolution) : State :=
  if f.isHelper then s.finish k i f (match d with | some d => f.setReg d 5 | none => f)
  else
    let (id, f1, s1) := s.launchOp k f .none d .resolve (s.ordAt f f.rp)
    if f.tainted then
      match s1.hold f1 (.resolve a r id) (s.ordAt f f.rp) with
      | some f2 => s1.finish k i f f2
      | none => s.stallTag k f
    else (s1.finish k i f f1).sendResolution k f1 a r id
def execAffirm (h : Head) (d a : Reg) (hd : Bool) (s : State) : Host.Outcome State Fault Refusal :=
  let i := Instr.affirm h d a hd
  issueWord i s fun k f => s.resolveWord k f i (if hd then some d.toNat else none) (f.read k a.toNat) .affirm
def execDeny (h : Head) (d a b : Reg) (ty : Ty) (hd : Bool) (s : State) : Host.Outcome State Fault Refusal :=
  let i := Instr.deny h d a b ty hd
  issueWord i s fun k f =>
    let v := if ty.is64 then f.readPair k b.toNat else (f.read k b.toNat).setWidth 64
    s.resolveWord k f i (if hd then some d.toNat else none) (f.read k a.toNat) (.deny v)
/-- The state of an AID at its home. -/
def State.aidState (s : State) (a : BitVec 32) : Nat :=
  if a != 0 && aidPkg a != Config.pkgNumber then (Config.remoteAid s.clk a).toNat
  else match ((s.slotOf a).map fun x => x.state : Option AidState) with
    | some AidState.open => 1
    | some AidState.affirmed => 2
    | some AidState.denied => 3
    | _ => 0
def execTagq (h : Head) (d a : Reg) (idx : BitVec 2) (mode : TagqMode) (s : State) : Host.Outcome State Fault Refusal :=
  let i := Instr.tagq h d a idx mode
  issueWord i s fun k f =>
    let st := s.aidState (f.read k a.toNat)
    match mode with
    | .aid => s.finish k i f (f.setReg d.toNat ((f.taint[idx.toNat]?.map (·.1)).getD 0))
    | .state => s.finish k i f (f.setReg d.toNat (w32 st))
    | .wait => if st = 1 then s.waitFor k f .tagq else s.finish k i f (f.setReg d.toNat (w32 st))

/-! ## Resolution -/

/-- The operation an automatic AID watches has retired (R291): its location is read and compared. A location on another
package is asked for by a packet. -/
def execWatchedOpResolve (die slot : Nat) (s : State) : Host.Outcome State Fault Refusal :=
  .next <| match look slot (s.die die).slots with
  | none => s
  | some x =>
    match x.watch, s.fibre? x.fib with
    | some st, some f =>
      let a := mkAid die slot x.gen
      let n := if x.wide then 8 else 4
      let settle := fun (s : State) (v : DWord) =>
        if st == .ok && v == x.value then s.settleSlot a .affirm none else s.settleSlot a (.deny v) (some v)
      let fail := fun (s : State) => s.settleSlot a .withdraw none
      if x.state != .open || !x.auto then s
      else match x.seen, x.loc with
        | some (some v), _ => settle s v
        | some none, _ => fail s
        | none, none => fail s
        | none, some p =>
          if (s.op? x.op).isSome then s
          else if p.addr.toNat % n != 0 then fail s
          else if p.space == .sp && s.isOut f then
            (match s.group? f.grp with
             | some g => if p.addr.toNat + n > g.spad then fail s else settle s (w64 (leNat ((g.savedSp.drop p.addr.toNat).take n)))
             | none => fail s)
          else if s.pieceBlocked x.fib f p.space p.addr.toNat n then s
          else match s.findNow f p.space p.addr.toNat n .read with
            | (.at_ loc, s) => if s.poisonedAt loc n then fail s else settle s (w64 (leNat (s.readAt loc n)))
            | (.remote pkg d off, s) =>
              let (id, s) := s.fresh
              match s.send (s.site f) (s.jobOf f) (s.master f) pkg d p.addr.toNat .read (.load d off n) (some id) with
              | (.error _, s) => fail s
              | (.ok pkt, s) =>
                let acc : Access := { (default : Access) with kind := .ld, space := p.space, addr := p.addr, size := n }
                (s.addOp { s.newOp x.fib f id .none (.mem acc (.sent pkt)) 0xFFFFFF with job := x.job, gone := true }).modSlot a fun x => { x with op := id }
            | (_, s) => fail s
    | _, _ => s
/-- AFFIRM's or DENY's message at the home of its AID (R298). -/
def execResolutionAtHome (msg : Nat) (s : State) : Host.Outcome State Fault Refusal :=
  .next <| match s.msg? msg with
  | none => s
  | some m =>
    match m.body with
    | .resolve a r op =>
      let (st, s) := s.resolveHome m.job a r
      (match op with | some o => s.finishOp o st | none => s).dropMsg msg
    | _ => s
/-- Whether a die is to apply an outcome of an AID of this package. It does so, and acknowledges, once every tagged message that it sent
is confirmed (R282). -/
def State.awaits (s : State) (die : Nat) (a : BitVec 32) (st : AidState) : Bool :=
  match s.slotOf a with
  | some x => x.state == st && x.recv.contains (Config.pkgNumber, die) && !x.acked.contains (Config.pkgNumber, die)
  | none => false
def State.ackSlot (s : State) (die : Nat) (a : BitVec 32) : State := s.modSlot a fun x => { x with acked := x.acked ++ [(Config.pkgNumber, die)] }
def execAffirmApply (die : Nat) (aid : BitVec 32) (s : State) : Host.Outcome State Fault Refusal :=
  .next (if s.awaits die aid .affirmed && !s.tagsOut (some die) aid then (s.applyAffirm (some die) aid).ackSlot die aid else s)
/-- A deny or withdrawal: fibres whose operations still write are stopped and waited for, then every carrier rolls back. -/
def execDenyApply (die : Nat) (aid : BitVec 32) (s : State) : Host.Outcome State Fault Refusal :=
  .next <| if s.awaits die aid .denied && !s.tagsOut (some die) aid then
      (match s.applyDeny (some die) aid with
       | (s, true) => s.ackSlot die aid
       | (s, false) => s)
    else s
/-- Once every receiver has acknowledged, the slot is free (R281). -/
def execResolutionAck (die : Nat) (aid : BitVec 32) (s : State) : Host.Outcome State Fault Refusal :=
  .next <| match s.slotOf aid with
  | none => s
  | some x =>
    if aidDie aid == die && (x.state == .affirmed || x.state == .denied) && x.recv.all x.acked.contains then
      s.modSlot aid fun x => { x with state := .free }
    else s
/-- A checkpoint has been written to the core's backing area (R143); its fibre tries its word again, or goes on waiting in its exchange. -/
def execCheckpointSpillComplete (fib : Nat) (s : State) : Host.Outcome State Fault Refusal :=
  .next <| match s.fibre? fib with
  | none => s
  | some f =>
    if f.wait != some .ckpt then s
    else
      let g := { f with wait := none }
      (s.storeCkpt f).setFibre fib { g with run := match f.run with | .waiting _ => g.freeRun | r => r }

end Sys2Proof.Machine
end

