-- ==== Sys2Proof/Machine/FabricWords.lean ====
section
/-! DEFINITION. PUTS, GET, RADD, SIGWT, WANT and ANNOUNCE (R333 to R341), the storing and sending of named tiles (R328 to
R331), local completion (R321) and the pieces that land on this package (R172, R335). -/

namespace Sys2Proof.Machine

/-! ## Issue (R334) -/

/-- A fabric word with a handle: suppressed in a helper, counted in %oc.fx, held or made to wait while tainted. `make`
builds the operation from the local handle's own. -/
def State.fabWord (s : State) (k : Nat) (f : Fibre) (i : Instr) (d : Reg) (lh : Option Nat) (held waits : Bool)
    (make : Option Nat → FabOp) : State :=
  if f.isHelper then s.finish k i f ((match lh with | some l => f.setReg l 5 | none => f).setReg d.toNat 5)
  else if f.tainted && waits then s.stallTag k f
  else if f.counterFull .fx then s.waitFor k f .full
  else
    let ord := s.ordAt f f.rp
    let (lop, f1, s1) : Option Nat × Fibre × State := match lh with
      | some l => let r := s.launchOp k f .none (some l) .resolve ord; (some r.1, r.2.1, r.2.2)
      | none => (none, f, s)
    let (id, f2, s2) := s1.launchOp k f1 .fx (some d.toNat) (.fab (make lop) 0 [] none .ok) ord
    if f.tainted && held && s.fabOk f (make none) then
      match s2.hold f2 (.fab (make lop) id) ord with
      | some f3 => s2.finish k i f f3
      | none => s.stallTag k f
    else (s2.finish k i f f2).startFab f2 (make lop) id
/-- A source or destination operand: a 32-bit offset of .sp or a pair of .g. -/
def Fibre.place (f : Fibre) (k : Nat) (sp : Space) (r : Reg) : Place := ⟨sp, w64 (f.base k sp r)⟩

def execPuts (h : Head) (d a b c lh : Reg) (lhd addSig sig : Bool) (spc : Space) (s : State) : Host.Outcome State Fault Refusal :=
  let i := Instr.puts h d a b c lh lhd addSig sig spc
  issueWord i s fun k f =>
    let signal := if sig then some (f.readPair k (c.toNat + 2), f.readPair k (c.toNat + 4), addSig) else none
    s.fabWord k f i d (if lhd then some lh.toNat else none) true false fun l =>
      .puts (f.readPair k a.toNat) (f.place k spc b) (f.read k c.toNat).toNat signal l
def execGet (h : Head) (d a b c : Reg) (bar : Bool) (spc : Space) (s : State) : Host.Outcome State Fault Refusal :=
  let i := Instr.get h d a b c bar spc
  issueWord i s fun k f =>
    s.fabWord k f i d none false true fun _ =>
      .get (f.place k spc a) (f.readPair k b.toNat) (f.read k c.toNat).toNat (if bar then some (f.read k (c.toNat + 1)).toNat else none)
def execRadd (h : Head) (d a b c : Reg) (ty : Ty) (lh : Reg) (lhd : Bool) (spc : Space) (s : State) : Host.Outcome State Fault Refusal :=
  let i := Instr.radd h d a b c ty lh lhd spc
  issueWord i s fun k f =>
    s.fabWord k f i d (if lhd then some lh.toNat else none) true false fun l =>
      .radd ty (f.readPair k a.toNat) (f.place k spc b) (f.read k c.toNat).toNat l
def execAnnounce (h : Head) (d a b c : Reg) (spc : Space) (s : State) : Host.Outcome State Fault Refusal :=
  let i := Instr.announce h d a b c spc
  issueWord i s fun k f =>
    s.fabWord k f i d none true false fun _ => .announce (f.place k spc a) (f.readPair k b.toNat) (f.read k c.toNat).toNat

/-! ## Names, stores and crumbs (R328 to R331) -/

def nameTensor (n : DWord) : Nat := bitsOf n.toNat 63 40
def nameIter (n : DWord) : Nat := bitsOf n.toNat 15 0
/-- Names of one tensor and tile. -/
def sameTile (a b : DWord) : Bool := a.toNat / 65536 == b.toNat / 65536
/-- Iteration j is later than i (R328). -/
def laterIter (j i : Nat) : Bool := let d := (j + 65536 - i) % 65536; 1 ≤ d && d ≤ 32767
/-- The producer of a job's tensor: package and die, of the lowest entry that names it. -/
def State.producerOf (s : State) (job : Nat) (name : DWord) : Option (Nat × Nat) :=
  (s.pkg.names.find? fun e =>
    let x := e.2.toNat
    x.testBit 0 && bitsOf x 127 96 == job && bitsOf x 95 72 ≤ nameTensor name && nameTensor name ≤ bitsOf x 71 48).map fun e =>
      (bitsOf e.2.toNat 47 38, bitsOf e.2.toNat 37 36)
/-- A router: 0 to 35 the fabric ports, 36 + d the join of die d. -/
def State.storeAt (s : State) (r : Nat) : List StoredTile := if r < 36 then (look r s.pkg.ports).getD [] else (s.die (r - 36)).store
def State.setStore (s : State) (r : Nat) (l : List StoredTile) : State :=
  if r < 36 then s.modPkg fun p => { p with ports := assign r l p.ports } else s.modDie (r - 36) fun d => { d with store := l }
def State.crumbsAt (s : State) (r : Nat) : List Crumb := if r < 36 then (look r s.pkg.pcrumbs).getD [] else (s.die (r - 36)).crumbs
def State.setCrumbs (s : State) (r : Nat) (l : List Crumb) : State :=
  if r < 36 then s.modPkg fun p => { p with pcrumbs := assign r l p.pcrumbs } else s.modDie (r - 36) fun d => { d with crumbs := l }
/-- Bytes of tiles that walks have staged at a port. -/
def State.stagedBytes (s : State) (port : Nat) : Nat :=
  ((s.pkg.walks.filter fun w => w.port == port).map fun w => ((w.staged.filter fun t => !t.reserve).map fun t => t.bytes.length).sum).sum
/-- Bytes a port router's store has for stored tiles (R316, R331). -/
def State.storeRoom (s : State) (port : Nat) : Nat := 896 * 1024 - s.stagedBytes port
/-- The most recently used tiles of a store that fit. -/
def fitTiles (room : Nat) : List StoredTile → List StoredTile
  | [] => []
  | t :: l => if t.bytes.length ≤ room then t :: fitTiles (room - t.bytes.length) l else []
/-- Of a die's tiles those that fit its eight stores of 2 MiB (R2, R331). -/
def fitDie (l : List StoredTile) : List StoredTile :=
  let kept := (List.range 8).flatMap fun i => fitTiles (2 * 2 ^ 20) (l.filter fun x => Config.tileStore x.name % 8 == i)
  l.filter kept.contains
/-- A tile enters a store and replaces an earlier iteration; a later one there stays, and a tile on its way is not stored beside it. -/
def State.keepTile (s : State) (r : Nat) (t : StoredTile) (always : Bool) : State :=
  let same := fun (x : StoredTile) => x.job == t.job && sameTile x.name t.name
  let l := s.storeAt r
  if !always && l.any (fun x => same x && laterIter (nameIter x.name) (nameIter t.name)) then s
  else
    let l := t :: l.filter fun x => !same x || laterIter (nameIter x.name) (nameIter t.name)
    s.setStore r (if r < 36 then fitTiles (s.storeRoom r) l else fitDie l)

/-- A WANT's answer reaches its operation (R340): NEVER, a tile that does not fit, an uncorrectable one, or bytes to land. -/
def State.wantTile (s : State) (op : Nat) (t : TileMsg) : State :=
  match s.op? op with
  | some o =>
    match o.body, o.done with
    | .fab (.want dst name cap dl) 0 sent none .ok, none =>
      if t.never then s.finishFab o .never
      else if t.bad then s.finishFab o .dataerr
      else if t.bytes.length > cap then s.finishFab o .fault
      else s.modOp op fun x => { x with body := .fab (.want dst name cap dl) 0 sent (some t.bytes) .ok }
    | _, _ => s
  | none => s
/-- A tile on its way is stored at a router; a denial, or a tile that was uncorrectable, is not (R330, R331). -/
def State.keepOnWay (s : State) (r : Nat) (t : TileMsg) : State :=
  if t.never || t.bad then s else s.keepTile r ⟨t.job, t.name, t.bytes, false⟩ false
/-- A tile or its denial goes along faces of a router, and on through the routers of this package. Its path has at most
four routers. -/
def State.tileTo (s : State) (t : TileMsg) : Nat → Nat → List (FaceTo × Nat) → State
  | 0, _, _ => s
  | n + 1, r, faces =>
    faces.foldl (fun s x =>
      if x.2 < s.clk then s
      else match x.1 with
        | .op id => s.wantTile id t
        | .port p =>
          if p == r && p < 36 then s.sendNamed p 0 0 0 0 16 t.job (.tile t)
          else
            let mine := (s.crumbsAt p).filter fun c => c.job == t.job && c.name == t.name
            let s := s.keepOnWay p t
            let s := s.setCrumbs p ((s.crumbsAt p).filter fun c => !(c.job == t.job && c.name == t.name))
            State.tileTo s t n p (mine.flatMap (·.faces))) s
/-- A tile at a router: kept, and sent on along the crumb's faces. -/
def State.tileAt (s : State) (r : Nat) (t : TileMsg) : State :=
  let mine := (s.crumbsAt r).filter fun c => c.job == t.job && c.name == t.name
  let s := s.keepOnWay r t
  let s := s.setCrumbs r ((s.crumbsAt r).filter fun c => !(c.job == t.job && c.name == t.name))
  s.tileTo t 4 r (mine.flatMap (·.faces))

/-- What an interest's next router is, by the flow of the WANT that sent it (R317); none at the producer die. `error` where it cannot leave. -/
def State.nextRouter (s : State) (r die clu : Nat) (job : Nat) (name : DWord) : Except SendFail (Option Nat) :=
  match s.producerOf job name with
  | none => .error .noRoute
  | some (pkg, pd) =>
    if pkg = Config.pkgNumber then (if r = 36 + pd then .ok none else .ok (some (36 + pd)))
    else match s.pkg.egress pkg die clu pd with
      | .error e => .error e
      | .ok port => if r = port then .ok (some 100) else .ok (some port)
/-- The latest deadline of a crumb. -/
def Crumb.latest (c : Crumb) : Nat := c.faces.foldl (fun n x => max n x.2) 0
/-- What an interest meets at a router (R329). -/
inductive Met where
  | hit (t : StoredTile)
  | later
  | absorb (refresh : Bool)
  | new
  | full
def State.meetInterest (s : State) (r : Nat) (i : Interest) : Met :=
  match (s.storeAt r).find? fun t => t.job == i.job && sameTile t.name i.name && t.name == i.name with
  | some t => .hit t
  | none =>
    if (s.storeAt r).any fun t => t.job == i.job && sameTile t.name i.name && laterIter (nameIter t.name) (nameIter i.name) then .later
    else match (s.crumbsAt r).find? fun c => c.job == i.job && c.name == i.name with
      | some c => .absorb (i.deadline > c.latest)
      | none => if (s.crumbsAt r).length ≥ 4096 then .full else .new
/-- The crumb gains a face, or a later deadline for the one it has. -/
def Crumb.addFace (c : Crumb) (x : FaceTo) (dl : Nat) : Crumb :=
  if c.faces.any fun e => e.1 == x then { c with faces := c.faces.map fun e => if e.1 == x then (x, max e.2 dl) else e }
  else { c with faces := c.faces ++ [(x, dl)] }
/-- Where an interest has gone: on; nowhere, the table of the router it comes to being full; or it cannot leave (R317). -/
inductive Went where
  | to (s : State)
  | full
  | lost (e : SendFail)
/-- An interest that waits at a router for room at the next, or waits no longer. -/
def State.setOut (s : State) (r : Nat) (i : Interest) (out : Option Interest) : State :=
  s.setCrumbs r ((s.crumbsAt r).map fun c => if c.job == i.job && c.name == i.name then { c with out := out } else c)
/-- An interest goes on from a router: to the next of this package by `next`, or by the router's link; at the producer die it stays. One that
meets a full table there waits where it is (R329). -/
def State.sendOn (s : State) (next : State → Nat → Interest → Went) (r : Nat) (i : Interest) : Went :=
  match s.nextRouter r i.die i.clu i.job i.name with
  | .ok none => .to s
  | .ok (some 100) =>
    let (pkg, die) := (s.producerOf i.job i.name).getD (0, 0)
    if i.hops ≤ 1 then .lost .noPort else .to (s.sendNamed r pkg i.die i.clu die (i.hops - 1) i.job (.interest i))
  | .ok (some q) => (match next s q { i with face := .port r } with
    | .full => .to (s.setOut r i (some i))
    | w => w)
  | .error e => .lost e
/-- An interest moves through the routers of this package. -/
def State.interestAt (s : State) : Nat → Nat → Interest → Went
  | 0, _, _ => .to s
  | n + 1, r, i =>
    let on := fun (s : State) => s.sendOn (fun s q j => State.interestAt s n q j) r i
    let answer := fun (t : TileMsg) => Went.to (s.tileTo t 4 r [(i.face, i.deadline)])
    match s.meetInterest r i with
    | .hit t =>
      -- used last; an uncorrectable one is dropped (R331)
      let rest := (s.storeAt r).filter (· != t)
      .to ((s.setStore r (if t.bad then rest else t :: rest)).tileTo ⟨t.job, t.name, t.bytes, t.bad, false⟩ 4 r [(i.face, i.deadline)])
    | .later => answer ⟨i.job, i.name, [], false, true⟩
    | .absorb refresh =>
      let waits := (s.crumbsAt r).any fun c => c.job == i.job && c.name == i.name && c.out.isSome
      let s := s.setCrumbs r ((s.crumbsAt r).map fun c => if c.job == i.job && c.name == i.name then c.addFace i.face i.deadline else c)
      if !refresh then .to s
      else if waits then .to (s.setOut r i (some i))
      else on s
    | .new => on (s.setCrumbs r (s.crumbsAt r ++ [⟨i.job, i.name, [(i.face, i.deadline)], none⟩]))
    | .full => .full
/-- An interest that waits at a router of this package tries to go on. -/
def State.retryInterest (s : State) (r job : Nat) (name : DWord) : State :=
  match (s.crumbsAt r).find? fun c => c.job == job && c.name == name with
  | some c => (match c.out with
    | some i => (match (s.setOut r i none).sendOn (fun s q j => s.interestAt 4 q j) r i with
      | .to s => s
      | _ => s)
    | none => s)
  | none => s
/-- Where a WANT's interest cannot even be routed: no name-routing entry, or a producer package without a route (R317, R328). -/
def State.unrouted (s : State) (job : Nat) (name : DWord) : Bool :=
  match s.producerOf job name with
  | none => true
  | some (pkg, _) => pkg != Config.pkgNumber && !((look pkg s.pkg.routes).getD 0).getLsbD 31

/-- WANT: routed at issue; its interest then reaches its own die's router (INTEREST_ARRIVE). -/
def execWant (h : Head) (d a b c : Reg) (spc : Space) (life : BitVec 4) (s : State) : Host.Outcome State Fault Refusal :=
  let i := Instr.want h d a b c spc life
  issueWord i s fun k f =>
    let name := f.readPair k b.toNat
    let o := FabOp.want (f.place k spc a) name (f.read k c.toNat).toNat (s.clk + 1500 * 2 ^ life.toNat)
    if f.isHelper then s.finish k i f (f.setReg d.toNat 5)
    else if f.counterFull .fx then s.waitFor k f .full
    else
      let (id, f2, s2) := s.launchOp k f .fx (some d.toNat) (.fab o 0 [] none .ok) (s.ordAt f f.rp)
      let s3 := (s2.finish k i f f2).startFab f2 o id
      match s3.op? id with
      | some x => if x.done.isNone && s.unrouted (s.jobOf f) name then s3.finishFab x .fault else s3
      | none => s3
/-- INTEREST_ARRIVE: at the join of a WANT's own die, from a link at a port, or from a router of this package where it waited for room. A
WANT's own may enter 16 packages (R317). -/
def execInterestArrive (port : Nat) (face : Interest) (s : State) : Host.Outcome State Fault Refusal :=
  .next <| match face.face with
  | .op id =>
    (match s.op? id with
     | some o =>
       match o.body, s.fibre? o.fib with
       | .fab (.want dst name cap dl) 0 [] none .ok, some f =>
         let die := (s.site f).die
         if port != 36 + die then s
         else
           let s1 := s.modOp id fun x => { x with body := .fab (.want dst name cap dl) 0 [id] none .ok }
           match s1.interestAt 4 port ⟨o.job, name, .op id, dl, die, (s.site f).clu, 17⟩ with
           | .to t => t
           | .full => s
           | .lost e => s.finishFab o e.status
       | _, _ => s
     | none => s)
  | .port p =>
    if port < 36 && p == port then (match s.interestAt 4 port face with | .to t => t | _ => s)
    else s.retryInterest p face.job face.name
/-- TILE_RETURN: a tile comes in by a link. -/
def execTileReturn (port : Nat) (tile : TileMsg) (s : State) : Host.Outcome State Fault Refusal :=
  .next (if port < 36 then s.tileAt port tile else s)
/-- FACE_DEADLINE (R331): the face goes; a WANT whose time is over completes with NEVER. -/
def execFaceDeadline (port : Nat) (face : Interest) (s : State) : Host.Outcome State Fault Refusal :=
  .next <|
    let due := fun (c : Crumb) (x : FaceTo × Nat) => c.job == face.job && c.name == face.name && x.1 == face.face && x.2 ≤ s.clk
    let s1 := s.setCrumbs port (((s.crumbsAt port).map fun c => { c with faces := c.faces.filter fun x => !due c x }).filter fun c => !c.faces.isEmpty)
    match face.face with
    | .op id =>
      (match s.op? id with
       | some o =>
         match o.body with
         | .fab (.want _ _ _ dl) 0 _ none .ok => if dl ≤ s.clk && o.done.isNone then s1.wantTile id ⟨o.job, face.name, [], false, true⟩ else s
         | _ => s
       | none => s1)
    | .port _ => s1

/-! ## SIGWT (R339) -/

def sigHolds (c : SigCond) (v x : DWord) : Bool :=
  match c with
  | .ge => x.toNat ≤ v.toNat
  | .eq => v == x
  | .ne => v != x
/-- What a SIGWT's read of its signal gives. -/
inductive SigRead where
  | value (v : DWord)
  | fault (k : MemKind)
  | later
/-- What a load of a place on another package sees: the bytes, and over them the fibre's own held writes issued before it (R207). -/
def overlayGlobal (f : Fibre) (addr n wseq : Nat) (bs : List Byte) : List Byte :=
  ((f.releasing ++ f.held).filter fun h => h.wseq ≤ wseq).foldl (fun bs h =>
    match h.eff with
    | .mem a =>
      if a.space != .g then bs
      else
        let l := a.addr.toNat
        let old := leNat ((List.range a.size).map fun i => if addr ≤ l + i && l + i < addr + n then bs.getD (l + i - addr) 0 else 0)
        let new := if a.kind == .red then atomBytes a (leBytes a.size old) else storeBytes a.size a.data
        (List.range n).map fun i => if l ≤ addr + i && addr + i < l + a.size then new.getD (addr + i - l) 0 else bs.getD i 0
    | _ => bs) bs
/-- The signal as it stands on this package, with what the fibre itself holds (R207, R339). -/
def State.readSignal (s : State) (f : Fibre) (addr : DWord) : SigRead × State :=
  if addr.toNat % 8 != 0 then (.fault .misaligned, s)
  else match s.findNow f .g addr.toNat 8 .read with
    | (.at_ loc, s) => if s.poisonedAt loc 8 then (.fault .dataError, s)
      else (.value (w64 (leNat (s.overlay f loc 8 f.wseq (s.readAt loc 8)))), s)
    | (.bad k, s) => (.fault k, s)
    | (_, s) => (.later, s)
def sigAccess (addr : DWord) (d : Nat) : Access :=
  { (default : Access) with kind := .ld, space := .g, addr := addr, size := 8, order := .acq, scope := .sys, dst := d, ndst := 2 }
/-- A SIGWT returns with a value and p. -/
def Fibre.signalled (f : Fibre) (d p : Nat) (v : DWord) (hit : Bool) : Fibre := (f.setRun d (dwords v)).setPred p hit
/-- SIGWT: a signal on another package is read as an access of its own, by its packet. -/
def execSigwt (h : Head) (d a b c p : Reg) (cond : SigCond) (s : State) : Host.Outcome State Fault Refusal :=
  let i := Instr.sigwt h d a b c p cond
  issueWord i s fun k f =>
    let addr := f.readPair k a.toNat
    let n := (f.read k c.toNat).toNat
    if f.isHelper then s.finish k i f (f.signalled d.toNat p.toNat 0 false)
    else if !s.accessesDone k f then s.waitFor k f .memory
    else s.beginWait k i f f (.sigwt addr cond (f.readPair k b.toNat) d.toNat p.toNat (if n = 0 then none else some (s.clk + n)))
/-- The read of a signal on another package that is out for a fibre, or its answer. -/
def State.signalOp (s : State) (k : Nat) : Option Op :=
  s.ops.find? fun o => o.fib == k && !o.gone && match o.body with | .fab (.get ⟨.sys, _⟩ _ 8 none) _ _ _ _ => true | _ => false
/-- A look at a signal that returns acquires what the signal releases (R206). -/
def State.acquireSignal (s : State) (f : Fibre) (addr : DWord) (d : Nat) (g : Fibre) : Fibre :=
  match s.findNow f .g addr.toNat 8 .read with
  | (.at_ loc, _) => s.observe g (sigAccess addr d) loc (s.past.filter (·.meets loc 8))
  | _ => g
/-- One look at the signal of a waiting fibre; `late` where its time is over. The answer from another package has its record's kind as its
position. -/
def State.lookSignal (s : State) (k : Nat) (f : Fibre) (addr : DWord) (cond : SigCond) (x : DWord) (d p : Nat) (late : Bool) : State :=
  let judge := fun (s : State) (v : DWord) =>
    if sigHolds cond v x || late then
      s.modFibre k fun g => ((s.acquireSignal f addr d g).signalled d p v (sigHolds cond v x)).leaveWait 2
    else s
  let fault := fun (s : State) (kind : MemKind) =>
    ((s.modFibre k fun f => f.setPred p false).recordFault k (sigAccess addr d) kind (s.seatNow f)).modFibre k fun f => f.leaveWait 2
  match s.signalOp k with
  | some o =>
    (match o.body with
     | .fab _ n [] (some bs) st =>
       let s := s.dropOp o.id
       (match st with
        | .ok => judge s (w64 (leNat (overlayGlobal f addr.toNat 8 f.wseq ((bs ++ List.replicate 8 0).take 8))))
        | .access => fault s .accessTable
        | .dataerr | .linkfail => fault s .dataError
        | _ => fault s (if n = kindNum .protection then .protection else .translation))
     | _ => s)
  | none =>
    if s.walkBlocked f .g addr.toNat 8 .read then s else
    match s.readSignal f addr with
    | (.value v, s) => judge s v
    | (.fault kind, s) => fault s kind
    | (.later, s) =>
      let (id, s) := s.fresh
      let die := bitsOf addr.toNat 52 51
      match s.send (s.site f) (s.jobOf f) (s.master f) (pkgOf addr.toNat) die addr.toNat .read (.load die (bitsOf addr.toNat 50 0) 8) (some id) with
      | (.error e, s) => fault s e.kind
      | (.ok pkt, s) => s.addOp (s.newOp k f id .none (.fab (.get ⟨.sys, 0⟩ addr 8 none) 0 [pkt] none .ok) 0xFFFFFF)
def execSigwtRecheck (fib : Nat) (s : State) : Host.Outcome State Fault Refusal :=
  .next <| match s.fibre? fib with
  | none => s
  | some f =>
    match f.run, f.wait with
    | .waiting .sigwt, some (.sigwt addr cond x d p _) => s.lookSignal fib f addr cond x d p false
    | _, _ => s
def execSigwtTimeout (fib : Nat) (s : State) : Host.Outcome State Fault Refusal :=
  .next <| match s.fibre? fib with
  | none => s
  | some f =>
    match f.run, f.wait with
    | .waiting .sigwt, some (.sigwt addr cond x d p (some t)) => if s.clk < t then s else s.lookSignal fib f addr cond x d p true
    | _, _ => s

/-! ## LOCAL_COMPLETION (R321) -/

/-- ANNOUNCE reads its tile, stores it and sends it to whoever waits; it releases its fibre's earlier accesses (R330, R341). -/
def State.announceTile (s : State) (o : Op) (f : Fibre) (src : Place) (name : DWord) (len : Nat) : State :=
  let die := (s.site f).die
  if s.producerOf o.job name != some (Config.pkgNumber, die) then s.finishFab o .fault
  else
    let (here, s) := s.atHand o.id f src.space src.addr.toNat len none
    if !here then s else
    match s.engineRead (some o.id) f src.space src.addr.toNat len with
    | (.error st, s) => s.finishFab o st
    | (.ok bs, s) =>
      let s := s.watchOp o src.space src.addr.toNat len false
      let r := 36 + die
      let earlier := fun (c : Crumb) => c.job == o.job && sameTile c.name name && laterIter (nameIter name) (nameIter c.name)
      let mine := (s.crumbsAt r).filter fun c => c.job == o.job && c.name == name
      let old := (s.crumbsAt r).filter earlier
      let s := (s.keepTile r ⟨o.job, name, bs, false⟩ true).setCrumbs r
        ((s.crumbsAt r).filter fun c => !(c.job == o.job && c.name == name) && !earlier c)
      let s := s.tileTo ⟨o.job, name, bs, false, false⟩ 4 r (mine.flatMap (·.faces))
      let s := old.foldl (fun s c => s.tileTo ⟨c.job, c.name, [], false, true⟩ 4 r c.faces) s
      (s.publish (.tile o.job name) (s.viewAt o.fib o.seq o.view)).finishFab o .ok
/-- A GET from another package asks for its pieces (R337). -/
def State.requestGet (s : State) (o : Op) (f : Fibre) (x : FabOp) (dst : Place) (src : DWord) (len : Nat) (bar : Option Nat) : State :=
  if pkgOf src.toNat = Config.pkgNumber then s.modOp o.id fun y => { y with body := .fab x 0 [] (some []) .ok }
  else
    let die := bitsOf src.toNat 52 51
    let off := bitsOf src.toNat 50 0
    let list := (piecesOf dst.addr.toNat len).map fun p => (src.toNat + p.1, PktBody.read die (off + p.1) p.2)
    match s.sendAll (s.site f) o.job (s.master f) (pkgOf src.toNat) die o.id .read list with
    | (.ok ids, s) => s.modOp o.id fun y => { y with body := .fab x 0 ids (some []) .ok }
    | (.error st, s) => s.endGet o f bar st
/-- The source is read once every earlier access of the fibre is complete, earlier operations of its flow have sent their packets and the
retransmit buffer has room (R319, R321). -/
def execLocalCompletion (op : Nat) (s : State) : Host.Outcome State Fault Refusal :=
  .next <| match s.op? op with
  | none => s
  | some o =>
    match o.body, s.fibre? o.fib with
    | .fab x 0 [] none .ok, some f =>
      if f.holdsOp op || !s.olderDone o || o.done.isSome || !s.flowReady o f x then s
      else
        let source := fun (src : Place) (n : Nat) => s.pieceBlocked o.fib f src.space src.addr.toNat n
        let away := fun (a : DWord) => pkgOf a.toNat != Config.pkgNumber
        (match x with
         | .puts dst src len _ _ =>
           if source src len || (away dst && !s.retxRoom len) then s
           else s.localPuts o f x dst src len
         | .radd ty dst src cnt _ =>
           if source src (cnt * tyBytes ty) || (away dst && !s.retxRoom (cnt * tyBytes ty)) then s
           else s.localRadd o f x ty dst src cnt
         | .get dst src len bar =>
           if dst.space == .sys || (away src && !s.retxRoom (64 * (piecesOf dst.addr.toNat len).length)) ||
             (match bar with | some b => s.pieceBlocked o.fib f .sp b 16 | none => false) then s
           else s.requestGet o f x dst src len bar
         | .announce src name len => if source src len then s else s.announceTile o f src name len
         | _ => s)
    | _, _ => s

/-! ## COPY_PIECE_LAND: pieces of copies, and of fabric operations on this package -/

/-- The next step of a fabric operation whose data is at hand. -/
def State.landFab (s : State) (o : Op) (f : Fibre) (x : FabOp) (pos : Nat) (sent : List Nat) (bs : List Byte) (st : Status) : State :=
  let k := o.fib
  let step := fun (s : State) (n : Nat) (st : Status) => s.modOp o.id fun y => { y with body := .fab x (pos + n) sent (some bs) st }
  match x with
  | .puts dst _ len sig _ =>
    if !sent.isEmpty then s
    else if pos ≥ len then s.endPuts o f x dst sig st false
    else
      let n := pieceLen dst.toNat pos len
      if s.walkBlocked f .g (dst.toNat + pos) n .write then s
      else match s.engineWrite k f (some o) .g false (dst.toNat + pos) ((bs.drop pos).take n) with
      | (some e, s) => s.finishFab o e
      | (none, s) => step s n st
  | .radd ty dst _ cnt _ =>
    if !sent.isEmpty then s
    else if pos ≥ cnt * tyBytes ty then s.finishFab o st
    else
      let n := pieceLen dst.toNat pos (cnt * tyBytes ty)
      if s.walkBlocked f .g (dst.toNat + pos) n .atomic then s
      else match s.raddHere f ty (dst.toNat + pos) (elements (tyBytes ty) (n / tyBytes ty) (bs.drop pos)) with
      | (some .dataerr, s) => step s n (mergeStatus st .dataerr)
      | (some e, s) => s.finishFab o e
      | (none, s) => step s n st
  | .get dst src len bar =>
    if !sent.isEmpty || dst.space == .sys then s
    else if pos ≥ len || pkgOf src.toNat != Config.pkgNumber then
      (if (match bar with | some b => s.pieceBlocked k f .sp b 16 | none => false) then s else s.endGet o f bar st)
    else
      let n := pieceLen dst.addr.toNat pos len
      if s.pieceBlocked k f dst.space (dst.addr.toNat + pos) n || s.walkBlocked f .g (src.toNat + pos) n .read then s
      else match s.engineRead (some o.id) f .g (src.toNat + pos) n with
        | (.error e, s) =>
          if e = .dataerr then
            (match s.engineWrite k f (some o) dst.space false (dst.addr.toNat + pos) (List.replicate n 0) with
             | (some e, s) => s.endGet o f bar (mergeStatus st e)
             | (none, s) => step (s.watchOp o dst.space (dst.addr.toNat + pos) n true) n (mergeStatus st .dataerr))
          else s.endGet o f bar (mergeStatus st e)
        | (.ok part, s) =>
          match s.engineWrite k f (some o) dst.space false (dst.addr.toNat + pos) part with
          | (some e, s) => s.endGet o f bar (mergeStatus st e)
          | (none, s) => step ((s.watchOp o .g (src.toNat + pos) n false).watchOp o dst.space (dst.addr.toNat + pos) n true) n st
  | .want dst name _ _ =>
    if pos ≥ bs.length then (if st = .ok then s.modFibre k (s.acquire (.tile o.job name)) else s).finishFab o st
    else
      let n := pieceLen dst.addr.toNat pos bs.length
      if s.pieceBlocked k f dst.space (dst.addr.toNat + pos) n then s
      else match s.engineWrite k f (some o) dst.space false (dst.addr.toNat + pos) ((bs.drop pos).take n) with
        | (some e, s) => s.finishFab o e
        | (none, s) => step (s.watchOp o dst.space (dst.addr.toNat + pos) n true) n st
  | _ => s
def execCopyPieceLand (op : Nat) (s : State) : Host.Outcome State Fault Refusal :=
  .next <| match s.op? op with
  | none => s
  | some o =>
    match o.body, s.fibre? o.fib, o.done with
    | .copy c, some f, none => if !s.olderDone o || s.copyBlocked o f c then s else s.landCopy o f c
    | .fab x pos sent (some bs) st, some f, none => if s.olderDone o then s.landFab o f x pos sent bs st else s
    | _, _, _ => s
/-- GATH_ROW_ARRIVAL: any row, in any order. -/
def execGathRowArrival (op row : Nat) (s : State) : Host.Outcome State Fault Refusal :=
  .next <| match s.op? op with
  | none => s
  | some o =>
    match o.body, s.fibre? o.fib, o.done with
    | .gath g, some f, none =>
      if !g.left.contains row || !s.olderDone o then s
      else if !g.toq && s.pieceBlocked o.fib f .sp (g.dst + row * g.rowLen) g.rowLen then s
      else if f.isPacer && f.run == .stopped then s
      else if s.walkBlocked f .g (g.table.toNat + 8 * row) 8 .read || s.wsBlocked f g.space (s.rowSource f g row) g.rowLen o.start then s
      else s.landRow o f g row
    | _, _, _ => s

end Sys2Proof.Machine
end

