-- ==== Sys2Proof/Machine/TrapWords.lean ====
section
/-! DEFINITION. SYSC, RFT and the return from traps (R268 to R270), the access window (R271, R272), HSTOP and HRESUME (R273),
the handler fibres (R265 to R267). -/

namespace Sys2Proof.Machine

/-- SYSC: the record names the point after it (R269). -/
def execSysc (h : Head) (n : Reg) (s : State) : Host.Outcome State Fault Refusal :=
  let i := Instr.sysc h n
  issueWord i s fun k f =>
    match s.barTrap k f with
    | some s => s
    | none =>
      let f1 := (f.counted f i true s.clk).pass 2
      ((s.setFibre k f1).noteIssue k f i true).systemTrap k 9 n.toNat f1.rp 0 0

/-! ## Where a target continues (R270) -/

/-- A word of code as last fetched, or as memory has it. -/
def State.peekWord (s : State) (f : Fibre) (a : Nat) : Word := match (s.fetchWord f (BitVec.ofNat 64 a)).1 with | .ok w => w | _ => 0
/-- Whether a point is a clause header's: no word of the clause is reached, none latched. -/
def atHeader (p : RP) (hdr : Option Word) : Bool := p.idx == 0 && hdr.isNone
/-- The fibre past the instruction it stands at: past REP's target, past INV's routine. A point inside a clause whose header is not
latched gets it latched when the fibre runs. -/
def State.skipOver (s : State) (f0 : Fibre) : Fibre :=
  let f := { f0 with hdr := some (f0.hdr.getD (s.peekWord f0 f0.rp.hdr.toNat)) }
  let word := fun (d : Nat) => s.peekWord f (f.rp.addr + 4 * d)
  let kind := bitsOf (word 0).toNat 26 18
  let past := fun (x : Fibre) => if f0.hdr.isNone then { x with hdr := none } else x
  past <| if kind = 0x1F8 then ({ f with rep := some f.rp, rc := 1 }).pass (max (wordCount (word 1) (word 2)) 1)
  else if kind = 0x1F9 then
    let ra := f.nextClause
    let next := ra + BitVec.ofNat 64 (4 * ((Header.ofWord (s.peekWord f ra.toNat)).count + 1))
    f.leave (if (f.loops.head?.map (·.endH)) == some f.rp.hdr then f.rp.hdr else ra) next
  else ({ f with rep := none }).pass (max (wordCount (word 0) (word 1)) 1)
/-- The fibre set to continue: `f` stands at its saved point with its latched header; `after` says that the default return is
the word after it, `rep` that a REP is in progress there. -/
def State.continueAt (s : State) (f : Fibre) (mode : RftMode) (dest : DWord) (after rep : Bool) : Fibre :=
  match mode with
  | .addr => f.jump dest
  | .skip => s.skipOver f
  | _ => if after then s.skipOver f else f.resumeAt f.rp f.hdr rep
/-- The records of a list are reissued in list order, each with a fresh translation (R261). -/
def State.reissue (s : State) (k : Nat) : State :=
  match s.fibre? k with
  | none => s
  | some f =>
    f.replay.foldl (fun s r =>
      match r.acc.kind with
      | .accld | .accst =>
        let (id, s) := s.fresh
        s.addOp { s.newOp k f id .none (.acc (.move r.acc)) r.seat.ord with seq := r.seat.seq }
      | _ => s.issueAccess k r.acc r.seat.seq r.seat.ord) (s.setFibre k { f with replay := [] })
/-- Whether a fibre's reissued accesses and transfers are all complete. -/
def State.replayDone (s : State) (k : Nat) : Bool :=
  (s.accesses k).isEmpty && (s.opsOf k).all fun o => match o.body with | .acc (.move _) => o.done.isSome | _ => true

/-! ## RFT in a user handler -/

/-- RFT by a fibre in its own handler: `f` has issued it. -/
def State.userReturn (s : State) (k : Nat) (i : Instr) (f : Fibre) (r : TrapReturn) (norep : Bool) (mode : RftMode) (dest : DWord) : State :=
  let f1 := { (f.counted f i true s.clk) with inH := false, ret := none, reported := r.report && mode == RftMode.ret }
  match mode with
  | .endFibre => (s.setFibre k { f1 with replay := [], wait := some (.ending true), run := .waiting .ending }).noteIssue k f i true
  | .faultJob => ((s.setFibre k { f1 with run := .stopped, holds := [.fault], stopClk := s.clk }).noteIssue k f i true).faultJob (s.jobOf f) 3
  | _ =>
    let f2 := s.continueAt { f1 with rp := r.rp, hdr := r.hdr } mode dest r.after r.rep
    if norep || f.replay.isEmpty then (s.setFibre k { f2 with replay := [] }).noteIssue k f i true
    else ((s.setFibre k { f2 with wait := some (.replay r.rp), run := .waiting .replay }).noteIssue k f i true).reissue k

/-! ## RFT in a handler fibre -/

/-- A handler fibre becomes idle (R270). -/
def Fibre.idle (f : Fibre) : Fibre := { f with run := .ended, serving := none, wait := none }
/-- A target continues: with a task in service, event 0x04 comes first (R219). -/
def State.resumeTarget (s : State) (t : Nat) : State :=
  match s.fibre? t with
  | none => s
  | some f =>
    match f.service.reverse with
    | [] => s.modFibre t fun f => f.release .trap
    | e :: l => (l.reverse.foldl (fun s x => s.postFibre f x.2.task 0x04 .ok .none) s).postFibre f e.2.task 0x04 .ok (.resume t)
/-- The return to a stopped fibre: its point is set at once; it continues when its replays are complete. -/
def State.handlerReturn (s : State) (t : Nat) (f : Fibre) (norep : Bool) (mode : RftMode) (dest : DWord) : State × Bool :=
  match mode with
  | .endFibre =>
    let s := s.abandonAll t
    (s.modFibre t fun f => ({ f with replay := [], wait := some (.ending true), arrive := none, stopIn := none }).release .trap, true)
  | .faultJob => (s.faultJob (s.jobOf f) 3, true)
  | _ =>
    let f1 := { s.continueAt f mode dest false f.rep.isSome with run := f.run, holds := f.holds }
    if norep || f.replay.isEmpty then ((s.setFibre t { f1 with replay := [] }).resumeTarget t, true)
    else ((s.setFibre t f1).reissue t, false)
/-- A Pacer context's record: its access is tried again, or the context stops (R270). -/
def State.pacerReturn (s : State) (g : Nat) (mode : RftMode) : State :=
  match (s.group? g).bind (·.slice) with
  | some sl =>
    if sl.state != .waitingTrap then s
    else if mode = .ret then (s.modGroup g fun x => { x with slice := some { sl with state := .running } }).modFibre sl.fib fun f => f.release .trap
    else s.sliceFault g
  | none => s
/-- A fibre a record names, still stopped by its trap. -/
def State.trapped (s : State) (r : TrapRec) : Option (Nat × Fibre) :=
  r.fib.bind fun t => (s.fibre? t).bind fun f => if f.run == .stopped && f.holds.contains .trap then some (t, f) else none
def execRft (h : Head) (a : Reg) (norep : Bool) (mode : RftMode) (s : State) : Host.Outcome State Fault Refusal :=
  let i := Instr.rft h a norep mode
  issueWord i s fun k f =>
    let dest := f.readPair k a.toNat
    let bad := s.userTrap k { f.xr with cls := 0x1C } f.rp false
    match f.serving with
    | some r =>
      (match r.fib, s.trapped r with
       | none, _ => (s.finish k i f f.idle |>.modFibre k Fibre.idle).pacerReturn r.grp mode
       | some _, none => (s.finish k i f f).modFibre k Fibre.idle
       | some _, some (t, x) =>
         if mode = .skip && atHeader x.rp x.hdr then bad
         else
           let (s, done) := (s.finish k i f f).handlerReturn t x norep mode dest
           s.modFibre k fun f => if done then f.idle else { f with wait := some (.replay x.rp), run := .waiting .replay })
    | none =>
      match f.inH, f.ret with
      | true, some r =>
        if mode = .skip && atHeader r.rp r.hdr then bad
        else if mode = .endFibre && f.tainted then s.stallTag k f
        else s.userReturn k i f r norep mode dest
      | _, _ => bad
/-- REPLAY_COMPLETE (R261). -/
def execReplayComplete (fib : Nat) (s : State) : Host.Outcome State Fault Refusal :=
  .next <| match s.fibre? fib with
  | none => s
  | some f =>
    match f.run, f.wait, f.serving with
    | .waiting .replay, some (.replay _), none => if s.replayDone fib then s.modFibre fib fun f => { f with wait := none, run := .ready } else s
    | .waiting .replay, some (.replay _), some r =>
      (match s.trapped r with
       | some (t, _) => if s.replayDone t then (s.resumeTarget t).modFibre fib Fibre.idle else s
       | none => s.modFibre fib Fibre.idle)
    | _, _, _ => s

/-! ## HANDLER_TAKE_RECORD (R265) -/

/-- A handler fibre at the start of a record. DESIGN CHOICE: its %fid and %gid, to which R265 and R267 give no value, read 0 (log 33). -/
def handlerFibre (core slot : Nat) (entry : DWord) (r : TrapRec) (clk : Nat) : Fibre :=
  { Fibre.fresh (.handler core slot) noGroup 0 128 entry 0 clk with
    regs := r.words ++ List.replicate 120 0, serving := some r }
/-- HANDLER_TAKE_RECORD: an idle handler fibre takes the oldest record; the core's slots are frozen for 4 clk (R152). -/
def execHandlerTakeRecord (core : Nat) (s : State) : Host.Outcome State Fault Refusal :=
  .next <|
    let c := s.core core
    match c.trapq with
    | [] => s
    | r :: rest =>
      let mine := (s.fibres.mapIdx fun k f => (k, f)).filter fun p => match p.2.kind with | .handler x _ => x == core | _ => false
      let put := fun (s : State) => s.modCore core fun x => { x with trapq := rest, frozen := max x.frozen s.clk + 4 }.refillTraps
      if c.chentry = 0 || c.dead then s
      else match mine.find? fun p => p.2.serving.isNone with
        | some (k, old) =>
          let slot := match old.kind with | .handler _ n => n | _ => 0
          put (s.setFibre k { handlerFibre core slot c.chentry r s.clk with issued := old.issued, wseq := old.wseq })
        | none =>
          if mine.length ≥ 32 then s
          else put { s with fibres := s.fibres ++ [handlerFibre core mine.length c.chentry r s.clk] }

/-! ## The access window (R271, R272) -/

/-- What one item of a stopped fibre is. -/
inductive Item where
  | reg (r : Nat)
  | preds (b : Nat)
  | special (n : Nat)
  | hdr (hi : Bool)
  | idx
  | run
  | record (e j : Nat)
  | count
  | inHandler
  | spad (off : Nat)
  | none
  deriving DecidableEq, Repr
/-- The item of a number, for a fibre of n registers in a group with a scratchpad of `spad` bytes. -/
def itemOf (x nregs spad : Nat) : Item :=
  if x.testBit 31 then (if bitsOf x 30 21 == 0 && x % 4 == 0 && bitsOf x 20 0 + 4 ≤ spad then .spad (bitsOf x 20 0) else .none)
  else if x < nregs then .reg x
  else if 0x80 ≤ x && x ≤ 0x82 then .preds (x - 0x80)
  else if 0x100 ≤ x && x < 0x180 && srListed (x - 0x100) then .special (x - 0x100)
  else if x = 0x180 || x = 0x181 then .hdr (x == 0x181)
  else if x = 0x182 then .idx
  else if x = 0x190 then .run
  else if 0x1A0 ≤ x && x < 0x1C0 then .record ((x - 0x1A0) / 4) (x % 4)
  else if x = 0x1C0 then .count
  else if x = 0x1C1 then .inHandler
  else .none
/-- Whether a fibre is stopped for the access window (R271): by a system trap, by HSTOP or by debug, or in a wait; or halted. -/
def Fibre.windowed (f : Fibre) : Bool :=
  match f.run with
  | .halted => true
  | .stopped => f.holds.any (fun h => h == .trap || h == .hstop || h == .debug) || f.wait.isSome || f.arrive.isSome || f.stopIn.isSome
  | _ => false
/-- The target of an access-window word, where it is stopped or halted. -/
def State.windowTarget (s : State) (f : Fibre) (t : Word) : Option (Nat × Fibre × Group) :=
  if (t &&& ~~~0x7800FFFF#32) != 0 then none
  else match s.resident? (s.site f).coreIx (bitsOf t.toNat 30 27) with
    | none => none
    | some (g, grp) =>
      match s.slot? g (bitsOf t.toNat 15 0) with
      | some (k, x) => if x.windowed then some (k, x, grp) else none
      | none => none
def runCode : RunState → Nat
  | .ready => 0 | .waiting _ => 1 | .stopped => 2 | .halted => 3 | .ended => 4
/-- The registers a fibre stopped in a wait for an entry still has coming: those of QPOP, of OQPOP. -/
def State.popTargets (s : State) (f : Fibre) : List Nat :=
  match f.wait, f.stopIn with
  | some (.qpop _ n d), _ => (List.range n).map (d + ·)
  | none, some .opQueue =>
    (match (decodeRaw ⟨s.peekWord f f.rp.addr, s.peekWord f (f.rp.addr + 4), 0⟩).instr with
     | some (.oqpop _ d _ n) => (List.range (n.toNat + 2)).map (d.toNat + ·)
     | _ => [])
  | _, _ => []
/-- The value of an item, with its PENDING and POISONED bits. -/
def State.itemValue (s : State) (k : Nat) (f : Fibre) (g : Group) : Item → Word × Word
  | .reg r =>
    let pend := (s.pendingSlots k).contains r || (f.handle? r).isSome || (s.popTargets f).contains r
    (f.reg r, w32 (bit pend <<< 4 ||| bit (f.poison.any fun p => p.1 == r) <<< 3))
  | .preds b => (((f.preds ||| 1) >>> (32 * b)).setWidth 32, 0)
  | .special n => ((s.readSpecial f n).getD 0 0, 0)
  | .hdr hi => (half f.rp.hdr hi, 0)
  | .idx => (w32 f.rp.idx, 0)
  | .run => (w32 (runCode f.run), 0)
  | .record e j =>
    (match f.replay[e]? with
     | some r => (match j with | 0 => loWord r.acc.addr | 1 => hiWord r.acc.addr | 2 => w32 (kindNum r.kind) | _ => r.seat.ord.setWidth 32)
     | none => 0, 0)
  | .count => (w32 f.replay.length, 0)
  | .inHandler => (w32 (bit f.inH), 0)
  | .spad off => (w32 (leNat (s.getBytes (s.spLoc g off) 4)), 0)
  | .none => (0, 2)
def execAwrd (h : Head) (d a b c : Reg) (s : State) : Host.Outcome State Fault Refusal :=
  let i := Instr.awrd h d a b c
  issueWord i s fun k f =>
    match s.windowTarget f (f.read k a.toNat) with
    | none => s.finish k i f (f.setReg c.toNat 1)
    | some (t, x, g) =>
      let it := itemOf (f.read k b.toNat).toNat x.regs.length g.spad
      let blocked := match it with | .spad off => s.loggedByOther t (s.spLoc g off) 4 | _ => false
      if blocked then s.waitFor k f .memory
      else if it = .none then s.finish k i f (f.setReg c.toNat 2)
      else s.finish k i f ((f.setReg d.toNat (s.itemValue t x g it).1).setReg c.toNat (s.itemValue t x g it).2)
/-- A register of a stopped fibre written: outstanding data for it is dropped, its record goes (R272). -/
def State.windowReg (s : State) (k : Nat) (f : Fibre) (r : Nat) (v : Word) : State × Bool :=
  let covers := fun (d n : Nat) => d ≤ r && r < d + n
  let out := (s.pendingSlots k).contains r
  let pop := (s.popTargets f).contains r
  let recs := f.replay.any fun x => covers x.acc.dst x.acc.ndst
  let s : State := { s with ops := s.ops.map fun o =>
    if o.fib != k || o.gone then o
    else match o.body with
      | .mem a x => if covers a.dst a.ndst then { o with body := .mem { a with ndst := 0 } x } else o
      | .acc (.read t row blk (some d)) => if covers d 32 then { o with body := .acc (.read t row blk none) } else o
      | .result rs ps nv => { o with body := .result (rs.filter fun e => e.1 != r) ps nv }
      | _ => o }
  (s.modFibre k fun f => { (f.setReg r v) with
    replay := f.replay.filter fun x => !covers x.acc.dst x.acc.ndst, flight := f.flight.filter (·.slot != r), dropped := f.dropped || pop },
   out || pop || recs || (f.handle? r).isSome)
/-- A resume point written through the window: nothing of the word that stood there goes on. -/
def Fibre.repoint (f : Fibre) (p : RP) : Fibre :=
  { f with rp := p, rep := none, inv := none, wait := none, arrive := none, stopIn := none, owed := none, drawn := [] }
/-- An item written; none where it is not writable, else whether it overrode. -/
def State.windowWrite (s : State) (k : Nat) (f : Fibre) (g : Group) (v : Word) : Item → Option (State × Bool)
  | .reg r => some (s.windowReg k f r v)
  | .preds b =>
    let keep : BitVec 96 := ~~~((0xFFFFFFFF#96) <<< (32 * b))
    some (s.setFibre k { f with preds := ((f.preds &&& keep) ||| (v.setWidth 96 <<< (32 * b))) &&& ~~~1#96 }, false)
  | .special n =>
    if !srWritable n then none
    else
      let v2 := (s.readSpecial f n).getD 1 0
      if groupSpecial n then some (s.modGroup f.grp fun g => g.writeSpecial n v v2, false)
      else some (s.setFibre k (f.writeSpecial n v v2), false)
  | .hdr hi => some ((s.dropCarried (wordKey k)).setFibre k { f.repoint ⟨setHalf f.rp.hdr hi v, f.rp.idx⟩ with hdr := none }, false)
  | .idx => some ((s.dropCarried (wordKey k)).setFibre k (f.repoint ⟨f.rp.hdr, bitsOf v.toNat 3 0⟩), false)
  | .count => if v = 0 then some (s.setFibre k { f with replay := [] }, false) else none
  | .inHandler => some (s.setFibre k { f with inH := v != 0 }, false)
  | .spad off => some (s.store (s.spLoc g off) (leBytes 4 v.toNat), false)
  | _ => none
def execAwwr (h : Head) (d a b c : Reg) (s : State) : Host.Outcome State Fault Refusal :=
  let i := Instr.awwr h d a b c
  issueWord i s fun k f =>
    match s.windowTarget f (f.read k a.toNat) with
    | none => s.finish k i f (f.setReg c.toNat 1)
    | some (t, x, g) =>
      let it := itemOf (f.read k b.toNat).toNat x.regs.length g.spad
      let blocked := match it with | .spad off => s.loggedByOther t (s.spLoc g off) 4 | _ => false
      if blocked then s.waitFor k f .memory
      else match s.windowWrite t x g (f.read k d.toNat) it with
        | some (s', over_) => s'.finish k i f (f.setReg c.toNat (w32 (bit over_ <<< 2)))
        | none => s.finish k i f (f.setReg c.toNat 2)

/-! ## HSTOP and HRESUME (R273) -/

/-- The fibres a selector names. -/
def State.selected (s : State) (f : Fibre) (sel : Word) (grp : Bool) (x : Fibre) : Bool :=
  (x.kind == .real || x.kind == .helper) &&
    (if grp then ((s.resident? (s.site f).coreIx sel.toNat).map fun g => x.grp == g.1).getD false else sel != 0 && s.jobOf x == sel.toNat)
def execHstop (h : Head) (d a : Reg) (grp : Bool) (s : State) : Host.Outcome State Fault Refusal :=
  let i := Instr.hstop h d a grp
  issueWord i s fun k f =>
    let sel := f.read k a.toNat
    let g := if grp then (s.resident? (s.site f).coreIx sel.toNat).map (·.1) else none
    let (_, f1, s1) := s.launchOp k f .none (some d.toNat) (.stop (if grp then none else some sel.toNat) g) (s.ordAt f f.rp)
    (s1.mapFibres fun _ x => if s.selected f sel grp x then x.askStop s.clk .hstop else x).finish k i f f1
/-- HRESUME: the job's instruction-cache lines go on every core, then what HSTOP stopped continues. -/
def execHresume (h : Head) (a : Reg) (grp : Bool) (s : State) : Host.Outcome State Fault Refusal :=
  let i := Instr.hresume h a grp
  issueWord i s fun k f =>
    let sel := f.read k a.toNat
    let held := fun (x : Fibre) => s.selected f sel grp x && (x.holds.contains .hstop || x.stopReq.contains .hstop)
    match s.fibres.find? held with
    | none => s.finish k i f f
    | some x =>
      let job := s.jobOf x
      let s1 : State := { s with cores := s.cores.map fun c => (c.1, { c.2 with icache := c.2.icache.filter fun e => e.1 != job }) }
      (s1.mapFibres fun _ x => if held x then x.release .hstop else x).finish k i f f

end Sys2Proof.Machine
end

