-- ==== Sys2Proof/Machine/DebugWords.lean ====
section
/-! DEFINITION. BRKP, TRACE and MARK (R370, R371), the debug commands (R361), debug tokens (R357), the top-down counters
(R366), samples (R367) and the noise source's modes (R368). -/

namespace Sys2Proof.Machine

/-- BRKP: a debug stop past the word; nothing in a helper, in control mode, on the handler slot, or while feature 0 is
closed. -/
def execBrkp (h : Head) (n : BitVec 8) (s : State) : Host.Outcome State Fault Refusal :=
  let i := Instr.brkp h n
  issueWord i s fun k f =>
    if f.isHelper || f.privileged || !s.feature 0 then s.finish k i f f
    else
      let core := (s.site f).coreIx
      let s1 := s.debugRecord core 2 0 (s.ordAt f f.rp).toNat n.toNat f 0 0 0
      let f1 := ((f.counted f i true s.clk).pass 2).hold s.clk .debug
      (s1.setFibre k { f1 with stepping := false }).noteIssue k f i true
def execTrace (h : Head) (a b : Reg) (two : Bool) (id : BitVec 8) (s : State) : Host.Outcome State Fault Refusal :=
  let i := Instr.trace h a b two id
  issueWord i s fun k f =>
    if f.isHelper then s.finish k i f f
    else (s.debugRecord (s.site f).coreIx 7 0 (s.ordAt f f.rp).toNat id.toNat f 0 (f.read k a.toNat)
      (if two then f.read k b.toNat else 0)).finish k i f f
def execMark (h : Head) (m : BitVec 13) (s : State) : Host.Outcome State Fault Refusal :=
  let i := Instr.mark h m
  issueWord i s fun k f =>
    if f.isHelper then s.finish k i f f
    else (s.debugRecord (s.site f).coreIx 8 0 (s.ordAt f f.rp).toNat 0 f 0 (m.setWidth 32) (f.mark.setWidth 32)).finish k i f
      { f with mark := m }

/-! ## CDBGCMD (R361) -/

/-- The command is done: GO reads 0, NOTGT says whether it found its target. -/
def State.commandDone (s : State) (core : Nat) (found : Bool) : State :=
  s.modCore core fun c => { c with cdbg := (c.cdbg &&& 0x7EFFFFFF) ||| (if found then 0 else 0x01000000) }
/-- A fibre that debug stopped continues (R361): its next word is not matched again. -/
def Fibre.debugGo (f : Fibre) : Fibre := { f with passCmp := true, stepping := false }.release .debug
/-- A command of an operation that waits to be applied, with the group and fibre it names. -/
def State.command (s : State) (core op : Nat) : Option (Option Nat × Nat) :=
  let w := (s.core core).cdbg
  if w.getLsbD 31 && bitsOf w.toNat 30 29 == op then some ((s.resident? core (bitsOf w.toNat 28 25)).map (·.1), bitsOf w.toNat 15 0) else none
/-- The fibre a command names, where debug has stopped it. -/
def State.debugStopped (s : State) (g : Option Nat) (fid : Nat) : Option Nat :=
  match g.bind fun g => s.slot? g fid with
  | some (k, f) => if f.run == .stopped && f.holds.contains .debug then some k else none
  | none => none
/-- The members of the span of a fibre's slot. -/
def State.spanOf (s : State) (g : Option Nat) (fid : Nat) : List (Nat × Fibre) :=
  ((g.map s.members).getD []).filter fun p => p.2.fid / 32 == fid / 32
/-- Step: the fibre runs to its next stop site (R89). One stopped in a wait has issued its word already. -/
def execDbgStepFibre (core : Nat) (s : State) : Host.Outcome State Fault Refusal :=
  .next <| match s.command core 0 with
  | none => s
  | some (g, fid) =>
    match s.debugStopped g fid with
    | some k => (s.modFibre k fun f => { f.debugGo with stepping := true, passCmp := f.wait.isNone && f.arrive.isNone }).commandDone core true
    | none => s.commandDone core false
/-- Stop span (R90); its record follows when the stop is complete. -/
def execDbgStopSpan (core : Nat) (s : State) : Host.Outcome State Fault Refusal :=
  .next <| match s.command core 1 with
  | none => s
  | some (g, fid) =>
    match g, s.spanOf g fid with
    | some g, l@(_ :: _) =>
      let s := l.foldl (fun s p => s.modFibre p.1 fun f => f.askStop s.clk .debug) s
      (s.modCore core fun c => { c with spans := c.spans ++ [(g, fid / 32)],
                                        spanSet := c.spanSet.filter (· != (g, fid / 32)) ++ [(g, fid / 32)] }).commandDone core true
    | _, _ => s.commandDone core false
def execDbgResumeSpan (core : Nat) (s : State) : Host.Outcome State Fault Refusal :=
  .next <| match s.command core 2 with
  | none => s
  | some (g, fid) =>
    let l := (s.spanOf g fid).filter fun p => p.2.run == .stopped && p.2.holds.contains .debug
    let s := match g with
      | some g => s.modCore core fun c => { c with spanSet := c.spanSet.filter (· != (g, fid / 32)) }
      | none => s
    (l.foldl (fun s p => s.modFibre p.1 Fibre.debugGo) s).commandDone core (!l.isEmpty)
def execDbgResumeFibre (core : Nat) (s : State) : Host.Outcome State Fault Refusal :=
  .next <| match s.command core 3 with
  | none => s
  | some (g, fid) =>
    match s.debugStopped g fid with
    | some k => (s.modFibre k Fibre.debugGo).commandDone core true
    | none => s.commandDone core false

/-! ## Debug tokens (R357) -/

/-- What verifying a token gives: 0 OK, 1 FAULT, 7 ACCESS. -/
def tokenStatus (t : List Byte) (nonce : BitVec 64) : Nat :=
  let field := fun (lo n : Nat) => leNat ((t.drop lo).take n)
  if field 0 4 != 0x54444C4B || field 4 4 != 1 || field 88 72 != 0 || field 72 8 ≥ 16 then 1
  else if field 8 16 != Config.serial.toNat || field 24 48 != Config.idHash.toNat || field 80 8 != nonce.toNat ||
    !Config.tokenSigned (t.take 160) (t.drop 160) then 7
  else 0
def execDbgTokenVerify (s : State) : Host.Outcome State Fault Refusal := .next (s.modPkg fun p => { p with dbgBusy := true })
def execDbgTokenResult (s : State) : Host.Outcome State Fault Refusal :=
  .next <|
    if !s.pkg.dbgBusy then s
    else
      let t := (s.pkg.dbgtok ++ List.replicate 256 0).take 256
      let st := tokenStatus t s.pkg.nonce
      let mask := if st = 0 then BitVec.ofNat 4 (leNat ((t.drop 72).take 1)) else 0
      let s1 := s.modPkg fun p => { p with dbgBusy := false, dbgStat := st, dbgFeat := p.dbgFeat ||| mask }
      if st = 0 then s1 else s1.alarm 3 0 0 0 0

/-! ## Top-down counters and noise modes, as their registers are written (R366, R368) -/

def execTopdownClear (core : Nat) (s : State) : Host.Outcome State Fault Refusal :=
  .next (if s.feature 2 then s.tdClear core else s)
def execTopdownFreeze (core : Nat) (on : Bool) (s : State) : Host.Outcome State Fault Refusal :=
  .next (if s.feature 2 then s.tdFreeze core on else s)
def execNoiseModeDirect (core : Nat) (s : State) : Host.Outcome State Fault Refusal :=
  .next (if s.feature 3 then s.noiseMode core 0 else s)
def execNoiseModeLog (core : Nat) (s : State) : Host.Outcome State Fault Refusal :=
  .next (if s.feature 3 then s.noiseMode core 1 else s)
def execNoiseModeReplay (core : Nat) (s : State) : Host.Outcome State Fault Refusal :=
  .next (if s.feature 3 then s.noiseMode core 2 else s)

/-! ## Samples (R367) -/

/-- The leaf of R365 that a wait is charged to. -/
def waitLeaf : Why → Nat
  | .memory => 6 | .ending => 6 | .replay => 6 | .trig => 6
  | .opQueue => 7
  | .counter => 8 | .full => 8
  | .future => 9
  | .barrier => 10
  | .matrix => 11 | .tilePort => 11
  | .tag => 12
  | .scoreboard => 15 | .engine => 15
  | .fetch => 4
  | .queue => 14 | .rendezvous => 14 | .sigwt => 14 | .dwait => 14 | .nap => 14 | .tagq => 14
/-- Whether a fibre stands between two evaluations of INV: at the routine's end, or at its start with an evaluation behind it (R135). -/
def Fibre.betweenEvals (f : Fibre) : Bool :=
  match f.inv with
  | some v => f.hdr.isSome && (f.rp.idx ≥ f.header.count || (f.rp.idx == 0 && v.evals != 0))
  | none => false
/-- The leaf of a fibre that did not issue in the clk (R366): one between two evaluations of INV waits for the comparison (R135); a
ready one has no header yet, or its next word is to be fetched, or it waits for its fixed latencies. -/
def State.leafOf (s : State) (f : Fibre) : Nat :=
  let held := fun (a : DWord) => (s.cached (s.site f).coreIx (s.jobOf f) a).isSome
  match f.run with
  | .waiting w => waitLeaf w
  | .ready =>
    if f.betweenEvals then 13
    else if f.hdr.isNone then (if held f.rp.hdr then 5 else 4)
    else if held f.pc then 15 else 4
  | .stopped => 17
  | .halted | .ended => 16
/-- The oldest active fibre of a core that did not issue in this clk (R151, R366): since it last issued, or its group became active. -/
def State.oldestIdle (s : State) (core : Nat) : Option Fibre :=
  let l := s.fibres.filter fun f => (f.kind == .real || f.kind == .helper) && f.run != .ended && f.run != .halted &&
    !(f.lastClk == s.clk && f.issued > 0) && ((s.group? f.grp).map fun g => g.coreIx == core && g.active && g.resident).getD false
  (sortBy (fun f => max f.lastClk (((s.group? f.grp).map (·.actClk)).getD 0)) l).head?
/-- The fibre and leaf that a slot is charged to in this clk: those of the batch that uses it; of a slot that starts no word the leaf of a
frozen or withheld clk, else the oldest fibre that did not issue (R366). -/
def State.charged (s : State) (core slot : Nat) (still : Option Nat) : Option Fibre × Nat :=
  match (s.core core).slots[slot]?, still with
  | some u, _ => (s.fibre? u.fib, u.leaf)
  | none, some leaf => (none, leaf)
  | none, none => match s.oldestIdle core with
    | some f => (some f, s.leafOf f)
    | none => (none, 16)
/-- The clk between two samples of a core, 0 where it takes none (R364, R367). -/
def Core.samplePeriod (c : Core) : Nat :=
  let per := bitsOf c.trr.ctl.toNat 15 11
  if per = 0 then 0 else 2 ^ (min per 20 + 4)
/-- The sample of this clk: sample j falls on the clk j periods from 0, once, and takes slot j mod 4 (R367). -/
def State.sample (s : State) (core : Nat) (still : Option Nat) : State :=
  let p := (s.core core).samplePeriod
  let j := s.clk / p
  if p = 0 || !s.feature 1 || s.clk % p != 0 || j = (s.core core).samples then s
  else
    let s := s.modCore core fun c => { c with samples := j }
    match s.charged core (j % 4) still with
    | (some f, leaf) => s.debugRecord core 9 0 (s.ordAt f f.here).toNat leaf f 0 (f.mark.setWidth 32) (w32 (j % 4))
    | (none, leaf) => s.debugRecord core 9 0 0xFFFFFF leaf (Fibre.fresh .real noGroup 0xFFFF 0 0 0 0) 0 0 (w32 (j % 4))
/-- A span of n clk in which nothing changes is charged (R366), and its first clk sampled: slots in use to their leaves, the others to the
leaf of frozen or withheld clk or to the oldest fibre that did not issue; what is charged to no leaf is idle (Regs). -/
def State.chargeSpan (s : State) (core n : Nat) (still : Option Nat) : State :=
  let s := s.sample core still
  let c := s.core core
  let s := c.slots.foldl (fun s u =>
    let s := s.charge core u.leaf n
    if u.leaf = 0 && !c.ctdc.getLsbD 1 then s.modFibre u.fib fun f => { f with useful := f.useful + n } else s) s
  let free := (4 - c.slots.length) * n
  let s := match still, s.oldestIdle core with
    | some leaf, _ => s.charge core leaf free
    | none, some f => s.charge core (s.leafOf f) free
    | none, none => s
  s.modCore core fun c => { c with slots := c.slots.filterMap fun u => if u.left > n then some { u with left := u.left - n } else none }
/-- The next n clk of a core are charged: a span ends where slots may come free, where the core goes on, and before a clk that is sampled. -/
def State.chargeClks (core : Nat) (held : Option Nat) : Nat → Nat → State → State
  | 0, _, s => s
  | fuel + 1, n, s =>
    if n = 0 then s
    else
      let c := s.core core
      let frozen := decide (s.clk < c.frozen)
      let m := if !c.slots.isEmpty then 1 else if frozen then min n (c.frozen - s.clk) else n
      let m := if c.samplePeriod = 0 then m else min m (c.samplePeriod - s.clk % c.samplePeriod)
      let s := s.chargeSpan core m (if held.isSome then held else if frozen then some 18 else none)
      State.chargeClks core held fuel (n - m) { s with clk := s.clk + m }
/-- The cores with something to charge. -/
def State.busyCores (s : State) : List Nat :=
  (((s.groups.filter fun g => g.active && g.resident && g.job != 0).map Group.coreIx) ++
    (s.cores.filter fun c => !c.2.slots.isEmpty || s.clk < c.2.frozen || c.2.samplePeriod != 0).map (·.1)).eraseDups
/-- n clk charged on every core of a list (R365); withheld ones by their leaf. -/
def State.chargeCores (s : State) (l : List Nat) (held : Option Nat) (n : Nat) : State :=
  if n = 0 then s
  else l.foldl (fun s c => { State.chargeClks c held (n / 32 + 8) n s with clk := s.clk }) s
def State.chargeAll (s : State) (n : Nat) : State := s.chargeCores s.busyCores none n
/-- TRACE_SAMPLE: a core takes the sample of this clk, where it is due and not taken. -/
def execTraceSample (core : Nat) (s : State) : Host.Outcome State Fault Refusal :=
  .next (s.sample core (if s.clk < (s.core core).frozen then some 18 else none))

end Sys2Proof.Machine
end

