-- ==== Sys2Proof/Machine/Turn.lean ====
section
/-! DEFINITION. A fibre's turn before its word executes: whether it may issue, the clause header and its wait (R34),
fetching, stop sites (R43, R89, R359), decode traps (R56, R57), REP's and INV's framing (R49, R52). -/

namespace Sys2Proof.Machine

/-- A turn that needs no execution, or the word to execute. -/
inductive Prep where
  | done (s : State)
  | run (s : State) (i : Instr)

/-- Whether a fibre may issue now: not stopped, halted or ended, in no wait or rendezvous that another step ends, its group
active or on the way to its stop sites for an eviction (R275), its core, die and package running and the slots not frozen (R82, R85, R149, R152). -/
def State.mayIssue (s : State) (f : Fibre) : Bool :=
  let p := s.site f
  (match f.run with | .ready => true | .waiting _ => true | _ => false) && f.wait.isNone && f.arrive.isNone &&
    !(s.core p.coreIx).dead && !(s.die p.die).dead && !s.pkg.held &&
    match f.kind with
    | .real | .helper => ((s.group? f.grp).map fun g => (g.active || g.evict.isSome) && !g.out && !g.exited && (s.core g.coreIx).frozen ≤ s.clk).getD false
    | .pacer => ((s.group? f.grp).map fun g => !g.out && !g.freed && (g.slice.map fun x => x.state == .running).getD false).getD false
    | .control _ => true
    | .handler _ _ => f.serving.isSome
    | .engine _ _ _ => false

/-- A fibre's allocation and tiles (R40, R148). -/
def State.allocation (s : State) (f : Fibre) : Nat × Nat :=
  (f.regs.length, ((s.group? f.grp).map fun g => if f.isPacer then 0 else g.tmap.length).getD 0)

/-- A decode trap, or what a Pacer context does instead (R56, R156). -/
def State.decodeTrap (s : State) (k : Nat) (f : Fibre) (w0 w1 : Word) (cause : Nat) : State :=
  if f.isPacer then s.sliceFault f.grp else s.userTrap k (wordTrap f w0 w1 cause) f.rp false

/-- A fetch that did not give its word. -/
def State.fetchFailed (s : State) (k : Nat) (f : Fibre) (r : Fetched) (a : DWord) (w0 w1 : Word) : State :=
  match r with
  | .bad 1 => if f.isPacer then s.pacerTrap k f f.rp else s.fetchStop k f r a f.rp w0 w1
  | _ => s.fetchStop k f r a f.rp w0 w1

/-! ## Clause headers -/

/-- The clause wait of R34. -/
def Fibre.clauseWaits (f : Fibre) (h : Header) : Bool :=
  (h.cp && f.occp.toNat > h.thr) || (h.mx && f.ocmx.toNat > h.thr) || (h.ga && f.ocga.toNat > h.thr) || (h.fx && f.ocfx.toNat > h.thr)
/-- The header is fetched, checked, waited for and latched. The result is none where the fibre goes on to its word. R44 makes a
computed branch to an address that is misaligned or above 57 bits cause 0x0B; DESIGN CHOICE for every other way there (launch
entry, RFT, AWWR): the fetch fails in translation, KIND 0x01 (log 33). -/
def State.openClause (s : State) (k : Nat) (f : Fibre) : Option State × State :=
  match f.hdr with
  | some _ => (none, s)
  | none =>
    if f.isPacer && badHeader f.rp.hdr then (some (s.sliceFault f.grp), s)
    else if badHeader f.rp.hdr then (some (s.fetchFailed k f (.bad 1) f.rp.hdr 0 0), s)
    else
    match s.fetchWord f f.rp.hdr with
    | (.ok w, s) =>
      match lowest (headerCauses w) with
      | some c => (some (s.decodeTrap k f w 0 c), s)
      | none =>
        if f.isPacer && (Header.ofWord w).guard ≥ 16 then (some (s.sliceFault f.grp), s)
        else if f.rp.idx = 0 && f.clauseWaits (Header.ofWord w) then (some (s.waitFor k f .counter), s)
        else (none, s.modFibre k fun f => { f with hdr := some w })
    | (r, s) => (some (s.fetchFailed k f r f.rp.hdr 0 0), s)

/-! ## The words of one instruction -/

/-- The instruction's words at an index of the clause. Words past the clause's end are not fetched; DESIGN CHOICE: %xopi of the
misframed instruction's trap shows them as 0 (R56, log 33). -/
def State.fetchInstr (s : State) (f : Fibre) (idx count : Nat) : Except (Fetched × DWord × Word) Raw × State :=
  let a := BitVec.ofNat 64 (RP.addr ⟨f.rp.hdr, idx⟩)
  match s.fetchWord f a with
  | (.ok w0, s) =>
    let two := (w0.extractLsb 26 21).toNat == 0x3B || wordCount w0 0 > 1
    if !two || idx + 1 ≥ count then (.ok ⟨w0, 0, 0⟩, s)
    else match s.fetchWord f (a + 4) with
      | (.ok w1, s) =>
        if wordCount w0 w1 < 3 || idx + 2 ≥ count then (.ok ⟨w0, w1, 0⟩, s)
        else match s.fetchWord f (a + 8) with
          | (.ok w2, s) => (.ok ⟨w0, w1, w2⟩, s)
          | (r, s) => (.error (r, a + 8, w0), s)
      | (r, s) => (.error (r, a + 4, w0), s)
  | (r, s) => (.error (r, a, 0), s)

/-! ## Stop sites -/

/-- The breakpoint comparators that match a fibre at an address (R359). -/
def State.breakHits (s : State) (f : Fibre) (addr : DWord) : List (Nat × Cmp) :=
  if f.isHelper || f.isPacer || !s.feature 0 then []
  else
    let rgi := ((s.group? f.grp).map (·.rgi)).getD 0
    ((s.core (s.site f).coreIx).cmps.mapIdx fun i c => (i, c)).filter fun p =>
      let x := p.2.ctl.toNat
      bitsOf x 5 4 == 1 && p.2.addr.toNat / 4 % 2 ^ 55 == addr.toNat / 4 % 2 ^ 55 &&
        (bitsOf x 31 16 == 0xFFFF || bitsOf x 31 16 == f.fid) && (x.testBit 11 || bitsOf x 15 12 == rgi)
/-- A step's end or a breakpoint before a stop-site word at an address (R89, R359, R361): the record, and whether the fibre stops. A match
that only records is not made again for this word. -/
def State.debugSite (s : State) (k : Nat) (f : Fibre) (addr : DWord) : Bool × State :=
  let core := (s.site f).coreIx
  let ord := (s.ordAt f f.here).toNat
  if f.passCmp then (false, s)
  else if f.stepping then
    (true, (s.setFibre k { (f.hold s.clk .debug) with stepping := false }).debugRecord core 3 0 ord 0 f 0 0 0)
  else match s.breakHits f addr with
    | [] => (false, s)
    | (i, c) :: l =>
      let all := (i, c) :: l
      let stop := all.any fun p => !p.2.ctl.getLsbD 6
      let span := stop && all.any fun p => p.2.ctl.getLsbD 7
      let s := s.debugRecord core 1 i ord 0 f (bit span <<< 1 ||| bit (!stop) <<< 2) 0 0
      if stop then
        let s := if span then s.askDebug k f true else s
        (true, s.modFibre k fun f => { (f.hold s.clk .debug) with stopReq := f.stopReq.filter (· != .debug) })
      else (false, s.modFibre k fun f => { f with passCmp := true })
/-- What happens before a stop-site word at an address (R43, R89, R90, R359): debug comes first and is recorded first (R362), then the stops
already asked for; whether the fibre stops. -/
def State.stopSite (s : State) (k : Nat) (f : Fibre) (addr : DWord) : Bool × State :=
  let (held, s) := s.debugSite k f addr
  if f.stopReq.isEmpty then (held, s)
  else (true, s.modFibre k fun g => g.stopReq.foldl (fun x h => x.hold s.clk h) g)

/-! ## REP and INV -/

/-- REP's target, checked before the first repeat (R49, R50). -/
def State.prepareRep (s : State) (k : Nat) (f : Fibre) (h : Header) (r : Raw) (nregs ntiles : Nat) : Option State × State :=
  let fields : Fields := ⟨r.w0.getLsbD 11, r.w0.getLsbD 10, r.w0.getLsbD 9, r.w0.getLsbD 8⟩
  let stride := if r.w0.getLsbD 7 then 2 else 1
  let n := bitsOf r.w0.toNat 17 12 + 1
  if f.rp.idx + 1 ≥ h.count then (some (s.decodeTrap k f r.w0 0 5), s)
  else match s.fetchInstr f (f.rp.idx + 1) h.count with
    | (.error (x, a, w), s) => (some (s.fetchFailed k f x a w 0), s)
    | (.ok t, s) =>
      match lowest (repCauses h.cls f.rp.idx h.count nregs ntiles f.isPacer f.privileged n fields stride t) with
      | some c => (some (s.decodeTrap k f r.w0 0 c), s)
      | none => (none, s)
/-- The first of the words of INV and its routine that carries the lowest cause, with its address (R52). -/
def firstCause (l : List (DWord × Raw × List Nat)) : Option (Nat × DWord × Raw) :=
  match lowest (l.flatMap fun e => e.2.2) with
  | none => none
  | some c => (l.find? fun e => e.2.2.contains c).map fun e => (c, e.1, e.2.1)
/-- INV's routine, checked before the first evaluation. `own` are the causes of INV's own words. -/
def State.prepareInv (s : State) (k : Nat) (f : Fibre) (h : Header) (r : Raw) (own : List Nat) (nregs ntiles : Nat) :
    Option State × State :=
  let own := own ++ causesOf [(f.rp.idx + 2 != h.count, 7), (h.cls != 0 && h.cls != 6, 7)]
  let ra := f.nextClause
  match s.fetchWord f ra with
  | (.ok w, s) =>
    let rh := Header.ofWord w
    match s.fetchWords f (ra + 4) rh.count with
    | (.ok ws, s) =>
      let body := clauseCauses rh.cls rh.count nregs ntiles f.isPacer f.privileged 16 0 ws
      let list := (f.pc, r, own) :: (ra, ⟨w, 0, 0⟩, routineHeaderCauses w) :: body.map fun e => (ra + BitVec.ofNat 64 (4 + 4 * e.1), e.2.1, e.2.2)
      match firstCause list with
      | some (c, a, x) =>
        let x1 := if a = ra then 0 else (if wordCount x.w0 x.w1 > 1 then x.w1 else 0)
        (some (s.decodeTrap k f x.w0 x1 c), s)
      | none => (none, s)
    | (.error (x, a), s) => (some (s.fetchFailed k f x a r.w0 r.w1), s)
  | (x, s) => (some (s.fetchFailed k f x ra r.w0 r.w1), s)

/-! ## The turn -/

/-- The word of the REP in progress: the fibre's resumption point names it, so it is fetched again with its target (R50). -/
def State.repWord (s : State) (f : Fibre) : Fetched × State :=
  match f.rep with
  | none => (.ok 0, s)
  | some p => s.fetchWord f (BitVec.ofNat 64 p.addr)
/-- What an access slice may not hold (R154): a word not listed, a register at or above 32, a predicate at or above 16. -/
def pacerBars (i : Instr) (w0 : Word) : Bool := !pacerWord i w0 || runsBad 32 i.runs || (predsNamed i).any (16 ≤ ·)
/-- A fibre's turn up to its word. DEDUCED: where REP and its target both carry causes, REP's own come first (R57, log 33). -/
def State.prepareWord (s : State) (k : Nat) : Prep :=
  match s.fibre? k with
  | none => .done s
  | some f =>
    let h := f.header
    let idx := if f.rep.isSome then f.rp.idx + 1 else f.rp.idx
    if f.inv.isSome && idx ≥ h.count then .done (s.invEnd k) else
    match s.repWord f with
    | (.walk, s) => .done (s.fetchFailed k f .walk f.pc 0 0)
    | (.bad n, s) => .done (s.fetchFailed k f (.bad n) (BitVec.ofNat 64 f.rp.addr) 0 0)
    | (.ok w, s) =>
    let n := bitsOf w.toNat 17 12 + 1
    match s.fetchInstr f idx h.count with
    | (.error (x, a, w), s) => .done (s.fetchFailed k f x a w 0)
    | (.ok r, s) =>
      -- a REP resumed with no repeat left is over (R50)
      if f.rep.isSome && f.rc = 0 then .done (s.setFibre k (f.pass (wordCount r.w0 r.w1))) else
      -- between two repeats; before the first the stop site was REP itself
      let stop := if f.rep.isSome then w.getLsbD 28 && f.rc.toNat < n else r.h.stop && f.inv.isNone
      match (if stop then s.stopSite k f (BitVec.ofNat 64 f.rp.addr) else (false, s)) with
      | (true, s) => .done s
      | (false, s) =>
        let (nregs, ntiles) := s.allocation f
        -- a repeat's fields are stepped (R49)
        let r := if f.rep.isNone then r
          else stepRaw r ⟨w.getLsbD 11, w.getLsbD 10, w.getLsbD 9, w.getLsbD 8⟩ ((n - f.rc.toNat) * (if w.getLsbD 7 then 2 else 1))
        let cs := wordCauses h.cls idx h.count nregs ntiles f.isPacer f.privileged r
        let di := (decodeRaw r).instr
        if idx + wordCount r.w0 r.w1 > h.count then .done (s.decodeTrap k f r.w0 r.w1 ((lowest cs).getD 5))
        else if f.isPacer && (di.map (pacerBars · r.w0)).getD false then .done (s.sliceFault f.grp)
        else match di with
        | some (.inv a b c d e g t u v) =>
          match s.prepareInv k f h r cs nregs ntiles with
          | (some s, _) => .done s
          | (none, s) => .run s (.inv a b c d e g t u v)
        | some i =>
          match lowest cs with
          | some c => .done (s.decodeTrap k f r.w0 (if i.size > 1 then r.w1 else 0) c)
          | none =>
            match i with
              | .rep a b c d e g t =>
                match s.prepareRep k f h r nregs ntiles with
                | (some s, _) => .done s
                | (none, s) => .run s (.rep a b c d e g t)
              | _ => .run s i
        | none => .done (s.decodeTrap k f r.w0 (if wordCount r.w0 r.w1 > 1 then r.w1 else 0) ((lowest cs).getD 2))

/-- A fibre's turn (R82). A trap it holds comes before anything else (R58). -/
def State.prepare (s : State) (k : Nat) : Prep :=
  match s.fibre? k with
  | none => .done s
  | some f =>
    if !s.mayIssue f then .done s
    else
      let s : State := { s with cur := k }
      match f.owed with
      | some x => .done (s.userTrap k x f.rp false)
      | none =>
      if f.lost then .done ((s.modFibre k fun f => { f with lost := false }).systemTrap k 7 0 f.rp 0 0) else
      match s.openClause k f with
      | (some s, _) => .done s
      | (none, s) => s.prepareWord k

end Sys2Proof.Machine
end

