-- ==== Sys2Proof/Machine/Completion.lean ====
section
/-! DEFINITION. What comes about after issue: results (R92), accesses (R146, R165), walks (R250), fetch errors (R59), the end of a
fibre and of its group (R80, R81), the active set (R150). -/

namespace Sys2Proof.Machine

/-! ## Results and accesses -/

/-- VARIABLE_LATENCY_COMPLETE: the results are written, which releases them on the scoreboard. -/
def execVariableLatencyComplete (op : Nat) (s : State) : Host.Outcome State Fault Refusal :=
  .next <| match s.op? op with
  | none => s
  | some o =>
    match o.body with
    | .result rs ps _ =>
      let s := s.dropOp op
      if o.gone then s else s.modFibre o.fib fun f => (f.setRegs rs).setPreds ps
    | _ => s
/-- An access in its turn: performed, or kept where an earlier access or lane, another fibre's undo entry or a refresh window stands before
it. It arrives at its target now, which judges it by the table as it stands (R308). A Pacer context's load that fails there, or meets an
uncorrectable element, stops the context (R156). A load or atomic of .sp whose instruction has lanes still to be served stays until they
are (R146). -/
def State.completeAccess (s : State) (op : Nat) (which : Access → Bool) : State :=
  match s.op? op with
  | none => s
  | some o =>
    match o.body, s.fibre? o.fib with
    | .mem a (.at_ loc), some f =>
      if !which a || o.done.isSome || !s.mayPerform o a (.at_ loc) || s.undoBlocked o.fib a loc || !s.bankTurn o a loc || !s.laneTurn o a || s.wsHeld loc o.start then s
      else match s.arriveAt (s.master f) (s.jobOf f) a.kind.acc a.addr.toNat loc with
      | (.at_ _, s) =>
        if f.isPacer && s.poisonedAt loc a.size then (s.dropOp op).sliceFault f.grp
        else if a.space == .sp && a.kind.reads && s.lanesLeft o && !s.poisonedAt loc a.size then
          (s.performAt o.fib a loc o.seat).modOp op fun x => { x with body := .mem a .served }
        else (s.dropOp op).performAt o.fib a loc o.seat
      | (.bad kind, s) => if f.isPacer then (s.dropOp op).sliceFault f.grp else (s.dropOp op).recordFault o.fib a kind o.seat
      | (_, s) => s
    | _, _ => s
def execLoadDataArrival (op : Nat) (s : State) : Host.Outcome State Fault Refusal :=
  .next (s.completeAccess op fun a => a.space != .sp && (a.kind == .ld || a.kind == .atom))
def execStoreAck (op : Nat) (s : State) : Host.Outcome State Fault Refusal :=
  .next (s.completeAccess op fun a => a.space != .sp && (a.kind == .st || a.kind == .red))
def execScratchpadLoadComplete (op : Nat) (s : State) : Host.Outcome State Fault Refusal :=
  .next (s.completeAccess op fun a => a.space == .sp)

/-! ## Walks (R250, R251) -/

/-- The walk a waiting access of any core is merged into. -/
def State.waitsFor (s : State) (die : Nat) (w : Walk) (o : Op) : Bool :=
  match o.body, s.fibre? o.fib with
  | .mem a .walking, some f =>
    transDie (s.site f) a.addr == die && s.jobOf f == w.job &&
      (match s.place false f a.space a.addr.toNat a.size a.kind.acc with | (.walk va, _) => va / 65536 == w.va / 65536 | _ => false)
  | _, _ => false
/-- A leaf enters the TLBs of every core with a miss that it answers; the walks of those misses are over (R250). -/
def State.fillAll (s : State) (die : Nat) (t : Tlb) (ws : List Walk) : State :=
  let cores := ((ws.filter fun w => t.covers w.job w.va).flatMap (·.cores)).eraseDups
  (cores.foldl (fun s c => s.tlbFill ⟨die, c.1, c.2⟩ t) s).modDie die fun d => { d with walks := d.walks.filter fun w => !t.covers w.job w.va }
/-- WALK_COMPLETE, of one of the 512 walks in flight: the leaf enters the TLBs and every miss inside its page goes on; a translation fault
enters the fault filter; every access that waited for a failed walk makes its own record. Fibres that wait to fetch, and Pacer contexts that
wait to load, try again. -/
def execWalkComplete (walk : Nat) (s : State) : Host.Outcome State Fault Refusal :=
  .next <| match (s.dies.flatMap fun d => (d.2.walks.take 512).map fun w => (d.1, w)).find? fun p => p.2.id == walk with
  | none => s
  | some (die, w) =>
    let all := (s.die die).walks
    let mine := s.ops.filter (s.waitsFor die w)
    let (r, s) := s.missDone die w.job w.va
    let s := s.modDie die fun d => { d with walks := d.walks.filter fun x => x.id != walk }
    match r, s with
    | .ok t, s =>
      let s := s.fillAll die t all
      ((s.ops.filter fun o => match o.body with | .mem _ .walking => true | _ => false).map (·.id)).foldl State.resolveAccess s
    | .error k, s =>
      let s := (mine.map (·.id)).foldl (fun s id => match s.op? id with
        | some o => match o.body with
          | .mem a _ => (s.dropOp id).recordFault o.fib a k o.seat
          | _ => s
        | none => s) s
      if k = .translation then s
      else s.mapFibres fun _ f =>
        let p := s.site f
        if p.die == die && w.cores.contains (p.clu, p.core) && s.jobOf f == w.job &&
          (f.run == .waiting .fetch || (f.isPacer && f.run == .waiting .memory)) then { f with walked := some (w.va / 65536) } else f
/-- INSTRUCTION_FETCH_ERROR (R59): the core logs the error (R163); the word is fetched again from memory; when that fails too, KIND 0x06 at the word. -/
def execInstructionFetchError (fib : Nat) (second : Bool) (s : State) : Host.Outcome State Fault Refusal :=
  .next <| match s.fibre? fib with
  | none => s
  | some f =>
    if !s.mayIssue f || f.run != .ready then s
    else
      let a := if f.hdr.isNone then f.rp.hdr else w64 f.rp.addr
      let word := (s.cached (s.site f).coreIx (s.jobOf f) a).getD 0
      let s := s.modCore (s.site f).coreIx fun c => { c with icache := c.icache.filter fun e => !(e.1 == s.jobOf f && e.2.1 == a) }
      let s := s.logCore (s.site f).coreIx 0 (a.toNat % 2 ^ 32) 3 0 (((s.group? f.grp).map (·.rgi)).getD 0) f.fid
      if second then s.fetchFailed fib f (.bad 6) a word 0 else s

/-! ## Ends (R80, R81) -/

/-- FIBRE_END: the waits of R80 steps 3 and 4; a nonempty replay list is delivered at END, but for a helper, which discards it. -/
def execFibreEnd (fib : Nat) (s : State) : Host.Outcome State Fault Refusal :=
  .next <| match s.fibre? fib with
  | none => s
  | some f =>
    match f.run, f.wait with
    | .waiting .ending, some (.ending early) =>
      if !s.replayDone fib then s
      else if !early && !f.isHelper && !f.replay.isEmpty then
        let f := { f with wait := none, run := .ready }
        (s.setFibre fib f).deliver fib f.rp (s.peekWord f f.rp.addr) 0
      else if s.endReady fib f then s.endFibre fib
      else s
    | _, _ => s
/-- Whether anything may still be delivered into what a group holds (R81). -/
def State.deliveriesLeft (s : State) (g : Nat) : Bool :=
  let core := (((s.group? g).map Group.coreIx).map s.core).getD Core.reset
  core.mmaq.any (·.grp == g) || (core.running.map fun m => m.1.grp == g).getD false ||
    s.ops.any (fun o => o.grp == g && match o.body with
      | .acc _ => true
      | .copy c => c.dst.space == .sp || c.bar.isSome
      | .gath x => !x.toq
      | .fab (.get d _ _ b) _ _ _ _ => d.space == .sp || b.isSome
      | .fab (.want d _ _ _) _ _ _ _ => d.space == .sp
      | _ => false)
def execGroupResourceRelease (grp : Nat) (s : State) : Host.Outcome State Fault Refusal :=
  .next <| match s.group? grp with
  | none => s
  | some x => if x.exited && !x.freed && s.exitStands (cluIx x.die x.clu) grp && !s.deliveriesLeft grp then s.freeGroup grp else s

/-! ## NAP (R107) -/

def execNapWake (fib : Nat) (s : State) : Host.Outcome State Fault Refusal :=
  .next <| match s.fibre? fib with
  | none => s
  | some f =>
    match f.run, f.wait with
    | .waiting .nap, some (.nap wake) => if wake ≤ s.clk then s.setFibre fib (f.leaveWait 1) else s
    | _, _ => s

/-! ## The active set (R150) -/

/-- Whether a fibre waits on a long-latency dependence, or is stopped, halted or ended. -/
def State.longWait (s : State) (k : Nat) (f : Fibre) : Bool :=
  match f.run with
  | .ready => false
  | .stopped | .halted | .ended => true
  | .waiting w =>
    match w with
    | .memory | .ending | .replay => (s.accesses k).any fun o => match o.body with | .mem a _ => a.space != .sp | _ => false
    | .scoreboard | .fetch | .opQueue | .tilePort | .full | .engine => false
    | .tagq | .counter | .future | .queue | .barrier | .rendezvous | .matrix | .tag | .nap | .dwait | .sigwt | .trig => true
/-- SWAP_OUT: an active group whose fibres all wait leaves for a pending group with a ready fibre. -/
def execSwapOut (grp : Nat) (s : State) : Host.Outcome State Fault Refusal :=
  .next <| match s.group? grp with
  | none => s
  | some g =>
    if g.active && g.resident && g.job != 0 && (s.oldestPending g.coreIx).isSome && (s.members grp).all fun p => s.longWait p.1 p.2 then
      (s.leaveActive grp).swapIn g.coreIx 16
    else s
/-- The longest-active groups without protection leave until n more slots fit. -/
def State.rotateOut (s : State) (core n : Nat) : List (Nat × Group) → State
  | [] => s
  | (g, _) :: l => if s.activeRoom core n then s else (s.leaveActive g).rotateOut core n l
/-- FORCED_ROTATION. -/
def execForcedRotation (core : Nat) (s : State) : Host.Outcome State Fault Refusal :=
  .next <| match s.oldestPending core with
  | none => s
  | some (_, x) =>
    if x.age < 1024 then s
    else (s.rotateOut core x.slots (sortBy (fun p => p.2.actClk) (s.coreGroups core fun g => g.active && g.unprot.isEmpty))).swapIn core 16

end Sys2Proof.Machine
end

