-- ==== Sys2Proof/Machine/DieEvents.lean ====
section
/-! DEFINITION. The weight store and its calendar (R242 to R246), scrubbers (R246, R253), translation invalidation (R252), clears of
counts (R162, R211, R254, R318), and what strikes the package: fatal errors, resets, alarms, limits, fuses (R253, R300, R301, R309 to R311). -/

namespace Sys2Proof.Machine

/-! ## The load phase and the load engine (R242) -/

def execWsPhaseEnter (die : Nat) (s : State) : Host.Outcome State Fault Refusal := .next (s.wsEnter die)
def execWsPhaseLeave (die : Nat) (s : State) : Host.Outcome State Fault Refusal := .next (s.wsExit die)
def execWsLoadGo (die : Nat) (s : State) : Host.Outcome State Fault Refusal := .next (s.wsGo die)
/-- n granules of a load, in ascending order: both ends are checked at their targets as the load engine's accesses; a poisoned
source writes a poisoned granule. -/
def State.loadGranules (s : State) (die src dst : Nat) (st : Status) : Nat → Status × State
  | 0 => (st, s)
  | n + 1 =>
    let master := 0x4330 + die
    if s.unreachable (physTarget src) then (.linkfail, s)
    else if !s.accessOk (physTarget src) master .read src then (.access, s.alarm 0 src (physTarget src) master 0)
    else if !s.accessOk (4 + die) master .write dst then (.access, s.alarm 0 dst (4 + die) master 0)
    else
      let bad := s.poisonedAt src 64
      let loc := Loc.weight die dst
      let s := s.store loc (s.getBytes src 64)
      State.loadGranules (if bad then (List.range 8).foldl (fun s j => s.poison (loc + 8 * j)) s else s) die (src + 64) (dst + 64) (if bad then mergeStatus st .dataerr else st) n
/-- WS_LOAD_COMPLETE: the engine's data are written; BUSY falls with the STATUS; a PHASE = 0 written meanwhile takes effect. -/
def execWsLoadComplete (die : Nat) (s : State) : Host.Outcome State Fault Refusal :=
  .next <|
    let x := s.die die
    if !x.wsctl.getLsbD 8 then s
    else
      let (st, s) := s.loadGranules die x.wsRun.1 x.wsRun.2.1 .ok (x.wsRun.2.2 / 64)
      s.modDie die fun x =>
        let w := wsStatus (x.wsctl &&& ~~~0x100#32) st
        { x with wsctl := if x.wsLeave then w &&& ~~~1#32 else w, wsLeave := false }

/-! ## The refresh calendar (R243, R245) -/

/-- The window of a bank group begins; at most one of a die has its own. -/
def execWsRefreshStart (die bank : Nat) (s : State) : Host.Outcome State Fault Refusal :=
  .next (if bank < 8 && inWindow bank s.clk && !(s.die die).inRefresh.contains bank then
    s.modDie die fun d => { d with inRefresh := d.inRefresh.filter (inWindow · s.clk) ++ [bank] } else s)
/-- The window ends: the scrubber's corrections are written back (R246). The reads that it held go on by the calendar itself. -/
def execWsRefreshEnd (die bank : Nat) (s : State) : Host.Outcome State Fault Refusal :=
  .next (if !inWindow bank s.clk then
    s.modDie die fun d => { d with inRefresh := d.inRefresh.filter (· != bank),
                                   wsFix := if d.inRefresh.contains bank then d.wsFix.filter (fun o => o / 0x30000000 != bank) else d.wsFix }
    else s)

/-! ## Patrol scrubbers (R246, R253) -/

/-- A scrubber's visit: a correction is counted and logged; an uncorrectable word is marked poisoned and logged once. -/
def State.scrub (s : State) (die addr loc unit clu : Nat) : ScrubErr → State
  | .clean => s
  | .corrected => s.logDie die addr unit 5 clu true 0
  | .uncorrectable => if s.poisonedAt loc 1 then s else (s.poison loc).logDie die addr unit 1 clu true 0
def execWsScrubVisit (die off : Nat) (err : ScrubErr) (s : State) : Host.Outcome State Fault Refusal :=
  .next <|
    if off ≥ 6 * 2 ^ 30 then s
    else
      let word := off / 8 * 8
      let s := s.scrub die word (Loc.weight die word) 3 (off / 0x30000000) err
      match err with
      | .corrected => s.modDie die fun d => { d with wsFix := if d.wsFix.contains word then d.wsFix else d.wsFix ++ [word] }
      | _ => s
/-- A granule of bonded DRAM, by its number. -/
def execDramScrubVisit (granule : Nat) (err : ScrubErr) (s : State) : Host.Outcome State Fault Refusal :=
  .next (if populated 0 (64 * granule) 64 then s.scrub (physHome (64 * granule)) (64 * granule) (64 * granule) 2 0 err else s)

/-! ## Translation invalidation (R252) -/

/-- A write of DTINVC with GO and a scope; a second GO while one runs finds it already going. -/
def State.dtinvGo (s : State) (die scope : Nat) : State :=
  if (s.die die).dtinvc.getLsbD 0 then s
  else (s.modDie die fun d => { d with dtinvc := w32 (2 * scope) }).dtinvStart die scope
def execDtinvPage (die : Nat) (s : State) : Host.Outcome State Fault Refusal := .next (s.dtinvGo die 0)
def execDtinvJob (die : Nat) (s : State) : Host.Outcome State Fault Refusal := .next (s.dtinvGo die 1)
def execDtinvAll (die : Nat) (s : State) : Host.Outcome State Fault Refusal := .next (s.dtinvGo die 2)
def execDtinvReservedScope (die : Nat) (s : State) : Host.Outcome State Fault Refusal := .next (s.dtinvGo die 3)
/-- Every access translated before has been performed: GO reads 0. -/
def execDtinvComplete (die : Nat) (s : State) : Host.Outcome State Fault Refusal :=
  .next <| match (s.die die).inval with
  | none => s
  | some (_, busy) =>
    if busy.all fun id => (s.op? id).isNone then s.modDie die fun d => { d with inval := none, dtinvc := d.dtinvc &&& 6 } else s

/-! ## Counts cleared by any write -/

def execCeccClear (core : Nat) (s : State) : Host.Outcome State Fault Refusal := .next (s.modCore core fun c => { c with cecc := 0 })
def execDeccClear (die : Nat) (s : State) : Host.Outcome State Fault Refusal := .next (s.modDie die fun d => { d with decc := 0 })
def execFpstatReplayClear (port : Nat) (s : State) : Host.Outcome State Fault Refusal :=
  .next (s.modPkg fun p => { p with fpstat := p.fpstat.modify port (· &&& 0x80010000) })
/-- A write to a management register. -/
def execRegisterWrite (off size : Nat) (val : BitVec 64) (s : State) : Host.Outcome State Fault Refusal := .next (s.regWrite off size val)

/-! ## Fatal errors (R253, R300) -/

def execDieFatalError (die : Nat) (s : State) : Host.Outcome State Fault Refusal :=
  .next <|
    let lost := (Config.lostLine die s.clk).toNat
    (s.logDie die (lost % 2 ^ 52) 1 6 (lost / 2 ^ 52) false 0).dieFatal die
/-- A UCIe link whose retry is exhausted: its die takes a die fatal error, and what other agents have out to it fails. -/
def execUcieLinkDown (die : Nat) (s : State) : Host.Outcome State Fault Refusal :=
  .next <|
    if die ≥ 4 || s.pkg.downDies.contains die then s
    else
      let s := (s.modPkg fun p => { p with downDies := p.downDies ++ [die] }).alarm 6 0 0 0 0
      let s := s.dieFatal die
      -- accesses of other dies already on their way to it
      let lost := s.ops.filter fun o => match o.body, s.fibre? o.fib with
        | .mem a .walking, some f => (s.site f).die != die && a.addr.getLsbD 63 && bitsOf a.addr.toNat 52 51 == die
        | .mem _ (.at_ loc), some f => (s.site f).die != die &&
            (if loc < 2 ^ 51 then physHome loc == die
             else if loc < 2 ^ 53 then 2 ^ 52 ≤ loc && (loc - 2 ^ 52) / 2 ^ 33 == die
             else loc < 2 ^ 54 && (loc - 2 ^ 53) / 2 ^ 26 / 8 == die)
        | _, _ => false
      lost.foldl (fun s o => match o.body with
        | .mem a _ => (s.dropOp o.id).recordFault o.fib a .dataError o.seat
        | _ => s) s

/-! ## Reset (R301, R302, R309, R310) -/

/-- PACKAGE_RESET: every unit at its reset values, memory as it was; assumption slots are free, CXL ports are enumerated. A package
in SCRAPPED stays held, one that an alarm holds comes back by this cold reset. -/
def execPackageReset (s : State) : Host.Outcome State Fault Refusal :=
  .next <|
    let n := s.pkg.resets
    { State.reset with
      turns := s.turns, strikes := s.strikes, mem := s.mem, poisoned := s.poisoned, nextId := s.nextId,
      pkg := { Pkg.reset with lcstate := s.pkg.lcstate, held := s.pkg.lcstate = 3, resets := n + 1, nonce := Config.bootNonce n } }

/-! ## Alarms, limits and fuses (R309 to R311) -/

/-- SALPOL.LOCK: the action fields are read-only until reset. -/
def execSalpolLock (s : State) : Host.Outcome State Fault Refusal := .next (s.modPkg fun p => { p with salpol := p.salpol ||| 0x80000000 })
def execVoltageClockGlitch (s : State) : Host.Outcome State Fault Refusal := .next (s.alarm 4 0 0 0 0)
def execFuseIntegrityFailure (s : State) : Host.Outcome State Fault Refusal := .next (s.alarm 5 0 0 0 0)
/-- Thermal shutdown: alarm source 2, and every job ends as at a die fatal error, whether or not it has work on a die (R311). -/
def execThermalShutdown (s : State) : Host.Outcome State Fault Refusal :=
  .next <|
    let s := (List.range 4).foldl (fun s d => s.dieFatal d) (s.alarm 2 0 0 0 0)
    (List.range s.jobs.length).foldl (fun s j => s.faultJob (j + 1) 5) s
/-- Fuses move the life cycle forward only; RETURN erases keys on entry, SCRAPPED holds the package in reset. -/
def execLifeCycleAdvance (state : BitVec 2) (s : State) : Host.Outcome State Fault Refusal :=
  .next <|
    if state.toNat ≤ s.pkg.lcstate.toNat then s
    else s.modPkg fun p => { p with lcstate := state, erased := if state = 2 then p.erased + 1 else p.erased,
                                    held := p.held || state == 3 }

end Sys2Proof.Machine
end

