-- ==== Sys2Proof/Machine/Dispatcher.lean ====
section
/-! DEFINITION. Dispatch (R142, R145, R148, R149, R212, R213, R221), eviction and reload (R274 to R278). -/

namespace Sys2Proof.Machine

/-! ## What a job still has to place on a cluster (R212, R213) -/

/-- The lowest undispatched %gid of a job among the cohorts of a cluster. -/
def Job.nextGid (j : Job) (clu : Nat) : Option Nat :=
  let l := clusterList j.clusters
  match firstIdx (· == clu) l 0 with
  | none => none
  | some (i, _) =>
    let g := (look clu j.next).getD (i * j.cohort)
    if g < j.groups then some g else none
/-- Whether a group of a job has its place on another package, as that package's reports say (R222, log 33). -/
def Job.away (j : Job) (g : Nat) : Bool := j.peers.any fun p => p.gids.contains g
/-- The job once group g has been dispatched on its cluster. -/
def Job.dispatched (j : Job) (clu g : Nat) : Job :=
  let k := g / max j.cohort 1
  let n := if (g + 1) / max j.cohort 1 = k then g + 1 else (k + (clusterList j.clusters).length) * j.cohort
  { j with next := assign clu n j.next }
/-- Whether a job launched early may dispatch on a cluster: its producer has placed every group it has there (R221). -/
def State.producerPlaced (s : State) (j : Job) (clu : Nat) : Bool :=
  match s.job? j.producer with
  | some p => p.status.isSome || (p.nextGid clu).isNone
  | none => true
/-- The jobs that may dispatch, highest priority first, then in launch order. -/
def State.dispatching (s : State) : List (Nat × Job) :=
  sortBy (fun p => 255 - p.2.prio) ((s.jobs.mapIdx fun i j => (i + 1, j)).filter fun p => p.2.status.isNone && p.2.ending.isNone)

/-! ## Resources of a core -/

/-- The n lowest numbers below a limit that are not in a list. -/
def lowestUnits (limit n : Nat) (used : List Nat) : Option (List Nat) :=
  let l := ((List.range limit).filter fun i => !used.contains i).take n
  if l.length = n then some l else none
/-- What a group would get on a core. -/
structure Room where
  rgi  : Nat
  umap : List Nat
  smap : List Nat
  tmap : List Nat
  deriving DecidableEq, Repr
/-- FITS (R213): resident position, fibres, register and scratchpad units, tiles; a barrier wait table goes with the position.
`without` names groups that are taken as gone. -/
def State.fits (s : State) (core slots regs spad tiles : Nat) (without : List Nat) : Option Room :=
  let gs := ((s.groups.mapIdx fun i g => (i, g)).filter fun p =>
    p.2.coreIx == core && !p.2.freed && !p.2.out && !without.contains p.1).map (·.2)
  let n := (gs.map (·.slots)).sum
  if n + slots > 2048 then none
  else match lowestFree 16 (gs.map (·.rgi)), lowestUnits 256 ((slots * regs + 1023) / 1024) (gs.flatMap (·.umap)),
      lowestUnits 512 ((spad + 4095) / 4096) (gs.flatMap (·.smap)), lowestUnits 6 tiles (gs.flatMap (·.tmap)) with
  | some r, some u, some sp, some t => some ⟨r, u, sp, t⟩
  | _, _, _, _ => none
/-- The eight cores of a cluster in the order next_core gives. -/
def State.coresOf (s : State) (clu : Nat) : List Nat :=
  (List.range 8).map fun i => 9 * clu + ((s.cluster clu).nextCore + i) % 8
/-- The first core that fits. -/
def State.findCore (s : State) (slots regs spad tiles : Nat) : List Nat → Option (Nat × Room)
  | [] => none
  | c :: l =>
    match s.fits c slots regs spad tiles [] with
    | some r => if (s.core c).dead then s.findCore slots regs spad tiles l else some (c, r)
    | none => s.findCore slots regs spad tiles l

/-! ## Cluster memory (R212) -/

/-- Units of cluster memory that cohorts may have: 40 MiB without the event ring and the task rings of the queues that live there
(log 13). -/
def State.cmUnits (s : State) (clu : Nat) : Nat :=
  640 - 1 - ((s.queues.filter fun q => q.home == (Config.pkgNumber, clu / 8, clu % 8)).map fun q => (32 * q.depth + 65535) / 65536).sum
/-- The units a cohort gets on its home cluster. -/
def State.cohortUnits (s : State) (clu bytes : Nat) : Option (List Nat) :=
  let used := s.jobs.flatMap fun j => j.cohorts.flatMap fun c => if j.home c.1 == clu then c.2 else []
  lowestUnits (s.cmUnits clu) (bytes / 65536) used
/-- A cohort's memory is allocated, reading as zero. -/
def State.giveCohort (s : State) (job clu cohort : Nat) (units : List Nat) : State :=
  let s := units.foldl (fun s u => s.store (Loc.cm clu (65536 * u)) (List.replicate 65536 0)) s
  s.modJob job fun j => { j with cohorts := j.cohorts ++ [(cohort, units)] }

/-! ## Placement -/

/-- The scratchpad units and tiles of a placement read as zero (R145, R148). -/
def State.clearPlace (s : State) (core : Nat) (r : Room) : State :=
  let s := r.smap.foldl (fun s u => s.store (Loc.spad core (4096 * u)) (List.replicate 4096 0)) s
  s.modCore core fun c => { c with tiles := c.tiles.filter (fun t => !r.tmap.contains t.1), tileBad := c.tileBad.filter fun t => !r.tmap.contains t.1 }
/-- A new group on a core, with its fibres (R74, R77). -/
def State.placeNew (s : State) (job gid core : Nat) (j : Job) (r : Room) : State :=
  let g : Group :=
    { job := job, gid := gid, die := core / 72, clu := core / 9 % 8, core := core % 9, rgi := r.rgi, n := j.fibres, regs := j.regs, spad := j.spad,
      umap := r.umap, smap := r.smap, tmap := r.tmap, spec := if j.spec then 1 else 0, uhandler := 0, convs := List.replicate 16 ⟨0, [], 0⟩,
      chain := none, slice := none, oqs := [], oqNext := 0, active := false, actClk := 0, unprot := [], age := 0, prio := j.prio,
      placed := s.clk, beat := s.clk, evict := none, tried := [], out := false, savedSp := [], savedTiles := [], savedBad := [], exited := false, freed := false }
  let gi := s.groups.length
  let fibre := fun (i : Nat) =>
    { Fibre.fresh (if i < j.fibres then .real else .helper) gi i j.regs j.entry j.atrap s.clk with regs := initRegs j gid g.slots i j.regs j.args }
  let s := s.clearPlace core r
  ({ s with groups := s.groups ++ [g], fibres := s.fibres ++ (List.range g.slots).map fibre } : State).moveCkpts core s.fibres.length
/-- A physical tile's new number. -/
def newTile (old new : List Nat) (t : Nat) : Nat := match firstIdx (· == t) old 0 with | some (i, _) => new.getD i t | none => t
/-- A location in a group's old scratchpad as a location in its new one. -/
def State.moveLoc (s : State) (old new : Group) (loc : Nat) : Nat :=
  match (List.range ((old.spad + 4095) / 4096)).find? fun i => s.spLoc old (4096 * i) ≤ loc && loc < s.spLoc old (4096 * i) + 4096 with
  | some i => s.spLoc new (4096 * i) + (loc - s.spLoc old (4096 * i))
  | none => loc
/-- An evicted group's context on its new core (R277): every fibre continues where it was held. Its die joins the receiver sets (R282). -/
def State.reload (s : State) (gi core : Nat) (old : Group) (r : Room) : State :=
  let s := s.joinTaints gi (Config.pkgNumber, core / 72)
  let c' := old.chain.map fun c => { c with tile := newTile old.tmap r.tmap c.tile }
  let g : Group := { old with die := core / 72, clu := core / 9 % 8, core := core % 9, rgi := r.rgi, umap := r.umap, smap := r.smap, tmap := r.tmap, active := false,
                              unprot := [], age := 0, placed := s.clk, out := false, savedSp := [], savedTiles := [], savedBad := [], tried := [],
                              chain := c' }
  let s := s.clearPlace core r
  let s := (s.setGroup gi g).modCore core fun c =>
    { c with tiles := c.tiles ++ (old.savedTiles.mapIdx fun i ws => (r.tmap.getD i 0, ws))
             tileBad := c.tileBad ++ old.savedBad.map fun e => (r.tmap.getD e.1 0, e.2) }
  let s := (List.range r.smap.length).foldl (fun s i => s.store (s.spLoc g (4096 * i)) ((old.savedSp.drop (4096 * i)).take 4096)) s
  (s.members gi).foldl (fun s p => s.modFibre p.1 fun f =>
    let f : Fibre := { f with undo := f.undo.map (fun u : Undo => { u with loc := s.moveLoc old g u.loc }),
                              replay := f.replay.map fun x : Replay => { x with acc := { x.acc with tile := newTile old.tmap r.tmap x.acc.tile } } }
    f.release .evict) (s.moveCkpts core s.fibres.length)

/-! ## Eviction (R274, R275) -/

/-- Groups that may make room on a core for one of a priority, in victim order. -/
def State.victims (s : State) (core prio : Nat) : List (Nat × Group) :=
  let l := s.coreGroups core fun g => decide (g.prio < prio) && g.evict.isNone
  let tainted := fun (p : Nat × Group) => (s.members p.1).any fun m => m.2.tainted
  sortBy (fun p => p.2.prio) (sortBy (fun p => if tainted p then 1 else 0) (sortBy (fun p => s.clk - p.2.placed) l))
/-- The first victim on the first core where eviction can make a group fit; one at a time on a core. -/
def State.evictFor (s : State) (job gid slots regs spad tiles prio : Nat) : List Nat → State
  | [] => s
  | c :: l =>
    let busy := (s.coreGroups c fun g => g.evict.isSome).length
    let vs := (s.victims c prio).filter fun p => !p.2.tried.contains (job, gid)
    if busy > 0 then s
    else match vs with
      | [] => s.evictFor job gid slots regs spad tiles prio l
      | (v, _) :: _ =>
        if (s.core c).dead || (s.fits c slots regs spad tiles (vs.map (·.1))).isNone then s.evictFor job gid slots regs spad tiles prio l
        else
          let s := s.leaveActive v
          let s := s.modGroup v fun g => { g with evict := some (s.clk + 65536, job, gid) }
          ((s.members v).foldl (fun s p => s.modFibre p.1 fun f => f.askStop s.clk .evict) s).swapIn c 16

/-- GROUP_PLACE on a cluster: the first job in order that has a group to place here decides. -/
def State.placeFirst (s : State) (clu : Nat) : List (Nat × Job) → State
  | [] => s
  | (job, j) :: l =>
    let die := clu / 8
    let waiting := (s.jobGroups job).filter fun p => p.2.out && !p.2.exited
    match (if (j.roots.getD die 0) != 0 then (sortBy (fun p => p.2.gid) waiting).head? else none) with
    | some (gi, g) =>
      if ((s.die die).wsctl.getLsbD 0 && s.jobMapsWeight die job) || !s.mayHoldTaints gi (Config.pkgNumber, die) then s.placeFirst clu l else
      (match s.findCore g.slots g.regs g.spad g.tmap.length (s.coresOf clu) with
       | some (c, r) => (s.reload gi c g r).modCluster clu fun x => { x with nextCore := (c % 9 + 1) % 8 }
       | none => s.evictFor job g.gid g.slots g.regs g.spad g.tmap.length g.prio (s.coresOf clu))
    | none =>
      match j.nextGid clu with
      | none => s.placeFirst clu l
      | some gid =>
        if j.away gid then s.modJob job fun j => j.dispatched clu gid
        else if !s.producerPlaced j clu || ((s.die die).wsctl.getLsbD 0 && s.jobMapsWeight die job) then s.placeFirst clu l
        else
          let slots := (j.fibres + 3) / 4 * 4
          let cohort := gid / max j.cohort 1
          let units := match look cohort j.cohorts with | some _ => some [] | none => s.cohortUnits clu j.cm
          match units with
          | none => s
          | some us =>
            let s1 := if (look cohort j.cohorts).isSome then s else s.giveCohort job clu cohort us
            match s1.findCore slots j.regs j.spad j.tiles (s.coresOf clu) with
            | some (c, r) => ((s1.placeNew job gid c j r).modJob job fun j => j.dispatched clu gid).modCluster clu fun x => { x with nextCore := (c % 9 + 1) % 8 }
            | none => s1.evictFor job gid slots j.regs j.spad j.tiles j.prio (s.coresOf clu)
def execGroupPlace (cluster : Nat) (s : State) : Host.Outcome State Fault Refusal :=
  .next (if cluster < 32 && !(s.die (cluster / 8)).dead then s.placeFirst cluster s.dispatching else s)
/-- COHORT_RELEASE (R212): every group of the cohort has exited and nothing its fibres issued still writes .cm. -/
def execCohortRelease (job cohort : Nat) (s : State) : Host.Outcome State Fault Refusal :=
  .next <| match s.job? job with
  | none => s
  | some j =>
    let size := max j.cohort 1
    let mine := (s.jobGroups job).filter fun p => p.2.gid / size == cohort
    -- a job whose end is settled places no more groups
    let total := if j.status.isSome || j.ending.isSome then mine.length else min size (j.groups - cohort * size)
    let writes := s.ops.any fun o => mine.any (fun p => p.1 == o.grp) && o.done.isNone && match o.body with
      | .mem a _ => a.space == .cm && a.kind.writes
      | .copy c => c.dst.space == .cm
      | .acc (.move a) => a.space == .cm
      | .fab (.get d _ _ _) _ _ _ _ => d.space == .cm
      | .fab (.want d _ _ _) _ _ _ _ => d.space == .cm
      | _ => false
    if mine.length = total && mine.all (fun p => p.2.exited) && !writes then
      s.modJob job fun j => { j with cohorts := j.cohorts.filter fun c => c.1 != cohort }
    else s

/-- EVICTION_STOP_TIMEOUT: a fibre has not stopped in time; the group resumes and the next victim is tried. -/
def execEvictionStopTimeout (grp : Nat) (s : State) : Host.Outcome State Fault Refusal :=
  .next <| match s.group? grp with
  | none => s
  | some g =>
    match g.evict with
    | none => s
    | some (t, who) =>
      if s.clk < t || (s.members grp).all fun p => p.2.atRest then s
      else
        let s := s.modGroup grp fun g => { g with evict := none, tried := g.tried ++ [who] }
        ((s.members grp).foldl (fun s p => s.modFibre p.1 fun f => f.release .evict) s).swapIn g.coreIx 16
/-- Whether an operation of a group's agents keeps its context from being saved (R275 step 3): it writes the group's registers,
scratchpad, tiles or queues, or still has to read its scratchpad. -/
def keepsGroup (o : Op) : Bool :=
  match o.body with
  | .mem _ _ => true
  | .result _ _ _ => true
  | .copy c => c.dst.space == .sp || c.src.space == .sp || c.bar.isSome
  | .gath _ => true
  | .acc _ => true
  | .fab (.get d _ _ b) _ _ _ _ => d.space == .sp || b.isSome
  | .fab (.want d _ _ _) _ _ _ _ => d.space == .sp
  | .fab (.puts _ src _ _ _) _ _ none _ => src.space == .sp
  | .fab (.radd _ _ src _ _) _ _ none _ => src.space == .sp
  | .fab (.announce src _ _) _ _ none _ => src.space == .sp
  | .permit _ _ _ _ => true
  | _ => false
/-- The fibre as its context block holds it: at a stop site the dead registers are not saved, and come back as 0 (R355). -/
def State.savedFibre (s : State) (f : Fibre) : Fibre :=
  if f.wait.isSome || f.arrive.isSome || f.stopIn.isSome || f.run == .ended then f
  else
    let live := s.liveAt f f.rp
    { f with regs := f.regs.mapIdx (fun r v => if live.testBit r then v else 0), handles := f.handles.filter fun p => live.testBit p.1 }
/-- EVICTION_SAVE: all has stopped and drained; the save region's die joins the receiver sets (R295), the context is written and the core's
resources are free. It waits while that die may not join (R282). -/
def execEvictionSave (grp : Nat) (s : State) : Host.Outcome State Fault Refusal :=
  .next <| match s.group? grp with
  | none => s
  | some g =>
    -- what a tainted fibre only holds travels in the context
    let busy := s.ops.any fun o => o.grp == grp && o.done.isNone && keepsGroup o && !((s.fibre? o.fib).map fun f => f.holdsOp o.id).getD false
    if g.evict.isNone || !(s.members grp).all (fun p => p.2.atRest && p.2.releasing.isEmpty) || busy || !s.mayHoldTaints grp (s.saveDie grp g) || (s.core g.coreIx).mmaq.any (·.grp == grp) ||
      ((s.core g.coreIx).running.map fun m => m.1.grp == grp).getD false then s
    else
      let s := ((s.joinTaints grp (s.saveDie grp g)).loseWalks grp).writeContext grp g
      let s := (s.members grp).foldl (fun s p => s.setFibre p.1 (s.savedFibre p.2)) s
      let s := s.modGroup grp fun x => { x with
        evict := none, out := true, active := false, unprot := [], savedSp := s.spadBytes g, savedTiles := g.tmap.map (s.tileWords g),
        savedBad := (s.core g.coreIx).tileBad.filterMap fun e => (firstIdx (· == e.1) g.tmap 0).map fun p => (p.1, e.2) }
      s.swapIn g.coreIx 16

end Sys2Proof.Machine
end

