-- ==== Sys2Proof/Machine/Host.lean ====
section
/-! DEFINITION. The host port (R208, R303): command queues (R304), the launch descriptor (R305), interfaces and their states
(R306, R307). -/

namespace Sys2Proof.Machine

/-! ## Interfaces (R303, R306) -/

def State.tdi (s : State) (fn : Nat) : Tdi := (look fn s.pkg.tdis).getD ⟨.unlocked, 0, 0, 0, 0, BitVec.ofNat 16 fn, 0, []⟩
def State.modTdi (s : State) (fn : Nat) (u : Tdi → Tdi) : State := s.modPkg fun p => { p with tdis := assign fn (u (s.tdi fn)) p.tdis }
/-- The master ID of a host access through a function over IDE; an access without IDE names the function plus 0x40 (R308, log 14). -/
def hostMaster (fn : Nat) : Nat := 0x8000 + fn
/-- Whether an access-table entry names a function. -/
def namesFn (fn : Nat) (e : BitVec 128) : Bool :=
  e.getLsbD 7 && ((bitsOf e.toNat 55 40 ≤ 0x8000 + fn && 0x8000 + fn ≤ bitsOf e.toNat 39 24) ||
    (bitsOf e.toNat 55 40 ≤ 0x8040 + fn && 0x8040 + fn ≤ bitsOf e.toNat 39 24))
/-- log2 of a BAR's size, 0 when absent. -/
def barLog (n : Nat) : Nat := if n = 0 then 0 else (List.range 64).foldl (fun b i => if 2 ^ i ≤ n then i else b) 0
/-- BAR layout of the report: BAR 0, 2 and 4. -/
def State.barLayout (s : State) (fn : Nat) : List Byte :=
  [16, barLog (s.tdi fn).bar2, if fn = 0 then 27 else 0].flatMap fun n => leBytes 1 n ++ List.replicate 7 0
/-- The MMIO ranges of the report: BAR 0 runtime, BAR 2 neither, BAR 4 locked. -/
def State.mmioRanges (s : State) (fn : Nat) : List (List Byte) :=
  let range := fun (size bar attr : Nat) => leBytes 8 0 ++ leBytes 4 (size / 4096) ++ leBytes 1 bar ++ leBytes 1 attr ++ leBytes 2 0
  [range 65536 0 2] ++ (if (s.tdi fn).bar2 = 0 then [] else [range (s.tdi fn).bar2 2 0]) ++ (if fn = 0 then [range 0x8000000 4 1] else [])
/-- What the digest is taken over: configuration, BAR layout, ranges, the frozen access-table entries (R307, log 14). -/
def State.frozenConfig (s : State) (fn : Nat) : List Byte :=
  leBytes 2 (s.tdi fn).reqId.toNat ++ leBytes 8 (s.tdi fn).bar2Base ++ s.barLayout fn ++ (s.mmioRanges fn).flatten ++
    (s.pkg.access.flatMap fun t => (t.2.filter fun e => namesFn fn e.2).flatMap fun e => leBytes 16 e.2.toNat)
def execLockInterfaceRequest (fn : Nat) (s : State) : Host.Outcome State Fault Refusal :=
  .next (if fn < 16 && (s.tdi fn).state == .unlocked then
    s.modTdi fn fun t => { t with state := .locked, digest := Config.sha384 (s.frozenConfig fn), nonce := Config.tdiNonce fn t.locks, locks := t.locks + 1 }
    else s)
def execStartInterfaceRequest (fn : Nat) (nonce : BitVec 256) (s : State) : Host.Outcome State Fault Refusal :=
  .next (if (s.tdi fn).state == .locked && nonce == (s.tdi fn).nonce then s.modTdi fn fun t => { t with state := .run } else s)
/-- STOP: the TDI's jobs take a job fault, its key slots are erased, its access-table windows are zeroed. What ERROR kept from the host stays
lost: neither commands nor completions of before reach it (R307). -/
def execStopInterfaceRequest (fn : Nat) (s : State) : Host.Outcome State Fault Refusal :=
  .next <|
    if (s.tdi fn).state == .unlocked then s
    else
      let s := (s.fnJobs fn).foldl (fun s j => s.faultJob j 3) s
      let s := s.modPkg fun p => { p with access := p.access.map fun t => (t.1, t.2.filter fun e => !namesFn fn e.2), erased := p.erased + 1 }
      s.modTdi fn fun t =>
        let lost := t.queues.map fun q => (q.1, { q.2 with cmds := [], cpls := [] })
        { t with state := .unlocked, queues := if t.state == .error then lost else t.queues }
/-- The interface report (R307). -/
def State.report_ (s : State) (fn : Nat) : List Byte :=
  let ranges := s.mmioRanges fn
  leBytes 2 (s.tdi fn).reqId.toNat ++ leBytes 2 fn ++ leBytes 1 ranges.length ++ List.replicate 3 0 ++ s.barLayout fn ++
    leBytes 48 (s.tdi fn).digest.toNat ++ ranges.flatten
def execGetDeviceInterfaceReport (fn : Nat) (s : State) : Host.Outcome State Fault Refusal :=
  .next (if fn < 16 then s.modPkg fun p => { p with reports := p.reports ++ [s.report_ fn] } else s)
/-- ERROR with alarm source 1, from CONFIG_LOCKED and RUN. -/
def State.tdiFails (s : State) (fn : Nat) : State := s.lockedWrite fn
def execLockedFieldWrite (fn : Nat) (s : State) : Host.Outcome State Fault Refusal := .next (s.tdiFails fn)
/-- An IDE stream's integrity failure is alarm source 6 as well (R309). -/
def execIdeIntegrityFailure (fn : Nat) (s : State) : Host.Outcome State Fault Refusal := .next ((s.tdiFails fn).alarm 6 0 76 (hostMaster fn) 0)
def execFunctionLevelReset (fn : Nat) (s : State) : Host.Outcome State Fault Refusal := .next (s.tdiFails fn)

/-! ## Command queues (R304) -/

/-- Whether a function's BARs answer and its DMA runs: not in CONFIG_LOCKED, where neither is yet enabled, nor in ERROR (R306). -/
def State.barsOpen (s : State) (fn : Nat) : Bool := fn < 16 && ((s.tdi fn).state == .unlocked || (s.tdi fn).state == .run)

def State.hostQueue (s : State) (fn q : Nat) : HostQueue := (look q (s.tdi fn).queues).getD default
def State.modQueueOf (s : State) (fn q : Nat) (u : HostQueue → HostQueue) : State :=
  s.modTdi fn fun t => { t with queues := assign q (u ((look q t.queues).getD { (default : HostQueue) with phase := true })) t.queues }
def HostQueue.sqDepth (h : HostQueue) : Nat := bitsOf h.cfg.toNat 11 0 + 1
def HostQueue.cqDepth (h : HostQueue) : Nat := bitsOf h.cfg.toNat 27 16 + 1
/-- Where a host address lies in the physical map (R301). -/
def hostPlace (a : Nat) : Nat := 2 ^ 51 + a % 2 ^ 51
/-- Completions that have waited go into the ring while it has room: the slot before the head stays free (log 14). With DMA stopped none
goes (R306). -/
def State.drainCompletions (s : State) (fn q : Nat) : Nat → State
  | 0 => s
  | n + 1 =>
    let h := s.hostQueue fn q
    match h.cpls with
    | [] => s
    | c :: l =>
      if !s.barsOpen fn then s
      else if (h.cqTail + 1) % h.cqDepth = h.head.toNat % h.cqDepth then s
      else
        let rec128 := c ||| (if h.phase then 1#128 <<< 120 else 0)
        let s := s.writeAt (s.tdi fn).reqId (hostPlace (h.cqb.toNat + 16 * h.cqTail)) (leBytes 16 rec128.toNat)
        let wrap := h.cqTail + 1 = h.cqDepth
        (s.modQueueOf fn q fun h => { h with cpls := l, cqTail := if wrap then 0 else h.cqTail + 1, phase := if wrap then !h.phase else h.phase }).drainCompletions fn q n
/-- A command completes. -/
def State.completeCmd (s : State) (fn q : Nat) (c : HostCmd) (data : Nat) (st : Status) : State :=
  let rec128 := BitVec.ofNat 128 (statusNum st * 2 ^ 80 + c.idx.toNat * 2 ^ 64 + data % 2 ^ 64)
  let s := s.modQueueOf fn q fun h => { h with cmds := h.cmds.filter (·.num != c.num), cpls := h.cpls ++ [rec128] }
  s.drainCompletions fn q ((s.hostQueue fn q).cpls.length + 1)
/-- The entries between the queue's head and its tail are accepted. -/
def State.takeEntries (s : State) (fn q : Nat) : Nat → State
  | 0 => s
  | n + 1 =>
    let h := s.hostQueue fn q
    if h.sqHead = h.tail.toNat % h.sqDepth then s
    else
      let e := s.getBytes (hostPlace (h.sqb.toNat + 64 * h.sqHead)) 64
      let (id, s) := s.fresh
      let c : HostCmd := ⟨id, BitVec.ofNat 16 (leNat ((e.drop 2).take 2)), (e.getD 0 0).toNat, (e.getD 1 0).getLsbD 0, e, false, 0, .ok⟩
      (s.modQueueOf fn q fun h => { h with cmds := h.cmds ++ [c], sqHead := (h.sqHead + 1) % h.sqDepth }).takeEntries fn q n
def execHqSqDoorbell (fn queue : Nat) (tail : BitVec 32) (s : State) : Host.Outcome State Fault Refusal :=
  .next <|
    if !s.barsOpen fn || queue ≥ 4 then s
    else
      let s := s.modQueueOf fn queue fun h => { h with tail := tail }
      if (s.hostQueue fn queue).cfg.getLsbD 31 then s.takeEntries fn queue (s.hostQueue fn queue).sqDepth else s
def execHqCqDoorbell (fn queue : Nat) (head : BitVec 32) (s : State) : Host.Outcome State Fault Refusal :=
  .next <|
    if !s.barsOpen fn || queue ≥ 4 then s
    else
      let s := s.modQueueOf fn queue fun h => { h with head := head }
      s.drainCompletions fn queue ((s.hostQueue fn queue).cpls.length + 1)

/-- The first command of a queue with an index that is of one opcode, where it may start or has started: commands start in ring
order, one with ORD when every earlier one has completed; none while the function's DMA is stopped (R306). -/
def State.command? (s : State) (fn q : Nat) (idx : BitVec 16) (op : Nat → Bool) : Option HostCmd :=
  let h := s.hostQueue fn q
  if !s.barsOpen fn then none else
  match firstIdx (fun c => c.idx == idx && op c.op) h.cmds 0 with
  | some (i, c) =>
    if c.started then some c
    else if (h.cmds.take i).all (·.started) && (!c.ord || i = 0) then some c
    else none
  | none => none
/-- Bytes [hi:lo] of a command as a number. -/
def HostCmd.field (c : HostCmd) (hi lo : Nat) : Nat := leNat ((c.raw.drop lo).take (hi + 1 - lo))
/-- Whether every byte from n on, and every flag but ORD, is 0. -/
def HostCmd.restZero (c : HostCmd) (n : Nat) : Bool := (c.raw.getD 1 0).toNat < 2 && (c.raw.drop n).all (· == 0)
/-- A command's record in its queue replaced. -/
def State.setCmd (s : State) (fn q : Nat) (old new : HostCmd) : State :=
  s.modQueueOf fn q fun h => { h with cmds := h.cmds.map fun c => if c.num == old.num then new else c }
/-- The job a command names, where it is one of its function (R304). -/
def State.jobOfCmd (s : State) (fn : Nat) (c : HostCmd) : Option (Nat × Job) :=
  let j := c.field 7 4
  (s.job? j).bind fun x => if x.fn = fn && c.restZero 8 then some (j, x) else none

/-! ## LAUNCH (R305) -/

/-- A field of a descriptor. -/
def dfield (d : List Byte) (hi lo : Nat) : Nat := leNat ((d.drop lo).take (hi + 1 - lo))
/-- The job of a descriptor. -/
def jobOfDescriptor (d : List Byte) (fn clk : Nat) : Job :=
  let f := dfield d
  { (default : Job) with
    entry := w64 (f 7 0), tramp := w64 (f 15 8), trampN := f 19 16, groups := f 23 20, fibres := f 25 24 + 1, regs := 8 * (f 26 26 + 1),
    tiles := f 27 27, spad := f 31 28, check := (f 32 32).testBit 0, persistent := (f 32 32).testBit 1, spec := (f 32 32).testBit 2,
    prio := f 33 33, watchdog := f 34 34, retry := f 35 35, atrap := w32 (f 36 36), producer := f 43 40, cohort := f 44 44 + 1,
    cm := f 51 48, clusters := w32 (f 55 52), save := w64 (f 63 56), dump := w64 (f 71 64), qtable := w64 (f 79 72), qcount := f 80 80,
    ctrLo := w32 (f 87 84), ctrHi := w32 (f 91 88), args := (List.range 8).map fun i => w32 (f (99 + 4 * i) (96 + 4 * i)),
    roots := (List.range 4).map fun i => w64 (f (135 + 8 * i) (128 + 8 * i)), exports := w64 (f 167 160), spill := w64 (f 175 168),
    spillLog := f 176 176, fn := fn, launchClk := clk, lastIssue := clk }
/-- Whether a descriptor keeps its limits and its reserved bytes are 0. DESIGN CHOICE, where R305 lists no limit (log 33): it breaks one when
the group's fibres, rounded up to 4, have more than 262,144 registers (R68), when .cm is above 40 MiB (R66), or when the cluster set is
empty. -/
def State.descriptorOk (s : State) (d : List Byte) : Bool :=
  let f := dfield d
  1 ≤ f 23 20 && f 23 20 ≤ 16777216 && f 25 24 ≤ 1023 && f 26 26 ≤ 15 && f 27 27 ≤ 6 && f 31 28 ≤ 2097152 && f 31 28 % 16 == 0 &&
  (f 25 24 + 4) / 4 * 4 * (8 * (f 26 26 + 1)) ≤ 262144 && f 32 32 < 8 && f 34 34 ≤ 30 && f 36 36 ≤ 0x3F && f 39 37 == 0 &&
  (f 43 40 == 0 || (s.job? (f 43 40)).isSome) && f 44 44 ≤ 127 && f 47 45 == 0 && f 51 48 % 65536 == 0 && f 51 48 ≤ 40 * 2 ^ 20 &&
  f 55 52 != 0 && f 19 16 ≤ 1048576 && f 80 80 ≤ 128 && f 83 81 == 0 && f 87 84 < 2 ^ 17 && f 91 88 < 2 ^ 17 && f 95 92 == 0 &&
  ((List.range 4).all fun i => f (135 + 8 * i) (128 + 8 * i) % 16384 == 0 && f (135 + 8 * i) (128 + 8 * i) < 2 ^ 52) &&
  4 ≤ f 176 176 && f 176 176 ≤ 32 && f 175 168 % 2 ^ f 176 176 == 0 && f 179 177 == 0 && (d.drop 180).all (· == 0)
/-- A queue as its table entry declares it; none where the entry is not one (R214). -/
def queueOfEntry (job num : Nat) (e : List Byte) : Option Queue :=
  let home := dfield e 15 14
  let ctl := dfield e 16 16
  let depth := dfield e 13 12
  if dfield e 7 0 % 32 != 0 || dfield e 11 8 > 1048576 || depth > 4095 || home ≥ 2 ^ 15 || bitsOf ctl 6 3 != 0 || bitsOf ctl 2 0 > 4 ||
    !(e.drop 17).all (· == 0) then none
  else some { (default : Queue) with
    job := job, num := num, ovfBase := w64 (dfield e 7 0), ovfCnt := dfield e 11 8, depth := depth + 1,
    home := (bitsOf home 14 5, bitsOf home 4 3, bitsOf home 2 0), en := ctl.testBit 7, scope := bitsOf ctl 2 0 }
/-- Bytes of device physical memory, or of host memory, as a function of the host may read them. -/
def State.hostFetch (s : State) (fn : Nat) (addr n : Nat) : Except Status (List Byte) × State :=
  if addr ≥ 2 ^ 63 then (.ok (s.getBytes (hostPlace (addr - 2 ^ 63)) n), s)
  else if !(populated 0 addr n || populated 1 addr n) then (.error .fault, s)
  else if s.unreachable (physTarget addr) then (.error .linkfail, s)
  else if !s.accessOk (physTarget addr) (hostMaster fn) .read addr then (.error .access, s.alarm 0 addr (physTarget addr) (hostMaster fn) 0)
  else if s.poisonedAt addr n then (.error .dataerr, s)
  else (.ok (s.getBytes addr n), s)
def execLaunch (fn queue : Nat) (idx : BitVec 16) (s : State) : Host.Outcome State Fault Refusal :=
  .next <| match s.command? fn queue idx (· == 1) with
  | none => s
  | some c =>
    let addr := c.field 11 4
    if !c.restZero 12 || addr % 64 != 0 then s.completeCmd fn queue c 0 .fault
    else match s.hostFetch fn addr 256 with
      | (.error st, s) => s.completeCmd fn queue c 0 st
      | (.ok d, s) =>
        if !s.descriptorOk d then s.completeCmd fn queue c 0 .fault
        else
          let j := jobOfDescriptor d fn s.clk
          let job := s.jobs.length + 1
          match (if j.qcount = 0 then (.ok [], s) else s.hostFetch fn j.qtable.toNat (32 * j.qcount)) with
          | (.error st, s) => s.completeCmd fn queue c 0 st
          | (.ok table, s) =>
            let qs := (List.range j.qcount).map fun i => queueOfEntry job i ((table.drop (32 * i)).take 32)
            if qs.any (·.isNone) then s.completeCmd fn queue c 0 .fault
            else
              let s : State := { s with jobs := s.jobs ++ [j], queues := s.queues ++ qs.filterMap id }
              s.completeCmd fn queue c job .ok
/-- JOBWAIT: it completes with the job's final status. -/
def execJobwait (fn queue : Nat) (idx : BitVec 16) (s : State) : Host.Outcome State Fault Refusal :=
  .next <| match s.command? fn queue idx (· == 2) with
  | none => s
  | some c =>
    match s.jobOfCmd fn c with
    | none => s.completeCmd fn queue c 0 .fault
    | some (_, j) =>
      match j.status with
      | some st => s.completeCmd fn queue c 0 st
      | none => s.setCmd fn queue c { c with started := true }
/-- WSLOAD: on each die of the mask in turn PHASE = 1, GO, a wait for BUSY = 0, PHASE = 0; one step of this event goes as far as it
can. `pos` is the die it is at. -/
def State.wsloadOn (s : State) (c : HostCmd) : Nat → HostCmd × State
  | 0 => (c, s)
  | n + 1 =>
    if c.pos ≥ 4 then (c, s)
    else if !(c.raw.getD 4 0).getLsbD c.pos then s.wsloadOn { c with pos := c.pos + 1 } n
    else
      let done := fun (s : State) (st : Status) => State.wsloadOn s { c with pos := c.pos + 1, started := false, st := mergeStatus c.st st } n
      if c.started then
        if (s.die c.pos).wsctl.getLsbD 8 then (c, s)
        else
          let st := statusOf (bitsOf (s.die c.pos).wsctl.toNat 27 25)
          done (s.wsExit c.pos) st
      else
        let s := s.modDie c.pos fun d => { d with wslsrc := w64 (c.field 15 8), wsldst := w64 (c.field 23 16), wsllen := w64 (c.field 31 24) }
        let s := s.wsEnter c.pos
        if !(s.die c.pos).wsctl.getLsbD 0 then done s (statusOf (bitsOf (s.die c.pos).wsctl.toNat 27 25))
        else
          let s := s.wsGo c.pos
          if (s.die c.pos).wsctl.getLsbD 8 then ({ c with started := true }, s)
          else
            let st := statusOf (bitsOf (s.die c.pos).wsctl.toNat 27 25)
            done (s.wsExit c.pos) st
def execWsload (fn queue : Nat) (idx : BitVec 16) (s : State) : Host.Outcome State Fault Refusal :=
  .next <| match s.command? fn queue idx (· == 3) with
  | none => s
  | some c =>
    if !c.restZero 32 || c.field 7 5 != 0 || c.field 4 4 ≥ 16 then s.completeCmd fn queue c 0 .fault
    else
      let (c', s) := s.wsloadOn c 10
      let s := s.setCmd fn queue c c'
      if c'.pos ≥ 4 then s.completeCmd fn queue c' (statusNum c'.st) c'.st else s
/-- HALT: HSTOP of a job; it completes when every fibre of the job stands (R273). -/
def execHalt (fn queue : Nat) (idx : BitVec 16) (s : State) : Host.Outcome State Fault Refusal :=
  .next <| match s.command? fn queue idx (· == 4) with
  | none => s
  | some c =>
    match s.jobOfCmd fn c with
    | none => s.completeCmd fn queue c 0 .fault
    | some (j, _) =>
      let mine := fun (x : Fibre) => (x.kind == .real || x.kind == .helper) && s.jobOf x == j
      let c' := { c with started := true }
      let s1 := if c.started then s
        else ((s.mapFibres fun _ x => if mine x then x.askStop s.clk .hstop else x).modJob j fun x => { x with halted := true }).setCmd fn queue c c'
      if s1.fibres.all fun x => !mine x || x.atRest then s1.completeCmd fn queue c' 0 .ok else s1
/-- RESUME: HRESUME of a job. -/
def execResume (fn queue : Nat) (idx : BitVec 16) (s : State) : Host.Outcome State Fault Refusal :=
  .next <| match s.command? fn queue idx (· == 5) with
  | none => s
  | some c =>
    match s.jobOfCmd fn c with
    | none => s.completeCmd fn queue c 0 .fault
    | some (j, _) =>
      let s1 : State := { s with cores := s.cores.map fun x => (x.1, { x.2 with icache := x.2.icache.filter fun e => e.1 != j }) }
      let s2 := (s1.mapFibres fun _ x => if (x.kind == .real || x.kind == .helper) && s.jobOf x == j then x.release .hstop else x).modJob j fun x => { x with halted := false }
      s2.completeCmd fn queue c 0 .ok
def execKill (fn queue : Nat) (idx : BitVec 16) (s : State) : Host.Outcome State Fault Refusal :=
  .next <| match s.command? fn queue idx (· == 6) with
  | none => s
  | some c =>
    match s.jobOfCmd fn c with
    | none => s.completeCmd fn queue c 0 .fault
    | some (j, _) => (s.faultJob j 3).completeCmd fn queue c 0 .ok
def execUnlistedCommand (fn queue : Nat) (idx : BitVec 16) (s : State) : Host.Outcome State Fault Refusal :=
  .next <| match s.command? fn queue idx (fun op => op = 0 || op > 6) with
  | none => s
  | some c => s.completeCmd fn queue c 0 .fault

/-! ## Inbound accesses (R208, R303) -/

/-- What a BAR offset reaches. An address of these events is BAR × 2^40 + offset; 3 × 2^40 stands for the function's configuration of BAR 2,
its size in bytes at offset 0 and at offset 8 the device physical address it opens on (log 14). -/
inductive BarPlace where
  | reg (queue off : Nat)
  | phys (pa : Nat)
  | mgmt (off : Nat)
  | none
  deriving DecidableEq, Repr
def State.barPlace (s : State) (fn addr n : Nat) : BarPlace :=
  let off := addr % 2 ^ 40
  match addr / 2 ^ 40 with
  | 0 => if off < 0x400 then .reg (off / 256) (off % 256) else .none
  | 2 => if off + n ≤ (s.tdi fn).bar2 then .phys ((s.tdi fn).bar2Base + off) else .none
  | 4 => if fn = 0 && off + n ≤ 0x8000000 then .mgmt off else .none
  | _ => .none
/-- The function of an inbound access: numbers from 64 to 127 stand for accesses without IDE. -/
def withoutIde (fn : Nat) : Nat := if 64 ≤ fn && fn < 128 then fn - 64 else fn
/-- A 32-bit write of a queue's register. -/
def State.queueReg (s : State) (fn q off : Nat) (w : Word) : State :=
  if off = 0x18 then (match execHqSqDoorbell fn q w s with | .next s => s | _ => s)
  else if off = 0x1C then (match execHqCqDoorbell fn q w s with | .next s => s | _ => s)
  else s.modQueueOf fn q fun h =>
    if off / 8 = 0 then { h with sqb := setHalf h.sqb (off % 8 == 4) w }
    else if off / 8 = 1 then { h with cqb := setHalf h.cqb (off % 8 == 4) w }
    else if off = 0x10 then { h with cfg := w &&& 0x8FFF0FFF }
    else h
/-- A 32-bit read of a queue's register. -/
def HostQueue.readReg (h : HostQueue) (off : Nat) : Word :=
  if off / 8 = 0 then half h.sqb (off % 8 == 4)
  else if off / 8 = 1 then half h.cqb (off % 8 == 4)
  else if off = 0x10 then h.cfg
  else if off = 0x18 then h.tail
  else if off = 0x1C then h.head
  else 0
/-- BAR 2 is set before lock: none, or a power of two up to 64 GiB (R303); a write in CONFIG_LOCKED or RUN is one to a locked field (R306). -/
def State.setBar2 (s : State) (fn off n v : Nat) : State :=
  if (s.tdi fn).state != .unlocked then s.lockedWrite fn
  else if n != 8 then s
  else if off = 0 then (if v = 0 || (v == 2 ^ barLog v && v ≤ 2 ^ 36) then s.modTdi fn fun t => { t with bar2 := v } else s)
  else if off = 8 then s.modTdi fn fun t => { t with bar2Base := v }
  else s
/-- HOST_INBOUND_WRITE: posted writes of a requester become visible at .sys in arrival order (R208): who acquires one has them all. BAR 4 is a
locked range (R306, R307). -/
def execHostInboundWrite (fn addr : Nat) (bytes : List Byte) (s : State) : Host.Outcome State Fault Refusal :=
  .next <|
    let tdi := withoutIde fn
    if tdi < 16 && addr / 2 ^ 40 = 3 then s.setBar2 tdi (addr % 2 ^ 40) bytes.length (leNat bytes)
    else if tdi = 0 && addr / 2 ^ 40 = 4 && (s.tdi 0).state != .unlocked then s.lockedWrite 0
    else if !s.barsOpen tdi then s
    else match s.barPlace tdi addr bytes.length with
      | .none => s
      | .reg q off =>
        if bytes.length = 4 then s.queueReg tdi q off (w32 (leNat bytes))
        else if bytes.length = 8 then (s.queueReg tdi q off (w32 (leNat (bytes.take 4)))).queueReg tdi q (off + 4) (w32 (leNat (bytes.drop 4)))
        else s
      | .mgmt off =>
        if s.accessOk 81 (hostMaster fn) .write off then s.regWrite off bytes.length (w64 (leNat bytes))
        else s.alarm 0 off 81 (hostMaster fn) 0
      | .phys pa =>
        if !(populated 0 pa bytes.length || populated 1 pa bytes.length) || s.unreachable (physTarget pa) then s
        else if s.accessOk (physTarget pa) (hostMaster fn) .write pa then s.hostStore tdi pa bytes
        else s.alarm 0 pa (physTarget pa) (hostMaster fn) 0
/-- HOST_INBOUND_READ: it sees every earlier posted write of its requester and what was released towards the host (R208, R312); a read that is
blocked is answered with no bytes. -/
def execHostInboundRead (fn addr len : Nat) (s : State) : Host.Outcome State Fault Refusal :=
  .next <|
    let answer := fun (s : State) (bs : List Byte) => s.modPkg fun p => { p with reads := p.reads ++ [bs] }
    let tdi := withoutIde fn
    if !s.barsOpen tdi then s
    else match s.barPlace tdi addr len with
      | .none => answer s []
      | .reg q off =>
        let h := s.hostQueue tdi q
        if len = 4 then answer s (leBytes 4 (h.readReg off).toNat)
        else if len = 8 then answer s (leBytes 4 (h.readReg off).toNat ++ leBytes 4 (h.readReg (off + 4)).toNat)
        else answer s []
      | .mgmt off =>
        if s.accessOk 81 (hostMaster fn) .read off then answer s (leBytes len (s.regRead off len))
        else answer (s.alarm 0 off 81 (hostMaster fn) 0) []
      | .phys pa =>
        if !(populated 0 pa len || populated 1 pa len) || s.unreachable (physTarget pa) || s.poisonedAt pa len then answer s []
        else if s.accessOk (physTarget pa) (hostMaster fn) .read pa then
          let r := s.hostLoad tdi pa len
          answer r.2 r.1
        else answer (s.alarm 0 pa (physTarget pa) (hostMaster fn) 0) []

end Sys2Proof.Machine
end

