-- ==== Sys2Proof/Machine/Walks.lean ====
section
/-! DEFINITION. Tile walks (R326, R327, R331, R342) and their permits (R343). -/

namespace Sys2Proof.Machine

/-! ## The descriptor (R326) -/

def TWalk.agent (w : TWalk) (s : State) : Fibre := s.agent w.die w.job (0x4301 + w.port)
/-- A field of a descriptor. -/
def fieldOf (b : List Byte) (at_ n : Nat) : Nat := leNat ((b.drop at_).take n)
/-- Whether a walk's descriptor keeps the limits. -/
def walkDescOk (b : List Byte) : Bool :=
  let rowb := fieldOf b 16 4
  let rows := fieldOf b 20 2
  let nd := fieldOf b 30 1
  let role := fieldOf b 28 1
  4 ≤ rowb && rowb ≤ 65536 && rowb % 4 == 0 && 1 ≤ rows && rows ≤ 4096 && rowb * rows ≤ 65536 && 1 ≤ fieldOf b 22 2 &&
    role ≤ 1 && 1 ≤ fieldOf b 29 1 && fieldOf b 29 1 ≤ 16 && 1 ≤ nd && nd ≤ (if role = 1 then 1 else 8) && fieldOf b 31 1 == 0 &&
    (List.range nd).all fun e => fieldOf b (40 + 16 * e) 4 % 1024 == 0 && fieldOf b (44 + 16 * e) 4 == 0

/-! ## A locator (R326) -/

def locPkg (l : Nat) : Nat := bitsOf l 31 22
def locDie (l : Nat) : Nat := bitsOf l 21 20
def locClu (l : Nat) : Nat := bitsOf l 19 17
def locCore (l : Nat) : Nat := bitsOf l 16 14
def locRgi (l : Nat) : Nat := bitsOf l 13 10
/-- The job's group that stands at a place of this package; one that has exited or been evicted does not. -/
def State.groupAt (s : State) (job die clu core rgi : Nat) : Option (Nat × Group) :=
  match s.resident? (coreIx die clu core) rgi with
  | some (i, g) => if g.job = job && !g.exited then some (i, g) else none
  | none => none
def State.located (s : State) (job l : Nat) : Option (Nat × Group) :=
  if locPkg l = Config.pkgNumber then s.groupAt job (locDie l) (locClu l) (locCore l) (locRgi l) else none

/-- A walk as its descriptor gives it. -/
def TWalk.ofDesc (id job port tag op die : Nat) (grp : Nat → Option Nat) (b : List Byte) : TWalk :=
  let nd := fieldOf b 30 1
  let k := fieldOf b 29 1
  let storer := fieldOf b 28 1 == 1
  let dests := (List.range nd).map fun e => (fieldOf b (32 + 16 * e) 4, fieldOf b (36 + 16 * e) 4, fieldOf b (40 + 16 * e) 4)
  { id := id, job := job, port := port, tag := tag, op := op, mem := w64 (fieldOf b 0 8), die := die,
    mpitch := fieldOf b 8 4, spitch := fieldOf b 12 4, rowb := fieldOf b 16 4, rows := fieldOf b 20 2, nt := fieldOf b 22 2,
    stride := (BitVec.ofNat 32 (fieldOf b 24 4)).toInt, storer := storer, k := k, dests := dests,
    permits := if storer then [] else (List.range nd).flatMap fun e => (List.range k).map fun j => (e, j),
    done := [], closed := [], grps := dests.map fun d => grp d.2.2, staged := [], acks := [], st := .ok }

/-! ## TWALK (R342) -/

def State.walk? (s : State) (id : Nat) : Option TWalk := s.pkg.walks.find? fun w => w.id == id
def State.modWalk (s : State) (id : Nat) (u : TWalk → TWalk) : State :=
  s.modPkg fun p => { p with walks := p.walks.map fun w => if w.id == id then u w else w }
/-- The running walk of a key. -/
def State.walkOfKey (s : State) (job port tag : Nat) : Option TWalk :=
  s.pkg.walks.find? fun w => w.job == job && w.port == port && w.tag == tag
/-- TWALK's operation, with its descriptor read: a walk starts, or the operation ends with FAULT. -/
def State.beginTileWalk (s : State) (o : Op) (port tag die : Nat) (b : List Byte) : State :=
  if !walkDescOk b || (s.walkOfKey o.job port tag).isSome then s.finishFab o .fault
  else
    let (id, s) := s.fresh
    let grp := fun l => (s.located o.job l).map (·.1)
    s.modPkg fun p => { p with walks := p.walks ++ [TWalk.ofDesc id o.job port tag o.id die grp b] }
/-- A range that a waiting word reads for itself, as its engine's agent: whether it is at hand, from another package by packets (R320). -/
def State.wordReads (s : State) (k : Nat) (agent : Fibre) (addr n : Nat) : Bool × State :=
  if s.walkBlocked agent .g addr n .read then (false, s) else s.atHand (wordKey k) agent .g addr n none
/-- A fabric word issues, with what it has read behind it: its operation, and what becomes of that at once. -/
def State.issueFab (s : State) (k : Nat) (i : Instr) (f : Fibre) (d : Reg) (x : FabOp) (go : State → Op → State) : State :=
  let (id, f2, s2) := (s.dropCarried (wordKey k)).launchOp k f .fx (some d.toNat) (.fab x 0 [] none .ok) (s.ordAt f f.rp)
  let s3 := (s2.finish k i f f2).startFab f2 x id
  match s3.op? id with
  | some o => if o.done.isSome then s3 else go s3 o
  | none => s3
/-- TWALK: the port's contexts and the descriptor are waited for before it counts in %oc.fx. -/
def execTwalk (h : Head) (d a : Reg) (tag port : BitVec 6) (s : State) : Host.Outcome State Fault Refusal :=
  let i := Instr.twalk h d a tag port
  issueWord i s fun k f =>
    let p := port.toNat
    if f.isHelper then s.finish k i f (f.setReg d.toNat 5)
    else if f.tainted then s.stallTag k f
    else if f.counterFull .fx then s.waitFor k f .full
    else if 64 ≤ (s.pkg.walks.filter fun w => w.port == p).length then s.waitFor k f .engine
    else if !s.accessesDone k f then s.waitFor k f .memory
    else
      let desc := f.readPair k a.toNat
      let x := FabOp.twalk desc p tag.toNat
      let die := (s.site f).die
      let agent := s.agent die (s.jobOf f) (0x4301 + p)
      if !s.fabOk f x || (s.walkOfKey (s.jobOf f) p tag.toNat).isSome then s.issueFab k i f d x fun s o => s.finishFab o .fault
      else
        let (here, s) := s.wordReads k agent desc.toNat 160
        if !here then s.waitFor k f .memory
        else match s.engineRead none agent .g desc.toNat 160 with
          | (.error st, s) => s.issueFab k i f d x fun s o => s.finishFab o st
          | (.ok b, s) => s.issueFab k i f d x fun s o => s.beginTileWalk o p tag.toNat die b

/-! ## Tiles -/

/-- Tiles a destination has had. -/
def TWalk.progress (w : TWalk) (e : Nat) : Nat := (look e w.done).getD 0
def TWalk.dest (w : TWalk) (e : Nat) : Nat × Nat × Nat := w.dests.getD e (0, 0, 0)
/-- Destinations that still have tiles to come. -/
def TWalk.openDests (w : TWalk) : List Nat :=
  (List.range w.dests.length).filter fun e => !w.closed.contains e && w.progress e < w.nt
/-- Address in memory of a row of a tile. -/
def TWalk.rowAddr (w : TWalk) (i r : Nat) : Nat :=
  (BitVec.ofInt 64 (w.mem.toNat + i * w.stride + r * w.mpitch)).toNat
/-- Offset in .sp of a row of a tile at a destination. -/
def TWalk.rowOff (w : TWalk) (e i r : Nat) : Nat := (w.dest e).1 + i % w.k * (w.rows * w.spitch) + r * w.spitch
def TWalk.barOff (w : TWalk) (e i : Nat) : Nat := (w.dest e).2.1 + 16 * (i % w.k)
def TWalk.isRemote (w : TWalk) (e : Nat) : Bool := locPkg (w.dest e).2.2 != Config.pkgNumber
/-- The group of a destination of this package, where it is still the one the walk started with. -/
def State.walkGroup (s : State) (w : TWalk) (e : Nat) : Option (Nat × Group) :=
  match s.located w.job (w.dest e).2.2, w.grps.getD e none with
  | some (i, g), some j => if i = j then some (i, g) else none
  | _, _ => none
/-- Whether a destination of this package is gone: its group has exited, was evicted or was never there. Another package says so by the
status CANCELLED. -/
def State.walkGone (s : State) (w : TWalk) (e : Nat) : Bool := !w.isRemote e && (s.walkGroup w e).isNone
/-- The runs of n bytes of a group's .sp, page by page (R145). -/
def State.spRuns (s : State) (g : Group) : Nat → Nat → Nat → List (Nat × Nat)
  | 0, _, _ => []
  | fuel + 1, off, n =>
    if n = 0 then []
    else
      let m := min n (4096 - off % 4096)
      (s.spLoc g off, m) :: State.spRuns s g fuel (off + m) (n - m)
def State.spRunsOf (s : State) (g : Group) (off n : Nat) : List (Nat × Nat) :=
  if off + n ≤ g.spad then s.spRuns g (n / 4096 + 2) off n else []
/-- Whether a fibre's undo entry lies under a buffer or its barrier (R288). -/
def State.bufferLogged (s : State) (w : TWalk) (g : Group) (e i : Nat) : Bool :=
  ((w.barOff e i, 16) :: (List.range w.rows).map fun r => (w.rowOff e i r, w.rowb)).any fun p =>
    (s.spRunsOf g p.1 p.2).any fun x => s.loggedByOther s.fibres.length x.1 x.2
/-- Where a tile may be staged: in its port's share, or the reserve (R331). -/
def State.stageRoom (s : State) (w : TWalk) : Option Bool :=
  let n := w.rowb * w.rows
  let reserve := (s.pkg.walks.flatMap fun x => x.staged.filter (·.reserve)).map (fun t => t.bytes.length)
  if s.stagedBytes w.port + n ≤ 896 * 1024 then some false
  else if reserve.sum + n ≤ 512 * 1024 then some true
  else none
/-- A tile takes its room; stored tiles make way. -/
def State.stage (s : State) (w : TWalk) (t : Staged) : State :=
  let s := s.modWalk w.id fun w => { w with staged := w.staged ++ [t] }
  s.setStore w.port (fitTiles (s.storeRoom w.port) (s.storeAt w.port))
/-- Tiles that every open destination has had leave their room. -/
def TWalk.unstage (w : TWalk) : TWalk :=
  { w with staged := w.staged.filter fun t => w.openDests.any fun e => w.progress e ≤ t.tile }
/-- A tile of a destination is behind it. -/
def TWalk.advance (w : TWalk) (e i : Nat) (st : Status) : TWalk :=
  TWalk.unstage { w with done := assign e (i + 1) w.done, permits := w.permits.filter (· != (e, i % w.k)), st := mergeStatus w.st st }
/-- The walk's operation has moved something: it can no longer be cancelled (R171). -/
def State.walkMoved (s : State) (w : TWalk) : State :=
  s.modOp w.op fun o => match o.body with
    | .fab x _ sent d st => { o with body := .fab x 1 sent d st }
    | _ => o
/-- The rows of a tile that are read or written on one side, as the walk's operation (R360). -/
def State.watchTile (s : State) (w : TWalk) (sp : Space) (write : Bool) (rows : List Nat) : State :=
  match s.op? w.op with
  | some o => rows.foldl (fun s a => s.watchOp o sp a w.rowb write) s
  | none => s
/-- n bytes read page by page for an operation: zeros where they cannot be read, with the first failure. -/
def State.readPieces (s : State) (op : Nat) (f : Fibre) : Nat → Nat → Nat → (List Byte × Status) × State
  | 0, _, _ => (([], .ok), s)
  | fuel + 1, addr, n =>
    if n = 0 then (([], .ok), s)
    else
      let m := s.pageRun f addr n
      let r := s.readBlank (some op) f 0 .g addr m
      let x : List Byte × Status := match r.1 with
        | .ok (bs, bad) => (bs, if bad.isEmpty then .ok else .dataerr)
        | .error st => (List.replicate m 0, st)
      let t := State.readPieces r.2 op f fuel (addr + m) (n - m)
      ((x.1 ++ t.1.1, mergeStatus x.2 t.1.2), t.2)

/-! ## A loader's tile -/

/-- A row on another package is asked for, piece by piece; the packets with the place of their bytes in the tile. -/
def State.askRow (s : State) (w : TWalk) (f : Fibre) (addr pos : Nat) : List (Nat × Nat) → List (Nat × Nat) × Status × State
  | [] => ([], .ok, s)
  | (p, n) :: l =>
    match s.send (s.site f) w.job (s.master f) (pkgOf addr) (bitsOf addr 52 51) (addr + p) .read
        (.read (bitsOf addr 52 51) (bitsOf addr 50 0 + p) n) (some w.op) with
    | (.error e, s) => ([], e.status, s)
    | (.ok id, s) =>
      let (ids, st, s) := State.askRow s w f addr pos l
      ((id, pos + p) :: ids, st, s)
/-- Reads a tile into its room: what lies on this package at once, the rest by packets. -/
def State.readTile (s : State) (w : TWalk) (i : Nat) (reserve : Bool) : State :=
  let f := w.agent s
  let (bytes, asks, st, s) := (List.range w.rows).foldl (fun (acc : List Byte × List (Nat × Nat) × Status × State) r =>
    let (bytes, asks, st, s) := acc
    let addr := w.rowAddr i r
    if pkgOf addr = Config.pkgNumber then
      let x := s.readPieces w.op f (w.rowb / 4096 + 2) addr w.rowb
      (bytes ++ x.1.1, asks, mergeStatus st x.1.2, x.2)
    else
      let (ids, e, s) := s.askRow w f addr (r * w.rowb) (piecesOf addr w.rowb)
      (bytes ++ List.replicate w.rowb 0, asks ++ ids, mergeStatus st e, s)) ([], [], .ok, s)
  let s := s.stage w ⟨i, bytes, st, reserve, [], false⟩
  let s := s.modWalk w.id fun w => { w with acks := w.acks ++ asks.map fun p => (p.1, 16 + p.2, i) }
  s.watchTile w .g false ((List.range w.rows).map (w.rowAddr i))
/-- Whether bytes of a tile are still to come. -/
def TWalk.reading (w : TWalk) (i : Nat) : Bool := w.acks.any fun a => 16 ≤ a.2.1 && a.2.2 == i
/-- One row into a group's .sp; FAULT where it passes .spad. -/
def State.rowInto (s : State) (g : Group) (off : Nat) (bs : List Byte) : Status × State :=
  if off + bs.length > g.spad then (.fault, s)
  else (.ok, ((s.spRunsOf g off bs.length).foldl (fun (acc : Nat × State) x =>
    (acc.1 + x.2, acc.2.store x.1 ((bs.drop acc.1).take x.2))) (0, s)).2)
/-- One arrival at a barrier of a group's .sp; FAULT where no barrier can stand there (R174). -/
def State.barInto (s : State) (g : Group) (off : Nat) (st : Status) : Status × State :=
  if off % 16 != 0 || off + 16 > g.spad then (mergeStatus st .fault, s) else (st, s.arriveBarrier (s.spLoc g off) st [])
/-- A staged tile is written into a buffer of this package, with its arrival. -/
def State.deliverTile (s : State) (w : TWalk) (e i : Nat) (gi : Nat) (g : Group) (t : Staged) : State :=
  let (st, s) := (List.range w.rows).foldl (fun (acc : Status × State) r =>
    let x := acc.2.rowInto g (w.rowOff e i r) ((t.bytes.drop (r * w.rowb)).take w.rowb)
    (mergeStatus acc.1 x.1, x.2)) (t.st, s)
  let (st, s) := s.barInto g (w.barOff e i) st
  let s := (s.walkMoved w).modWalk w.id fun w => w.advance e i st
  if ((s.op? w.op).map (·.grp)) == some gi then s.watchTile w .sp true ((List.range w.rows).map (w.rowOff e i)) else s
/-- Added to a barrier's offset in a delivered row that makes no arrival: what fails in it still enters the STATUS word. -/
def noArrival : Nat := 2 ^ 32
/-- A staged tile leaves for a buffer on another package: one packet for each row, its arrival with the last. -/
def State.sendTile (s : State) (w : TWalk) (e i : Nat) (t : Staged) : State :=
  let f := w.agent s
  let l := (w.dest e).2.2
  let (ids, st, s) := (List.range w.rows).foldl (fun (acc : List Nat × Status × State) r =>
    let (ids, st, s) := acc
    let bar := if r + 1 = w.rows then w.barOff e i else noArrival + w.barOff e i
    match s.send (s.site f) w.job (s.master f) (locPkg l) (locDie l) 0 .write
        (.deliver (locDie l) (locClu l) (locCore l) (locRgi l) (w.rowOff e i r) bar ((t.bytes.drop (r * w.rowb)).take w.rowb) t.st) (some w.op) with
    | (.error x, s) => (ids, mergeStatus st x.status, s)
    | (.ok id, s) => (ids ++ [id], st, s)) ([], t.st, s)
  (s.walkMoved w).modWalk w.id fun w => { w.advance e i st with acks := w.acks ++ ids.map fun p => (p, e, i) }
/-- Whether a destination can have its next tile now; one on another package needs retransmit-buffer room (R321). -/
def State.destReady (s : State) (w : TWalk) (e : Nat) : Bool :=
  let i := w.progress e
  s.walkGone w e || (w.permits.contains (e, i % w.k) && !w.reading i && (!w.isRemote e || s.retxRoom (w.rowb * w.rows)) &&
    (w.staged.any (fun t => t.tile == i) || (s.stageRoom w).isSome) &&
    match s.walkGroup w e with
    | some (_, g) => !s.bufferLogged w g e i
    | none => true)
/-- The destination that comes next: the one with the fewest tiles among those that can have theirs. -/
def State.nextDest (s : State) (w : TWalk) : Option Nat := (sortBy w.progress (w.openDests.filter (s.destReady w))).head?
/-- A destination is completed with CANCELLED (R327). -/
def TWalk.close (w : TWalk) (e : Nat) : TWalk := TWalk.unstage { w with closed := w.closed ++ [e], st := mergeStatus w.st .cancelled }
/-- One step of a loader. -/
def State.loadTile (s : State) (w : TWalk) (e : Nat) : State :=
  let i := w.progress e
  if s.walkGone w e then s.modWalk w.id fun w => w.close e
  else
    let s := if w.staged.any fun t => t.tile == i then s else s.readTile w i ((s.stageRoom w).getD false)
    match s.walk? w.id with
    | none => s
    | some w =>
      match w.staged.find? fun t => t.tile == i with
      | some t =>
        if w.reading i then s
        else match s.walkGroup w e with
          | some (gi, g) => s.deliverTile w e i gi g t
          | none => s.sendTile w e i t
      | none => s

/-! ## A storer's tile -/

/-- What can be read of a row at a place of its tile: its runs of good bytes, with their places in the row. -/
def goodRuns (bad : List (Nat × Nat)) (at_ : Nat) (bs : List Byte) : List (Nat × List Byte) :=
  if bad.isEmpty then [(0, bs)]
  else ((List.range ((bs.length + 7) / 8)).filter fun u => !bad.any fun x => x.1 < at_ + 8 * u + 8 && at_ + 8 * u < x.1 + x.2).map fun u =>
    (8 * u, (bs.drop (8 * u)).take 8)
/-- A row of a buffer, and which of its 8-byte elements cannot be read; none where it passes .spad. -/
def State.rowFrom (s : State) (g : Group) (off n : Nat) : Option (List Byte × List Nat) :=
  if off + n > g.spad then none
  else
    let bytes := (s.spRunsOf g off n).flatMap fun x => s.getBytes x.1 x.2
    let bad := (List.range ((n + 7) / 8)).filter fun u =>
      (s.spRunsOf g (off + 8 * u) (min 8 (n - 8 * u))).any fun x => s.poisonedAt x.1 x.2
    some (bytes, bad)
/-- The places in a tile of the bad 8-byte elements of a row. -/
def badRuns (at_ n : Nat) (bad : List Nat) : List (Nat × Nat) := bad.map fun u => (at_ + 8 * u, min 8 (n - 8 * u))
/-- Good bytes of a row go to memory, page by page; the packets that carry what lies on another package. -/
def State.storeRun (s : State) (w : TWalk) (f : Fibre) (addr : Nat) (bs : List Byte) : List Nat × Status × State :=
  if pkgOf addr = Config.pkgNumber then
    (s.pagesOf f (bs.length / 4096 + 2) addr bs.length).foldl (fun (acc : List Nat × Status × State) p =>
      let x := acc.2.2.engineWrite s.fibres.length f none .g false p.1 ((bs.drop (p.1 - addr)).take p.2)
      ([], mergeStatus acc.2.1 (x.1.getD .ok), x.2)) ([], .ok, s)
  else
    let die := bitsOf addr 52 51
    (piecesOf addr bs.length).foldl (fun (acc : List Nat × Status × State) p =>
      let (ids, st, s) := acc
      match s.send (s.site f) w.job (s.master f) (pkgOf addr) die (addr + p.1) .write
          (.store die (bitsOf addr 50 0 + p.1) ((bs.drop p.1).take p.2)) (some w.op) with
      | (.error x, s) => (ids, mergeStatus st x.status, s)
      | (.ok id, s) => (ids ++ [id], st, s)) ([], .ok, s)
def State.modStaged (s : State) (w : TWalk) (i : Nat) (u : Staged → Staged) : State :=
  s.modWalk w.id fun w => { w with staged := w.staged.map fun t => if t.tile == i then u t else t }
/-- A tile whose buffer has been read is written to memory, as far as it could be read. -/
def State.writeTile (s : State) (w : TWalk) (i : Nat) (t : Staged) : State :=
  let f := w.agent s
  let (ids, st, s) := (List.range w.rows).foldl (fun (acc : List Nat × Status × State) r =>
    (goodRuns t.bad (r * w.rowb) ((t.bytes.drop (r * w.rowb)).take w.rowb)).foldl (fun (acc : List Nat × Status × State) run =>
      let x := acc.2.2.storeRun w f ((w.rowAddr i r + run.1) % 2 ^ 64) run.2
      (acc.1 ++ x.1, mergeStatus acc.2.1 x.2.1, x.2.2)) acc) ([], t.st, s)
  let s := (s.walkMoved w).modStaged w i fun t => { t with st := st, wrote := true }
  let s := s.modWalk w.id fun w => { w with acks := w.acks ++ ids.map fun p => (p, 8, i) }
  s.watchTile w .g true ((List.range w.rows).map (w.rowAddr i))
/-- A buffer of this package is read and its tile written. -/
def State.storeTile (s : State) (w : TWalk) (i : Nat) (g : Group) (reserve : Bool) : State :=
  let (bytes, bad, st) := (List.range w.rows).foldl (fun (acc : List Byte × List (Nat × Nat) × Status) r =>
    let (bytes, bad, st) := acc
    match s.rowFrom g (w.rowOff 0 i r) w.rowb with
    | none => (bytes ++ List.replicate w.rowb 0, bad ++ [(r * w.rowb, w.rowb)], mergeStatus st .fault)
    | some (bs, us) => (bytes ++ bs, bad ++ badRuns (r * w.rowb) w.rowb us, mergeStatus st (if us.isEmpty then .ok else .dataerr)))
    ([], [], .ok)
  let t : Staged := ⟨i, bytes, st, reserve, bad, false⟩
  (s.stage w t).writeTile w i t
/-- A buffer on another package is asked for, row by row; the tile has its room meanwhile. -/
def State.pullTile (s : State) (w : TWalk) (i : Nat) (reserve : Bool) : State :=
  let f := w.agent s
  let l := (w.dest 0).2.2
  let (ids, bad, st, s) := (List.range w.rows).foldl (fun (acc : List (Nat × Nat) × List (Nat × Nat) × Status × State) r =>
    let (ids, bad, st, s) := acc
    match s.send (s.site f) w.job (s.master f) (locPkg l) (locDie l) 0 .read
        (.pull (locDie l) (locClu l) (locCore l) (locRgi l) (w.rowOff 0 i r) w.rowb) (some w.op) with
    | (.error x, s) => (ids, bad ++ [(r * w.rowb, w.rowb)], mergeStatus st x.status, s)
    | (.ok id, s) => (ids ++ [(id, r * w.rowb)], bad, st, s)) ([], [], .ok, s)
  (s.stage w ⟨i, List.replicate (w.rowb * w.rows) 0, st, reserve, bad, false⟩).modWalk w.id fun w =>
    { w with acks := w.acks ++ ids.map fun p => (p.1, 16 + p.2, i) }
/-- The arrival of a tile whose writes are all acknowledged, on this package or by a packet that brings no bytes. -/
def State.tileStored (s : State) (w : TWalk) (i : Nat) (t : Staged) : State :=
  let l := (w.dest 0).2.2
  if w.isRemote 0 then
    let f := w.agent s
    match s.send (s.site f) w.job (s.master f) (locPkg l) (locDie l) 0 .write
        (.deliver (locDie l) (locClu l) (locCore l) (locRgi l) 0 (w.barOff 0 i) [] t.st) (some w.op) with
    | (.error x, s) => s.modWalk w.id fun w => w.advance 0 i (mergeStatus t.st x.status)
    | (.ok id, s) => s.modWalk w.id fun w => { w.advance 0 i t.st with acks := w.acks ++ [(id, 0, i)] }
  else match s.walkGroup w 0 with
    | some (_, g) =>
      let (st, s) := s.barInto g (w.barOff 0 i) t.st
      s.modWalk w.id fun w => w.advance 0 i st
    | none => s.modWalk w.id fun w => w.advance 0 i t.st
/-- A storer's next tile begins: its buffer is read once it has the permit and the tile its room. -/
def State.beginStore (s : State) (w : TWalk) (i : Nat) : State :=
  let room := (pkgOf (w.rowAddr i 0) == Config.pkgNumber && !w.isRemote 0) || s.retxRoom (w.rowb * w.rows)
  if !w.permits.contains (0, i % w.k) || !room then s
  else match s.stageRoom w, s.walkGroup w 0 with
    | some reserve, some (_, g) => if s.bufferLogged w g 0 i then s else s.storeTile w i g reserve
    | some reserve, none => if w.isRemote 0 then s.pullTile w i reserve else s
    | none, _ => s
/-- One step of a storer: its buffer is read, its tile written, and once that is acknowledged the arrival is made. -/
def State.storerStep (s : State) (w : TWalk) : State :=
  let i := w.progress 0
  let s := if w.staged.any fun t => t.tile == i then s else s.beginStore w i
  match s.walk? w.id with
  | none => s
  | some x =>
    match x.staged.find? fun t => t.tile == i with
    | some t =>
      if !x.acks.isEmpty || (match s.walkGroup x 0 with | some (_, g) => s.bufferLogged x g 0 i | none => false) then s
      else if t.wrote then s.tileStored x i t
      else if pkgOf (x.rowAddr i 0) == Config.pkgNumber || s.retxRoom (x.rowb * x.rows) then s.writeTile x i t
      else s
    | none => if s.walkGone x 0 then s.modWalk x.id fun w => w.close 0 else s

/-! ## TILE_WALK_TILE -/

/-- A walk whose destinations have all had their tiles, or are closed, and whose packets are acknowledged, is over. -/
def State.endWalk (s : State) (id : Nat) : State :=
  match s.walk? id with
  | none => s
  | some w =>
    if !w.openDests.isEmpty || !w.acks.isEmpty then s
    else
      let s := s.modPkg fun p => { p with walks := p.walks.filter fun x => x.id != id }
      match s.op? w.op with
      | some o => s.finishFab o w.st
      | none => s
def execTileWalkTile (walk : Nat) (s : State) : Host.Outcome State Fault Refusal :=
  .next <| match s.walk? walk with
  | none => s
  | some w =>
    (if w.openDests.isEmpty then s
     else if w.storer then s.storerStep w
     else match s.nextDest w with
       | some e => s.loadTile w e
       | none => s).endWalk walk

/-! ## PERMIT (R343) -/

def execPermit (h : Head) (d a b : Reg) (s : State) : Host.Outcome State Fault Refusal :=
  let i := Instr.permit h d a b
  issueWord i s fun k f =>
    let key := (f.read k a.toNat).toNat
    let buf := (f.read k b.toNat).toNat
    let e := bitsOf key 14 12
    if f.isHelper then s.finish k i f (f.setPred d.toNat false)
    else if f.tainted then s.stallTag k f
    else match s.walkOfKey (s.jobOf f) (bitsOf key 5 0) (bitsOf key 11 6) with
      | none => s.finish k i f (f.setPred d.toNat false)
      | some w =>
        if key ≥ 2 ^ 15 || e ≥ w.dests.length || buf ≥ w.k then s.finish k i f (f.setPred d.toNat false)
        else
          let (_, f2, s2) := s.launchOp k f .none none (.permit w.id e buf d.toNat) (s.ordAt f f.rp)
          s2.finish k i f f2
/-- WALK_PERMIT_ARRIVE: once every access of the fibre before the PERMIT is complete. -/
def execWalkPermitArrive (op : Nat) (s : State) : Host.Outcome State Fault Refusal :=
  .next <| match s.op? op with
  | none => s
  | some o =>
    match o.body with
    | .permit walk e buf pd =>
      if !s.olderDone o then s
      else
        let taken := ((s.walk? walk).map fun w => !w.permits.contains (e, buf)).getD false
        let s := (s.dropOp op).modWalk walk fun w => if w.permits.contains (e, buf) then w else { w with permits := w.permits ++ [(e, buf)] }
        if o.gone then s else s.modFibre o.fib fun f => f.setPred pd taken
    | _ => s

end Sys2Proof.Machine
end

