-- ==== Sys2Proof/Machine/Collective.lean ====
section
/-! DEFINITION. The collective sequencer: CSEQ (R323, R344), the steps of its programs (R324), failures and aborts (R325). -/

namespace Sys2Proof.Machine

/-! ## The descriptor (R323) -/

/-- The fields of a step. -/
structure CollStep where
  op : Nat
  p  : Nat
  c  : Nat
  s  : Nat
  a  : Nat
  deriving DecidableEq, Repr
def stepOf (x : BitVec 128) : CollStep :=
  ⟨bitsOf x.toNat 7 0, bitsOf x.toNat 25 16, bitsOf x.toNat 47 32, bitsOf x.toNat 51 48, bitsOf x.toNat 127 64⟩
/-- Bytes of an element. -/
def collWidth (ty : Nat) : Nat := if ty = 2 then 8 else 4
/-- The reserved fields of a step are 0 and its OP is listed. -/
def stepShapeOk (x : BitVec 128) : Bool :=
  bitsOf x.toNat 7 0 ≤ 8 && bitsOf x.toNat 15 8 == 0 && bitsOf x.toNat 31 26 == 0 && bitsOf x.toNat 55 52 == 0 && bitsOf x.toNat 63 56 == 0
/-- The steps checked in order; `live` are the chunks live before them. -/
def stepsOk (w chunks : Nat) : List Nat → List CollStep → Bool
  | _, [] => true
  | live, x :: l =>
    let inRange := x.c < chunks
    let isLive := live.contains x.c
    let after := match x.op with
      | 1 | 5 => if isLive then live else x.c :: live
      | 6 => live.filter (· != x.c)
      | _ => live
    (match x.op with
     | 1 | 5 => inRange
     | 2 | 4 | 6 => inRange && isLive
     | 3 => inRange && isLive && x.a % w == 0
     | 7 => x.a % 8 == 0
     | 8 => x.a % 8 == 0 && x.a < 2 ^ 63
     | _ => true) && after.length ≤ 64 && stepsOk w chunks after l
/-- A descriptor's header keeps its limits. -/
def collHeaderOk (b : List Byte) : Bool :=
  let e := fieldOf b 16 4
  let ty := fieldOf b 20 1
  let chk := fieldOf b 22 1
  1 ≤ e && e ≤ 16777216 && ty ≤ 2 && fieldOf b 21 1 ≤ (if ty = 0 then 1 else 0) && 6 ≤ chk && chk ≤ 14 && fieldOf b 23 1 == 0 &&
    1 ≤ fieldOf b 24 2 && fieldOf b 24 2 ≤ 256 && fieldOf b 26 6 == 0 && fieldOf b 0 8 % collWidth ty == 0 &&
    fieldOf b 8 8 % (if fieldOf b 21 1 = 1 then 2 else collWidth ty) == 0
def collSteps (b : List Byte) : List (BitVec 128) :=
  (List.range (fieldOf b 24 2)).map fun i => BitVec.ofNat 128 (leNat (((b.drop (32 + 16 * i)).take 16)))
/-- The whole check of R323. -/
def collDescOk (b : List Byte) : Bool :=
  collHeaderOk b &&
    (let e := fieldOf b 16 4
     let n := 2 ^ fieldOf b 22 1
     (collSteps b).all stepShapeOk && stepsOk (collWidth (fieldOf b 20 1)) ((e + n - 1) / n) [] ((collSteps b).map stepOf))

/-! ## Programs -/

def State.prog? (s : State) (id : Nat) : Option Prog := s.pkg.progs.find? fun p => p.id == id && p.live
def State.modProg (s : State) (id : Nat) (u : Prog → Prog) : State :=
  s.modPkg fun p => { p with progs := p.progs.map fun x => if x.id == id then u x else x }
/-- The running program of a job and tag. -/
def State.progOf (s : State) (job tag : Nat) : Option Prog := s.pkg.progs.find? fun p => p.live && p.job == job && p.tag == tag
/-- Programs of a job and tag that have started (R325). -/
def State.runsOf (s : State) (job tag : Nat) : Nat := ((s.pkg.runs.find? fun e => e.1 == (job, tag)).map (·.2)).getD 0
def Prog.agent (p : Prog) (s : State) : Fibre := s.agent p.die p.job 0x4300
def Prog.step (p : Prog) : CollStep := stepOf (p.steps.getD p.pc 0)
/-- First element and length of a chunk. -/
def Prog.first (p : Prog) (c : Nat) : Nat := c * 2 ^ p.chk
def Prog.count (p : Prog) (c : Nat) : Nat := min p.e ((c + 1) * 2 ^ p.chk) - p.first c
/-- The packages a program's steps name, its own apart. -/
def Prog.named (p : Prog) : List Nat :=
  ((p.steps.map stepOf).filterMap fun x =>
    if x.op = 2 then some x.p else if (x.op = 3 || x.op = 7) && 2 ^ 63 ≤ x.a then some (bitsOf x.a 62 53) else none).eraseDups.filter
      (· != Config.pkgNumber)
/-- A program completes with a status; what it held goes with it. -/
def State.endProg (s : State) (p : Prog) (st : Status) : State :=
  let s := s.modPkg fun x => { x with progs := x.progs.filter (fun q => q.id != p.id),
                                      credits := x.credits.filter fun c => !(c.1 == p.job && c.2.1 == p.tag) }
  match s.op? p.op with
  | some o => s.finishFab o st
  | none => s
/-- Aborts go to the packages a program names, but for the one an abort came from. -/
def State.sendAborts (s : State) (p : Prog) (from_ : Option Nat) (st : Status) : State :=
  (p.named.filter fun x => some x != from_).foldl (fun s x =>
    (s.send ⟨p.die, 0, 0⟩ p.job 0x4300 x 0 0 .write
      (.abort ⟨p.job, p.tag, Config.pkgNumber, 0, 0, [], p.ord, st⟩) none).2) s
/-- A step fails: aborts, then the program ends (R325). -/
def State.failProg (s : State) (p : Prog) (st : Status) : State := (s.sendAborts p none st).endProg p st
/-- A step is done. -/
def State.nextStep (s : State) (p : Prog) (bad : Bool) : State :=
  s.modProg p.id fun q => { q with pc := q.pc + 1, bad := q.bad || bad, sent := none, stepSt := .ok }
/-- An uncorrectable element lets the program go on; anything else that is not OK fails it. -/
def State.stepDone (s : State) (p : Prog) (st : Status) : State :=
  match st with
  | .ok => s.nextStep p false
  | .dataerr => s.nextStep p true
  | st => s.failProg p st

/-! ## CSEQ (R344) -/

/-- Bytes of chunk buffers that running programs have. -/
def State.chunkBytes (s : State) : Nat := ((s.pkg.progs.filter (·.live)).map fun p => 512 * 2 ^ p.chk).sum
def State.chunkRoom (s : State) (b : List Byte) : Bool := s.chunkBytes + 512 * 2 ^ fieldOf b 22 1 ≤ 16 * 2 ^ 20
/-- A program starts; one that an abort waits for completes at once (R325). -/
def State.startProg (s : State) (o : Op) (die tag : Nat) (b : List Byte) : State :=
  let (id, s) := s.fresh
  let n := s.runsOf o.job tag + 1
  let p : Prog := { id := id, job := o.job, tag := tag, ord := n, op := o.id, die := die, src := w64 (fieldOf b 0 8), dst := w64 (fieldOf b 8 8),
                    e := fieldOf b 16 4, ty := fieldOf b 20 1, dfmt := fieldOf b 21 1, chk := fieldOf b 22 1, steps := collSteps b, pc := 0,
                    acc := [], slots := [], bad := false, live := true, sent := none, stepSt := .ok, granted := [] }
  let s := s.modPkg fun x => { x with progs := x.progs ++ [p], runs := ((o.job, tag), n) :: x.runs.filter fun e => e.1 != (o.job, tag) }
  match s.pkg.aborts.find? fun m => m.job == o.job && m.tag == tag && m.ord == n with
  | none => s
  | some m =>
    let s := s.modPkg fun x => { x with aborts := x.aborts.filter fun y => !(y.job == o.job && y.tag == tag && y.ord == n) }
    (s.sendAborts p (some m.peer) m.status).endProg p m.status
/-- Header and steps of a descriptor, that a waiting word reads; none while what lies on another package is not at hand. -/
def State.readProg (s : State) (k : Nat) (f : Fibre) (addr : Nat) : Option (Except Status (List Byte)) × State :=
  match s.wordReads k f addr 32 with
  | (false, s) => (none, s)
  | (true, s) =>
    match s.engineRead none f .g addr 32 with
    | (.error st, s) => (some (.error st), s)
    | (.ok h, s) =>
      if !collHeaderOk h then (some (.error .fault), s)
      else match s.wordReads k f (addr + 32) (16 * fieldOf h 24 2) with
        | (false, s) => (none, s)
        | (true, s) =>
          match s.engineRead none f .g (addr + 32) (16 * fieldOf h 24 2) with
          | (.error st, s) => (some (.error st), s)
          | (.ok b, s) => (some (if collDescOk (h ++ b) then .ok (h ++ b) else .error .fault), s)
/-- CSEQ: the sequencer's programs and chunk buffers, and the descriptor, are waited for before it counts in %oc.fx. -/
def execCseq (h : Head) (d a b : Reg) (s : State) : Host.Outcome State Fault Refusal :=
  let i := Instr.cseq h d a b
  issueWord i s fun k f =>
    let desc := f.readPair k a.toNat
    let tag := f.read k b.toNat
    let x := FabOp.cseq desc tag
    let die := (s.site f).die
    let job := s.jobOf f
    let agent := s.agent die job 0x4300
    if f.isHelper then s.finish k i f (f.setReg d.toNat 5)
    else if f.tainted then s.stallTag k f
    else if f.counterFull .fx then s.waitFor k f .full
    else if 64 ≤ (s.pkg.progs.filter (·.live)).length then s.waitFor k f .engine
    else if !s.accessesDone k f then s.waitFor k f .memory
    else if !s.fabOk f x || (s.progOf job tag.toNat).isSome then s.issueFab k i f d x fun s o => s.finishFab o .fault
    else match s.readProg k agent desc.toNat with
      | (none, s) => s.waitFor k f .memory
      | (some (.error st), s) => s.issueFab k i f d x fun s o => s.finishFab o st
      | (some (.ok b), s) =>
        if !s.chunkRoom b then s.waitFor k f .engine
        else s.issueFab k i f d x fun s o => s.startProg o die tag.toNat b

/-! ## Elements (R324) -/

/-- WIRE of an element, and WIDEN of one from the wire. -/
def wire (ty v : Nat) : Nat := if ty = 0 then (cvtFF FF.f32 FF.bf16 .rn v 0).1 else v
def widen (ty v : Nat) : Nat := if ty = 0 then (cvtFF FF.bf16 FF.f32 .rn v 0).1 else v
/-- ADD of two elements. -/
def collAdd (ty x y : Nat) : Nat := if ty = 0 then (FF.f32.add .rn x y 0).1 else (x + y) % 2 ^ (8 * collWidth ty)
/-- Elements of this package's memory from an address upward for an operation, uncorrectable ones as +0. -/
def State.readElems (s : State) (op : Nat) (f : Fibre) (w : Nat) : Nat → Nat → Except Status (List DWord × Bool) × State
  | _, 0 => (.ok ([], false), s)
  | addr, n + 1 =>
    match s.findNow f .g addr w .read with
    | (.at_ loc, s) =>
      let bad := s.poisonedAt loc w
      let v := if bad then 0 else w64 (leNat (s.readAt loc w))
      match State.readElems (s.noteMet (some op) loc w) op f w (addr + w) n with
      | (.ok r, s) => (.ok (v :: r.1, bad || r.2), s)
      | (.error st, s) => (.error st, s)
    | (.bad k, s) => (.error (kindStatus k), s)
    | (_, s) => (.error .fault, s)
/-- Packets of a step, one for each address and body. -/
def State.sendStep (s : State) (p : Prog) (dst tdie : Nat) (a : Acc) (l : List (Nat × PktBody)) : State :=
  match s.sendAll ⟨p.die, 0, 0⟩ p.job 0x4300 dst tdie p.op a l with
  | (.ok ids, s) => s.modProg p.id fun q => { q with sent := some ids }
  | (.error st, s) => s.failProg p st
/-- A step whose packets are out goes on when all are acknowledged. -/
def State.awaitStep (s : State) (p : Prog) (begin_ : State → State) (done : State → State) : State :=
  match p.sent with
  | none => begin_ s
  | some [] => if p.stepSt = .ok || p.stepSt = .dataerr then (done s).stepDone p p.stepSt else s.failProg p p.stepSt
  | some _ => s
/-- The step of a program, where it has the OP an event is for. -/
def State.collStep (s : State) (prog op : Nat) (body : Prog → CollStep → State) : Host.Outcome State Fault Refusal :=
  .next <| match s.prog? prog with
  | none => s
  | some p => if p.step.op = op then body p p.step else s
def Prog.setAcc (p : Prog) (c : Nat) (v : List DWord) : Prog := { p with acc := assign c v p.acc }
def Prog.accOf (p : Prog) (c : Nat) : List DWord := (look c p.acc).getD []

/-! ## The steps -/

def execCollEnd (prog : Nat) (s : State) : Host.Outcome State Fault Refusal :=
  s.collStep prog 0 fun p _ => s.endProg p (if p.bad then .dataerr else .ok)
def execCollLoad (prog : Nat) (s : State) : Host.Outcome State Fault Refusal :=
  s.collStep prog 1 fun p x =>
    let w := collWidth p.ty
    let addr := (p.src.toNat + p.first x.c * w) % 2 ^ 64
    let n := p.count x.c
    s.awaitStep p (fun s =>
      if pkgOf addr = Config.pkgNumber then
        (match s.readElems p.op (p.agent s) w addr n with
         | (.ok (vs, bad), s) => (s.modProg p.id fun q => q.setAcc x.c vs).stepDone p (if bad then .dataerr else .ok)
         | (.error st, s) => s.failProg p st)
      else
        let die := bitsOf addr 52 51
        (s.modProg p.id fun q => q.setAcc x.c (List.replicate n 0)).sendStep p (pkgOf addr) die .read
          ((List.range n).map fun j => (addr + j * w, .load die (bitsOf addr 50 0 + j * w) w))) id
/-- SEND: to a slot of this package it needs the slot empty; to another it takes the slot's credit. -/
def execCollSend (prog : Nat) (s : State) : Host.Outcome State Fault Refusal :=
  s.collStep prog 2 fun p x =>
    let m : CollMsg := ⟨p.job, p.tag, Config.pkgNumber, x.s, p.ty, (p.accOf x.c).map fun v => w64 (wire p.ty v.toNat), p.ord, .ok⟩
    s.awaitStep p (fun s =>
      if x.p = Config.pkgNumber then
        (if (look x.s p.slots).isSome || p.granted.contains x.s then s
         else (s.modProg p.id fun q => { q with slots := assign x.s m q.slots }).nextStep p false)
      else
        let credit := (p.job, p.tag, x.p, x.s)
        if s.pkg.credits.contains credit then
          if !s.retxRoom (8 * m.values.length) then s else
          (s.modPkg fun q => { q with credits := q.credits.erase credit }).sendStep p x.p 0 .write [(0, .chunk m)]
        else match s.pkg.egress x.p p.die 0 0 with
          | .error e => s.failProg p e.status
          | .ok _ => s) id
/-- One element after another added at this package; whether one was uncorrectable, and the failure that stops it. -/
def State.raddElems (s : State) (f : Fibre) (ty : Ty) : Nat → List Nat → Status × State
  | _, [] => (.ok, s)
  | addr, v :: vs =>
    match s.raddHere f ty addr [v] with
    | (none, s) => State.raddElems s f ty (addr + tyBytes ty) vs
    | (some .dataerr, s) =>
      let r := State.raddElems s f ty (addr + tyBytes ty) vs
      (if r.1 = .ok then .dataerr else r.1, r.2)
    | (some st, s) => (st, s)
def execCollRadd (prog : Nat) (s : State) : Host.Outcome State Fault Refusal :=
  s.collStep prog 3 fun p x =>
    let ty : Ty := if p.ty = 2 then .s64 else .s32
    let vs := p.accOf x.c
    if p.ty = 0 then s.failProg p .fault
    else s.awaitStep p (fun s =>
      if pkgOf x.a = Config.pkgNumber then
        (match s.raddElems (p.agent s) ty x.a (vs.map (·.toNat)) with | (st, s) => s.stepDone p st)
      else
        let die := bitsOf x.a 52 51
        let w := tyBytes ty
        if !s.retxRoom (vs.length * w) then s else
        s.sendStep p (pkgOf x.a) die .atomic ((piecesOf x.a (vs.length * w)).map fun q =>
          (x.a + q.1, .radd die (bitsOf x.a 50 0 + q.1) ty ((vs.drop (q.1 / w)).take (q.2 / w))))) id
/-- RECV.add and RECV.copy. -/
def State.receiveStep (s : State) (p : Prog) (x : CollStep) (add : Bool) : State :=
  match look x.s p.slots with
  | none => s
  | some m =>
    if m.ty != p.ty || m.values.length != p.count x.c then s.failProg p .fault
    else
      let new := m.values.map fun v => widen p.ty v.toNat
      let vs := if add then ((p.accOf x.c).zip new).map fun e => w64 (collAdd p.ty e.1.toNat e.2) else new.map w64
      (s.modProg p.id fun q => { q.setAcc x.c vs with slots := q.slots.filter fun e => e.1 != x.s }).nextStep p false
def execCollRecvAdd (prog : Nat) (s : State) : Host.Outcome State Fault Refusal := s.collStep prog 4 fun p x => s.receiveStep p x true
def execCollRecvCopy (prog : Nat) (s : State) : Host.Outcome State Fault Refusal := s.collStep prog 5 fun p x => s.receiveStep p x false
/-- The bytes WRITE stores of an element. -/
def Prog.outBytes (p : Prog) (v : DWord) : List Byte :=
  let x := wire p.ty v.toNat
  if p.ty = 0 then (if p.dfmt = 1 then leBytes 2 x else leBytes 4 (widen 0 x)) else leBytes (collWidth p.ty) x
def execCollWrite (prog : Nat) (s : State) : Host.Outcome State Fault Refusal :=
  s.collStep prog 6 fun p x =>
    let w := if p.dfmt = 1 then 2 else collWidth p.ty
    let addr := (p.dst.toNat + p.first x.c * w) % 2 ^ 64
    let bs := (p.accOf x.c).flatMap p.outBytes
    let free := fun (s : State) => s.modProg p.id fun q => { q with acc := q.acc.filter fun e => e.1 != x.c }
    s.awaitStep p (fun s =>
      if pkgOf addr = Config.pkgNumber then
        (match s.engineWrite s.fibres.length (p.agent s) none .g false addr bs with
         | (none, s) => (free s).stepDone p .ok
         | (some st, s) => s.failProg p st)
      else
        let die := bitsOf addr 52 51
        if !s.retxRoom bs.length then s else
        s.sendStep p (pkgOf addr) die .write ((piecesOf addr bs.length).map fun q =>
          (addr + q.1, .store die (bitsOf addr 50 0 + q.1) ((bs.drop q.1).take q.2)))) free
def execCollSignal (prog : Nat) (s : State) : Host.Outcome State Fault Refusal :=
  s.collStep prog 7 fun p x =>
    s.awaitStep p (fun s =>
      if pkgOf x.a = Config.pkgNumber then
        (match s.signalHere (p.agent s) none x.a true 1 with
         | (none, s) => s.stepDone p .ok
         | (some st, s) => s.failProg p st)
      else
        let die := bitsOf x.a 52 51
        s.sendStep p (pkgOf x.a) die .atomic [(x.a, .signal die (bitsOf x.a 50 0) true 1)]) id
def execCollWaitge (prog : Nat) (s : State) : Host.Outcome State Fault Refusal :=
  s.collStep prog 8 fun p x =>
    match s.engineRead (some p.op) (p.agent s) .g x.a 8 with
    | (.ok bs, s) => if x.c ≤ leNat bs then s.stepDone p .ok else s
    | (.error st, s) => s.failProg p st

/-! ## Between sequencers (R324, R325) -/

/-- COLL_CHUNK_ARRIVE: a chunk fills the slot whose credit was out; without a program of its tag it is dropped. -/
def State.chunkArrives (s : State) (m : CollMsg) : State :=
  match s.progOf m.job m.tag with
  | none => s
  | some p =>
    if m.slot ≥ 16 || !p.granted.contains m.slot || (look m.slot p.slots).isSome then s
    else s.modProg p.id fun q => { q with slots := assign m.slot m q.slots, granted := q.granted.filter (· != m.slot) }
def execCollChunkArrive (msg : CollMsg) (s : State) : Host.Outcome State Fault Refusal := .next (s.chunkArrives msg)
/-- A credit that comes from another package (`peer`), for its slot. -/
def State.creditArrives (s : State) (m : CollMsg) : State :=
  if s.pkg.credits.contains (m.job, m.tag, m.peer, m.slot) then s
  else s.modPkg fun p => { p with credits := p.credits ++ [(m.job, m.tag, m.peer, m.slot)] }
/-- COLL_CREDIT_GRANT: with `peer` this package, the credit of an empty slot of a running program goes to package `ord`. -/
def execCollCreditGrant (msg : CollMsg) (s : State) : Host.Outcome State Fault Refusal :=
  .next <|
    if msg.peer != Config.pkgNumber then s.creditArrives msg
    else match s.progOf msg.job msg.tag with
      | none => s
      | some p =>
        if msg.slot ≥ 16 || msg.ord = Config.pkgNumber || p.granted.contains msg.slot || (look msg.slot p.slots).isSome then s
        else match s.send ⟨p.die, 0, 0⟩ p.job 0x4300 msg.ord 0 0 .write
            (.credit ⟨p.job, p.tag, Config.pkgNumber, msg.slot, 0, [], 0, .ok⟩) none with
          | (.ok _, s) => s.modProg p.id fun q => { q with granted := q.granted ++ [msg.slot] }
          | (.error _, s) => s
/-- An abort is kept for a program that has not started; of two the first counts, and the oldest of 64 makes way. -/
def State.keepAbort (s : State) (m : CollMsg) : State :=
  if s.pkg.aborts.any (fun y => y.job == m.job && y.tag == m.tag && y.ord == m.ord) || ((s.job? m.job).map fun j => j.status.isSome).getD false then s
  else s.modPkg fun p => { p with aborts := (p.aborts ++ [m]).drop (p.aborts.length + 1 - 64) }
/-- COLL_ABORT_RECEIVE: `peer` is the package the abort comes from. -/
def State.abortArrives (s : State) (m : CollMsg) : State :=
  match s.progOf m.job m.tag with
  | some p =>
    if p.ord = m.ord then (s.sendAborts p (some m.peer) m.status).endProg p m.status
    else if m.ord ≤ s.runsOf m.job m.tag then s
    else s.keepAbort m
  | none => if m.ord ≤ s.runsOf m.job m.tag then s else s.keepAbort m
def execCollAbortReceive (msg : CollMsg) (s : State) : Host.Outcome State Fault Refusal := .next (s.abortArrives msg)

end Sys2Proof.Machine
end

