-- ==== Sys2Proof/Machine/FloatOps.lean ====
section
/-! DEFINITION. Floating-point words on FP32, FP64 and packed pairs (R117 to R123). -/

namespace Sys2Proof.Machine

/-- The register words of a value of a float format: a pair, or one register with its upper bits 0 (R115). -/
def FF.words (t : FF) (x : Nat) : List Word := if t.width = 64 then dwords (w64 x) else [w32 x]
/-- A register operand in a float format. -/
def Fibre.float (f : Fibre) (k : Nat) (t : Ty) (r : Reg) : Nat := f.operand k t r

/-- d = a op b in one format, rounded once. -/
def floatBin (i : Instr) (ty : Ty) (d a b : Reg) (r : Rnd) (op : FF → Rnd → Nat → Nat → Nat → Nat × Conds) (s : State) :=
  roundWord i d.toNat r 1 s fun k f ns =>
    let x := op (ffOf ty) r (f.float k ty a) (f.float k ty b) (ns.getD 0 0)
    ((ffOf ty).words x.1, x.2)
/-- d = op a in FP32, rounded once. -/
def floatUn (i : Instr) (d a : Reg) (r : Rnd) (op : FF → Rnd → Nat → Nat → Nat × Conds) (s : State) :=
  roundWord i d.toNat r 1 s fun k f ns =>
    let x := op .f32 r (f.float k .f32 a) (ns.getD 0 0)
    ([w32 x.1], x.2)
/-- d = a × b + c with one rounding. -/
def floatFma (i : Instr) (ty : Ty) (d a b c : Reg) (r : Rnd) (s : State) :=
  roundWord i d.toNat r 1 s fun k f ns =>
    let x := (ffOf ty).fma r (f.float k ty a) (f.float k ty b) (f.float k ty c) (ns.getD 0 0)
    ((ffOf ty).words x.1, x.2)
/-- A word of FP32 that draws no noise. -/
def floatWord (i : Instr) (d : Reg) (s : State) (v : Nat → Fibre → Nat × Conds) : Host.Outcome State Fault Refusal :=
  aluWord i d.toNat s fun k f => ([w32 (v k f).1], (v k f).2)

/-! ## FP32 (R117 to R119) -/

def execFadd (h : Head) (d a b : Reg) (rnd : Rnd) (s : State) := floatBin (.fadd h d a b rnd) .f32 d a b rnd FF.add s
def execFsub (h : Head) (d a b : Reg) (rnd : Rnd) (s : State) := floatBin (.fsub h d a b rnd) .f32 d a b rnd FF.sub s
def execFmul (h : Head) (d a b : Reg) (rnd : Rnd) (s : State) := floatBin (.fmul h d a b rnd) .f32 d a b rnd FF.mul s
def execFdiv (h : Head) (d a b : Reg) (rnd : Rnd) (s : State) : Host.Outcome State Fault Refusal :=
  lateRoundWord (.fdiv h d a b rnd) d.toNat rnd 1 s fun k f ns =>
    let x := FF.f32.div rnd (f.float k .f32 a) (f.float k .f32 b) (ns.getD 0 0)
    ([w32 x.1], x.2)
def execFfma (h : Head) (d a b c : Reg) (rnd : Rnd) (s : State) := floatFma (.ffma h d a b c rnd) .f32 d a b c rnd s
def execFmin (h : Head) (d a b : Reg) (s : State) :=
  floatWord (.fmin h d a b) d s fun k f => FF.f32.minMax false (f.float k .f32 a) (f.float k .f32 b)
def execFmax (h : Head) (d a b : Reg) (s : State) :=
  floatWord (.fmax h d a b) d s fun k f => FF.f32.minMax true (f.float k .f32 a) (f.float k .f32 b)
def execFrcp (h : Head) (d a : Reg) (rnd : Rnd) (s : State) := floatUn (.frcp h d a rnd) d a rnd FF.rcp s
def execFsqrt (h : Head) (d a : Reg) (rnd : Rnd) (s : State) : Host.Outcome State Fault Refusal :=
  lateRoundWord (.fsqrt h d a rnd) d.toNat rnd 1 s fun k f ns =>
    let x := FF.f32.sqrt rnd (f.float k .f32 a) (ns.getD 0 0)
    ([w32 x.1], x.2)
def execFrsq (h : Head) (d a : Reg) (rnd : Rnd) (s : State) := floatUn (.frsq h d a rnd) d a rnd FF.rsqrt s
def execFrnd (h : Head) (d a : Reg) (rnd : Rnd) (s : State) := floatUn (.frnd h d a rnd) d a rnd FF.integral s
/-- FCLASS: one bit of ten, in any float format. -/
def execFclass (h : Head) (d a : Reg) (ty : Ty) (s : State) :=
  plainWord (.fclass h d a ty) d s fun k f => w32 (2 ^ (ffOf ty).classBit (f.float k ty a))

/-! ## Comparisons (R120) -/

/-- A float comparison into a predicate. -/
def floatCmp (i : Instr) (ty : Ty) (d a b c : Reg) (cond : BitVec 3) (merge : Bool) (tbl : BitVec 4) (s : State) :=
  predWord i s fun k f =>
    let x := (ffOf ty).cmp cond.toNat (f.float k ty a) (f.float k ty b)
    ([(d.toNat, merged merge tbl x.1 (f.readPred k c.toNat))], x.2)
def execFcmp (h : Head) (d a b c : Reg) (cond : BitVec 3) (merge : Bool) (tbl : BitVec 4) (s : State) :=
  floatCmp (.fcmp h d a b c cond merge tbl) .f32 d a b c cond merge tbl s
def execDcmp (h : Head) (d a b c : Reg) (cond : BitVec 3) (merge : Bool) (tbl : BitVec 4) (s : State) :=
  floatCmp (.dcmp h d a b c cond merge tbl) .f64 d a b c cond merge tbl s

/-! ## Special functions (R121) -/

def execFex2 (h : Head) (d a : Reg) (s : State) := floatWord (.fex2 h d a) d s fun k f => fex2 (f.float k .f32 a)
def execFlg2 (h : Head) (d a : Reg) (s : State) := floatWord (.flg2 h d a) d s fun k f => flg2 (f.float k .f32 a)
def execFsin (h : Head) (d a : Reg) (s : State) := floatWord (.fsin h d a) d s fun k f => fsin (f.float k .f32 a)
def execFcos (h : Head) (d a : Reg) (s : State) := floatWord (.fcos h d a) d s fun k f => fcos (f.float k .f32 a)
def execFtanh (h : Head) (d a : Reg) (s : State) := floatWord (.ftanh h d a) d s fun k f => ftanh (f.float k .f32 a)

/-! ## FP64 (R122) -/

def execDadd (h : Head) (d a b : Reg) (rnd : Rnd) (s : State) := floatBin (.dadd h d a b rnd) .f64 d a b rnd FF.add s
def execDmul (h : Head) (d a b : Reg) (rnd : Rnd) (s : State) := floatBin (.dmul h d a b rnd) .f64 d a b rnd FF.mul s
def execDfma (h : Head) (d a b c : Reg) (rnd : Rnd) (s : State) := floatFma (.dfma h d a b c rnd) .f64 d a b c rnd s

/-! ## Packed pairs (R123) -/

/-- Element e of a register. -/
def halfOf (w : Word) (e : Nat) : Nat := w.toNat / 65536 ^ e % 65536
/-- Both elements of a packed operation; .sr takes 16 bits for element 0, then for element 1. -/
def packedWord (i : Instr) (d : Reg) (r : Rnd) (s : State) (op : Nat → Fibre → Nat → Nat → Nat × Conds) :=
  roundWord i d.toNat r 2 s fun k f ns =>
    let x := op k f 0 (ns.getD 0 0)
    let y := op k f 1 (ns.getD 1 0)
    ([w32 (x.1 + 65536 * y.1)], x.2.or y.2)
def execHadd2 (h : Head) (d a b : Reg) (ty : Ty) (rnd : Rnd) (s : State) :=
  packedWord (.hadd2 h d a b ty rnd) d rnd s fun k f e n =>
    (ffOf ty).add rnd (halfOf (f.read k a.toNat) e) (halfOf (f.read k b.toNat) e) n
def execHmul2 (h : Head) (d a b : Reg) (ty : Ty) (rnd : Rnd) (s : State) :=
  packedWord (.hmul2 h d a b ty rnd) d rnd s fun k f e n =>
    (ffOf ty).mul rnd (halfOf (f.read k a.toNat) e) (halfOf (f.read k b.toNat) e) n
def execHfma2 (h : Head) (d a b c : Reg) (ty : Ty) (rnd : Rnd) (s : State) :=
  packedWord (.hfma2 h d a b c ty rnd) d rnd s fun k f e n =>
    (ffOf ty).fma rnd (halfOf (f.read k a.toNat) e) (halfOf (f.read k b.toNat) e) (halfOf (f.read k c.toNat) e) n

end Sys2Proof.Machine
end

