-- ==== Sys2Proof/Machine/Convert.lean ====
section
/-! DEFINITION. CVT, QNT and DQNT (R124 to R126). -/

namespace Sys2Proof.Machine

/-- CVT's result for an operand given as its bits. -/
def cvtValue (dst src : Ty) (rnd : Rnd) (sat : Bool) (a noise : Nat) : List Word × Conds :=
  if src.isInt then
    let v := exact src.signed src.width a
    if dst.isInt then let r := clampTo dst sat v; (intResult dst r.1, r.2)
    else let r := cvtIF (ffOf dst) rnd v noise; ((ffOf dst).words r.1, r.2)
  else if dst.isInt then let r := cvtFI (ffOf src) (tyMin dst) (tyMax dst) rnd a noise; (intResult dst r.1, r.2)
  else let r := cvtFF (ffOf src) (ffOf dst) rnd a noise; ((ffOf dst).words r.1, r.2)
def execCvt (h : Head) (d a : Reg) (ty : Ty) (rnd : Rnd) (sat : Bool) (src : Ty) (s : State) : Host.Outcome State Fault Refusal :=
  roundWord (.cvt h d a ty rnd sat src) d.toNat rnd 1 s fun k f ns => cvtValue ty src rnd sat (f.operand k src a) (ns.getD 0 0)

/-- QNT: 32 FP32 values into one block; the count and the exponent go to wC, events to %mxerr, NV for a signalling NaN. DESIGN CHOICE:
where wC is one of the block's registers the count and the exponent stand, written last (log 33). -/
def execQnt (h : Head) (d a c : Reg) (rnd : Rnd) (adj : Bool) (fmt : Fmt) (s : State) : Host.Outcome State Fault Refusal :=
  issueWord (.qnt h d a c rnd adj fmt) s fun k f => s.withNoise k f (srDraws rnd 32) false fun ns s f' =>
    let xs := (f.readRun k a.toNat 32).map (·.toNat)
    let b := quantise fmt.width rnd adj xs ns
    let ws := leWords fmt.width (b.bytes fmt.width (k * 2 ^ 32 + f.issued))
    let (id, s') := s.fresh
    let rs := runOf d.toNat ws ++ [(c.toNat, w32 (b.e ||| b.ufc <<< 8))]
    (s'.addOp (resultOp s id k f rs [])).finish k (.qnt h d a c rnd adj fmt) f
      ((f'.mxEvents 0 false b.eovf b.sat).raise { nv := xs.any fun x => (FF.f32.val x).isSnan })
/-- DQNT: one block into 32 FP32 values. -/
def execDqnt (h : Head) (d a c : Reg) (fmt : Fmt) (s : State) : Host.Outcome State Fault Refusal :=
  lateWord (.dqnt h d a c fmt) d.toNat s fun k f =>
    let x := leNat (wordBytes (f.readRun k a.toNat fmt.width))
    let e := bitsOf (f.read k c.toNat).toNat 7 0
    let rs := (List.range 32).map fun i => dequant fmt.width e (exact true fmt.width (streamAt fmt.width x i))
    (rs.map fun r => w32 r.1, rs.foldl (fun c r => c.or r.2) Conds.none)

end Sys2Proof.Machine
end

