-- ==== Sys2Proof/Machine/CrossLane.lean ====
section
/-! DEFINITION. Cross-lane exchanges: the rendezvous (R85, R86, R128), what each member receives (R129 to R132). -/

namespace Sys2Proof.Machine

/-! ## What a member offers -/

/-- The quad words. -/
def isQuad : Instr → Bool
  | .qswap _ _ _ _ _ => true
  | .qbc _ _ _ _ _ => true
  | _ => false
/-- The registers a word offers, its lane operand, its predicate. -/
def crossFields : Instr → List Nat × Nat × Nat
  | .shfl _ _ a b _ _ ty _ => ((ty.run a).regs, b.toNat, 0)
  | .vote _ _ a b _ _ => ([], b.toNat, a.toNat)
  | .spred _ _ a _ _ ty _ _ => ((ty.run a).regs, 0, 0)
  | .qswap _ _ a ty _ => ((ty.run a).regs, 0, 0)
  | .qbc _ _ a ty _ => ((ty.run a).regs, 0, 0)
  | _ => ([], 0, 0)
/-- A member's arrival at a word. -/
def Fibre.arrival (f : Fibre) (k : Nat) (i : Instr) (mask : Word) (runs : Bool) : Arrival :=
  let x := crossFields i
  { addr := f.pc, mask := mask, quad := isQuad i, runs := runs, instr := i, vals := x.1.map (f.read k), lane := f.read k x.2.1,
    p := f.readPred k x.2.2 }
/-- One member of an exchange: lane, value, lane operand, predicate. -/
structure Member where
  lane : Nat
  vals : List Word
  by_  : Word
  p    : Bool
  deriving DecidableEq, Repr, Inhabited
/-- What a fibre brings to a word `i` of another member: what it arrived with, or where the word does not execute for it
the current values of the registers that its own word names. -/
def Fibre.member (f : Fibre) (i : Instr) (width : Nat) : Member :=
  match f.arrive with
  | some a =>
    if a.runs then ⟨f.fid % width, a.vals, a.lane, a.p⟩
    else let x := crossFields a.instr; ⟨f.fid % width, x.1.map f.reg, f.reg x.2.1, f.pred x.2.2⟩
  | none => let x := crossFields i; ⟨f.fid % width, x.1.map f.reg, f.reg x.2.1, f.pred x.2.2⟩

/-! ## What a member receives -/

/-- Registers and predicates written, the lanes whose values enter, the conditions raised. -/
structure Given where
  regs  : List (Nat × Word) := []
  preds : List (Nat × Bool) := []
  from_ : List Nat := []
  conds : Conds := Conds.none
/-- The value a lane offers. -/
def laneVals (ms : List Member) (lane : Nat) : Option (List Word) := (ms.find? fun m => m.lane == lane).map (·.vals)
/-- SHFL's source lane for the member of rank r in lane i (R129); none where it is not valid. -/
def shflSource (mode : ShflMode) (ms : List Member) (i r : Nat) (b : Word) : Option Nat :=
  let lane := fun (j : Nat) => (ms[j]?).map (·.lane)
  match mode with
  | .lane => let j := bitsOf b.toNat 4 0; if ms.any (·.lane == j) then some j else none
  | .rot => lane ((r + bitsOf b.toNat 4 0) % ms.length)
  | .step =>
    let j : Int := (r : Int) + exact true 6 (bitsOf b.toNat 5 0)
    if 0 ≤ j && j < ms.length then lane j.toNat else none
  | .flip => let j := i ^^^ bitsOf b.toNat 4 0; if ms.any (·.lane == j) then some j else none
/-- One step of SPRED (R131). -/
def spredStep (op : SpredOp) (ty : Ty) (r : Rnd) (x y : List Word) : List Word × Conds :=
  let n := if ty.is64 then 64 else 32
  let num := fun (l : List Word) => leNat (wordBytes l)
  let a := num x
  let b := num y
  let below := decide (exact ty.signed n b < exact ty.signed n a)
  let out := fun (v : Nat) => if ty.is64 then dwords (w64 v) else [w32 v]
  match op with
  | .add => (out (a + b), Conds.none)
  | .min => (if below then y else x, Conds.none)
  | .max => (if below then x else y, Conds.none)
  | .and => (out (a &&& b), Conds.none)
  | .or => (out (a ||| b), Conds.none)
  | .xor => (out (a ^^^ b), Conds.none)
  | .fadd => let v := FF.f32.add r a b 0; ([w32 v.1], v.2)
  | .fmin => let v := FF.f32.minMax false a b; ([w32 v.1], v.2)
  | .fmax => let v := FF.f32.minMax true a b; ([w32 v.1], v.2)
/-- The combination of the members in ascending lane order. -/
def spredFold (op : SpredOp) (ty : Ty) (r : Rnd) : List Member → List Word × Conds
  | [] => ([], Conds.none)
  | m :: ms => ms.foldl (fun acc m => let v := spredStep op ty r acc.1 m.vals; (v.1, acc.2.or v.2)) (m.vals, Conds.none)
/-- What the member in lane `me` receives. `ms` are the members in ascending lane order. -/
def crossGive (i : Instr) (ms : List Member) (me : Member) : Given :=
  match i with
  | .shfl _ d _ _ _ mode _ p =>
    let r := (ms.takeWhile fun m => m.lane != me.lane).length
    match shflSource mode ms me.lane r me.by_ with
    | some j => { regs := runOf d.toNat ((laneVals ms j).getD []), preds := [(p.toNat, true)], from_ := [j] }
    | none => { regs := runOf d.toNat me.vals, preds := [(p.toNat, false)], from_ := [me.lane] }
  | .vote _ d _ _ _ mode =>
    let all := ms.map (·.lane)
    let yes := (ms.filter (·.p)).length
    match mode with
    | .mask => { regs := [(d.toNat, w32 (ms.foldl (fun n m => if m.p then n ||| 1 <<< m.lane else n) 0))], from_ := all }
    | .count => { regs := [(d.toNat, w32 yes)], from_ := all }
    | .below =>
      let l := ms.filter fun m => decide (m.lane < me.lane)
      { regs := [(d.toNat, w32 (l.filter (·.p)).length)], from_ := l.map (·.lane) }
    | .atleast => { preds := [(d.toNat, decide (me.by_.toNat ≤ yes))], from_ := all }
    | .split => { preds := [(d.toNat, yes != 0 && yes != ms.length)], from_ := all }
  | .spred _ d _ _ op ty r scan =>
    let l := if scan then ms.filter fun m => decide (m.lane ≤ me.lane) else ms
    let v := spredFold op ty r l
    { regs := runOf d.toNat v.1, from_ := l.map (·.lane), conds := v.2 }
  | .qswap _ d _ _ dir =>
    let j := me.lane ^^^ (dir.toNat + 1)
    { regs := runOf d.toNat ((laneVals ms j).getD []), from_ := [j] }
  | .qbc _ d _ _ lane =>
    { regs := runOf d.toNat ((laneVals ms lane.toNat).getD []), from_ := [lane.toNat] }
  | _ => {}

/-! ## The rendezvous -/

/-- The slots an exchange names: the mask's lanes of the span, or the quad. -/
def memberFids (fid : Nat) (quad : Bool) (mask : Word) : List Nat :=
  if quad then (List.range 4).map (fid / 4 * 4 + ·)
  else ((List.range 32).filter fun j => mask.getLsbD j).map (fid / 32 * 32 + ·)
/-- The members of an exchange with their numbers; none for a slot that does not exist. -/
def State.exchangers (s : State) (f : Fibre) (quad : Bool) (mask : Word) : List (Option (Nat × Fibre)) :=
  (memberFids f.fid quad mask).map fun x => s.slot? f.grp x
/-- A mask that names a slot at or above N, or a fibre that has ended (R86). -/
def badMask (l : List (Option (Nat × Fibre))) : Bool :=
  l.any fun o => match o with | none => true | some p => p.2.run == .ended
/-- Whether a member needs no arrival: a halted helper, or an ended quad partner. -/
def Fibre.passive (f : Fibre) : Bool := f.run == .halted || f.run == .ended
/-- Whether a fibre waits, for whatever reason. -/
def Fibre.waits (f : Fibre) : Bool := match f.run with | .waiting _ => true | _ => false
/-- Whether a member stands in its rendezvous, or in the tag stall of its exchange (R128). -/
def Fibre.arrived (f : Fibre) (quad : Bool) : Bool :=
  f.waits && match f.arrive with | some a => a.quad == quad | none => false
/-- A member leaves its rendezvous past its word; one that is stopped meanwhile stays stopped. -/
def Fibre.leaveMeet (f : Fibre) (i : Instr) : Fibre :=
  let f' := { f with arrive := none }.pass i.size
  { f' with run := match f.run with | .stopped => .stopped | _ => f'.run }
/-- A member fault of a fibre for which its word executes, which a tainted fibre holds (R58); another member leaves (R86). -/
def State.memberFault (s : State) (k : Nat) (f : Fibre) (a : Arrival) (cause : Nat) : State :=
  if a.runs then
    let (w0, w1) := s.issuedWords f a.instr
    let x := wordTrap f w0 w1 cause
    if f.tainted && !f.isHelper then s.setFibre k { f with arrive := none, owed := some x, run := .waiting .tag, woken := false }
    else (s.setFibre k { f with arrive := none, run := .ready }).userTrap k x f.rp false
  else s.setFibre k (f.leaveMeet a.instr)
/-- The taint a member would have after its result. -/
def gainTaint (fs : List (Nat × Fibre)) (width : Nat) (f : Fibre) (g : Given) : Option (List (BitVec 32 × Nat)) :=
  joinAids f.taint ((fs.filter fun p => g.from_.contains (p.2.fid % width) && p.2.fid != f.fid).flatMap fun p => p.2.taint)
/-- A member takes its result and leaves. -/
def State.takeResult (s : State) (k : Nat) (f : Fibre) (a : Arrival) (g : Given) (taint : List (BitVec 32 × Nat)) : State :=
  let f1 := (((f.setRegs g.regs).setPreds g.preds).raise g.conds)
  (s.setFibre k ({ f1 with taint := taint }.leaveMeet a.instr)).invEnd k
/-- The exchange: every member's join is made, or none leaves and all are in a tag stall. A member that joins a first AID takes its checkpoint. -/
def State.exchange (s : State) (fs : List (Nat × Fibre)) (quad : Bool) : State :=
  let width := if quad then 4 else 32
  let plan : List (Nat × Fibre × Option Arrival × Given × Option (List (BitVec 32 × Nat))) := fs.map fun p =>
    match p.2.arrive with
    | some a =>
      let ms := fs.map fun (q : Nat × Fibre) => q.2.member a.instr width
      let me := p.2.member a.instr width
      let g := if a.runs then crossGive a.instr ms me else {}
      (p.1, p.2, some a, g, if p.2.passive then some p.2.taint else gainTaint fs width p.2 g)
    | none => (p.1, p.2, none, {}, some p.2.taint)
  if plan.any fun x => x.2.2.2.2.isNone then
    fs.foldl (fun s p => s.modFibre p.1 fun f => if f.waits then { f with run := .waiting .tag } else f) s
  else
    -- checkpoints first: where one must be written out the exchange waits for it
    let s' := plan.foldl (fun s x =>
      match x.2.2.1, x.2.2.2.2 with
      | some _, some t =>
        if x.2.1.taint.isEmpty && !t.isEmpty && x.2.1.ckpt.isNone then s.modFibre x.1 fun f => s.ensureCkpt f f.here else s
      | _, _ => s) s
    let stalls := plan.any fun x => match x.2.2.1, x.2.2.2.2, s'.fibre? x.1 with
      | some _, some t, some f => f.wait == some .ckpt || (!t.isEmpty && x.2.1.taint.isEmpty && f.ckpt.isNone)
      | _, _, _ => false
    if stalls then s'
    else plan.foldl (fun s x =>
      match x.2.2.1, x.2.2.2.2, s.fibre? x.1 with
      | some a, some t, some f => if f.passive then s else s.takeResult x.1 f a x.2.2.2.1 t
      | _, _, _ => s) s'
/-- What becomes of the exchange a waiting fibre stands in. -/
def State.meet (s : State) (k : Nat) : State :=
  match s.fibre? k with
  | none => s
  | some f =>
    match f.arrive with
    | none => s
    | some a =>
      if !f.waits then s
      else
        let l := s.exchangers f a.quad a.mask
        if !a.quad && badMask l then s.memberFault k f a 0x11
        else
          let fs := l.filterMap id
          let here := fs.filter fun p => !p.2.passive
          if !(here.all fun p => p.2.arrived a.quad) then s
          else if here.all fun p => match p.2.arrive with | some b => b.addr == a.addr && b.mask == a.mask | none => false then
            s.exchange fs a.quad
          else here.foldl (fun s p =>
            match s.fibre? p.1 with
            | some x => (match x.arrive with | some b => s.memberFault p.1 x b 0x12 | none => s)
            | none => s) s
/-- Every rendezvous that what happened elsewhere may have completed: an end, a halt, a resumption, a taint that shrank. -/
def State.meetAll (s : State) : State :=
  ((s.fibres.mapIdx fun k f => (k, f.arrive.isSome)).filter (·.2)).foldl (fun s p => s.meet p.1) s

/-! ## The words -/

/-- A fibre arrives: its word counts as issued. -/
def State.meetAt (s : State) (k : Nat) (f : Fibre) (i : Instr) (a : Arrival) : State :=
  ((s.setFibre k { (f.counted f i a.runs s.clk) with arrive := some a, run := .waiting .rendezvous }).noteIssue k f i a.runs).meet k
/-- A word by an agent that is its own only member (R210). -/
def State.soloCross (s : State) (k : Nat) (f : Fibre) (i : Instr) (mask : Word) : State :=
  if !isQuad i && mask != 1 then
    let (w0, w1) := s.issuedWords f i
    s.userTrap k (wordTrap f w0 w1 0x11) f.rp false
  else
    let a := f.arrival k i mask true
    let me : Member := ⟨0, a.vals, a.lane, a.p⟩
    -- a quad word returns the fibre's own value
    let g := if isQuad i then crossGive i ((List.range 4).map fun j => { me with lane := j }) me else crossGive i [me] me
    s.finish k i f (((f.setRegs g.regs).setPreds g.preds).raise g.conds)
/-- A cross-lane word, with its mask's register. -/
def crossWord (i : Instr) (c : Reg) (s : State) : Host.Outcome State Fault Refusal :=
  let member := fun (f : Fibre) (mask : Word) => isQuad i || mask.getLsbD (f.fid % 32)
  match gate i s with
  | .noFibre => .fault .noFibre
  | .held s' => .next s'
  | .off f =>
    let mask := if isQuad i then 0 else f.reg c.toNat
    if f.privileged || !member f mask || (!isQuad i && badMask (s.exchangers f false mask)) then .next (s.finishOff s.cur i f)
    else .next (s.meetAt s.cur f i (f.arrival s.cur i mask false))
  | .go f =>
    let mask := if isQuad i then 0 else f.read s.cur c.toNat
    let fault := fun (cause : Nat) =>
      let w := s.issuedWords f i
      let x := wordTrap f w.1 w.2 cause
      if f.tainted && !f.isHelper && !f.privileged && cause = 0x11 then
        s.setFibre s.cur { f with owed := some x, run := .waiting .tag, woken := false }
      else s.userTrap s.cur x f.rp false
    if f.privileged then .next (s.soloCross s.cur f i mask)
    else if !member f mask then .next (fault 0x10)
    else if !isQuad i && badMask (s.exchangers f false mask) then .next (fault 0x11)
    else .next (s.meetAt s.cur f i (f.arrival s.cur i mask true))

def execShfl (h : Head) (d a b c : Reg) (mode : ShflMode) (ty : Ty) (p : Reg) (s : State) := crossWord (.shfl h d a b c mode ty p) c s
def execVote (h : Head) (d a b c : Reg) (mode : VoteMode) (s : State) := crossWord (.vote h d a b c mode) c s
def execSpred (h : Head) (d a c : Reg) (op : SpredOp) (ty : Ty) (rnd : Rnd) (scan : Bool) (s : State) :=
  crossWord (.spred h d a c op ty rnd scan) c s
def execQswap (h : Head) (d a : Reg) (ty : Ty) (dir : BitVec 2) (s : State) := crossWord (.qswap h d a ty dir) 0 s
def execQbc (h : Head) (d a : Reg) (ty : Ty) (lane : BitVec 2) (s : State) := crossWord (.qbc h d a ty lane) 0 s

end Sys2Proof.Machine
end

