-- ==== Sys2Proof/Machine/Links.lean ====
section
/-! DEFINITION. Links and packets: replays, links that go down and come up (R316, R318), forwarding (R317), packets applied in
sequence at their target (R319, R320), acknowledgements and retransmission (R321, R322, R332). -/

namespace Sys2Proof.Machine

/-! ## What an acknowledgement brings (R321) -/

/-- The recorded kind of a failure that an acknowledgement reports (R320). -/
def ackKind (a : Ack) : MemKind :=
  match a.kind, a.status with
  | some k, _ => k
  | none, .access => .accessTable
  | none, .linkfail => .dataError
  | none, .dataerr => .dataError
  | none, _ => .translation
/-- A remote access of a fibre is done (R320): its data arrive, or its record is made. -/
def State.ackAccess (s : State) (o : Op) (a : Access) (k : Ack) : State :=
  let s := s.dropOp o.id
  if o.gone then s
  else if k.status != .ok then s.recordFault o.fib a (ackKind k) o.seat
  else
    let s := s.watch o.fib a.space a.addr.toNat a.size a.kind.writes (match a.kind with | .ld => 0 | .st => 1 | _ => 2) o.ord false
    if a.kind.reads then s.modFibre o.fib fun f =>
      let bs := (k.bytes ++ List.replicate a.size 0).take a.size
      f.receive a (loadWords (if a.kind == .ld then overlayGlobal f a.addr.toNat a.size o.seq bs else bs))
    else s
/-- A piece of a GET arrives: it lands, as zeros where it was uncorrectable. None while it must wait. -/
def State.ackGet (s : State) (o : Op) (x : FabOp) (pos : Nat) (sent : List Nat) (st : Status) (dst : Place) (src : DWord) (off len : Nat)
    (k : Ack) : Option State :=
  match s.fibre? o.fib with
  | none => some s
  | some f =>
    let p := off - bitsOf src.toNat 50 0
    let land := k.status == .ok || k.status == .dataerr
    if land && s.pieceBlocked o.fib f dst.space (dst.addr.toNat + p) len then none
    else
      let bs := if k.status = .ok then (k.bytes ++ List.replicate len 0).take len else List.replicate len 0
      let r := if land then s.engineWrite o.fib f (some o) dst.space false (dst.addr.toNat + p) bs else (none, s)
      let st := mergeStatus (mergeStatus st k.status) (r.1.getD .ok)
      let wrote := land && r.1.isNone
      let s := if wrote then r.2.watchOp o dst.space (dst.addr.toNat + p) len true else r.2
      some (s.modOp o.id fun y => { y with body := .fab x (if wrote then pos + len else pos) sent (some []) st })
/-- A packet of a fabric operation is acknowledged. The answer to a SIGWT's read keeps the kind of its record as its position (R339). -/
def State.ackFab (s : State) (o : Op) (x : FabOp) (pos : Nat) (sent : List Nat) (data : Option (List Byte)) (st : Status)
    (pkt : PktBody) (k : Ack) : Option State :=
  let put := fun (d : Option (List Byte)) (st : Status) => s.modOp o.id fun y => { y with body := .fab x pos sent d st }
  match x, pkt with
  | .get ⟨.sys, _⟩ _ _ _, _ => some (s.modOp o.id fun y => { y with body := .fab x (kindNum (ackKind k)) sent (some k.bytes) k.status })
  | .get dst src _ _, .read _ off len => s.ackGet o x pos sent st dst src off len k
  | .puts _ _ _ _ _, .signal _ _ _ _ => some (s.finishFab o (mergeStatus st k.status))
  | _, _ => some (put data (mergeStatus st k.status))
/-- A packet of a collective step. A SIGNAL that fails, in whatever way, ends its program (R325). -/
def State.ackProg (s : State) (p : Prog) (id : Nat) (pkt : PktBody) (k : Ack) : State :=
  match pkt, k.status with
  | .signal _ _ _ _, .dataerr => s.failProg p .dataerr
  | _, _ => s.modProg p.id fun q =>
    let q := { q with sent := q.sent.map fun l => l.filter (· != id) }
    let fail := { q with stepSt := if q.stepSt = .ok || q.stepSt = .dataerr then k.status else q.stepSt }
    match pkt, k.status with
    | .load _ off _, .ok =>
      let w := collWidth q.ty
      let i := (off - bitsOf ((q.src.toNat + q.first q.step.c * w) % 2 ^ 64) 50 0) / w
      q.setAcc q.step.c ((q.accOf q.step.c).set i (w64 (leNat k.bytes)))
    | _, .ok => q
    | _, .dataerr => { q with stepSt := if q.stepSt = .ok then .dataerr else q.stepSt }
    | _, _ => fail
/-- What the read of a row of a storer's buffer brings: its bytes, and which 8-byte elements could not be read; with neither the row could
not be read at all (R327). -/
def Staged.pulled (t : Staged) (at_ n : Nat) (k : Ack) : Staged :=
  if k.status == .ok || k.status == .dataerr then
    let bad := (List.range ((n + 7) / 8)).filter fun u => k.bytes.getD (n + u) 0 != 0
    { t with bytes := t.bytes.take at_ ++ (k.bytes ++ List.replicate n 0).take n ++ t.bytes.drop (at_ + n), bad := t.bad ++ badRuns at_ n bad,
             st := mergeStatus t.st k.status }
  else { t with bad := t.bad ++ [(at_, n)], st := mergeStatus t.st k.status }
/-- A packet of a tile walk: a row's piece that was read, a row of a storer's buffer, a delivery, or a tile's write. -/
def State.ackWalk (s : State) (w : TWalk) (id : Nat) (k : Ack) : State :=
  match w.acks.find? fun a => a.1 == id with
  | none => s
  | some (_, e, tile) =>
    let s := s.modWalk w.id fun w => { w with acks := w.acks.filter fun a => a.1 != id }
    if 16 ≤ e && w.storer then
      if k.status = .cancelled then s.modWalk w.id fun w => if w.closed.contains 0 then w else w.close 0
      else s.modStaged w tile fun t => t.pulled (e - 16) w.rowb k
    else if 16 ≤ e then
      s.modWalk w.id fun w => { w with staged := w.staged.map fun t =>
        if t.tile == tile then
          (if k.status = .ok then { t with bytes := t.bytes.take (e - 16) ++ k.bytes ++ t.bytes.drop (e - 16 + k.bytes.length) }
           else { t with st := mergeStatus t.st k.status })
        else t }
    else if e = 8 then
      s.modWalk w.id fun w => { w with staged := w.staged.map fun t => if t.tile == tile then { t with st := mergeStatus t.st k.status } else t }
    else if k.status = .cancelled then
      s.modWalk w.id fun w => if w.closed.contains e then w else w.close e
    else s.modWalk w.id fun w => { w with st := mergeStatus w.st k.status }
/-- The read of a watched place (R291). -/
def State.ackWatched (s : State) (op : Nat) (k : Ack) : State :=
  let v := if k.status = .ok then some (w64 (leNat k.bytes)) else none
  { (s.dropOp op) with dies := s.dies.map fun d => (d.1, { d.2 with slots := d.2.slots.map fun e =>
      if e.2.op == op && e.2.seen.isNone && e.2.state == .open then (e.1, { e.2 with seen := some v }) else e }) }
/-- An answer reaches whoever sent the packet; none while it must wait there. -/
def State.answered (s : State) (r : Retx) (k : Ack) : Option State :=
  match r.op with
  | none => some s
  | some op =>
    if s.carried.any (·.pkt == r.id) then
      some { s with carried := s.carried.map fun c => if c.pkt == r.id && c.ans.isNone then { c with ans := some (k.status, if k.status = .ok then none else some (ackKind k), k.bytes) } else c }
    else
    match s.pkg.progs.find? fun p => p.op == op && (p.sent.getD []).contains r.id with
    | some p => some (s.ackProg p r.id r.pkt.body k)
    | none =>
      match s.pkg.walks.find? fun w => w.op == op && w.acks.any fun a => a.1 == r.id with
      | some w => some (s.ackWalk w r.id k)
      | none =>
        match s.op? op with
        | none => some s
        | some o =>
          if s.dies.any fun d => d.2.slots.any fun e => e.2.op == op && e.2.auto && e.2.watch.isSome && o.gone then some (s.ackWatched op k)
          else match o.body with
            | .mem a (.sent _) => some (s.ackAccess o a k)
            | .fab x pos sent data st => s.ackFab o x pos (sent.filter (· != r.id)) data st r.pkt.body k
            | .resolve => some (s.finishOp op k.status)
            | _ => some s
/-- The copy leaves the retransmit buffer with its answer (R321). -/
def State.takeAck (s : State) (r : Retx) (k : Ack) : State :=
  match s.answered r k with
  | some s => s.modPkg (·.drop s.clk r.id)
  | none => s
def execFabricAckArrive (ack : Ack) (s : State) : Host.Outcome State Fault Refusal :=
  .next <| match s.pkg.retx.find? fun r => r.id == ack.id with
  | none => s
  | some r => s.takeAck r ack

/-! ## Retransmission (R322, R332) -/

/-- An interest is lost: this package's WANTs that it was sent for retire with LINKFAIL (R317, R322). -/
def State.lostInterest (s : State) (i : Interest) : State :=
  let mine := fun (c : Crumb) => c.job == i.job && c.name == i.name
  let ids := (s.dies.flatMap fun d => (d.2.crumbs.filter mine).flatMap (·.faces)).filterMap fun x => match x.1 with | .op id => some id | _ => none
  let drop := fun (l : List Crumb) => (l.map fun c => if mine c then { c with faces := c.faces.filter fun x => match x.1 with | .op _ => false | _ => true }
    else c).filter fun c => !c.faces.isEmpty
  let s : State := { s with dies := s.dies.map fun d => (d.1, { d.2 with crumbs := drop d.2.crumbs }) }
  ids.foldl (fun s id => match s.op? id with | some o => s.finishFab o .linkfail | none => s) s
/-- A packet's last attempt has failed. The loss of a resolution, an outcome or its acknowledgement faults the job (R332). -/
def State.lostPacket (s : State) (r : Retx) : State :=
  let s := (s.takeAck r ⟨r.id, .linkfail, some .dataError, []⟩).modPkg fun p => { p with outq := p.outq.filter fun x => x.id != r.id }
  match r.pkt.body with
  | .interest i => s.lostInterest i
  | .resolve _ _ => s.faultJob r.pkt.job 3
  | .outcome _ _ _ => s.faultJob r.pkt.job 3
  | .applied _ _ => s.faultJob r.pkt.job 3
  | _ => s
/-- The port a packet leaves by now: a tile's is its face's. -/
def State.portOf (s : State) (r : Retx) : Except SendFail Nat :=
  match r.pkt.body, r.port with
  | .tile _, some p => if s.pkg.portUp p then .ok p else .error .noPort
  | _, _ => s.pkg.egress r.pkt.dst r.pkt.die r.pkt.clu r.pkt.tdie
/-- A packet is resent by another port of its set, at most twice. -/
def State.resend (s : State) (r : Retx) : State :=
  match s.portOf r with
  | .error _ => s.lostPacket r
  | .ok port =>
    if r.tries ≥ 2 then s.lostPacket r
    else s.modPkg fun p => { p with retx := p.retx.map fun x =>
      if x.id == r.id then { x with port := some port, tries := x.tries + 1, clk := s.clk } else x }
/-- RETRANSMIT_TIMEOUT: 100 µs at 1.5 GHz since the last send. -/
def execRetransmitTimeout (seq : Nat) (s : State) : Host.Outcome State Fault Refusal :=
  .next <| match s.pkg.retx.find? fun r => r.id == seq with
  | none => s
  | some r => if r.clk + 150000 ≤ s.clk then s.resend r else s

/-! ## Links (R316, R318) -/

def State.modFpstat (s : State) (port : Nat) (u : Word → Word) : State := s.modPkg fun p => { p with fpstat := p.fpstat.modify port u }
/-- A packet that has not left yet takes another port. -/
def State.reroute (s : State) (r : Retx) : State :=
  match s.portOf r with
  | .error _ => s.lostPacket r
  | .ok port => s.modPkg fun p => { p with outq := p.outq.map fun x => if x.id == r.id then { x with port := some port } else x }
/-- A link goes down; every unacknowledged packet it carried is resent at once, and one that waits to leave by it takes another. -/
def State.linkDown (s : State) (port : Nat) : State :=
  if !s.pkg.portUp port then s
  else
    let s := s.modFpstat port fun w => (w &&& 0x7FFFFFFF) ||| 0x00010000
    let s := (s.pkg.retx.filter fun r => r.port == some port).foldl (fun s r => s.resend r) s
    (s.pkg.outq.filter fun r => r.port == some port).foldl (fun s r => s.reroute r) s
/-- FLIT_CRC_REPLAY: `again` is how often this flit has been replayed now. -/
def execFlitCrcReplay (port again : Nat) (s : State) : Host.Outcome State Fault Refusal :=
  .next <|
    if !s.pkg.portUp port then s
    else if again > 8 then s.linkDown port
    else s.modFpstat port fun w => if bitsOf w.toNat 15 0 = 0xFFFF then w else w + 1
def execFabricLinkDown (port : Nat) (s : State) : Host.Outcome State Fault Refusal := .next (s.linkDown port)
/-- System software retrains the link. -/
def execFabricLinkRetrain (port : Nat) (s : State) : Host.Outcome State Fault Refusal :=
  .next (s.modFpstat port fun w => w ||| 0x80000000)

/-! ## FABRIC_PACKET_FORWARD (R317) -/

def execFabricPacketForward (pkt : Packet) (s : State) : Host.Outcome State Fault Refusal :=
  .next <|
    if pkt.dst = Config.pkgNumber || pkt.hops ≤ 1 then s
    else match s.pkg.egress pkt.dst pkt.die pkt.clu pkt.tdie with
      | .error _ => s
      | .ok port => s.modPkg fun p => { p with fwd := p.fwd ++ [(port, { pkt with hops := pkt.hops - 1 })] }

/-! ## FABRIC_PACKET_ARRIVE (R319, R320) -/

/-- Rows of a tile walk on another package (R326). None while another fibre's undo entry lies under them. -/
def State.applyDeliver (s : State) (job die clu core rgi off bar : Nat) (bs : List Byte) (st : Status) : Option (Answer × State) :=
  match s.groupAt job die clu core rgi with
  | none => some ({ status := .cancelled }, s)
  | some (_, g) =>
    let bo := bar % noArrival
    let under := s.spRunsOf g off bs.length ++ s.spRunsOf g bo 16
    if under.any fun x => s.loggedByOther s.fibres.length x.1 x.2 then none
    else
      let (rowSt, s) := s.rowInto g off bs
      if bar < noArrival then
        let (out, s) := s.barInto g bo (mergeStatus st rowSt)
        some ({ status := out }, s)
      else
        let s := if bo % 16 == 0 && decide (bo + 16 ≤ g.spad) then s.putBarrier (s.spLoc g bo) ((s.barrierAt (s.spLoc g bo)).note rowSt) else s
        some ({ status := rowSt }, s)
/-- The entry of a push from another package (R227), in the place that its die's credit holds (R228); where that die holds none and no place
is free it is not taken yet, nor where the queue's die may not join an AID's receiver set (R282). Its source stands for R216's order. -/
def State.applyPush (s : State) (pkt : Packet) (m : PushMsg) : State × Bool :=
  match s.queue? pkt.job m.queue with
  | none => (s, true)
  | some q =>
    let key := 4 * pkt.src + pkt.die
    let has := (look key q.credits).getD 0
    let e := s.arriving q.homeDie ⟨m.words, none, m.aids, s.clk, sourceKey pkt.src pkt.die pkt.clu 0 0 0, false, none, [], []⟩
    if (has = 0 && q.free = 0) || !e.aids.all (fun a => s.mayJoin a.1 Config.pkgNumber q.homeDie) then (s, false)
    else
      let s := s.modQueue pkt.job m.queue fun q => { q with credits := if has = 0 then q.credits else assign key (has - 1) q.credits }
      let s := if e.denied then s else e.aids.foldl (fun s a => s.joinSet a.1 Config.pkgNumber q.homeDie) s
      ((s.countRecvd q.homeDie pkt.job).releaseEntry pkt.job m.queue ⟨q.homeDie, q.homeClu % 8, 8⟩ e, true)
/-- An outcome of another package's AID, applied here and acknowledged; not done while carriers must still be waited for (R293), or the
confirmation of a tagged message (R282). An acknowledgement that cannot be sent faults the job (R332). -/
def State.applyOutcome (s : State) (pkt : Packet) (aid : BitVec 32) (die : Nat) (r : Resolution) : State × Bool :=
  let ack := fun (s : State) => match s.send ⟨die % 4, 0, 0⟩ pkt.job 0x4000 pkt.src (aidDie aid) 0 .write (.applied aid die) none with
    | (.ok _, s) => s
    | (.error _, s) => s.faultJob pkt.job 3
  if s.tagsOut none aid then (s, false) else
  match r with
  | .affirm => (ack (s.applyAffirm none aid), true)
  | _ => match s.applyDeny none aid with
    | (s, true) => (ack s, true)
    | (s, false) => (s, false)
/-- A row of a buffer for a storer on another package (R326). None while another fibre's undo entry lies under it. -/
def State.applyPull (s : State) (job die clu core rgi off n : Nat) : Option Answer :=
  match s.groupAt job die clu core rgi with
  | none => some { status := .cancelled }
  | some (_, g) =>
    if (s.spRunsOf g off n).any fun x => s.loggedByOther s.fibres.length x.1 x.2 then none
    else match s.rowFrom g off n with
      | none => some { status := .fault, kind := some .translation }
      | some (bs, bad) =>
        let marks := (List.range ((n + 7) / 8)).map fun u => (if bad.contains u then 1 else 0 : Byte)
        some { status := if bad.isEmpty then .ok else .dataerr, bytes := bs ++ marks }
/-- What a packet does at its target: the answer, or only a changed state where it is not done yet. Named data are taken as they arrive. -/
def State.applyPacket (s : State) (port : Nat) (pkt : Packet) : Option Answer × State :=
  match pkt.body with
  | .push m =>
    let (s, done) := s.applyPush pkt m
    (if done then some {} else none, s)
  | .resolve a r =>
    let (st, s) := s.resolveHome pkt.job a r
    (some { status := st }, s)
  | .outcome a die r =>
    let (s, done) := s.applyOutcome pkt a die r
    (if done then some {} else none, s)
  | .applied a die => (some {}, s.modSlot a fun x => if x.gen = aidGen a && !x.acked.contains (pkt.src, die) then
      { x with acked := x.acked ++ [(pkt.src, die)] } else x)
  | .chunk m => (some {}, s.chunkArrives { m with peer := pkt.src, job := pkt.job })
  | .credit m => (some {}, s.creditArrives { m with peer := pkt.src, job := pkt.job })
  | .abort m => (some {}, s.abortArrives { m with peer := pkt.src, job := pkt.job })
  | .deliver die clu core rgi off bar bs st =>
    (match s.applyDeliver pkt.job die clu core rgi off bar bs st with
     | some (x, s) => (some x, s)
     | none => (none, s))
  | .pull die clu core rgi off n => (s.applyPull pkt.job die clu core rgi off n, s)
  | .report die gids idle pushed popped sent recvd =>
    (some {}, s.modJob pkt.job (·.report (4 * pkt.src + die) gids (idle, pushed, popped, sent, recvd)))
  | b =>
    let r := s.inboundMem pkt.job port pkt.src b
    (some r.1, r.2)
/-- The flow of a packet at its target (R319). -/
def flowOf (p : Packet) : Nat × Nat × Nat × Nat := (p.src, p.die, p.clu, p.tdie)
def State.expected (s : State) (p : Packet) : Nat := ((s.pkg.rseqs.find? fun e => e.1 == flowOf p).map (·.2)).getD 0
/-- The next packet of a flow is applied and acknowledged; one that cannot be yet is held back. -/
def State.applyNext (s : State) (port : Nat) (p : Packet) : State :=
  let hold := fun (s : State) => s.modPkg fun x =>
    { x with early := if x.early.any fun e => flowOf e.2 == flowOf p && e.2.seq == p.seq then x.early else x.early ++ [(port, p)] }
  match s.applyPacket port p with
  | (none, s) => hold s
  | (some a, s) => s.modPkg fun x => { x with
      rseqs := (flowOf p, p.seq + 1) :: x.rseqs.filter (fun e => e.1 != flowOf p),
      early := x.early.filter (fun e => !(flowOf e.2 == flowOf p && e.2.seq == p.seq)),
      ackOut := x.ackOut ++ [(flowOf p, ⟨p.seq, a.status, a.kind, a.bytes⟩)] }
/-- Packets held back that are next in their flow now. -/
def State.applyHeld (s : State) (p : Packet) : Nat → State
  | 0 => s
  | n + 1 =>
    match s.pkg.early.find? fun e => flowOf e.2 == flowOf p && e.2.seq == s.expected p with
    | none => s
    | some e =>
      let s' := s.applyNext e.1 e.2
      if s'.expected p = s.expected p then s' else s'.applyHeld p n
/-- Named data that arrive by a link: taken once, and acknowledged by their number to the package they come from; an interest that has no room,
or cannot go on, is not taken (R322, R329). -/
def State.namedArrives (s : State) (pkt : Packet) (go : State → Option State) : State :=
  let key := (pkt.src, pkt.die, pkt.clu, 4 + pkt.tdie)
  let ack := fun (s : State) => s.modPkg fun p => { p with ackOut := p.ackOut ++ [(key, ⟨pkt.seq, .ok, none, []⟩)] }
  if s.pkg.ackOut.any fun e => e.1 == key && e.2.id == pkt.seq then ack s
  else ((go s).map ack).getD s
/-- FABRIC_PACKET_ARRIVE: in sequence order; a duplicate only has its acknowledgement repeated. Named data come to every router of their way,
and have no sequence. -/
def execFabricPacketArrive (port : Nat) (pkt : Packet) (s : State) : Host.Outcome State Fault Refusal :=
  .next <|
    if port ≥ 36 then s
    else match pkt.body with
      | .interest i => s.namedArrives pkt fun s =>
        match s.interestAt 4 port { i with face := .port port, hops := pkt.hops } with
        | .to t => some t
        | _ => none
      | .tile t => s.namedArrives pkt fun s => some (s.tileAt port t)
      | _ =>
        if pkt.dst != Config.pkgNumber then s else
        let n := s.expected pkt
        if pkt.seq < n then
          (match s.pkg.ackOut.find? fun e => e.1 == flowOf pkt && e.2.id == pkt.seq with
           | some e => s.modPkg fun p => { p with ackOut := p.ackOut ++ [e] }
           | none => s)
        else if n < pkt.seq then
          s.modPkg fun p => { p with early := if p.early.any fun e => flowOf e.2 == flowOf pkt && e.2.seq == pkt.seq then p.early else p.early ++ [(port, pkt)] }
        else (s.applyNext port pkt).applyHeld pkt (s.pkg.early.length + 1)

end Sys2Proof.Machine
end

