-- ==== Sys2Proof/Machine/Strikes.lean ====
section
/-! DEFINITION. Soft errors as they are found (R160, R161, R163, R253, R255): what each does to its store, and its one record. They are
the model's own input (log 33). -/

namespace Sys2Proof.Machine

/-- The job and cluster that a die's record names: those of the fibre whose access found the error. -/
def State.finder (s : State) (fib : Nat) : Nat × Nat :=
  match s.fibre? fib with
  | some f => (s.jobOf f, (s.site f).clu)
  | none => (0, 0)
/-- The %fid that a core's record names: that of the fibre concerned. -/
def State.finderId (s : State) (fib : Nat) : Nat := ((s.fibre? fib).map (·.fid)).getD 0xFFFF
/-- The resident-group index of that fibre. -/
def State.finderGroup (s : State) (fib : Nat) : Nat := (((s.fibre? fib).bind fun f => s.group? f.grp).map (·.rgi)).getD 0
/-- The resident group that a physical scratchpad page or tile of a core belongs to. -/
def State.ownerOf (s : State) (core : Nat) (p : Group → Bool) : Nat :=
  ((s.groups.find? fun g => coreIx g.die g.clu g.core == core && !g.freed && !g.out && p g).map (·.rgi)).getD 0
/-- Where the table entry lies that the walk cache holds for a key (R255): in the table that the entry above it points to, the root table for
the highest level. -/
def State.entryAddr (s : State) (die : Nat) (k : WalkKey) : Nat :=
  let va := k.top * 2 ^ k.lo
  let above := levels.filter fun l => k.lo < l.lo
  let table := above.foldl (fun table l => match s.tableEntry die k.job va l table with | .ok e => pteAddr e | .error _ => table) (s.rootOf die k.job)
  match levels.find? fun l => l.lo == k.lo with
  | some l => table + 8 * bitsOf va l.hi l.lo
  | none => table
/-- An error in a register of a fibre, a Pacer context or a handler fibre. -/
def State.strikeReg (s : State) (k r : Nat) (fixed : Bool) : State :=
  match s.fibre? k with
  | none => s
  | some f =>
    let core := (s.site f).coreIx
    let rgi := ((s.group? f.grp).map (·.rgi)).getD 0
    let index := f.fid * f.regs.length + r
    let log := fun (unit kind : Nat) => s.logCore core 0 index unit kind rgi (if f.isPacer then 0xFFFF else f.fid)
    if f.regs.length ≤ r then s
    else if fixed then log (if f.isPacer then 5 else if f.isHandler then 8 else 0) 0
    else if f.isPacer then s.sliceFaultAt f.grp index
    else if f.isHandler then s.coreFatal core index f.fid
    else (log 0 1).modFibre k fun f => f.poisonReg .storage r
/-- A record's status word with an uncorrectable element in the record (R156, R185). -/
def slotBad (w : Word) : Word := if w &&& 7 = 0 then w ||| 6 else w
/-- An error in an entry of an operand queue: the record is delivered with status DATAERR (R156). -/
def State.strikeQueue (s : State) (g q num off : Nat) (fixed : Bool) : State :=
  match s.group? g, s.oq? g q with
  | some x, some oq =>
    match oq.slots.find? fun e => e.num == num with
    | none => s
    | some e =>
      if fixed then s.logCore (coreIx x.die x.clu x.core) 0 (s.queueIndex g q oq e (off / 8 * 8)) 4 0 x.rgi 0xFFFF
      else s.modOq g q fun o => { o with slots := o.slots.map fun e =>
        if e.num == num then { e with bad := e.bad ++ [(64 * (off / 8), 64)], status := slotBad e.status } else e }
  | _, _ => s
/-- The first byte of the unit that holds an address: what a record names (R255). -/
def unitBase (loc addr : Nat) : Nat := addr / poisonUnit loc * poisonUnit loc
/-- An error in a byte store of the base or a die: a unit that is poisoned already has its record (R255). -/
def State.strikeBytes (s : State) (die loc addr unit kind clu job : Nat) (fixed : Bool) : State :=
  let addr := unitBase loc addr
  if fixed then s.logDie die addr unit 0 clu false job
  else if s.poisonedAt loc 1 then s
  else (s.poison loc).logDie die addr unit kind clu false job
/-- One soft error is found. DESIGN CHOICE: the INDEX of a proofing-buffer record is 0, as R163 gives it no meaning (log 33). -/
def State.strike (s : State) (x : Strike) : State :=
  let (job, clu) := s.finder x.fib
  match x.place with
  | .reg k r => s.strikeReg k r x.fixed
  | .spad core off =>
    let loc := Loc.spad core (off % 2 ^ 21 / 8 * 8)
    let log := fun (s : State) (kind : Nat) =>
      s.logCore core 0 (off % 2 ^ 21 / 8 * 8) 1 kind (s.ownerOf core fun g => g.smap.contains (off % 2 ^ 21 / 4096)) (s.finderId x.fib)
    if x.fixed then log s 0 else if s.poisonedAt loc 1 then s else log (s.poison loc) 1
  | .tile core t el =>
    if t ≥ 6 || el ≥ 65536 then s
    else if x.fixed then s.logCore core 0 el 2 0 (s.ownerOf core fun g => g.tmap.contains t) 0xFFFF
    else s.modCore core fun c => { c with tileBad := if c.tileBad.contains (t, el) then c.tileBad else c.tileBad ++ [(t, el)] }
  | .icache core i =>
    match (s.core core).icache[i]? with
    | none => s
    | some e => (s.logCore core 0 (e.2.1.toNat % 2 ^ 32) 3 0 (s.finderGroup x.fib) (s.finderId x.fib)).modCore core fun c => { c with icache := c.icache.eraseIdx i }
  | .queue g q num off => s.strikeQueue g q num off x.fixed
  | .held k i =>
    match s.fibre? k with
    | none => s
    | some f =>
      if x.fixed then s.logCore (s.site f).coreIx 0 0 7 0 (((s.group? f.grp).map (·.rgi)).getD 0) f.fid
      else s.modFibre k fun f =>
        let n := f.releasing.length
        if i < n then { f with releasing := f.releasing.modify i fun h => { h with bad := true } }
        else { f with held := f.held.modify (i - n) fun h => { h with bad := true } }
  | .cacheData die addr dirty =>
    let line := addr / 128 * 128
    if x.fixed then s.logDie die line 0 0 clu false job
    else if !dirty then s.logDie die line 0 3 clu false job
    else if s.poisonedAt line 64 && s.poisonedAt (line + 64) 64 then s
    else ((s.poison line).poison (line + 64)).logDie die line 0 2 clu false job
  | .cacheTag die addr dirty =>
    let line := addr / 128 * 128
    if x.fixed then s.logDie die line 1 0 clu false job
    else if !dirty then s.logDie die line 1 3 clu false job
    else
      let lost := (Config.lostLine die s.clk).toNat
      (s.logDie die (lost % 2 ^ 52) 1 6 clu false job).dieFatal die
  | .memory addr => s.strikeBytes (physHome addr) addr addr (if addr < 2 ^ 48 then 2 else 6) 1 clu job x.fixed
  | .table die addr => s.strikeBytes die addr addr 4 4 clu job x.fixed
  | .weight die off => s.strikeBytes die (Loc.weight die off) off 3 1 (off / 0x30000000) job x.fixed
  | .cm c off => s.strikeBytes (c / 8) (Loc.cm c off) off 7 1 clu job x.fixed
  | .tlb die c i =>
    match (s.cluster (cluIx die c)).tlb[i]? with
    | none => s
    | some t => (s.logDie die t.pa 5 3 c false job).modCluster (cluIx die c) fun x => { x with tlb := x.tlb.eraseIdx i }
  | .utlb core i =>
    match (s.core core).tlb[i]? with
    | none => s
    | some t => (s.logDie (core / 72) t.pa 5 3 (core / 9 % 8) false job).modCore core fun x => { x with tlb := x.tlb.eraseIdx i }
  | .tileStore die i =>
    if x.fixed then s
    else if die < 4 then s.modDie die fun d => { d with store := d.store.modify i fun t => { t with bad := true } }
    else s.modPkg fun p => { p with ports := p.ports.map fun t => if t.1 == die - 4 then (t.1, t.2.modify i fun y => { y with bad := true }) else t }
  | .walkCopy die i =>
    match (s.die die).wcache[i]? with
    | none => s
    | some e => (s.logDie die (s.entryAddr die e.1) 4 3 clu false job).modDie die fun d => { d with wcache := d.wcache.eraseIdx i }
/-- The soft errors that are due are found, in their order. -/
def State.takeStrikes (s : State) : State :=
  (s.strikes.filter fun x => x.clk ≤ s.clk).foldl (fun s x => s.strike x) { s with strikes := s.strikes.filter fun x => !(x.clk ≤ s.clk) }

end Sys2Proof.Machine
end

