-- ==== Sys2Proof/Machine/Passing.lean ====
section
/-! DEFINITION. Time: what each clk brings to counters, ages and clocks, and clk that are withheld (R150, R152, R160, R311, R365). -/

namespace Sys2Proof.Machine

/-- Time passes, and the soft errors of that time are found. -/
def State.pass (s : State) (n : Nat) : State :=
  let s := s.chargeAll n
  ({ ((s.ageGroups n).watchPass n) with clk := s.clk + n } : State).takeStrikes
/-- The clk of words that have issued pass, with the second one of those that take two. -/
def State.passIssued (s : State) : State :=
  let busy := fun (s : State) => s.cores.any fun c => !c.2.slots.isEmpty
  let s := if busy s then s.pass 1 else s
  if busy s then s.pass 1 else s
/-- n clk pass in which nothing issues, after those of the words issued already: they are no counted clk, and count under leaf 19 (R152, R311,
R365). -/
def State.withhold (s : State) (n : Nat) : State :=
  let s := s.passIssued
  let all := (List.range 256).map fun i => coreIx (i / 64) (i / 8 % 8) (i % 8)
  let s := s.chargeCores all (some 19) n
  let s := s.mapCores fun c => { c with frozen := if s.clk < c.frozen then c.frozen + n else c.frozen }
  { (s.watchPass n) with clk := s.clk + n }
def execPowerLimit (clks : Nat) (s : State) : Host.Outcome State Fault Refusal := .next (s.withhold clks)
def execThermalThrottle (clks : Nat) (s : State) : Host.Outcome State Fault Refusal := .next (s.withhold clks)

end Sys2Proof.Machine
end

