-- ==== Sys2Proof/Machine/Prefix.lean ====
section
/-! DEFINITION. The prefixes REP (R49, R50) and INV (R51, R52, R134). -/

namespace Sys2Proof.Machine

/-- REP: n repeats of the word that follows are to issue. -/
def execRep (stop : Bool) (n : BitVec 6) (sd sa sb sc two : Bool) (s : State) : Host.Outcome State Fault Refusal :=
  let i := Instr.rep stop n sd sa sb sc two
  issueWord i s fun k f =>
    (s.setFibre k { (f.counted f i true s.clk) with rep := some f.rp, rc := w32 (n.toNat + 1), run := .ready }).noteIssue k f i true

/-- The header of INV's routine, the clause that follows, and the clause after it. -/
def State.routine (s : State) (f : Fibre) : Word × DWord × DWord :=
  let ra := f.nextClause
  let w := (s.cached (s.site f).coreIx (s.jobOf f) ra).getD 0
  (w, ra, ra + BitVec.ofNat 64 (4 * ((Header.ofWord w).count + 1)))
/-- INV as its first evaluation begins. -/
def InvRun.start (f : Fibre) (i : Instr) (k : Nat) (t x y : Reg) (kn : BitVec 2) (ty : InvTy) (dec : Bool) (tol : BitVec 5) (iter : BitVec 6)
    (after_ : DWord) : InvRun :=
  let lo := f.ks.getD (2 * kn.toNat) 0
  let hi := f.ks.getD (2 * kn.toNat + 1) 0
  { at_ := f.rp, w0 := (encode i).getD 0 0, w1 := (encode i).getD 1 0, resume := ⟨after_, 0⟩, t := f.read k t.toNat, lo := lo, hi := hi, flo := 0, fhi := 0, mid := 0, phase := 0, steps := 0,
    evals := 0, x := x.toNat, y := y.toNat, k := kn.toNat, ty := ty, dec := dec, tol := tol.toNat, iter := iter.toNat + 1,
    stall := i.head.stall.toNat, early := f.flight.filter fun e => e.slot != x.toNat }
/-- INV: a bad bracket traps before any evaluation; else the routine runs with lo. A fibre whose guard does not hold skips the
routine too. -/
def execInv (h : Head) (t x : Reg) (k : BitVec 2) (ty : InvTy) (y : Reg) (dec : Bool) (tol : BitVec 5) (iter : BitVec 6) (s : State) :
    Host.Outcome State Fault Refusal :=
  let i := Instr.inv h t x k ty y dec tol iter
  match gate i s with
  | .noFibre => .fault .noFibre
  | .held s' => .next s'
  | .off f =>
    let (_, ra, next) := s.routine f
    let ended := if (f.loops.head?.map (·.endH)) == some f.rp.hdr then f.rp.hdr else ra
    .next ((s.setFibre s.cur ((f.counted f i false s.clk).leave ended next)).noteIssue s.cur f i false)
  | .go f =>
    let (w, ra, next) := s.routine f
    let v := InvRun.start f i s.cur t x y k ty dec tol iter next
    if invNan ty v.lo || invNan ty v.hi || (ordKey ty v.hi).toNat < (ordKey ty v.lo).toNat then .next (s.invTrap s.cur f v 0x16 2)
    else
      let f1 := { (f.counted f i true s.clk) with
        flight := (flightAfter f (f.weight i - v.stall) 0 []).filter fun e => e.slot != x.toNat
        rp := ⟨ra, 0⟩, hdr := some w, inv := some v, run := .ready }
      .next ((s.setFibre s.cur (f1.setReg x.toNat v.lo)).noteIssue s.cur f i true)

end Sys2Proof.Machine
end

