-- ==== Sys2Proof/Machine/Dispatch.lean ====
section
/-! DEFINITION. The one table from instructions to their meanings. -/

namespace Sys2Proof.Machine

def exec (i : Instr) (s : State) : Host.Outcome State Fault Refusal :=
  match i with
  | .add h d a b => Sys2Proof.Machine.execAdd h d a b s
  | .sub h d a b => Sys2Proof.Machine.execSub h d a b s
  | .mul h d a b => Sys2Proof.Machine.execMul h d a b s
  | .and h d a b => Sys2Proof.Machine.execAnd h d a b s
  | .or h d a b => Sys2Proof.Machine.execOr h d a b s
  | .xor h d a b => Sys2Proof.Machine.execXor h d a b s
  | .andn h d a b => Sys2Proof.Machine.execAndn h d a b s
  | .shl h d a b => Sys2Proof.Machine.execShl h d a b s
  | .shr h d a b => Sys2Proof.Machine.execShr h d a b s
  | .sar h d a b => Sys2Proof.Machine.execSar h d a b s
  | .rot h d a b => Sys2Proof.Machine.execRot h d a b s
  | .mov h d a => Sys2Proof.Machine.execMov h d a s
  | .neg h d a => Sys2Proof.Machine.execNeg h d a s
  | .abs h d a => Sys2Proof.Machine.execAbs h d a s
  | .not h d a => Sys2Proof.Machine.execNot h d a s
  | .clz h d a => Sys2Proof.Machine.execClz h d a s
  | .popc h d a => Sys2Proof.Machine.execPopc h d a s
  | .brev h d a => Sys2Proof.Machine.execBrev h d a s
  | .addTyped h d a b ty sat => Sys2Proof.Machine.execAddTyped h d a b ty sat s
  | .subTyped h d a b ty sat => Sys2Proof.Machine.execSubTyped h d a b ty sat s
  | .mulTyped h d a b ty sat => Sys2Proof.Machine.execMulTyped h d a b ty sat s
  | .mulhi h d a b ty => Sys2Proof.Machine.execMulhi h d a b ty s
  | .div h d a b ty sat => Sys2Proof.Machine.execDiv h d a b ty sat s
  | .rem h d a b ty => Sys2Proof.Machine.execRem h d a b ty s
  | .minTyped h d a b ty => Sys2Proof.Machine.execMinTyped h d a b ty s
  | .maxTyped h d a b ty => Sys2Proof.Machine.execMaxTyped h d a b ty s
  | .negTyped h d a ty sat => Sys2Proof.Machine.execNegTyped h d a ty sat s
  | .absTyped h d a ty sat => Sys2Proof.Machine.execAbsTyped h d a ty sat s
  | .mad h d a b c ty sat => Sys2Proof.Machine.execMad h d a b c ty sat s
  | .bfx h d a b ty => Sys2Proof.Machine.execBfx h d a b ty s
  | .bfi h d a b c ty => Sys2Proof.Machine.execBfi h d a b c ty s
  | .sel h d a b c ty => Sys2Proof.Machine.execSel h d a b c ty s
  | .addImm h d a lit => Sys2Proof.Machine.execAddImm h d a lit s
  | .subImm h d a lit => Sys2Proof.Machine.execSubImm h d a lit s
  | .mulImm h d a lit => Sys2Proof.Machine.execMulImm h d a lit s
  | .andImm h d a lit => Sys2Proof.Machine.execAndImm h d a lit s
  | .orImm h d a lit => Sys2Proof.Machine.execOrImm h d a lit s
  | .xorImm h d a lit => Sys2Proof.Machine.execXorImm h d a lit s
  | .andnImm h d a lit => Sys2Proof.Machine.execAndnImm h d a lit s
  | .shlImm h d a lit => Sys2Proof.Machine.execShlImm h d a lit s
  | .shrImm h d a lit => Sys2Proof.Machine.execShrImm h d a lit s
  | .sarImm h d a lit => Sys2Proof.Machine.execSarImm h d a lit s
  | .rotImm h d a lit => Sys2Proof.Machine.execRotImm h d a lit s
  | .minImm h d a lit => Sys2Proof.Machine.execMinImm h d a lit s
  | .minImmU h d a lit => Sys2Proof.Machine.execMinImmU h d a lit s
  | .maxImm h d a lit => Sys2Proof.Machine.execMaxImm h d a lit s
  | .maxImmU h d a lit => Sys2Proof.Machine.execMaxImmU h d a lit s
  | .movi h d imm => Sys2Proof.Machine.execMovi h d imm s
  | .moviLit h d lit => Sys2Proof.Machine.execMoviLit h d lit s
  | .movhi h d lit => Sys2Proof.Machine.execMovhi h d lit s
  | .setp h d a b c cond ty merge tbl => Sys2Proof.Machine.execSetp h d a b c cond ty merge tbl s
  | .plog h d a b c tbl => Sys2Proof.Machine.execPlog h d a b c tbl s
  | .pmovToReg h d a => Sys2Proof.Machine.execPmovToReg h d a s
  | .pmovToPred h d a => Sys2Proof.Machine.execPmovToPred h d a s
  | .movs h d a => Sys2Proof.Machine.execMovs h d a s
  | .movsw h d a => Sys2Proof.Machine.execMovsw h d a s
  | .bra h off => Sys2Proof.Machine.execBra h off s
  | .call h off => Sys2Proof.Machine.execCall h off s
  | .brx h a => Sys2Proof.Machine.execBrx h a s
  | .callx h a => Sys2Proof.Machine.execCallx h a s
  | .ret h => Sys2Proof.Machine.execRet h s
  | .endFibre h => Sys2Proof.Machine.execEndFibre h s
  | .yield h => Sys2Proof.Machine.execYield h s
  | .nap h a => Sys2Proof.Machine.execNap h a s
  | .nop h => Sys2Proof.Machine.execNop h s
  | .trap h d => Sys2Proof.Machine.execTrap h d s
  | .loopReg h a last => Sys2Proof.Machine.execLoopReg h a last s
  | .loopImm h cnt last => Sys2Proof.Machine.execLoopImm h cnt last s
  | .lbrk h n => Sys2Proof.Machine.execLbrk h n s
  | .fork h d off => Sys2Proof.Machine.execFork h d off s
  | .fadd h d a b rnd => Sys2Proof.Machine.execFadd h d a b rnd s
  | .fsub h d a b rnd => Sys2Proof.Machine.execFsub h d a b rnd s
  | .fmul h d a b rnd => Sys2Proof.Machine.execFmul h d a b rnd s
  | .fdiv h d a b rnd => Sys2Proof.Machine.execFdiv h d a b rnd s
  | .ffma h d a b c rnd => Sys2Proof.Machine.execFfma h d a b c rnd s
  | .fmin h d a b => Sys2Proof.Machine.execFmin h d a b s
  | .fmax h d a b => Sys2Proof.Machine.execFmax h d a b s
  | .frcp h d a rnd => Sys2Proof.Machine.execFrcp h d a rnd s
  | .fsqrt h d a rnd => Sys2Proof.Machine.execFsqrt h d a rnd s
  | .frsq h d a rnd => Sys2Proof.Machine.execFrsq h d a rnd s
  | .frnd h d a rnd => Sys2Proof.Machine.execFrnd h d a rnd s
  | .fclass h d a ty => Sys2Proof.Machine.execFclass h d a ty s
  | .fcmp h d a b c cond merge tbl => Sys2Proof.Machine.execFcmp h d a b c cond merge tbl s
  | .dcmp h d a b c cond merge tbl => Sys2Proof.Machine.execDcmp h d a b c cond merge tbl s
  | .fex2 h d a => Sys2Proof.Machine.execFex2 h d a s
  | .flg2 h d a => Sys2Proof.Machine.execFlg2 h d a s
  | .fsin h d a => Sys2Proof.Machine.execFsin h d a s
  | .fcos h d a => Sys2Proof.Machine.execFcos h d a s
  | .ftanh h d a => Sys2Proof.Machine.execFtanh h d a s
  | .dadd h d a b rnd => Sys2Proof.Machine.execDadd h d a b rnd s
  | .dmul h d a b rnd => Sys2Proof.Machine.execDmul h d a b rnd s
  | .dfma h d a b c rnd => Sys2Proof.Machine.execDfma h d a b c rnd s
  | .hadd2 h d a b ty rnd => Sys2Proof.Machine.execHadd2 h d a b ty rnd s
  | .hmul2 h d a b ty rnd => Sys2Proof.Machine.execHmul2 h d a b ty rnd s
  | .hfma2 h d a b c ty rnd => Sys2Proof.Machine.execHfma2 h d a b c ty rnd s
  | .cvt h d a ty rnd sat src => Sys2Proof.Machine.execCvt h d a ty rnd sat src s
  | .qnt h d a c rnd adj fmt => Sys2Proof.Machine.execQnt h d a c rnd adj fmt s
  | .dqnt h d a c fmt => Sys2Proof.Machine.execDqnt h d a c fmt s
  | .rand h d ty => Sys2Proof.Machine.execRand h d ty s
  | .shfl h d a b c mode ty p => Sys2Proof.Machine.execShfl h d a b c mode ty p s
  | .vote h d a b c mode => Sys2Proof.Machine.execVote h d a b c mode s
  | .spred h d a c op ty rnd scan => Sys2Proof.Machine.execSpred h d a c op ty rnd scan s
  | .qswap h d a ty dir => Sys2Proof.Machine.execQswap h d a ty dir s
  | .qbc h d a ty lane => Sys2Proof.Machine.execQbc h d a ty lane s
  | .ld h d a spc sz ord sc off => Sys2Proof.Machine.execLd h d a spc sz ord sc off s
  | .st h a b spc sz ord sc off => Sys2Proof.Machine.execSt h a b spc sz ord sc off s
  | .atom h d a b spc sz ord sc aop off => Sys2Proof.Machine.execAtom h d a b spc sz ord sc aop off s
  | .red h a b spc sz ord sc aop off => Sys2Proof.Machine.execRed h a b spc sz ord sc aop off s
  | .fence h d a => Sys2Proof.Machine.execFence h d a s
  | .efence h => Sys2Proof.Machine.execEfence h s
  | .cpasync h d a b c bar ssp dsp => Sys2Proof.Machine.execCpasync h d a b c bar ssp dsp s
  | .gath h d a b c ssp fmt toq => Sys2Proof.Machine.execGath h d a b c ssp fmt toq s
  | .waitc h n mask => Sys2Proof.Machine.execWaitc h n mask s
  | .ftest h d a => Sys2Proof.Machine.execFtest h d a s
  | .fcancel h d a => Sys2Proof.Machine.execFcancel h d a s
  | .oqpop h d a n => Sys2Proof.Machine.execOqpop h d a n s
  | .oqrel h a => Sys2Proof.Machine.execOqrel h a s
  | .aslice h d a hd => Sys2Proof.Machine.execAslice h d a hd s
  | .astop h => Sys2Proof.Machine.execAstop h s
  | .ploop h a last => Sys2Proof.Machine.execPloop h a last s
  | .afeed h d a b m kind => Sys2Proof.Machine.execAfeed h d a b m kind s
  | .pwait h d n => Sys2Proof.Machine.execPwait h d n s
  | .barinit h a b => Sys2Proof.Machine.execBarinit h a b s
  | .bararr h a => Sys2Proof.Machine.execBararr h a s
  | .barwt h a b => Sys2Proof.Machine.execBarwt h a b s
  | .barst h d a => Sys2Proof.Machine.execBarst h d a s
  | .cvdecl h c n => Sys2Proof.Machine.execCvdecl h c n s
  | .mma h d a b c sc s32 fr spSrc reuse x fmt hreg hd ssel sreg => Sys2Proof.Machine.execMma h d a b c sc s32 fr spSrc reuse x fmt hreg hd ssel sreg s
  | .accz h d => Sys2Proof.Machine.execAccz h d s
  | .accld h d a spc => Sys2Proof.Machine.execAccld h d a spc s
  | .accst h d a b rnd spc adj fmt => Sys2Proof.Machine.execAccst h d a b rnd spc adj fmt s
  | .accrd h d a b => Sys2Proof.Machine.execAccrd h d a b s
  | .qpush h d a b prio t n => Sys2Proof.Machine.execQpush h d a b prio t n s
  | .qpop h d a n => Sys2Proof.Machine.execQpop h d a n s
  | .qpeek h d a c n => Sys2Proof.Machine.execQpeek h d a c n s
  | .qcnt h d a => Sys2Proof.Machine.execQcnt h d a s
  | .dcarm h a b c q => Sys2Proof.Machine.execDcarm h a b c q s
  | .dcdec h a => Sys2Proof.Machine.execDcdec h a s
  | .trig h => Sys2Proof.Machine.execTrig h s
  | .dwait h d => Sys2Proof.Machine.execDwait h d s
  | .beat h => Sys2Proof.Machine.execBeat h s
  | .evpost h a => Sys2Proof.Machine.execEvpost h a s
  | .evpop h d nb => Sys2Proof.Machine.execEvpop h d nb s
  | .guess h d a b c ty aidReg aid loc imm sw => Sys2Proof.Machine.execGuess h d a b c ty aidReg aid loc imm sw s
  | .affirm h d a hd => Sys2Proof.Machine.execAffirm h d a hd s
  | .deny h d a b ty hd => Sys2Proof.Machine.execDeny h d a b ty hd s
  | .tagq h d a idx mode => Sys2Proof.Machine.execTagq h d a idx mode s
  | .puts h d a b c lh lhd addSig sig spc => Sys2Proof.Machine.execPuts h d a b c lh lhd addSig sig spc s
  | .get h d a b c bar spc => Sys2Proof.Machine.execGet h d a b c bar spc s
  | .radd h d a b c ty lh lhd spc => Sys2Proof.Machine.execRadd h d a b c ty lh lhd spc s
  | .sigwt h d a b c p cond => Sys2Proof.Machine.execSigwt h d a b c p cond s
  | .want h d a b c spc life => Sys2Proof.Machine.execWant h d a b c spc life s
  | .announce h d a b c spc => Sys2Proof.Machine.execAnnounce h d a b c spc s
  | .twalk h d a tag port => Sys2Proof.Machine.execTwalk h d a tag port s
  | .permit h d a b => Sys2Proof.Machine.execPermit h d a b s
  | .cseq h d a b => Sys2Proof.Machine.execCseq h d a b s
  | .sysc h n => Sys2Proof.Machine.execSysc h n s
  | .rft h a norep mode => Sys2Proof.Machine.execRft h a norep mode s
  | .awrd h d a b c => Sys2Proof.Machine.execAwrd h d a b c s
  | .awwr h d a b c => Sys2Proof.Machine.execAwwr h d a b c s
  | .hstop h d a grp => Sys2Proof.Machine.execHstop h d a grp s
  | .hresume h a grp => Sys2Proof.Machine.execHresume h a grp s
  | .brkp h n => Sys2Proof.Machine.execBrkp h n s
  | .trace h a b two id => Sys2Proof.Machine.execTrace h a b two id s
  | .mark h m => Sys2Proof.Machine.execMark h m s
  | .rep stop n sd sa sb sc two => Sys2Proof.Machine.execRep stop n sd sa sb sc two s
  | .inv h t x k ty y dec tol iter => Sys2Proof.Machine.execInv h t x k ty y dec tol iter s
  | .jmpt h idx => Sys2Proof.Machine.execJmpt h idx s
  | .padw h => Sys2Proof.Machine.execPadw h s
  | .variableLatencyComplete op => Sys2Proof.Machine.execVariableLatencyComplete op s
  | .loadDataArrival op => Sys2Proof.Machine.execLoadDataArrival op s
  | .storeAck op => Sys2Proof.Machine.execStoreAck op s
  | .scratchpadLoadComplete op => Sys2Proof.Machine.execScratchpadLoadComplete op s
  | .fibreEnd fib => Sys2Proof.Machine.execFibreEnd fib s
  | .groupResourceRelease grp => Sys2Proof.Machine.execGroupResourceRelease grp s
  | .napWake fib => Sys2Proof.Machine.execNapWake fib s
  | .swapOut grp => Sys2Proof.Machine.execSwapOut grp s
  | .checkpointSpillComplete fib => Sys2Proof.Machine.execCheckpointSpillComplete fib s
  | .pacerFillComplete op => Sys2Proof.Machine.execPacerFillComplete op s
  | .walkComplete walk => Sys2Proof.Machine.execWalkComplete walk s
  | .mmaStart core => Sys2Proof.Machine.execMmaStart core s
  | .mmaComplete core => Sys2Proof.Machine.execMmaComplete core s
  | .copyPieceLand op => Sys2Proof.Machine.execCopyPieceLand op s
  | .gathRowArrival op row => Sys2Proof.Machine.execGathRowArrival op row s
  | .barwtTimeout fib => Sys2Proof.Machine.execBarwtTimeout fib s
  | .accTransferComplete op => Sys2Proof.Machine.execAccTransferComplete op s
  | .groupPlace cluster => Sys2Proof.Machine.execGroupPlace cluster s
  | .queueEntryArrive msg => Sys2Proof.Machine.execQueueEntryArrive msg s
  | .qpopReturn fib => Sys2Proof.Machine.execQpopReturn fib s
  | .dcarmArrive msg => Sys2Proof.Machine.execDcarmArrive msg s
  | .dcdecArrive msg => Sys2Proof.Machine.execDcdecArrive msg s
  | .quiescenceRound job => Sys2Proof.Machine.execQuiescenceRound job s
  | .handlerTakeRecord core => Sys2Proof.Machine.execHandlerTakeRecord core s
  | .replayComplete fib => Sys2Proof.Machine.execReplayComplete fib s
  | .watchedOpResolve die slot => Sys2Proof.Machine.execWatchedOpResolve die slot s
  | .resolutionAtHome msg => Sys2Proof.Machine.execResolutionAtHome msg s
  | .affirmApply die aid => Sys2Proof.Machine.execAffirmApply die aid s
  | .denyApply die aid => Sys2Proof.Machine.execDenyApply die aid s
  | .resolutionAck die aid => Sys2Proof.Machine.execResolutionAck die aid s
  | .localCompletion op => Sys2Proof.Machine.execLocalCompletion op s
  | .collEnd prog => Sys2Proof.Machine.execCollEnd prog s
  | .collLoad prog => Sys2Proof.Machine.execCollLoad prog s
  | .collSend prog => Sys2Proof.Machine.execCollSend prog s
  | .collRadd prog => Sys2Proof.Machine.execCollRadd prog s
  | .collRecvAdd prog => Sys2Proof.Machine.execCollRecvAdd prog s
  | .collRecvCopy prog => Sys2Proof.Machine.execCollRecvCopy prog s
  | .collWrite prog => Sys2Proof.Machine.execCollWrite prog s
  | .collSignal prog => Sys2Proof.Machine.execCollSignal prog s
  | .collWaitge prog => Sys2Proof.Machine.execCollWaitge prog s
  | .tileWalkTile walk => Sys2Proof.Machine.execTileWalkTile walk s
  | .walkPermitArrive op => Sys2Proof.Machine.execWalkPermitArrive op s
  | .sigwtRecheck fib => Sys2Proof.Machine.execSigwtRecheck fib s
  | .forcedRotation core => Sys2Proof.Machine.execForcedRotation core s
  | .cohortRelease job cohort => Sys2Proof.Machine.execCohortRelease job cohort s
  | .queueCreditGrant job queue die n => Sys2Proof.Machine.execQueueCreditGrant job queue die n s
  | .queueDeadlock job queue => Sys2Proof.Machine.execQueueDeadlock job queue s
  | .watchdogTest job => Sys2Proof.Machine.execWatchdogTest job s
  | .wsLoadComplete die => Sys2Proof.Machine.execWsLoadComplete die s
  | .dtinvComplete die => Sys2Proof.Machine.execDtinvComplete die s
  | .evictionStopTimeout grp => Sys2Proof.Machine.execEvictionStopTimeout grp s
  | .evictionSave grp => Sys2Proof.Machine.execEvictionSave grp s
  | .packageReset => Sys2Proof.Machine.execPackageReset s
  | .launch fn queue idx => Sys2Proof.Machine.execLaunch fn queue idx s
  | .jobwait fn queue idx => Sys2Proof.Machine.execJobwait fn queue idx s
  | .wsload fn queue idx => Sys2Proof.Machine.execWsload fn queue idx s
  | .halt fn queue idx => Sys2Proof.Machine.execHalt fn queue idx s
  | .resume fn queue idx => Sys2Proof.Machine.execResume fn queue idx s
  | .kill fn queue idx => Sys2Proof.Machine.execKill fn queue idx s
  | .unlistedCommand fn queue idx => Sys2Proof.Machine.execUnlistedCommand fn queue idx s
  | .fabricPacketArrive port pkt => Sys2Proof.Machine.execFabricPacketArrive port pkt s
  | .retransmitTimeout seq => Sys2Proof.Machine.execRetransmitTimeout seq s
  | .interestArrive port face => Sys2Proof.Machine.execInterestArrive port face s
  | .faceDeadline port face => Sys2Proof.Machine.execFaceDeadline port face s
  | .sigwtTimeout fib => Sys2Proof.Machine.execSigwtTimeout fib s
  | .dbgTokenResult => Sys2Proof.Machine.execDbgTokenResult s
  | .traceSample core => Sys2Proof.Machine.execTraceSample core s
  | .instructionFetchError fib second => Sys2Proof.Machine.execInstructionFetchError fib second s
  | .hostInboundWrite fn addr bytes => Sys2Proof.Machine.execHostInboundWrite fn addr bytes s
  | .hostInboundRead fn addr len => Sys2Proof.Machine.execHostInboundRead fn addr len s
  | .queueCreditReturn job queue die n => Sys2Proof.Machine.execQueueCreditReturn job queue die n s
  | .wsPhaseEnter die => Sys2Proof.Machine.execWsPhaseEnter die s
  | .wsPhaseLeave die => Sys2Proof.Machine.execWsPhaseLeave die s
  | .wsLoadGo die => Sys2Proof.Machine.execWsLoadGo die s
  | .wsRefreshStart die bank => Sys2Proof.Machine.execWsRefreshStart die bank s
  | .wsRefreshEnd die bank => Sys2Proof.Machine.execWsRefreshEnd die bank s
  | .wsScrubVisit die off err => Sys2Proof.Machine.execWsScrubVisit die off err s
  | .dramScrubVisit granule err => Sys2Proof.Machine.execDramScrubVisit granule err s
  | .dieFatalError die => Sys2Proof.Machine.execDieFatalError die s
  | .dtinvPage die => Sys2Proof.Machine.execDtinvPage die s
  | .dtinvJob die => Sys2Proof.Machine.execDtinvJob die s
  | .dtinvAll die => Sys2Proof.Machine.execDtinvAll die s
  | .dtinvReservedScope die => Sys2Proof.Machine.execDtinvReservedScope die s
  | .ceccClear core => Sys2Proof.Machine.execCeccClear core s
  | .deccClear die => Sys2Proof.Machine.execDeccClear die s
  | .cevdropClear cluster => Sys2Proof.Machine.execCevdropClear cluster s
  | .fpstatReplayClear port => Sys2Proof.Machine.execFpstatReplayClear port s
  | .ucieLinkDown die => Sys2Proof.Machine.execUcieLinkDown die s
  | .hqSqDoorbell fn queue tail => Sys2Proof.Machine.execHqSqDoorbell fn queue tail s
  | .hqCqDoorbell fn queue head => Sys2Proof.Machine.execHqCqDoorbell fn queue head s
  | .lockInterfaceRequest fn => Sys2Proof.Machine.execLockInterfaceRequest fn s
  | .startInterfaceRequest fn nonce => Sys2Proof.Machine.execStartInterfaceRequest fn nonce s
  | .stopInterfaceRequest fn => Sys2Proof.Machine.execStopInterfaceRequest fn s
  | .getDeviceInterfaceReport fn => Sys2Proof.Machine.execGetDeviceInterfaceReport fn s
  | .lockedFieldWrite fn => Sys2Proof.Machine.execLockedFieldWrite fn s
  | .ideIntegrityFailure fn => Sys2Proof.Machine.execIdeIntegrityFailure fn s
  | .functionLevelReset fn => Sys2Proof.Machine.execFunctionLevelReset fn s
  | .salpolLock => Sys2Proof.Machine.execSalpolLock s
  | .voltageClockGlitch => Sys2Proof.Machine.execVoltageClockGlitch s
  | .fuseIntegrityFailure => Sys2Proof.Machine.execFuseIntegrityFailure s
  | .powerLimit clks => Sys2Proof.Machine.execPowerLimit clks s
  | .thermalThrottle clks => Sys2Proof.Machine.execThermalThrottle clks s
  | .thermalShutdown => Sys2Proof.Machine.execThermalShutdown s
  | .flitCrcReplay port again => Sys2Proof.Machine.execFlitCrcReplay port again s
  | .fabricLinkDown port => Sys2Proof.Machine.execFabricLinkDown port s
  | .fabricPacketForward pkt => Sys2Proof.Machine.execFabricPacketForward pkt s
  | .fabricAckArrive ack => Sys2Proof.Machine.execFabricAckArrive ack s
  | .collChunkArrive msg => Sys2Proof.Machine.execCollChunkArrive msg s
  | .collCreditGrant msg => Sys2Proof.Machine.execCollCreditGrant msg s
  | .collAbortReceive msg => Sys2Proof.Machine.execCollAbortReceive msg s
  | .tileReturn port tile => Sys2Proof.Machine.execTileReturn port tile s
  | .dbgStepFibre core => Sys2Proof.Machine.execDbgStepFibre core s
  | .dbgStopSpan core => Sys2Proof.Machine.execDbgStopSpan core s
  | .dbgResumeSpan core => Sys2Proof.Machine.execDbgResumeSpan core s
  | .dbgResumeFibre core => Sys2Proof.Machine.execDbgResumeFibre core s
  | .dbgTokenVerify => Sys2Proof.Machine.execDbgTokenVerify s
  | .topdownClear core => Sys2Proof.Machine.execTopdownClear core s
  | .topdownFreeze core on => Sys2Proof.Machine.execTopdownFreeze core on s
  | .noiseModeDirect core => Sys2Proof.Machine.execNoiseModeDirect core s
  | .noiseModeLog core => Sys2Proof.Machine.execNoiseModeLog core s
  | .noiseModeReplay core => Sys2Proof.Machine.execNoiseModeReplay core s
  | .registerWrite off size val => Sys2Proof.Machine.execRegisterWrite off size val s
  | .fabricLinkRetrain port => Sys2Proof.Machine.execFabricLinkRetrain port s
  | .lifeCycleAdvance state => Sys2Proof.Machine.execLifeCycleAdvance state s

end Sys2Proof.Machine
end

