-- ==== Sys2Proof/Machine/Schedule.lean ====
section
/-! DEFINITION. Whose turn is next (log 1): the schedule, and where it is empty what each clk brings: one event in rotation and the batches
that R83 and R151 select; what time does; what follows a step in the same step; how one instruction is placed (log 11). -/

namespace Sys2Proof.Machine

/-! ## Without a schedule: the events that may come (log 1) -/

/-- The event that carries an operation on. -/
def State.opEvent (s : State) (o : Op) : List Instr :=
  if o.done.isSome then []
  else match o.body with
    | .mem a (.at_ _) => [if a.space == .sp then .scratchpadLoadComplete o.id
                            else if a.kind == .ld || a.kind == .atom then .loadDataArrival o.id else .storeAck o.id]
    | .mem _ _ => []
    | .result _ _ _ => [.variableLatencyComplete o.id]
    | .copy _ => [.copyPieceLand o.id]
    | .gath g => (g.left.head?.map fun r => Instr.gathRowArrival o.id r).toList
    | .acc _ => [.accTransferComplete o.id]
    | .fab (.want _ name _ dl) 0 sent none .ok =>
      let p := ((s.fibre? o.fib).map s.site).getD ⟨0, 0, 0⟩
      let port := 36 + p.die
      let i : Interest := ⟨o.job, name, .op o.id, dl, p.die, p.clu, 17⟩
      if dl ≤ s.clk then [.faceDeadline port i] else if sent.isEmpty then [.interestArrive port i] else []
    | .fab (.get ⟨.sys, _⟩ _ _ _) _ _ _ _ => []
    | .fab x 0 [] none .ok => if ((s.fibre? o.fib).map fun f => f.holdsOp o.id || !s.flowReady o f x).getD false then [] else [.localCompletion o.id]
    | .fab _ _ [] (some _) _ => [.copyPieceLand o.id]
    | .fab _ _ _ _ _ => []
    | .feed _ _ _ _ _ _ => [.pacerFillComplete o.id]
    | .permit _ _ _ _ => [.walkPermitArrive o.id]
    | _ => []
/-- The events that end a fibre's wait. -/
def waitEvent (k : Nat) (f : Fibre) : List Instr :=
  match f.run, f.wait with
  | .waiting _, some (.nap _) => [.napWake k]
  | .waiting _, some (.bar _ _ (some _) _ _) => [.barwtTimeout k]
  | .waiting _, some (.sigwt _ _ _ _ _ t) => if t.isSome then [.sigwtRecheck k, .sigwtTimeout k] else [.sigwtRecheck k]
  | .waiting _, some (.qpop _ _ _) => [.qpopReturn k]
  | .waiting _, some (.ending _) => [.fibreEnd k]
  | .waiting _, some (.replay _) => [.replayComplete k]
  | _, some .ckpt => [.checkpointSpillComplete k]
  | _, _ => []
/-- The event of a message at its unit. -/
def msgEvent (m : Msg) : Instr :=
  match m.body with
  | .push _ _ _ => .queueEntryArrive m.id
  | .dcarm _ _ _ _ => .dcarmArrive m.id
  | .dcdec _ => .dcdecArrive m.id
  | .resolve _ _ _ => .resolutionAtHome m.id
/-- The step of a collective program's next step word. -/
def progEvent (p : Prog) : List Instr :=
  if !p.live then []
  else match p.step.op with
    | 0 => [.collEnd p.id] | 1 => [.collLoad p.id] | 2 => [.collSend p.id] | 3 => [.collRadd p.id]
    | 4 => [.collRecvAdd p.id] | 5 => [.collRecvCopy p.id] | 6 => [.collWrite p.id] | 7 => [.collSignal p.id]
    | _ => [.collWaitge p.id]
/-- What a core's units might do. -/
def State.coreEvents (s : State) (k : Nat) (c : Core) : List Instr :=
  (if c.running.isSome then [.mmaComplete k] else if c.mmaq.isEmpty then [] else [.mmaStart k]) ++
    (if c.trapq.isEmpty then [] else [.handlerTakeRecord k]) ++
    (if (s.oldestPending k).isSome then [.forcedRotation k] else []) ++
    (if c.trr.ctl.getLsbD 31 then [.traceSample k] else [])
/-- What may happen to a group. -/
def groupEvents (i : Nat) (g : Group) : List Instr :=
  (if g.exited && !g.freed then [.groupResourceRelease i] else []) ++
    (if g.job != 0 && g.active && !g.exited && !g.out then [.swapOut i] else []) ++
    (if g.evict.isSome then [.evictionSave i, .evictionStopTimeout i] else [])
/-- What may happen to a job. -/
def jobEvents (i : Nat) (j : Job) : List Instr :=
  (if j.status.isNone then [.quiescenceRound (i + 1), .watchdogTest (i + 1)] else []) ++ j.cohorts.map fun c => .cohortRelease (i + 1) c.1
/-- What may happen on a die. -/
def dieEvents (k : Nat) (d : Die) : List Instr :=
  d.walks.map (fun w => .walkComplete w.id) ++
    (if d.wsctl.getLsbD 8 then [.wsLoadComplete k] else []) ++ (if d.inval.isSome then [.dtinvComplete k] else []) ++
    d.slots.flatMap fun e =>
      let a := mkAid k e.1 e.2.gen
      match e.2.state with
      | .free => []
      | .open => if e.2.watch.isSome then [.watchedOpResolve k e.1] else []
      | .affirmed => (List.range 4).map (fun x => Instr.affirmApply x a) ++ [.resolutionAck k a]
      | .denied => (List.range 4).map (fun x => Instr.denyApply x a) ++ [.resolutionAck k a]
/-- The step of a host command. -/
def cmdEvent (fn q : Nat) (c : HostCmd) : Instr :=
  match c.op with
  | 1 => .launch fn q c.idx
  | 2 => .jobwait fn q c.idx
  | 3 => .wsload fn q c.idx
  | 4 => .halt fn q c.idx
  | 5 => .resume fn q c.idx
  | 6 => .kill fn q c.idx
  | _ => .unlistedCommand fn q c.idx
/-- A credit for a die whose fibre waits in a QPUSH (R228), and the deadlock test (R218). -/
def State.queueEvents (s : State) (q : Queue) : List Instr :=
  let ws := s.fibres.filter fun f => s.jobOf f == q.job && s.waitsInPush f q.num
  if ws.isEmpty then [] else (ws.map fun f => Instr.queueCreditGrant q.job q.num (s.site f).die 1) ++ [.queueDeadlock q.job q.num]
/-- Interests that wait at a router r of this package for room at the next (R329). -/
def outEvents (r : Nat) (l : List Crumb) : List Instr :=
  l.filterMap fun c => c.out.map fun i => .interestArrive 36 { i with face := .port r }
/-- Every event some unit inside the package might take next. -/
def State.eventCandidates (s : State) : List Instr :=
    s.dies.flatMap (fun d => dieEvents d.1 d.2) ++ s.ops.flatMap s.opEvent ++ s.msgs.map msgEvent ++
    (s.fibres.mapIdx waitEvent).flatten ++ s.cores.flatMap (fun c => s.coreEvents c.1 c.2) ++
    (s.groups.mapIdx groupEvents).flatten ++ (s.jobs.mapIdx jobEvents).flatten ++
    (if s.jobs.any fun j => j.status.isNone then (List.range 32).map .groupPlace else []) ++
    s.dies.flatMap (fun d => outEvents (36 + d.1) d.2.crumbs) ++ s.pkg.pcrumbs.flatMap (fun p => outEvents p.1 p.2) ++
    s.pkg.progs.flatMap progEvent ++ s.pkg.walks.map (fun w => .tileWalkTile w.id) ++
    s.pkg.early.map (fun e => .fabricPacketArrive e.1 e.2) ++ (s.pkg.retx.filter fun r => r.clk + 150000 ≤ s.clk).map (fun r => .retransmitTimeout r.id) ++
    s.pkg.tdis.flatMap (fun t => t.2.queues.flatMap fun q => q.2.cmds.map (cmdEvent t.1 q.1)) ++
    s.queues.flatMap s.queueEvents ++ (if s.pkg.dbgBusy then [.dbgTokenResult] else [])

/-! ## Fibres that would go on (R82, R150, R151) -/

/-- Whether a fibre waits by trying its word again. -/
def Fibre.retries (f : Fibre) : Bool :=
  match f.run with
  | .waiting .ending => false
  | .waiting _ => f.wait.isNone && f.arrive.isNone
  | _ => false
/-- Whether a fibre's turn, taken now in an active group, would not leave it waiting by trying again: what it waits for has come. -/
def State.wouldGo (s : State) (k : Nat) : Bool :=
  match s.fibre? k with
  | none => false
  | some f =>
    let t : State := { s with groups := s.groups.modify f.grp fun g => { g with active := true } }
    let stays := fun (u : State) => ((u.fibre? k).map (·.retries)).getD true
    match t.prepare k with
    | .done u => !stays u
    | .run u i => match exec i u with
      | .next u => !stays u
      | _ => false
/-- Fibres that wait by trying their word again are woken where it would go on. -/
def State.wakeRetries (s : State) : State := s.mapFibres fun k f => if f.retries then { f with woken := s.wouldGo k } else f

/-! ## Batches (R83, R151) -/

/-- The place of an active group among those of its core (R151): in order of entry. -/
def State.activePlace (s : State) (g : Nat) (x : Group) : Nat :=
  ((sortBy (fun p => p.2.actClk) (s.coreGroups x.coreIx (·.active))).takeWhile fun p => p.1 != g).length
/-- A fibre's order of selection (R151): the clk its issue age counts from, then its group's place, its span, its %fid. -/
def State.selectKey (s : State) (f : Fibre) : Nat :=
  let g := s.group? f.grp
  ((max f.lastClk ((g.map (·.actClk)).getD 0) * 16 + (g.map (s.activePlace f.grp)).getD 0) * 64 + f.fid / 32) * 2048 + f.fid
/-- A fibre added to the batches: to that of its group, span and point, else as a batch of its own. -/
def joinBatch (p : Nat × Fibre) : List (List (Nat × Fibre)) → List (List (Nat × Fibre))
  | [] => [[p]]
  | b :: bs =>
    if b.all fun q => q.2.grp == p.2.grp && q.2.fid / 32 == p.2.fid / 32 && q.2.rp == p.2.rp then (b ++ [p]) :: bs else b :: joinBatch p bs
/-- A core's candidate batches, oldest first; a batch is as old as its oldest member. A fibre whose word would only wait, for a full engine
queue too, is in none (R151). -/
def State.batches (s : State) (core : Nat) : List (List (Nat × Fibre)) :=
  let ready := (s.fibres.mapIdx fun k f => (k, f)).filter fun p =>
    (p.2.kind == .real || p.2.kind == .helper) && (s.site p.2).coreIx == core && s.mayIssue p.2 && s.wouldGo p.1
  (sortBy (fun p => s.selectKey p.2) ready).foldl (fun bs p => joinBatch p bs) []
/-- The issue slots of a core that a new batch can take in this clk. -/
def State.slotsFree (s : State) (core : Nat) : Nat := 4 - (s.core core).slots.length
/-- The fibres that have a turn in this clk: of each core the oldest batches, one of its ready Pacer contexts in turn (R153), and the
control and handler fibres; and ready fibres whose word only begins a wait. -/
def State.issuers (s : State) : List Nat :=
  let all := (s.fibres.mapIdx fun k f => (k, f)).filter fun p => s.mayIssue p.2
  let cores := ((all.map fun p => (s.site p.2).coreIx)).eraseDups
  cores.flatMap fun c =>
    let here := all.filter fun p => (s.site p.2).coreIx == c
    let pacers := here.filter fun p => p.2.isPacer
    let blocked := here.filter fun p => p.2.run == .ready && !p.2.isPacer && !p.2.privileged && !s.wouldGo p.1
    ((s.batches c).take (s.slotsFree c)).flatMap (fun b => b.map (·.1)) ++
      (pacers[s.clk % pacers.length]?.map (·.1)).toList ++ blocked.map (·.1) ++
      (here.filter fun p => p.2.privileged).map (·.1)

/-! ## Turns -/

/-- Whether an instruction is an event row: it has no words. -/
def isEvent (i : Instr) : Bool := (encode i).isEmpty
/-- A fibre's place among those of one clk: ascending die, cluster, core, group, %fid (R281). -/
def State.fibreRank (s : State) (f : Fibre) : Nat :=
  ((s.site f).coreIx * 64 + ((s.group? f.grp).map (·.rgi)).getD 16) * 2048 + f.fid
/-- The order of the turns of one clk where it has an effect: fibres by their place, so that of two MOVSWs to a group's register the higher
%fid's stands (R75) and FORKs take slots in ascending %fid (R113); then counter words at their clusters, DCARM first (R233), and
resolutions at their homes (R281), each by source: by message or packet, by a watched operation, and withdrawals by a rollback on a die. -/
def State.rankOf (s : State) : Who → Option Nat
  | .fibre k => (s.fibre? k).map s.fibreRank
  | .event i =>
    let src := fun (m : Nat) => ((s.msgs.find? fun x => x.id == m).map (·.src)).getD 0
    match i with
    | .dcarmArrive m => some (2 ^ 60 + src m)
    | .dcdecArrive m => some (2 ^ 61 + src m)
    | .resolutionAtHome m => some (2 ^ 62 + src m)
    | .watchedOpResolve d slot => (look slot (s.die d).slots).bind fun x => (s.fibre? x.fib).map fun f => 2 ^ 62 + s.sourceOf f
    | .denyApply d _ => some (2 ^ 62 + sourceKey Config.pkgNumber d 0 0 0 0)
    | .fabricPacketArrive _ p => (match p.body with
      | .resolve _ _ => some (2 ^ 62 + sourceKey p.src p.die p.clu 0 0 0)
      | _ => none)
    | _ => none
/-- Whether a turn would come in this clk after one that follows it in the order of its clk. Of a fibre: also whether it has issued in this
clk already. -/
def State.behind (s : State) (w : Who) : Bool :=
  match s.rankOf w, s.lastTurn with
  | some r, some (c, x) => c == s.clk && (match w with | .fibre _ => decide (r ≤ x) | .event _ => decide (r < x))
  | _, _ => false
/-- Whether a fibre's word would need a fifth issue slot of its core (R83). -/
def State.slotless (s : State) : Who → Bool
  | .event _ => false
  | .fibre k =>
    match s.fibre? k with
    | none => false
    | some f =>
      (f.kind == .real || f.kind == .helper) && decide (s.slotsFree (s.site f).coreIx = 0) &&
        !(s.core (s.site f).coreIx).slots.any fun u => u.grp == f.grp && u.span == f.fid / 32 && u.rp == f.rp && u.start == s.clk
/-- The time before a turn passes, at least as much as the order of the turns of one clk and the issue slots need. -/
def State.await (s : State) (t : Turn) : State :=
  let s := s.pass (if t.delay = 0 && s.behind t.who then 1 else t.delay)
  let s := if s.slotless t.who then s.pass 1 else s
  if s.slotless t.who then s.pass 1 else s
/-- The turn is noted in the order of its clk. -/
def State.noteTurn (s : State) (w : Who) : State :=
  match s.rankOf w with
  | some r => { s with lastTurn := some (s.clk, r) }
  | none => s
/-- One clk without a schedule: the event whose turn it is among those that could come, then every fibre that issues. -/
def State.autoTurns (s : State) : List Turn :=
  let ev := s.eventCandidates
  (ev[s.clk % ev.length]?.map fun i => ⟨0, .event i⟩).toList ++
    (sortBy (fun k => ((s.fibre? k).map s.fibreRank).getD 0) s.issuers).map fun k => ⟨0, .fibre k⟩

/-- The next turn, and the state in which it is taken. Where the schedule is empty it is filled for one clk. -/
def State.nextTurn (s : State) : Option Who × State :=
  match s.turns with
  | t :: ts => (some t.who, ({ s.await t with turns := ts } : State).noteTurn t.who)
  | [] =>
    let s := s.pass 1
    match s.autoTurns with
    | t :: ts => (some t.who, ({ s with turns := ts } : State).noteTurn t.who)
    | [] => (none, s)
/-- What comes about with a step elsewhere: barriers whose phase has changed, exchanges whose last member has come or gone, event
records, job ends. -/
def State.follow (s : State) : State := s.wakeBarriers.meetAll.settle
/-- After an event, fibres that wait by trying their word again try it. -/
def State.followEvent (s : State) : State := s.wakeRetries.follow
/-- Whether an event may act: a package held in reset answers only a reset (R309, R310). -/
def State.admits (s : State) (i : Instr) : Bool := isEvent i && (!s.pkg.held || i == .packageReset)

/-! ## One instruction placed for the host -/

/-- The page and the physical place of a placed instruction. -/
def placeVa : Nat := 0x10000
/-- A job with everything at 0 that its fibre does not need. -/
def placedJob (clk : Nat) : Job :=
  { (default : Job) with entry := w64 placeVa, groups := 1, fibres := 4, regs := 128, tiles := 6, spad := 65536, launchClk := clk,
                         lastIssue := clk, next := [(0, 1)], cohort := 1, clusters := 1 }
/-- A group of four fibres on core 0 with everything a core can give one. -/
def placedGroup (job clk : Nat) : Group :=
  { job := job, gid := 0, die := 0, clu := 0, core := 0, rgi := 0, n := 4, regs := 128, spad := 65536, umap := [0],
    smap := List.range 16, tmap := [0, 1, 2, 3, 4, 5], spec := 0, uhandler := 0, convs := List.replicate 16 ⟨0, [], 0⟩,
    chain := none, slice := none, oqs := [], oqNext := 0, active := true, actClk := clk, unprot := [], age := 0, prio := 0,
    placed := clk, beat := clk, evict := none, tried := [], out := false, savedSp := [], savedTiles := [], savedBad := [], exited := false, freed := false }
/-- The clause around an instruction of n words whose first word is w0: a REP has a target, an INV has a routine. -/
def placeHeader (w0 n : Nat) : Word :=
  let rep := bitsOf w0 26 18 == 0x1F8
  headerWord (if rep then 2 else n) 6 0 0 0 false
/-- The instruction with the bits w stands where the next step fetches: a job with one group, its fibre's turn next. -/
def State.placeInstr (s : State) (nbits w : Nat) : State :=
  let v := w % 2 ^ nbits
  let w0 := BitVec.ofNat 32 v
  let w1 := BitVec.ofNat 32 (v / 2 ^ 32)
  let n := wordCount w0 w1
  let job := s.jobs.length + 1
  let gi := s.groups.length
  let k := s.fibres.length
  let kind : FibreKind := match decodeTableWord nbits w with
    | some i => if pacerOnly i then .pacer else if i.privileged then .control 0 else .real
    | none => .real
  let f := Fibre.fresh kind gi 0 (if kind == .pacer then 32 else 128) (w64 placeVa) 0 s.clk
  let g := placedGroup job s.clk
  let g := if kind == .pacer then { g with slice := some ⟨.running, k, 0⟩ } else g
  let code := wordBytes [placeHeader v n, w0, w1, BitVec.ofNat 32 (v / 2 ^ 64)]
  let s := s.putBytes placeVa (code.take (4 * (n + 1)))
  let s := s.putBytes (placeVa + 4 * (n + 1)) (if bitsOf v 26 18 == 0x1F9 then leBytes 4 0x10000000 else [])
  let s := s.modCore 0 fun c => { c with tlb := ⟨job, placeVa, 65536, placeVa, 0, true, true, true⟩ :: c.tlb }
  let s := s.modPkg fun p => { p with access := assign 0 [(0, 0x000000000FFFFFFFFF0000FFFF000087#128)] p.access }
  { s with
    jobs := s.jobs ++ [placedJob s.clk], groups := s.groups ++ [g], fibres := s.fibres ++ [f],
    turns := ⟨0, .fibre k⟩ :: s.turns, cur := k }


end Sys2Proof.Machine
end

