-- ==== Sys2Proof/Machine/Step.lean ====
section
/-! DEFINITION. One step of the machine: the next turn of the schedule (log 1), the fibre's word or the event it names, and what takes
effect after it; and how the host places one instruction (log 11). -/

namespace Sys2Proof.Machine

/-- What follows a step in the same step. -/
def after (u : State → State) : Host.Outcome State Fault Refusal → Host.Outcome State Fault Refusal
  | .next s => .next (u s)
  | .fault x => .fault x
  | .refused x => .refused x
/-- A turn taken. -/
def State.take (s : State) : Option Who → Host.Outcome State Fault Refusal
  | none => .next s
  | some (.fibre k) =>
    match s.prepare k with
    | .done s => .next s.follow
    | .run s i => after State.follow (exec i s)
  | some (.event i) => if s.admits i then after State.followEvent (exec i s) else .next s
def step (s : State) : Host.Outcome State Fault Refusal := s.nextTurn.2.take s.nextTurn.1

/-- The instruction with the bits w stands where the next step fetches. -/
def State.withFetchWord (s : State) (nbits w : Nat) : State := s.placeInstr nbits w

end Sys2Proof.Machine
end

