-- ==== Sys2Proof/Safety.lean ====
section
/-! DEFINITION. The terms in which claims speak of steps: an instruction that executes, what it leaves of its fibre and of the machine, a
run that goes on, and what every step keeps. -/

namespace Sys2Proof.Machine

/-- The instruction i of the fibre whose turn it is executes: the fibre exists, the word's guard holds (R33), and none of the conditions
that R41 and R259 put before a word holds (a register still to be written, a stall too short, a bad target, a missing privilege, a
poisoned source, an arithmetic report). f is the fibre before the word. -/
def Executes (i : Instr) (s : State) (f : Fibre) : Prop := gate i s = .go f
/-- An outcome that is a next state. -/
def GoesOn (o : Host.Outcome State Fault Refusal) : Prop := ∃ t, o = .next t
/-- A source register as the word reads it. -/
def src (s : State) (f : Fibre) (r : Reg) : Word := f.read s.cur r.toNat
/-- The word of f is done: its effect has left the machine as u and the fibre as g, and the fibre moves past it (R43). -/
def Leaves (i : Instr) (s u : State) (f g : Fibre) : Prop := exec i s = .next (u.finish s.cur i f g)
/-- The word writes the registers ws from d on and raises the conditions c (R87), and does nothing else. -/
def Sets (i : Instr) (s : State) (f : Fibre) (d : Nat) (ws : List Word) (c : Conds) : Prop := Leaves i s s f ((f.setRun d ws).raise c)
/-- The word writes the predicates ps and raises c. -/
def SetsPreds (i : Instr) (s : State) (f : Fibre) (ps : List (Nat × Bool)) (c : Conds) : Prop :=
  Leaves i s s f ((f.setPreds ps).raise c)
/-- The machine u with a result of fibre f in flight: the registers rs are written when it completes (R92). -/
def withResult (u : State) (k : Nat) (f : Fibre) (rs : List (Nat × Word)) : State := u.fresh.2.addOp (resultOp u u.fresh.1 k f rs [])
/-- The word's result comes later; the conditions c are raised at issue. -/
def SetsLater (i : Instr) (s u : State) (f g : Fibre) (rs : List (Nat × Word)) (c : Conds) : Prop :=
  Leaves i s (withResult u s.cur f rs) f (g.raise c)
/-- The word has the n deliveries of its core's noise (R128), those that came while its log had no room among them (R368): none where n is 0. -/
def Draws (s : State) (f : Fibre) (n : Nat) (wide : Bool) (ns : List Nat) (u : State) (g : Fibre) : Prop :=
  (n = 0 ∧ ns = [] ∧ u = s ∧ g = f) ∨ (n ≠ 0 ∧ ∃ vs, s.draw f (n - f.drawn.length) wide = .got vs u ∧ ns = f.drawn ++ vs ∧ g = { f with seq := f.seq + vs.length, drawn := [] })
/-- The word of f, left as g, sends the fibre to the clause header a (R44). -/
def Jumps (i : Instr) (s : State) (f g : Fibre) (a : DWord) : Prop := exec i s = .next (s.finishTo s.cur i f g a)
/-- The word counts as issued and its fibre, left as g in the machine u, waits at it for w. -/
def BeginsWait (i : Instr) (s u : State) (f g : Fibre) (w : Wait) : Prop := exec i s = .next (u.beginWait s.cur i f g w)
/-- An operation of f enters the machine: its number, the fibre with its counter raised and its handle pending, the machine. -/
def launched (s : State) (f : Fibre) (c : Cls) (d : Option Nat) (body : OpBody) : Nat × Fibre × State :=
  s.launchOp s.cur f c d body (s.ordAt f f.rp)
/-- The word sends an asynchronous operation on its way and is done. -/
def Launches (i : Instr) (s : State) (f : Fibre) (c : Cls) (d : Option Nat) (body : OpBody) : Prop :=
  Leaves i s (launched s f c d body).2.2 f (launched s f c d body).2.1
/-- The fibre neither is a helper (R78) nor carries an assumption (R283). -/
def Free (f : Fibre) : Prop := f.isHelper = false ∧ f.tainted = false
/-- No comparator of the fibre's core watches an access (R360). -/
def Unwatched (s : State) (f : Fibre) (sp : Space) (addr n : Nat) (write : Bool) : Prop :=
  ∀ c ∈ (s.core (s.site f).coreIx).cmps, c.watches f (((s.group? f.grp).map (·.rgi)).getD 0) sp addr n write = false
/-- Every address reads the same in two states. -/
def SameMemory (s t : State) : Prop := ∀ a, Memory.get t.mem a = Memory.get s.mem a
/-- Every fibre but k is the same in two states. -/
def OthersSame (k : Nat) (s t : State) : Prop := t.fibres.length = s.fibres.length ∧ ∀ j, j ≠ k → t.fibre? j = s.fibre? j
/-- Queues, messages, barriers' memory, clusters, dies and the package's own registers are the same in two states. -/
def UnitsSame (s t : State) : Prop :=
  t.mem = s.mem ∧ t.poisoned = s.poisoned ∧ t.msgs = s.msgs ∧ t.queues = s.queues ∧ t.clusters = s.clusters ∧ t.dies = s.dies ∧ t.pkg = s.pkg
/-- Every queue holds the same entries in two states; what their releases bring may have grown (R204). -/
def SameEntries (s t : State) : Prop :=
  t.queues.map (fun q => (q.ring ++ q.ext ++ q.spillWait).map (·.words)) = s.queues.map fun q => (q.ring ++ q.ext ++ q.spillWait).map (·.words)
/-- No checkpoint lies in a backing area (R143). -/
def NoneSpilled (s : State) : Prop := ∀ f ∈ s.fibres, ∀ c, f.ckpt = some c → c.spilled = none
/-- Two fibres agree in everything but registers, predicates, their poison and handles, %astat, %mxerr, the noise count, the issue
counts and the place in the code (the clause, the loops, a repeat). -/
def Fibre.Agrees (f g : Fibre) : Prop :=
  g = { f with regs := g.regs, preds := g.preds, poison := g.poison, handles := g.handles, astat := g.astat, mxerr := g.mxerr, seq := g.seq,
               rp := g.rp, hdr := g.hdr, lc := g.lc, loops := g.loops, rc := g.rc, rep := g.rep, run := g.run,
               flight := g.flight, issued := g.issued, lastClk := g.lastClk, reported := g.reported, passCmp := g.passCmp, walked := g.walked,
               useful := g.useful }
/-- The words that only compute into registers and predicates, at issue or later: those of R93 to R104, R117 to R126,
and MOVS (R105). -/
def registerWord : Instr → Bool
  | .add .. | .sub .. | .mul .. | .and .. | .or .. | .xor .. | .andn .. | .shl .. | .shr .. | .sar .. | .rot .. | .mov .. | .neg .. | .abs ..
  | .not .. | .clz .. | .popc .. | .brev .. | .addTyped .. | .subTyped .. | .mulTyped .. | .mulhi .. | .div .. | .rem .. | .minTyped ..
  | .maxTyped .. | .negTyped .. | .absTyped .. | .mad .. | .bfx .. | .bfi .. | .sel .. | .addImm .. | .subImm .. | .mulImm .. | .andImm ..
  | .orImm .. | .xorImm .. | .andnImm .. | .shlImm .. | .shrImm .. | .sarImm .. | .rotImm .. | .minImm .. | .minImmU .. | .maxImm ..
  | .maxImmU .. | .movi .. | .moviLit .. | .movhi .. | .setp .. | .plog .. | .pmovToReg .. | .pmovToPred .. | .movs .. | .fmin .. | .fmax ..
  | .fclass .. | .fcmp .. | .dcmp .. | .fex2 .. | .flg2 .. | .fsin .. | .fcos .. | .ftanh .. | .dqnt .. => true
  | .fadd _ _ _ _ r | .fsub _ _ _ _ r | .fmul _ _ _ _ r | .fdiv _ _ _ _ r | .ffma _ _ _ _ _ r | .frcp _ _ _ r | .fsqrt _ _ _ r
  | .frsq _ _ _ r | .frnd _ _ _ r | .dadd _ _ _ _ r | .dmul _ _ _ _ r | .dfma _ _ _ _ _ r | .hadd2 _ _ _ _ _ r | .hmul2 _ _ _ _ _ r
  | .hfma2 _ _ _ _ _ _ r | .cvt _ _ _ _ r _ _ | .qnt _ _ _ _ r _ _ => r != .sr
  | _ => false
/-- The words that draw noise (R127): RAND, and the others under .sr. -/
def drawingWord : Instr → Bool
  | .rand .. => true
  | .fadd _ _ _ _ r | .fsub _ _ _ _ r | .fmul _ _ _ _ r | .fdiv _ _ _ _ r | .ffma _ _ _ _ _ r | .frcp _ _ _ r | .fsqrt _ _ _ r
  | .frsq _ _ _ r | .frnd _ _ _ r | .dadd _ _ _ _ r | .dmul _ _ _ _ r | .dfma _ _ _ _ _ r | .hadd2 _ _ _ _ _ r | .hmul2 _ _ _ _ _ r
  | .hfma2 _ _ _ _ _ _ r | .cvt _ _ _ _ r _ _ | .qnt _ _ _ _ r _ _ => r == .sr
  | _ => false
/-- The words that send one access to memory (R164, R167). -/
def accessWord : Instr → Bool
  | .ld .. | .st .. | .atom .. | .red .. => true
  | _ => false
/-- What every step keeps: memory stands in its canonical form. -/
def State.Inv (s : State) : Prop := Memory.wf s.mem = true

end Sys2Proof.Machine
end

