-- ==== Sys2Proof/Certificates/Slice0/Obligations.lean ====
section
/-! DEFINITION. The statements for the provers. -/

section
open Sys2Proof Sys2Proof.Machine

/-! ## The step, fetching and decoding (R29 to R59) -/

/-- R43, R45, R82 and log 1: when it is fibre k's turn, its clause is open, and the words at its place, fetched, decode to i with nothing of R56
against them where they stand, the step is exec of i there, and after it what the step lets come about elsewhere; REP and INV first have their
framing judged. A turn of an event is exec of the event. -/
def Obligations.AStepRunsTheDecodedWord : Prop :=
  ∀ (s u v w : State) (k : Nat) (f : Fibre) (r : Raw) (i : Instr),
    (s.nextTurn = (some (.fibre k), u) → u.prepare k = .run w i → step s = after State.follow (exec i w)) ∧
    (s.nextTurn = (some (.fibre k), u) → u.fibre? k = some f → u.mayIssue f = true → f.owed = none → f.lost = false → f.hdr ≠ none → f.rep = none → f.inv = none →
      ({ u with cur := k } : State).fetchInstr f f.rp.idx f.header.count = (.ok r, v) → decode r = .ok i →
      wordCauses f.header.cls f.rp.idx f.header.count (v.allocation f).1 (v.allocation f).2 f.isPacer f.privileged r = [] → f.isPacer = false →
      (r.h.stop = true → v.stopSite k f (BitVec.ofNat 64 f.rp.addr) = (false, v)) →
      ((∀ a b c d e g t, i ≠ .rep a b c d e g t) → (∀ a b c d e g t x y, i ≠ .inv a b c d e g t x y) →
        step s = after State.follow (exec i v)) ∧
      (∀ a b c d e g t, i = .rep a b c d e g t →
        v.prepareRep k f f.header r (v.allocation f).1 (v.allocation f).2 = (none, w) → step s = after State.follow (exec i w)) ∧
      (∀ a b c d e g t x y, i = .inv a b c d e g t x y →
        v.prepareInv k f f.header r [] (v.allocation f).1 (v.allocation f).2 = (none, w) → step s = after State.follow (exec i w))) ∧
    (s.nextTurn = (some (.event i), u) → u.admits i = true → step s = after State.followEvent (exec i u))

/-- R29, R30, R34, R55, R59: a word is fetched from the core's instruction cache, else from memory, little-endian, and then stands in the cache; an
address of 57 bits or more is kind 0x01. A header that is well formed and whose wait is over is latched; stores leave the cache as it is. -/
def Obligations.WordsAreFetched : Prop :=
  ∀ (s t : State) (k : Nat) (f : Fibre) (a : DWord) (w : Word) (loc : Nat) (bs : List Byte),
    let core := (s.site f).coreIx
    (s.cached core (s.jobOf f) a = some w → s.fetchWord f a = (.ok w, s)) ∧
    (s.cached core (s.jobOf f) a = none → 2 ^ 57 ≤ a.toNat → s.fetchWord f a = (.bad 1, s)) ∧
    (s.cached core (s.jobOf f) a = none → a.toNat < 2 ^ 57 → s.find f .g a.toNat 4 .fetch = (.at_ loc, t) → t.poisonedAt loc 4 = false →
      ∃ u, s.fetchWord f a = (.ok (BitVec.ofNat 32 (leNat (t.getBytes loc 4))), u) ∧ u.mem = t.mem ∧ u.fibres = t.fibres ∧
        (t.cached core (s.jobOf f) a = none → u.cached core (s.jobOf f) a = some (BitVec.ofNat 32 (leNat (t.getBytes loc 4))))) ∧
    (f.hdr = none → badHeader f.rp.hdr = false → s.fetchWord f f.rp.hdr = (.ok w, t) → headerCauses w = [] →
      f.isPacer = false ∨ (Header.ofWord w).guard < 16 → f.rp.idx ≠ 0 ∨ f.clauseWaits (Header.ofWord w) = false → s.openClause k f = (none, t.modFibre k fun f => { f with hdr := some w })) ∧
    (s.store loc bs).cached core (s.jobOf f) a = s.cached core (s.jobOf f) a

/-- Words written out from the encodings of R30, R35, R36, R47 and of their instructions decode to them. -/
def Obligations.WordsDecode : Prop :=
  let h : Head := ⟨0, false, false⟩
  decodeTableWord 32 0x20004103 = some (.add ⟨1, false, false⟩ 1 2 3) ∧ decodeTableWord 32 0x0A213FFB = some (.movi ⟨0, false, true⟩ 4 0x3FFB) ∧
  decodeTableWord 32 0x17E80000 = some (.padw ⟨0, true, false⟩) ∧ decodeTableWord 32 0x17F00005 = some (.jmpt ⟨0, true, false⟩ 5) ∧
  decodeTableWord 32 0x07E07E00 = some (.rep false 7 true true true false false) ∧
  decodeTableWord 64 0x0000000303E00000 = some (.loopReg h 0 3) ∧
  decodeTableWord 64 0x9008002205AA0400 = some (.qnt h 40 8 72 .rn true .bfp4) ∧
  decodeTableWord 96 0x000000200400004607600800 = some (.mma h 0 16 0 2 false false false false true false .bfp8 0 false 0 32) ∧
  decodeTableWord 64 0x204000050780050B = some (.dcarm h 10 11 16 5) ∧
  decodeTableWord 64 0x010000021781540A = some (.guess ⟨0, true, false⟩ 5 40 10 0 .s32 0 false false true false) ∧
  decodeTableWord 64 0x2800001807AA0504 = some (.puts h 40 10 4 20 0 false true true .sp) ∧
  decodeTableWord 64 0x0E03E00007E42864 = some (.inv h 5 6 1 .fp32 7 false 0 31) ∧
  decodeTableWord 64 0x1030000007C28205 = some (.awwr h 10 4 5 8) ∧ decodeTableWord 64 0x0010000007C00000 = some (.rft h 0 false .ret) ∧
  decodeTableWord 64 0x0090010307C0060D = some (.trace h 12 13 true 3)

/-- The encoder and the decoder agree on every well-formed instruction, every field at every value its encoding admits. An event row has no words. -/
def Obligations.EncodedWordsDecode : Prop := ∀ i : Instr, WellFormed i → encode i ≠ [] → decode (rawOf (encode i)) = .ok i

/-- R47 and R56: a reserved major opcode is cause 0x01, and whatever decodes is well-formed: no word with a field that the spec forbids decodes. -/
def Obligations.DecodingRejects : Prop :=
  (∀ r : Raw, 0x14 ≤ r.major.toNat ∧ r.major.toNat ≤ 0x17 ∨ 0x29 ≤ r.major.toNat ∧ r.major.toNat ≤ 0x2B → decode r = .error 1) ∧
  ∀ (r : Raw) (i : Instr), decode r = .ok i → WellFormed i

/-! ## What every step keeps, and memory (R5) -/

/-- The machine right after reset: %clk 0 (R105), no job, the control cores' 32 fibres alone (R210), the reset values of R242, R252 to R254, R309,
R317, R318, R358 and R368, and an access table that lists target 81 only (R308). -/
def Obligations.ResetHolds : Prop :=
  let s := State.reset
  s.clk = 0 ∧ s.jobs = [] ∧ s.queues = [] ∧ s.ops = [] ∧ s.fibres.length = 32 ∧ (∀ f ∈ s.fibres, f.isControl = true) ∧
  (∀ c, (s.core c).cmps = List.replicate 8 ⟨0, 0xFFFF0800⟩ ∧ (s.core c).icache = [] ∧ (s.core c).tlb = [] ∧ (s.core c).trapq = [] ∧
    (s.core c).cecc = 0 ∧ (s.core c).cdbg = 0 ∧ (s.core c).cnsc = 0 ∧ (s.core c).ctdc = 0 ∧ (s.core c).td = List.replicate 20 0) ∧
  (∀ d, (s.die d).wsctl = 0 ∧ (s.die d).decc = 0 ∧ (s.die d).dtinvc = 0 ∧ (s.die d).walks = [] ∧ (s.die d).slots = [] ∧ (s.die d).dead = false) ∧
  s.pkg.salpol = 0x00002F05 ∧ s.pkg.fpstat = List.replicate 36 0 ∧ s.pkg.routes = [] ∧ s.pkg.held = false ∧ s.pkg.dbgFeat = 0 ∧
  ∀ t, t ≠ 81 → look t s.pkg.access = none

/-- Memory at reset lists nothing and stands in its canonical form; every byte then reads as log 3 says. -/
def Obligations.ResetMemoryIsCanonical : Prop :=
  State.reset.Inv ∧ ∀ a, Memory.get State.reset.mem a = Config.emptyByte

/-- Every step keeps memory in its canonical form, whatever runs. -/
def Obligations.StepsKeepMemoryCanonical : Prop := ∀ s t : State, s.Inv → step s = .next t → t.Inv

/-- Every step answers a next state: no word and no event ends a run. -/
def Obligations.EveryStepGoesOn : Prop := ∀ s : State, GoesOn (step s)

/-- Canonical memories that read the same are the same; a store changes its own bytes and no other, reads back what it wrote, and keeps the form; the
bytes of a word are little-endian (R5). -/
def Obligations.MemoryReadsBack : Prop :=
  (∀ m n : List Host.Cell, Memory.wf m = true → Memory.wf n = true → (∀ a, Memory.get m a = Memory.get n a) → m = n) ∧
  (∀ (s : State) (loc : Nat) (bs : List Byte), s.Inv → (s.store loc bs).Inv ∧
    (∀ i (h : i < bs.length), Memory.get (s.store loc bs).mem (loc + i) = bs[i]) ∧
    (∀ a, a < loc ∨ loc + bs.length ≤ a → Memory.get (s.store loc bs).mem a = Memory.get s.mem a)) ∧
  (∀ (w : DWord) (i : Nat), i < 8 → (leBytes 8 w.toNat)[i]? = some ((w >>> (8 * i)).setWidth 8)) ∧
  ∀ x n : Nat, leNat (leBytes n x) = x % 256 ^ n

/-! ## Frames (R41, R43, R87, R165) -/

/-- R41 and R43: a word that is done leaves the machine as its effect left it: of its fibre only the place in the code, the repeat and the loops
move; nothing happens to another fibre, to memory, to a queue, to a counter or an operation in flight. Inside a clause the next word follows. -/
def Obligations.AWordDoneLeavesTheRest : Prop :=
  ∀ (i : Instr) (s u t : State) (f g f0 : Fibre), Leaves i s u f g → exec i s = .next t → g.inv = none → u.fibre? s.cur = some f0 →
    UnitsSame u t ∧ OthersSame s.cur u t ∧ t.ops = u.ops ∧ t.clk = u.clk ∧ t.turns = u.turns ∧ t.nextId = u.nextId ∧
    ∃ x, t.fibre? s.cur = some x ∧ g.Agrees x ∧ x.regs = g.regs ∧ x.preds = g.preds ∧ x.astat = g.astat ∧ x.mxerr = g.mxerr ∧
      x.poison = g.poison ∧ x.handles = g.handles ∧ x.issued = f.issued + 1 ∧
      (g.rep = none → g.rp.idx + i.size < g.header.count → x.rp = ⟨g.rp.hdr, g.rp.idx + i.size⟩ ∧ x.hdr = g.hdr ∧ x.lc = g.lc ∧ x.loops = g.loops ∧ x.rc = g.rc)

/-- A word that only computes changes no register and no predicate but its destinations, only raises bits of %astat, and leaves every special
register of its fibre, every other fibre and all of memory alone; what comes later is one operation that writes its destinations. R127 and R368:
a word that draws noise does the same to the registers; memory it changes nowhere but in its core's noise log, and there only in log mode. A
replay stop is no draw. -/
def Obligations.ComputingWordsLeaveTheRest : Prop :=
  (
    ∀ (i : Instr) (s t : State) (f : Fibre), registerWord i = true → Executes i s f → f.inv = none → exec i s = .next t →
      UnitsSame s t ∧ OthersSame s.cur s t ∧ t.clk = s.clk ∧
      (t.ops = s.ops ∨ ∃ rs, t.ops = s.ops ++ [resultOp s s.nextId s.cur f rs []] ∧ ∀ e ∈ rs, e.1 ∈ i.slots) ∧
      ∃ g, t.fibre? s.cur = some g ∧ f.Agrees g ∧ (∀ r, r ∉ i.slots → g.reg r = f.reg r) ∧
        (∀ p, 128 + p ∉ i.slots → g.pred p = f.pred p) ∧ g.astat &&& f.astat = f.astat) ∧
  (
    ∀ (i : Instr) (s t : State) (f : Fibre), drawingWord i = true → Executes i s f → f.inv = none → (∀ n wide c, s.draw f n wide ≠ .stop c) →
      exec i s = .next t →
      let core := (s.site f).coreIx
      (s.noiseModeOf core ≠ 1 → t.mem = s.mem) ∧
      (∀ a, (∀ n, a < (s.core core).noiseAt n ∨ (s.core core).noiseAt n + 16 ≤ a) → Memory.get t.mem a = Memory.get s.mem a) ∧
      OthersSame s.cur s t ∧ t.queues = s.queues ∧ t.msgs = s.msgs ∧ t.dies = s.dies ∧ t.clk = s.clk ∧
      ∃ g, t.fibre? s.cur = some g ∧ (∀ r, r ∉ i.slots → g.reg r = f.reg r) ∧ g.preds = f.preds ∧ g.lr = f.lr ∧ g.atrap = f.atrap ∧ g.xr = f.xr ∧
        g.ks = f.ks ∧ g.astat &&& f.astat = f.astat)

/-- R165: a word that sends an access writes no memory and no predicate when it issues, and no register but an atomic's destination, which it writes
only in a helper. R164, R167, R288: an access in its turn changes no memory but the bytes at the place its address translated to, a load none; a
management register's window apart, where the register's own rules hold, and a watch's record apart (R360). -/
def Obligations.AccessesLeaveTheRest : Prop :=
  (
    ∀ (i : Instr) (s t : State) (f : Fibre), accessWord i = true → Executes i s f → f.inv = none → (f.isPacer = true → NoneSpilled s) →
      exec i s = .next t →
      t.mem = s.mem ∧ t.queues = s.queues ∧ t.clk = s.clk ∧
      (f.isPacer = false → OthersSame s.cur s t ∧ ∃ g, t.fibre? s.cur = some g ∧ g.preds = f.preds ∧ g.lr = f.lr ∧ g.astat = f.astat ∧
        g.atrap = f.atrap ∧ g.mxerr = f.mxerr ∧ g.xr = f.xr ∧ g.ks = f.ks ∧
        (f.isHelper = false → g.regs = f.regs) ∧ ∀ r, r ∉ i.slots → g.reg r = f.reg r)) ∧
  (
    ∀ (op loc : Nat) (s t : State) (o : Op) (a : Access) (i : Instr), s.op? op = some o → o.body = .mem a (.at_ loc) →
      i = .loadDataArrival op ∨ i = .storeAck op ∨ i = .scratchpadLoadComplete op → exec i s = .next t → regOffset loc = none →
      (∀ f, s.fibre? o.fib = some f → Unwatched s f a.space a.addr.toNat a.size a.kind.writes ∧ (f.isPacer = true → NoneSpilled s)) →
      (a.kind = .ld → SameMemory s t) ∧
      (∀ x, x < loc ∨ loc + a.size ≤ x → Memory.get t.mem x = Memory.get s.mem x) ∧
      SameEntries s t ∧ t.clk = s.clk)

/-! ## Integer words (R91 to R105) -/

/-- R93, whole: the one-word forms compute d = a op b on 32 bits by its table, and where a two-word form exists with ty = INT32 and mods = 0 it gives
the same registers and conditions. -/
def Obligations.OneWordFormsCompute : Prop :=
  ∀ (h : Head) (d a b : Reg) (s : State) (f : Fibre),
    (Executes (.add h d a b) s f → Sets (.add h d a b) s f d.toNat [src s f a + src s f b] Conds.none) ∧
    (Executes (.sub h d a b) s f → Sets (.sub h d a b) s f d.toNat [src s f a - src s f b] Conds.none) ∧
    (Executes (.mul h d a b) s f → Sets (.mul h d a b) s f d.toNat [src s f a * src s f b] Conds.none) ∧
    (Executes (.and h d a b) s f → Sets (.and h d a b) s f d.toNat [src s f a &&& src s f b] Conds.none) ∧
    (Executes (.or h d a b) s f → Sets (.or h d a b) s f d.toNat [src s f a ||| src s f b] Conds.none) ∧
    (Executes (.xor h d a b) s f → Sets (.xor h d a b) s f d.toNat [src s f a ^^^ src s f b] Conds.none) ∧
    (Executes (.andn h d a b) s f → Sets (.andn h d a b) s f d.toNat [src s f a &&& ~~~src s f b] Conds.none) ∧
    (Executes (.shl h d a b) s f → Sets (.shl h d a b) s f d.toNat
      [if (src s f b).toNat < 32 then src s f a <<< (src s f b).toNat else 0] Conds.none) ∧
    (Executes (.shr h d a b) s f → Sets (.shr h d a b) s f d.toNat
      [if (src s f b).toNat < 32 then src s f a >>> (src s f b).toNat else 0] Conds.none) ∧
    (Executes (.sar h d a b) s f → Sets (.sar h d a b) s f d.toNat
      [if (src s f b).toNat < 32 then (src s f a).sshiftRight (src s f b).toNat
       else if (src s f a).getLsbD 31 then 0xFFFFFFFF else 0] Conds.none) ∧
    (Executes (.rot h d a b) s f → Sets (.rot h d a b) s f d.toNat [(src s f a).rotateLeft ((src s f b).toNat % 32)] Conds.none) ∧
    (Executes (.addTyped h d a b .s32 false) s f → Sets (.addTyped h d a b .s32 false) s f d.toNat [src s f a + src s f b] Conds.none) ∧
    (Executes (.subTyped h d a b .s32 false) s f → Sets (.subTyped h d a b .s32 false) s f d.toNat [src s f a - src s f b] Conds.none) ∧
    (Executes (.mulTyped h d a b .s32 false) s f → Sets (.mulTyped h d a b .s32 false) s f d.toNat [src s f a * src s f b] Conds.none)

/-- R94, whole: the forms of major 0x0B on one register, and cause 0x02 for every other f. MOV also copies the pending handle of its source (R170). -/
def Obligations.OneRegisterFormsCompute : Prop :=
  (∀ (h : Head) (d a : Reg) (s : State) (f : Fibre),
    (Executes (.mov h d a) s f → Leaves (.mov h d a) s s f
      (match f.handle? a.toNat with
       | some op => (f.setReg d.toNat (src s f a)).setHandle d.toNat op
       | none => f.setReg d.toNat (src s f a))) ∧
    (Executes (.neg h d a) s f → Sets (.neg h d a) s f d.toNat [0 - src s f a] Conds.none) ∧
    (Executes (.abs h d a) s f → Sets (.abs h d a) s f d.toNat
      [if (src s f a).getLsbD 31 then 0 - src s f a else src s f a] Conds.none) ∧
    (Executes (.not h d a) s f → Sets (.not h d a) s f d.toNat [~~~src s f a] Conds.none) ∧
    (Executes (.clz h d a) s f → ∃ n : Nat, n ≤ 32 ∧ (∀ i, 32 - n ≤ i → i < 32 → (src s f a).getLsbD i = false) ∧
      (n < 32 → (src s f a).getLsbD (31 - n) = true) ∧ Sets (.clz h d a) s f d.toNat [BitVec.ofNat 32 n] Conds.none) ∧
    (Executes (.popc h d a) s f → Sets (.popc h d a) s f d.toNat
      [BitVec.ofNat 32 (((List.range 32).filter fun i => (src s f a).getLsbD i).length)] Conds.none) ∧
    (Executes (.brev h d a) s f → ∃ v : Word, (∀ i, i < 32 → v.getLsbD i = (src s f a).getLsbD (31 - i)) ∧
      Sets (.brev h d a) s f d.toNat [v] Conds.none)) ∧
  ∀ r : Raw, r.major = 0x0B → 7 ≤ r.b.toNat → decode r = .error 2

/-- R95 and R97: a typed form computes on exact integers, wraps to its type, or under .sat clamps and raises SAT; the result is extended to the
register (R91). R96 without its times: DIV truncates toward zero and REM takes the sign of a; by zero, and of MIN by −1, they give the values of
the table and raise DZ or SAT. Their results come later (R92). -/
def Obligations.TypedFormsCompute : Prop :=
  (
    ∀ (h : Head) (d a b c : Reg) (ty : Ty) (sat : Bool) (s : State) (f : Fibre),
      let x := f.intOperand s.cur ty a
      let y := f.intOperand s.cur ty b
      let z := f.intOperand s.cur ty c
      let out := fun (i : Instr) (clamps : Bool) (v : Int) =>
        Executes i s f → Sets i s f d.toNat (intResult ty (if clamps then max (tyMin ty) (min (tyMax ty) v) else v))
          (if clamps && (v < tyMin ty || tyMax ty < v) then { sat := true } else Conds.none)
      out (.addTyped h d a b ty sat) sat (x + y) ∧ out (.subTyped h d a b ty sat) sat (x - y) ∧ out (.mulTyped h d a b ty sat) sat (x * y) ∧
      out (.mulhi h d a b ty) false ((x * y).fdiv (2 ^ ty.width : Nat)) ∧ out (.minTyped h d a b ty) false (min x y) ∧
      out (.maxTyped h d a b ty) false (max x y) ∧ out (.negTyped h d a ty sat) sat (-x) ∧
      out (.absTyped h d a ty sat) sat (if x < 0 then -x else x) ∧ out (.mad h d a b c ty sat) sat (x * y + z)) ∧
  (
    ∀ (h : Head) (d a b : Reg) (ty : Ty) (sat : Bool) (s : State) (f : Fibre), ty.isInt = true →
      let x := f.intOperand s.cur ty a
      let y := f.intOperand s.cur ty b
      let later := fun (i : Instr) (v : Int) (c : Conds) => Executes i s f → SetsLater i s s f f (runOf d.toNat (intResult ty v)) c
      (y = 0 → later (.div h d a b ty sat) (if ty.signed && x < 0 then tyMin ty else tyMax ty) { dz := true } ∧
        later (.rem h d a b ty) x { dz := true }) ∧
      (y = -1 → x = tyMin ty → later (.div h d a b ty sat) (if sat then tyMax ty else x) (if sat then { sat := true } else Conds.none) ∧
        later (.rem h d a b ty) 0 Conds.none) ∧
      (y ≠ 0 → ¬(y = -1 ∧ x = tyMin ty) → later (.div h d a b ty sat) (x.tdiv y) Conds.none ∧ later (.rem h d a b ty) (x.tmod y) Conds.none))

/-- R98, whole: the immediate forms give the results of the register forms with b = L, and f 15 to 127 is cause 0x02. -/
def Obligations.ImmediateFormsCompute : Prop :=
  (∀ (h : Head) (d a : Reg) (l : Word) (s : State) (f : Fibre),
    let x := src s f a
    let n := l.toNat
    (Executes (.addImm h d a l) s f → Sets (.addImm h d a l) s f d.toNat [x + l] Conds.none) ∧
    (Executes (.subImm h d a l) s f → Sets (.subImm h d a l) s f d.toNat [x - l] Conds.none) ∧
    (Executes (.mulImm h d a l) s f → Sets (.mulImm h d a l) s f d.toNat [x * l] Conds.none) ∧
    (Executes (.andImm h d a l) s f → Sets (.andImm h d a l) s f d.toNat [x &&& l] Conds.none) ∧
    (Executes (.orImm h d a l) s f → Sets (.orImm h d a l) s f d.toNat [x ||| l] Conds.none) ∧
    (Executes (.xorImm h d a l) s f → Sets (.xorImm h d a l) s f d.toNat [x ^^^ l] Conds.none) ∧
    (Executes (.andnImm h d a l) s f → Sets (.andnImm h d a l) s f d.toNat [x &&& ~~~l] Conds.none) ∧
    (Executes (.shlImm h d a l) s f → Sets (.shlImm h d a l) s f d.toNat [if n < 32 then x <<< n else 0] Conds.none) ∧
    (Executes (.shrImm h d a l) s f → Sets (.shrImm h d a l) s f d.toNat [if n < 32 then x >>> n else 0] Conds.none) ∧
    (Executes (.sarImm h d a l) s f → Sets (.sarImm h d a l) s f d.toNat
      [if n < 32 then x.sshiftRight n else if x.getLsbD 31 then 0xFFFFFFFF else 0] Conds.none) ∧
    (Executes (.rotImm h d a l) s f → Sets (.rotImm h d a l) s f d.toNat [x.rotateLeft (n % 32)] Conds.none) ∧
    (Executes (.minImm h d a l) s f → Sets (.minImm h d a l) s f d.toNat [if x.toInt < l.toInt then x else l] Conds.none) ∧
    (Executes (.minImmU h d a l) s f → Sets (.minImmU h d a l) s f d.toNat [if x.toNat < l.toNat then x else l] Conds.none) ∧
    (Executes (.maxImm h d a l) s f → Sets (.maxImm h d a l) s f d.toNat [if x.toInt < l.toInt then l else x] Conds.none) ∧
    (Executes (.maxImmU h d a l) s f → Sets (.maxImmU h d a l) s f d.toNat [if x.toNat < l.toNat then l else x] Conds.none)) ∧
  ∀ r : Raw, r.major = 0x10 → 15 ≤ r.b.toNat → decode r = .error 2

/-- R99, but for what an assembler takes: MOVI writes its sign-extended immediate or its literal, MOVHI writes its literal to the odd register of its
pair only; a nonzero imm14 beside a literal is cause 0x03, an odd register outside the allocation is cause 0x06. R100, on bits: BFX gives the
field of a from pos on, zero- or sign-extended; BFI gives c with the field replaced. len is cut to the width W, and a len of 0 or a pos of W or
more gives 0, or c; ty is one of the four of 32 and 64 bits, with b even where it names a pair, and c, rnd and mods are 0 for BFX. -/
def Obligations.LiteralsAndBitFields : Prop :=
  (
    (∀ (h : Head) (d : Reg) (imm : BitVec 14) (l : Word) (s : State) (f : Fibre),
      (Executes (.movi h d imm) s f → Sets (.movi h d imm) s f d.toNat [imm.signExtend 32] Conds.none) ∧
      (Executes (.moviLit h d l) s f → Sets (.moviLit h d l) s f d.toNat [l] Conds.none) ∧
      (Executes (.movhi h d l) s f → Sets (.movhi h d l) s f (d.toNat + 1) [l] Conds.none)) ∧
    ∀ r : Raw, (r.major = 0x12 ∨ r.major = 0x13 → r.imm14 ≠ 0 → decode r = .error 3) ∧
      (∀ h d l, decode r = .ok (.movhi h d l) → d.toNat % 2 = 0) ∧
      ∀ cls idx count nregs ntiles pacer priv, r.major = 0x13 → nregs ≤ r.d.toNat + 1 → 6 ∈ wordCauses cls idx count nregs ntiles pacer priv r) ∧
  (
    (∀ (h : Head) (d a b c : Reg) (ty : Ty) (s : State) (f : Fibre),
      let w := ty.width
      let x := f.operand s.cur ty a
      let z := f.operand s.cur ty c
      let pos := (src s f b).toNat % 256
      let len := min ((src s f b).toNat / 256 % 256) w
      (Executes (.bfx h d a b ty) s f → ∃ v : Nat, v < 2 ^ w ∧
        (∀ j, j < w → v.testBit j = (decide (len ≠ 0) && decide (pos < w) &&
          if j < len then x.testBit (pos + j) else ty.signed && x.testBit (pos + len - 1))) ∧
        Sets (.bfx h d a b ty) s f d.toNat (tyWords ty v) Conds.none) ∧
      (Executes (.bfi h d a b c ty) s f → ∃ v : Nat,
        (∀ j, j < w → v.testBit j = if len ≠ 0 ∧ pos ≤ j ∧ j < pos + len then x.testBit (j - pos) else z.testBit j) ∧
        Sets (.bfi h d a b c ty) s f d.toNat (tyWords ty v) Conds.none)) ∧
    ∀ (r : Raw) (h : Head) (d a b c : Reg) (ty : Ty), let fits := ty ∈ [.s32, .ui32, .s64, .ui64] ∧ (ty.is64 = true → b.toNat % 2 = 0)
      (decode r = .ok (.bfx h d a b ty) → fits ∧ r.major = 0x0E ∧ r.fn = 0 ∧ r.c = 0 ∧ r.rnd = 0 ∧ r.mods = 0) ∧
      (decode r = .ok (.bfi h d a b c ty) → fits ∧ r.major = 0x0E ∧ r.fn = 1))

/-- R101: SEL moves a where its predicate holds, else b, 32 bits for ty 0, 1 and 8 and a pair for ty 2, 3 and 9; any other ty is cause 0x09; with p0
it always selects a. SETP (R102) writes the bit of its outcome mask, merged where its merge bit is set. -/
def Obligations.SelectAndCompareCompute : Prop :=
  (∀ (h : Head) (d a b c : Reg) (ty : Ty) (cond : BitVec 3) (merge : Bool) (tbl : BitVec 4) (s : State) (f : Fibre),
    (Executes (.sel h d a b c ty) s f →
      let r := if f.readPred s.cur c.toNat then a else b
      Sets (.sel h d a b c ty) s f d.toNat
        (if ty ∈ [.s64, .ui64, .f64] then [f.read s.cur r.toNat, f.read s.cur (r.toNat + 1)] else [src s f r]) Conds.none) ∧
    (Executes (.sel h d a b 0 ty) s f → f.flight = [] → Sets (.sel h d a b 0 ty) s f d.toNat
      (if ty ∈ [.s64, .ui64, .f64] then [f.read s.cur a.toNat, f.read s.cur (a.toNat + 1)] else [src s f a]) Conds.none) ∧
    (Executes (.setp h d a b c cond ty merge tbl) s f →
      let x := f.intOperand s.cur ty a
      let y := f.intOperand s.cur ty b
      let r := cond.getLsbD (if x < y then 0 else if x = y then 1 else 2)
      SetsPreds (.setp h d a b c cond ty merge tbl) s f
        [(d.toNat, if merge then tbl.getLsbD (2 * (if r then 1 else 0) + (if f.readPred s.cur c.toNat then 1 else 0)) else r)] Conds.none)) ∧
  (∀ r : Raw, r.major = 0x0F → r.fn = 0 → r.rnd = 0 → r.mods = 0 → r.c.toNat < 96 → r.ty.toNat ∉ [0, 1, 2, 3, 8, 9] → decode r = .error 9) ∧
  ∀ (r : Raw) (h : Head) (d a b c : Reg) (ty : Ty), decode r = .ok (.sel h d a b c ty) → c.toNat < 96

/-- R103 and R104: PLOG writes the bit of its truth table that its three predicates name, PMOV moves a block of 32 predicates, bit j of the word for
predicate 32K + j; a block number above 2 is cause 0x06, an f above 1 cause 0x02, and PLOG decodes only with mods [12:8], ty and rnd 0. R2 and
R104: every predicate but p0 reads what was written last, p0 reads 1 and discards what is written to it. -/
def Obligations.PredicateWordsCompute : Prop :=
  (
    (∀ (h : Head) (d a b c : Reg) (tbl : BitVec 8) (s : State) (f : Fibre),
      let one := fun (p : Reg) => if f.readPred s.cur p.toNat then 1 else 0
      (Executes (.plog h d a b c tbl) s f →
        SetsPreds (.plog h d a b c tbl) s f [(d.toNat, tbl.getLsbD (4 * one a + 2 * one b + one c))] Conds.none) ∧
      (Executes (.pmovToReg h d a) s f → ∃ v : Word, (∀ j, j < 32 → v.getLsbD j = f.readPred s.cur (32 * a.toNat + j)) ∧
        Sets (.pmovToReg h d a) s f d.toNat [v] Conds.none) ∧
      (Executes (.pmovToPred h d a) s f → SetsPreds (.pmovToPred h d a) s f
        ((List.range 32).map fun j => (32 * d.toNat + j, (src s f a).getLsbD j)) Conds.none)) ∧
    ∀ r : Raw, (r.major = 0x1A → (r.b = 0 ∧ 3 ≤ r.a.toNat ∨ r.b = 1 ∧ 3 ≤ r.d.toNat) → decode r = .error 6) ∧
      (r.major = 0x1A → 2 ≤ r.b.toNat → decode r = .error 2) ∧
      ∀ h d a b c t, decode r = .ok (.plog h d a b c t) → r.major = 0x19 ∧ r.fn = 0 ∧ r.mods.toNat < 256 ∧ r.ty = 0 ∧ r.rnd = 0) ∧
  (
    ∀ (f : Fibre) (p q : Nat) (v : Bool), (f.setPred p v).pred 0 = true ∧ (f.setPred 0 v) = f ∧
      (p ≠ 0 → p < 96 → (f.setPred p v).pred p = v) ∧ (q ≠ p → (f.setPred p v).pred q = f.pred q))

/-- R105 and R48: MOVS reads the register its number names, MOVSW writes it: of the fibre, or of its group for %spec and %uhandler, which a helper
leaves alone. -/
def Obligations.SpecialRegistersMove : Prop :=
  ∀ (h : Head) (d a : Reg) (s : State) (f : Fibre),
    let v := src s f d
    let pair := joinPair (src s f d) (f.read s.cur (d.toNat + 1))
    let writes := fun (g : Fibre) => Leaves (.movsw h d a) s s f g
    (Executes (.movs h d a) s f → Sets (.movs h d a) s f d.toNat (s.readSpecial f a.toNat) Conds.none) ∧
    (Executes (.movsw h d a) s f →
      (a.toNat = 0x08 → writes { f with lr := pair }) ∧
      (a.toNat = 0x09 → writes (if f.loops = [] then f else { f with lc := v })) ∧
      (a.toNat = 0x0A → f.rep = none → f.inH = false → writes f) ∧
      (a.toNat = 0x0F → writes { f with astat := v &&& 0x3F3F }) ∧
      (a.toNat = 0x10 → writes { f with atrap := v &&& 0x3F }) ∧
      (a.toNat = 0x11 → writes { f with mxerr := v &&& 0xFFFF000D }) ∧
      (a.toNat = 0x15 → writes { f with xr := { f.xr with opc := v } }) ∧
      (a.toNat = 0x1A → writes { f with xr := { f.xr with cls := v } }) ∧
      (0x20 ≤ a.toNat → a.toNat ≤ 0x27 → writes { f with ks := f.ks.set (a.toNat - 0x20) v }) ∧
      (a.toNat = 0x14 → f.isHelper = true → writes f) ∧
      (a.toNat = 0x14 → f.isHelper = false →
        Leaves (.movsw h d a) s (s.modGroup f.grp fun g => { g with uhandler := pair }) f f) ∧
      (a.toNat = 0x13 → f.isHelper = false →
        Leaves (.movsw h d a) s (s.modGroup f.grp fun g => { g with spec := v &&& 1 }) f f))

/-! ## Issue and control (R33, R41, R44, R49 to R58, R79, R80, R105 to R113) -/

/-- R33, R41, R44, R59, R161, R166, R259, R87: a word of the current fibre executes where nothing of its guard, registers, privilege and poison
stands against it. R33: a word whose guard predicate, known, does not hold is discarded: no register, predicate or condition bit changes, no
memory, queue, message or other fibre; inside its clause the fibre stands behind it. -/
def Obligations.WordsExecuteOrAreDiscarded : Prop :=
  (
    ∀ (i : Instr) (s : State) (f : Fibre), s.fibre? s.cur = some f →
      (i.head.g = true → 128 + f.header.guard ∉ s.pendingSlots s.cur ∧ f.guardHolds s.cur = true) →
      (∀ x ∈ i.sources ++ i.slots, x ∉ s.pendingSlots s.cur) → (∀ r ∈ i.reads.flatMap Run.regs, f.handle? r = none) →
      f.flight = [] → f.poison = [] → (∀ a, f.target s.cur i = some a → badHeader a = false) →
      (i.privileged = true → f.privileged = true) → (i.reports = true → f.reported = true ∨ f.reportable = 0) → Executes i s f) ∧
  (
    ∀ (i : Instr) (s : State) (f : Fibre) (body : Nat → Fibre → State), s.fibre? s.cur = some f → i.head.g = true →
      128 + f.header.guard ∉ s.pendingSlots s.cur → (f.readPred s.cur f.header.guard = f.header.pol) →
      issueWord i s body = .next (s.finishOff s.cur i f) ∧
      let t := s.finishOff s.cur i f
      UnitsSame s t ∧ OthersSame s.cur s t ∧ t.ops = s.ops ∧ t.clk = s.clk ∧ t.nextId = s.nextId ∧
        ∃ x, t.fibre? s.cur = some x ∧ f.Agrees x ∧ x.regs = f.regs ∧ x.preds = f.preds ∧ x.astat = f.astat ∧ x.mxerr = f.mxerr ∧
          (f.rep = none → f.inv = none → f.rp.idx + i.size < f.header.count → x.rp = ⟨f.rp.hdr, f.rp.idx + i.size⟩))

/-- R44 and R106: a branch goes to its target, a call leaves the header after its clause in %lr; BRX, CALLX and RET take theirs from registers. R53:
JMPT goes to the address its trampoline entry holds; an index past the table, and an entry of 0 or no clause header, are a user trap of cause
0x0B. R74, R79 and R113: FORK of an untainted fibre whose accesses are complete, with nothing still to be written to w0 to w7, fences at group
scope and starts a fibre in the lowest free slot at its target, with w0 to w7 as the parent reads them, and returns its number; with no free
slot, and in a helper, it returns 0xFFFF_FFFF. -/
def Obligations.ControlWordsAct : Prop :=
  (
    ∀ (h : Head) (off : BitVec 21) (a : Reg) (s : State) (f : Fibre),
      let near := f.pc + (off.signExtend 64 <<< 2)
      let far := joinPair (src s f a) (f.read s.cur (a.toNat + 1))
      (Executes (.bra h off) s f → Jumps (.bra h off) s f f near) ∧
      (Executes (.call h off) s f → Jumps (.call h off) s f { f with lr := f.nextClause } near) ∧
      (Executes (.brx h a) s f → Jumps (.brx h a) s f f far) ∧
      (Executes (.callx h a) s f → Jumps (.callx h a) s f { f with lr := f.nextClause } far) ∧
      (Executes (.ret h) s f → Jumps (.ret h) s f f f.lr)) ∧
  (
    ∀ (h : Head) (idx : BitVec 20) (s t : State) (f : Fibre) (j : Job) (loc : Nat), Executes (.jmpt h idx) s f → s.job? (s.jobOf f) = some j →
      let e := w64 (leNat (t.getBytes loc 8))
      let traps := fun (u : State) => exec (.jmpt h idx) s = .next (u.userTrap s.cur
        (wordTrap f (s.issuedWords f (.jmpt h idx)).1 (s.issuedWords f (.jmpt h idx)).2 0x0B) f.rp false)
      (j.trampN ≤ idx.toNat → traps s) ∧
      (idx.toNat < j.trampN → s.walkBlocked f .g (j.tramp + BitVec.ofNat 64 (8 * idx.toNat)).toNat 8 .read = false → s.findNow f .g (j.tramp + BitVec.ofNat 64 (8 * idx.toNat)).toNat 8 .read = (.at_ loc, t) →
        t.poisonedAt loc 8 = false →
        (e = 0 ∨ badHeader e = true → traps t) ∧
        (e ≠ 0 → badHeader e = false → exec (.jmpt h idx) s = .next (t.finishTo s.cur (.jmpt h idx) f f e)))) ∧
  (
    ∀ (h : Head) (d : Reg) (off : BitVec 32) (s : State) (f : Fibre), Executes (.fork h d off) s f →
      let gives := fun (u : State) (g : Fibre) (v : Word) => Leaves (.fork h d off) s (withResult u s.cur f [(d.toNat, v)]) f g
      (f.isHelper = true → gives s f 0xFFFFFFFF) ∧
      (Free f → s.accessesDone s.cur f = true → (∀ r ∈ s.pendingSlots s.cur, 8 ≤ r) → (∀ e ∈ f.handles, 8 ≤ e.1) → (∀ e ∈ f.poison, 8 ≤ e.1) →
        (∀ g c old, s.group? f.grp = some g → s.freeSlot f.grp = some (c, old) →
          let v := s.fenceAt s.cur f .grp false
          let f1 := (v.fibre? s.cur).getD f
          let child := v.forkChild s.cur f1 old g (f.pc + (off.signExtend 64 <<< 2))
          gives (v.setFibre c child) f1 (BitVec.ofNat 32 old.fid) ∧ (∀ x ∈ f.seen, x ∈ f1.seen) ∧ child.seen = f1.seen ∧
            (16 ≤ f.regs.length → ∀ r, r < 8 → child.reg r = f.read s.cur r)) ∧
        (s.freeSlot f.grp = none → gives s f 0xFFFFFFFF)))

/-- R53, R58, R80, R107, R108: NOP, PADW and YIELD only move on; NAP of n waits until n clk from now, of 0 not at all; END begins the waits of its
steps once the taint is empty; TRAP counts as issued and takes the user trap of cause 0x14 past itself, or what R58 puts before a trap. -/
def Obligations.SimpleWordsAct : Prop :=
  ∀ (h : Head) (a : Reg) (s : State) (f : Fibre),
    let n := (src s f a).toNat
    (Executes (.nop h) s f → Leaves (.nop h) s s f f) ∧ (Executes (.padw h) s f → Leaves (.padw h) s s f f) ∧
    (Executes (.yield h) s f → Leaves (.yield h) s s f f) ∧
    (Executes (.nap h a) s f → (n = 0 → Leaves (.nap h a) s s f f) ∧ (n ≠ 0 → BeginsWait (.nap h a) s s f f (.nap (s.clk + n)))) ∧
    (Executes (.endFibre h) s f →
      (f.tainted = true → exec (.endFibre h) s = .next (s.waitFor s.cur f .tag)) ∧
      (f.tainted = false → BeginsWait (.endFibre h) s s f f (.ending false))) ∧
    (Executes (.trap h a) s f → (∀ t, s.barTrap s.cur f = some t → exec (.trap h a) s = .next t) ∧
      (s.barTrap s.cur f = none → exec (.trap h a) s =
        .next (((s.setFibre s.cur (f.counted f (.trap h a) true s.clk)).noteIssue s.cur f (.trap h a) true).userTrap s.cur
          { f.xr with opc := (s.issuedWords f (.trap h a)).1, opd := a.setWidth 32, opa := 0, opb := 0, opi := 0, cls := 0x14 } f.rp true)))

/-- R110 to R112 and R157: LOOP, once its header walk has found its end clause, enters a nest of at most four with its count, or with a count of 0
goes to the clause after it; PLOOP does so on its context's nest; LBRK n leaves n loops with the outer count. R49 and R52: REP counts its repeats
and waits at its word for them; INV with a bracket in order starts its routine with lo in x, and a bracket out of order or with a NaN is the
invert trap of code 2 before any evaluation. -/
def Obligations.LoopsAndPrefixesBegin : Prop :=
  (
    ∀ (h : Head) (a : Reg) (cnt last : BitVec 16) (last13 : BitVec 13) (n : BitVec 32) (s t : State) (f : Fibre) (e x : DWord),
      let enters := fun (i : Instr) (c : Word) (u : State) =>
        exec i s = .next (if c = 0 then u.finishTo s.cur i f f x
          else u.finishTo s.cur i f { f with loops := ⟨f.nextClause, e, x, f.lc⟩ :: f.loops, lc := c } f.nextClause)
      let nests := f.loops.length < 4 ∧ ∀ o ∈ f.loops.head?, x.toNat ≤ o.exit.toNat
      let walk := fun (u : State) (l : Nat) => u.walkLoop f (f.pc + BitVec.ofNat 64 (4 * l)) (l + 2) f.nextClause
      (nests → walk s last.toNat = (.found e x, t) →
        (Executes (.loopReg h a last) s f → enters (.loopReg h a last) (src s f a) t) ∧
        (Executes (.loopImm h cnt last) s f → enters (.loopImm h cnt last) (cnt.setWidth 32) t)) ∧
      (nests → walk s last13.toNat = (.found e x, t) →
        (Executes (.ploop h a last13) s f → enters (.ploop h a last13) (src s f a) t)) ∧
      (Executes (.lbrk h n) s f →
        (∀ o, f.loops[n.toNat - 1]? = some o →
          Jumps (.lbrk h n) s f { f with loops := f.loops.drop n.toNat, lc := o.outer } o.exit) ∧
        (f.loops[n.toNat - 1]? = none → exec (.lbrk h n) s = .next (s.userTrap s.cur { f.xr with cls := 0x15 } f.rp false)))) ∧
  (
    (∀ (stop : Bool) (n : BitVec 6) (sd sa sb sc two : Bool) (s : State) (f : Fibre), Executes (.rep stop n sd sa sb sc two) s f →
      let i := Instr.rep stop n sd sa sb sc two
      exec i s = .next ((s.setFibre s.cur { (f.counted f i true s.clk) with rep := some f.rp, rc := BitVec.ofNat 32 (n.toNat + 1), run := .ready }).noteIssue
        s.cur f i true)) ∧
    ∀ (h : Head) (t x : Reg) (k : BitVec 2) (ty : InvTy) (y : Reg) (dec : Bool) (tol : BitVec 5) (iter : BitVec 6) (s : State) (f : Fibre),
      let i := Instr.inv h t x k ty y dec tol iter
      let lo := f.ks.getD (2 * k.toNat) 0
      let hi := f.ks.getD (2 * k.toNat + 1) 0
      let v := InvRun.start f i s.cur t x y k ty dec tol iter (s.routine f).2.2
      Executes i s f →
        (invNan ty lo = true ∨ invNan ty hi = true ∨ (ordKey ty hi).toNat < (ordKey ty lo).toNat → exec i s = .next (s.invTrap s.cur f v 0x16 2)) ∧
        (invNan ty lo = false → invNan ty hi = false → (ordKey ty lo).toNat ≤ (ordKey ty hi).toNat →
          ∃ g, exec i s = .next ((s.setFibre s.cur g).noteIssue s.cur f i true) ∧ g.inv = some v ∧ g.rp = ⟨f.nextClause, 0⟩ ∧
            (x.toNat < f.regs.length → g.reg x.toNat = lo) ∧ (∀ r, r ≠ x.toNat → g.reg r = f.reg r) ∧ g.preds = f.preds))

/-! ## Floating point, conversions, noise, lanes (R9 to R28, R83 to R86, R115 to R132) -/

/-- R116 to R118: the one-result FP32 and FP64 words write the value of their shared function of the format, rounded as asked, with the noise of .sr
drawn first. R121 and R123: the special functions of FP32 write the value of their function; the packed words compute both elements of their
registers on their own, with the conditions of both and, with .sr, element 0's noise first. -/
def Obligations.FloatWordsCompute : Prop :=
  (
    ∀ (h : Head) (d a b c : Reg) (r : Rnd) (s u : State) (f g : Fibre) (ns : List Nat),
      let x := (src s f a).toNat
      let y := (src s f b).toNat
      let z := (src s f c).toNat
      let x2 := (joinPair (src s f a) (f.read s.cur (a.toNat + 1))).toNat
      let y2 := (joinPair (src s f b) (f.read s.cur (b.toNat + 1))).toNat
      let z2 := (joinPair (src s f c) (f.read s.cur (c.toNat + 1))).toNat
      let n := ns.getD 0 0
      let single := fun (i : Instr) (v : Nat × Conds) => Executes i s f → Leaves i s u f ((g.setRun d.toNat [w32 v.1]).raise v.2)
      let double := fun (i : Instr) (v : Nat × Conds) => Executes i s f → Leaves i s u f ((g.setRun d.toNat (dwords (w64 v.1))).raise v.2)
      let late := fun (i : Instr) (v : Nat × Conds) => Executes i s f → SetsLater i s u f g (runOf d.toNat [w32 v.1]) v.2
      Draws s f (srDraws r 1) false ns u g →
        single (.fadd h d a b r) (FF.f32.add r x y n) ∧ single (.fsub h d a b r) (FF.f32.sub r x y n) ∧
        single (.fmul h d a b r) (FF.f32.mul r x y n) ∧ single (.ffma h d a b c r) (FF.f32.fma r x y z n) ∧
        single (.frcp h d a r) (FF.f32.rcp r x n) ∧ single (.frsq h d a r) (FF.f32.rsqrt r x n) ∧
        single (.frnd h d a r) (FF.f32.integral r x n) ∧ late (.fdiv h d a b r) (FF.f32.div r x y n) ∧
        late (.fsqrt h d a r) (FF.f32.sqrt r x n) ∧ double (.dadd h d a b r) (FF.f64.add r x2 y2 n) ∧
        double (.dmul h d a b r) (FF.f64.mul r x2 y2 n) ∧ double (.dfma h d a b c r) (FF.f64.fma r x2 y2 z2 n)) ∧
  (
    ∀ (h : Head) (d a b c : Reg) (ty : Ty) (r : Rnd) (s u : State) (f g : Fibre) (ns : List Nat),
      let x := (src s f a).toNat
      let one := fun (i : Instr) (v : Nat × Conds) => Executes i s f → Sets i s f d.toNat [BitVec.ofNat 32 v.1] v.2
      let el := fun (q : Reg) (e : Nat) => (src s f q).toNat / 65536 ^ e % 65536
      let two := fun (i : Instr) (op : Nat → Nat → Nat × Conds) => Executes i s f →
        Leaves i s u f ((g.setRun d.toNat [BitVec.ofNat 32 ((op 0 (ns.getD 0 0)).1 + 65536 * (op 1 (ns.getD 1 0)).1)]).raise
          ((op 0 (ns.getD 0 0)).2.or (op 1 (ns.getD 1 0)).2))
      one (.fex2 h d a) (fex2 x) ∧ one (.flg2 h d a) (flg2 x) ∧ one (.fsin h d a) (fsin x) ∧ one (.fcos h d a) (fcos x) ∧
      one (.ftanh h d a) (ftanh x) ∧
      (Draws s f (srDraws r 2) false ns u g →
        two (.hadd2 h d a b ty r) (fun e n => (ffOf ty).add r (el a e) (el b e) n) ∧
        two (.hmul2 h d a b ty r) (fun e n => (ffOf ty).mul r (el a e) (el b e) n) ∧
        two (.hfma2 h d a b c ty r) (fun e n => (ffOf ty).fma r (el a e) (el b e) (el c e) n)))

/-- R9 and R118: FMIN and FMAX give the other operand where one is a NaN, the canonical NaN where both are, order −0 below +0 and raise NV for a
signalling NaN; of two numbers they give the lower and the higher, and of two that are equal with one sign one of them. R120: a float comparison
writes a predicate, merged as SETP does; FCLASS (R119) sets one bit of its ten: the table's bit for the value's class and sign. R120's table on
values: each condition holds for the order of two numbers as its row says, no ordered condition holds with a NaN, and a signalling NaN raises NV,
a quiet one only in .lt, .le, .gt and .ge. -/
def Obligations.FloatsCompare : Prop :=
  (
    ∀ (h : Head) (d a b : Reg) (s : State) (f : Fibre),
      let x := FF.f32.val (src s f a).toNat
      let y := FF.f32.val (src s f b).toNat
      let c : Conds := { nv := x.isSnan || y.isSnan }
      let low := fun (w : Word) => Executes (.fmin h d a b) s f → Sets (.fmin h d a b) s f d.toNat [w] c
      let high := fun (w : Word) => Executes (.fmax h d a b) s f → Sets (.fmax h d a b) s f d.toNat [w] c
      (x.isNan = true → y.isNan = true → low 0x7FC00000 ∧ high 0x7FC00000) ∧
      (x.isNan = true → y.isNan = false → low (src s f b) ∧ high (src s f b)) ∧
      (x.isNan = false → y.isNan = true → low (src s f a) ∧ high (src s f a)) ∧
      (x.isNan = false → y.isNan = false →
        (cmpFin x y = .lt → low (src s f a) ∧ high (src s f b)) ∧ (cmpFin x y = .gt → low (src s f b) ∧ high (src s f a)) ∧
        (cmpFin x y = .eq → x.neg = true → y.neg = false → low (src s f a) ∧ high (src s f b)) ∧
        (cmpFin x y = .eq → x.neg = false → y.neg = true → low (src s f b) ∧ high (src s f a)) ∧
        (cmpFin x y = .eq → x.neg = y.neg → ∃ v w, v ∈ [src s f a, src s f b] ∧ w ∈ [src s f a, src s f b] ∧ low v ∧ high w))) ∧
  (
    ∀ (h : Head) (d a b c : Reg) (cond : BitVec 3) (merge : Bool) (tbl : BitVec 4) (ty : Ty) (s : State) (f : Fibre),
      let put := fun (i : Instr) (v : Bool × Conds) => Executes i s f → SetsPreds i s f
        [(d.toNat, if merge then tbl.getLsbD (2 * (if v.1 then 1 else 0) + (if f.readPred s.cur c.toNat then 1 else 0)) else v.1)] v.2
      put (.fcmp h d a b c cond merge tbl) (FF.f32.cmp cond.toNat (src s f a).toNat (src s f b).toNat) ∧
      put (.dcmp h d a b c cond merge tbl) (FF.f64.cmp cond.toNat (joinPair (src s f a) (f.read s.cur (a.toNat + 1))).toNat
        (joinPair (src s f b) (f.read s.cur (b.toNat + 1))).toNat) ∧
      (Executes (.fclass h d a ty) s f →
        Sets (.fclass h d a ty) s f d.toNat [BitVec.ofNat 32 (2 ^ (ffOf ty).classBit (f.operand s.cur ty a))] Conds.none) ∧
      ∀ (t : FF) (x : Nat) (neg : Bool),
        (t.val x = .nan true → t.classBit x = 0) ∧ (t.val x = .nan false → t.classBit x = 1) ∧
        (t.val x = .inf neg → t.classBit x = if neg then 2 else 9) ∧
        ∀ (m : Nat) (e : Int), t.val x = .fin neg m e →
          (m = 0 → t.classBit x = if neg then 5 else 6) ∧
          (m ≠ 0 → x / 2 ^ t.mw % 2 ^ t.ew = 0 → t.classBit x = if neg then 4 else 7) ∧
          (m ≠ 0 → x / 2 ^ t.mw % 2 ^ t.ew ≠ 0 → t.classBit x = if neg then 3 else 8)) ∧
  (
    ∀ (t : FF) (x y : Nat), let u := t.val x
      let v := t.val y
      (u.isNan = true ∨ v.isNan = true →
        (∀ n, n ∈ [0, 2, 3, 4, 5, 7] → (t.cmp n x y).1 = false) ∧ (∀ n, n ∈ [1, 6] → (t.cmp n x y).1 = true) ∧
        (∀ n, n ∈ [2, 3, 4, 5] → (t.cmp n x y).2.nv = true) ∧ (∀ n, n ∈ [0, 1, 6, 7] → (t.cmp n x y).2.nv = (u.isSnan || v.isSnan))) ∧
      (u.isNan = false → v.isNan = false → (∀ n, (t.cmp n x y).2 = Conds.none) ∧
        ((t.cmp 0 x y).1 = true ↔ cmpFin u v = .eq) ∧ ((t.cmp 2 x y).1 = true ↔ cmpFin u v = .lt) ∧ (t.cmp 6 x y).1 = false ∧ (t.cmp 7 x y).1 = true ∧
        ((t.cmp 2 x y).1 = true ↔ (t.cmp 4 y x).1 = true) ∧ ((t.cmp 3 x y).1 = true ↔ (t.cmp 4 x y).1 = false) ∧
        ((t.cmp 5 x y).1 = true ↔ (t.cmp 2 x y).1 = false) ∧ ((t.cmp 1 x y).1 = true ↔ (t.cmp 0 x y).1 = false) ∧
        ((t.cmp 0 x y).1 = true ↔ (t.cmp 3 x y).1 = true ∧ (t.cmp 5 x y).1 = true)))

/-- R9: every NaN that an FP32 or FP64 arithmetic word gives is the canonical quiet NaN, whatever the rounding and the operands. -/
def Obligations.NaNsAreCanonical : Prop :=
  ∀ (r : Rnd) (x y z n : Nat), ∀ v ∈ [FF.f32.add r x y n, FF.f32.sub r x y n, FF.f32.mul r x y n, FF.f32.fma r x y z n],
    (FF.f32.val v.1).isNan = true → v.1 = 0x7FC00000

/-- R124 to R127: CVT converts by the kinds of its types; QNT puts a block's words, exponent and underflow count in flight, its events into %mxerr
and NV for a signalling NaN; DQNT the 32 values of a block; RAND delivers 32 bits of noise, or them as an FP32 value below 1. -/
def Obligations.ConversionsCompute : Prop :=
  ∀ (h : Head) (d a c : Reg) (ty sty : Ty) (r : Rnd) (sat adj : Bool) (fmt : Fmt) (s u : State) (f g : Fibre) (ns : List Nat),
    let vals := f.readRun s.cur a.toNat 32
    let q := quantise fmt.width r adj (vals.map (·.toNat)) ns
    let dq := (List.range 32).map fun i => dequant fmt.width (bitsOf (src s f c).toNat 7 0)
      (exact true fmt.width (streamAt fmt.width (leNat (wordBytes (f.readRun s.cur a.toNat fmt.width))) i))
    let rnd32 := if ty = .f32 then (FF.f32.round .rn false (ns.getD 0 0 / 256) (-24) 0).1 else ns.getD 0 0
    (Draws s f (srDraws r 1) false ns u g → Executes (.cvt h d a ty r sat sty) s f →
      let v := cvtValue ty sty r sat (f.operand s.cur sty a) (ns.getD 0 0)
      Leaves (.cvt h d a ty r sat sty) s u f ((g.setRun d.toNat v.1).raise v.2)) ∧
    (Draws s f (srDraws r 32) false ns u g → Executes (.qnt h d a c r adj fmt) s f →
      SetsLater (.qnt h d a c r adj fmt) s u f (g.mxEvents 0 false q.eovf q.sat)
        (runOf d.toNat (leWords fmt.width (q.bytes fmt.width (s.cur * 2 ^ 32 + f.issued))) ++ [(c.toNat, BitVec.ofNat 32 (q.e ||| q.ufc <<< 8))])
        { nv := vals.any fun w => (FF.f32.val w.toNat).isSnan }) ∧
    (Executes (.dqnt h d a c fmt) s f → SetsLater (.dqnt h d a c fmt) s s f f (runOf d.toNat (dq.map fun v => BitVec.ofNat 32 v.1))
      (dq.foldl (fun e v => e.or v.2) Conds.none)) ∧
    (Draws s f 1 true ns u g → Executes (.rand h d ty) s f →
      Leaves (.rand h d ty) s (withResult u s.cur f [(d.toNat, BitVec.ofNat 32 rnd32)]) f g)

/-- R85 and R86: a cross-lane word of a fibre that its mask names arrives at its rendezvous with what it offers, and the exchange is made once all
are there; a mask that leaves the fibre out is the member fault 0x10, one that names an ended or absent slot 0x11. R128 and R210: an exchange
whose mask names the issuing fibre alone gives it its own result at once, on the control core with mask 1; a quad word there gives the fibre's
own value. -/
def Obligations.CrossLaneWordsExchange : Prop :=
  (
    ∀ (h : Head) (d a b c p : Reg) (sm : ShflMode) (vm : VoteMode) (op : SpredOp) (ty : Ty) (r : Rnd) (scan : Bool) (dir lane : BitVec 2)
      (s : State) (f : Fibre), f.privileged = false →
      let mask := src s f c
      let comes := fun (i : Instr) (m : Word) => exec i s = .next (s.meetAt s.cur f i (f.arrival s.cur i m true))
      let traps := fun (i : Instr) (cause : Nat) => exec i s = .next (s.userTrap s.cur
        (wordTrap f (s.issuedWords f i).1 (s.issuedWords f i).2 cause) f.rp false)
      let masked := fun (i : Instr) => Executes i s f →
        (mask.getLsbD (f.fid % 32) = false → traps i 0x10) ∧
        (mask.getLsbD (f.fid % 32) = true → badMask (s.exchangers f false mask) = true → traps i 0x11) ∧
        (mask.getLsbD (f.fid % 32) = true → badMask (s.exchangers f false mask) = false → comes i mask)
      masked (.shfl h d a b c sm ty p) ∧ masked (.vote h d a b c vm) ∧ masked (.spred h d a c op ty r scan) ∧
      (Executes (.qswap h d a ty dir) s f → comes (.qswap h d a ty dir) 0) ∧ (Executes (.qbc h d a ty lane) s f → comes (.qbc h d a ty lane) 0)) ∧
  (
    ∀ (h : Head) (d a b c p : Reg) (sm : ShflMode) (vm : VoteMode) (op : SpredOp) (ty : Ty) (r : Rnd) (scan : Bool) (dir lane : BitVec 2)
      (s : State) (f : Fibre),
      let gets := fun (i : Instr) (g : Given) => Leaves i s s f (((f.setRegs g.regs).setPreds g.preds).raise g.conds)
      let me := fun (i : Instr) (m : Word) => let x := f.arrival s.cur i m true; Member.mk 0 x.vals x.lane x.p
      let alone := fun (i : Instr) => Executes i s f →
        (f.privileged = true → src s f c = 1 → gets i (crossGive i [me i 1] (me i 1))) ∧
        (f.privileged = false → f.taint = [] → f.wait = none → src s f c = 1 <<< (f.fid % 32) →
          let x := f.arrival s.cur i (src s f c) true
          let f1 : Fibre := { (f.counted f i true s.clk) with arrive := some x, run := .waiting .rendezvous }
          let u := (s.setFibre s.cur f1).noteIssue s.cur f i true
          let m : Member := ⟨f.fid % 32, x.vals, x.lane, x.p⟩
          s.exchangers f false (src s f c) = [some (s.cur, f)] → f.run = .ready → exec i s = .next (u.takeResult s.cur f1 x (crossGive i [m] m) []))
      alone (.shfl h d a b c sm ty p) ∧ alone (.vote h d a b c vm) ∧ alone (.spred h d a c op ty r scan) ∧
      (f.privileged = true → (Executes (.qswap h d a ty dir) s f → dir.toNat < 3 →
          gets (.qswap h d a ty dir) { regs := runOf d.toNat ((ty.run a).regs.map (f.read s.cur)), from_ := [dir.toNat + 1] }) ∧
        (Executes (.qbc h d a ty lane) s f →
          gets (.qbc h d a ty lane) { regs := runOf d.toNat ((ty.run a).regs.map (f.read s.cur)), from_ := [lane.toNat] })))

/-- R130 to R132: what an exchange gives a member, from the members in ascending lane order: VOTE the mask, the counts and the tests of its members'
predicates, QSWAP and QBC their partner's value. -/
def Obligations.VotesAndQuadsGive : Prop :=
  ∀ (h : Head) (d a b c : Reg) (ty : Ty) (dir lane : BitVec 2) (ms : List Member) (me : Member),
    let yes := (ms.filter (·.p)).length
    let give := fun (m : VoteMode) => crossGive (.vote h d a b c m) ms me
    ((∀ m ∈ ms, m.lane < 32) → ∃ w : Word, (give .mask).regs = [(d.toNat, w)] ∧
      ∀ j, j < 32 → w.getLsbD j = ms.any fun m => m.lane == j && m.p) ∧
    (give .count).regs = [(d.toNat, BitVec.ofNat 32 yes)] ∧
    (give .below).regs = [(d.toNat, BitVec.ofNat 32 ((ms.filter fun m => decide (m.lane < me.lane) && m.p).length))] ∧
    (give .atleast).preds = [(d.toNat, decide (me.by_.toNat ≤ yes))] ∧
    (give .split).preds = [(d.toNat, decide (0 < yes ∧ yes < ms.length))] ∧
    (∀ m ∈ ms, ms.Pairwise (fun x y => x.lane ≠ y.lane) → m.lane = me.lane ^^^ (dir.toNat + 1) →
      (crossGive (.qswap h d a ty dir) ms me).regs = runOf d.toNat m.vals) ∧
    (∀ m ∈ ms, ms.Pairwise (fun x y => x.lane ≠ y.lane) → m.lane = lane.toNat → (crossGive (.qbc h d a ty lane) ms me).regs = runOf d.toNat m.vals)

/-! ## Memory, fences, results (R92, R164 to R169, R261) -/

/-- R164 and R165: LD, ST, ATOM and RED with room for one more access send it on its way with its address, size, order and data, and the fibre moves
on; in a tainted fibre ST and RED to .g, .cm and .sys are held, in a helper they do nothing and an ATOM's destination takes 0. R168, R198 and
R261: FENCE waits for the fibre's accesses and orders: what the fibre has seen goes with its later writes at the fence's scope; .sc also waits
for an empty taint; EFENCE waits for them, those it holds among them (log 32), and delivers a nonempty replay list. R92: a result without a fixed
latency is written when it completes, and its operation is gone; a fibre that has ended gets nothing. -/
def Obligations.MemoryWordsIssue : Prop :=
  (
    ∀ (h : Head) (d a b : Reg) (sp : Space) (sz : Size) (o : Order) (sc : Scope) (op : AtomOp) (off : BitVec 16) (s : State) (f : Fibre),
      let base := if sp.wide then (joinPair (src s f a) (f.read s.cur (a.toNat + 1))).toNat else (src s f a).toNat
      let addr := w64 (if sp.wide then (BitVec.ofNat 64 base + off.signExtend 64).toNat else (BitVec.ofNat 32 base + off.signExtend 32).toNat)
      let acc := fun (k : AccKind) (op : AtomOp) (dst n : Nat) (ws : List Word) =>
        { (default : Access) with kind := k, space := sp, addr := addr, size := sz.bytes, order := o, scope := sc, aop := op, dst := dst, ndst := n, data := ws }
      let goes := fun (i : Instr) (x : Access) (u : State) (n : Nat) => let t := u.issueAccess s.cur x n (s.ordAt f f.rp)
        exec i s = .next (t.finish s.cur i f ((t.fibre? s.cur).getD f))
      let wrote := s.modFibre s.cur fun f => { f with wseq := f.wseq + 1 }
      let stData := f.readRun s.cur b.toNat (sz.run b).len
      let opData := f.readRun s.cur b.toNat ((sz.run b).len * if op = .cas then 2 else 1)
      let writes := fun (i : Instr) (x : Access) => Executes i s f →
        (f.isHelper = true → Leaves i s s f f) ∧
        (Free f → s.accessRoom s.cur f = true → goes i x wrote (f.wseq + 1)) ∧
        (f.isHelper = false → f.tainted = true → sp ≠ .sp → ∀ g, s.hold f (.mem x) (s.ordAt f f.rp) = some g → Leaves i s s f g)
      (Executes (.ld h d a sp sz o sc off) s f → f.isPacer = false → s.accessRoom s.cur f = true → (sp = .sys → f.held = []) →
        goes (.ld h d a sp sz o sc off) (acc .ld .add d.toNat (sz.run d).len []) s f.wseq) ∧
      writes (.st h a b sp sz o sc off) (acc .st .add 0 0 stData) ∧ writes (.red h a b sp sz o sc op off) (acc .red op 0 0 opData) ∧
      (Executes (.atom h d a b sp sz o sc op off) s f →
        (f.isHelper = true → Leaves (.atom h d a b sp sz o sc op off) s s f (f.setRun d.toNat (List.replicate (sz.run d).len 0))) ∧
        (Free f → s.accessRoom s.cur f = true → goes (.atom h d a b sp sz o sc op off) (acc .atom op d.toNat (sz.run d).len opData) wrote (f.wseq + 1)))) ∧
  (
    ∀ (h : Head) (d a : Reg) (s : State) (f : Fibre),
      (Executes (.fence h d a) s f →
        (s.accessesDone s.cur f = true → f.tainted = false ∨ a ≠ 1 → ∃ u g, Leaves (.fence h d a) s u f g ∧ u.mem = s.mem ∧ u.ops = s.ops ∧
          OthersSame s.cur s u ∧ g.regs = f.regs ∧ g.preds = f.preds ∧ (∀ x ∈ f.seen, x ∈ g.seen) ∧ (scopeOf d.toNat, g.seen) ∈ g.rels ∧
          (f.held = [] → g.held = [])) ∧
        (f.tainted = true → a = 1 → exec (.fence h d a) s = .next (s.waitFor s.cur f .tag)) ∧
        (s.accessesDone s.cur f = false → f.tainted = false ∨ a ≠ 1 → exec (.fence h d a) s = .next (s.waitFor s.cur f .memory))) ∧
      (Executes (.efence h) s f →
        let own := f.held.any fun x => x.eff.isAccess
        (s.accessesDone s.cur f = true → own = false → f.replay = [] → Leaves (.efence h) s s f f) ∧
        (s.accessesDone s.cur f = true ∨ s.releaseStuck s.cur f = true → own = false → f.replay ≠ [] →
          exec (.efence h) s = .next (s.deliver s.cur f.rp (s.issuedWords f (.efence h)).1 (s.issuedWords f (.efence h)).2)) ∧
        (s.accessesDone s.cur f = false ∧ s.releaseStuck s.cur f = false ∨ own = true → exec (.efence h) s = .next (s.waitFor s.cur f .memory)))) ∧
  (
    ∀ (op : Nat) (s : State) (o : Op) (rs : List (Nat × Word)) (ps : List (Nat × Bool)) (nv : Word),
      s.op? op = some o → o.body = .result rs ps nv →
      (o.gone = false → exec (.variableLatencyComplete op) s = .next ((s.dropOp op).modFibre o.fib fun f => (f.setRegs rs).setPreds ps)) ∧
      (o.gone = true → exec (.variableLatencyComplete op) s = .next (s.dropOp op)))

/-- R164 and R167 on memory: a load's bytes reach its registers zero-extended, a store replaces the bytes at its place, an atomic puts its new value
there and gives the old; no other byte, fibre or register changes. An access to plain memory, of an untainted fibre with no watch on it, which no
recent write into its bytes may pass unseen (R197, R203). -/
def Obligations.AccessesArePerformed : Prop :=
  ∀ (op loc : Nat) (o : Op) (a : Access) (s : State) (f : Fibre), s.op? op = some o → o.body = .mem a (.at_ loc) → o.done = none →
    s.fibre? o.fib = some f → f.tainted = false → f.isPacer = false → f.held = [] → f.releasing = [] →
    Unwatched s f a.space a.addr.toNat a.size a.kind.writes →
    a.space ≠ .sys → regOffset loc = none → (a.kind.reads = true → s.poisonedAt loc a.size = false) → (loc < 2 ^ 51 ∨ 2 ^ 52 ≤ loc) →
    s.mayPerform o a (.at_ loc) = true → s.undoBlocked o.fib a loc = false → s.wsHeld loc o.start = false → s.bankTurn o a loc = true →
    s.laneTurn o a = true → (a.space = .sp → a.kind.reads = true → s.lanesLeft o = false) →
    s.arriveAt (s.master f) (s.jobOf f) a.kind.acc a.addr.toNat loc = (.at_ loc, s) →
    (∀ p ∈ s.past, p.meets loc a.size = true → s.mayMiss o.fib f a p = false) →
    let old := s.getBytes loc a.size
    let new := leBytes a.size (atomNew a.aop (8 * a.size) (leNat old) (atomArgs a.size a.data).1 (atomArgs a.size a.data).2)
    let ev := if a.space = .sp then Instr.scratchpadLoadComplete op else if a.kind = .ld ∨ a.kind = .atom then .loadDataArrival op else .storeAck op
    let gives := fun (m : List Host.Cell) (rs : List Word) => ∃ t g, exec ev s = .next t ∧ t.mem = m ∧ t.ops = (s.dropOp op).ops ∧
      SameEntries s t ∧ OthersSame o.fib s t ∧ t.fibre? o.fib = some g ∧ g.regs = rs ∧ g.preds = f.preds
    let loaded := (f.setRun a.dst ((loadWords old).take a.ndst)).regs
    (a.kind = .ld → gives s.mem loaded) ∧ (a.kind = .st → gives (s.store loc ((wordBytes a.data).take a.size)).mem f.regs) ∧
    (a.kind = .atom → gives (s.store loc new).mem loaded) ∧ (a.kind = .red → a.ndst = 0 → gives (s.store loc new).mem f.regs)

/-- R167's table: the new value of an atomic of 32 or 64 bits, from the old value and b, and for .cas the value after b. -/
def Obligations.AtomicsFollowTheirTable : Prop :=
  ∀ (n old b b2 : Nat), (n = 32 ∨ n = 64) → old < 2 ^ n → b < 2 ^ n → b2 < 2 ^ n →
    let t := if n = 64 then FF.f64 else FF.f32
    let v := fun (x : Nat) => if 2 ^ (n - 1) ≤ x then (x : Int) - (2 : Int) ^ n else (x : Int)
    let new := fun (o : AtomOp) => atomNew o n old b b2
    new .add = (old + b) % 2 ^ n ∧ v (new .smin) = min (v old) (v b) ∧ v (new .smax) = max (v old) (v b) ∧
    new .umin = min old b ∧ new .umax = max old b ∧ (∀ j, (new .and).testBit j = (old.testBit j && b.testBit j)) ∧
    (∀ j, (new .or).testBit j = (old.testBit j || b.testBit j)) ∧ (∀ j, (new .xor).testBit j = Bool.xor (old.testBit j) (b.testBit j)) ∧
    new .exch = b ∧ new .cas = (if old = b then b2 else old) ∧ (b = 0 → new .wrap = (old + 1) % 2 ^ n) ∧
    (0 < b → new .wrap < b) ∧ (old < b → new .wrap = if old + 1 = b then 0 else old + 1) ∧
    new .upto = (if old < b then old + 1 else old) ∧ new .downto = (if b < old then old - 1 else old) ∧
    new .fadd = (t.add .rn old b 0).1 ∧ new .fmin = (t.minMax false old b).1 ∧ new .fmax = (t.minMax true old b).1

/-! ## Barriers, copies, gathers, operand queues, the Pacer, the matrix engine (R153 to R160, R170 to R188) -/

/-- R176: an arrival counts; the one that fills the expected count, 0 standing for 65536, opens the next phase, clears the count and makes the merged
engine status the status of the phase that ended. A phase merges the first status that is not OK. R174 to R177: the barrier words on an aligned
object that the fibre's accesses have left: BARINIT sets its words, BARARR counts one arrival and keeps its token, BARWT goes on where the
token's phase is over, having seen what the phase published, and else waits, BARST tests the status. R177: a wait that times out writes a record
for each real fibre of the group that has not arrived and takes the user trap of cause 0x18 with BARWT's words, their number and the lowest of
them. -/
def Obligations.BarriersAct : Prop :=
  (
    ∀ (b : Barrier) (st : Status),
      let goal : Nat := if b.expected = 0 then 65536 else b.expected.toNat
      let running := bitsOf b.status.toNat 18 16
      let merged := if st ≠ .ok ∧ running = 0 then statusNum st else running
      b.arrived.toNat < 2 ^ 31 →
        (b.arrived.toNat + 1 = goal → b.arrive st = ⟨b.phase + 1, b.expected, 0, BitVec.ofNat 32 merged⟩) ∧
        (b.arrived.toNat + 1 ≠ goal → (b.arrive st).phase = b.phase ∧ (b.arrive st).expected = b.expected ∧
          (b.arrive st).arrived = b.arrived + 1 ∧ bitsOf (b.arrive st).status.toNat 18 16 = merged ∧
          bitsOf (b.arrive st).status.toNat 2 0 = bitsOf b.status.toNat 2 0)) ∧
  (
    ∀ (h : Head) (d a b : Reg) (s t : State) (f : Fibre) (loc : Nat),
      let off := src s f a
      let o := t.barrierAt loc
      s.accessesDone s.cur f = true → off.toNat % 16 = 0 → s.find f .sp off.toNat 16 .atomic = (.at_ loc, t) → t.loggedByOther s.cur loc 16 = false →
      (Executes (.barinit h a b) s f → Free f →
        Leaves (.barinit h a b) s (t.putBarrier loc ⟨o.phase, src s f b &&& 0xFFFF, 0, 0⟩) f f) ∧
      (Executes (.bararr h a) s f → Free f →
        let u := t.arriveBarrier loc .ok f.seen
        u.mem = (t.putBarrier loc (o.arrive .ok)).mem ∧ u.fibres = t.fibres ∧ u.ops = t.ops ∧
          Leaves (.bararr h a) s u f { f with token := some (off, o.phase) }) ∧
      (Executes (.barwt h a b) s f →
        (o.phase ≠ f.waitPhase off o.phase → ∃ v, Leaves (.barwt h a b) s t f { f with seen := v } ∧ ∀ x ∈ f.seen ++ t.published (.phase loc), x ∈ v) ∧
        (o.phase = f.waitPhase off o.phase → exec (.barwt h a b) s = .next (t.beginWait s.cur (.barwt h a b) f f
          (.bar off o.phase (if (src s f b).toNat = 0 then none else some (t.clk + (src s f b).toNat))
            (t.issuedWords f (.barwt h a b)).1 (t.issuedWords f (.barwt h a b)).2)))) ∧
      (Executes (.barst h d a) s f → Leaves (.barst h d a) s t f (f.setPred d.toNat (bitsOf o.status.toNat 2 0 != 0)))) ∧
  (
    ∀ (fib t : Nat) (off p w0 w1 : Word) (s : State) (f : Fibre), s.fibre? fib = some f → f.run = .waiting .barrier →
      f.wait = some (.bar off p (some t) w0 w1) → t ≤ s.clk → Free f →
      let core := (s.site f).coreIx
      let missing := sortBy (fun x => x.2.fid) ((s.members f.grp).filter fun x =>
        !x.2.isHelper && x.2.run != .ended && x.2.token != some (off, p))
      let u := missing.foldl (fun s x => s.debugRecord core 6 0 (s.ordAt x.2 x.2.rp).toNat 0 x.2 0 off 0) s
      ∃ x : TrapRegs, x.cls = 0x18 ∧ x.opc = w0 ∧ x.opi = w1 ∧ x.opa = BitVec.ofNat 32 missing.length ∧
        (∀ m ∈ missing.head?, x.opb = BitVec.ofNat 32 m.2.fid) ∧
        exec (.barwtTimeout fib) s = .next ((u.setFibre fib { f with wait := none, run := .ready }).userTrap fib x f.rp false))

/-- R170 to R173: CPASYNC and GATH of a fibre whose counter has room launch a copy or a gather in flight and make d pending on it, GATH to an operand
queue with a slot reserved for each row; a gather whose counts are out of range ends FAULT; in a helper d takes CANCELLED. R171: WAITC goes on
once no counter of its mask is above n; FTEST tests whether a register is pending; FCANCEL cancels what can be cancelled and says so in its
predicate. -/
def Obligations.AsynchronousWordsAct : Prop :=
  (
    ∀ (h : Head) (d a b c : Reg) (bar : Bool) (ssp dsp : Space) (fmt : Fmt) (s : State) (f : Fibre),
      let dst : Place := ⟨dsp, w64 (f.base s.cur dsp a)⟩
      let from_ : Place := ⟨ssp, w64 (f.base s.cur ssp b)⟩
      let n := (src s f c).toNat
      let len := (f.read s.cur (c.toNat + 1)).toNat
      let off := if bar then some (f.read s.cur (c.toNat + 1)).toNat else none
      let ga : Gather := { table := joinPair (src s f b) (f.read s.cur (b.toNat + 1)), n := n, rowLen := len, dst := (src s f a).toNat, toq := false,
                           fmt := fmt, space := ssp, first := ((s.group? f.grp).map (·.oqNext)).getD 0, left := List.range n, st := .ok, tainted := false, wrote := false }
      (Executes (.cpasync h d a b c bar ssp dsp) s f →
        (f.isHelper = true → Leaves (.cpasync h d a b c bar ssp dsp) s s f (f.setReg d.toNat 5)) ∧
        (Free f → f.occp ≠ 255 → Launches (.cpasync h d a b c bar ssp dsp) s f .cp (some d.toNat)
          (.copy ⟨dst, from_, n, 0, off, false, false, s.copyFail f dst from_ n off, []⟩))) ∧
      (Executes (.gath h d a b c ssp fmt false) s f →
        (f.isHelper = true → Leaves (.gath h d a b c ssp fmt false) s s f (f.setReg d.toNat 5)) ∧
        (Free f → f.ocga ≠ 255 → 1 ≤ n → n ≤ 4096 → 4 ≤ len → len ≤ 65536 → len % 4 = 0 →
          Launches (.gath h d a b c ssp fmt false) s f .ga (some d.toNat) (.gath ga)) ∧
        (Free f → f.ocga ≠ 255 → n = 0 ∨ 4096 < n ∨ len < 4 ∨ 65536 < len ∨ len % 4 ≠ 0 →
          let l := launched s f .ga (some d.toNat) (.gath { ga with left := [], st := .fault })
          exec (.gath h d a b c ssp fmt false) s = .next ((l.2.2.finish s.cur (.gath h d a b c ssp fmt false) f l.2.1).finishOp l.1 .fault))) ∧
      (Executes (.gath h d a b c ssp fmt true) s f →
        (f.isHelper = true → Leaves (.gath h d a b c ssp fmt true) s s f (f.setReg d.toNat 5)) ∧
        (∀ q, Free f → f.ocga ≠ 255 → s.oq? f.grp a.toNat = some q → 1 ≤ n → n ≤ 64 → n ≤ q.e → recordBytes fmt.width ≤ q.b →
          q.slots.length + n ≤ q.e →
          let u := s.reserve f.grp a.toNat n true
          let l := u.launchOp s.cur f .ga (some d.toNat)
            (.gath { ga with rowLen := recordBytes fmt.width, dst := a.toNat, toq := true }) (u.ordAt f f.rp)
          Leaves (.gath h d a b c ssp fmt true) s l.2.2 f l.2.1))) ∧
  (
    ∀ (h : Head) (d a : Reg) (n : BitVec 8) (mask : BitVec 4) (s : State) (f : Fibre),
      let held := fun (j : Nat) (c : BitVec 8) => mask.getLsbD j = true → c.toNat ≤ n.toNat
      (Executes (.waitc h n mask) s f →
        (held 3 f.occp ∧ held 2 f.ocmx ∧ held 1 f.ocga ∧ held 0 f.ocfx → Leaves (.waitc h n mask) s s f f) ∧
        (¬(held 3 f.occp ∧ held 2 f.ocmx ∧ held 1 f.ocga ∧ held 0 f.ocfx) → exec (.waitc h n mask) s = .next (s.waitFor s.cur f .counter))) ∧
      (Executes (.ftest h d a) s f → Leaves (.ftest h d a) s s f (f.setPred d.toNat (f.handle? a.toNat == none))) ∧
      (Executes (.fcancel h d a) s f →
        (f.isHelper = true → Leaves (.fcancel h d a) s s f (f.setPred d.toNat false)) ∧
        (Free f → f.handle? a.toNat = none → Leaves (.fcancel h d a) s s f (f.setPred d.toNat false)) ∧
        (∀ id o, Free f → f.handle? a.toNat = some id → s.op? id = some o →
          (o.cancellable = false → Leaves (.fcancel h d a) s s f (f.setPred d.toNat false)) ∧
          (o.cancellable = true → let u := (s.cancel o).modFibre s.cur fun f => f.setPred d.toNat true
            exec (.fcancel h d a) s = .next (u.finish s.cur (.fcancel h d a) f ((u.fibre? s.cur).getD f))))))

/-- R172 and R173: a copy's next piece is read and written once its source and its place are at hand (those of another package are asked for first,
R319), and with its last piece the copy ends OK, or DATAERR where an element could not be read; a gather's row goes from its source to its place
in .sp. R155 and R188: the last byte of a fill from memory makes its slot full with the bytes read, OK or DATAERR. -/
def Obligations.PiecesAndRowsLand : Prop :=
  (
    ∀ (op row : Nat) (s s1 t t1 u : State) (o : Op) (f : Fibre) (bs : List Byte), s.op? op = some o → s.fibre? o.fib = some f → o.done = none →
      s.olderDone o = true →
      (∀ (c : Copy), o.body = .copy c → s.copyBlocked o f c = false → c.fail = none → c.pos < c.len →
        let at_ := c.dst.addr.toNat + c.pos
        let n := pieceLen c.dst.addr.toNat c.pos c.len
        let v := (u.watchOp o c.src.space (c.src.addr.toNat + c.pos) n false).watchOp o c.dst.space at_ n true
        let c2 := { c with pos := c.pos + n, before := c.before ++ t1.overwritten f c at_ n }
        s.atHand o.id f c.src.space (c.src.addr.toNat + c.pos) n none = (true, s1) → s1.copyBytes o.id o.seq f c n = (.ok bs, t) →
        t.atHand o.id f c.dst.space at_ n (some bs) = (true, t1) → t1.engineWrite o.fib f (some o) c.dst.space c.tainted at_ bs = (none, u) →
        (c.pos + n < c.len → exec (.copyPieceLand op) s =
          .next ((v.modOp o.id fun o => { o with body := .copy c2, start := v.clk }).dropCarried o.id)) ∧
        (c.len ≤ c.pos + n → exec (.copyPieceLand op) s = .next (v.endCopy o f c2 (if c.bad then .dataerr else .ok)))) ∧
      (∀ (g : Gather), o.body = .gath g → row ∈ g.left → g.toq = false → s.pieceBlocked o.fib f .sp (g.dst + row * g.rowLen) g.rowLen = false →
        f.isPacer = false → s.walkBlocked f .g (g.table.toNat + 8 * row) 8 .read = false → s.wsBlocked f g.space (s.rowSource f g row) g.rowLen o.start = false → exec (.gathRowArrival op row) s = .next (s.landRow o f g row))) ∧
  (
    ∀ (op g q slot len : Nat) (from_ : Place) (s t : State) (o : Op) (f : Fibre) (sl : Slice) (bs : List Byte) (bad : List Nat),
      s.op? op = some o → o.body = .feed g q slot from_ len none → s.fibre? o.fib = some f → (s.group? g).bind (·.slice) = some sl →
      sl.state = .running → (s.group? g).map (·.out) = some false → s.wsBlocked f from_.space from_.addr.toNat len o.start = false →
      (from_.space ≠ .g ∨ pkgOf from_.addr.toNat = Config.pkgNumber) →
      s.pacerMiss f from_.space from_.addr.toNat len = false → s.readBlank (some op) f 0 from_.space from_.addr.toNat len = (.ok (bs, bad), t) →
      exec (.pacerFillComplete op) s = .next (((t.watchOp o from_.space from_.addr.toNat len false).fillSlot g q slot
        (if bad = [] then 0 else 6) bs (unitBits bad)).dropOp op))

/-- R186, R187: OQPOP takes the oldest full entry of a queue that no waiting MMA holds, with its status and payload, or with no context and nothing
reserved returns CANCELLED, and FAULT after an access-slice fault; OQREL returns a permit. R155, R156 and R187: ASLICE reads its descriptor and,
where the group has no context that stands, starts one on a new Pacer fibre with the issuer's first eight registers and the queues asked for;
ASTOP of the Pacer ends it OK, of a fibre CANCELLED. R155, R188: AFEED takes a permit and fills its slot, with registers at once and from memory
by a fill in flight; PWAIT goes on once n permits are free; an image, payload or count that the queue does not allow is an access-slice fault. -/
def Obligations.AccessSlicesAct : Prop :=
  (
    ∀ (h : Head) (d a : Reg) (n : BitVec 5) (s : State) (f : Fibre),
      let i := Instr.oqpop h d a n
      let cnt := n.toNat + 1
      let slots := ((s.oq? f.grp a.toNat).map (·.slots)).getD []
      let slice := ((s.group? f.grp).bind (·.slice)).map (·.state)
      let gives := fun (st : Word) => Leaves i s s f (f.setRun d.toNat (st :: List.replicate cnt 0))
      (Executes i s f → f.dropped = false →
        (f.isHelper = true → gives 5) ∧
        (∀ j e, Free f → firstIdx (fun e => e.state == .full && !e.kept) slots 0 = some (j, e) → e.bad = [] →
          Leaves i s (s.modOq f.grp a.toNat fun q => { q with slots := q.slots.modify j fun x => { x with state := .popped } }) f
            (f.setRun d.toNat (e.status :: leWords cnt e.payload))) ∧
        (Free f → (∀ e ∈ slots, e.state = .full → e.kept = true) → (∀ e ∈ slots, e.gath = true → e.state ≠ .filling) →
          (slice = none ∨ slice = some .ended ∨ slice = some .cancelled → gives 5) ∧ (slice = some .faulted → gives 1)) ∧
        (Free f → (∀ e ∈ slots, e.state = .full → e.kept = true) → slice = some .running ∨ slice = some .waitingTrap → exec i s = .next (s.waitFor s.cur f .opQueue))) ∧
      (Executes (.oqrel h a) s f → (f.isHelper = true → Leaves (.oqrel h a) s s f f) ∧
        (Free f → Leaves (.oqrel h a) s (s.oqRelease f.grp a.toNat) f f))) ∧
  (
    ∀ (h : Head) (d a : Reg) (hd : Bool) (s t : State) (f : Fibre) (g : Group) (desc : List Byte) (qs : List (Nat × OQueue)),
      let i := Instr.aslice h d a hd
      let addr := (joinPair (src s f a) (f.read s.cur (a.toNat + 1))).toNat
      let v := t.dropCarried (wordKey s.cur)
      let l := v.launchOp s.cur f .none (if hd then some d.toNat else none) (.slice f.grp) (v.ordAt f f.rp)
      let p := l.2.2.fibres.length
      let started : State := { l.2.2 with fibres := l.2.2.fibres ++ [pacerFibre f (w64 (leNat (desc.take 8))) l.2.2.clk] }
      (Executes i s f → Free f → s.accessesDone s.cur f = true → (∀ r ∈ s.pendingSlots s.cur, 8 ≤ r) → (∀ e ∈ f.handles, 8 ≤ e.1) → (∀ e ∈ f.poison, 8 ≤ e.1) →
        pkgOf addr = Config.pkgNumber → s.walkBlocked f .g addr 40 .read = false → s.engineRead none f .g addr 40 = (.ok desc, t) →
        l.2.2.group? f.grp = some g → g.sliceStands = false → sliceQueues desc = some qs → addr % 8 = 0 →
        l.2.2.queueTaken (l.2.2.site f).coreIx + queueBytes qs ≤ 229376 + queueBytes g.oqs →
        Leaves i s (started.modGroup f.grp fun x => { x with slice := some ⟨.running, p, l.1⟩, oqs := qs }) f l.2.1) ∧
      (Executes (.astop h) s f →
        ((s.group? f.grp).bind (·.slice) = none → Free f → Leaves (.astop h) s s f f) ∧
        (∀ sl, (s.group? f.grp).bind (·.slice) = some sl →
          (f.isPacer = true → (∀ o ∈ s.ops, o.fills s.cur = false) →
            exec (.astop h) s = .next ((s.finish s.cur (.astop h) f f).endSlice f.grp sl .ended .ok)) ∧
          (f.isPacer = false → Free f → sl.state = .running →
            let u := s.freeFilling f.grp sl.fib
            exec (.astop h) s = .next ((({ u with ops := u.ops.filter fun o => o.fib != sl.fib } : State).endSlice f.grp sl .cancelled .cancelled).finish
              s.cur (.astop h) f f))))) ∧
  (
    ∀ (h : Head) (d a b : Reg) (m : BitVec 11) (n : BitVec 6) (s : State) (f : Fibre) (q : OQueue), s.oq? f.grp d.toNat = some q →
      let num := ((s.group? f.grp).map (·.oqNext)).getD 0
      let u := s.reserve f.grp d.toNat 1 false
      let cnt := (m.extractLsb 7 3).toNat + 1
      let from_ := f.feedPlace s.cur m a
      let len := (src s f b).toNat
      let fmt := feedFmt m
      let fills := fun (i : Instr) (n : Nat) (img : Option (Fmt × Bool × Bool)) =>
        let r := u.launchOp s.cur f .none none (.feed f.grp d.toNat num from_ n img) 0xFFFFFF
        Leaves i s r.2.2 f r.2.1
      let faults := fun (i : Instr) => exec i s = .next (s.sliceFault f.grp)
      let record := recordBytes (convertedWidth fmt (m.getLsbD 8))
      (Executes (.afeed h d a b m .reg) s f →
        (q.b < 4 * cnt → faults (.afeed h d a b m .reg)) ∧
        (4 * cnt ≤ q.b → q.slots.length < q.e →
          Leaves (.afeed h d a b m .reg) s (u.fillSlot f.grp d.toNat num 0 (wordBytes (f.readRun s.cur a.toNat cnt)) []) f f)) ∧
      (Executes (.afeed h d a b m .mem) s f →
        (len = 0 ∨ q.b < len ∨ from_.addr.toNat % 4 ≠ 0 → faults (.afeed h d a b m .mem)) ∧
        (1 ≤ len → len ≤ q.b → from_.addr.toNat % 4 = 0 → q.slots.length < q.e → fills (.afeed h d a b m .mem) len none)) ∧
      (Executes (.afeed h d a b m .b) s f → record ≤ q.b → from_.addr.toNat % 8 = 0 → q.slots.length < q.e →
        fills (.afeed h d a b m .b) (4096 * fmt.bits + (if fmt.isBfp || m.getLsbD 9 then 1024 else 0)) (some (fmt, m.getLsbD 8, m.getLsbD 9))) ∧
      (Executes (.pwait h d n) s f →
        (q.e < n.toNat + 1 → faults (.pwait h d n)) ∧
        (q.slots.length + n.toNat + 1 ≤ q.e → Leaves (.pwait h d n) s s f f) ∧
        (n.toNat + 1 ≤ q.e → q.e < q.slots.length + n.toNat + 1 → exec (.pwait h d n) s = .next (s.waitFor s.cur f .opQueue))))

/-- R181: CVDECL opens a convergence register for n + 1 signers; an MMA adds its signer, waits for the rest, and the last signature puts the round's
job in the queue of the matrix engine; a signature of another word than the first is the user trap of cause 0x19. R182 and R159: the oldest
waiting MMA starts once the array is free, no older accumulator word holds its tile and its operand stands, and meanwhile holds the entry it
waits for; a running MMA retires for all its signers. -/
def Obligations.MatrixWordsAct : Prop :=
  (
    ∀ (h : Head) (c n d a b hreg sreg : Reg) (sc s32 fr spSrc reuse x hd : Bool) (fmt : Fmt) (ssel : BitVec 2) (s : State) (f : Fibre) (g : Group),
      s.group? f.grp = some g → Free f →
      let i := Instr.mma h d a b c sc s32 fr spSrc reuse x fmt hreg hd ssel sreg
      let cv := g.convs.getD c.toNat default
      let l := launched s f .mx (if hd then some hreg.toNat else none) .mma
      let signed := cv.signed ++ [(s.cur, l.1)]
      let u := (l.2.2.beginWait s.cur i f l.2.1 (.signed l.1)).modGroup f.grp fun y => { y with convs := y.convs.set c.toNat ⟨cv.n, signed, f.pc⟩ }
      (Executes (.cvdecl h c n) s f → cv.signed = [] →
        Leaves (.cvdecl h c n) s (s.modGroup f.grp fun y => { y with convs := y.convs.set c.toNat ⟨n.toNat + 1, [], 0⟩ }) f f) ∧
      (Executes i s f →
        (cv.n = 0 ∨ cv.signed ≠ [] ∧ cv.word ≠ f.pc →
          exec i s = .next (s.userTrap s.cur (wordTrap f (s.issuedWords f i).1 (s.issuedWords f i).2 0x19) f.rp false)) ∧
        (cv.word = f.pc ∨ cv.signed = [] → (∀ p ∈ cv.signed, p.1 ≠ s.cur) → f.ocmx ≠ 255 →
          (signed.length < cv.n → exec i s = .next u) ∧
          (signed.length = cv.n → (s.core (s.site f).coreIx).mmaq.length < 4 →
            ∃ job : List (Nat × Nat) → MmaJob, exec i s = .next (u.enterRound f.grp (s.site f).coreIx c.toNat job) ∧
              ∀ r, (job r).grp = f.grp ∧ (job r).op = l.1 ∧ (job r).fmt = fmt ∧ (job r).x = x ∧ (job r).sc = sc ∧ (job r).s32 = s32 ∧
                (job r).reuse = reuse ∧ (job r).fr = fr ∧ (job r).spSrc = spSrc ∧ (job r).tile = g.tmap.getD d.toNat 0 ∧ (job r).ltile = d.toNat ∧ (job r).signers = r.map (·.1) ∧
                (job r).ops = r.map (·.2))))) ∧
  (
    ∀ (core : Nat) (s : State),
      (∀ j rest, (s.core core).mmaq = j :: rest → (s.core core).running = none → (s.core core).dead = false →
        s.accOlder core j.tile j.op = false →
        (∀ st rec bad ix t, s.operandB j = .got st rec bad ix t → let r := s.compute core j (.got st rec bad ix t)
          exec (.mmaStart core) s = .next ((r.1.modCore core fun c => { c with mmaq := rest, running := some (j, r.2) }).leaveRound j)) ∧
        (s.operandB j = .wait → exec (.mmaStart core) s = .next (s.keepEntry j))) ∧
      (∀ j st, (s.core core).running = some (j, st) →
        exec (.mmaComplete core) s = .next (j.ops.foldl (fun s op => s.finishOp op st) (s.modCore core fun c => { c with running := none }))))

/-- R159 and R184: the accumulator words of an untainted fibre enter as operations on their physical tile, counted in %oc.mx, ACCRD uncounted with
its row, block and destination. R159 and R184: an accumulator word acts once nothing older holds its tile: ACCZ clears it, ACCRD writes 32
elements of its row to its registers, a transfer moves the tile and ends with its status. -/
def Obligations.AccumulatorWordsAct : Prop :=
  (
    ∀ (h : Head) (d a b : Reg) (sp : Space) (adj : Bool) (rnd : Rnd) (fmt : Fmt) (s : State) (f : Fibre),
      let tile := fun (r : Reg) => s.physTile f r
      let base := w64 (f.base s.cur sp a)
      let move := fun (k : AccKind) => { (default : Access) with kind := k, space := sp, addr := base, size := 1, base := base, tile := tile d, row := 0, fmt := .f32 }
      let v := (src s f b).toNat
      (Executes (.accz h d) s f → Free f → f.ocmx ≠ 255 → Launches (.accz h d) s f .mx none (.acc (.zero (tile d)))) ∧
      (Executes (.accld h d a sp) s f → Free f → f.ocmx ≠ 255 → s.accessRoom s.cur f = true → Launches (.accld h d a sp) s f .mx none (.acc (.move (move .accld)))) ∧
      (Executes (.accst h d a b rnd sp adj fmt) s f → Free f → f.ocmx ≠ 255 → s.accessRoom s.cur f = true → rnd ≠ .sr ∨ fmt = .f32 →
        Launches (.accst h d a b rnd sp adj fmt) s f .mx none (.acc (.move { move .accst with
          fmt := fmt, rnd := rnd, adj := adj, exps := if fmt = .f32 then 0 else w64 (f.base s.cur sp b) }))) ∧
      (Executes (.accrd h d a b) s f →
        Launches (.accrd h d a b) s f .none none (.acc (.read (tile a) (bitsOf v 22 16) (bitsOf v 8 5) (some d.toNat))))) ∧
  (
    ∀ (op : Nat) (s : State) (o : Op) (f : Fibre) (g : Group) (w : AccWork), s.op? op = some o → o.body = .acc w → o.done = none →
      s.fibre? o.fib = some f → s.group? o.grp = some g →
      let core := coreIx g.die g.clu g.core
      let tile := match w with | .zero t => t | .read t _ _ _ => t | .move a => a.tile
      (s.core core).dead = false → s.accOlder core tile op = false → (∀ j ∈ (s.core core).mmaq, j.tile = tile → op ≤ j.op) →
      (∀ r ∈ (s.core core).running, r.1.tile = tile → op ≤ r.1.op) →
      (w = .zero tile → exec (.accTransferComplete op) s =
        .next ((s.setTile core tile (List.replicate 128 (List.replicate 512 0))).finishOp op .ok)) ∧
      (∀ r b d, w = .read tile r b (some d) → o.gone = false → s.tileLost core tile = [] → exec (.accTransferComplete op) s =
        .next ((s.modFibre o.fib fun f => f.setRun d ((((s.tileRows core tile).getD r []).drop (32 * b)).take 32)).finishOp op .ok)) ∧
      (∀ a st t, w = .move a → s.moveBlocked o f a = false → s.olderDone o = true → s.moveTile o f core a = (some st, t) →
        exec (.accTransferComplete op) s = .next (t.finishOp op st)))

/-! ## Queues, counters, event records, jobs (R211 to R237) -/

/-- R225 to R230 and R237: QPUSH of an untainted fibre to a queue with room sends its entry, with payload, task and priority, to its home; QPOP
registers the group and waits; QPEEK reads the first entry without taking it; QCNT counts; a queue that is not configured is the user trap of
cause 0x1A. R216, R217, R227 and R229: an entry that has come to its home with nothing older behind it is released into its queue; the first
waiting fibre of a queue takes the entry first in order, once the writes before it are performed. R216: the entry first in order is one no fibre
has taken that comes before every other: higher PRIO, then the lower release clk, TASK and source. -/
def Obligations.QueuesAct : Prop :=
  (
    ∀ (h : Head) (d a b c : Reg) (prio : BitVec 8) (t : Bool) (n : BitVec 3) (s u : State) (f : Fibre),
      let job := s.jobOf f
      let die := (s.site f).die
      let cnt := n.toNat + 1
      let traps := fun (i : Instr) (q : Reg) => exec i s = .next (s.userTrap s.cur { f.xr with
        opc := (s.issuedWords f i).1, opd := BitVec.ofNat 32 q.toNat, opi := (s.issuedWords f i).2, cls := 0x1A } f.rp false)
      let e := fun (q : Queue) => QEntry.mk ((f.readRun s.cur a.toNat cnt ++ List.replicate 6 0).take 6 ++ [if t then src s f b else 0, prio.setWidth 32 <<< 24])
        (some (s.cur, f.wseq)) [] 0 (s.sourceOf f) false none [⟨scopeOf q.scope, s.locus f, f.seen⟩] (s.loadsOut s.cur)
      let reg := fun (q : Queue) => q.register f.grp
      (Executes (.qpush h d a b prio t n) s f →
        (f.isHelper = true → s.configured job d.toNat = true → Leaves (.qpush h d a b prio t n) s s f f) ∧
        (s.configured job d.toNat = false → traps (.qpush h d a b prio t n) d) ∧
        (∀ q, f.isHelper = false → f.taint = [] → s.queue? job d.toNat = some q → q.en = true → q.hasRoom die = true →
          let v := s.modQueue job d.toNat fun q => q.takeRoom die
          let w := if q.home.1 = Config.pkgNumber ∧ q.homeDie = die then v else v.countSent die job
          Leaves (.qpush h d a b prio t n) s (w.sendMsg s.cur f (.push d.toNat (e q) die)) f { f with wseq := f.wseq + 1 })) ∧
      (Executes (.qpop h d a n) s f →
        (s.configured job a.toNat = false → traps (.qpop h d a n) a) ∧
        (f.isHelper = false → s.configured job a.toNat = true → BeginsWait (.qpop h d a n) s (s.modQueue job a.toNat fun q =>
          { reg q with waiters := if q.waiters.contains s.cur then q.waiters else q.waiters ++ [s.cur] }) f f (.qpop a.toNat cnt d.toNat))) ∧
      (Executes (.qpeek h d a c n) s f → f.isHelper = false → s.configured job a.toNat = true →
        ((s.modQueue job a.toNat reg).popLook s.cur f job a.toNat = (.empty, u) →
          Leaves (.qpeek h d a c n) s u f ((f.setRun d.toNat (List.replicate cnt 0)).setPred c.toNat false)) ∧
        (∀ j e, (s.modQueue job a.toNat reg).popLook s.cur f job a.toNat = (.ready j e [], u) →
          Leaves (.qpeek h d a c n) s u f ((({ u.acquireEntry f job a.toNat e with ckpt := none } : Fibre).setRun d.toNat (e.words.take cnt)).setPred c.toNat true))) ∧
      (Executes (.qcnt h d a) s f →
        (s.configured job a.toNat = false → traps (.qcnt h d a) a) ∧
        (∀ q, s.queue? job a.toNat = some q → q.en = true → q.home.1 = Config.pkgNumber →
          Sets (.qcnt h d a) s f d.toNat [BitVec.ofNat 32 (q.ring.length + q.ext.length)] Conds.none))) ∧
  (
    (∀ (msg num die : Nat) (e : QEntry) (s : State) (m : Msg) (q : Queue), s.msg? msg = some m → m.body = .push num e die →
      (∀ x ∈ s.msgs, x.fib = m.fib → x.stamp < m.stamp → ∀ e d, x.body ≠ .push num e d) → s.queue? m.job num = some q →
      q.home.1 = Config.pkgNumber → die = q.homeDie →
      exec (.queueEntryArrive msg) s = .next (((s.modQueue m.job num fun q =>
        { q with inFlight := q.inFlight - 1 }).releaseEntry m.job num ⟨q.homeDie, q.homeClu % 8, 8⟩ (s.arriving q.homeDie e)).dropMsg msg)) ∧
    ∀ (fib num n d j : Nat) (e : QEntry) (s t : State) (f : Fibre) (q : Queue), s.fibre? fib = some f → (∃ w, f.run = .waiting w) →
      f.wait = some (.qpop num n d) → s.queue? (s.jobOf f) num = some q → s.firstWaiter q = some fib →
      s.popLook fib f (s.jobOf f) num = (.ready j e [], t) → exec (.qpopReturn fib) s = .next (t.givePop fib f (s.jobOf f) num n d j e [])) ∧
  (
    ∀ (l : List QEntry) (j : Nat) (e : QEntry), firstEntry l 0 = some (j, e) →
      l[j]? = some e ∧ e.takenBy = none ∧ ∀ x ∈ l, x.takenBy = none → x.prio ≤ e.prio ∧
        (x.prio = e.prio → e.relClk ≤ x.relClk ∧ (x.relClk = e.relClk → e.task ≤ x.task ∧ (x.task = e.task → e.src ≤ x.src))))

/-- R220, R225, R231 to R236: the counter words of an untainted fibre leave as messages behind its accesses, TRIG counts, and publishes what the
fibre has seen, once its accesses are complete, BEAT, DWAIT, EVPOST and EVPOP act on their cluster's and job's registers. R220 and R232: at its
counter DCARM arms it, or with a count of 0 releases its successor; DCDEC lowers an armed one, and the decrement to 0 frees it and releases its
successor; a counter ID of 2^17 or more, or outside the job's range, is discarded with event 0x09, once its record stands (R211). -/
def Obligations.CountersAndEventsAct : Prop :=
  (
    ∀ (h : Head) (d a b c q : Reg) (nb : Bool) (s : State) (f : Fibre),
      let clu := (s.site f).cluIx
      let producer := ((s.job? (s.jobOf f)).map (·.producer)).getD 0
      (Executes (.dcarm h a b c q) s f → Free f →
        Leaves (.dcarm h a b c q) s (s.sendMsg s.cur f (.dcarm (src s f a) (src s f b) (f.readRun s.cur c.toNat 8) q.toNat)) f
          { f with wseq := f.wseq + 1 }) ∧
      (Executes (.dcdec h a) s f → Free f → Leaves (.dcdec h a) s (s.sendMsg s.cur f (.dcdec (src s f a))) f { f with wseq := f.wseq + 1 }) ∧
      (Executes (.trig h) s f →
        (f.trigd = true → Leaves (.trig h) s s f f) ∧
        (Free f → f.trigd = false → f.held = [] →
          (s.accessesDone s.cur f = true → Leaves (.trig h) s (s.publish (.job (s.jobOf f)) f.seen) f { f with trigd := true }) ∧
          (s.accessesDone s.cur f = false → exec (.trig h) s = .next (s.waitFor s.cur f .trig)))) ∧
      (Executes (.dwait h d) s f →
        (∀ v, s.producerDone producer = some v → Leaves (.dwait h d) s s f ((s.acquire (.job producer) f).setReg d.toNat v)) ∧
        (s.producerDone producer = none → exec (.dwait h d) s = .next (s.waitFor s.cur f .dwait))) ∧
      (Executes (.beat h) s f →
        (f.isHelper = true → Leaves (.beat h) s s f f) ∧
        (f.isHelper = false → Leaves (.beat h) s (s.modGroup f.grp fun g => { g with beat := s.clk }) f f)) ∧
      (Executes (.evpost h a) s f → Free f →
        (s.eventRoom clu = true → Leaves (.evpost h a) s (s.postFibre f (src s f a).toNat 0x0B .ok .none) f f) ∧
        (s.eventRoom clu = false → f.isControl = false → exec (.evpost h a) s = .next (s.waitFor s.cur f .queue))) ∧
      (Executes (.evpop h d nb) s f →
        (∀ r l, (s.cluster clu).events = r :: l → ∃ ws : List Word, ws.length = 4 ∧ leNat (wordBytes ws) = r.toNat ∧
          Leaves (.evpop h d nb) s (s.modCluster clu fun c => { c with events := l }) f (f.setRun d.toNat ws)) ∧
        ((s.cluster clu).events = [] → nb = true → Leaves (.evpop h d nb) s s f (f.setRun d.toNat [0, 0, 0, 0])) ∧
        ((s.cluster clu).events = [] → nb = false → exec (.evpop h d nb) s = .next (s.waitFor s.cur f .queue)))) ∧
  (
    ∀ (msg : Nat) (s : State) (m : Msg) (j : Job) (id n : Word) (succ : List Word) (q : Nat), s.msg? msg = some m → s.job? m.job = some j →
      (∀ x ∈ s.msgs, x.fib = m.fib → m.stamp ≤ x.stamp) → (∀ f, s.fibre? m.fib = some f → f.releasing = []) → m.dead = false →
      let ok := id.toNat < 2 ^ 17 ∧ j.ctrLo.toNat ≤ id.toNat ∧ id.toNat ≤ j.ctrHi.toNat
      let clu := bitsOf id.toNat 16 12
      let ix := bitsOf id.toNat 11 0
      let discards := fun (st : Status) => ({ s with msgs := s.msgs.map fun x => if x.id == msg then { x with dead := true } else x } : State).postHw
        clu id.toNat m.job 9 st (.drop msg)
      let v := s.live (s.viewAt m.fib m.stamp m.view)
      let view := fun (c : DepCounter) => if v = [] then c.view else addSync c.view ⟨s.queueScope c.job c.queue, m.who, v⟩
      (m.body = .dcarm id n succ q →
        (2 ^ 17 ≤ id.toNat → exec (.dcarmArrive msg) s = .next (discards .fault)) ∧
        (id.toNat < 2 ^ 17 → ¬ok → exec (.dcarmArrive msg) s = .next (discards .access)) ∧
        (ok → (65535 < n.toNat ∨ s.configured m.job q = false) → exec (.dcarmArrive msg) s = .next (discards .fault)) ∧
        (ok → n.toNat ≤ 65535 → s.configured m.job q = true → look ix (s.cluster clu).counters = none →
          (n = 0 → exec (.dcarmArrive msg) s = .next ((s.releaseSuccessor m.job q succ id []).dropMsg msg)) ∧
          (n ≠ 0 → exec (.dcarmArrive msg) s = .next ((s.modCluster clu fun c =>
            { c with counters := assignSorted ix ⟨n.toNat, succ, q, m.job, []⟩ c.counters }).dropMsg msg)))) ∧
      (m.body = .dcdec id → s.drained (some (m.fib, m.stamp)) = true →
        (2 ^ 17 ≤ id.toNat → exec (.dcdecArrive msg) s = .next (discards .fault)) ∧
        (∀ c, ok → look ix (s.cluster clu).counters = some c →
          (1 < c.count → exec (.dcdecArrive msg) s = .next ((s.modCluster clu fun x =>
            { x with counters := assignSorted ix { c with count := c.count - 1, view := view c } x.counters }).dropMsg msg)) ∧
          (c.count ≤ 1 → exec (.dcdecArrive msg) s = .next (((s.modCluster clu fun x =>
            { x with counters := x.counters.filter (·.1 != ix) }).releaseSuccessor c.job c.queue c.succ id (view c)).dropMsg msg)))))

/-- R218, R222, R223, R228 and R211: credits move between a home and a die within 64; a queue all of whose consumers wait in pushes to it is a
deadlock, which faults its job once event 0x07 stands; two balanced idle rounds alike complete a job; a late watchdog faults it; a write of
CEVDROP clears it. -/
def Obligations.QueueAndJobEventsAct : Prop :=
  ∀ (job queue die n clu : Nat) (s : State) (q : Queue) (j : Job), s.queue? job queue = some q → s.job? job = some j →
    let has := (look die q.credits).getD 0
    let moved := fun (n : Nat) => Host.Outcome.next (s.modQueue job queue fun q => { q with credits := assign die n q.credits })
    let counts := s.jobCounts job
    let round := fun (r : Option (List Counts)) => s.modJob job fun x => x.round r
    (q.en = true → die < 4 → (q.home.1 = Config.pkgNumber → q.homeDie ≠ die ∧ n ≤ q.free) → has + n ≤ 64 →
      exec (.queueCreditGrant job queue die n) s = moved (has + n)) ∧
    (n ≤ has → exec (.queueCreditReturn job queue die n) s = moved (has - n)) ∧
    (q.consumers ≠ [] → (∀ g ∈ q.consumers, ∀ m ∈ s.members g, m.2.isHelper = true ∨ m.2.run = .ended ∨ s.waitsInPush m.2 queue = true) →
      s.allPlaced job = true → j.ending = none → j.status = none → (∀ e ∈ (s.cluster q.homeClu).evWait, e.2 ≠ .deadlock job) →
      exec (.queueDeadlock job queue) s = .next (s.postHw q.homeClu queue job 7 .ok (.deadlock job))) ∧
    (∀ t : State, t.applyAct (.deadlock job) = t.faultJob job 2) ∧
    (j.status = none → j.ending = none → (s.cluster 0).evWait = [] → (∀ p ∈ j.peers, p.last ≠ none) →
      ((s.jobIdle job = false ∨ balanced counts = false) → exec (.quiescenceRound job) s = .next (round none)) ∧
      (s.jobIdle job = true → balanced counts = true → j.lastRound ≠ some counts → exec (.quiescenceRound job) s = .next (round (some counts))) ∧
      (s.jobIdle job = true → balanced counts = true → j.lastRound = some counts →
        exec (.quiescenceRound job) s = .next ((round (some counts)).postHw 0 (j.rounds + 1) job 2 (if j.failed then .fault else .ok)
          (.complete job (if j.failed then .fault else .ok))))) ∧
    (j.persistent = false → j.period ≠ 0 → j.ending = none → j.status = none →
      (max j.lastIssue j.launchClk + j.period ≤ s.clk → exec (.watchdogTest job) s = .next ((s.modJob job fun x => { x with
        late := ((sortBy (fun p => p.2.gid) ((s.jobGroups job).filter fun p => !p.2.exited)).head?.map fun p => p.2.gid).getD 0 }).faultJob job 1)) ∧
      (s.clk < max j.lastIssue j.launchClk + j.period → exec (.watchdogTest job) s = .next s)) ∧
    exec (.cevdropClear clu) s = .next (s.modCluster clu fun c => { c with cevdrop := 0 })

/-! ## Assumptions (R280 to R299) -/

/-- R280, R296 to R299: GUESS opens the lowest free slot of its die and taints the fibre with its AID, with the guessed value in d; AFFIRM and DENY
of an untainted fibre send their resolution to the AID's home; TAGQ reads an AID of the taint or a state, and waits while it is open. -/
def Obligations.AssumptionWordsAct : Prop :=
  ∀ (h : Head) (d a b c aidReg : Reg) (ty : Ty) (aid imm hd : Bool) (idx : BitVec 2) (s : State) (f : Fibre),
    let i := Instr.guess h d a b c ty aidReg aid false imm true
    let g : DWord := if imm then b.setWidth 64 else if ty.is64 then joinPair (src s f b) (f.read s.cur (b.toNat + 1)) else (src s f b).setWidth 64
    let die := (s.site f).die
    let put := fun (x : Fibre) => x.setRun d.toNat (if ty.is64 then dwords g else [loWord g])
    let deny : Resolution := .deny (if ty.is64 then joinPair (src s f b) (f.read s.cur (b.toNat + 1)) else (src s f b).setWidth 64)
    let sends := fun (i : Instr) (r : Resolution) =>
      let l := launched s f .none (if hd then some d.toNat else none) .resolve
      exec i s = .next ((l.2.2.finish s.cur i f l.2.1).sendMsg s.cur l.2.1 (.resolve (src s f a) r (some l.1)))
    (Executes i s f →
      (f.isHelper = true → Leaves i s s f (put (if aid then f.setReg aidReg.toNat 0 else f))) ∧
      (∀ slot, f.isHelper = false → f.restarts = [] → f.taint = [] → (s.die die).freeSlot = some slot → (s.ensureCkpt f f.rp).ckptStalls = false →
        let gen := (s.die die).nextGen slot
        let id := mkAid die slot gen
        let e := { s.ensureCkpt f f.rp with taint := [(id, 0)] }
        let x : AidSlot := { state := .open, gen := gen, job := s.jobOf f, fib := s.cur, word := f.pc, value := g, wide := ty.is64, auto := false,
                             loc := none, op := 0, seen := none, watch := none, answer := none, recv := [(Config.pkgNumber, die)], acked := [] }
        Leaves i s (s.modDie die fun y => { y with slots := assignSorted slot x y.slots }) f (put (if aid then e.setReg aidReg.toNat id else e))) ∧
      (f.isHelper = false → f.restarts = [] → 4 ≤ f.taint.length →
        exec i s = .next (s.waitFor s.cur { f with guessing := none } .tag))) ∧
    (Executes (.affirm h d a hd) s f → Free f → aidPkg (src s f a) = Config.pkgNumber → sends (.affirm h d a hd) .affirm) ∧
    (Executes (.deny h d a b ty hd) s f → Free f → aidPkg (src s f a) = Config.pkgNumber → sends (.deny h d a b ty hd) deny) ∧
    (Executes (.tagq h d a idx .aid) s f → Sets (.tagq h d a idx .aid) s f d.toNat [((f.taint[idx.toNat]?).map (·.1)).getD 0] Conds.none) ∧
    (Executes (.tagq h d a idx .state) s f →
      Sets (.tagq h d a idx .state) s f d.toNat [BitVec.ofNat 32 (s.aidState (src s f a))] Conds.none) ∧
    (Executes (.tagq h d a idx .wait) s f →
      (s.aidState (src s f a) ≠ 1 → Sets (.tagq h d a idx .wait) s f d.toNat [BitVec.ofNat 32 (s.aidState (src s f a))] Conds.none) ∧
      (s.aidState (src s f a) = 1 → exec (.tagq h d a idx .wait) s = .next (s.waitFor s.cur f .tagq)))

/-- R281, R291 to R293 and R298: a resolution at its AID's home settles an open slot of its own job once, and answers ACCESS, FAULT, CANCELLED or
DENIED else; a watched operation that retired OK with the guessed value affirms, any other value denies; receivers apply the outcome and
acknowledge it; with the last acknowledgement the slot is free; a checkpoint written out lets its fibre go on (R143). -/
def Obligations.AssumptionsResolve : Prop :=
  ∀ (msg die slot fib : Nat) (a : BitVec 32) (s : State) (m : Msg) (r : Resolution) (op : Nat) (x : AidSlot),
    let answers := fun (st : Status) (u : State) => exec (.resolutionAtHome msg) s = .next ((u.finishOp op st).dropMsg msg)
    (s.msg? msg = some m → m.body = .resolve a r (some op) →
      (s.slotOf a = none → answers .fault s) ∧
      (s.slotOf a = some x →
        (x.job ≠ m.job → answers .access s) ∧ (x.job = m.job → x.auto = true → answers .fault s) ∧
        (x.job = m.job → x.auto = false → x.state = .affirmed → answers .cancelled s) ∧
        (x.job = m.job → x.auto = false → x.state = .denied → answers .denied s) ∧
        (x.job = m.job → x.auto = false → x.state = .open →
          answers .ok (s.settleSlot a r (match r with | .deny v => some v | _ => none))))) ∧
    (∀ st v, look slot (s.die die).slots = some x → x.watch = some st → x.state = .open → x.auto = true → x.seen = some (some v) →
      (s.fibre? x.fib).isSome = true →
      (st = .ok → v = x.value → exec (.watchedOpResolve die slot) s = .next (s.settleSlot (mkAid die slot x.gen) .affirm none)) ∧
      (st ≠ .ok ∨ v ≠ x.value →
        exec (.watchedOpResolve die slot) s = .next (s.settleSlot (mkAid die slot x.gen) (.deny v) (some v)))) ∧
    (s.slotOf a = some x → (Config.pkgNumber, die) ∈ x.recv → (Config.pkgNumber, die) ∉ x.acked → s.tagsOut (some die) a = false →
      (x.state = .affirmed → exec (.affirmApply die a) s = .next ((s.applyAffirm (some die) a).ackSlot die a)) ∧
      (x.state = .denied → (s.applyDeny (some die) a).2 = true → exec (.denyApply die a) s = .next ((s.applyDeny (some die) a).1.ackSlot die a))) ∧
    (s.slotOf a = some x → aidDie a = die → x.state = .affirmed ∨ x.state = .denied →
      ((∀ d ∈ x.recv, d ∈ x.acked) → exec (.resolutionAck die a) s = .next (s.modSlot a fun x => { x with state := .free })) ∧
      (∀ d ∈ x.recv, d ∉ x.acked → exec (.resolutionAck die a) s = .next s)) ∧
    (∀ f w, s.fibre? fib = some f → f.wait = some .ckpt → f.run = .waiting w →
      let g : Fibre := { f with wait := none }
      exec (.checkpointSpillComplete fib) s = .next ((s.storeCkpt f).setFibre fib { g with run := g.freeRun }) ∧
        (f.arrive = none → f.stopIn = none → g.freeRun = .ready))

/-- R286 and R293: a roll-back gives the fibre back the registers, predicates, flags and point of its checkpoint, its poison and the replay records
it had there, an empty taint and nothing held; a live register that was pending at the word is pending still. -/
def Obligations.RollbacksRestore : Prop :=
  ∀ (f : Fibre) (c : Checkpoint), let g := f.restore c
    (∀ r, r < f.regs.length → g.reg r = (c.regs.getD r none).getD 0) ∧
    (∀ p, p ∈ g.handles ↔ p ∈ f.handles ∧ p.2 < c.num ∧ (c.regs.getD p.1 none).isSome = true) ∧
    g.preds = c.preds ∧ g.lr = c.lr ∧ g.lc = c.lc ∧ g.loops = c.loops ∧ g.astat = c.astat ∧ g.ks = c.ks ∧ g.xr = c.xr ∧ g.rp = c.rp ∧ g.hdr = c.hdr ∧
    g.poison = c.poison ∧ g.replay = f.replay.take c.nreplay ∧ g.taint = [] ∧ g.held = [] ∧ g.undo = [] ∧ g.ckpt = none ∧
    g.fid = f.fid ∧ g.grp = f.grp ∧ g.token = f.token ∧ g.service = f.service

/-! ## The fabric (R316 to R344) -/

/-- R334, R336 to R341: the fabric words of an untainted fibre whose %oc.fx has room launch their operation with what their registers give and start
it, with a local handle of its own where one is asked for; WANT's deadline is 1500 clk times 2 to its lifetime away; SIGWT waits at its word for
its signal. -/
def Obligations.FabricWordsLaunch : Prop :=
  ∀ (h : Head) (d a b c p lh : Reg) (addSig sig bar : Bool) (ty : Ty) (sp : Space) (life : BitVec 4) (cond : SigCond) (s : State) (f : Fibre),
    Free f → f.ocfx ≠ 255 →
    let pair := fun (r : Nat) => joinPair (f.read s.cur r) (f.read s.cur (r + 1))
    let place := fun (r : Reg) => Place.mk sp (w64 (f.base s.cur sp r))
    let n := (src s f c).toNat
    let starts := fun (i : Instr) (x : FabOp) => let l := launched s f .fx (some d.toNat) (.fab x 0 [] none .ok)
      exec i s = .next ((l.2.2.finish s.cur i f l.2.1).startFab l.2.1 x l.1)
    let startsBoth := fun (i : Instr) (x : Option Nat → FabOp) => let l := launched s f .none (some lh.toNat) .resolve
      let m := l.2.2.launchOp s.cur l.2.1 .fx (some d.toNat) (.fab (x (some l.1)) 0 [] none .ok) (s.ordAt f f.rp)
      exec i s = .next ((m.2.2.finish s.cur i f m.2.1).startFab m.2.1 (x (some l.1)) m.1)
    let signal := if sig then some (pair (c.toNat + 2), pair (c.toNat + 4), addSig) else none
    (Executes (.puts h d a b c lh false addSig sig sp) s f → starts (.puts h d a b c lh false addSig sig sp) (.puts (pair a.toNat) (place b) n signal none)) ∧
    (Executes (.puts h d a b c lh true addSig sig sp) s f →
      startsBoth (.puts h d a b c lh true addSig sig sp) fun l => .puts (pair a.toNat) (place b) n signal l) ∧
    (Executes (.get h d a b c bar sp) s f → starts (.get h d a b c bar sp)
      (.get (place a) (pair b.toNat) n (if bar then some (f.read s.cur (c.toNat + 1)).toNat else none))) ∧
    (Executes (.radd h d a b c ty lh false sp) s f → starts (.radd h d a b c ty lh false sp) (.radd ty (pair a.toNat) (place b) n none)) ∧
    (Executes (.radd h d a b c ty lh true sp) s f → startsBoth (.radd h d a b c ty lh true sp) fun l => .radd ty (pair a.toNat) (place b) n l) ∧
    (Executes (.announce h d a b c sp) s f → starts (.announce h d a b c sp) (.announce (place a) (pair b.toNat) n)) ∧
    (Executes (.want h d a b c sp life) s f → s.unrouted (s.jobOf f) (pair b.toNat) = false →
      starts (.want h d a b c sp life) (.want (place a) (pair b.toNat) n (s.clk + 1500 * 2 ^ life.toNat))) ∧
    (Executes (.sigwt h d a b c p cond) s f → s.accessesDone s.cur f = true → BeginsWait (.sigwt h d a b c p cond) s s f f
      (.sigwt (pair a.toNat) cond (pair b.toNat) d.toNat p.toNat (if n = 0 then none else some (s.clk + n))))

/-- R321, R329, R331 and R339: local completion of an operation on this package takes its data and reports its local handle; interests and tiles come
in by the ports of links; a WANT whose time is over completes NEVER; a SIGWT returns its signal's value with p once the condition holds, without
p once its time is over. R316 to R322: an acknowledgement takes its copy out of the retransmit buffer; 100 microseconds without one resend it; a
flit replayed over 8 times brings its link down, else it is counted; a link goes down with its packets resent and comes up again by retraining; a
packet is forwarded while its hops last; one in sequence is applied, a later one is kept until its turn. -/
def Obligations.FabricEventsAct : Prop :=
  (
    ∀ (op port fib : Nat) (face : Interest) (tile : TileMsg) (s t : State) (o : Op) (f : Fibre) (v : DWord) (cond : SigCond) (x addr : DWord) (d p : Nat)
      (dl : Option Nat) (bs : List Byte),
      (∀ dst from_ len bar, s.op? op = some o → o.body = .fab (.get dst from_ len bar) 0 [] none .ok → s.fibre? o.fib = some f →
        f.holdsOp op = false → s.olderDone o = true → o.done = none → s.flowReady o f (.get dst from_ len bar) = true → dst.space ≠ .sys →
          (∀ b, bar = some b → s.pieceBlocked o.fib f .sp b 16 = false) → pkgOf from_.toNat = Config.pkgNumber →
        exec (.localCompletion op) s = .next (s.modOp op fun y => { y with body := .fab (.get dst from_ len bar) 0 [] (some []) .ok })) ∧
      (∀ dst from_ len sg l, s.op? op = some o → o.body = .fab (.puts dst from_ len sg (some l)) 0 [] none .ok → s.fibre? o.fib = some f →
        f.holdsOp op = false → s.olderDone o = true → o.done = none → s.pieceBlocked o.fib f from_.space from_.addr.toNat len = false →
        s.flowReady o f (.puts dst from_ len sg (some l)) = true → pkgOf dst.toNat = Config.pkgNumber → (from_.space = .g → pkgOf from_.addr.toNat = Config.pkgNumber) → s.engineRead (some o.id) f from_.space from_.addr.toNat len = (.ok bs, t) →
        exec (.localCompletion op) s = .next (((t.watchOp o from_.space from_.addr.toNat len false).finishOp l .ok).modOp o.id fun y =>
          { y with body := .fab (.puts dst from_ len sg (some l)) 0 [] (some bs) .ok })) ∧
      (face.face = .port port → port < 36 → exec (.interestArrive port face) s = .next (match s.interestAt 4 port face with | .to u => u | _ => s)) ∧
      (port < 36 → exec (.tileReturn port tile) s = .next (s.tileAt port tile)) ∧
      (∀ dst name cap dl sent, s.op? op = some o → o.body = .fab (.want dst name cap dl) 0 sent none .ok → o.done = none → dl ≤ s.clk →
        s.crumbsAt port = [] → port < 36 → exec (.faceDeadline port ⟨o.job, face.name, .op op, dl, face.die, face.clu, face.hops⟩) s =
          .next ((s.setCrumbs port []).wantTile op ⟨o.job, face.name, [], false, true⟩)) ∧
      (s.fibre? fib = some f → f.run = .waiting .sigwt → f.wait = some (.sigwt addr cond x d p dl) → s.signalOp fib = none →
        s.walkBlocked f .g addr.toNat 8 .read = false → s.readSignal f addr = (.value v, t) →
        let back := fun (hit : Bool) =>
          Host.Outcome.next (t.modFibre fib fun g => ((((t.acquireSignal f addr d g).setRun d (dwords v)).setPred p hit).leaveWait 2))
        let holds := match cond with | .ge => decide (x.toNat ≤ v.toNat) | .eq => decide (v = x) | .ne => decide (v ≠ x)
        (holds = true → exec (.sigwtRecheck fib) s = back true) ∧ (holds = false → exec (.sigwtRecheck fib) s = .next t) ∧
        (∀ t0, dl = some t0 → t0 ≤ s.clk → exec (.sigwtTimeout fib) s = back holds))) ∧
  (
    ∀ (port again seq : Nat) (ack : Ack) (pkt : Packet) (s t : State) (r : Retx),
      (s.pkg.retx.find? (fun r => r.id == ack.id) = some r → s.answered r ack = some t →
        exec (.fabricAckArrive ack) s = .next (t.modPkg fun p => p.drop s.clk r.id)) ∧
      (s.pkg.retx.find? (fun r => r.id == seq) = some r →
        (r.clk + 150000 ≤ s.clk → exec (.retransmitTimeout seq) s = .next (s.resend r)) ∧
        (s.clk < r.clk + 150000 → exec (.retransmitTimeout seq) s = .next s)) ∧
      (s.pkg.portUp port = true →
        (8 < again → exec (.flitCrcReplay port again) s = .next (s.linkDown port)) ∧
        (again ≤ 8 → exec (.flitCrcReplay port again) s =
          .next (s.modFpstat port fun w => if bitsOf w.toNat 15 0 = 0xFFFF then w else w + 1))) ∧
      (s.pkg.portUp port = true → (∀ r ∈ s.pkg.retx, r.port ≠ some port) → port < s.pkg.fpstat.length →
        ∃ u, exec (.fabricLinkDown port) s = .next u ∧ u.pkg.portUp port = false ∧
          (∃ v, exec (.fabricLinkRetrain port) u = .next v ∧ v.pkg.portUp port = true)) ∧
      (pkt.dst ≠ Config.pkgNumber → 1 < pkt.hops → s.pkg.egress pkt.dst pkt.die pkt.clu pkt.tdie = .ok port →
        exec (.fabricPacketForward pkt) s = .next (s.modPkg fun p => { p with fwd := p.fwd ++ [(port, { pkt with hops := pkt.hops - 1 })] })) ∧
      (port < 36 → pkt.dst = Config.pkgNumber → (∀ i, pkt.body ≠ .interest i) → (∀ i, pkt.body ≠ .tile i) →
        (pkt.seq = s.expected pkt →
          exec (.fabricPacketArrive port pkt) s = .next ((s.applyNext port pkt).applyHeld pkt (s.pkg.early.length + 1))) ∧
        (s.expected pkt < pkt.seq → (∀ e ∈ s.pkg.early, flowOf e.2 ≠ flowOf pkt) →
          exec (.fabricPacketArrive port pkt) s = .next (s.modPkg fun p => { p with early := p.early ++ [(port, pkt)] }))))

/-- R323, R326 and R342 to R344: TWALK and CSEQ of an untainted fibre with room launch and start their operation, CSEQ with the program it read;
PERMIT to a running walk's free buffer sends its permit and else clears its predicate; a permit that arrives is counted once. R326, R327: a tile
walk's step serves the destination that comes next, or its source, and the walk whose destinations have all had their tiles ends and completes
its handle. -/
def Obligations.WalksAct : Prop :=
  (
    ∀ (h : Head) (d a b : Reg) (tag port : BitVec 6) (op : Nat) (s t : State) (f : Fibre) (o : Op) (w : TWalk) (bs : List Byte),
      let desc := joinPair (src s f a) (f.read s.cur (a.toNat + 1))
      let die := (s.site f).die
      let starts := fun (i : Instr) (u : State) (x : FabOp) (go : State → Op → State) =>
        let l := (u.dropCarried (wordKey s.cur)).launchOp s.cur f .fx (some d.toNat) (.fab x 0 [] none .ok) (u.ordAt f f.rp)
        let v := (l.2.2.finish s.cur i f l.2.1).startFab l.2.1 x l.1
        exec i s = .next (match v.op? l.1 with | some o => if o.done.isSome then v else go v o | none => v)
      let key := (src s f a).toNat
      let buf := (src s f b).toNat
      (Executes (.twalk h d a tag port) s f → Free f → s.accessesDone s.cur f = true → f.ocfx ≠ 255 →
        (s.pkg.walks.filter fun w => w.port == port.toNat).length < 64 →
        let x := FabOp.twalk desc port.toNat tag.toNat
        let engine := s.agent die (s.jobOf f) (0x4301 + port.toNat)
        let free := s.fabOk f x = true ∧ s.walkOfKey (s.jobOf f) port.toNat tag.toNat = none
        (¬free → starts (.twalk h d a tag port) s x fun v o => v.finishFab o .fault) ∧
        (free → pkgOf desc.toNat = Config.pkgNumber → s.walkBlocked engine .g desc.toNat 160 .read = false →
          s.engineRead none engine .g desc.toNat 160 = (.ok bs, t) →
          starts (.twalk h d a tag port) t x fun v o => v.beginTileWalk o port.toNat tag.toNat die bs)) ∧
      (Executes (.cseq h d a b) s f → Free f → s.accessesDone s.cur f = true → f.ocfx ≠ 255 → (s.pkg.progs.filter (·.live)).length < 64 →
        let x := FabOp.cseq desc (src s f b)
        s.fabOk f x = true → s.progOf (s.jobOf f) buf = none →
        s.readProg s.cur (s.agent die (s.jobOf f) 0x4300) desc.toNat = (some (.ok bs), t) → t.chunkRoom bs = true →
        starts (.cseq h d a b) t x fun v o => v.startProg o die buf bs) ∧
      (Executes (.permit h d a b) s f → Free f →
        (s.walkOfKey (s.jobOf f) (bitsOf key 5 0) (bitsOf key 11 6) = none → Leaves (.permit h d a b) s s f (f.setPred d.toNat false)) ∧
        (s.walkOfKey (s.jobOf f) (bitsOf key 5 0) (bitsOf key 11 6) = some w → key < 2 ^ 15 → bitsOf key 14 12 < w.dests.length → buf < w.k →
          Launches (.permit h d a b) s f .none none (.permit w.id (bitsOf key 14 12) buf d.toNat))) ∧
      (∀ e buf pd, s.op? op = some o → o.body = .permit w.id e buf pd → s.olderDone o = true → o.gone = false → s.walk? w.id = some w →
        (e, buf) ∉ w.permits → exec (.walkPermitArrive op) s = .next (((s.dropOp op).modWalk w.id fun w =>
          if w.permits.contains (e, buf) then w else { w with permits := w.permits ++ [(e, buf)] }).modFibre o.fib fun f => f.setPred pd true))) ∧
  (
    ∀ (walk e : Nat) (s : State) (w : TWalk), s.walk? walk = some w →
      (w.openDests ≠ [] → w.storer = true → exec (.tileWalkTile walk) s = .next ((s.storerStep w).endWalk walk)) ∧
      (w.openDests ≠ [] → w.storer = false → s.nextDest w = some e → exec (.tileWalkTile walk) s = .next ((s.loadTile w e).endWalk walk)) ∧
      (∀ o, w.openDests = [] → w.acks = [] → s.op? w.op = some o →
        exec (.tileWalkTile walk) s = .next ((s.modPkg fun p => { p with walks := p.walks.filter fun x => x.id != walk }).finishFab o w.st)))

/-- R323 to R325: the steps of a collective program on this package. LOAD fills its chunk, SEND puts it in an empty slot of this package, RADD adds
it to memory, the receives combine or copy a full slot and free it, WRITE stores and frees a chunk, SIGNAL adds 1 to a signal, WAITGE goes on
once a signal has its value, END completes the program, DATAERR where an element was bad. R324, R325: a chunk enters the empty slot whose credit
its program gave out; a credit of another package is kept once; a running program's credit for an empty slot is sent; an abort ends the run it
names and is passed on, one of a run that has been is nothing. -/
def Obligations.CollectivesRun : Prop :=
  (
    ∀ (prog : Nat) (s t : State) (p : Prog) (x : CollStep), s.prog? prog = some p → p.step = x → p.sent = none →
      let w := collWidth p.ty
      let ow := if p.dfmt = 1 then 2 else w
      let from_ := (p.src.toNat + p.first x.c * w) % 2 ^ 64
      let into := (p.dst.toNat + p.first x.c * ow) % 2 ^ 64
      let next := fun (e : Instr) (u : State) (bad : Bool) => exec e s = .next (u.nextStep p bad)
      let mine : CollMsg := ⟨p.job, p.tag, Config.pkgNumber, x.s, p.ty, (p.accOf x.c).map fun v => w64 (wire p.ty v.toNat), p.ord, .ok⟩
      (x.op = 0 → exec (.collEnd prog) s = .next (s.endProg p (if p.bad then .dataerr else .ok))) ∧
      (∀ vs bad, x.op = 1 → pkgOf from_ = Config.pkgNumber → s.readElems p.op (p.agent s) w from_ (p.count x.c) = (.ok (vs, bad), t) →
        next (.collLoad prog) (t.modProg p.id fun q => q.setAcc x.c vs) bad) ∧
      (x.op = 2 → x.p = Config.pkgNumber → look x.s p.slots = none → x.s ∉ p.granted →
        next (.collSend prog) (s.modProg p.id fun q => { q with slots := assign x.s mine q.slots }) false) ∧
      (x.op = 3 → p.ty ≠ 0 → pkgOf x.a = Config.pkgNumber →
        s.raddElems (p.agent s) (if p.ty = 2 then .s64 else .s32) x.a ((p.accOf x.c).map (·.toNat)) = (.ok, t) → next (.collRadd prog) t false) ∧
      (∀ m, look x.s p.slots = some m → m.ty = p.ty → m.values.length = p.count x.c →
        let new := m.values.map fun v => widen p.ty v.toNat
        let took := fun (vs : List DWord) => s.modProg p.id fun q => { q.setAcc x.c vs with slots := q.slots.filter fun e => e.1 != x.s }
        (x.op = 4 → next (.collRecvAdd prog) (took (((p.accOf x.c).zip new).map fun e => w64 (collAdd p.ty e.1.toNat e.2))) false) ∧
        (x.op = 5 → next (.collRecvCopy prog) (took (new.map w64)) false)) ∧
      (x.op = 6 → pkgOf into = Config.pkgNumber →
        s.engineWrite s.fibres.length (p.agent s) none .g false into ((p.accOf x.c).flatMap p.outBytes) = (none, t) →
        next (.collWrite prog) (t.modProg p.id fun q => { q with acc := q.acc.filter fun e => e.1 != x.c }) false) ∧
      (x.op = 7 → pkgOf x.a = Config.pkgNumber → s.signalHere (p.agent s) none x.a true 1 = (none, t) → next (.collSignal prog) t false) ∧
      (∀ bs, x.op = 8 → s.engineRead (some p.op) (p.agent s) .g x.a 8 = (.ok bs, t) →
        (x.c ≤ leNat bs → next (.collWaitge prog) t false) ∧ (leNat bs < x.c → exec (.collWaitge prog) s = .next t))) ∧
  (
    ∀ (m : CollMsg) (s t : State) (p : Prog) (id : Nat),
      (s.progOf m.job m.tag = some p → m.slot < 16 → m.slot ∈ p.granted → look m.slot p.slots = none →
        exec (.collChunkArrive m) s = .next (s.modProg p.id fun q =>
          { q with slots := assign m.slot m q.slots, granted := q.granted.filter (· != m.slot) })) ∧
      (m.peer ≠ Config.pkgNumber → (m.job, m.tag, m.peer, m.slot) ∉ s.pkg.credits →
        exec (.collCreditGrant m) s = .next (s.modPkg fun p => { p with credits := p.credits ++ [(m.job, m.tag, m.peer, m.slot)] })) ∧
      (m.peer = Config.pkgNumber → s.progOf m.job m.tag = some p → m.slot < 16 → m.ord ≠ Config.pkgNumber → m.slot ∉ p.granted →
        look m.slot p.slots = none → s.send ⟨p.die, 0, 0⟩ p.job 0x4300 m.ord 0 0 .write
          (.credit ⟨p.job, p.tag, Config.pkgNumber, m.slot, 0, [], 0, .ok⟩) none = (.ok id, t) →
        exec (.collCreditGrant m) s = .next (t.modProg p.id fun q => { q with granted := q.granted ++ [m.slot] })) ∧
      (s.progOf m.job m.tag = some p → p.ord = m.ord →
        exec (.collAbortReceive m) s = .next ((s.sendAborts p (some m.peer) m.status).endProg p m.status)) ∧
      (s.progOf m.job m.tag = none → m.ord ≤ s.runsOf m.job m.tag → exec (.collAbortReceive m) s = .next s))

/-! ## Traps and the handler slot (R256 to R273) -/

/-- R262 and R264: a user trap of a plain fibre whose group has a handler writes the trap registers with %spo, saves the point, whether the default
return is the word after it, and the clause, sets %inh and goes to the handler's clause; with no handler, a bad one, or in a handler already, the
fibre stops and its job takes a job fault. -/
def Obligations.UserTrapsAreTaken : Prop :=
  ∀ (s : State) (k : Nat) (f : Fibre) (x : TrapRegs) (p : RP) (after : Bool), s.fibre? k = some f → f.kind = .real → f.taint = [] → f.inv = none →
    let u := ((s.group? f.grp).map (·.uhandler)).getD 0
    let y := { x with spo := s.spoAt f p }
    let bad := f.inH = true ∨ u = 0 ∨ u.toNat % 4 ≠ 0 ∨ 2 ^ 57 ≤ u.toNat
    (¬bad → s.userTrap k x p after = s.setFibre k { f with
      xr := y, ret := some ⟨p, after, f.rep.isSome, y.cls == 0x13, s.headerAt f p⟩, inH := true, rp := ⟨u, 0⟩, hdr := none, rep := none, wait := none,
      run := .ready, reported := false, walked := none, passCmp := false, owed := none }) ∧
    (bad → s.userTrap k x p after = (s.setFibre k { f with
      xr := y, rp := p, wait := none, owed := none, run := .stopped, holds := [.fault], stopClk := s.clk }).faultJob (s.jobOf f) 3)

/-- R265, R266: a system trap of a plain fibre puts its record into the core's handler queue and leaves the fibre stopped at the point; with the
queue full the record waits for its place. The record has the kind, code, group and fibre, the job, the point with its ordinal, index and replay
count, the two words of the kind, and the clk. R59, R78, R156, R259 and R267: what a trap meets before it is taken. A helper halts, a Pacer
context takes an access-slice fault, a tainted fibre stalls, a handler fibre's trap is fatal to its core; the trap changes nothing else of them. -/
def Obligations.SystemTrapsAreTaken : Prop :=
  (
    ∀ (s : State) (k kind code : Nat) (f : Fibre) (p : RP) (a b : Word) (g : Group), s.fibre? k = some f → f.kind = .real → f.taint = [] → f.inv = none →
      f.service = [] → s.group? f.grp = some g →
      let core := (s.site f).coreIx
      let rec8 : TrapRec := ⟨[BitVec.ofNat 32 (kind <<< 24 ||| code <<< 16 ||| g.rgi <<< 12 ||| f.fid), BitVec.ofNat 32 (s.jobOf f), loWord p.hdr,
        hiWord p.hdr, BitVec.ofNat 32 ((s.ordAt f p).toNat <<< 8 ||| f.replay.length <<< 4 ||| p.idx), a, b, BitVec.ofNat 32 s.clk], some k, f.grp⟩
      let stopped := s.setFibre k { f with
        xr := { f.xr with spo := s.spoAt f p }, rp := p, hdr := s.headerAt f p, wait := none, run := .stopped, stopIn := none,
        holds := f.holds ++ [.trap], stopClk := s.clk, reported := false, walked := none }
      ((s.core core).trapWait = [] → (s.core core).trapq.length < 64 →
        s.systemTrap k kind code p a b = stopped.modCore core fun c => { c with trapq := c.trapq ++ [rec8] }) ∧
      (64 ≤ (s.core core).trapq.length → s.systemTrap k kind code p a b = stopped.modCore core fun c => { c with trapWait := c.trapWait ++ [rec8] })) ∧
  (
    ∀ (s : State) (k kind code : Nat) (f : Fibre) (x : TrapRegs) (p : RP) (after : Bool) (a b : Word), s.fibre? k = some f →
      let both := fun (t : State) => s.userTrap k x p after = t ∧ s.systemTrap k kind code p a b = t
      (f.kind = .helper → both (s.setFibre k { f with run := .halted, wait := none, arrive := none })) ∧
      (f.kind = .pacer → both (s.sliceFault f.grp)) ∧
      (f.kind = .real → f.taint ≠ [] → both (s.setFibre k { f with run := .waiting .tag, woken := false })) ∧
      (∀ core slot, f.kind = .handler core slot → f.taint = [] → both (s.coreFatal (s.site f).coreIx 0 f.fid)))

/-- R261, R269 and R270: SYSC takes the system trap of kind 0x09 with its number, at the point after it. RFT in a user handler leaves it: it
continues at the saved point, at the word after it, or at the address it names, with the replay list dropped under .norep; .end ends the fibre,
.fault faults its job. In a handler fibre it does so to the fibre its record names and is idle after it. Elsewhere it is cause 0x1C. -/
def Obligations.TrapWordsReturn : Prop :=
  ∀ (h : Head) (n a : Reg) (norep : Bool) (s : State) (f : Fibre),
    (Executes (.sysc h n) s f → f.kind = .real → f.taint = [] →
      let g := (f.counted f (.sysc h n) true s.clk).pass 2
      exec (.sysc h n) s = .next (((s.setFibre s.cur g).noteIssue s.cur f (.sysc h n) true).systemTrap s.cur 9 n.toNat g.rp 0 0)) ∧
    ∀ (mode : RftMode), let i := Instr.rft h a norep mode
      let base := fun (r : TrapReturn) => { (f.counted f i true s.clk) with inH := false, ret := none, reported := r.report && mode == RftMode.ret }
      let dest := joinPair (src s f a) (f.read s.cur (a.toNat + 1))
      (Executes i s f → f.serving = none →
        (f.inH = false ∨ f.ret = none → exec i s = .next (s.userTrap s.cur { f.xr with cls := 0x1C } f.rp false)) ∧
        (∀ r, f.inH = true → f.ret = some r → (norep = true ∨ f.replay = []) →
          let b := base r
          let at_ : Fibre := { b with rp := r.rp, hdr := r.hdr }
          let continues := fun (g : Fibre) => exec i s = .next ((s.setFibre s.cur { g with replay := [] }).noteIssue s.cur f i true)
          (mode = .addr → continues { at_ with rp := ⟨dest, 0⟩, hdr := none, rep := none, run := .ready }) ∧
          (mode = .ret → continues (if r.after then s.skipOver at_ else at_.resumeAt r.rp r.hdr r.rep)) ∧
          (mode = .skip → atHeader r.rp r.hdr = false → continues (s.skipOver at_)) ∧
          (mode = .endFibre → f.tainted = false → exec i s = .next ((s.setFibre s.cur { b with
            replay := [], wait := some (.ending true), run := .waiting .ending }).noteIssue s.cur f i true)) ∧
          (mode = .faultJob → exec i s = .next (((s.setFibre s.cur { b with run := .stopped, holds := [.fault], stopClk := s.clk }).noteIssue
            s.cur f i true).faultJob (s.jobOf f) 3)))) ∧
      ∀ (r : TrapRec) (t : Nat) (x : Fibre), Executes i s f → f.serving = some r → r.fib ≠ none →
        let u := s.finish s.cur i f f
        let back := fun (v : State) => exec i s = .next (v.modFibre s.cur Fibre.idle)
        let resumes := fun (g : Fibre) => back ((u.setFibre t { g with run := x.run, holds := x.holds, replay := [] }).resumeTarget t)
        (s.trapped r = none → back u) ∧
        (s.trapped r = some (t, x) →
          (norep = true ∨ x.replay = [] →
            (mode = .ret → resumes (x.resumeAt x.rp x.hdr x.rep.isSome)) ∧ (mode = .addr → resumes (x.jump dest)) ∧
            (mode = .skip → atHeader x.rp x.hdr = false → resumes (u.skipOver x))) ∧
          (mode = .endFibre → back ((u.abandonAll t).modFibre t fun y =>
            ({ y with replay := [], wait := some (.ending true), arrive := none, stopIn := none }).release .trap)) ∧
          (mode = .faultJob → back (u.faultJob (u.jobOf x) 3)))

/-- R265, R267, R271 to R273: the first idle handler fibre takes the oldest record with its words in its first eight registers; the access window
reads and writes an item of a stopped fibre, and reports in its status register where there is no target or no item; HSTOP asks the fibres of its
target to stop, HRESUME lets them go on with the job's instruction-cache lines gone. -/
def Obligations.HandlerWordsAct : Prop :=
  ∀ (h : Head) (d a b c : Reg) (grp : Bool) (core k : Nat) (s : State) (f x : Fibre) (g : Group) (t : Nat) (r : TrapRec) (rest : List TrapRec),
    let it := itemOf (src s f b).toNat x.regs.length g.spad
    let free := ∀ off, it = .spad off → s.loggedByOther t (s.spLoc g off) 4 = false
    let sel := src s f a
    (∀ old slot, (s.core core).trapq = r :: rest → (s.core core).chentry ≠ 0 → (s.core core).dead = false → s.fibre? k = some old →
      old.kind = .handler core slot → old.serving = none → (∀ j y n, j < k → s.fibre? j = some y → y.kind = .handler core n → y.serving ≠ none) →
      exec (.handlerTakeRecord core) s = .next ((s.setFibre k { handlerFibre core slot (s.core core).chentry r s.clk with
        issued := old.issued, wseq := old.wseq }).modCore core fun x => { x with trapq := rest, frozen := max x.frozen s.clk + 4 }.refillTraps)) ∧
    (Executes (.awrd h d a b c) s f →
      (s.windowTarget f sel = none → Leaves (.awrd h d a b c) s s f (f.setReg c.toNat 1)) ∧
      (s.windowTarget f sel = some (t, x, g) → it = .none → Leaves (.awrd h d a b c) s s f (f.setReg c.toNat 2)) ∧
      (s.windowTarget f sel = some (t, x, g) → it ≠ .none → free →
        Leaves (.awrd h d a b c) s s f ((f.setReg d.toNat (s.itemValue t x g it).1).setReg c.toNat (s.itemValue t x g it).2))) ∧
    (Executes (.awwr h d a b c) s f →
      (s.windowTarget f sel = none → Leaves (.awwr h d a b c) s s f (f.setReg c.toNat 1)) ∧
      (∀ u o, s.windowTarget f sel = some (t, x, g) → free → s.windowWrite t x g (src s f d) it = some (u, o) →
        Leaves (.awwr h d a b c) s u f (f.setReg c.toNat (if o then 4 else 0))) ∧
      (s.windowTarget f sel = some (t, x, g) → free → s.windowWrite t x g (src s f d) it = none →
        Leaves (.awwr h d a b c) s s f (f.setReg c.toNat 2))) ∧
    (Executes (.hstop h d a grp) s f →
      let named := if grp then (s.resident? (s.site f).coreIx sel.toNat).map (·.1) else none
      let l := launched s f .none (some d.toNat) (.stop (if grp then none else some sel.toNat) named)
      Leaves (.hstop h d a grp) s (l.2.2.mapFibres fun _ x => if s.selected f sel grp x then x.askStop s.clk .hstop else x) f l.2.1) ∧
    (Executes (.hresume h a grp) s f →
      let held := fun (x : Fibre) => s.selected f sel grp x && (x.holds.contains .hstop || x.stopReq.contains .hstop)
      (s.fibres.find? held = none → Leaves (.hresume h a grp) s s f f) ∧
      (s.fibres.find? held = some x → Leaves (.hresume h a grp) s (({ s with cores := s.cores.map fun c =>
        (c.1, { c.2 with icache := c.2.icache.filter fun e => e.1 != s.jobOf x }) } : State).mapFibres fun _ x => if held x then x.release .hstop else x) f f)) ∧
    (∀ p, s.fibre? k = some f → f.run = .waiting .replay → f.wait = some (.replay p) → f.serving = none →
      (s.replayDone k = true → exec (.replayComplete k) s = .next (s.setFibre k { f with wait := none, run := .ready })) ∧
      (s.replayDone k = false → exec (.replayComplete k) s = .next s))

/-! ## Debug, scheduling, the die, the package, the host (R74 to R82, R149 to R163, R210 to R214, R241 to R255, R300 to R311, R356 to R371) -/

/-- R370 and R371: BRKP with its feature open writes a record of kind 2 and stops the fibre past it for debug, and does nothing in a helper, in
control mode or with the feature closed; TRACE and MARK write records of kinds 7 and 8 and go on, MARK with the new mark. R357, R361, R366 to
R368: a debug command finds the fibre or span it names, steps, stops or resumes it and is done, with NOTGT where it found none; a token's answer
opens its features or raises alarm 3; the counters clear and freeze, the noise source takes its mode, each with its feature open; a sample falls
on its period's clk. -/
def Obligations.DebugActs : Prop :=
  (
    ∀ (h : Head) (n id : BitVec 8) (a b : Reg) (two : Bool) (m : BitVec 13) (s : State) (f : Fibre),
      let core := (s.site f).coreIx
      let here := (s.ordAt f f.rp).toNat
      (Executes (.brkp h n) s f →
        (f.isHelper = true ∨ f.privileged = true ∨ s.feature 0 = false → Leaves (.brkp h n) s s f f) ∧
        (f.isHelper = false → f.privileged = false → s.feature 0 = true →
          let g := ((f.counted f (.brkp h n) true s.clk).pass 2).hold s.clk .debug
          exec (.brkp h n) s = .next (((s.debugRecord core 2 0 here n.toNat f 0 0 0).setFibre s.cur { g with stepping := false }).noteIssue
            s.cur f (.brkp h n) true))) ∧
      (Executes (.trace h a b two id) s f →
        (f.isHelper = true → Leaves (.trace h a b two id) s s f f) ∧
        (f.isHelper = false → Leaves (.trace h a b two id) s
          (s.debugRecord core 7 0 here id.toNat f 0 (src s f a) (if two then src s f b else 0)) f f)) ∧
      (Executes (.mark h m) s f →
        (f.isHelper = true → Leaves (.mark h m) s s f f) ∧
        (f.isHelper = false → Leaves (.mark h m) s (s.debugRecord core 8 0 here 0 f 0 (m.setWidth 32) (f.mark.setWidth 32)) f { f with mark := m }))) ∧
  (
    ∀ (core fid k : Nat) (g : Option Nat) (s : State) (f : Fibre) (l : List (Nat × Fibre)) (on : Bool),
      (s.command core 0 = some (g, fid) →
        (s.debugStopped g fid = some k → exec (.dbgStepFibre core) s = .next ((s.modFibre k fun f =>
          { f.debugGo with stepping := true, passCmp := f.wait.isNone && f.arrive.isNone }).commandDone core true)) ∧
        (s.debugStopped g fid = none → exec (.dbgStepFibre core) s = .next (s.commandDone core false))) ∧
      (∀ x, s.command core 1 = some (some x, fid) → s.spanOf (some x) fid = l → l ≠ [] →
        exec (.dbgStopSpan core) s = .next (((l.foldl (fun s p => s.modFibre p.1 fun f => f.askStop s.clk .debug) s).modCore core fun c =>
          { c with spans := c.spans ++ [(x, fid / 32)], spanSet := c.spanSet.filter (· != (x, fid / 32)) ++ [(x, fid / 32)] }).commandDone core true)) ∧
      (s.command core 1 = some (g, fid) → s.spanOf g fid = [] → exec (.dbgStopSpan core) s = .next (s.commandDone core false)) ∧
      (s.command core 2 = some (g, fid) → (s.spanOf g fid).filter (fun p => p.2.run == .stopped && p.2.holds.contains .debug) = l →
        (g = none → exec (.dbgResumeSpan core) s = .next ((l.foldl (fun s p => s.modFibre p.1 Fibre.debugGo) s).commandDone core (!l.isEmpty))) ∧
        (∀ x, g = some x → exec (.dbgResumeSpan core) s = .next ((l.foldl (fun s p => s.modFibre p.1 Fibre.debugGo)
          (s.modCore core fun c => { c with spanSet := c.spanSet.filter (· != (x, fid / 32)) })).commandDone core (!l.isEmpty)))) ∧
      (s.command core 3 = some (g, fid) →
        (s.debugStopped g fid = some k → exec (.dbgResumeFibre core) s = .next ((s.modFibre k Fibre.debugGo).commandDone core true)) ∧
        (s.debugStopped g fid = none → exec (.dbgResumeFibre core) s = .next (s.commandDone core false))) ∧
      exec .dbgTokenVerify s = .next (s.modPkg fun p => { p with dbgBusy := true }) ∧
      (s.pkg.dbgBusy = true →
        let t := (s.pkg.dbgtok ++ List.replicate 256 0).take 256
        let done := fun (mask : BitVec 4) => s.modPkg fun p => { p with dbgBusy := false, dbgStat := tokenStatus t s.pkg.nonce, dbgFeat := p.dbgFeat ||| mask }
        (tokenStatus t s.pkg.nonce = 0 → exec .dbgTokenResult s = .next (done (BitVec.ofNat 4 (leNat ((t.drop 72).take 1))))) ∧
        (tokenStatus t s.pkg.nonce ≠ 0 → exec .dbgTokenResult s = .next ((done 0).alarm 3 0 0 0 0))) ∧
      (s.feature 2 = true → exec (.topdownClear core) s = .next (s.tdClear core) ∧ exec (.topdownFreeze core on) s = .next (s.tdFreeze core on)) ∧
      (s.feature 3 = true →
        let mode := fun (m : Nat) => Host.Outcome.next (s.modCore core fun c => { c with cnsc := (c.cnsc &&& 0x3FFFFFFF) ||| BitVec.ofNat 32 (m <<< 30) })
        exec (.noiseModeDirect core) s = mode 0 ∧ exec (.noiseModeLog core) s = mode 1 ∧ exec (.noiseModeReplay core) s = mode 2) ∧
      (let per := bitsOf (s.core core).trr.ctl.toNat 15 11
       let j := s.clk / 2 ^ (min per 20 + 4)
       per ≠ 0 → s.feature 1 = true → s.clk % 2 ^ (min per 20 + 4) = 0 → j ≠ (s.core core).samples →
        let u := s.modCore core fun c => { c with samples := j }
        ∀ leaf, u.charged core (j % 4) (if s.clk < (s.core core).frozen then some 18 else none) = (some f, leaf) → exec (.traceSample core) s =
          .next (u.debugRecord core 9 0 (u.ordAt f f.here).toNat leaf f 0 (f.mark.setWidth 32) (BitVec.ofNat 32 (j % 4)))))

/-- R59, R80 to R82, R143, R149 to R151, R212, R250, R274 to R277: a walk that found its leaf lets its accesses on; a word that cannot be fetched
twice is kind 0x06; a fibre whose waits are over ends; a nap ends at its clk; groups are placed, swapped, rotated, evicted, released. -/
def Obligations.SchedulingEventsAct : Prop :=
  ∀ (walk fib grp core clu job coh die : Nat) (s t : State) (f : Fibre) (g : Group) (w : Walk) (j : Job),
    (∀ leaf, (s.dies.flatMap fun d => (d.2.walks.take 512).map fun w => (d.1, w)).find? (fun p => p.2.id == walk) = some (die, w) →
      s.missDone die w.job w.va = (.ok leaf, t) →
      let u := (t.modDie die fun d => { d with walks := d.walks.filter fun x => x.id != walk }).fillAll die leaf (s.die die).walks
      exec (.walkComplete walk) s = .next (((u.ops.filter fun o => match o.body with | .mem _ .walking => true | _ => false).map (·.id)).foldl
        State.resolveAccess u)) ∧
    (s.fibre? fib = some f → s.mayIssue f = true → f.run = .ready → f.hdr ≠ none →
      let a := w64 f.rp.addr
      let core := (s.site f).coreIx
      let word := (s.cached core (s.jobOf f) a).getD 0
      let x := s.modCore core fun c => { c with icache := c.icache.filter fun e => !(e.1 == s.jobOf f && e.2.1 == a) }
      let u := x.logCore core 0 (a.toNat % 2 ^ 32) 3 0 (((x.group? f.grp).map (·.rgi)).getD 0) f.fid
      exec (.instructionFetchError fib false) s = .next u ∧ exec (.instructionFetchError fib true) s = .next (u.systemTrap fib 6 0 f.rp word 0)) ∧
    (s.fibre? fib = some f → f.run = .waiting .ending → f.wait = some (.ending false) → s.replayDone fib = true → f.replay = [] →
      (s.endReady fib f = true → exec (.fibreEnd fib) s = .next (s.endFibre fib)) ∧
      (s.endReady fib f = false → exec (.fibreEnd fib) s = .next s)) ∧
    (∀ wake, s.fibre? fib = some f → f.run = .waiting .nap → f.wait = some (.nap wake) →
      (wake ≤ s.clk → exec (.napWake fib) s = .next (s.setFibre fib (f.leaveWait 1))) ∧ (s.clk < wake → exec (.napWake fib) s = .next s)) ∧
    (s.group? grp = some g →
      (g.exited = true → g.freed = false → s.exitStands (cluIx g.die g.clu) grp = true → s.deliveriesLeft grp = false →
        exec (.groupResourceRelease grp) s = .next (s.freeGroup grp)) ∧
      (g.active = true → g.resident = true → g.job ≠ 0 → (s.oldestPending g.coreIx).isSome = true →
        (∀ p ∈ s.members grp, s.longWait p.1 p.2 = true) → exec (.swapOut grp) s = .next ((s.leaveActive grp).swapIn g.coreIx 16)) ∧
      (∀ t who, g.evict = some (t, who) → t ≤ s.clk → (∃ p ∈ s.members grp, p.2.atRest = false) →
        exec (.evictionStopTimeout grp) s = .next (((s.members grp).foldl (fun s p => s.modFibre p.1 fun f => f.release .evict)
          (s.modGroup grp fun g => { g with evict := none, tried := g.tried ++ [who] })).swapIn g.coreIx 16)) ∧
      (g.evict ≠ none → (∀ p ∈ s.members grp, p.2.atRest = true ∧ p.2.releasing = []) → (∀ o ∈ s.ops, o.grp ≠ grp) → (∀ m ∈ (s.core g.coreIx).mmaq, m.grp ≠ grp) →
        (s.core g.coreIx).running = none → s.mayHoldTaints grp (s.saveDie grp g) = true →
        let v := ((s.joinTaints grp (s.saveDie grp g)).loseWalks grp).writeContext grp g
        let u := (v.members grp).foldl (fun s p => s.setFibre p.1 (s.savedFibre p.2)) v
        exec (.evictionSave grp) s = .next ((u.modGroup grp fun x => { x with
          evict := none, out := true, active := false, unprot := [], savedSp := u.spadBytes g, savedTiles := g.tmap.map (u.tileWords g),
          savedBad := (u.core g.coreIx).tileBad.filterMap fun e => (firstIdx (· == e.1) g.tmap 0).map fun p => (p.1, e.2) }).swapIn g.coreIx 16))) ∧
    (∀ i, s.oldestPending core = some (i, g) →
      (g.age < 1024 → exec (.forcedRotation core) s = .next s) ∧
      (1024 ≤ g.age → exec (.forcedRotation core) s = .next ((s.rotateOut core g.slots
        (sortBy (fun p => p.2.actClk) (s.coreGroups core fun g => g.active && g.unprot.isEmpty))).swapIn core 16))) ∧
    (clu < 32 → (s.die (clu / 8)).dead = false → exec (.groupPlace clu) s = .next (s.placeFirst clu s.dispatching)) ∧
    (s.job? job = some j →
      let mine := (s.jobGroups job).filter fun p => p.2.gid / max j.cohort 1 == coh
      (j.status ≠ none ∨ j.ending ≠ none ∨ mine.length = min (max j.cohort 1) (j.groups - coh * max j.cohort 1)) → (∀ p ∈ mine, p.2.exited = true) → s.ops = [] →
      exec (.cohortRelease job coh) s = .next (s.modJob job fun j => { j with cohorts := j.cohorts.filter fun c => c.1 != coh }))

/-- R161 to R163, R242 to R254: the weight-load phase and its engine, refresh windows, the scrubbers, translation invalidation by its four scopes,
and the counts that any write clears. -/
def Obligations.DieEventsAct : Prop :=
  ∀ (die bank off granule core port : Nat) (err : ScrubErr) (s : State),
    let x := s.die die
    let status := fun (w : Word) (n : Nat) => (w &&& 0xF1FFFFFF) ||| BitVec.ofNat 32 (n <<< 25)
    let blocked := s.groups.any fun g => g.die == die && g.core < 8 && !g.out && !g.exited && !g.freed && s.jobMapsWeight die g.job
    let at_ := fun (u : Die → Die) => Host.Outcome.next (s.modDie die u)
    (blocked = true → exec (.wsPhaseEnter die) s = at_ fun d => { d with wsctl := status (d.wsctl &&& 0xFFFFFFFE) 7 }) ∧
    (blocked = false → exec (.wsPhaseEnter die) s = at_ fun d => { d with wsctl := status (d.wsctl ||| 1) 0, wsLeave := false }) ∧
    (exec (.wsPhaseLeave die) s = at_ fun d => if d.wsctl.getLsbD 8 then { d with wsLeave := true } else { d with wsctl := status (d.wsctl &&& 0xFFFFFFFE) 0 }) ∧
    (let good := x.wsctl.getLsbD 0 = true ∧ x.wsctl.getLsbD 8 = false ∧ x.wslsrc.toNat % 64 = 0 ∧ x.wsldst.toNat % 64 = 0 ∧ x.wsllen.toNat % 64 = 0 ∧
        x.wsldst.toNat + x.wsllen.toNat ≤ 6 * 2 ^ 30 ∧ ∃ t ∈ [0, 1, 3], populated t x.wslsrc.toNat x.wsllen.toNat = true
     (good → exec (.wsLoadGo die) s = at_ fun d =>
       { d with wsctl := d.wsctl ||| 0x100, wsRun := (x.wslsrc.toNat, x.wsldst.toNat, x.wsllen.toNat) }) ∧
     (¬good → exec (.wsLoadGo die) s = at_ fun d => { d with wsctl := status d.wsctl 1 })) ∧
    (x.wsctl.getLsbD 8 = true → ∀ st t, s.loadGranules die x.wsRun.1 x.wsRun.2.1 .ok (x.wsRun.2.2 / 64) = (st, t) →
      exec (.wsLoadComplete die) s = .next (t.modDie die fun d =>
        let w := status (d.wsctl &&& 0xFFFFFEFF) (statusNum st)
        { d with wsctl := if d.wsLeave then w &&& 0xFFFFFFFE else w, wsLeave := false })) ∧
    (bank < 8 → inWindow bank s.clk = true → bank ∉ x.inRefresh →
      exec (.wsRefreshStart die bank) s = at_ fun d => { d with inRefresh := d.inRefresh.filter (inWindow · s.clk) ++ [bank] }) ∧
    (inWindow bank s.clk = false → bank ∈ x.inRefresh → exec (.wsRefreshEnd die bank) s = at_ fun d =>
      { d with inRefresh := d.inRefresh.filter (· != bank), wsFix := d.wsFix.filter fun o => o / 0x30000000 != bank }) ∧
    (inWindow bank s.clk = true → exec (.wsRefreshEnd die bank) s = .next s) ∧
    (off < 6 * 2 ^ 30 →
      exec (.wsScrubVisit die off .clean) s = .next s ∧
      exec (.wsScrubVisit die off .uncorrectable) s =
        .next (s.scrub die (off / 8 * 8) (Loc.weight die (off / 8 * 8)) 3 (off / 0x30000000) .uncorrectable)) ∧
    (populated 0 (64 * granule) 64 = true →
      exec (.dramScrubVisit granule err) s = .next (s.scrub (physHome (64 * granule)) (64 * granule) (64 * granule) 2 0 err)) ∧
    (x.dtinvc.getLsbD 0 = false →
      let go := fun (n : Nat) => Host.Outcome.next ((s.modDie die fun d => { d with dtinvc := BitVec.ofNat 32 (2 * n) }).dtinvStart die n)
      exec (.dtinvPage die) s = go 0 ∧ exec (.dtinvJob die) s = go 1 ∧ exec (.dtinvAll die) s = go 2 ∧ exec (.dtinvReservedScope die) s = go 3) ∧
    (∀ scope busy, x.inval = some (scope, busy) →
      ((∀ id ∈ busy, s.op? id = none) → exec (.dtinvComplete die) s = at_ fun d => { d with inval := none, dtinvc := d.dtinvc &&& 6 }) ∧
      ((∃ id ∈ busy, s.op? id ≠ none) → exec (.dtinvComplete die) s = .next s)) ∧
    exec (.ceccClear core) s = .next (s.modCore core fun c => { c with cecc := 0 }) ∧
    exec (.deccClear die) s = .next (s.modDie die fun d => { d with decc := 0 }) ∧
    exec (.fpstatReplayClear port) s = .next (s.modPkg fun p => { p with fpstat := p.fpstat.modify port (· &&& 0x80010000) })

/-- R243 and R244: %wscal shows whether its cluster's bank group is in its window and the clk until that changes; at most one bank group of a die is
in its window at any clk. -/
def Obligations.TheRefreshCalendarIsRead : Prop :=
  (∀ c t : Nat, c < 8 →
    let v := wscal c t
    (v.getLsbD 31 = inWindow c t) ∧ (v.toNat / 2 ^ 25 % 8 = c) ∧ (v.toNat / 2 ^ 17 % 256 = 0) ∧ (v.toNat / 2 ^ 28 % 8 = 0) ∧
    (let next := v.toNat % 2 ^ 17
     0 < next ∧ inWindow c (t + next) = !inWindow c t ∧ ∀ j, j < next → inWindow c (t + j) = inWindow c t)) ∧
  ∀ g h t : Nat, g < 8 → h < 8 → inWindow g t = true → inWindow h t = true → g = h

/-- R253, R300, R309, R310 and R316: die fatal errors, UCIe links, package reset, alarms, power and thermal limits, the life cycle; a write of a
management register goes to it. -/
def Obligations.PackageEventsAct : Prop :=
  ∀ (die off size clks : Nat) (val : BitVec 64) (state : BitVec 2) (s : State),
    exec (.registerWrite off size val) s = .next (s.regWrite off size val) ∧
    (∃ u, exec (.dieFatalError die) s = .next u ∧ (u.die die).dead = true) ∧
    (4 ≤ die ∨ die ∈ s.pkg.downDies → exec (.ucieLinkDown die) s = .next s) ∧
    (s.ops = [] → die < 4 → die ∉ s.pkg.downDies → exec (.ucieLinkDown die) s =
      .next (((s.modPkg fun p => { p with downDies := p.downDies ++ [die] }).alarm 6 0 0 0 0).dieFatal die)) ∧
    (∃ u, exec .packageReset s = .next u ∧ u.mem = s.mem ∧ u.poisoned = s.poisoned ∧ u.fibres = [] ∧ u.groups = [] ∧ u.jobs = [] ∧ u.ops = [] ∧
      u.cores = State.reset.cores ∧ u.dies = State.reset.dies ∧ u.pkg.lcstate = s.pkg.lcstate ∧ (u.pkg.held = true ↔ s.pkg.lcstate = 3)) ∧
    exec .salpolLock s = .next (s.modPkg fun p => { p with salpol := p.salpol ||| 0x80000000 }) ∧
    exec .voltageClockGlitch s = .next (s.alarm 4 0 0 0 0) ∧ exec .fuseIntegrityFailure s = .next (s.alarm 5 0 0 0 0) ∧
    (∃ u, exec (.powerLimit clks) s = .next u ∧ u.clk = s.clk + clks ∧ u.mem = s.mem) ∧
    (∃ u, exec (.thermalThrottle clks) s = .next u ∧ u.clk = s.clk + clks ∧ u.mem = s.mem) ∧
    (∃ u, exec .thermalShutdown s = .next u ∧ ∀ d, d < 4 → (u.die d).dead = true) ∧
    (state.toNat ≤ s.pkg.lcstate.toNat → exec (.lifeCycleAdvance state) s = .next s) ∧
    (s.pkg.lcstate.toNat < state.toNat → ∃ u, exec (.lifeCycleAdvance state) s = .next u ∧ u.pkg.lcstate = state ∧
      (state = 3 → u.pkg.held = true) ∧ (state = 2 → u.pkg.erased = s.pkg.erased + 1))

/-- R303, R306: the TDISP requests move a function's interface from unlocked to locked to run and back, a write to a locked field and an integrity
failure move it to ERROR, and its jobs fault. R303 to R305: the doorbells of an enabled queue take its new entries and send its completions; each
command in its turn has its effect and completes with its status; the host's writes and reads of an open BAR reach what it maps. -/
def Obligations.HostActs : Prop :=
  (
    ∀ (fn : Nat) (nonce : BitVec 256) (s : State),
      let st := (s.tdi fn).state
      (fn < 16 → st = .unlocked → exec (.lockInterfaceRequest fn) s = .next (s.modTdi fn fun t => { t with
        state := .locked, digest := Config.sha384 (s.frozenConfig fn), nonce := Config.tdiNonce fn t.locks, locks := t.locks + 1 })) ∧
      (st ≠ .unlocked → exec (.lockInterfaceRequest fn) s = .next s) ∧
      (st = .locked → nonce = (s.tdi fn).nonce → exec (.startInterfaceRequest fn nonce) s = .next (s.modTdi fn fun t => { t with state := .run })) ∧
      (st ≠ .locked ∨ nonce ≠ (s.tdi fn).nonce → exec (.startInterfaceRequest fn nonce) s = .next s) ∧
      (st ≠ .unlocked → exec (.stopInterfaceRequest fn) s = .next (((((s.fnJobs fn).foldl (fun s j => s.faultJob j 3) s).modPkg fun p => { p with
        access := p.access.map fun t => (t.1, t.2.filter fun e => !namesFn fn e.2), erased := p.erased + 1 })).modTdi fn fun t =>
          let lost := t.queues.map fun q => (q.1, { q.2 with cmds := [], cpls := [] })
          { t with state := .unlocked, queues := if t.state == .error then lost else t.queues })) ∧
      (fn < 16 → exec (.getDeviceInterfaceReport fn) s = .next (s.modPkg fun p => { p with reports := p.reports ++ [s.report_ fn] })) ∧
      exec (.lockedFieldWrite fn) s = .next (s.tdiFails fn) ∧ exec (.functionLevelReset fn) s = .next (s.tdiFails fn) ∧
      exec (.ideIntegrityFailure fn) s = .next ((s.tdiFails fn).alarm 6 0 76 (hostMaster fn) 0)) ∧
  (
    ∀ (fn queue addr len : Nat) (idx : BitVec 16) (v : BitVec 32) (bytes : List Byte) (s : State) (c : HostCmd) (job : Nat) (j : Job),
      let named := s.jobOfCmd fn c
      (s.barsOpen fn = true → queue < 4 →
        (let u := s.modQueueOf fn queue fun h => { h with tail := v }
         (u.hostQueue fn queue).cfg.getLsbD 31 = true → exec (.hqSqDoorbell fn queue v) s = .next (u.takeEntries fn queue (u.hostQueue fn queue).sqDepth)) ∧
        (let u := s.modQueueOf fn queue fun h => { h with head := v }
         exec (.hqCqDoorbell fn queue v) s = .next (u.drainCompletions fn queue ((u.hostQueue fn queue).cpls.length + 1)))) ∧
      (∀ d t, s.command? fn queue idx (· == 1) = some c → c.restZero 12 = true → c.field 11 4 % 64 = 0 → s.hostFetch fn (c.field 11 4) 256 = (.ok d, t) →
        t.descriptorOk d = true →
        let j := jobOfDescriptor d fn t.clk
        let n := t.jobs.length + 1
        ∀ table u, (j.qcount = 0 → table = [] ∧ u = t) → (j.qcount ≠ 0 → t.hostFetch fn j.qtable.toNat (32 * j.qcount) = (.ok table, u)) →
        let qs := (List.range j.qcount).map fun i => queueOfEntry n i ((table.drop (32 * i)).take 32)
        (∀ q ∈ qs, q ≠ none) →
        exec (.launch fn queue idx) s = .next (({ u with jobs := u.jobs ++ [j], queues := u.queues ++ qs.filterMap id } : State).completeCmd fn queue c n .ok)) ∧
      (s.command? fn queue idx (· == 2) = some c → named = some (job, j) →
        (∀ st, j.status = some st → exec (.jobwait fn queue idx) s = .next (s.completeCmd fn queue c 0 st)) ∧
        (j.status = none → exec (.jobwait fn queue idx) s = .next (s.setCmd fn queue c { c with started := true }))) ∧
      (∀ d t, s.command? fn queue idx (· == 3) = some c → c.restZero 32 = true → c.field 7 5 = 0 → c.field 4 4 < 16 → s.wsloadOn c 10 = (d, t) →
        let u := t.setCmd fn queue c d
        exec (.wsload fn queue idx) s = .next (if 4 ≤ d.pos then u.completeCmd fn queue d (statusNum d.st) d.st else u)) ∧
      (s.command? fn queue idx (· == 4) = some c → named = some (job, j) → c.started = true →
        (∀ x ∈ s.fibres, x.kind = .real ∨ x.kind = .helper → s.jobOf x = job → x.atRest = true) →
        exec (.halt fn queue idx) s = .next (s.completeCmd fn queue { c with started := true } 0 .ok)) ∧
      (s.command? fn queue idx (· == 5) = some c → named = some (job, j) →
        exec (.resume fn queue idx) s = .next (((({ s with cores := s.cores.map fun x =>
          (x.1, { x.2 with icache := x.2.icache.filter fun e => e.1 != job }) } : State).mapFibres fun _ x =>
            if (x.kind == .real || x.kind == .helper) && s.jobOf x == job then x.release .hstop else x).modJob job fun x => { x with halted := false }).completeCmd
              fn queue c 0 .ok)) ∧
      (s.command? fn queue idx (· == 6) = some c →
        (named = some (job, j) → exec (.kill fn queue idx) s = .next ((s.faultJob job 3).completeCmd fn queue c 0 .ok)) ∧
        (named = none → exec (.kill fn queue idx) s = .next (s.completeCmd fn queue c 0 .fault))) ∧
      (s.command? fn queue idx (fun op => op = 0 || op > 6) = some c →
        exec (.unlistedCommand fn queue idx) s = .next (s.completeCmd fn queue c 0 .fault)) ∧
      (∀ pa, s.barsOpen fn = true → addr / 2 ^ 40 ≠ 3 → (fn = 0 → addr / 2 ^ 40 = 4 → (s.tdi 0).state = .unlocked) → s.barPlace fn addr bytes.length = .phys pa → populated 0 pa bytes.length = true → s.unreachable (physTarget pa) = false →
        s.accessOk (physTarget pa) (hostMaster fn) .write pa = true → exec (.hostInboundWrite fn addr bytes) s = .next (s.hostStore fn pa bytes)) ∧
      (∀ pa, s.barsOpen fn = true → s.barPlace fn addr len = .phys pa → populated 0 pa len = true → s.unreachable (physTarget pa) = false →
        s.poisonedAt pa len = false → s.accessOk (physTarget pa) (hostMaster fn) .read pa = true →
        exec (.hostInboundRead fn addr len) s = .next ((s.hostLoad fn pa len).2.modPkg fun p => { p with reads := p.reads ++ [(s.hostLoad fn pa len).1] })))

end
end

