-- ==== Sys2Proof/Laws/Dispatch.lean ====
section
/-! SUPPORT. What running an instruction is: the meaning its arm of the dispatch calls, and a word that executes. -/

namespace Sys2Proof.Machine

theorem issueWord_go {i : Instr} {s : State} {f : Fibre} (hx : gate i s = .go f) (body : Nat → Fibre → State) :
    issueWord i s body = .next (body s.cur f) := by
  unfold issueWord
  rw [hx]
/-- An issued word is discarded, kept or executed, and goes on in each case; only a turn without a fibre stops. -/
theorem issueWord_cases (i : Instr) (s : State) (body : Nat → Fibre → State) :
    (gate i s = .noFibre ∧ issueWord i s body = .fault .noFibre) ∨
    (∃ f, gate i s = .off f ∧ issueWord i s body = .next (s.finishOff s.cur i f)) ∨
    (∃ t, gate i s = .held t ∧ issueWord i s body = .next t) ∨
    (∃ f, gate i s = .go f ∧ issueWord i s body = .next (body s.cur f)) := by
  unfold issueWord
  cases gate i s with
  | noFibre => exact .inl ⟨rfl, rfl⟩
  | off f => exact .inr (.inl ⟨f, rfl, rfl⟩)
  | held t => exact .inr (.inr (.inl ⟨t, rfl, rfl⟩))
  | go f => exact .inr (.inr (.inr ⟨f, rfl, rfl⟩))

theorem exec_add (h : Head) (d : Reg) (a : Reg) (b : Reg) (s : State) : exec (.add h d a b) s = execAdd h d a b s := rfl
theorem exec_sub (h : Head) (d : Reg) (a : Reg) (b : Reg) (s : State) : exec (.sub h d a b) s = execSub h d a b s := rfl
theorem exec_mul (h : Head) (d : Reg) (a : Reg) (b : Reg) (s : State) : exec (.mul h d a b) s = execMul h d a b s := rfl
theorem exec_and (h : Head) (d : Reg) (a : Reg) (b : Reg) (s : State) : exec (.and h d a b) s = execAnd h d a b s := rfl
theorem exec_or (h : Head) (d : Reg) (a : Reg) (b : Reg) (s : State) : exec (.or h d a b) s = execOr h d a b s := rfl
theorem exec_xor (h : Head) (d : Reg) (a : Reg) (b : Reg) (s : State) : exec (.xor h d a b) s = execXor h d a b s := rfl
theorem exec_andn (h : Head) (d : Reg) (a : Reg) (b : Reg) (s : State) : exec (.andn h d a b) s = execAndn h d a b s := rfl
theorem exec_shl (h : Head) (d : Reg) (a : Reg) (b : Reg) (s : State) : exec (.shl h d a b) s = execShl h d a b s := rfl
theorem exec_shr (h : Head) (d : Reg) (a : Reg) (b : Reg) (s : State) : exec (.shr h d a b) s = execShr h d a b s := rfl
theorem exec_sar (h : Head) (d : Reg) (a : Reg) (b : Reg) (s : State) : exec (.sar h d a b) s = execSar h d a b s := rfl
theorem exec_rot (h : Head) (d : Reg) (a : Reg) (b : Reg) (s : State) : exec (.rot h d a b) s = execRot h d a b s := rfl
theorem exec_mov (h : Head) (d : Reg) (a : Reg) (s : State) : exec (.mov h d a) s = execMov h d a s := rfl
theorem exec_neg (h : Head) (d : Reg) (a : Reg) (s : State) : exec (.neg h d a) s = execNeg h d a s := rfl
theorem exec_abs (h : Head) (d : Reg) (a : Reg) (s : State) : exec (.abs h d a) s = execAbs h d a s := rfl
theorem exec_not (h : Head) (d : Reg) (a : Reg) (s : State) : exec (.not h d a) s = execNot h d a s := rfl
theorem exec_clz (h : Head) (d : Reg) (a : Reg) (s : State) : exec (.clz h d a) s = execClz h d a s := rfl
theorem exec_popc (h : Head) (d : Reg) (a : Reg) (s : State) : exec (.popc h d a) s = execPopc h d a s := rfl
theorem exec_brev (h : Head) (d : Reg) (a : Reg) (s : State) : exec (.brev h d a) s = execBrev h d a s := rfl
theorem exec_addTyped (h : Head) (d : Reg) (a : Reg) (b : Reg) (ty : Ty) (sat : Bool) (s : State) : exec (.addTyped h d a b ty sat) s = execAddTyped h d a b ty sat s := rfl
theorem exec_subTyped (h : Head) (d : Reg) (a : Reg) (b : Reg) (ty : Ty) (sat : Bool) (s : State) : exec (.subTyped h d a b ty sat) s = execSubTyped h d a b ty sat s := rfl
theorem exec_mulTyped (h : Head) (d : Reg) (a : Reg) (b : Reg) (ty : Ty) (sat : Bool) (s : State) : exec (.mulTyped h d a b ty sat) s = execMulTyped h d a b ty sat s := rfl
theorem exec_mulhi (h : Head) (d : Reg) (a : Reg) (b : Reg) (ty : Ty) (s : State) : exec (.mulhi h d a b ty) s = execMulhi h d a b ty s := rfl
theorem exec_div (h : Head) (d : Reg) (a : Reg) (b : Reg) (ty : Ty) (sat : Bool) (s : State) : exec (.div h d a b ty sat) s = execDiv h d a b ty sat s := rfl
theorem exec_rem (h : Head) (d : Reg) (a : Reg) (b : Reg) (ty : Ty) (s : State) : exec (.rem h d a b ty) s = execRem h d a b ty s := rfl
theorem exec_minTyped (h : Head) (d : Reg) (a : Reg) (b : Reg) (ty : Ty) (s : State) : exec (.minTyped h d a b ty) s = execMinTyped h d a b ty s := rfl
theorem exec_maxTyped (h : Head) (d : Reg) (a : Reg) (b : Reg) (ty : Ty) (s : State) : exec (.maxTyped h d a b ty) s = execMaxTyped h d a b ty s := rfl
theorem exec_negTyped (h : Head) (d : Reg) (a : Reg) (ty : Ty) (sat : Bool) (s : State) : exec (.negTyped h d a ty sat) s = execNegTyped h d a ty sat s := rfl
theorem exec_absTyped (h : Head) (d : Reg) (a : Reg) (ty : Ty) (sat : Bool) (s : State) : exec (.absTyped h d a ty sat) s = execAbsTyped h d a ty sat s := rfl
theorem exec_mad (h : Head) (d : Reg) (a : Reg) (b : Reg) (c : Reg) (ty : Ty) (sat : Bool) (s : State) : exec (.mad h d a b c ty sat) s = execMad h d a b c ty sat s := rfl
theorem exec_bfx (h : Head) (d : Reg) (a : Reg) (b : Reg) (ty : Ty) (s : State) : exec (.bfx h d a b ty) s = execBfx h d a b ty s := rfl
theorem exec_bfi (h : Head) (d : Reg) (a : Reg) (b : Reg) (c : Reg) (ty : Ty) (s : State) : exec (.bfi h d a b c ty) s = execBfi h d a b c ty s := rfl
theorem exec_sel (h : Head) (d : Reg) (a : Reg) (b : Reg) (c : Reg) (ty : Ty) (s : State) : exec (.sel h d a b c ty) s = execSel h d a b c ty s := rfl
theorem exec_addImm (h : Head) (d : Reg) (a : Reg) (lit : BitVec 32) (s : State) : exec (.addImm h d a lit) s = execAddImm h d a lit s := rfl
theorem exec_subImm (h : Head) (d : Reg) (a : Reg) (lit : BitVec 32) (s : State) : exec (.subImm h d a lit) s = execSubImm h d a lit s := rfl
theorem exec_mulImm (h : Head) (d : Reg) (a : Reg) (lit : BitVec 32) (s : State) : exec (.mulImm h d a lit) s = execMulImm h d a lit s := rfl
theorem exec_andImm (h : Head) (d : Reg) (a : Reg) (lit : BitVec 32) (s : State) : exec (.andImm h d a lit) s = execAndImm h d a lit s := rfl
theorem exec_orImm (h : Head) (d : Reg) (a : Reg) (lit : BitVec 32) (s : State) : exec (.orImm h d a lit) s = execOrImm h d a lit s := rfl
theorem exec_xorImm (h : Head) (d : Reg) (a : Reg) (lit : BitVec 32) (s : State) : exec (.xorImm h d a lit) s = execXorImm h d a lit s := rfl
theorem exec_andnImm (h : Head) (d : Reg) (a : Reg) (lit : BitVec 32) (s : State) : exec (.andnImm h d a lit) s = execAndnImm h d a lit s := rfl
theorem exec_shlImm (h : Head) (d : Reg) (a : Reg) (lit : BitVec 32) (s : State) : exec (.shlImm h d a lit) s = execShlImm h d a lit s := rfl
theorem exec_shrImm (h : Head) (d : Reg) (a : Reg) (lit : BitVec 32) (s : State) : exec (.shrImm h d a lit) s = execShrImm h d a lit s := rfl
theorem exec_sarImm (h : Head) (d : Reg) (a : Reg) (lit : BitVec 32) (s : State) : exec (.sarImm h d a lit) s = execSarImm h d a lit s := rfl
theorem exec_rotImm (h : Head) (d : Reg) (a : Reg) (lit : BitVec 32) (s : State) : exec (.rotImm h d a lit) s = execRotImm h d a lit s := rfl
theorem exec_minImm (h : Head) (d : Reg) (a : Reg) (lit : BitVec 32) (s : State) : exec (.minImm h d a lit) s = execMinImm h d a lit s := rfl
theorem exec_minImmU (h : Head) (d : Reg) (a : Reg) (lit : BitVec 32) (s : State) : exec (.minImmU h d a lit) s = execMinImmU h d a lit s := rfl
theorem exec_maxImm (h : Head) (d : Reg) (a : Reg) (lit : BitVec 32) (s : State) : exec (.maxImm h d a lit) s = execMaxImm h d a lit s := rfl
theorem exec_maxImmU (h : Head) (d : Reg) (a : Reg) (lit : BitVec 32) (s : State) : exec (.maxImmU h d a lit) s = execMaxImmU h d a lit s := rfl
theorem exec_movi (h : Head) (d : Reg) (imm : BitVec 14) (s : State) : exec (.movi h d imm) s = execMovi h d imm s := rfl
theorem exec_moviLit (h : Head) (d : Reg) (lit : BitVec 32) (s : State) : exec (.moviLit h d lit) s = execMoviLit h d lit s := rfl
theorem exec_movhi (h : Head) (d : Reg) (lit : BitVec 32) (s : State) : exec (.movhi h d lit) s = execMovhi h d lit s := rfl
theorem exec_setp (h : Head) (d : Reg) (a : Reg) (b : Reg) (c : Reg) (cond : BitVec 3) (ty : Ty) (merge : Bool) (tbl : BitVec 4) (s : State) : exec (.setp h d a b c cond ty merge tbl) s = execSetp h d a b c cond ty merge tbl s := rfl
theorem exec_plog (h : Head) (d : Reg) (a : Reg) (b : Reg) (c : Reg) (tbl : BitVec 8) (s : State) : exec (.plog h d a b c tbl) s = execPlog h d a b c tbl s := rfl
theorem exec_pmovToReg (h : Head) (d : Reg) (a : Reg) (s : State) : exec (.pmovToReg h d a) s = execPmovToReg h d a s := rfl
theorem exec_pmovToPred (h : Head) (d : Reg) (a : Reg) (s : State) : exec (.pmovToPred h d a) s = execPmovToPred h d a s := rfl
theorem exec_movs (h : Head) (d : Reg) (a : Reg) (s : State) : exec (.movs h d a) s = execMovs h d a s := rfl
theorem exec_movsw (h : Head) (d : Reg) (a : Reg) (s : State) : exec (.movsw h d a) s = execMovsw h d a s := rfl
theorem exec_bra (h : Head) (off : BitVec 21) (s : State) : exec (.bra h off) s = execBra h off s := rfl
theorem exec_call (h : Head) (off : BitVec 21) (s : State) : exec (.call h off) s = execCall h off s := rfl
theorem exec_brx (h : Head) (a : Reg) (s : State) : exec (.brx h a) s = execBrx h a s := rfl
theorem exec_callx (h : Head) (a : Reg) (s : State) : exec (.callx h a) s = execCallx h a s := rfl
theorem exec_ret (h : Head) (s : State) : exec (.ret h) s = execRet h s := rfl
theorem exec_endFibre (h : Head) (s : State) : exec (.endFibre h) s = execEndFibre h s := rfl
theorem exec_yield (h : Head) (s : State) : exec (.yield h) s = execYield h s := rfl
theorem exec_nap (h : Head) (a : Reg) (s : State) : exec (.nap h a) s = execNap h a s := rfl
theorem exec_nop (h : Head) (s : State) : exec (.nop h) s = execNop h s := rfl
theorem exec_trap (h : Head) (d : Reg) (s : State) : exec (.trap h d) s = execTrap h d s := rfl
theorem exec_loopReg (h : Head) (a : Reg) (last : BitVec 16) (s : State) : exec (.loopReg h a last) s = execLoopReg h a last s := rfl
theorem exec_loopImm (h : Head) (cnt : BitVec 16) (last : BitVec 16) (s : State) : exec (.loopImm h cnt last) s = execLoopImm h cnt last s := rfl
theorem exec_lbrk (h : Head) (n : BitVec 32) (s : State) : exec (.lbrk h n) s = execLbrk h n s := rfl
theorem exec_fork (h : Head) (d : Reg) (off : BitVec 32) (s : State) : exec (.fork h d off) s = execFork h d off s := rfl
theorem exec_fadd (h : Head) (d : Reg) (a : Reg) (b : Reg) (rnd : Rnd) (s : State) : exec (.fadd h d a b rnd) s = execFadd h d a b rnd s := rfl
theorem exec_fsub (h : Head) (d : Reg) (a : Reg) (b : Reg) (rnd : Rnd) (s : State) : exec (.fsub h d a b rnd) s = execFsub h d a b rnd s := rfl
theorem exec_fmul (h : Head) (d : Reg) (a : Reg) (b : Reg) (rnd : Rnd) (s : State) : exec (.fmul h d a b rnd) s = execFmul h d a b rnd s := rfl
theorem exec_fdiv (h : Head) (d : Reg) (a : Reg) (b : Reg) (rnd : Rnd) (s : State) : exec (.fdiv h d a b rnd) s = execFdiv h d a b rnd s := rfl
theorem exec_ffma (h : Head) (d : Reg) (a : Reg) (b : Reg) (c : Reg) (rnd : Rnd) (s : State) : exec (.ffma h d a b c rnd) s = execFfma h d a b c rnd s := rfl
theorem exec_fmin (h : Head) (d : Reg) (a : Reg) (b : Reg) (s : State) : exec (.fmin h d a b) s = execFmin h d a b s := rfl
theorem exec_fmax (h : Head) (d : Reg) (a : Reg) (b : Reg) (s : State) : exec (.fmax h d a b) s = execFmax h d a b s := rfl
theorem exec_frcp (h : Head) (d : Reg) (a : Reg) (rnd : Rnd) (s : State) : exec (.frcp h d a rnd) s = execFrcp h d a rnd s := rfl
theorem exec_fsqrt (h : Head) (d : Reg) (a : Reg) (rnd : Rnd) (s : State) : exec (.fsqrt h d a rnd) s = execFsqrt h d a rnd s := rfl
theorem exec_frsq (h : Head) (d : Reg) (a : Reg) (rnd : Rnd) (s : State) : exec (.frsq h d a rnd) s = execFrsq h d a rnd s := rfl
theorem exec_frnd (h : Head) (d : Reg) (a : Reg) (rnd : Rnd) (s : State) : exec (.frnd h d a rnd) s = execFrnd h d a rnd s := rfl
theorem exec_fclass (h : Head) (d : Reg) (a : Reg) (ty : Ty) (s : State) : exec (.fclass h d a ty) s = execFclass h d a ty s := rfl
theorem exec_fcmp (h : Head) (d : Reg) (a : Reg) (b : Reg) (c : Reg) (cond : BitVec 3) (merge : Bool) (tbl : BitVec 4) (s : State) : exec (.fcmp h d a b c cond merge tbl) s = execFcmp h d a b c cond merge tbl s := rfl
theorem exec_dcmp (h : Head) (d : Reg) (a : Reg) (b : Reg) (c : Reg) (cond : BitVec 3) (merge : Bool) (tbl : BitVec 4) (s : State) : exec (.dcmp h d a b c cond merge tbl) s = execDcmp h d a b c cond merge tbl s := rfl
theorem exec_fex2 (h : Head) (d : Reg) (a : Reg) (s : State) : exec (.fex2 h d a) s = execFex2 h d a s := rfl
theorem exec_flg2 (h : Head) (d : Reg) (a : Reg) (s : State) : exec (.flg2 h d a) s = execFlg2 h d a s := rfl
theorem exec_fsin (h : Head) (d : Reg) (a : Reg) (s : State) : exec (.fsin h d a) s = execFsin h d a s := rfl
theorem exec_fcos (h : Head) (d : Reg) (a : Reg) (s : State) : exec (.fcos h d a) s = execFcos h d a s := rfl
theorem exec_ftanh (h : Head) (d : Reg) (a : Reg) (s : State) : exec (.ftanh h d a) s = execFtanh h d a s := rfl
theorem exec_dadd (h : Head) (d : Reg) (a : Reg) (b : Reg) (rnd : Rnd) (s : State) : exec (.dadd h d a b rnd) s = execDadd h d a b rnd s := rfl
theorem exec_dmul (h : Head) (d : Reg) (a : Reg) (b : Reg) (rnd : Rnd) (s : State) : exec (.dmul h d a b rnd) s = execDmul h d a b rnd s := rfl
theorem exec_dfma (h : Head) (d : Reg) (a : Reg) (b : Reg) (c : Reg) (rnd : Rnd) (s : State) : exec (.dfma h d a b c rnd) s = execDfma h d a b c rnd s := rfl
theorem exec_hadd2 (h : Head) (d : Reg) (a : Reg) (b : Reg) (ty : Ty) (rnd : Rnd) (s : State) : exec (.hadd2 h d a b ty rnd) s = execHadd2 h d a b ty rnd s := rfl
theorem exec_hmul2 (h : Head) (d : Reg) (a : Reg) (b : Reg) (ty : Ty) (rnd : Rnd) (s : State) : exec (.hmul2 h d a b ty rnd) s = execHmul2 h d a b ty rnd s := rfl
theorem exec_hfma2 (h : Head) (d : Reg) (a : Reg) (b : Reg) (c : Reg) (ty : Ty) (rnd : Rnd) (s : State) : exec (.hfma2 h d a b c ty rnd) s = execHfma2 h d a b c ty rnd s := rfl
theorem exec_cvt (h : Head) (d : Reg) (a : Reg) (ty : Ty) (rnd : Rnd) (sat : Bool) (src : Ty) (s : State) : exec (.cvt h d a ty rnd sat src) s = execCvt h d a ty rnd sat src s := rfl
theorem exec_qnt (h : Head) (d : Reg) (a : Reg) (c : Reg) (rnd : Rnd) (adj : Bool) (fmt : Fmt) (s : State) : exec (.qnt h d a c rnd adj fmt) s = execQnt h d a c rnd adj fmt s := rfl
theorem exec_dqnt (h : Head) (d : Reg) (a : Reg) (c : Reg) (fmt : Fmt) (s : State) : exec (.dqnt h d a c fmt) s = execDqnt h d a c fmt s := rfl
theorem exec_rand (h : Head) (d : Reg) (ty : Ty) (s : State) : exec (.rand h d ty) s = execRand h d ty s := rfl
theorem exec_shfl (h : Head) (d : Reg) (a : Reg) (b : Reg) (c : Reg) (mode : ShflMode) (ty : Ty) (p : Reg) (s : State) : exec (.shfl h d a b c mode ty p) s = execShfl h d a b c mode ty p s := rfl
theorem exec_vote (h : Head) (d : Reg) (a : Reg) (b : Reg) (c : Reg) (mode : VoteMode) (s : State) : exec (.vote h d a b c mode) s = execVote h d a b c mode s := rfl
theorem exec_spred (h : Head) (d : Reg) (a : Reg) (c : Reg) (op : SpredOp) (ty : Ty) (rnd : Rnd) (scan : Bool) (s : State) : exec (.spred h d a c op ty rnd scan) s = execSpred h d a c op ty rnd scan s := rfl
theorem exec_qswap (h : Head) (d : Reg) (a : Reg) (ty : Ty) (dir : BitVec 2) (s : State) : exec (.qswap h d a ty dir) s = execQswap h d a ty dir s := rfl
theorem exec_qbc (h : Head) (d : Reg) (a : Reg) (ty : Ty) (lane : BitVec 2) (s : State) : exec (.qbc h d a ty lane) s = execQbc h d a ty lane s := rfl
theorem exec_ld (h : Head) (d : Reg) (a : Reg) (spc : Space) (sz : Size) (ord : Order) (sc : Scope) (off : BitVec 16) (s : State) : exec (.ld h d a spc sz ord sc off) s = execLd h d a spc sz ord sc off s := rfl
theorem exec_st (h : Head) (a : Reg) (b : Reg) (spc : Space) (sz : Size) (ord : Order) (sc : Scope) (off : BitVec 16) (s : State) : exec (.st h a b spc sz ord sc off) s = execSt h a b spc sz ord sc off s := rfl
theorem exec_atom (h : Head) (d : Reg) (a : Reg) (b : Reg) (spc : Space) (sz : Size) (ord : Order) (sc : Scope) (aop : AtomOp) (off : BitVec 16) (s : State) : exec (.atom h d a b spc sz ord sc aop off) s = execAtom h d a b spc sz ord sc aop off s := rfl
theorem exec_red (h : Head) (a : Reg) (b : Reg) (spc : Space) (sz : Size) (ord : Order) (sc : Scope) (aop : AtomOp) (off : BitVec 16) (s : State) : exec (.red h a b spc sz ord sc aop off) s = execRed h a b spc sz ord sc aop off s := rfl
theorem exec_fence (h : Head) (d : Reg) (a : Reg) (s : State) : exec (.fence h d a) s = execFence h d a s := rfl
theorem exec_efence (h : Head) (s : State) : exec (.efence h) s = execEfence h s := rfl
theorem exec_cpasync (h : Head) (d : Reg) (a : Reg) (b : Reg) (c : Reg) (bar : Bool) (ssp : Space) (dsp : Space) (s : State) : exec (.cpasync h d a b c bar ssp dsp) s = execCpasync h d a b c bar ssp dsp s := rfl
theorem exec_gath (h : Head) (d : Reg) (a : Reg) (b : Reg) (c : Reg) (ssp : Space) (fmt : Fmt) (toq : Bool) (s : State) : exec (.gath h d a b c ssp fmt toq) s = execGath h d a b c ssp fmt toq s := rfl
theorem exec_waitc (h : Head) (n : BitVec 8) (mask : BitVec 4) (s : State) : exec (.waitc h n mask) s = execWaitc h n mask s := rfl
theorem exec_ftest (h : Head) (d : Reg) (a : Reg) (s : State) : exec (.ftest h d a) s = execFtest h d a s := rfl
theorem exec_fcancel (h : Head) (d : Reg) (a : Reg) (s : State) : exec (.fcancel h d a) s = execFcancel h d a s := rfl
theorem exec_oqpop (h : Head) (d : Reg) (a : Reg) (n : BitVec 5) (s : State) : exec (.oqpop h d a n) s = execOqpop h d a n s := rfl
theorem exec_oqrel (h : Head) (a : Reg) (s : State) : exec (.oqrel h a) s = execOqrel h a s := rfl
theorem exec_aslice (h : Head) (d : Reg) (a : Reg) (hd : Bool) (s : State) : exec (.aslice h d a hd) s = execAslice h d a hd s := rfl
theorem exec_astop (h : Head) (s : State) : exec (.astop h) s = execAstop h s := rfl
theorem exec_ploop (h : Head) (a : Reg) (last : BitVec 13) (s : State) : exec (.ploop h a last) s = execPloop h a last s := rfl
theorem exec_afeed (h : Head) (d : Reg) (a : Reg) (b : Reg) (m : BitVec 11) (kind : FeedKind) (s : State) : exec (.afeed h d a b m kind) s = execAfeed h d a b m kind s := rfl
theorem exec_pwait (h : Head) (d : Reg) (n : BitVec 6) (s : State) : exec (.pwait h d n) s = execPwait h d n s := rfl
theorem exec_barinit (h : Head) (a : Reg) (b : Reg) (s : State) : exec (.barinit h a b) s = execBarinit h a b s := rfl
theorem exec_bararr (h : Head) (a : Reg) (s : State) : exec (.bararr h a) s = execBararr h a s := rfl
theorem exec_barwt (h : Head) (a : Reg) (b : Reg) (s : State) : exec (.barwt h a b) s = execBarwt h a b s := rfl
theorem exec_barst (h : Head) (d : Reg) (a : Reg) (s : State) : exec (.barst h d a) s = execBarst h d a s := rfl
theorem exec_cvdecl (h : Head) (c : Reg) (n : Reg) (s : State) : exec (.cvdecl h c n) s = execCvdecl h c n s := rfl
theorem exec_mma (h : Head) (d : Reg) (a : Reg) (b : Reg) (c : Reg) (sc : Bool) (s32 : Bool) (fr : Bool) (spSrc : Bool) (reuse : Bool) (x : Bool) (fmt : Fmt) (hreg : Reg) (hd : Bool) (ssel : BitVec 2) (sreg : Reg) (s : State) : exec (.mma h d a b c sc s32 fr spSrc reuse x fmt hreg hd ssel sreg) s = execMma h d a b c sc s32 fr spSrc reuse x fmt hreg hd ssel sreg s := rfl
theorem exec_accz (h : Head) (d : Reg) (s : State) : exec (.accz h d) s = execAccz h d s := rfl
theorem exec_accld (h : Head) (d : Reg) (a : Reg) (spc : Space) (s : State) : exec (.accld h d a spc) s = execAccld h d a spc s := rfl
theorem exec_accst (h : Head) (d : Reg) (a : Reg) (b : Reg) (rnd : Rnd) (spc : Space) (adj : Bool) (fmt : Fmt) (s : State) : exec (.accst h d a b rnd spc adj fmt) s = execAccst h d a b rnd spc adj fmt s := rfl
theorem exec_accrd (h : Head) (d : Reg) (a : Reg) (b : Reg) (s : State) : exec (.accrd h d a b) s = execAccrd h d a b s := rfl
theorem exec_qpush (h : Head) (d : Reg) (a : Reg) (b : Reg) (prio : BitVec 8) (t : Bool) (n : BitVec 3) (s : State) : exec (.qpush h d a b prio t n) s = execQpush h d a b prio t n s := rfl
theorem exec_qpop (h : Head) (d : Reg) (a : Reg) (n : BitVec 3) (s : State) : exec (.qpop h d a n) s = execQpop h d a n s := rfl
theorem exec_qpeek (h : Head) (d : Reg) (a : Reg) (c : Reg) (n : BitVec 3) (s : State) : exec (.qpeek h d a c n) s = execQpeek h d a c n s := rfl
theorem exec_qcnt (h : Head) (d : Reg) (a : Reg) (s : State) : exec (.qcnt h d a) s = execQcnt h d a s := rfl
theorem exec_dcarm (h : Head) (a : Reg) (b : Reg) (c : Reg) (q : Reg) (s : State) : exec (.dcarm h a b c q) s = execDcarm h a b c q s := rfl
theorem exec_dcdec (h : Head) (a : Reg) (s : State) : exec (.dcdec h a) s = execDcdec h a s := rfl
theorem exec_trig (h : Head) (s : State) : exec (.trig h) s = execTrig h s := rfl
theorem exec_dwait (h : Head) (d : Reg) (s : State) : exec (.dwait h d) s = execDwait h d s := rfl
theorem exec_beat (h : Head) (s : State) : exec (.beat h) s = execBeat h s := rfl
theorem exec_evpost (h : Head) (a : Reg) (s : State) : exec (.evpost h a) s = execEvpost h a s := rfl
theorem exec_evpop (h : Head) (d : Reg) (nb : Bool) (s : State) : exec (.evpop h d nb) s = execEvpop h d nb s := rfl
theorem exec_guess (h : Head) (d : Reg) (a : Reg) (b : Reg) (c : Reg) (ty : Ty) (aidReg : Reg) (aid : Bool) (loc : Bool) (imm : Bool) (sw : Bool) (s : State) : exec (.guess h d a b c ty aidReg aid loc imm sw) s = execGuess h d a b c ty aidReg aid loc imm sw s := rfl
theorem exec_affirm (h : Head) (d : Reg) (a : Reg) (hd : Bool) (s : State) : exec (.affirm h d a hd) s = execAffirm h d a hd s := rfl
theorem exec_deny (h : Head) (d : Reg) (a : Reg) (b : Reg) (ty : Ty) (hd : Bool) (s : State) : exec (.deny h d a b ty hd) s = execDeny h d a b ty hd s := rfl
theorem exec_tagq (h : Head) (d : Reg) (a : Reg) (idx : BitVec 2) (mode : TagqMode) (s : State) : exec (.tagq h d a idx mode) s = execTagq h d a idx mode s := rfl
theorem exec_puts (h : Head) (d : Reg) (a : Reg) (b : Reg) (c : Reg) (lh : Reg) (lhd : Bool) (addSig : Bool) (sig : Bool) (spc : Space) (s : State) : exec (.puts h d a b c lh lhd addSig sig spc) s = execPuts h d a b c lh lhd addSig sig spc s := rfl
theorem exec_get (h : Head) (d : Reg) (a : Reg) (b : Reg) (c : Reg) (bar : Bool) (spc : Space) (s : State) : exec (.get h d a b c bar spc) s = execGet h d a b c bar spc s := rfl
theorem exec_radd (h : Head) (d : Reg) (a : Reg) (b : Reg) (c : Reg) (ty : Ty) (lh : Reg) (lhd : Bool) (spc : Space) (s : State) : exec (.radd h d a b c ty lh lhd spc) s = execRadd h d a b c ty lh lhd spc s := rfl
theorem exec_sigwt (h : Head) (d : Reg) (a : Reg) (b : Reg) (c : Reg) (p : Reg) (cond : SigCond) (s : State) : exec (.sigwt h d a b c p cond) s = execSigwt h d a b c p cond s := rfl
theorem exec_want (h : Head) (d : Reg) (a : Reg) (b : Reg) (c : Reg) (spc : Space) (life : BitVec 4) (s : State) : exec (.want h d a b c spc life) s = execWant h d a b c spc life s := rfl
theorem exec_announce (h : Head) (d : Reg) (a : Reg) (b : Reg) (c : Reg) (spc : Space) (s : State) : exec (.announce h d a b c spc) s = execAnnounce h d a b c spc s := rfl
theorem exec_twalk (h : Head) (d : Reg) (a : Reg) (tag : BitVec 6) (port : BitVec 6) (s : State) : exec (.twalk h d a tag port) s = execTwalk h d a tag port s := rfl
theorem exec_permit (h : Head) (d : Reg) (a : Reg) (b : Reg) (s : State) : exec (.permit h d a b) s = execPermit h d a b s := rfl
theorem exec_cseq (h : Head) (d : Reg) (a : Reg) (b : Reg) (s : State) : exec (.cseq h d a b) s = execCseq h d a b s := rfl
theorem exec_sysc (h : Head) (n : Reg) (s : State) : exec (.sysc h n) s = execSysc h n s := rfl
theorem exec_rft (h : Head) (a : Reg) (norep : Bool) (mode : RftMode) (s : State) : exec (.rft h a norep mode) s = execRft h a norep mode s := rfl
theorem exec_awrd (h : Head) (d : Reg) (a : Reg) (b : Reg) (c : Reg) (s : State) : exec (.awrd h d a b c) s = execAwrd h d a b c s := rfl
theorem exec_awwr (h : Head) (d : Reg) (a : Reg) (b : Reg) (c : Reg) (s : State) : exec (.awwr h d a b c) s = execAwwr h d a b c s := rfl
theorem exec_hstop (h : Head) (d : Reg) (a : Reg) (grp : Bool) (s : State) : exec (.hstop h d a grp) s = execHstop h d a grp s := rfl
theorem exec_hresume (h : Head) (a : Reg) (grp : Bool) (s : State) : exec (.hresume h a grp) s = execHresume h a grp s := rfl
theorem exec_brkp (h : Head) (n : BitVec 8) (s : State) : exec (.brkp h n) s = execBrkp h n s := rfl
theorem exec_trace (h : Head) (a : Reg) (b : Reg) (two : Bool) (id : BitVec 8) (s : State) : exec (.trace h a b two id) s = execTrace h a b two id s := rfl
theorem exec_mark (h : Head) (m : BitVec 13) (s : State) : exec (.mark h m) s = execMark h m s := rfl
theorem exec_rep (stop : Bool) (n : BitVec 6) (sd : Bool) (sa : Bool) (sb : Bool) (sc : Bool) (two : Bool) (s : State) : exec (.rep stop n sd sa sb sc two) s = execRep stop n sd sa sb sc two s := rfl
theorem exec_inv (h : Head) (t : Reg) (x : Reg) (k : BitVec 2) (ty : InvTy) (y : Reg) (dec : Bool) (tol : BitVec 5) (iter : BitVec 6) (s : State) : exec (.inv h t x k ty y dec tol iter) s = execInv h t x k ty y dec tol iter s := rfl
theorem exec_jmpt (h : Head) (idx : BitVec 20) (s : State) : exec (.jmpt h idx) s = execJmpt h idx s := rfl
theorem exec_padw (h : Head) (s : State) : exec (.padw h) s = execPadw h s := rfl
theorem exec_variableLatencyComplete (op : Nat) (s : State) : exec (.variableLatencyComplete op) s = execVariableLatencyComplete op s := rfl
theorem exec_loadDataArrival (op : Nat) (s : State) : exec (.loadDataArrival op) s = execLoadDataArrival op s := rfl
theorem exec_storeAck (op : Nat) (s : State) : exec (.storeAck op) s = execStoreAck op s := rfl
theorem exec_scratchpadLoadComplete (op : Nat) (s : State) : exec (.scratchpadLoadComplete op) s = execScratchpadLoadComplete op s := rfl
theorem exec_fibreEnd (fib : Nat) (s : State) : exec (.fibreEnd fib) s = execFibreEnd fib s := rfl
theorem exec_groupResourceRelease (grp : Nat) (s : State) : exec (.groupResourceRelease grp) s = execGroupResourceRelease grp s := rfl
theorem exec_napWake (fib : Nat) (s : State) : exec (.napWake fib) s = execNapWake fib s := rfl
theorem exec_swapOut (grp : Nat) (s : State) : exec (.swapOut grp) s = execSwapOut grp s := rfl
theorem exec_checkpointSpillComplete (fib : Nat) (s : State) : exec (.checkpointSpillComplete fib) s = execCheckpointSpillComplete fib s := rfl
theorem exec_pacerFillComplete (op : Nat) (s : State) : exec (.pacerFillComplete op) s = execPacerFillComplete op s := rfl
theorem exec_walkComplete (walk : Nat) (s : State) : exec (.walkComplete walk) s = execWalkComplete walk s := rfl
theorem exec_mmaStart (core : Nat) (s : State) : exec (.mmaStart core) s = execMmaStart core s := rfl
theorem exec_mmaComplete (core : Nat) (s : State) : exec (.mmaComplete core) s = execMmaComplete core s := rfl
theorem exec_copyPieceLand (op : Nat) (s : State) : exec (.copyPieceLand op) s = execCopyPieceLand op s := rfl
theorem exec_gathRowArrival (op : Nat) (row : Nat) (s : State) : exec (.gathRowArrival op row) s = execGathRowArrival op row s := rfl
theorem exec_barwtTimeout (fib : Nat) (s : State) : exec (.barwtTimeout fib) s = execBarwtTimeout fib s := rfl
theorem exec_accTransferComplete (op : Nat) (s : State) : exec (.accTransferComplete op) s = execAccTransferComplete op s := rfl
theorem exec_groupPlace (cluster : Nat) (s : State) : exec (.groupPlace cluster) s = execGroupPlace cluster s := rfl
theorem exec_queueEntryArrive (msg : Nat) (s : State) : exec (.queueEntryArrive msg) s = execQueueEntryArrive msg s := rfl
theorem exec_qpopReturn (fib : Nat) (s : State) : exec (.qpopReturn fib) s = execQpopReturn fib s := rfl
theorem exec_dcarmArrive (msg : Nat) (s : State) : exec (.dcarmArrive msg) s = execDcarmArrive msg s := rfl
theorem exec_dcdecArrive (msg : Nat) (s : State) : exec (.dcdecArrive msg) s = execDcdecArrive msg s := rfl
theorem exec_quiescenceRound (job : Nat) (s : State) : exec (.quiescenceRound job) s = execQuiescenceRound job s := rfl
theorem exec_handlerTakeRecord (core : Nat) (s : State) : exec (.handlerTakeRecord core) s = execHandlerTakeRecord core s := rfl
theorem exec_replayComplete (fib : Nat) (s : State) : exec (.replayComplete fib) s = execReplayComplete fib s := rfl
theorem exec_watchedOpResolve (die : Nat) (slot : Nat) (s : State) : exec (.watchedOpResolve die slot) s = execWatchedOpResolve die slot s := rfl
theorem exec_resolutionAtHome (msg : Nat) (s : State) : exec (.resolutionAtHome msg) s = execResolutionAtHome msg s := rfl
theorem exec_affirmApply (die : Nat) (aid : BitVec 32) (s : State) : exec (.affirmApply die aid) s = execAffirmApply die aid s := rfl
theorem exec_denyApply (die : Nat) (aid : BitVec 32) (s : State) : exec (.denyApply die aid) s = execDenyApply die aid s := rfl
theorem exec_resolutionAck (die : Nat) (aid : BitVec 32) (s : State) : exec (.resolutionAck die aid) s = execResolutionAck die aid s := rfl
theorem exec_localCompletion (op : Nat) (s : State) : exec (.localCompletion op) s = execLocalCompletion op s := rfl
theorem exec_collEnd (prog : Nat) (s : State) : exec (.collEnd prog) s = execCollEnd prog s := rfl
theorem exec_collLoad (prog : Nat) (s : State) : exec (.collLoad prog) s = execCollLoad prog s := rfl
theorem exec_collSend (prog : Nat) (s : State) : exec (.collSend prog) s = execCollSend prog s := rfl
theorem exec_collRadd (prog : Nat) (s : State) : exec (.collRadd prog) s = execCollRadd prog s := rfl
theorem exec_collRecvAdd (prog : Nat) (s : State) : exec (.collRecvAdd prog) s = execCollRecvAdd prog s := rfl
theorem exec_collRecvCopy (prog : Nat) (s : State) : exec (.collRecvCopy prog) s = execCollRecvCopy prog s := rfl
theorem exec_collWrite (prog : Nat) (s : State) : exec (.collWrite prog) s = execCollWrite prog s := rfl
theorem exec_collSignal (prog : Nat) (s : State) : exec (.collSignal prog) s = execCollSignal prog s := rfl
theorem exec_collWaitge (prog : Nat) (s : State) : exec (.collWaitge prog) s = execCollWaitge prog s := rfl
theorem exec_tileWalkTile (walk : Nat) (s : State) : exec (.tileWalkTile walk) s = execTileWalkTile walk s := rfl
theorem exec_walkPermitArrive (op : Nat) (s : State) : exec (.walkPermitArrive op) s = execWalkPermitArrive op s := rfl
theorem exec_sigwtRecheck (fib : Nat) (s : State) : exec (.sigwtRecheck fib) s = execSigwtRecheck fib s := rfl
theorem exec_forcedRotation (core : Nat) (s : State) : exec (.forcedRotation core) s = execForcedRotation core s := rfl
theorem exec_cohortRelease (job : Nat) (cohort : Nat) (s : State) : exec (.cohortRelease job cohort) s = execCohortRelease job cohort s := rfl
theorem exec_queueCreditGrant (job : Nat) (queue : Nat) (die : Nat) (n : Nat) (s : State) : exec (.queueCreditGrant job queue die n) s = execQueueCreditGrant job queue die n s := rfl
theorem exec_queueDeadlock (job : Nat) (queue : Nat) (s : State) : exec (.queueDeadlock job queue) s = execQueueDeadlock job queue s := rfl
theorem exec_watchdogTest (job : Nat) (s : State) : exec (.watchdogTest job) s = execWatchdogTest job s := rfl
theorem exec_wsLoadComplete (die : Nat) (s : State) : exec (.wsLoadComplete die) s = execWsLoadComplete die s := rfl
theorem exec_dtinvComplete (die : Nat) (s : State) : exec (.dtinvComplete die) s = execDtinvComplete die s := rfl
theorem exec_evictionStopTimeout (grp : Nat) (s : State) : exec (.evictionStopTimeout grp) s = execEvictionStopTimeout grp s := rfl
theorem exec_evictionSave (grp : Nat) (s : State) : exec (.evictionSave grp) s = execEvictionSave grp s := rfl
theorem exec_packageReset (s : State) : exec .packageReset s = execPackageReset s := rfl
theorem exec_launch (fn : Nat) (queue : Nat) (idx : BitVec 16) (s : State) : exec (.launch fn queue idx) s = execLaunch fn queue idx s := rfl
theorem exec_jobwait (fn : Nat) (queue : Nat) (idx : BitVec 16) (s : State) : exec (.jobwait fn queue idx) s = execJobwait fn queue idx s := rfl
theorem exec_wsload (fn : Nat) (queue : Nat) (idx : BitVec 16) (s : State) : exec (.wsload fn queue idx) s = execWsload fn queue idx s := rfl
theorem exec_halt (fn : Nat) (queue : Nat) (idx : BitVec 16) (s : State) : exec (.halt fn queue idx) s = execHalt fn queue idx s := rfl
theorem exec_resume (fn : Nat) (queue : Nat) (idx : BitVec 16) (s : State) : exec (.resume fn queue idx) s = execResume fn queue idx s := rfl
theorem exec_kill (fn : Nat) (queue : Nat) (idx : BitVec 16) (s : State) : exec (.kill fn queue idx) s = execKill fn queue idx s := rfl
theorem exec_unlistedCommand (fn : Nat) (queue : Nat) (idx : BitVec 16) (s : State) : exec (.unlistedCommand fn queue idx) s = execUnlistedCommand fn queue idx s := rfl
theorem exec_fabricPacketArrive (port : Nat) (pkt : Packet) (s : State) : exec (.fabricPacketArrive port pkt) s = execFabricPacketArrive port pkt s := rfl
theorem exec_retransmitTimeout (seq : Nat) (s : State) : exec (.retransmitTimeout seq) s = execRetransmitTimeout seq s := rfl
theorem exec_interestArrive (port : Nat) (face : Interest) (s : State) : exec (.interestArrive port face) s = execInterestArrive port face s := rfl
theorem exec_faceDeadline (port : Nat) (face : Interest) (s : State) : exec (.faceDeadline port face) s = execFaceDeadline port face s := rfl
theorem exec_sigwtTimeout (fib : Nat) (s : State) : exec (.sigwtTimeout fib) s = execSigwtTimeout fib s := rfl
theorem exec_dbgTokenResult (s : State) : exec .dbgTokenResult s = execDbgTokenResult s := rfl
theorem exec_traceSample (core : Nat) (s : State) : exec (.traceSample core) s = execTraceSample core s := rfl
theorem exec_instructionFetchError (fib : Nat) (second : Bool) (s : State) : exec (.instructionFetchError fib second) s = execInstructionFetchError fib second s := rfl
theorem exec_hostInboundWrite (fn : Nat) (addr : Nat) (bytes : List Byte) (s : State) : exec (.hostInboundWrite fn addr bytes) s = execHostInboundWrite fn addr bytes s := rfl
theorem exec_hostInboundRead (fn : Nat) (addr : Nat) (len : Nat) (s : State) : exec (.hostInboundRead fn addr len) s = execHostInboundRead fn addr len s := rfl
theorem exec_queueCreditReturn (job : Nat) (queue : Nat) (die : Nat) (n : Nat) (s : State) : exec (.queueCreditReturn job queue die n) s = execQueueCreditReturn job queue die n s := rfl
theorem exec_wsPhaseEnter (die : Nat) (s : State) : exec (.wsPhaseEnter die) s = execWsPhaseEnter die s := rfl
theorem exec_wsPhaseLeave (die : Nat) (s : State) : exec (.wsPhaseLeave die) s = execWsPhaseLeave die s := rfl
theorem exec_wsLoadGo (die : Nat) (s : State) : exec (.wsLoadGo die) s = execWsLoadGo die s := rfl
theorem exec_wsRefreshStart (die : Nat) (bank : Nat) (s : State) : exec (.wsRefreshStart die bank) s = execWsRefreshStart die bank s := rfl
theorem exec_wsRefreshEnd (die : Nat) (bank : Nat) (s : State) : exec (.wsRefreshEnd die bank) s = execWsRefreshEnd die bank s := rfl
theorem exec_wsScrubVisit (die : Nat) (off : Nat) (err : ScrubErr) (s : State) : exec (.wsScrubVisit die off err) s = execWsScrubVisit die off err s := rfl
theorem exec_dramScrubVisit (granule : Nat) (err : ScrubErr) (s : State) : exec (.dramScrubVisit granule err) s = execDramScrubVisit granule err s := rfl
theorem exec_dieFatalError (die : Nat) (s : State) : exec (.dieFatalError die) s = execDieFatalError die s := rfl
theorem exec_dtinvPage (die : Nat) (s : State) : exec (.dtinvPage die) s = execDtinvPage die s := rfl
theorem exec_dtinvJob (die : Nat) (s : State) : exec (.dtinvJob die) s = execDtinvJob die s := rfl
theorem exec_dtinvAll (die : Nat) (s : State) : exec (.dtinvAll die) s = execDtinvAll die s := rfl
theorem exec_dtinvReservedScope (die : Nat) (s : State) : exec (.dtinvReservedScope die) s = execDtinvReservedScope die s := rfl
theorem exec_ceccClear (core : Nat) (s : State) : exec (.ceccClear core) s = execCeccClear core s := rfl
theorem exec_deccClear (die : Nat) (s : State) : exec (.deccClear die) s = execDeccClear die s := rfl
theorem exec_cevdropClear (cluster : Nat) (s : State) : exec (.cevdropClear cluster) s = execCevdropClear cluster s := rfl
theorem exec_fpstatReplayClear (port : Nat) (s : State) : exec (.fpstatReplayClear port) s = execFpstatReplayClear port s := rfl
theorem exec_ucieLinkDown (die : Nat) (s : State) : exec (.ucieLinkDown die) s = execUcieLinkDown die s := rfl
theorem exec_hqSqDoorbell (fn : Nat) (queue : Nat) (tail : BitVec 32) (s : State) : exec (.hqSqDoorbell fn queue tail) s = execHqSqDoorbell fn queue tail s := rfl
theorem exec_hqCqDoorbell (fn : Nat) (queue : Nat) (head : BitVec 32) (s : State) : exec (.hqCqDoorbell fn queue head) s = execHqCqDoorbell fn queue head s := rfl
theorem exec_lockInterfaceRequest (fn : Nat) (s : State) : exec (.lockInterfaceRequest fn) s = execLockInterfaceRequest fn s := rfl
theorem exec_startInterfaceRequest (fn : Nat) (nonce : BitVec 256) (s : State) : exec (.startInterfaceRequest fn nonce) s = execStartInterfaceRequest fn nonce s := rfl
theorem exec_stopInterfaceRequest (fn : Nat) (s : State) : exec (.stopInterfaceRequest fn) s = execStopInterfaceRequest fn s := rfl
theorem exec_getDeviceInterfaceReport (fn : Nat) (s : State) : exec (.getDeviceInterfaceReport fn) s = execGetDeviceInterfaceReport fn s := rfl
theorem exec_lockedFieldWrite (fn : Nat) (s : State) : exec (.lockedFieldWrite fn) s = execLockedFieldWrite fn s := rfl
theorem exec_ideIntegrityFailure (fn : Nat) (s : State) : exec (.ideIntegrityFailure fn) s = execIdeIntegrityFailure fn s := rfl
theorem exec_functionLevelReset (fn : Nat) (s : State) : exec (.functionLevelReset fn) s = execFunctionLevelReset fn s := rfl
theorem exec_salpolLock (s : State) : exec .salpolLock s = execSalpolLock s := rfl
theorem exec_voltageClockGlitch (s : State) : exec .voltageClockGlitch s = execVoltageClockGlitch s := rfl
theorem exec_fuseIntegrityFailure (s : State) : exec .fuseIntegrityFailure s = execFuseIntegrityFailure s := rfl
theorem exec_powerLimit (clks : Nat) (s : State) : exec (.powerLimit clks) s = execPowerLimit clks s := rfl
theorem exec_thermalThrottle (clks : Nat) (s : State) : exec (.thermalThrottle clks) s = execThermalThrottle clks s := rfl
theorem exec_thermalShutdown (s : State) : exec .thermalShutdown s = execThermalShutdown s := rfl
theorem exec_flitCrcReplay (port : Nat) (again : Nat) (s : State) : exec (.flitCrcReplay port again) s = execFlitCrcReplay port again s := rfl
theorem exec_fabricLinkDown (port : Nat) (s : State) : exec (.fabricLinkDown port) s = execFabricLinkDown port s := rfl
theorem exec_fabricPacketForward (pkt : Packet) (s : State) : exec (.fabricPacketForward pkt) s = execFabricPacketForward pkt s := rfl
theorem exec_fabricAckArrive (ack : Ack) (s : State) : exec (.fabricAckArrive ack) s = execFabricAckArrive ack s := rfl
theorem exec_collChunkArrive (msg : CollMsg) (s : State) : exec (.collChunkArrive msg) s = execCollChunkArrive msg s := rfl
theorem exec_collCreditGrant (msg : CollMsg) (s : State) : exec (.collCreditGrant msg) s = execCollCreditGrant msg s := rfl
theorem exec_collAbortReceive (msg : CollMsg) (s : State) : exec (.collAbortReceive msg) s = execCollAbortReceive msg s := rfl
theorem exec_tileReturn (port : Nat) (tile : TileMsg) (s : State) : exec (.tileReturn port tile) s = execTileReturn port tile s := rfl
theorem exec_dbgStepFibre (core : Nat) (s : State) : exec (.dbgStepFibre core) s = execDbgStepFibre core s := rfl
theorem exec_dbgStopSpan (core : Nat) (s : State) : exec (.dbgStopSpan core) s = execDbgStopSpan core s := rfl
theorem exec_dbgResumeSpan (core : Nat) (s : State) : exec (.dbgResumeSpan core) s = execDbgResumeSpan core s := rfl
theorem exec_dbgResumeFibre (core : Nat) (s : State) : exec (.dbgResumeFibre core) s = execDbgResumeFibre core s := rfl
theorem exec_dbgTokenVerify (s : State) : exec .dbgTokenVerify s = execDbgTokenVerify s := rfl
theorem exec_topdownClear (core : Nat) (s : State) : exec (.topdownClear core) s = execTopdownClear core s := rfl
theorem exec_topdownFreeze (core : Nat) (on : Bool) (s : State) : exec (.topdownFreeze core on) s = execTopdownFreeze core on s := rfl
theorem exec_noiseModeDirect (core : Nat) (s : State) : exec (.noiseModeDirect core) s = execNoiseModeDirect core s := rfl
theorem exec_noiseModeLog (core : Nat) (s : State) : exec (.noiseModeLog core) s = execNoiseModeLog core s := rfl
theorem exec_noiseModeReplay (core : Nat) (s : State) : exec (.noiseModeReplay core) s = execNoiseModeReplay core s := rfl
theorem exec_registerWrite (off : Nat) (size : Nat) (val : BitVec 64) (s : State) : exec (.registerWrite off size val) s = execRegisterWrite off size val s := rfl
theorem exec_fabricLinkRetrain (port : Nat) (s : State) : exec (.fabricLinkRetrain port) s = execFabricLinkRetrain port s := rfl
theorem exec_lifeCycleAdvance (state : BitVec 2) (s : State) : exec (.lifeCycleAdvance state) s = execLifeCycleAdvance state s := rfl

end Sys2Proof.Machine
end

