-- ==== Sys2Proof/Laws/Encoding.lean ====
section
/-! SUPPORT. What the fields of an encoded word read as, and the two facts that turn a row of the opcode map into a round trip. -/

namespace Sys2Proof.Laws

set_option linter.unusedSimpArgs false

/-! ## Fields of appended bits -/

theorem ext_right {v w : Nat} (x : BitVec v) (y : BitVec w) (s n : Nat) (h : s + n ≤ w) :
    (x ++ y).extractLsb' s n = y.extractLsb' s n := by
  apply BitVec.eq_of_getLsbD_eq
  intro i hi
  simp only [BitVec.getLsbD_extractLsb', hi, decide_true, Bool.true_and, BitVec.getLsbD_append]
  rw [if_pos (by omega)]
theorem ext_left {v w : Nat} (x : BitVec v) (y : BitVec w) (s n : Nat) (h : w ≤ s) :
    (x ++ y).extractLsb' s n = x.extractLsb' (s - w) n := by
  apply BitVec.eq_of_getLsbD_eq
  intro i hi
  simp only [BitVec.getLsbD_extractLsb', hi, decide_true, Bool.true_and, BitVec.getLsbD_append]
  rw [if_neg (by omega)]
  congr 1
  omega
theorem ext_all {w : Nat} (x : BitVec w) : x.extractLsb' 0 w = x := by
  apply BitVec.eq_of_getLsbD_eq
  intro i hi
  simp [hi]
theorem ext_ext {w : Nat} (x : BitVec w) (a m s n : Nat) (h : s + n ≤ m) : (x.extractLsb' a m).extractLsb' s n = x.extractLsb' (a + s) n := by
  apply BitVec.eq_of_getLsbD_eq
  intro i hi
  simp only [BitVec.getLsbD_extractLsb', hi, decide_true, Bool.true_and]
  rw [decide_eq_true (by omega : s + i < m), Bool.true_and, Nat.add_assoc]
theorem lsb_right {v w : Nat} (x : BitVec v) (y : BitVec w) (s : Nat) (h : s < w) : (x ++ y).getLsbD s = y.getLsbD s := by
  rw [BitVec.getLsbD_append, if_pos h]
theorem lsb_left {v w : Nat} (x : BitVec v) (y : BitVec w) (s : Nat) (h : w ≤ s) : (x ++ y).getLsbD s = x.getLsbD (s - w) := by
  rw [BitVec.getLsbD_append, if_neg (by omega)]
theorem lsb_bool (b : Bool) : (BitVec.ofBool b).getLsbD 0 = b := by cases b <;> rfl
theorem lsb_ext {w : Nat} (x : BitVec w) (a m s : Nat) (h : s < m) : (x.extractLsb' a m).getLsbD s = x.getLsbD (a + s) := by
  rw [BitVec.getLsbD_extractLsb', decide_eq_true h, Bool.true_and]

theorem zero_bits (n : Nat) : (0#n != 0) = false := bne_self_eq_false _
/-- A field of reserved bits, as a mask of the modifiers, is zero when its bits are. -/
theorem mask_eq (z m : BitVec 13) (lo n : Nat) (h : ∀ i, i < 13 → m.getLsbD i = (decide (lo ≤ i) && decide (i < lo + n))) :
    (z &&& m != 0) = (z.extractLsb' lo n != 0) := by
  have key : z &&& m = 0 ↔ z.extractLsb' lo n = 0 := by
    constructor
    · intro hz
      apply BitVec.eq_of_getLsbD_eq
      intro i hi
      by_cases hb : lo + i < 13
      · have := congrArg (fun x : BitVec 13 => x.getLsbD (lo + i)) hz
        simp only [BitVec.getLsbD_and, h (lo + i) hb, BitVec.getLsbD_zero] at this
        rw [decide_eq_true (by omega), decide_eq_true (by omega)] at this
        simpa [BitVec.getLsbD_extractLsb', hi] using this
      · simp [BitVec.getLsbD_extractLsb', BitVec.getLsbD_of_ge z (lo + i) (by omega)]
    · intro hz
      apply BitVec.eq_of_getLsbD_eq
      intro i hi
      change (z &&& m).getLsbD i = (0#13).getLsbD i
      rw [BitVec.getLsbD_and, h i hi, BitVec.getLsbD_zero]
      by_cases hr : lo ≤ i ∧ i < lo + n
      · have : (z.extractLsb' lo n).getLsbD (i - lo) = (0#n).getLsbD (i - lo) := congrArg (fun x : BitVec n => x.getLsbD (i - lo)) hz
        rw [BitVec.getLsbD_extractLsb', BitVec.getLsbD_zero] at this
        rw [decide_eq_true (by omega : i - lo < n), Bool.true_and, show lo + (i - lo) = i by omega] at this
        rw [this, Bool.false_and]
      · rw [Bool.and_eq_false_iff]
        right
        rw [Bool.and_eq_false_iff]
        by_cases h1 : lo ≤ i
        · right
          exact decide_eq_false fun h2 => hr ⟨h1, h2⟩
        · left
          exact decide_eq_false h1
  rw [Bool.eq_iff_iff, bne_iff_ne, bne_iff_ne]
  exact not_congr key
theorem mask_1000 (z : BitVec 13) : (z &&& 0x1000#13 != 0) = (z.extractLsb' 12 1 != 0) := mask_eq z _ 12 1 (by decide)
theorem mask_18 (z : BitVec 13) : (z &&& 0x18#13 != 0) = (z.extractLsb' 3 2 != 0) := mask_eq z _ 3 2 (by decide)
theorem mask_1800 (z : BitVec 13) : (z &&& 0x1800#13 != 0) = (z.extractLsb' 11 2 != 0) := mask_eq z _ 11 2 (by decide)
theorem mask_1e00 (z : BitVec 13) : (z &&& 0x1e00#13 != 0) = (z.extractLsb' 9 4 != 0) := mask_eq z _ 9 4 (by decide)
theorem mask_1f00 (z : BitVec 13) : (z &&& 0x1f00#13 != 0) = (z.extractLsb' 8 5 != 0) := mask_eq z _ 8 5 (by decide)
theorem mask_1f80 (z : BitVec 13) : (z &&& 0x1f80#13 != 0) = (z.extractLsb' 7 6 != 0) := mask_eq z _ 7 6 (by decide)
theorem mask_1fc0 (z : BitVec 13) : (z &&& 0x1fc0#13 != 0) = (z.extractLsb' 6 7 != 0) := mask_eq z _ 6 7 (by decide)
theorem mask_1fe0 (z : BitVec 13) : (z &&& 0x1fe0#13 != 0) = (z.extractLsb' 5 8 != 0) := mask_eq z _ 5 8 (by decide)
theorem mask_1ff0 (z : BitVec 13) : (z &&& 0x1ff0#13 != 0) = (z.extractLsb' 4 9 != 0) := mask_eq z _ 4 9 (by decide)
theorem mask_1ff8 (z : BitVec 13) : (z &&& 0x1ff8#13 != 0) = (z.extractLsb' 3 10 != 0) := mask_eq z _ 3 10 (by decide)
theorem mask_1ffc (z : BitVec 13) : (z &&& 0x1ffc#13 != 0) = (z.extractLsb' 2 11 != 0) := mask_eq z _ 2 11 (by decide)
theorem mask_1ffe (z : BitVec 13) : (z &&& 0x1ffe#13 != 0) = (z.extractLsb' 1 12 != 0) := mask_eq z _ 1 12 (by decide)
theorem mask_1fff (z : BitVec 13) : (z &&& 0x1fff#13 != 0) = (z.extractLsb' 0 13 != 0) := mask_eq z _ 0 13 (by decide)

/-! ## The words of the layouts of R35 to R37 -/

variable (h : Head) (m : BitVec 6) (d a b : Reg) (i : BitVec 14) (o : BitVec 21) (w0 w1 w2 : Word)

theorem rawOf_one : rawOf [w0] = ⟨w0, 0, 0⟩ := rfl
theorem rawOf_two : rawOf [w0, w1] = ⟨w0, w1, 0⟩ := rfl
theorem rawOf_three : rawOf [w0, w1, w2] = ⟨w0, w1, w2⟩ := rfl

theorem h_wRRR : Raw.h ⟨wRRR h m d a b, w1, w2⟩ = h := by
  simp (disch := decide) only [Raw.h, wRRR, BitVec.extractLsb, ext_left, ext_right, Nat.reduceSub, ext_all, lsb_left, lsb_right, lsb_bool]
theorem major_wRRR : Raw.major ⟨wRRR h m d a b, w1, w2⟩ = m := by
  simp (disch := decide) only [Raw.major, wRRR, BitVec.extractLsb, ext_left, ext_right, Nat.reduceSub, ext_all]
theorem d_wRRR : Raw.d ⟨wRRR h m d a b, w1, w2⟩ = d := by
  simp (disch := decide) only [Raw.d, wRRR, BitVec.extractLsb, ext_left, ext_right, Nat.reduceSub, ext_all]
theorem a_wRRR : Raw.a ⟨wRRR h m d a b, w1, w2⟩ = a := by
  simp (disch := decide) only [Raw.a, wRRR, BitVec.extractLsb, ext_left, ext_right, Nat.reduceSub, ext_all]
theorem b_wRRR : Raw.b ⟨wRRR h m d a b, w1, w2⟩ = b := by
  simp (disch := decide) only [Raw.b, wRRR, BitVec.extractLsb, ext_left, ext_right, Nat.reduceSub, ext_all]

theorem h_wRI : Raw.h ⟨wRI h m d i, w1, w2⟩ = h := by
  simp (disch := decide) only [Raw.h, wRI, BitVec.extractLsb, ext_left, ext_right, Nat.reduceSub, ext_all, lsb_left, lsb_right, lsb_bool]
theorem major_wRI : Raw.major ⟨wRI h m d i, w1, w2⟩ = m := by
  simp (disch := decide) only [Raw.major, wRI, BitVec.extractLsb, ext_left, ext_right, Nat.reduceSub, ext_all]
theorem d_wRI : Raw.d ⟨wRI h m d i, w1, w2⟩ = d := by
  simp (disch := decide) only [Raw.d, wRI, BitVec.extractLsb, ext_left, ext_right, Nat.reduceSub, ext_all]
theorem imm_wRI : Raw.imm14 ⟨wRI h m d i, w1, w2⟩ = i := by
  simp (disch := decide) only [Raw.imm14, wRI, BitVec.extractLsb, ext_left, ext_right, Nat.reduceSub, ext_all]

theorem h_wOFF : Raw.h ⟨wOFF h m o, w1, w2⟩ = h := by
  simp (disch := decide) only [Raw.h, wOFF, BitVec.extractLsb, ext_left, ext_right, Nat.reduceSub, ext_all, lsb_left, lsb_right, lsb_bool]
theorem major_wOFF : Raw.major ⟨wOFF h m o, w1, w2⟩ = m := by
  simp (disch := decide) only [Raw.major, wOFF, BitVec.extractLsb, ext_left, ext_right, Nat.reduceSub, ext_all]
theorem off_wOFF : Raw.off21 ⟨wOFF h m o, w1, w2⟩ = o := by
  simp (disch := decide) only [Raw.off21, wOFF, BitVec.extractLsb, ext_left, ext_right, Nat.reduceSub, ext_all]
theorem ext_wOFF (s n : Nat) (hs : s + n ≤ 21) : (wOFF h m o).extractLsb' s n = o.extractLsb' s n := by
  unfold wOFF
  exact ext_right _ o s n hs
theorem lsb_wOFF (s : Nat) (hs : s < 21) : (wOFF h m o).getLsbD s = o.getLsbD s := by
  unfold wOFF
  exact lsb_right _ o s hs

variable (c : Reg) (fn : BitVec 5) (ty : BitVec 4) (rnd : BitVec 3) (mods : BitVec 13)

theorem c_wXW : Raw.c ⟨w0, wXW c fn ty rnd mods, w2⟩ = c := by
  simp (disch := decide) only [Raw.c, wXW, BitVec.extractLsb, ext_left, ext_right, Nat.reduceSub, ext_all]
theorem fn_wXW : Raw.fn ⟨w0, wXW c fn ty rnd mods, w2⟩ = fn := by
  simp (disch := decide) only [Raw.fn, wXW, BitVec.extractLsb, ext_left, ext_right, Nat.reduceSub, ext_all]
theorem ty_wXW : Raw.ty ⟨w0, wXW c fn ty rnd mods, w2⟩ = ty := by
  simp (disch := decide) only [Raw.ty, wXW, BitVec.extractLsb, ext_left, ext_right, Nat.reduceSub, ext_all]
theorem rnd_wXW : Raw.rnd ⟨w0, wXW c fn ty rnd mods, w2⟩ = rnd := by
  simp (disch := decide) only [Raw.rnd, wXW, BitVec.extractLsb, ext_left, ext_right, Nat.reduceSub, ext_all]
theorem rndUnused_wXW : Raw.rndUnused ⟨w0, wXW c fn ty 0 mods, w2⟩ = false := by
  simp only [Raw.rndUnused, rnd_wXW, bne_self_eq_false, Bool.false_and]
theorem rndBad_wXW : Raw.rndBad ⟨w0, wXW c fn ty 0 mods, w2⟩ = false := by
  simp only [Raw.rndBad, rnd_wXW]; rfl
theorem mods_wXW : Raw.mods ⟨w0, wXW c fn ty rnd mods, w2⟩ = mods := by
  simp (disch := decide) only [Raw.mods, wXW, BitVec.extractLsb, ext_left, ext_right, Nat.reduceSub, ext_all]

/-! ## Codes and their names -/

theorem ty_code (t : Ty) : Ty.ofCode (BitVec.ofNat 4 t.code).toNat = some t := by cases t <;> rfl
theorem rnd_code (t : Rnd) : Rnd.ofCode (BitVec.ofNat 3 t.code).toNat = some t := by cases t <;> rfl
theorem fmt_code (t : Fmt) : Fmt.ofCode (BitVec.ofNat 5 t.code).toNat = some t := by cases t <;> rfl
theorem space_code (t : Space) : Space.ofCode (BitVec.ofNat 3 t.code).toNat = some t := by cases t <;> rfl
theorem size_code (t : Size) : Size.ofCode (BitVec.ofNat 3 t.code).toNat = some t := by cases t <;> rfl
theorem order_code (t : Order) : Order.ofCode (BitVec.ofNat 2 t.code).toNat = some t := by cases t <;> rfl
theorem scope_code (t : Scope) : Scope.ofCode (BitVec.ofNat 3 t.code).toNat = some t := by cases t <;> rfl
theorem aop_code (t : AtomOp) : AtomOp.ofCode (BitVec.ofNat 4 t.code).toNat = some t := by cases t <;> rfl
theorem shfl_code (t : ShflMode) : ShflMode.ofCode (BitVec.ofNat 5 t.code).toNat = some t := by cases t <;> rfl
theorem vote_code (t : VoteMode) : VoteMode.ofCode (BitVec.ofNat 5 t.code).toNat = some t := by cases t <;> rfl
theorem spred_code (t : SpredOp) : SpredOp.ofCode (BitVec.ofNat 5 t.code).toNat = some t := by cases t <;> rfl
theorem cond_code (t : SigCond) : SigCond.ofCode (BitVec.ofNat 2 t.code).toNat = some t := by cases t <;> rfl
theorem rft_code (t : RftMode) : RftMode.ofCode (BitVec.ofNat 3 t.code).toNat = some t := by cases t <;> rfl
theorem tagq_code (t : TagqMode) : TagqMode.ofCode (BitVec.ofNat 2 t.code).toNat = some t := by cases t <;> rfl
theorem inv_code (t : InvTy) : InvTy.ofCode (BitVec.ofNat 2 t.code).toNat = some t := by cases t <;> rfl
theorem feed_code (t : FeedKind) : FeedKind.ofCode (BitVec.ofNat 2 t.code).toNat = some t := by cases t <;> rfl
theorem shfl_lt (t : ShflMode) : (BitVec.ofNat 5 t.code).toNat < 4 := by cases t <;> decide
theorem vote_lt (t : VoteMode) : (BitVec.ofNat 5 t.code).toNat < 5 := by cases t <;> decide
theorem spred_lt (t : SpredOp) : (BitVec.ofNat 5 t.code).toNat < 9 := by cases t <;> decide
theorem cond_lt (x : BitVec 3) : (x.setWidth 5).toNat < 8 := by
  rw [BitVec.toNat_setWidth]
  exact lt_of_le_of_lt (Nat.mod_le _ _) x.isLt
theorem cond_back (x : BitVec 3) : (x.setWidth 5).setWidth 3 = x := by
  apply BitVec.eq_of_toNat_eq
  simp only [BitVec.toNat_setWidth]
  have := x.isLt
  omega

/-! ## A word of layout XM -/

variable (spc : Space) (sz : Size) (ord : Order) (sc : Scope) (aop : BitVec 4) (nr : Bool) (off : BitVec 16)

theorem sp_wXM : Raw.spName ⟨w0, wXM spc sz ord sc aop nr off, w2⟩ = spc := by
  simp (disch := decide) only [Raw.spName, wXM, BitVec.extractLsb, ext_left, ext_right, Nat.reduceSub, ext_all, space_code, Option.getD_some]
theorem sz_wXM : Raw.szName ⟨w0, wXM spc sz ord sc aop nr off, w2⟩ = sz := by
  simp (disch := decide) only [Raw.szName, wXM, BitVec.extractLsb, ext_left, ext_right, Nat.reduceSub, ext_all, size_code, Option.getD_some]
theorem ord_wXM : Raw.ordName ⟨w0, wXM spc sz ord sc aop nr off, w2⟩ = ord := by
  simp (disch := decide) only [Raw.ordName, wXM, BitVec.extractLsb, ext_left, ext_right, Nat.reduceSub, ext_all, order_code, Option.getD_some]
theorem sc_wXM : Raw.scName ⟨w0, wXM spc sz ord sc aop nr off, w2⟩ = sc := by
  simp (disch := decide) only [Raw.scName, wXM, BitVec.extractLsb, ext_left, ext_right, Nat.reduceSub, ext_all, scope_code, Option.getD_some]
theorem aop_wXM : Raw.aop ⟨w0, wXM spc sz ord sc aop nr off, w2⟩ = aop := by
  simp (disch := decide) only [Raw.aop, wXM, BitVec.extractLsb, ext_left, ext_right, Nat.reduceSub, ext_all]
theorem nr_wXM : Raw.nr ⟨w0, wXM spc sz ord sc aop nr off, w2⟩ = nr := by
  simp (disch := decide) only [Raw.nr, wXM, lsb_left, lsb_right, Nat.reduceSub, lsb_bool]
theorem off_wXM : Raw.off16 ⟨w0, wXM spc sz ord sc aop nr off, w2⟩ = off := by
  simp (disch := decide) only [Raw.off16, wXM, BitVec.extractLsb, ext_left, ext_right, Nat.reduceSub, ext_all]
theorem xm_listed : Raw.xmBad ⟨w0, wXM spc sz ord sc aop nr off, w2⟩ = false := by
  simp (disch := decide) only [Raw.xmBad, wXM, BitVec.extractLsb, ext_left, ext_right, Nat.reduceSub, ext_all, space_code, size_code,
    scope_code, Option.isNone_some, Bool.or_false]

/-! ## A row of the map and its checks -/

theorem lowest_none {l : List (Bool × Nat)} (h : l.any (·.1) = false) : lowest (causesOf l) = none := by
  have hf : l.filter (·.1) = [] := by
    rw [List.filter_eq_nil_iff]
    intro x hx
    rw [List.any_eq_false] at h
    exact h x hx
  rw [causesOf, hf]
  rfl
/-- A legal instruction that a row of the opcode map reads, with nothing in the word that the row rejects, is what the word decodes to. -/
theorem roundTrip_of (dec : Raw → Instr × List (Bool × Nat)) {r : Raw} {i : Instr} (hs : selectRow r = .ok (dec r))
    (hi : (dec r).1 = i) (hc : (dec r).2.any (·.1) = false) (hl : i.legal = true) : decode r = .ok i := by
  unfold Instr.legal at hl
  rw [Bool.and_eq_true, Bool.not_eq_true', Bool.not_eq_true'] at hl
  have hd : decodeRaw r = ⟨some i, causesOf ((dec r).2 ++ i.faults ++ [(runsBad 128 i.runs, 6)])⟩ := by
    rw [decodeRaw, hs, ← hi]
  have hn : lowest (decodeRaw r).causes = none := by
    rw [hd]
    apply lowest_none
    simp only [List.any_append, hc, hl.1, hl.2, List.any_cons, List.any_nil, Bool.or_false]
  rw [decode, hn, hd]

end Sys2Proof.Laws
end

