-- ==== Sys2Proof/Laws/Memory.lean ====
section
/-! SUPPORT. The laws of memory: the canonical form is kept, a read after a write gives the value written, every other byte stays. -/

namespace Sys2Proof.Machine

theorem Memory.above_mono {a b : Nat} (h : a ≤ b) : ∀ {m : List Host.Cell}, Memory.above b m = true → Memory.above a m = true
  | [], _ => rfl
  | (k, _) :: m, hm => by
    simp only [Memory.above, Bool.and_eq_true, decide_eq_true_eq] at hm ⊢
    exact ⟨by omega, Memory.above_mono h hm.2⟩

theorem Memory.above_put {b : Nat} (a : Nat) (v : Byte) (hb : b < a) :
    ∀ {m : List Host.Cell}, Memory.above b m = true → Memory.above b (Memory.put m a v) = true
  | [], _ => by unfold Memory.put; split <;> simp [Memory.above, hb]
  | (k, w) :: m, hm => by
    have h := hm
    simp only [Memory.above, Bool.and_eq_true, decide_eq_true_eq] at hm
    unfold Memory.put
    split
    · split <;> simp_all [Memory.above]
    · split
      · split <;> simp_all [Memory.above]
      · simp [Memory.above, hm.1, Memory.above_put a v hb hm.2]

theorem Memory.wf_put (a : Nat) (v : Byte) : ∀ {m : List Host.Cell}, Memory.wf m = true → Memory.wf (Memory.put m a v) = true
  | [], _ => by unfold Memory.put; split <;> simp_all [Memory.wf, Memory.above]
  | (k, w) :: m, hm => by
    have h := hm
    simp only [Memory.wf, Bool.and_eq_true, bne_iff_ne, ne_eq] at hm
    obtain ⟨⟨ha, hw⟩, hr⟩ := hm
    unfold Memory.put
    split
    · next hlt =>
      split
      · exact h
      · next hv => simp [Memory.wf, Memory.above, hlt, hv, ha, hw, hr, Memory.above_mono (Nat.le_of_lt hlt) ha]
    · split
      · next _ heq =>
        subst heq
        split
        · exact hr
        · next hv => simp [Memory.wf, ha, hr, hv]
      · next hge hne =>
        have hk : k < a := by omega
        simp [Memory.wf, hw, Memory.above_put a v hk ha, Memory.wf_put a v hr]

theorem Memory.wf_putAll : ∀ (bs : List Byte) (a : Nat) {m : List Host.Cell}, Memory.wf m = true → Memory.wf (Memory.putAll m a bs) = true
  | [], _, _, h => h
  | b :: bs, a, _, h => Memory.wf_putAll bs (a + 1) (Memory.wf_put a b h)

theorem Memory.get_of_above {a b : Nat} (h : b ≤ a) : ∀ {m : List Host.Cell}, Memory.above a m = true → Memory.get m b = Config.emptyByte
  | [], _ => rfl
  | (k, w) :: m, hm => by
    simp only [Memory.above, Bool.and_eq_true, decide_eq_true_eq] at hm
    have : k ≠ b := by omega
    simp [Memory.get, this, Memory.get_of_above h hm.2]

theorem Memory.get_put_same (a : Nat) (v : Byte) : ∀ {m : List Host.Cell}, Memory.wf m = true → Memory.get (Memory.put m a v) a = v
  | [], _ => by unfold Memory.put; split <;> simp_all [Memory.get]
  | (k, w) :: m, hm => by
    simp only [Memory.wf, Bool.and_eq_true, bne_iff_ne, ne_eq] at hm
    obtain ⟨⟨ha, _⟩, hr⟩ := hm
    unfold Memory.put
    split
    · next hlt =>
      split
      · next hv =>
        have : k ≠ a := by omega
        simp [Memory.get, this, Memory.get_of_above (Nat.le_of_lt hlt) ha, hv]
      · simp [Memory.get]
    · split
      · next _ heq =>
        subst heq
        split
        · next hv => rw [Memory.get_of_above (Nat.le_refl _) ha, hv]
        · simp [Memory.get]
      · next _ hne =>
        have : k ≠ a := fun h => hne h.symm
        simp [Memory.get, this, Memory.get_put_same a v hr]

theorem Memory.get_put_other (a b : Nat) (v : Byte) (h : b ≠ a) :
    ∀ (m : List Host.Cell), Memory.get (Memory.put m a v) b = Memory.get m b
  | [] => by unfold Memory.put; split <;> simp [Memory.get, Ne.symm h]
  | (k, w) :: m => by
    unfold Memory.put
    split
    · split <;> simp [Memory.get, Ne.symm h]
    · split
      · next _ heq =>
        subst heq
        split <;> simp [Memory.get, Ne.symm h]
      · simp [Memory.get, Memory.get_put_other a b v h m]

theorem Memory.get_putAll_other : ∀ (bs : List Byte) (a : Nat) (m : List Host.Cell) (b : Nat), (b < a ∨ a + bs.length ≤ b) →
    Memory.get (Memory.putAll m a bs) b = Memory.get m b
  | [], _, _, _, _ => rfl
  | x :: bs, a, m, b, h => by
    simp only [List.length_cons] at h
    rw [Memory.putAll, Memory.get_putAll_other bs (a + 1) _ b (by omega), Memory.get_put_other a b x (by omega)]

theorem Memory.get_putAll_in : ∀ (bs : List Byte) (a : Nat) {m : List Host.Cell} (i : Nat) (h : i < bs.length), Memory.wf m = true →
    Memory.get (Memory.putAll m a bs) (a + i) = bs[i]
  | x :: bs, a, m, 0, _, hm => by
    have h := Memory.get_putAll_other bs (a + 1) (Memory.put m a x) a (by omega)
    simpa [Memory.putAll, Memory.get_put_same a x hm] using h
  | x :: bs, a, m, i + 1, h, hm => by
    have := Memory.get_putAll_in bs (a + 1) i (by simpa using h) (Memory.wf_put a x hm)
    rw [Memory.putAll]
    simpa [Nat.add_assoc, Nat.add_comm 1] using this

theorem State.putBytes_wf {s : State} (l : Nat) (bs : List Byte) (h : Memory.wf s.mem = true) : Memory.wf (s.putBytes l bs).mem = true :=
  Memory.wf_putAll bs l h
theorem State.store_wf {s : State} (l : Nat) (bs : List Byte) (h : Memory.wf s.mem = true) : Memory.wf (s.store l bs).mem = true :=
  Memory.wf_putAll bs l h
theorem State.reset_mem_wf : Memory.wf State.reset.mem = true := rfl

end Sys2Proof.Machine
end

