-- ==== Sys2Proof/Laws/PerInstr.lean ====
section
/-! SUPPORT. For each instruction, as syntax: its words decode to it (R30 to R53). One lemma per constructor of Instr; an event of the
table has no words, and its lemma says so. -/

namespace Sys2Proof.Laws

set_option linter.unusedSimpArgs false

/-- The words of a well-formed instruction decode to it; an event has no words. -/
def RoundTrip.Statement (i : Instr) : Prop := WellFormed i → encode i = [] ∨ decode (rawOf (encode i)) = .ok i

theorem RoundTrip.add (h : Head) (d : Reg) (a : Reg) (b : Reg) : RoundTrip.Statement (.add h d a b) := fun hl =>
  .inr (roundTrip_of (r := ⟨wRRR h 0x0 d a b, 0, 0⟩) decAdd (by
    unfold selectRow
    rw [major_wRRR]
    rfl) (by
    simp (disch := decide) only [decAdd, h_wRRR, d_wRRR, a_wRRR, b_wRRR]) rfl hl)
theorem RoundTrip.sub (h : Head) (d : Reg) (a : Reg) (b : Reg) : RoundTrip.Statement (.sub h d a b) := fun hl =>
  .inr (roundTrip_of (r := ⟨wRRR h 0x1 d a b, 0, 0⟩) decSub (by
    unfold selectRow
    rw [major_wRRR]
    rfl) (by
    simp (disch := decide) only [decSub, h_wRRR, d_wRRR, a_wRRR, b_wRRR]) rfl hl)
theorem RoundTrip.mul (h : Head) (d : Reg) (a : Reg) (b : Reg) : RoundTrip.Statement (.mul h d a b) := fun hl =>
  .inr (roundTrip_of (r := ⟨wRRR h 0x2 d a b, 0, 0⟩) decMul (by
    unfold selectRow
    rw [major_wRRR]
    rfl) (by
    simp (disch := decide) only [decMul, h_wRRR, d_wRRR, a_wRRR, b_wRRR]) rfl hl)
theorem RoundTrip.and (h : Head) (d : Reg) (a : Reg) (b : Reg) : RoundTrip.Statement (.and h d a b) := fun hl =>
  .inr (roundTrip_of (r := ⟨wRRR h 0x3 d a b, 0, 0⟩) decAnd (by
    unfold selectRow
    rw [major_wRRR]
    rfl) (by
    simp (disch := decide) only [decAnd, h_wRRR, d_wRRR, a_wRRR, b_wRRR]) rfl hl)
theorem RoundTrip.or (h : Head) (d : Reg) (a : Reg) (b : Reg) : RoundTrip.Statement (.or h d a b) := fun hl =>
  .inr (roundTrip_of (r := ⟨wRRR h 0x4 d a b, 0, 0⟩) decOr (by
    unfold selectRow
    rw [major_wRRR]
    rfl) (by
    simp (disch := decide) only [decOr, h_wRRR, d_wRRR, a_wRRR, b_wRRR]) rfl hl)
theorem RoundTrip.xor (h : Head) (d : Reg) (a : Reg) (b : Reg) : RoundTrip.Statement (.xor h d a b) := fun hl =>
  .inr (roundTrip_of (r := ⟨wRRR h 0x5 d a b, 0, 0⟩) decXor (by
    unfold selectRow
    rw [major_wRRR]
    rfl) (by
    simp (disch := decide) only [decXor, h_wRRR, d_wRRR, a_wRRR, b_wRRR]) rfl hl)
theorem RoundTrip.andn (h : Head) (d : Reg) (a : Reg) (b : Reg) : RoundTrip.Statement (.andn h d a b) := fun hl =>
  .inr (roundTrip_of (r := ⟨wRRR h 0x6 d a b, 0, 0⟩) decAndn (by
    unfold selectRow
    rw [major_wRRR]
    rfl) (by
    simp (disch := decide) only [decAndn, h_wRRR, d_wRRR, a_wRRR, b_wRRR]) rfl hl)
theorem RoundTrip.shl (h : Head) (d : Reg) (a : Reg) (b : Reg) : RoundTrip.Statement (.shl h d a b) := fun hl =>
  .inr (roundTrip_of (r := ⟨wRRR h 0x7 d a b, 0, 0⟩) decShl (by
    unfold selectRow
    rw [major_wRRR]
    rfl) (by
    simp (disch := decide) only [decShl, h_wRRR, d_wRRR, a_wRRR, b_wRRR]) rfl hl)
theorem RoundTrip.shr (h : Head) (d : Reg) (a : Reg) (b : Reg) : RoundTrip.Statement (.shr h d a b) := fun hl =>
  .inr (roundTrip_of (r := ⟨wRRR h 0x8 d a b, 0, 0⟩) decShr (by
    unfold selectRow
    rw [major_wRRR]
    rfl) (by
    simp (disch := decide) only [decShr, h_wRRR, d_wRRR, a_wRRR, b_wRRR]) rfl hl)
theorem RoundTrip.sar (h : Head) (d : Reg) (a : Reg) (b : Reg) : RoundTrip.Statement (.sar h d a b) := fun hl =>
  .inr (roundTrip_of (r := ⟨wRRR h 0x9 d a b, 0, 0⟩) decSar (by
    unfold selectRow
    rw [major_wRRR]
    rfl) (by
    simp (disch := decide) only [decSar, h_wRRR, d_wRRR, a_wRRR, b_wRRR]) rfl hl)
theorem RoundTrip.rot (h : Head) (d : Reg) (a : Reg) (b : Reg) : RoundTrip.Statement (.rot h d a b) := fun hl =>
  .inr (roundTrip_of (r := ⟨wRRR h 0xa d a b, 0, 0⟩) decRot (by
    unfold selectRow
    rw [major_wRRR]
    rfl) (by
    simp (disch := decide) only [decRot, h_wRRR, d_wRRR, a_wRRR, b_wRRR]) rfl hl)
theorem RoundTrip.mov (h : Head) (d : Reg) (a : Reg) : RoundTrip.Statement (.mov h d a) := fun hl =>
  .inr (roundTrip_of (r := ⟨wRRR h 0xb d a 0, 0, 0⟩) decMov (by
    unfold selectRow
    rw [major_wRRR, b_wRRR]
    rfl) (by
    simp (disch := decide) only [decMov, h_wRRR, d_wRRR, a_wRRR]) rfl hl)
theorem RoundTrip.neg (h : Head) (d : Reg) (a : Reg) : RoundTrip.Statement (.neg h d a) := fun hl =>
  .inr (roundTrip_of (r := ⟨wRRR h 0xb d a 1, 0, 0⟩) decNeg (by
    unfold selectRow
    rw [major_wRRR, b_wRRR]
    rfl) (by
    simp (disch := decide) only [decNeg, h_wRRR, d_wRRR, a_wRRR]) rfl hl)
theorem RoundTrip.abs (h : Head) (d : Reg) (a : Reg) : RoundTrip.Statement (.abs h d a) := fun hl =>
  .inr (roundTrip_of (r := ⟨wRRR h 0xb d a 2, 0, 0⟩) decAbs (by
    unfold selectRow
    rw [major_wRRR, b_wRRR]
    rfl) (by
    simp (disch := decide) only [decAbs, h_wRRR, d_wRRR, a_wRRR]) rfl hl)
theorem RoundTrip.not (h : Head) (d : Reg) (a : Reg) : RoundTrip.Statement (.not h d a) := fun hl =>
  .inr (roundTrip_of (r := ⟨wRRR h 0xb d a 3, 0, 0⟩) decNot (by
    unfold selectRow
    rw [major_wRRR, b_wRRR]
    rfl) (by
    simp (disch := decide) only [decNot, h_wRRR, d_wRRR, a_wRRR]) rfl hl)
theorem RoundTrip.clz (h : Head) (d : Reg) (a : Reg) : RoundTrip.Statement (.clz h d a) := fun hl =>
  .inr (roundTrip_of (r := ⟨wRRR h 0xb d a 4, 0, 0⟩) decClz (by
    unfold selectRow
    rw [major_wRRR, b_wRRR]
    rfl) (by
    simp (disch := decide) only [decClz, h_wRRR, d_wRRR, a_wRRR]) rfl hl)
theorem RoundTrip.popc (h : Head) (d : Reg) (a : Reg) : RoundTrip.Statement (.popc h d a) := fun hl =>
  .inr (roundTrip_of (r := ⟨wRRR h 0xb d a 5, 0, 0⟩) decPopc (by
    unfold selectRow
    rw [major_wRRR, b_wRRR]
    rfl) (by
    simp (disch := decide) only [decPopc, h_wRRR, d_wRRR, a_wRRR]) rfl hl)
theorem RoundTrip.brev (h : Head) (d : Reg) (a : Reg) : RoundTrip.Statement (.brev h d a) := fun hl =>
  .inr (roundTrip_of (r := ⟨wRRR h 0xb d a 6, 0, 0⟩) decBrev (by
    unfold selectRow
    rw [major_wRRR, b_wRRR]
    rfl) (by
    simp (disch := decide) only [decBrev, h_wRRR, d_wRRR, a_wRRR]) rfl hl)
theorem RoundTrip.addTyped (h : Head) (d : Reg) (a : Reg) (b : Reg) (ty : Ty) (sat : Bool) : RoundTrip.Statement (.addTyped h d a b ty sat) := fun hl =>
  .inr (roundTrip_of (r := ⟨wRRR h 0xc d a b, wXW 0 0 (BitVec.ofNat 4 ty.code) 0 (0#12 ++ BitVec.ofBool sat), 0⟩) decAddTyped (by
    unfold selectRow
    rw [major_wRRR, fn_wXW]
    rfl) (by
    simp (disch := decide) only [decAddTyped, h_wRRR, d_wRRR, a_wRRR, b_wRRR, c_wXW, rnd_wXW, mods_wXW, Raw.tyName, ty_wXW, Raw.tyBad, ty_code, Option.getD_some, BitVec.extractLsb, ext_left, ext_right, ext_all, lsb_left, lsb_right, lsb_bool, Nat.reduceSub]) (by
    simp (disch := decide) only [decAddTyped, h_wRRR, d_wRRR, a_wRRR, b_wRRR, c_wXW, rnd_wXW, mods_wXW, Raw.tyName, ty_wXW, Raw.tyBad, ty_code, Option.getD_some, BitVec.extractLsb, ext_left, ext_right, ext_all, lsb_left, lsb_right, lsb_bool, Nat.reduceSub, mask_1ffe, List.any_cons, List.any_nil, bne_self_eq_false, Bool.or_false, Option.isNone_some, zero_bits]) hl)
theorem RoundTrip.subTyped (h : Head) (d : Reg) (a : Reg) (b : Reg) (ty : Ty) (sat : Bool) : RoundTrip.Statement (.subTyped h d a b ty sat) := fun hl =>
  .inr (roundTrip_of (r := ⟨wRRR h 0xc d a b, wXW 0 1 (BitVec.ofNat 4 ty.code) 0 (0#12 ++ BitVec.ofBool sat), 0⟩) decSubTyped (by
    unfold selectRow
    rw [major_wRRR, fn_wXW]
    rfl) (by
    simp (disch := decide) only [decSubTyped, h_wRRR, d_wRRR, a_wRRR, b_wRRR, c_wXW, rnd_wXW, mods_wXW, Raw.tyName, ty_wXW, Raw.tyBad, ty_code, Option.getD_some, BitVec.extractLsb, ext_left, ext_right, ext_all, lsb_left, lsb_right, lsb_bool, Nat.reduceSub]) (by
    simp (disch := decide) only [decSubTyped, h_wRRR, d_wRRR, a_wRRR, b_wRRR, c_wXW, rnd_wXW, mods_wXW, Raw.tyName, ty_wXW, Raw.tyBad, ty_code, Option.getD_some, BitVec.extractLsb, ext_left, ext_right, ext_all, lsb_left, lsb_right, lsb_bool, Nat.reduceSub, mask_1ffe, List.any_cons, List.any_nil, bne_self_eq_false, Bool.or_false, Option.isNone_some, zero_bits]) hl)
theorem RoundTrip.mulTyped (h : Head) (d : Reg) (a : Reg) (b : Reg) (ty : Ty) (sat : Bool) : RoundTrip.Statement (.mulTyped h d a b ty sat) := fun hl =>
  .inr (roundTrip_of (r := ⟨wRRR h 0xc d a b, wXW 0 2 (BitVec.ofNat 4 ty.code) 0 (0#12 ++ BitVec.ofBool sat), 0⟩) decMulTyped (by
    unfold selectRow
    rw [major_wRRR, fn_wXW]
    rfl) (by
    simp (disch := decide) only [decMulTyped, h_wRRR, d_wRRR, a_wRRR, b_wRRR, c_wXW, rnd_wXW, mods_wXW, Raw.tyName, ty_wXW, Raw.tyBad, ty_code, Option.getD_some, BitVec.extractLsb, ext_left, ext_right, ext_all, lsb_left, lsb_right, lsb_bool, Nat.reduceSub]) (by
    simp (disch := decide) only [decMulTyped, h_wRRR, d_wRRR, a_wRRR, b_wRRR, c_wXW, rnd_wXW, mods_wXW, Raw.tyName, ty_wXW, Raw.tyBad, ty_code, Option.getD_some, BitVec.extractLsb, ext_left, ext_right, ext_all, lsb_left, lsb_right, lsb_bool, Nat.reduceSub, mask_1ffe, List.any_cons, List.any_nil, bne_self_eq_false, Bool.or_false, Option.isNone_some, zero_bits]) hl)
theorem RoundTrip.mulhi (h : Head) (d : Reg) (a : Reg) (b : Reg) (ty : Ty) : RoundTrip.Statement (.mulhi h d a b ty) := fun hl =>
  .inr (roundTrip_of (r := ⟨wRRR h 0xc d a b, wXW 0 3 (BitVec.ofNat 4 ty.code) 0 0, 0⟩) decMulhi (by
    unfold selectRow
    rw [major_wRRR, fn_wXW]
    rfl) (by
    simp (disch := decide) only [decMulhi, h_wRRR, d_wRRR, a_wRRR, b_wRRR, c_wXW, rnd_wXW, mods_wXW, Raw.tyName, ty_wXW, Raw.tyBad, ty_code, Option.getD_some]) (by
    simp (disch := decide) only [decMulhi, h_wRRR, d_wRRR, a_wRRR, b_wRRR, c_wXW, rnd_wXW, mods_wXW, Raw.tyName, ty_wXW, Raw.tyBad, ty_code, Option.getD_some, mask_1fff, ext_left, ext_right, ext_all, Nat.reduceSub, List.any_cons, List.any_nil, bne_self_eq_false, Bool.or_false, Option.isNone_some, zero_bits]) hl)
theorem RoundTrip.div (h : Head) (d : Reg) (a : Reg) (b : Reg) (ty : Ty) (sat : Bool) : RoundTrip.Statement (.div h d a b ty sat) := fun hl =>
  .inr (roundTrip_of (r := ⟨wRRR h 0xc d a b, wXW 0 4 (BitVec.ofNat 4 ty.code) 0 (0#12 ++ BitVec.ofBool sat), 0⟩) decDiv (by
    unfold selectRow
    rw [major_wRRR, fn_wXW]
    rfl) (by
    simp (disch := decide) only [decDiv, h_wRRR, d_wRRR, a_wRRR, b_wRRR, c_wXW, rnd_wXW, mods_wXW, Raw.tyName, ty_wXW, Raw.tyBad, ty_code, Option.getD_some, BitVec.extractLsb, ext_left, ext_right, ext_all, lsb_left, lsb_right, lsb_bool, Nat.reduceSub]) (by
    simp (disch := decide) only [decDiv, h_wRRR, d_wRRR, a_wRRR, b_wRRR, c_wXW, rnd_wXW, mods_wXW, Raw.tyName, ty_wXW, Raw.tyBad, ty_code, Option.getD_some, BitVec.extractLsb, ext_left, ext_right, ext_all, lsb_left, lsb_right, lsb_bool, Nat.reduceSub, mask_1ffe, List.any_cons, List.any_nil, bne_self_eq_false, Bool.or_false, Option.isNone_some, zero_bits]) hl)
theorem RoundTrip.rem (h : Head) (d : Reg) (a : Reg) (b : Reg) (ty : Ty) : RoundTrip.Statement (.rem h d a b ty) := fun hl =>
  .inr (roundTrip_of (r := ⟨wRRR h 0xc d a b, wXW 0 5 (BitVec.ofNat 4 ty.code) 0 0, 0⟩) decRem (by
    unfold selectRow
    rw [major_wRRR, fn_wXW]
    rfl) (by
    simp (disch := decide) only [decRem, h_wRRR, d_wRRR, a_wRRR, b_wRRR, c_wXW, rnd_wXW, mods_wXW, Raw.tyName, ty_wXW, Raw.tyBad, ty_code, Option.getD_some]) (by
    simp (disch := decide) only [decRem, h_wRRR, d_wRRR, a_wRRR, b_wRRR, c_wXW, rnd_wXW, mods_wXW, Raw.tyName, ty_wXW, Raw.tyBad, ty_code, Option.getD_some, mask_1fff, ext_left, ext_right, ext_all, Nat.reduceSub, List.any_cons, List.any_nil, bne_self_eq_false, Bool.or_false, Option.isNone_some, zero_bits]) hl)
theorem RoundTrip.minTyped (h : Head) (d : Reg) (a : Reg) (b : Reg) (ty : Ty) : RoundTrip.Statement (.minTyped h d a b ty) := fun hl =>
  .inr (roundTrip_of (r := ⟨wRRR h 0xc d a b, wXW 0 6 (BitVec.ofNat 4 ty.code) 0 0, 0⟩) decMinTyped (by
    unfold selectRow
    rw [major_wRRR, fn_wXW]
    rfl) (by
    simp (disch := decide) only [decMinTyped, h_wRRR, d_wRRR, a_wRRR, b_wRRR, c_wXW, rnd_wXW, mods_wXW, Raw.tyName, ty_wXW, Raw.tyBad, ty_code, Option.getD_some]) (by
    simp (disch := decide) only [decMinTyped, h_wRRR, d_wRRR, a_wRRR, b_wRRR, c_wXW, rnd_wXW, mods_wXW, Raw.tyName, ty_wXW, Raw.tyBad, ty_code, Option.getD_some, mask_1fff, ext_left, ext_right, ext_all, Nat.reduceSub, List.any_cons, List.any_nil, bne_self_eq_false, Bool.or_false, Option.isNone_some, zero_bits]) hl)
theorem RoundTrip.maxTyped (h : Head) (d : Reg) (a : Reg) (b : Reg) (ty : Ty) : RoundTrip.Statement (.maxTyped h d a b ty) := fun hl =>
  .inr (roundTrip_of (r := ⟨wRRR h 0xc d a b, wXW 0 7 (BitVec.ofNat 4 ty.code) 0 0, 0⟩) decMaxTyped (by
    unfold selectRow
    rw [major_wRRR, fn_wXW]
    rfl) (by
    simp (disch := decide) only [decMaxTyped, h_wRRR, d_wRRR, a_wRRR, b_wRRR, c_wXW, rnd_wXW, mods_wXW, Raw.tyName, ty_wXW, Raw.tyBad, ty_code, Option.getD_some]) (by
    simp (disch := decide) only [decMaxTyped, h_wRRR, d_wRRR, a_wRRR, b_wRRR, c_wXW, rnd_wXW, mods_wXW, Raw.tyName, ty_wXW, Raw.tyBad, ty_code, Option.getD_some, mask_1fff, ext_left, ext_right, ext_all, Nat.reduceSub, List.any_cons, List.any_nil, bne_self_eq_false, Bool.or_false, Option.isNone_some, zero_bits]) hl)
theorem RoundTrip.negTyped (h : Head) (d : Reg) (a : Reg) (ty : Ty) (sat : Bool) : RoundTrip.Statement (.negTyped h d a ty sat) := fun hl =>
  .inr (roundTrip_of (r := ⟨wRRR h 0xc d a 0, wXW 0 8 (BitVec.ofNat 4 ty.code) 0 (0#12 ++ BitVec.ofBool sat), 0⟩) decNegTyped (by
    unfold selectRow
    rw [major_wRRR, fn_wXW]
    rfl) (by
    simp (disch := decide) only [decNegTyped, h_wRRR, d_wRRR, a_wRRR, b_wRRR, c_wXW, rnd_wXW, mods_wXW, Raw.tyName, ty_wXW, Raw.tyBad, ty_code, Option.getD_some, BitVec.extractLsb, ext_left, ext_right, ext_all, lsb_left, lsb_right, lsb_bool, Nat.reduceSub]) (by
    simp (disch := decide) only [decNegTyped, h_wRRR, d_wRRR, a_wRRR, b_wRRR, c_wXW, rnd_wXW, mods_wXW, Raw.tyName, ty_wXW, Raw.tyBad, ty_code, Option.getD_some, BitVec.extractLsb, ext_left, ext_right, ext_all, lsb_left, lsb_right, lsb_bool, Nat.reduceSub, mask_1ffe, List.any_cons, List.any_nil, bne_self_eq_false, Bool.or_false, Option.isNone_some, zero_bits]) hl)
theorem RoundTrip.absTyped (h : Head) (d : Reg) (a : Reg) (ty : Ty) (sat : Bool) : RoundTrip.Statement (.absTyped h d a ty sat) := fun hl =>
  .inr (roundTrip_of (r := ⟨wRRR h 0xc d a 0, wXW 0 9 (BitVec.ofNat 4 ty.code) 0 (0#12 ++ BitVec.ofBool sat), 0⟩) decAbsTyped (by
    unfold selectRow
    rw [major_wRRR, fn_wXW]
    rfl) (by
    simp (disch := decide) only [decAbsTyped, h_wRRR, d_wRRR, a_wRRR, b_wRRR, c_wXW, rnd_wXW, mods_wXW, Raw.tyName, ty_wXW, Raw.tyBad, ty_code, Option.getD_some, BitVec.extractLsb, ext_left, ext_right, ext_all, lsb_left, lsb_right, lsb_bool, Nat.reduceSub]) (by
    simp (disch := decide) only [decAbsTyped, h_wRRR, d_wRRR, a_wRRR, b_wRRR, c_wXW, rnd_wXW, mods_wXW, Raw.tyName, ty_wXW, Raw.tyBad, ty_code, Option.getD_some, BitVec.extractLsb, ext_left, ext_right, ext_all, lsb_left, lsb_right, lsb_bool, Nat.reduceSub, mask_1ffe, List.any_cons, List.any_nil, bne_self_eq_false, Bool.or_false, Option.isNone_some, zero_bits]) hl)
theorem RoundTrip.mad (h : Head) (d : Reg) (a : Reg) (b : Reg) (c : Reg) (ty : Ty) (sat : Bool) : RoundTrip.Statement (.mad h d a b c ty sat) := fun hl =>
  .inr (roundTrip_of (r := ⟨wRRR h 0xd d a b, wXW c 0 (BitVec.ofNat 4 ty.code) 0 (0#12 ++ BitVec.ofBool sat), 0⟩) decMad (by
    unfold selectRow
    rw [major_wRRR, fn_wXW]
    rfl) (by
    simp (disch := decide) only [decMad, h_wRRR, d_wRRR, a_wRRR, b_wRRR, c_wXW, rnd_wXW, mods_wXW, Raw.tyName, ty_wXW, Raw.tyBad, ty_code, Option.getD_some, BitVec.extractLsb, ext_left, ext_right, ext_all, lsb_left, lsb_right, lsb_bool, Nat.reduceSub]) (by
    simp (disch := decide) only [decMad, h_wRRR, d_wRRR, a_wRRR, b_wRRR, c_wXW, rnd_wXW, mods_wXW, Raw.tyName, ty_wXW, Raw.tyBad, ty_code, Option.getD_some, BitVec.extractLsb, ext_left, ext_right, ext_all, lsb_left, lsb_right, lsb_bool, Nat.reduceSub, mask_1ffe, List.any_cons, List.any_nil, bne_self_eq_false, Bool.or_false, Option.isNone_some, zero_bits]) hl)
theorem RoundTrip.bfx (h : Head) (d : Reg) (a : Reg) (b : Reg) (ty : Ty) : RoundTrip.Statement (.bfx h d a b ty) := fun hl =>
  .inr (roundTrip_of (r := ⟨wRRR h 0xe d a b, wXW 0 0 (BitVec.ofNat 4 ty.code) 0 0, 0⟩) decBfx (by
    unfold selectRow
    rw [major_wRRR, fn_wXW]
    rfl) (by
    simp (disch := decide) only [decBfx, h_wRRR, d_wRRR, a_wRRR, b_wRRR, c_wXW, rnd_wXW, mods_wXW, Raw.tyName, ty_wXW, Raw.tyBad, ty_code, Option.getD_some]) (by
    simp (disch := decide) only [decBfx, h_wRRR, d_wRRR, a_wRRR, b_wRRR, c_wXW, rnd_wXW, mods_wXW, Raw.tyName, ty_wXW, Raw.tyBad, ty_code, Option.getD_some, mask_1fff, ext_left, ext_right, ext_all, Nat.reduceSub, List.any_cons, List.any_nil, bne_self_eq_false, Bool.or_false, Option.isNone_some, zero_bits]) hl)
theorem RoundTrip.bfi (h : Head) (d : Reg) (a : Reg) (b : Reg) (c : Reg) (ty : Ty) : RoundTrip.Statement (.bfi h d a b c ty) := fun hl =>
  .inr (roundTrip_of (r := ⟨wRRR h 0xe d a b, wXW c 1 (BitVec.ofNat 4 ty.code) 0 0, 0⟩) decBfi (by
    unfold selectRow
    rw [major_wRRR, fn_wXW]
    rfl) (by
    simp (disch := decide) only [decBfi, h_wRRR, d_wRRR, a_wRRR, b_wRRR, c_wXW, rnd_wXW, mods_wXW, Raw.tyName, ty_wXW, Raw.tyBad, ty_code, Option.getD_some]) (by
    simp (disch := decide) only [decBfi, h_wRRR, d_wRRR, a_wRRR, b_wRRR, c_wXW, rnd_wXW, mods_wXW, Raw.tyName, ty_wXW, Raw.tyBad, ty_code, Option.getD_some, mask_1fff, ext_left, ext_right, ext_all, Nat.reduceSub, List.any_cons, List.any_nil, bne_self_eq_false, Bool.or_false, Option.isNone_some, zero_bits]) hl)
theorem RoundTrip.sel (h : Head) (d : Reg) (a : Reg) (b : Reg) (c : Reg) (ty : Ty) : RoundTrip.Statement (.sel h d a b c ty) := fun hl =>
  .inr (roundTrip_of (r := ⟨wRRR h 0xf d a b, wXW c 0 (BitVec.ofNat 4 ty.code) 0 0, 0⟩) decSel (by
    unfold selectRow
    rw [major_wRRR, fn_wXW]
    rfl) (by
    simp (disch := decide) only [decSel, h_wRRR, d_wRRR, a_wRRR, b_wRRR, c_wXW, rnd_wXW, mods_wXW, Raw.tyName, ty_wXW, Raw.tyBad, ty_code, Option.getD_some]) (by
    simp (disch := decide) only [decSel, h_wRRR, d_wRRR, a_wRRR, b_wRRR, c_wXW, rnd_wXW, mods_wXW, Raw.tyName, ty_wXW, Raw.tyBad, ty_code, Option.getD_some, mask_1fff, ext_left, ext_right, ext_all, Nat.reduceSub, List.any_cons, List.any_nil, bne_self_eq_false, Bool.or_false, Option.isNone_some, zero_bits]) hl)
theorem RoundTrip.addImm (h : Head) (d : Reg) (a : Reg) (lit : BitVec 32) : RoundTrip.Statement (.addImm h d a lit) := fun hl =>
  .inr (roundTrip_of (r := ⟨wRRR h 0x10 d a 0, (lit), 0⟩) decAddImm (by
    unfold selectRow
    rw [major_wRRR, b_wRRR]
    rfl) (by
    simp (disch := decide) only [decAddImm, h_wRRR, d_wRRR, a_wRRR]) rfl hl)
theorem RoundTrip.subImm (h : Head) (d : Reg) (a : Reg) (lit : BitVec 32) : RoundTrip.Statement (.subImm h d a lit) := fun hl =>
  .inr (roundTrip_of (r := ⟨wRRR h 0x10 d a 1, (lit), 0⟩) decSubImm (by
    unfold selectRow
    rw [major_wRRR, b_wRRR]
    rfl) (by
    simp (disch := decide) only [decSubImm, h_wRRR, d_wRRR, a_wRRR]) rfl hl)
theorem RoundTrip.mulImm (h : Head) (d : Reg) (a : Reg) (lit : BitVec 32) : RoundTrip.Statement (.mulImm h d a lit) := fun hl =>
  .inr (roundTrip_of (r := ⟨wRRR h 0x10 d a 2, (lit), 0⟩) decMulImm (by
    unfold selectRow
    rw [major_wRRR, b_wRRR]
    rfl) (by
    simp (disch := decide) only [decMulImm, h_wRRR, d_wRRR, a_wRRR]) rfl hl)
theorem RoundTrip.andImm (h : Head) (d : Reg) (a : Reg) (lit : BitVec 32) : RoundTrip.Statement (.andImm h d a lit) := fun hl =>
  .inr (roundTrip_of (r := ⟨wRRR h 0x10 d a 3, (lit), 0⟩) decAndImm (by
    unfold selectRow
    rw [major_wRRR, b_wRRR]
    rfl) (by
    simp (disch := decide) only [decAndImm, h_wRRR, d_wRRR, a_wRRR]) rfl hl)
theorem RoundTrip.orImm (h : Head) (d : Reg) (a : Reg) (lit : BitVec 32) : RoundTrip.Statement (.orImm h d a lit) := fun hl =>
  .inr (roundTrip_of (r := ⟨wRRR h 0x10 d a 4, (lit), 0⟩) decOrImm (by
    unfold selectRow
    rw [major_wRRR, b_wRRR]
    rfl) (by
    simp (disch := decide) only [decOrImm, h_wRRR, d_wRRR, a_wRRR]) rfl hl)
theorem RoundTrip.xorImm (h : Head) (d : Reg) (a : Reg) (lit : BitVec 32) : RoundTrip.Statement (.xorImm h d a lit) := fun hl =>
  .inr (roundTrip_of (r := ⟨wRRR h 0x10 d a 5, (lit), 0⟩) decXorImm (by
    unfold selectRow
    rw [major_wRRR, b_wRRR]
    rfl) (by
    simp (disch := decide) only [decXorImm, h_wRRR, d_wRRR, a_wRRR]) rfl hl)
theorem RoundTrip.andnImm (h : Head) (d : Reg) (a : Reg) (lit : BitVec 32) : RoundTrip.Statement (.andnImm h d a lit) := fun hl =>
  .inr (roundTrip_of (r := ⟨wRRR h 0x10 d a 6, (lit), 0⟩) decAndnImm (by
    unfold selectRow
    rw [major_wRRR, b_wRRR]
    rfl) (by
    simp (disch := decide) only [decAndnImm, h_wRRR, d_wRRR, a_wRRR]) rfl hl)
theorem RoundTrip.shlImm (h : Head) (d : Reg) (a : Reg) (lit : BitVec 32) : RoundTrip.Statement (.shlImm h d a lit) := fun hl =>
  .inr (roundTrip_of (r := ⟨wRRR h 0x10 d a 7, (lit), 0⟩) decShlImm (by
    unfold selectRow
    rw [major_wRRR, b_wRRR]
    rfl) (by
    simp (disch := decide) only [decShlImm, h_wRRR, d_wRRR, a_wRRR]) rfl hl)
theorem RoundTrip.shrImm (h : Head) (d : Reg) (a : Reg) (lit : BitVec 32) : RoundTrip.Statement (.shrImm h d a lit) := fun hl =>
  .inr (roundTrip_of (r := ⟨wRRR h 0x10 d a 8, (lit), 0⟩) decShrImm (by
    unfold selectRow
    rw [major_wRRR, b_wRRR]
    rfl) (by
    simp (disch := decide) only [decShrImm, h_wRRR, d_wRRR, a_wRRR]) rfl hl)
theorem RoundTrip.sarImm (h : Head) (d : Reg) (a : Reg) (lit : BitVec 32) : RoundTrip.Statement (.sarImm h d a lit) := fun hl =>
  .inr (roundTrip_of (r := ⟨wRRR h 0x10 d a 9, (lit), 0⟩) decSarImm (by
    unfold selectRow
    rw [major_wRRR, b_wRRR]
    rfl) (by
    simp (disch := decide) only [decSarImm, h_wRRR, d_wRRR, a_wRRR]) rfl hl)
theorem RoundTrip.rotImm (h : Head) (d : Reg) (a : Reg) (lit : BitVec 32) : RoundTrip.Statement (.rotImm h d a lit) := fun hl =>
  .inr (roundTrip_of (r := ⟨wRRR h 0x10 d a 10, (lit), 0⟩) decRotImm (by
    unfold selectRow
    rw [major_wRRR, b_wRRR]
    rfl) (by
    simp (disch := decide) only [decRotImm, h_wRRR, d_wRRR, a_wRRR]) rfl hl)
theorem RoundTrip.minImm (h : Head) (d : Reg) (a : Reg) (lit : BitVec 32) : RoundTrip.Statement (.minImm h d a lit) := fun hl =>
  .inr (roundTrip_of (r := ⟨wRRR h 0x10 d a 11, (lit), 0⟩) decMinImm (by
    unfold selectRow
    rw [major_wRRR, b_wRRR]
    rfl) (by
    simp (disch := decide) only [decMinImm, h_wRRR, d_wRRR, a_wRRR]) rfl hl)
theorem RoundTrip.minImmU (h : Head) (d : Reg) (a : Reg) (lit : BitVec 32) : RoundTrip.Statement (.minImmU h d a lit) := fun hl =>
  .inr (roundTrip_of (r := ⟨wRRR h 0x10 d a 12, (lit), 0⟩) decMinImmU (by
    unfold selectRow
    rw [major_wRRR, b_wRRR]
    rfl) (by
    simp (disch := decide) only [decMinImmU, h_wRRR, d_wRRR, a_wRRR]) rfl hl)
theorem RoundTrip.maxImm (h : Head) (d : Reg) (a : Reg) (lit : BitVec 32) : RoundTrip.Statement (.maxImm h d a lit) := fun hl =>
  .inr (roundTrip_of (r := ⟨wRRR h 0x10 d a 13, (lit), 0⟩) decMaxImm (by
    unfold selectRow
    rw [major_wRRR, b_wRRR]
    rfl) (by
    simp (disch := decide) only [decMaxImm, h_wRRR, d_wRRR, a_wRRR]) rfl hl)
theorem RoundTrip.maxImmU (h : Head) (d : Reg) (a : Reg) (lit : BitVec 32) : RoundTrip.Statement (.maxImmU h d a lit) := fun hl =>
  .inr (roundTrip_of (r := ⟨wRRR h 0x10 d a 14, (lit), 0⟩) decMaxImmU (by
    unfold selectRow
    rw [major_wRRR, b_wRRR]
    rfl) (by
    simp (disch := decide) only [decMaxImmU, h_wRRR, d_wRRR, a_wRRR]) rfl hl)
theorem RoundTrip.movi (h : Head) (d : Reg) (imm : BitVec 14) : RoundTrip.Statement (.movi h d imm) := fun hl =>
  .inr (roundTrip_of (r := ⟨wRI h 0x11 d imm, 0, 0⟩) decMovi (by
    unfold selectRow
    rw [major_wRI]
    rfl) (by
    simp (disch := decide) only [decMovi, h_wRI, d_wRI, imm_wRI]) rfl hl)
theorem RoundTrip.moviLit (h : Head) (d : Reg) (lit : BitVec 32) : RoundTrip.Statement (.moviLit h d lit) := fun hl =>
  .inr (roundTrip_of (r := ⟨wRI h 0x12 d 0, lit, 0⟩) decMoviLit (by
    unfold selectRow
    rw [major_wRI]
    rfl) (by
    simp (disch := decide) only [decMoviLit, h_wRI, d_wRI, imm_wRI]) (by
    simp (disch := decide) only [decMoviLit, h_wRI, d_wRI, imm_wRI, List.any_cons, List.any_nil, bne_self_eq_false, Bool.or_false, Option.isNone_some, zero_bits]) hl)
theorem RoundTrip.movhi (h : Head) (d : Reg) (lit : BitVec 32) : RoundTrip.Statement (.movhi h d lit) := fun hl =>
  .inr (roundTrip_of (r := ⟨wRI h 0x13 d 0, lit, 0⟩) decMovhi (by
    unfold selectRow
    rw [major_wRI]
    rfl) (by
    simp (disch := decide) only [decMovhi, h_wRI, d_wRI, imm_wRI]) (by
    simp (disch := decide) only [decMovhi, h_wRI, d_wRI, imm_wRI, List.any_cons, List.any_nil, bne_self_eq_false, Bool.or_false, Option.isNone_some, zero_bits]) hl)
theorem RoundTrip.setp (h : Head) (d : Reg) (a : Reg) (b : Reg) (c : Reg) (cond : BitVec 3) (ty : Ty) (merge : Bool) (tbl : BitVec 4) : RoundTrip.Statement (.setp h d a b c cond ty merge tbl) := fun hl =>
  .inr (roundTrip_of (r := ⟨wRRR h 0x18 d a b, wXW c (cond.setWidth 5) (BitVec.ofNat 4 ty.code) 0 (0#8 ++ BitVec.ofBool merge ++ tbl), 0⟩) decSetp (by
    unfold selectRow
    rw [major_wRRR, fn_wXW]
    exact if_pos (cond_lt cond)) (by
    simp (disch := decide) only [decSetp, h_wRRR, d_wRRR, a_wRRR, b_wRRR, c_wXW, fn_wXW, rnd_wXW, mods_wXW, Raw.tyName, ty_wXW, Raw.tyBad, ty_code, Option.getD_some, BitVec.extractLsb, ext_left, ext_right, ext_all, lsb_left, lsb_right, lsb_bool, Nat.reduceSub, cond_back]) (by
    simp (disch := decide) only [decSetp, h_wRRR, d_wRRR, a_wRRR, b_wRRR, c_wXW, fn_wXW, rnd_wXW, mods_wXW, Raw.tyName, ty_wXW, Raw.tyBad, ty_code, Option.getD_some, BitVec.extractLsb, ext_left, ext_right, ext_all, lsb_left, lsb_right, lsb_bool, Nat.reduceSub, cond_back, mask_1fe0, List.any_cons, List.any_nil, bne_self_eq_false, Bool.or_false, Option.isNone_some, zero_bits]) hl)
theorem RoundTrip.plog (h : Head) (d : Reg) (a : Reg) (b : Reg) (c : Reg) (tbl : BitVec 8) : RoundTrip.Statement (.plog h d a b c tbl) := fun hl =>
  .inr (roundTrip_of (r := ⟨wRRR h 0x19 d a b, wXW c 0 0 0 (0#5 ++ tbl), 0⟩) decPlog (by
    unfold selectRow
    rw [major_wRRR, fn_wXW]
    rfl) (by
    simp (disch := decide) only [decPlog, h_wRRR, d_wRRR, a_wRRR, b_wRRR, c_wXW, ty_wXW, rnd_wXW, mods_wXW, BitVec.extractLsb, ext_left, ext_right, ext_all, lsb_left, lsb_right, lsb_bool, Nat.reduceSub]) (by
    simp (disch := decide) only [decPlog, h_wRRR, d_wRRR, a_wRRR, b_wRRR, c_wXW, ty_wXW, rnd_wXW, mods_wXW, BitVec.extractLsb, ext_left, ext_right, ext_all, lsb_left, lsb_right, lsb_bool, Nat.reduceSub, mask_1f00, List.any_cons, List.any_nil, bne_self_eq_false, Bool.or_false, Option.isNone_some, zero_bits]) hl)
theorem RoundTrip.pmovToReg (h : Head) (d : Reg) (a : Reg) : RoundTrip.Statement (.pmovToReg h d a) := fun hl =>
  .inr (roundTrip_of (r := ⟨wRRR h 0x1a d a 0, 0, 0⟩) decPmovToReg (by
    unfold selectRow
    rw [major_wRRR, b_wRRR]
    rfl) (by
    simp (disch := decide) only [decPmovToReg, h_wRRR, d_wRRR, a_wRRR]) rfl hl)
theorem RoundTrip.pmovToPred (h : Head) (d : Reg) (a : Reg) : RoundTrip.Statement (.pmovToPred h d a) := fun hl =>
  .inr (roundTrip_of (r := ⟨wRRR h 0x1a d a 1, 0, 0⟩) decPmovToPred (by
    unfold selectRow
    rw [major_wRRR, b_wRRR]
    rfl) (by
    simp (disch := decide) only [decPmovToPred, h_wRRR, d_wRRR, a_wRRR]) rfl hl)
theorem RoundTrip.movs (h : Head) (d : Reg) (a : Reg) : RoundTrip.Statement (.movs h d a) := fun hl =>
  .inr (roundTrip_of (r := ⟨wRRR h 0x1b d a 0, 0, 0⟩) decMovs (by
    unfold selectRow
    rw [major_wRRR, b_wRRR]
    rfl) (by
    simp (disch := decide) only [decMovs, h_wRRR, d_wRRR, a_wRRR]) rfl hl)
theorem RoundTrip.movsw (h : Head) (d : Reg) (a : Reg) : RoundTrip.Statement (.movsw h d a) := fun hl =>
  .inr (roundTrip_of (r := ⟨wRRR h 0x1b d a 1, 0, 0⟩) decMovsw (by
    unfold selectRow
    rw [major_wRRR, b_wRRR]
    rfl) (by
    simp (disch := decide) only [decMovsw, h_wRRR, d_wRRR, a_wRRR]) rfl hl)
theorem RoundTrip.bra (h : Head) (off : BitVec 21) : RoundTrip.Statement (.bra h off) := fun hl =>
  .inr (roundTrip_of (r := ⟨wOFF h 0x1c off, 0, 0⟩) decBra (by
    unfold selectRow
    rw [major_wOFF]
    rfl) (by
    simp (disch := decide) only [decBra, h_wOFF, off_wOFF]) rfl hl)
theorem RoundTrip.call (h : Head) (off : BitVec 21) : RoundTrip.Statement (.call h off) := fun hl =>
  .inr (roundTrip_of (r := ⟨wOFF h 0x1d off, 0, 0⟩) decCall (by
    unfold selectRow
    rw [major_wOFF]
    rfl) (by
    simp (disch := decide) only [decCall, h_wOFF, off_wOFF]) rfl hl)
theorem RoundTrip.brx (h : Head) (a : Reg) : RoundTrip.Statement (.brx h a) := fun hl =>
  .inr (roundTrip_of (r := ⟨wRRR h 0x1e 0 a 0, 0, 0⟩) decBrx (by
    unfold selectRow
    rw [major_wRRR, b_wRRR]
    rfl) (by
    simp (disch := decide) only [decBrx, h_wRRR, d_wRRR, a_wRRR]) (by
    simp (disch := decide) only [decBrx, h_wRRR, d_wRRR, a_wRRR, List.any_cons, List.any_nil, bne_self_eq_false, Bool.or_false, Option.isNone_some, zero_bits]) hl)
theorem RoundTrip.callx (h : Head) (a : Reg) : RoundTrip.Statement (.callx h a) := fun hl =>
  .inr (roundTrip_of (r := ⟨wRRR h 0x1e 0 a 1, 0, 0⟩) decCallx (by
    unfold selectRow
    rw [major_wRRR, b_wRRR]
    rfl) (by
    simp (disch := decide) only [decCallx, h_wRRR, d_wRRR, a_wRRR]) (by
    simp (disch := decide) only [decCallx, h_wRRR, d_wRRR, a_wRRR, List.any_cons, List.any_nil, bne_self_eq_false, Bool.or_false, Option.isNone_some, zero_bits]) hl)
theorem RoundTrip.ret (h : Head) : RoundTrip.Statement (.ret h) := fun hl =>
  .inr (roundTrip_of (r := ⟨wRRR h 0x1e 0 0 2, 0, 0⟩) decRet (by
    unfold selectRow
    rw [major_wRRR, b_wRRR]
    rfl) (by
    simp (disch := decide) only [decRet, h_wRRR, d_wRRR, a_wRRR]) (by
    simp (disch := decide) only [decRet, h_wRRR, d_wRRR, a_wRRR, List.any_cons, List.any_nil, bne_self_eq_false, Bool.or_false, Option.isNone_some, zero_bits]) hl)
theorem RoundTrip.endFibre (h : Head) : RoundTrip.Statement (.endFibre h) := fun hl =>
  .inr (roundTrip_of (r := ⟨wRRR h 0x1e 0 0 3, 0, 0⟩) decEndFibre (by
    unfold selectRow
    rw [major_wRRR, b_wRRR]
    rfl) (by
    simp (disch := decide) only [decEndFibre, h_wRRR, d_wRRR, a_wRRR]) (by
    simp (disch := decide) only [decEndFibre, h_wRRR, d_wRRR, a_wRRR, List.any_cons, List.any_nil, bne_self_eq_false, Bool.or_false, Option.isNone_some, zero_bits]) hl)
theorem RoundTrip.yield (h : Head) : RoundTrip.Statement (.yield h) := fun hl =>
  .inr (roundTrip_of (r := ⟨wRRR h 0x1e 0 0 4, 0, 0⟩) decYield (by
    unfold selectRow
    rw [major_wRRR, b_wRRR]
    rfl) (by
    simp (disch := decide) only [decYield, h_wRRR, d_wRRR, a_wRRR]) (by
    simp (disch := decide) only [decYield, h_wRRR, d_wRRR, a_wRRR, List.any_cons, List.any_nil, bne_self_eq_false, Bool.or_false, Option.isNone_some, zero_bits]) hl)
theorem RoundTrip.nap (h : Head) (a : Reg) : RoundTrip.Statement (.nap h a) := fun hl =>
  .inr (roundTrip_of (r := ⟨wRRR h 0x1e 0 a 5, 0, 0⟩) decNap (by
    unfold selectRow
    rw [major_wRRR, b_wRRR]
    rfl) (by
    simp (disch := decide) only [decNap, h_wRRR, d_wRRR, a_wRRR]) (by
    simp (disch := decide) only [decNap, h_wRRR, d_wRRR, a_wRRR, List.any_cons, List.any_nil, bne_self_eq_false, Bool.or_false, Option.isNone_some, zero_bits]) hl)
theorem RoundTrip.nop (h : Head) : RoundTrip.Statement (.nop h) := fun hl =>
  .inr (roundTrip_of (r := ⟨wRRR h 0x1e 0 0 6, 0, 0⟩) decNop (by
    unfold selectRow
    rw [major_wRRR, b_wRRR]
    rfl) (by
    simp (disch := decide) only [decNop, h_wRRR, d_wRRR, a_wRRR]) (by
    simp (disch := decide) only [decNop, h_wRRR, d_wRRR, a_wRRR, List.any_cons, List.any_nil, bne_self_eq_false, Bool.or_false, Option.isNone_some, zero_bits]) hl)
theorem RoundTrip.trap (h : Head) (d : Reg) : RoundTrip.Statement (.trap h d) := fun hl =>
  .inr (roundTrip_of (r := ⟨wRRR h 0x1e d 0 7, 0, 0⟩) decTrap (by
    unfold selectRow
    rw [major_wRRR, b_wRRR]
    rfl) (by
    simp (disch := decide) only [decTrap, h_wRRR, d_wRRR, a_wRRR]) (by
    simp (disch := decide) only [decTrap, h_wRRR, d_wRRR, a_wRRR, List.any_cons, List.any_nil, bne_self_eq_false, Bool.or_false, Option.isNone_some, zero_bits]) hl)
theorem RoundTrip.loopReg (h : Head) (a : Reg) (last : BitVec 16) : RoundTrip.Statement (.loopReg h a last) := fun hl =>
  .inr (roundTrip_of (r := ⟨wRRR h 0x1f 0 a 0, (0#16 ++ last), 0⟩) decLoopReg (by
    unfold selectRow
    rw [major_wRRR, b_wRRR]
    rfl) (by
    simp (disch := decide) only [decLoopReg, h_wRRR, d_wRRR, a_wRRR, BitVec.extractLsb, ext_left, ext_right, ext_all, lsb_left, lsb_right, lsb_bool, Nat.reduceSub]) (by
    simp (disch := decide) only [decLoopReg, h_wRRR, d_wRRR, a_wRRR, BitVec.extractLsb, ext_left, ext_right, ext_all, lsb_left, lsb_right, lsb_bool, Nat.reduceSub, List.any_cons, List.any_nil, bne_self_eq_false, Bool.or_false, Option.isNone_some, zero_bits]) hl)
theorem RoundTrip.loopImm (h : Head) (cnt : BitVec 16) (last : BitVec 16) : RoundTrip.Statement (.loopImm h cnt last) := fun hl =>
  .inr (roundTrip_of (r := ⟨wRRR h 0x1f 0 0 1, (cnt ++ last), 0⟩) decLoopImm (by
    unfold selectRow
    rw [major_wRRR, b_wRRR]
    rfl) (by
    simp (disch := decide) only [decLoopImm, h_wRRR, d_wRRR, a_wRRR, BitVec.extractLsb, ext_left, ext_right, ext_all, lsb_left, lsb_right, lsb_bool, Nat.reduceSub]) (by
    simp (disch := decide) only [decLoopImm, h_wRRR, d_wRRR, a_wRRR, BitVec.extractLsb, ext_left, ext_right, ext_all, lsb_left, lsb_right, lsb_bool, Nat.reduceSub, List.any_cons, List.any_nil, bne_self_eq_false, Bool.or_false, Option.isNone_some, zero_bits]) hl)
theorem RoundTrip.lbrk (h : Head) (n : BitVec 32) : RoundTrip.Statement (.lbrk h n) := fun hl =>
  .inr (roundTrip_of (r := ⟨wRRR h 0x1f 0 0 2, (n), 0⟩) decLbrk (by
    unfold selectRow
    rw [major_wRRR, b_wRRR]
    rfl) (by
    simp (disch := decide) only [decLbrk, h_wRRR, d_wRRR, a_wRRR]) (by
    simp (disch := decide) only [decLbrk, h_wRRR, d_wRRR, a_wRRR, List.any_cons, List.any_nil, bne_self_eq_false, Bool.or_false, Option.isNone_some, zero_bits]) hl)
theorem RoundTrip.fork (h : Head) (d : Reg) (off : BitVec 32) : RoundTrip.Statement (.fork h d off) := fun hl =>
  .inr (roundTrip_of (r := ⟨wRRR h 0x1f d 0 3, (off), 0⟩) decFork (by
    unfold selectRow
    rw [major_wRRR, b_wRRR]
    rfl) (by
    simp (disch := decide) only [decFork, h_wRRR, d_wRRR, a_wRRR]) (by
    simp (disch := decide) only [decFork, h_wRRR, d_wRRR, a_wRRR, List.any_cons, List.any_nil, bne_self_eq_false, Bool.or_false, Option.isNone_some, zero_bits]) hl)
theorem RoundTrip.fadd (h : Head) (d : Reg) (a : Reg) (b : Reg) (rnd : Rnd) : RoundTrip.Statement (.fadd h d a b rnd) := fun hl =>
  .inr (roundTrip_of (r := ⟨wRRR h 0x20 d a b, wXW 0 0 8 (BitVec.ofNat 3 rnd.code) 0, 0⟩) decFadd (by
    unfold selectRow
    rw [major_wRRR, fn_wXW]
    rfl) (by
    simp (disch := decide) only [decFadd, h_wRRR, d_wRRR, a_wRRR, b_wRRR, c_wXW, ty_wXW, mods_wXW, Raw.rndName, rnd_wXW, Raw.rndBad, rnd_code, Option.getD_some]) (by
    simp (disch := decide) only [decFadd, h_wRRR, d_wRRR, a_wRRR, b_wRRR, c_wXW, ty_wXW, mods_wXW, Raw.rndName, rnd_wXW, Raw.rndBad, rnd_code, Option.getD_some, mask_1fff, ext_left, ext_right, ext_all, Nat.reduceSub, List.any_cons, List.any_nil, bne_self_eq_false, Bool.or_false, Option.isNone_some, zero_bits]) hl)
theorem RoundTrip.fsub (h : Head) (d : Reg) (a : Reg) (b : Reg) (rnd : Rnd) : RoundTrip.Statement (.fsub h d a b rnd) := fun hl =>
  .inr (roundTrip_of (r := ⟨wRRR h 0x20 d a b, wXW 0 1 8 (BitVec.ofNat 3 rnd.code) 0, 0⟩) decFsub (by
    unfold selectRow
    rw [major_wRRR, fn_wXW]
    rfl) (by
    simp (disch := decide) only [decFsub, h_wRRR, d_wRRR, a_wRRR, b_wRRR, c_wXW, ty_wXW, mods_wXW, Raw.rndName, rnd_wXW, Raw.rndBad, rnd_code, Option.getD_some]) (by
    simp (disch := decide) only [decFsub, h_wRRR, d_wRRR, a_wRRR, b_wRRR, c_wXW, ty_wXW, mods_wXW, Raw.rndName, rnd_wXW, Raw.rndBad, rnd_code, Option.getD_some, mask_1fff, ext_left, ext_right, ext_all, Nat.reduceSub, List.any_cons, List.any_nil, bne_self_eq_false, Bool.or_false, Option.isNone_some, zero_bits]) hl)
theorem RoundTrip.fmul (h : Head) (d : Reg) (a : Reg) (b : Reg) (rnd : Rnd) : RoundTrip.Statement (.fmul h d a b rnd) := fun hl =>
  .inr (roundTrip_of (r := ⟨wRRR h 0x20 d a b, wXW 0 2 8 (BitVec.ofNat 3 rnd.code) 0, 0⟩) decFmul (by
    unfold selectRow
    rw [major_wRRR, fn_wXW]
    rfl) (by
    simp (disch := decide) only [decFmul, h_wRRR, d_wRRR, a_wRRR, b_wRRR, c_wXW, ty_wXW, mods_wXW, Raw.rndName, rnd_wXW, Raw.rndBad, rnd_code, Option.getD_some]) (by
    simp (disch := decide) only [decFmul, h_wRRR, d_wRRR, a_wRRR, b_wRRR, c_wXW, ty_wXW, mods_wXW, Raw.rndName, rnd_wXW, Raw.rndBad, rnd_code, Option.getD_some, mask_1fff, ext_left, ext_right, ext_all, Nat.reduceSub, List.any_cons, List.any_nil, bne_self_eq_false, Bool.or_false, Option.isNone_some, zero_bits]) hl)
theorem RoundTrip.fdiv (h : Head) (d : Reg) (a : Reg) (b : Reg) (rnd : Rnd) : RoundTrip.Statement (.fdiv h d a b rnd) := fun hl =>
  .inr (roundTrip_of (r := ⟨wRRR h 0x20 d a b, wXW 0 5 8 (BitVec.ofNat 3 rnd.code) 0, 0⟩) decFdiv (by
    unfold selectRow
    rw [major_wRRR, fn_wXW]
    rfl) (by
    simp (disch := decide) only [decFdiv, h_wRRR, d_wRRR, a_wRRR, b_wRRR, c_wXW, ty_wXW, mods_wXW, Raw.rndName, rnd_wXW, Raw.rndBad, rnd_code, Option.getD_some]) (by
    simp (disch := decide) only [decFdiv, h_wRRR, d_wRRR, a_wRRR, b_wRRR, c_wXW, ty_wXW, mods_wXW, Raw.rndName, rnd_wXW, Raw.rndBad, rnd_code, Option.getD_some, mask_1fff, ext_left, ext_right, ext_all, Nat.reduceSub, List.any_cons, List.any_nil, bne_self_eq_false, Bool.or_false, Option.isNone_some, zero_bits]) hl)
theorem RoundTrip.ffma (h : Head) (d : Reg) (a : Reg) (b : Reg) (c : Reg) (rnd : Rnd) : RoundTrip.Statement (.ffma h d a b c rnd) := fun hl =>
  .inr (roundTrip_of (r := ⟨wRRR h 0x21 d a b, wXW c 0 8 (BitVec.ofNat 3 rnd.code) 0, 0⟩) decFfma (by
    unfold selectRow
    rw [major_wRRR, fn_wXW]
    rfl) (by
    simp (disch := decide) only [decFfma, h_wRRR, d_wRRR, a_wRRR, b_wRRR, c_wXW, ty_wXW, mods_wXW, Raw.rndName, rnd_wXW, Raw.rndBad, rnd_code, Option.getD_some]) (by
    simp (disch := decide) only [decFfma, h_wRRR, d_wRRR, a_wRRR, b_wRRR, c_wXW, ty_wXW, mods_wXW, Raw.rndName, rnd_wXW, Raw.rndBad, rnd_code, Option.getD_some, mask_1fff, ext_left, ext_right, ext_all, Nat.reduceSub, List.any_cons, List.any_nil, bne_self_eq_false, Bool.or_false, Option.isNone_some, zero_bits]) hl)
theorem RoundTrip.fmin (h : Head) (d : Reg) (a : Reg) (b : Reg) : RoundTrip.Statement (.fmin h d a b) := fun hl =>
  .inr (roundTrip_of (r := ⟨wRRR h 0x20 d a b, wXW 0 3 8 0 0, 0⟩) decFmin (by
    unfold selectRow
    rw [major_wRRR, fn_wXW]
    rfl) (by
    simp (disch := decide) only [decFmin, h_wRRR, d_wRRR, a_wRRR, b_wRRR, c_wXW, ty_wXW, mods_wXW, rndUnused_wXW, rndBad_wXW]) (by
    simp (disch := decide) only [decFmin, h_wRRR, d_wRRR, a_wRRR, b_wRRR, c_wXW, ty_wXW, mods_wXW, rndUnused_wXW, rndBad_wXW, mask_1fff, ext_left, ext_right, ext_all, Nat.reduceSub, List.any_cons, List.any_nil, bne_self_eq_false, Bool.or_false, Option.isNone_some, zero_bits]) hl)
theorem RoundTrip.fmax (h : Head) (d : Reg) (a : Reg) (b : Reg) : RoundTrip.Statement (.fmax h d a b) := fun hl =>
  .inr (roundTrip_of (r := ⟨wRRR h 0x20 d a b, wXW 0 4 8 0 0, 0⟩) decFmax (by
    unfold selectRow
    rw [major_wRRR, fn_wXW]
    rfl) (by
    simp (disch := decide) only [decFmax, h_wRRR, d_wRRR, a_wRRR, b_wRRR, c_wXW, ty_wXW, mods_wXW, rndUnused_wXW, rndBad_wXW]) (by
    simp (disch := decide) only [decFmax, h_wRRR, d_wRRR, a_wRRR, b_wRRR, c_wXW, ty_wXW, mods_wXW, rndUnused_wXW, rndBad_wXW, mask_1fff, ext_left, ext_right, ext_all, Nat.reduceSub, List.any_cons, List.any_nil, bne_self_eq_false, Bool.or_false, Option.isNone_some, zero_bits]) hl)
theorem RoundTrip.frcp (h : Head) (d : Reg) (a : Reg) (rnd : Rnd) : RoundTrip.Statement (.frcp h d a rnd) := fun hl =>
  .inr (roundTrip_of (r := ⟨wRRR h 0x22 d a 0, wXW 0 0 8 (BitVec.ofNat 3 rnd.code) 0, 0⟩) decFrcp (by
    unfold selectRow
    rw [major_wRRR, fn_wXW]
    rfl) (by
    simp (disch := decide) only [decFrcp, h_wRRR, d_wRRR, a_wRRR, b_wRRR, c_wXW, ty_wXW, mods_wXW, Raw.rndName, rnd_wXW, Raw.rndBad, rnd_code, Option.getD_some]) (by
    simp (disch := decide) only [decFrcp, h_wRRR, d_wRRR, a_wRRR, b_wRRR, c_wXW, ty_wXW, mods_wXW, Raw.rndName, rnd_wXW, Raw.rndBad, rnd_code, Option.getD_some, mask_1fff, ext_left, ext_right, ext_all, Nat.reduceSub, List.any_cons, List.any_nil, bne_self_eq_false, Bool.or_false, Option.isNone_some, zero_bits]) hl)
theorem RoundTrip.fsqrt (h : Head) (d : Reg) (a : Reg) (rnd : Rnd) : RoundTrip.Statement (.fsqrt h d a rnd) := fun hl =>
  .inr (roundTrip_of (r := ⟨wRRR h 0x22 d a 0, wXW 0 1 8 (BitVec.ofNat 3 rnd.code) 0, 0⟩) decFsqrt (by
    unfold selectRow
    rw [major_wRRR, fn_wXW]
    rfl) (by
    simp (disch := decide) only [decFsqrt, h_wRRR, d_wRRR, a_wRRR, b_wRRR, c_wXW, ty_wXW, mods_wXW, Raw.rndName, rnd_wXW, Raw.rndBad, rnd_code, Option.getD_some]) (by
    simp (disch := decide) only [decFsqrt, h_wRRR, d_wRRR, a_wRRR, b_wRRR, c_wXW, ty_wXW, mods_wXW, Raw.rndName, rnd_wXW, Raw.rndBad, rnd_code, Option.getD_some, mask_1fff, ext_left, ext_right, ext_all, Nat.reduceSub, List.any_cons, List.any_nil, bne_self_eq_false, Bool.or_false, Option.isNone_some, zero_bits]) hl)
theorem RoundTrip.frsq (h : Head) (d : Reg) (a : Reg) (rnd : Rnd) : RoundTrip.Statement (.frsq h d a rnd) := fun hl =>
  .inr (roundTrip_of (r := ⟨wRRR h 0x22 d a 0, wXW 0 2 8 (BitVec.ofNat 3 rnd.code) 0, 0⟩) decFrsq (by
    unfold selectRow
    rw [major_wRRR, fn_wXW]
    rfl) (by
    simp (disch := decide) only [decFrsq, h_wRRR, d_wRRR, a_wRRR, b_wRRR, c_wXW, ty_wXW, mods_wXW, Raw.rndName, rnd_wXW, Raw.rndBad, rnd_code, Option.getD_some]) (by
    simp (disch := decide) only [decFrsq, h_wRRR, d_wRRR, a_wRRR, b_wRRR, c_wXW, ty_wXW, mods_wXW, Raw.rndName, rnd_wXW, Raw.rndBad, rnd_code, Option.getD_some, mask_1fff, ext_left, ext_right, ext_all, Nat.reduceSub, List.any_cons, List.any_nil, bne_self_eq_false, Bool.or_false, Option.isNone_some, zero_bits]) hl)
theorem RoundTrip.frnd (h : Head) (d : Reg) (a : Reg) (rnd : Rnd) : RoundTrip.Statement (.frnd h d a rnd) := fun hl =>
  .inr (roundTrip_of (r := ⟨wRRR h 0x22 d a 0, wXW 0 3 8 (BitVec.ofNat 3 rnd.code) 0, 0⟩) decFrnd (by
    unfold selectRow
    rw [major_wRRR, fn_wXW]
    rfl) (by
    simp (disch := decide) only [decFrnd, h_wRRR, d_wRRR, a_wRRR, b_wRRR, c_wXW, ty_wXW, mods_wXW, Raw.rndName, rnd_wXW, Raw.rndBad, rnd_code, Option.getD_some]) (by
    simp (disch := decide) only [decFrnd, h_wRRR, d_wRRR, a_wRRR, b_wRRR, c_wXW, ty_wXW, mods_wXW, Raw.rndName, rnd_wXW, Raw.rndBad, rnd_code, Option.getD_some, mask_1fff, ext_left, ext_right, ext_all, Nat.reduceSub, List.any_cons, List.any_nil, bne_self_eq_false, Bool.or_false, Option.isNone_some, zero_bits]) hl)
theorem RoundTrip.fclass (h : Head) (d : Reg) (a : Reg) (ty : Ty) : RoundTrip.Statement (.fclass h d a ty) := fun hl =>
  .inr (roundTrip_of (r := ⟨wRRR h 0x22 d a 0, wXW 0 4 (BitVec.ofNat 4 ty.code) 0 0, 0⟩) decFclass (by
    unfold selectRow
    rw [major_wRRR, fn_wXW]
    rfl) (by
    simp (disch := decide) only [decFclass, h_wRRR, d_wRRR, a_wRRR, b_wRRR, c_wXW, mods_wXW, Raw.tyName, ty_wXW, Raw.tyBad, rndUnused_wXW, rndBad_wXW, ty_code, Option.getD_some]) (by
    simp (disch := decide) only [decFclass, h_wRRR, d_wRRR, a_wRRR, b_wRRR, c_wXW, mods_wXW, Raw.tyName, ty_wXW, Raw.tyBad, rndUnused_wXW, rndBad_wXW, ty_code, Option.getD_some, mask_1fff, ext_left, ext_right, ext_all, Nat.reduceSub, List.any_cons, List.any_nil, bne_self_eq_false, Bool.or_false, Option.isNone_some, zero_bits]) hl)
theorem RoundTrip.fcmp (h : Head) (d : Reg) (a : Reg) (b : Reg) (c : Reg) (cond : BitVec 3) (merge : Bool) (tbl : BitVec 4) : RoundTrip.Statement (.fcmp h d a b c cond merge tbl) := fun hl =>
  .inr (roundTrip_of (r := ⟨wRRR h 0x23 d a b, wXW c (cond.setWidth 5) 8 0 (0#8 ++ BitVec.ofBool merge ++ tbl), 0⟩) decFcmp (by
    unfold selectRow
    rw [major_wRRR, fn_wXW]
    exact if_pos (cond_lt cond)) (by
    simp (disch := decide) only [decFcmp, h_wRRR, d_wRRR, a_wRRR, b_wRRR, c_wXW, fn_wXW, ty_wXW, mods_wXW, rndUnused_wXW, rndBad_wXW, BitVec.extractLsb, ext_left, ext_right, ext_all, lsb_left, lsb_right, lsb_bool, Nat.reduceSub, cond_back]) (by
    simp (disch := decide) only [decFcmp, h_wRRR, d_wRRR, a_wRRR, b_wRRR, c_wXW, fn_wXW, ty_wXW, mods_wXW, rndUnused_wXW, rndBad_wXW, BitVec.extractLsb, ext_left, ext_right, ext_all, lsb_left, lsb_right, lsb_bool, Nat.reduceSub, cond_back, mask_1fe0, List.any_cons, List.any_nil, bne_self_eq_false, Bool.or_false, Option.isNone_some, zero_bits]) hl)
theorem RoundTrip.dcmp (h : Head) (d : Reg) (a : Reg) (b : Reg) (c : Reg) (cond : BitVec 3) (merge : Bool) (tbl : BitVec 4) : RoundTrip.Statement (.dcmp h d a b c cond merge tbl) := fun hl =>
  .inr (roundTrip_of (r := ⟨wRRR h 0x26 d a b, wXW c (cond.setWidth 5) 9 0 (0#8 ++ BitVec.ofBool merge ++ tbl), 0⟩) decDcmp (by
    unfold selectRow
    rw [major_wRRR, fn_wXW]
    exact if_pos (cond_lt cond)) (by
    simp (disch := decide) only [decDcmp, h_wRRR, d_wRRR, a_wRRR, b_wRRR, c_wXW, fn_wXW, ty_wXW, mods_wXW, rndUnused_wXW, rndBad_wXW, BitVec.extractLsb, ext_left, ext_right, ext_all, lsb_left, lsb_right, lsb_bool, Nat.reduceSub, cond_back]) (by
    simp (disch := decide) only [decDcmp, h_wRRR, d_wRRR, a_wRRR, b_wRRR, c_wXW, fn_wXW, ty_wXW, mods_wXW, rndUnused_wXW, rndBad_wXW, BitVec.extractLsb, ext_left, ext_right, ext_all, lsb_left, lsb_right, lsb_bool, Nat.reduceSub, cond_back, mask_1fe0, List.any_cons, List.any_nil, bne_self_eq_false, Bool.or_false, Option.isNone_some, zero_bits]) hl)
theorem RoundTrip.fex2 (h : Head) (d : Reg) (a : Reg) : RoundTrip.Statement (.fex2 h d a) := fun hl =>
  .inr (roundTrip_of (r := ⟨wRRR h 0x2e d a 0, wXW 0 0 8 0 0, 0⟩) decFex2 (by
    unfold selectRow
    rw [major_wRRR, fn_wXW]
    rfl) (by
    simp (disch := decide) only [decFex2, h_wRRR, d_wRRR, a_wRRR, b_wRRR, c_wXW, ty_wXW, mods_wXW, rndUnused_wXW, rndBad_wXW]) (by
    simp (disch := decide) only [decFex2, h_wRRR, d_wRRR, a_wRRR, b_wRRR, c_wXW, ty_wXW, mods_wXW, rndUnused_wXW, rndBad_wXW, mask_1fff, ext_left, ext_right, ext_all, Nat.reduceSub, List.any_cons, List.any_nil, bne_self_eq_false, Bool.or_false, Option.isNone_some, zero_bits]) hl)
theorem RoundTrip.flg2 (h : Head) (d : Reg) (a : Reg) : RoundTrip.Statement (.flg2 h d a) := fun hl =>
  .inr (roundTrip_of (r := ⟨wRRR h 0x2e d a 0, wXW 0 1 8 0 0, 0⟩) decFlg2 (by
    unfold selectRow
    rw [major_wRRR, fn_wXW]
    rfl) (by
    simp (disch := decide) only [decFlg2, h_wRRR, d_wRRR, a_wRRR, b_wRRR, c_wXW, ty_wXW, mods_wXW, rndUnused_wXW, rndBad_wXW]) (by
    simp (disch := decide) only [decFlg2, h_wRRR, d_wRRR, a_wRRR, b_wRRR, c_wXW, ty_wXW, mods_wXW, rndUnused_wXW, rndBad_wXW, mask_1fff, ext_left, ext_right, ext_all, Nat.reduceSub, List.any_cons, List.any_nil, bne_self_eq_false, Bool.or_false, Option.isNone_some, zero_bits]) hl)
theorem RoundTrip.fsin (h : Head) (d : Reg) (a : Reg) : RoundTrip.Statement (.fsin h d a) := fun hl =>
  .inr (roundTrip_of (r := ⟨wRRR h 0x2e d a 0, wXW 0 2 8 0 0, 0⟩) decFsin (by
    unfold selectRow
    rw [major_wRRR, fn_wXW]
    rfl) (by
    simp (disch := decide) only [decFsin, h_wRRR, d_wRRR, a_wRRR, b_wRRR, c_wXW, ty_wXW, mods_wXW, rndUnused_wXW, rndBad_wXW]) (by
    simp (disch := decide) only [decFsin, h_wRRR, d_wRRR, a_wRRR, b_wRRR, c_wXW, ty_wXW, mods_wXW, rndUnused_wXW, rndBad_wXW, mask_1fff, ext_left, ext_right, ext_all, Nat.reduceSub, List.any_cons, List.any_nil, bne_self_eq_false, Bool.or_false, Option.isNone_some, zero_bits]) hl)
theorem RoundTrip.fcos (h : Head) (d : Reg) (a : Reg) : RoundTrip.Statement (.fcos h d a) := fun hl =>
  .inr (roundTrip_of (r := ⟨wRRR h 0x2e d a 0, wXW 0 3 8 0 0, 0⟩) decFcos (by
    unfold selectRow
    rw [major_wRRR, fn_wXW]
    rfl) (by
    simp (disch := decide) only [decFcos, h_wRRR, d_wRRR, a_wRRR, b_wRRR, c_wXW, ty_wXW, mods_wXW, rndUnused_wXW, rndBad_wXW]) (by
    simp (disch := decide) only [decFcos, h_wRRR, d_wRRR, a_wRRR, b_wRRR, c_wXW, ty_wXW, mods_wXW, rndUnused_wXW, rndBad_wXW, mask_1fff, ext_left, ext_right, ext_all, Nat.reduceSub, List.any_cons, List.any_nil, bne_self_eq_false, Bool.or_false, Option.isNone_some, zero_bits]) hl)
theorem RoundTrip.ftanh (h : Head) (d : Reg) (a : Reg) : RoundTrip.Statement (.ftanh h d a) := fun hl =>
  .inr (roundTrip_of (r := ⟨wRRR h 0x2e d a 0, wXW 0 4 8 0 0, 0⟩) decFtanh (by
    unfold selectRow
    rw [major_wRRR, fn_wXW]
    rfl) (by
    simp (disch := decide) only [decFtanh, h_wRRR, d_wRRR, a_wRRR, b_wRRR, c_wXW, ty_wXW, mods_wXW, rndUnused_wXW, rndBad_wXW]) (by
    simp (disch := decide) only [decFtanh, h_wRRR, d_wRRR, a_wRRR, b_wRRR, c_wXW, ty_wXW, mods_wXW, rndUnused_wXW, rndBad_wXW, mask_1fff, ext_left, ext_right, ext_all, Nat.reduceSub, List.any_cons, List.any_nil, bne_self_eq_false, Bool.or_false, Option.isNone_some, zero_bits]) hl)
theorem RoundTrip.dadd (h : Head) (d : Reg) (a : Reg) (b : Reg) (rnd : Rnd) : RoundTrip.Statement (.dadd h d a b rnd) := fun hl =>
  .inr (roundTrip_of (r := ⟨wRRR h 0x24 d a b, wXW 0 0 9 (BitVec.ofNat 3 rnd.code) 0, 0⟩) decDadd (by
    unfold selectRow
    rw [major_wRRR, fn_wXW]
    rfl) (by
    simp (disch := decide) only [decDadd, h_wRRR, d_wRRR, a_wRRR, b_wRRR, c_wXW, ty_wXW, mods_wXW, Raw.rndName, rnd_wXW, Raw.rndBad, rnd_code, Option.getD_some]) (by
    simp (disch := decide) only [decDadd, h_wRRR, d_wRRR, a_wRRR, b_wRRR, c_wXW, ty_wXW, mods_wXW, Raw.rndName, rnd_wXW, Raw.rndBad, rnd_code, Option.getD_some, mask_1fff, ext_left, ext_right, ext_all, Nat.reduceSub, List.any_cons, List.any_nil, bne_self_eq_false, Bool.or_false, Option.isNone_some, zero_bits]) hl)
theorem RoundTrip.dmul (h : Head) (d : Reg) (a : Reg) (b : Reg) (rnd : Rnd) : RoundTrip.Statement (.dmul h d a b rnd) := fun hl =>
  .inr (roundTrip_of (r := ⟨wRRR h 0x24 d a b, wXW 0 1 9 (BitVec.ofNat 3 rnd.code) 0, 0⟩) decDmul (by
    unfold selectRow
    rw [major_wRRR, fn_wXW]
    rfl) (by
    simp (disch := decide) only [decDmul, h_wRRR, d_wRRR, a_wRRR, b_wRRR, c_wXW, ty_wXW, mods_wXW, Raw.rndName, rnd_wXW, Raw.rndBad, rnd_code, Option.getD_some]) (by
    simp (disch := decide) only [decDmul, h_wRRR, d_wRRR, a_wRRR, b_wRRR, c_wXW, ty_wXW, mods_wXW, Raw.rndName, rnd_wXW, Raw.rndBad, rnd_code, Option.getD_some, mask_1fff, ext_left, ext_right, ext_all, Nat.reduceSub, List.any_cons, List.any_nil, bne_self_eq_false, Bool.or_false, Option.isNone_some, zero_bits]) hl)
theorem RoundTrip.dfma (h : Head) (d : Reg) (a : Reg) (b : Reg) (c : Reg) (rnd : Rnd) : RoundTrip.Statement (.dfma h d a b c rnd) := fun hl =>
  .inr (roundTrip_of (r := ⟨wRRR h 0x25 d a b, wXW c 0 9 (BitVec.ofNat 3 rnd.code) 0, 0⟩) decDfma (by
    unfold selectRow
    rw [major_wRRR, fn_wXW]
    rfl) (by
    simp (disch := decide) only [decDfma, h_wRRR, d_wRRR, a_wRRR, b_wRRR, c_wXW, ty_wXW, mods_wXW, Raw.rndName, rnd_wXW, Raw.rndBad, rnd_code, Option.getD_some]) (by
    simp (disch := decide) only [decDfma, h_wRRR, d_wRRR, a_wRRR, b_wRRR, c_wXW, ty_wXW, mods_wXW, Raw.rndName, rnd_wXW, Raw.rndBad, rnd_code, Option.getD_some, mask_1fff, ext_left, ext_right, ext_all, Nat.reduceSub, List.any_cons, List.any_nil, bne_self_eq_false, Bool.or_false, Option.isNone_some, zero_bits]) hl)
theorem RoundTrip.hadd2 (h : Head) (d : Reg) (a : Reg) (b : Reg) (ty : Ty) (rnd : Rnd) : RoundTrip.Statement (.hadd2 h d a b ty rnd) := fun hl =>
  .inr (roundTrip_of (r := ⟨wRRR h 0x27 d a b, wXW 0 0 (BitVec.ofNat 4 ty.code) (BitVec.ofNat 3 rnd.code) 0, 0⟩) decHadd2 (by
    unfold selectRow
    rw [major_wRRR, fn_wXW]
    rfl) (by
    simp (disch := decide) only [decHadd2, h_wRRR, d_wRRR, a_wRRR, b_wRRR, c_wXW, mods_wXW, Raw.tyName, ty_wXW, Raw.tyBad, Raw.rndName, rnd_wXW, Raw.rndBad, ty_code, rnd_code, Option.getD_some]) (by
    simp (disch := decide) only [decHadd2, h_wRRR, d_wRRR, a_wRRR, b_wRRR, c_wXW, mods_wXW, Raw.tyName, ty_wXW, Raw.tyBad, Raw.rndName, rnd_wXW, Raw.rndBad, ty_code, rnd_code, Option.getD_some, mask_1fff, ext_left, ext_right, ext_all, Nat.reduceSub, List.any_cons, List.any_nil, bne_self_eq_false, Bool.or_false, Option.isNone_some, zero_bits]) hl)
theorem RoundTrip.hmul2 (h : Head) (d : Reg) (a : Reg) (b : Reg) (ty : Ty) (rnd : Rnd) : RoundTrip.Statement (.hmul2 h d a b ty rnd) := fun hl =>
  .inr (roundTrip_of (r := ⟨wRRR h 0x27 d a b, wXW 0 1 (BitVec.ofNat 4 ty.code) (BitVec.ofNat 3 rnd.code) 0, 0⟩) decHmul2 (by
    unfold selectRow
    rw [major_wRRR, fn_wXW]
    rfl) (by
    simp (disch := decide) only [decHmul2, h_wRRR, d_wRRR, a_wRRR, b_wRRR, c_wXW, mods_wXW, Raw.tyName, ty_wXW, Raw.tyBad, Raw.rndName, rnd_wXW, Raw.rndBad, ty_code, rnd_code, Option.getD_some]) (by
    simp (disch := decide) only [decHmul2, h_wRRR, d_wRRR, a_wRRR, b_wRRR, c_wXW, mods_wXW, Raw.tyName, ty_wXW, Raw.tyBad, Raw.rndName, rnd_wXW, Raw.rndBad, ty_code, rnd_code, Option.getD_some, mask_1fff, ext_left, ext_right, ext_all, Nat.reduceSub, List.any_cons, List.any_nil, bne_self_eq_false, Bool.or_false, Option.isNone_some, zero_bits]) hl)
theorem RoundTrip.hfma2 (h : Head) (d : Reg) (a : Reg) (b : Reg) (c : Reg) (ty : Ty) (rnd : Rnd) : RoundTrip.Statement (.hfma2 h d a b c ty rnd) := fun hl =>
  .inr (roundTrip_of (r := ⟨wRRR h 0x28 d a b, wXW c 0 (BitVec.ofNat 4 ty.code) (BitVec.ofNat 3 rnd.code) 0, 0⟩) decHfma2 (by
    unfold selectRow
    rw [major_wRRR, fn_wXW]
    rfl) (by
    simp (disch := decide) only [decHfma2, h_wRRR, d_wRRR, a_wRRR, b_wRRR, c_wXW, mods_wXW, Raw.tyName, ty_wXW, Raw.tyBad, Raw.rndName, rnd_wXW, Raw.rndBad, ty_code, rnd_code, Option.getD_some]) (by
    simp (disch := decide) only [decHfma2, h_wRRR, d_wRRR, a_wRRR, b_wRRR, c_wXW, mods_wXW, Raw.tyName, ty_wXW, Raw.tyBad, Raw.rndName, rnd_wXW, Raw.rndBad, ty_code, rnd_code, Option.getD_some, mask_1fff, ext_left, ext_right, ext_all, Nat.reduceSub, List.any_cons, List.any_nil, bne_self_eq_false, Bool.or_false, Option.isNone_some, zero_bits]) hl)
theorem RoundTrip.cvt (h : Head) (d : Reg) (a : Reg) (ty : Ty) (rnd : Rnd) (sat : Bool) (src : Ty) : RoundTrip.Statement (.cvt h d a ty rnd sat src) := fun hl =>
  .inr (roundTrip_of (r := ⟨wRRR h 0x2c d a 0, wXW 0 0 (BitVec.ofNat 4 ty.code) (BitVec.ofNat 3 rnd.code) (0#8 ++ BitVec.ofBool sat ++ BitVec.ofNat 4 src.code), 0⟩) decCvt (by
    unfold selectRow
    rw [major_wRRR, fn_wXW]
    rfl) (by
    simp (disch := decide) only [decCvt, h_wRRR, d_wRRR, a_wRRR, b_wRRR, c_wXW, mods_wXW, Raw.tyName, ty_wXW, Raw.tyBad, Raw.rndName, rnd_wXW, Raw.rndBad, ty_code, rnd_code, Option.getD_some, BitVec.extractLsb, ext_left, ext_right, ext_all, lsb_left, lsb_right, lsb_bool, Nat.reduceSub]) (by
    simp (disch := decide) only [decCvt, h_wRRR, d_wRRR, a_wRRR, b_wRRR, c_wXW, mods_wXW, Raw.tyName, ty_wXW, Raw.tyBad, Raw.rndName, rnd_wXW, Raw.rndBad, ty_code, rnd_code, Option.getD_some, BitVec.extractLsb, ext_left, ext_right, ext_all, lsb_left, lsb_right, lsb_bool, Nat.reduceSub, mask_1fe0, List.any_cons, List.any_nil, bne_self_eq_false, Bool.or_false, Option.isNone_some, zero_bits]) hl)
theorem RoundTrip.qnt (h : Head) (d : Reg) (a : Reg) (c : Reg) (rnd : Rnd) (adj : Bool) (fmt : Fmt) : RoundTrip.Statement (.qnt h d a c rnd adj fmt) := fun hl =>
  .inr (roundTrip_of (r := ⟨wRRR h 0x2d d a 0, wXW c 0 8 (BitVec.ofNat 3 rnd.code) (0#7 ++ BitVec.ofBool adj ++ BitVec.ofNat 5 fmt.code), 0⟩) decQnt (by
    unfold selectRow
    rw [major_wRRR, fn_wXW]
    rfl) (by
    simp (disch := decide) only [decQnt, h_wRRR, d_wRRR, a_wRRR, b_wRRR, c_wXW, ty_wXW, mods_wXW, Raw.rndName, rnd_wXW, Raw.rndBad, rnd_code, fmt_code, Option.getD_some, BitVec.extractLsb, ext_left, ext_right, ext_all, lsb_left, lsb_right, lsb_bool, Nat.reduceSub]) (by
    simp (disch := decide) only [decQnt, h_wRRR, d_wRRR, a_wRRR, b_wRRR, c_wXW, ty_wXW, mods_wXW, Raw.rndName, rnd_wXW, Raw.rndBad, rnd_code, fmt_code, Option.getD_some, BitVec.extractLsb, ext_left, ext_right, ext_all, lsb_left, lsb_right, lsb_bool, Nat.reduceSub, mask_1fc0, List.any_cons, List.any_nil, bne_self_eq_false, Bool.or_false, Option.isNone_some, zero_bits]) hl)
theorem RoundTrip.dqnt (h : Head) (d : Reg) (a : Reg) (c : Reg) (fmt : Fmt) : RoundTrip.Statement (.dqnt h d a c fmt) := fun hl =>
  .inr (roundTrip_of (r := ⟨wRRR h 0x2d d a 0, wXW c 1 8 0 (0#8 ++ BitVec.ofNat 5 fmt.code), 0⟩) decDqnt (by
    unfold selectRow
    rw [major_wRRR, fn_wXW]
    rfl) (by
    simp (disch := decide) only [decDqnt, h_wRRR, d_wRRR, a_wRRR, b_wRRR, c_wXW, ty_wXW, mods_wXW, rndUnused_wXW, rndBad_wXW, fmt_code, Option.getD_some, BitVec.extractLsb, ext_left, ext_right, ext_all, lsb_left, lsb_right, lsb_bool, Nat.reduceSub]) (by
    simp (disch := decide) only [decDqnt, h_wRRR, d_wRRR, a_wRRR, b_wRRR, c_wXW, ty_wXW, mods_wXW, rndUnused_wXW, rndBad_wXW, fmt_code, Option.getD_some, BitVec.extractLsb, ext_left, ext_right, ext_all, lsb_left, lsb_right, lsb_bool, Nat.reduceSub, mask_1fe0, List.any_cons, List.any_nil, bne_self_eq_false, Bool.or_false, Option.isNone_some, zero_bits]) hl)
theorem RoundTrip.rand (h : Head) (d : Reg) (ty : Ty) : RoundTrip.Statement (.rand h d ty) := fun hl =>
  .inr (roundTrip_of (r := ⟨wRRR h 0x2f d 0 0, wXW 0 0 (BitVec.ofNat 4 ty.code) 0 0, 0⟩) decRand (by
    unfold selectRow
    rw [major_wRRR, fn_wXW]
    rfl) (by
    simp (disch := decide) only [decRand, h_wRRR, d_wRRR, a_wRRR, b_wRRR, c_wXW, mods_wXW, Raw.tyName, ty_wXW, Raw.tyBad, rndUnused_wXW, rndBad_wXW, ty_code, Option.getD_some]) (by
    simp (disch := decide) only [decRand, h_wRRR, d_wRRR, a_wRRR, b_wRRR, c_wXW, mods_wXW, Raw.tyName, ty_wXW, Raw.tyBad, rndUnused_wXW, rndBad_wXW, ty_code, Option.getD_some, mask_1fff, ext_left, ext_right, ext_all, Nat.reduceSub, List.any_cons, List.any_nil, bne_self_eq_false, Bool.or_false, Option.isNone_some, zero_bits]) hl)
theorem RoundTrip.shfl (h : Head) (d : Reg) (a : Reg) (b : Reg) (c : Reg) (mode : ShflMode) (ty : Ty) (p : Reg) : RoundTrip.Statement (.shfl h d a b c mode ty p) := fun hl =>
  .inr (roundTrip_of (r := ⟨wRRR h 0x30 d a b, wXW c (BitVec.ofNat 5 mode.code) (BitVec.ofNat 4 ty.code) 0 (0#6 ++ p), 0⟩) decShfl (by
    unfold selectRow
    rw [major_wRRR, fn_wXW]
    exact if_pos (shfl_lt mode)) (by
    simp (disch := decide) only [decShfl, h_wRRR, d_wRRR, a_wRRR, b_wRRR, c_wXW, fn_wXW, mods_wXW, Raw.tyName, ty_wXW, Raw.tyBad, rndUnused_wXW, rndBad_wXW, shfl_code, ty_code, Option.getD_some, BitVec.extractLsb, ext_left, ext_right, ext_all, lsb_left, lsb_right, lsb_bool, Nat.reduceSub]) (by
    simp (disch := decide) only [decShfl, h_wRRR, d_wRRR, a_wRRR, b_wRRR, c_wXW, fn_wXW, mods_wXW, Raw.tyName, ty_wXW, Raw.tyBad, rndUnused_wXW, rndBad_wXW, shfl_code, ty_code, Option.getD_some, BitVec.extractLsb, ext_left, ext_right, ext_all, lsb_left, lsb_right, lsb_bool, Nat.reduceSub, mask_1f80, List.any_cons, List.any_nil, bne_self_eq_false, Bool.or_false, Option.isNone_some, zero_bits]) hl)
theorem RoundTrip.vote (h : Head) (d : Reg) (a : Reg) (b : Reg) (c : Reg) (mode : VoteMode) : RoundTrip.Statement (.vote h d a b c mode) := fun hl =>
  .inr (roundTrip_of (r := ⟨wRRR h 0x31 d a b, wXW c (BitVec.ofNat 5 mode.code) 0 0 0, 0⟩) decVote (by
    unfold selectRow
    rw [major_wRRR, fn_wXW]
    exact if_pos (vote_lt mode)) (by
    simp (disch := decide) only [decVote, h_wRRR, d_wRRR, a_wRRR, b_wRRR, c_wXW, fn_wXW, ty_wXW, mods_wXW, rndUnused_wXW, rndBad_wXW, vote_code, Option.getD_some]) (by
    simp (disch := decide) only [decVote, h_wRRR, d_wRRR, a_wRRR, b_wRRR, c_wXW, fn_wXW, ty_wXW, mods_wXW, rndUnused_wXW, rndBad_wXW, vote_code, Option.getD_some, mask_1fff, ext_left, ext_right, ext_all, Nat.reduceSub, List.any_cons, List.any_nil, bne_self_eq_false, Bool.or_false, Option.isNone_some, zero_bits]) hl)
theorem RoundTrip.spred (h : Head) (d : Reg) (a : Reg) (c : Reg) (op : SpredOp) (ty : Ty) (rnd : Rnd) (scan : Bool) : RoundTrip.Statement (.spred h d a c op ty rnd scan) := fun hl =>
  .inr (roundTrip_of (r := ⟨wRRR h 0x32 d a 0, wXW c (BitVec.ofNat 5 op.code) (BitVec.ofNat 4 ty.code) (BitVec.ofNat 3 rnd.code) (0#12 ++ BitVec.ofBool scan), 0⟩) decSpred (by
    unfold selectRow
    rw [major_wRRR, fn_wXW]
    exact if_pos (spred_lt op)) (by
    simp (disch := decide) only [decSpred, h_wRRR, d_wRRR, a_wRRR, b_wRRR, c_wXW, fn_wXW, mods_wXW, Raw.tyName, ty_wXW, Raw.tyBad, Raw.rndName, rnd_wXW, Raw.rndBad, spred_code, ty_code, rnd_code, Option.getD_some, BitVec.extractLsb, ext_left, ext_right, ext_all, lsb_left, lsb_right, lsb_bool, Nat.reduceSub]) (by
    simp (disch := decide) only [decSpred, h_wRRR, d_wRRR, a_wRRR, b_wRRR, c_wXW, fn_wXW, mods_wXW, Raw.tyName, ty_wXW, Raw.tyBad, Raw.rndName, rnd_wXW, Raw.rndBad, spred_code, ty_code, rnd_code, Option.getD_some, BitVec.extractLsb, ext_left, ext_right, ext_all, lsb_left, lsb_right, lsb_bool, Nat.reduceSub, mask_1ffe, List.any_cons, List.any_nil, bne_self_eq_false, Bool.or_false, Option.isNone_some, zero_bits]) hl)
theorem RoundTrip.qswap (h : Head) (d : Reg) (a : Reg) (ty : Ty) (dir : BitVec 2) : RoundTrip.Statement (.qswap h d a ty dir) := fun hl =>
  .inr (roundTrip_of (r := ⟨wRRR h 0x33 d a 0, wXW 0 0 (BitVec.ofNat 4 ty.code) 0 (0#11 ++ dir), 0⟩) decQswap (by
    unfold selectRow
    rw [major_wRRR, fn_wXW]
    rfl) (by
    simp (disch := decide) only [decQswap, h_wRRR, d_wRRR, a_wRRR, b_wRRR, c_wXW, mods_wXW, Raw.tyName, ty_wXW, Raw.tyBad, rndUnused_wXW, rndBad_wXW, ty_code, Option.getD_some, BitVec.extractLsb, ext_left, ext_right, ext_all, lsb_left, lsb_right, lsb_bool, Nat.reduceSub]) (by
    simp (disch := decide) only [decQswap, h_wRRR, d_wRRR, a_wRRR, b_wRRR, c_wXW, mods_wXW, Raw.tyName, ty_wXW, Raw.tyBad, rndUnused_wXW, rndBad_wXW, ty_code, Option.getD_some, BitVec.extractLsb, ext_left, ext_right, ext_all, lsb_left, lsb_right, lsb_bool, Nat.reduceSub, mask_1ffc, List.any_cons, List.any_nil, bne_self_eq_false, Bool.or_false, Option.isNone_some, zero_bits]) hl)
theorem RoundTrip.qbc (h : Head) (d : Reg) (a : Reg) (ty : Ty) (lane : BitVec 2) : RoundTrip.Statement (.qbc h d a ty lane) := fun hl =>
  .inr (roundTrip_of (r := ⟨wRRR h 0x33 d a 0, wXW 0 1 (BitVec.ofNat 4 ty.code) 0 (0#11 ++ lane), 0⟩) decQbc (by
    unfold selectRow
    rw [major_wRRR, fn_wXW]
    rfl) (by
    simp (disch := decide) only [decQbc, h_wRRR, d_wRRR, a_wRRR, b_wRRR, c_wXW, mods_wXW, Raw.tyName, ty_wXW, Raw.tyBad, rndUnused_wXW, rndBad_wXW, ty_code, Option.getD_some, BitVec.extractLsb, ext_left, ext_right, ext_all, lsb_left, lsb_right, lsb_bool, Nat.reduceSub]) (by
    simp (disch := decide) only [decQbc, h_wRRR, d_wRRR, a_wRRR, b_wRRR, c_wXW, mods_wXW, Raw.tyName, ty_wXW, Raw.tyBad, rndUnused_wXW, rndBad_wXW, ty_code, Option.getD_some, BitVec.extractLsb, ext_left, ext_right, ext_all, lsb_left, lsb_right, lsb_bool, Nat.reduceSub, mask_1ffc, List.any_cons, List.any_nil, bne_self_eq_false, Bool.or_false, Option.isNone_some, zero_bits]) hl)
theorem RoundTrip.ld (h : Head) (d : Reg) (a : Reg) (spc : Space) (sz : Size) (ord : Order) (sc : Scope) (off : BitVec 16) : RoundTrip.Statement (.ld h d a spc sz ord sc off) := fun hl =>
  .inr (roundTrip_of (r := ⟨wRRR h 0x34 d a 0, wXM spc sz ord sc 0 false off, 0⟩) decLd (by
    unfold selectRow
    rw [major_wRRR]
    rfl) (by
    simp (disch := decide) only [decLd, h_wRRR, d_wRRR, a_wRRR, b_wRRR, sp_wXM, sz_wXM, ord_wXM, sc_wXM, off_wXM, xm_listed, aop_wXM, nr_wXM, Option.getD_some]) (by
    simp (disch := decide) only [decLd, h_wRRR, d_wRRR, a_wRRR, b_wRRR, sp_wXM, sz_wXM, ord_wXM, sc_wXM, off_wXM, xm_listed, aop_wXM, nr_wXM, Option.getD_some, List.any_cons, List.any_nil, bne_self_eq_false, Bool.or_false, Option.isNone_some, zero_bits]) hl)
theorem RoundTrip.st (h : Head) (a : Reg) (b : Reg) (spc : Space) (sz : Size) (ord : Order) (sc : Scope) (off : BitVec 16) : RoundTrip.Statement (.st h a b spc sz ord sc off) := fun hl =>
  .inr (roundTrip_of (r := ⟨wRRR h 0x35 0 a b, wXM spc sz ord sc 0 false off, 0⟩) decSt (by
    unfold selectRow
    rw [major_wRRR]
    rfl) (by
    simp (disch := decide) only [decSt, h_wRRR, d_wRRR, a_wRRR, b_wRRR, sp_wXM, sz_wXM, ord_wXM, sc_wXM, off_wXM, xm_listed, aop_wXM, nr_wXM, Option.getD_some]) (by
    simp (disch := decide) only [decSt, h_wRRR, d_wRRR, a_wRRR, b_wRRR, sp_wXM, sz_wXM, ord_wXM, sc_wXM, off_wXM, xm_listed, aop_wXM, nr_wXM, Option.getD_some, List.any_cons, List.any_nil, bne_self_eq_false, Bool.or_false, Option.isNone_some, zero_bits]) hl)
theorem RoundTrip.atom (h : Head) (d : Reg) (a : Reg) (b : Reg) (spc : Space) (sz : Size) (ord : Order) (sc : Scope) (aop : AtomOp) (off : BitVec 16) : RoundTrip.Statement (.atom h d a b spc sz ord sc aop off) := fun hl =>
  .inr (roundTrip_of (r := ⟨wRRR h 0x36 d a b, wXM spc sz ord sc (BitVec.ofNat 4 aop.code) false off, 0⟩) decAtom (by
    unfold selectRow
    rw [major_wRRR, nr_wXM]
    rfl) (by
    simp (disch := decide) only [decAtom, h_wRRR, d_wRRR, a_wRRR, b_wRRR, sp_wXM, sz_wXM, ord_wXM, sc_wXM, off_wXM, xm_listed, Raw.aopName, aop_wXM, aop_code, Option.getD_some]) (by
    simp (disch := decide) only [decAtom, h_wRRR, d_wRRR, a_wRRR, b_wRRR, sp_wXM, sz_wXM, ord_wXM, sc_wXM, off_wXM, xm_listed, Raw.aopName, aop_wXM, aop_code, Option.getD_some, List.any_cons, List.any_nil, bne_self_eq_false, Bool.or_false, Option.isNone_some, zero_bits]) hl)
theorem RoundTrip.red (h : Head) (a : Reg) (b : Reg) (spc : Space) (sz : Size) (ord : Order) (sc : Scope) (aop : AtomOp) (off : BitVec 16) : RoundTrip.Statement (.red h a b spc sz ord sc aop off) := fun hl =>
  .inr (roundTrip_of (r := ⟨wRRR h 0x36 0 a b, wXM spc sz ord sc (BitVec.ofNat 4 aop.code) true off, 0⟩) decRed (by
    unfold selectRow
    rw [major_wRRR, nr_wXM]
    rfl) (by
    simp (disch := decide) only [decRed, h_wRRR, d_wRRR, a_wRRR, b_wRRR, sp_wXM, sz_wXM, ord_wXM, sc_wXM, off_wXM, xm_listed, Raw.aopName, aop_wXM, aop_code, Option.getD_some]) (by
    simp (disch := decide) only [decRed, h_wRRR, d_wRRR, a_wRRR, b_wRRR, sp_wXM, sz_wXM, ord_wXM, sc_wXM, off_wXM, xm_listed, Raw.aopName, aop_wXM, aop_code, Option.getD_some, List.any_cons, List.any_nil, bne_self_eq_false, Bool.or_false, Option.isNone_some, zero_bits]) hl)
theorem RoundTrip.fence (h : Head) (d : Reg) (a : Reg) : RoundTrip.Statement (.fence h d a) := fun hl =>
  .inr (roundTrip_of (r := ⟨wRRR h 0x37 d a 0, 0, 0⟩) decFence (by
    unfold selectRow
    rw [major_wRRR, b_wRRR]
    rfl) (by
    simp (disch := decide) only [decFence, h_wRRR, d_wRRR, a_wRRR]) rfl hl)
theorem RoundTrip.efence (h : Head) : RoundTrip.Statement (.efence h) := fun hl =>
  .inr (roundTrip_of (r := ⟨wRRR h 0x37 0 0 1, 0, 0⟩) decEfence (by
    unfold selectRow
    rw [major_wRRR, b_wRRR]
    rfl) (by
    simp (disch := decide) only [decEfence, h_wRRR, d_wRRR, a_wRRR]) (by
    simp (disch := decide) only [decEfence, h_wRRR, d_wRRR, a_wRRR, List.any_cons, List.any_nil, bne_self_eq_false, Bool.or_false, Option.isNone_some, zero_bits]) hl)
theorem RoundTrip.cpasync (h : Head) (d : Reg) (a : Reg) (b : Reg) (c : Reg) (bar : Bool) (ssp : Space) (dsp : Space) : RoundTrip.Statement (.cpasync h d a b c bar ssp dsp) := fun hl =>
  .inr (roundTrip_of (r := ⟨wRRR h 0x38 d a b, wXW c 0 0 0 (0#6 ++ BitVec.ofBool bar ++ BitVec.ofNat 3 ssp.code ++ BitVec.ofNat 3 dsp.code), 0⟩) decCpasync (by
    unfold selectRow
    rw [major_wRRR, fn_wXW]
    rfl) (by
    simp (disch := decide) only [decCpasync, h_wRRR, d_wRRR, a_wRRR, b_wRRR, c_wXW, ty_wXW, rnd_wXW, mods_wXW, space_code, Option.getD_some, BitVec.extractLsb, ext_left, ext_right, ext_all, lsb_left, lsb_right, lsb_bool, Nat.reduceSub]) (by
    simp (disch := decide) only [decCpasync, h_wRRR, d_wRRR, a_wRRR, b_wRRR, c_wXW, ty_wXW, rnd_wXW, mods_wXW, space_code, Option.getD_some, BitVec.extractLsb, ext_left, ext_right, ext_all, lsb_left, lsb_right, lsb_bool, Nat.reduceSub, mask_1f80, List.any_cons, List.any_nil, bne_self_eq_false, Bool.or_false, Option.isNone_some, zero_bits]) hl)
theorem RoundTrip.gath (h : Head) (d : Reg) (a : Reg) (b : Reg) (c : Reg) (ssp : Space) (fmt : Fmt) (toq : Bool) : RoundTrip.Statement (.gath h d a b c ssp fmt toq) := fun hl =>
  .inr (roundTrip_of (r := ⟨wRRR h 0x38 d a b, wXW c 1 0 0 (0#4 ++ BitVec.ofNat 3 ssp.code ++ BitVec.ofNat 5 fmt.code ++ BitVec.ofBool toq), 0⟩) decGath (by
    unfold selectRow
    rw [major_wRRR, fn_wXW]
    rfl) (by
    simp (disch := decide) only [decGath, h_wRRR, d_wRRR, a_wRRR, b_wRRR, c_wXW, ty_wXW, rnd_wXW, mods_wXW, space_code, fmt_code, Option.getD_some, BitVec.extractLsb, ext_left, ext_right, ext_all, lsb_left, lsb_right, lsb_bool, Nat.reduceSub]) (by
    simp (disch := decide) only [decGath, h_wRRR, d_wRRR, a_wRRR, b_wRRR, c_wXW, ty_wXW, rnd_wXW, mods_wXW, space_code, fmt_code, Option.getD_some, BitVec.extractLsb, ext_left, ext_right, ext_all, lsb_left, lsb_right, lsb_bool, Nat.reduceSub, mask_1e00, List.any_cons, List.any_nil, bne_self_eq_false, Bool.or_false, Option.isNone_some, zero_bits]) hl)
theorem RoundTrip.waitc (h : Head) (n : BitVec 8) (mask : BitVec 4) : RoundTrip.Statement (.waitc h n mask) := fun hl =>
  .inr (roundTrip_of (r := ⟨wRRR h 0x39 0 0 0, wXW 0 0 0 0 (0#1 ++ n ++ mask), 0⟩) decWaitc (by
    unfold selectRow
    rw [major_wRRR, fn_wXW]
    rfl) (by
    simp (disch := decide) only [decWaitc, h_wRRR, d_wRRR, a_wRRR, b_wRRR, c_wXW, ty_wXW, rnd_wXW, mods_wXW, BitVec.extractLsb, ext_left, ext_right, ext_all, lsb_left, lsb_right, lsb_bool, Nat.reduceSub]) (by
    simp (disch := decide) only [decWaitc, h_wRRR, d_wRRR, a_wRRR, b_wRRR, c_wXW, ty_wXW, rnd_wXW, mods_wXW, BitVec.extractLsb, ext_left, ext_right, ext_all, lsb_left, lsb_right, lsb_bool, Nat.reduceSub, mask_1000, List.any_cons, List.any_nil, bne_self_eq_false, Bool.or_false, Option.isNone_some, zero_bits]) hl)
theorem RoundTrip.ftest (h : Head) (d : Reg) (a : Reg) : RoundTrip.Statement (.ftest h d a) := fun hl =>
  .inr (roundTrip_of (r := ⟨wRRR h 0x39 d a 0, wXW 0 1 0 0 0, 0⟩) decFtest (by
    unfold selectRow
    rw [major_wRRR, fn_wXW]
    rfl) (by
    simp (disch := decide) only [decFtest, h_wRRR, d_wRRR, a_wRRR, b_wRRR, c_wXW, ty_wXW, rnd_wXW, mods_wXW]) (by
    simp (disch := decide) only [decFtest, h_wRRR, d_wRRR, a_wRRR, b_wRRR, c_wXW, ty_wXW, rnd_wXW, mods_wXW, mask_1fff, ext_left, ext_right, ext_all, Nat.reduceSub, List.any_cons, List.any_nil, bne_self_eq_false, Bool.or_false, Option.isNone_some, zero_bits]) hl)
theorem RoundTrip.fcancel (h : Head) (d : Reg) (a : Reg) : RoundTrip.Statement (.fcancel h d a) := fun hl =>
  .inr (roundTrip_of (r := ⟨wRRR h 0x39 d a 0, wXW 0 2 0 0 0, 0⟩) decFcancel (by
    unfold selectRow
    rw [major_wRRR, fn_wXW]
    rfl) (by
    simp (disch := decide) only [decFcancel, h_wRRR, d_wRRR, a_wRRR, b_wRRR, c_wXW, ty_wXW, rnd_wXW, mods_wXW]) (by
    simp (disch := decide) only [decFcancel, h_wRRR, d_wRRR, a_wRRR, b_wRRR, c_wXW, ty_wXW, rnd_wXW, mods_wXW, mask_1fff, ext_left, ext_right, ext_all, Nat.reduceSub, List.any_cons, List.any_nil, bne_self_eq_false, Bool.or_false, Option.isNone_some, zero_bits]) hl)
theorem RoundTrip.oqpop (h : Head) (d : Reg) (a : Reg) (n : BitVec 5) : RoundTrip.Statement (.oqpop h d a n) := fun hl =>
  .inr (roundTrip_of (r := ⟨wRRR h 0x39 d a 0, wXW 0 3 0 0 (0#8 ++ n), 0⟩) decOqpop (by
    unfold selectRow
    rw [major_wRRR, fn_wXW]
    rfl) (by
    simp (disch := decide) only [decOqpop, h_wRRR, d_wRRR, a_wRRR, b_wRRR, c_wXW, ty_wXW, rnd_wXW, mods_wXW, BitVec.extractLsb, ext_left, ext_right, ext_all, lsb_left, lsb_right, lsb_bool, Nat.reduceSub]) (by
    simp (disch := decide) only [decOqpop, h_wRRR, d_wRRR, a_wRRR, b_wRRR, c_wXW, ty_wXW, rnd_wXW, mods_wXW, BitVec.extractLsb, ext_left, ext_right, ext_all, lsb_left, lsb_right, lsb_bool, Nat.reduceSub, mask_1fe0, List.any_cons, List.any_nil, bne_self_eq_false, Bool.or_false, Option.isNone_some, zero_bits]) hl)
theorem RoundTrip.oqrel (h : Head) (a : Reg) : RoundTrip.Statement (.oqrel h a) := fun hl =>
  .inr (roundTrip_of (r := ⟨wRRR h 0x39 0 a 0, wXW 0 4 0 0 0, 0⟩) decOqrel (by
    unfold selectRow
    rw [major_wRRR, fn_wXW]
    rfl) (by
    simp (disch := decide) only [decOqrel, h_wRRR, d_wRRR, a_wRRR, b_wRRR, c_wXW, ty_wXW, rnd_wXW, mods_wXW]) (by
    simp (disch := decide) only [decOqrel, h_wRRR, d_wRRR, a_wRRR, b_wRRR, c_wXW, ty_wXW, rnd_wXW, mods_wXW, mask_1fff, ext_left, ext_right, ext_all, Nat.reduceSub, List.any_cons, List.any_nil, bne_self_eq_false, Bool.or_false, Option.isNone_some, zero_bits]) hl)
theorem RoundTrip.aslice (h : Head) (d : Reg) (a : Reg) (hd : Bool) : RoundTrip.Statement (.aslice h d a hd) := fun hl =>
  .inr (roundTrip_of (r := ⟨wRRR h 0x39 d a 0, wXW 0 5 0 0 (0#12 ++ BitVec.ofBool hd), 0⟩) decAslice (by
    unfold selectRow
    rw [major_wRRR, fn_wXW]
    rfl) (by
    simp (disch := decide) only [decAslice, h_wRRR, d_wRRR, a_wRRR, b_wRRR, c_wXW, ty_wXW, rnd_wXW, mods_wXW, BitVec.extractLsb, ext_left, ext_right, ext_all, lsb_left, lsb_right, lsb_bool, Nat.reduceSub]) (by
    simp (disch := decide) only [decAslice, h_wRRR, d_wRRR, a_wRRR, b_wRRR, c_wXW, ty_wXW, rnd_wXW, mods_wXW, BitVec.extractLsb, ext_left, ext_right, ext_all, lsb_left, lsb_right, lsb_bool, Nat.reduceSub, mask_1ffe, List.any_cons, List.any_nil, bne_self_eq_false, Bool.or_false, Option.isNone_some, zero_bits]) hl)
theorem RoundTrip.astop (h : Head) : RoundTrip.Statement (.astop h) := fun hl =>
  .inr (roundTrip_of (r := ⟨wRRR h 0x39 0 0 0, wXW 0 6 0 0 0, 0⟩) decAstop (by
    unfold selectRow
    rw [major_wRRR, fn_wXW]
    rfl) (by
    simp (disch := decide) only [decAstop, h_wRRR, d_wRRR, a_wRRR, b_wRRR, c_wXW, ty_wXW, rnd_wXW, mods_wXW]) (by
    simp (disch := decide) only [decAstop, h_wRRR, d_wRRR, a_wRRR, b_wRRR, c_wXW, ty_wXW, rnd_wXW, mods_wXW, mask_1fff, ext_left, ext_right, ext_all, Nat.reduceSub, List.any_cons, List.any_nil, bne_self_eq_false, Bool.or_false, Option.isNone_some, zero_bits]) hl)
theorem RoundTrip.ploop (h : Head) (a : Reg) (last : BitVec 13) : RoundTrip.Statement (.ploop h a last) := fun hl =>
  .inr (roundTrip_of (r := ⟨wRRR h 0x39 0 a 0, wXW 0 7 0 0 (last), 0⟩) decPloop (by
    unfold selectRow
    rw [major_wRRR, fn_wXW]
    rfl) (by
    simp (disch := decide) only [decPloop, h_wRRR, d_wRRR, a_wRRR, b_wRRR, c_wXW, ty_wXW, rnd_wXW, mods_wXW, BitVec.extractLsb, ext_left, ext_right, ext_all, lsb_left, lsb_right, lsb_bool, Nat.reduceSub]) (by
    simp (disch := decide) only [decPloop, h_wRRR, d_wRRR, a_wRRR, b_wRRR, c_wXW, ty_wXW, rnd_wXW, mods_wXW, BitVec.extractLsb, ext_left, ext_right, ext_all, lsb_left, lsb_right, lsb_bool, Nat.reduceSub, List.any_cons, List.any_nil, bne_self_eq_false, Bool.or_false, Option.isNone_some, zero_bits]) hl)
theorem RoundTrip.afeed (h : Head) (d : Reg) (a : Reg) (b : Reg) (m : BitVec 11) (kind : FeedKind) : RoundTrip.Statement (.afeed h d a b m kind) := fun hl =>
  .inr (roundTrip_of (r := ⟨wRRR h 0x39 d a b, wXW 0 8 0 0 (m ++ BitVec.ofNat 2 kind.code), 0⟩) decAfeed (by
    unfold selectRow
    rw [major_wRRR, fn_wXW]
    rfl) (by
    simp (disch := decide) only [decAfeed, h_wRRR, d_wRRR, a_wRRR, b_wRRR, c_wXW, ty_wXW, rnd_wXW, mods_wXW, feed_code, Option.getD_some, BitVec.extractLsb, ext_left, ext_right, ext_all, lsb_left, lsb_right, lsb_bool, Nat.reduceSub]) (by
    simp (disch := decide) only [decAfeed, h_wRRR, d_wRRR, a_wRRR, b_wRRR, c_wXW, ty_wXW, rnd_wXW, mods_wXW, feed_code, Option.getD_some, BitVec.extractLsb, ext_left, ext_right, ext_all, lsb_left, lsb_right, lsb_bool, Nat.reduceSub, List.any_cons, List.any_nil, bne_self_eq_false, Bool.or_false, Option.isNone_some, zero_bits]) hl)
theorem RoundTrip.pwait (h : Head) (d : Reg) (n : BitVec 6) : RoundTrip.Statement (.pwait h d n) := fun hl =>
  .inr (roundTrip_of (r := ⟨wRRR h 0x39 d 0 0, wXW 0 9 0 0 (0#7 ++ n), 0⟩) decPwait (by
    unfold selectRow
    rw [major_wRRR, fn_wXW]
    rfl) (by
    simp (disch := decide) only [decPwait, h_wRRR, d_wRRR, a_wRRR, b_wRRR, c_wXW, ty_wXW, rnd_wXW, mods_wXW, BitVec.extractLsb, ext_left, ext_right, ext_all, lsb_left, lsb_right, lsb_bool, Nat.reduceSub]) (by
    simp (disch := decide) only [decPwait, h_wRRR, d_wRRR, a_wRRR, b_wRRR, c_wXW, ty_wXW, rnd_wXW, mods_wXW, BitVec.extractLsb, ext_left, ext_right, ext_all, lsb_left, lsb_right, lsb_bool, Nat.reduceSub, mask_1fc0, List.any_cons, List.any_nil, bne_self_eq_false, Bool.or_false, Option.isNone_some, zero_bits]) hl)
theorem RoundTrip.barinit (h : Head) (a : Reg) (b : Reg) : RoundTrip.Statement (.barinit h a b) := fun hl =>
  .inr (roundTrip_of (r := ⟨wRRR h 0x3a 0 a b, wXW 0 0 0 0 0, 0⟩) decBarinit (by
    unfold selectRow
    rw [major_wRRR, fn_wXW]
    rfl) (by
    simp (disch := decide) only [decBarinit, h_wRRR, d_wRRR, a_wRRR, b_wRRR, c_wXW, ty_wXW, rnd_wXW, mods_wXW]) (by
    simp (disch := decide) only [decBarinit, h_wRRR, d_wRRR, a_wRRR, b_wRRR, c_wXW, ty_wXW, rnd_wXW, mods_wXW, mask_1fff, ext_left, ext_right, ext_all, Nat.reduceSub, List.any_cons, List.any_nil, bne_self_eq_false, Bool.or_false, Option.isNone_some, zero_bits]) hl)
theorem RoundTrip.bararr (h : Head) (a : Reg) : RoundTrip.Statement (.bararr h a) := fun hl =>
  .inr (roundTrip_of (r := ⟨wRRR h 0x3a 0 a 0, wXW 0 1 0 0 0, 0⟩) decBararr (by
    unfold selectRow
    rw [major_wRRR, fn_wXW]
    rfl) (by
    simp (disch := decide) only [decBararr, h_wRRR, d_wRRR, a_wRRR, b_wRRR, c_wXW, ty_wXW, rnd_wXW, mods_wXW]) (by
    simp (disch := decide) only [decBararr, h_wRRR, d_wRRR, a_wRRR, b_wRRR, c_wXW, ty_wXW, rnd_wXW, mods_wXW, mask_1fff, ext_left, ext_right, ext_all, Nat.reduceSub, List.any_cons, List.any_nil, bne_self_eq_false, Bool.or_false, Option.isNone_some, zero_bits]) hl)
theorem RoundTrip.barwt (h : Head) (a : Reg) (b : Reg) : RoundTrip.Statement (.barwt h a b) := fun hl =>
  .inr (roundTrip_of (r := ⟨wRRR h 0x3a 0 a b, wXW 0 2 0 0 0, 0⟩) decBarwt (by
    unfold selectRow
    rw [major_wRRR, fn_wXW]
    rfl) (by
    simp (disch := decide) only [decBarwt, h_wRRR, d_wRRR, a_wRRR, b_wRRR, c_wXW, ty_wXW, rnd_wXW, mods_wXW]) (by
    simp (disch := decide) only [decBarwt, h_wRRR, d_wRRR, a_wRRR, b_wRRR, c_wXW, ty_wXW, rnd_wXW, mods_wXW, mask_1fff, ext_left, ext_right, ext_all, Nat.reduceSub, List.any_cons, List.any_nil, bne_self_eq_false, Bool.or_false, Option.isNone_some, zero_bits]) hl)
theorem RoundTrip.barst (h : Head) (d : Reg) (a : Reg) : RoundTrip.Statement (.barst h d a) := fun hl =>
  .inr (roundTrip_of (r := ⟨wRRR h 0x3a d a 0, wXW 0 3 0 0 0, 0⟩) decBarst (by
    unfold selectRow
    rw [major_wRRR, fn_wXW]
    rfl) (by
    simp (disch := decide) only [decBarst, h_wRRR, d_wRRR, a_wRRR, b_wRRR, c_wXW, ty_wXW, rnd_wXW, mods_wXW]) (by
    simp (disch := decide) only [decBarst, h_wRRR, d_wRRR, a_wRRR, b_wRRR, c_wXW, ty_wXW, rnd_wXW, mods_wXW, mask_1fff, ext_left, ext_right, ext_all, Nat.reduceSub, List.any_cons, List.any_nil, bne_self_eq_false, Bool.or_false, Option.isNone_some, zero_bits]) hl)
theorem RoundTrip.cvdecl (h : Head) (c : Reg) (n : Reg) : RoundTrip.Statement (.cvdecl h c n) := fun hl =>
  .inr (roundTrip_of (r := ⟨wRRR h 0x3a 0 0 0, wXW c 4 0 0 (0#6 ++ n), 0⟩) decCvdecl (by
    unfold selectRow
    rw [major_wRRR, fn_wXW]
    rfl) (by
    simp (disch := decide) only [decCvdecl, h_wRRR, d_wRRR, a_wRRR, b_wRRR, c_wXW, ty_wXW, rnd_wXW, mods_wXW, BitVec.extractLsb, ext_left, ext_right, ext_all, lsb_left, lsb_right, lsb_bool, Nat.reduceSub]) (by
    simp (disch := decide) only [decCvdecl, h_wRRR, d_wRRR, a_wRRR, b_wRRR, c_wXW, ty_wXW, rnd_wXW, mods_wXW, BitVec.extractLsb, ext_left, ext_right, ext_all, lsb_left, lsb_right, lsb_bool, Nat.reduceSub, mask_1f80, List.any_cons, List.any_nil, bne_self_eq_false, Bool.or_false, Option.isNone_some, zero_bits]) hl)
theorem RoundTrip.mma (h : Head) (d : Reg) (a : Reg) (b : Reg) (c : Reg) (sc : Bool) (s32 : Bool) (fr : Bool) (spSrc : Bool) (reuse : Bool) (x : Bool) (fmt : Fmt) (hreg : Reg) (hd : Bool) (ssel : BitVec 2) (sreg : Reg) : RoundTrip.Statement (.mma h d a b c sc s32 fr spSrc reuse x fmt hreg hd ssel sreg) := fun hl =>
  .inr (roundTrip_of (r := ⟨wRRR h 0x3b d a b, wXW c 0 0 0 (0#2 ++ BitVec.ofBool sc ++ BitVec.ofBool s32 ++ BitVec.ofBool fr ++ BitVec.ofBool spSrc ++ BitVec.ofBool reuse ++ BitVec.ofBool x ++ BitVec.ofNat 5 fmt.code), (0#15 ++ hreg ++ BitVec.ofBool hd ++ ssel ++ sreg)⟩) decMma (by
    unfold selectRow
    rw [major_wRRR, fn_wXW]
    rfl) (by
    simp (disch := decide) only [decMma, h_wRRR, d_wRRR, a_wRRR, b_wRRR, c_wXW, ty_wXW, rnd_wXW, mods_wXW, fmt_code, Option.getD_some, BitVec.extractLsb, ext_left, ext_right, ext_all, lsb_left, lsb_right, lsb_bool, Nat.reduceSub]) (by
    simp (disch := decide) only [decMma, h_wRRR, d_wRRR, a_wRRR, b_wRRR, c_wXW, ty_wXW, rnd_wXW, mods_wXW, fmt_code, Option.getD_some, BitVec.extractLsb, ext_left, ext_right, ext_all, lsb_left, lsb_right, lsb_bool, Nat.reduceSub, mask_1800, List.any_cons, List.any_nil, bne_self_eq_false, Bool.or_false, Option.isNone_some, zero_bits]) hl)
theorem RoundTrip.accz (h : Head) (d : Reg) : RoundTrip.Statement (.accz h d) := fun hl =>
  .inr (roundTrip_of (r := ⟨wRRR h 0x3b d 0 0, wXW 0 1 0 0 0, 0⟩) decAccz (by
    unfold selectRow
    rw [major_wRRR, fn_wXW]
    rfl) (by
    simp (disch := decide) only [decAccz, h_wRRR, d_wRRR, a_wRRR, b_wRRR, c_wXW, ty_wXW, rnd_wXW, mods_wXW]) (by
    simp (disch := decide) only [decAccz, h_wRRR, d_wRRR, a_wRRR, b_wRRR, c_wXW, ty_wXW, rnd_wXW, mods_wXW, mask_1fff, ext_left, ext_right, ext_all, Nat.reduceSub, List.any_cons, List.any_nil, bne_self_eq_false, Bool.or_false, Option.isNone_some, zero_bits]) hl)
theorem RoundTrip.accld (h : Head) (d : Reg) (a : Reg) (spc : Space) : RoundTrip.Statement (.accld h d a spc) := fun hl =>
  .inr (roundTrip_of (r := ⟨wRRR h 0x3b d a 0, wXW 0 2 8 0 (0#10 ++ BitVec.ofNat 3 spc.code), 0⟩) decAccld (by
    unfold selectRow
    rw [major_wRRR, fn_wXW]
    rfl) (by
    simp (disch := decide) only [decAccld, h_wRRR, d_wRRR, a_wRRR, b_wRRR, c_wXW, ty_wXW, rnd_wXW, mods_wXW, space_code, Option.getD_some, BitVec.extractLsb, ext_left, ext_right, ext_all, lsb_left, lsb_right, lsb_bool, Nat.reduceSub]) (by
    simp (disch := decide) only [decAccld, h_wRRR, d_wRRR, a_wRRR, b_wRRR, c_wXW, ty_wXW, rnd_wXW, mods_wXW, space_code, Option.getD_some, BitVec.extractLsb, ext_left, ext_right, ext_all, lsb_left, lsb_right, lsb_bool, Nat.reduceSub, mask_1ff8, List.any_cons, List.any_nil, bne_self_eq_false, Bool.or_false, Option.isNone_some, zero_bits]) hl)
theorem RoundTrip.accst (h : Head) (d : Reg) (a : Reg) (b : Reg) (rnd : Rnd) (spc : Space) (adj : Bool) (fmt : Fmt) : RoundTrip.Statement (.accst h d a b rnd spc adj fmt) := fun hl =>
  .inr (roundTrip_of (r := ⟨wRRR h 0x3b d a b, wXW 0 3 0 (BitVec.ofNat 3 rnd.code) (0#4 ++ BitVec.ofNat 3 spc.code ++ BitVec.ofBool adj ++ BitVec.ofNat 5 fmt.code), 0⟩) decAccst (by
    unfold selectRow
    rw [major_wRRR, fn_wXW]
    rfl) (by
    simp (disch := decide) only [decAccst, h_wRRR, d_wRRR, a_wRRR, b_wRRR, c_wXW, ty_wXW, mods_wXW, Raw.rndName, rnd_wXW, Raw.rndBad, rnd_code, space_code, fmt_code, Option.getD_some, BitVec.extractLsb, ext_left, ext_right, ext_all, lsb_left, lsb_right, lsb_bool, Nat.reduceSub]) (by
    simp (disch := decide) only [decAccst, h_wRRR, d_wRRR, a_wRRR, b_wRRR, c_wXW, ty_wXW, mods_wXW, Raw.rndName, rnd_wXW, Raw.rndBad, rnd_code, space_code, fmt_code, Option.getD_some, BitVec.extractLsb, ext_left, ext_right, ext_all, lsb_left, lsb_right, lsb_bool, Nat.reduceSub, mask_1e00, List.any_cons, List.any_nil, bne_self_eq_false, Bool.or_false, Option.isNone_some, zero_bits]) hl)
theorem RoundTrip.accrd (h : Head) (d : Reg) (a : Reg) (b : Reg) : RoundTrip.Statement (.accrd h d a b) := fun hl =>
  .inr (roundTrip_of (r := ⟨wRRR h 0x3b d a b, wXW 0 4 0 0 0, 0⟩) decAccrd (by
    unfold selectRow
    rw [major_wRRR, fn_wXW]
    rfl) (by
    simp (disch := decide) only [decAccrd, h_wRRR, d_wRRR, a_wRRR, b_wRRR, c_wXW, ty_wXW, rnd_wXW, mods_wXW]) (by
    simp (disch := decide) only [decAccrd, h_wRRR, d_wRRR, a_wRRR, b_wRRR, c_wXW, ty_wXW, rnd_wXW, mods_wXW, mask_1fff, ext_left, ext_right, ext_all, Nat.reduceSub, List.any_cons, List.any_nil, bne_self_eq_false, Bool.or_false, Option.isNone_some, zero_bits]) hl)
theorem RoundTrip.qpush (h : Head) (d : Reg) (a : Reg) (b : Reg) (prio : BitVec 8) (t : Bool) (n : BitVec 3) : RoundTrip.Statement (.qpush h d a b prio t n) := fun hl =>
  .inr (roundTrip_of (r := ⟨wRRR h 0x3c d a b, wXW 0 0 0 0 (0#1 ++ prio ++ BitVec.ofBool t ++ n), 0⟩) decQpush (by
    unfold selectRow
    rw [major_wRRR, fn_wXW]
    rfl) (by
    simp (disch := decide) only [decQpush, h_wRRR, d_wRRR, a_wRRR, b_wRRR, c_wXW, ty_wXW, rnd_wXW, mods_wXW, BitVec.extractLsb, ext_left, ext_right, ext_all, lsb_left, lsb_right, lsb_bool, Nat.reduceSub]) (by
    simp (disch := decide) only [decQpush, h_wRRR, d_wRRR, a_wRRR, b_wRRR, c_wXW, ty_wXW, rnd_wXW, mods_wXW, BitVec.extractLsb, ext_left, ext_right, ext_all, lsb_left, lsb_right, lsb_bool, Nat.reduceSub, mask_1000, List.any_cons, List.any_nil, bne_self_eq_false, Bool.or_false, Option.isNone_some, zero_bits]) hl)
theorem RoundTrip.qpop (h : Head) (d : Reg) (a : Reg) (n : BitVec 3) : RoundTrip.Statement (.qpop h d a n) := fun hl =>
  .inr (roundTrip_of (r := ⟨wRRR h 0x3c d a 0, wXW 0 1 0 0 (0#10 ++ n), 0⟩) decQpop (by
    unfold selectRow
    rw [major_wRRR, fn_wXW]
    rfl) (by
    simp (disch := decide) only [decQpop, h_wRRR, d_wRRR, a_wRRR, b_wRRR, c_wXW, ty_wXW, rnd_wXW, mods_wXW, BitVec.extractLsb, ext_left, ext_right, ext_all, lsb_left, lsb_right, lsb_bool, Nat.reduceSub]) (by
    simp (disch := decide) only [decQpop, h_wRRR, d_wRRR, a_wRRR, b_wRRR, c_wXW, ty_wXW, rnd_wXW, mods_wXW, BitVec.extractLsb, ext_left, ext_right, ext_all, lsb_left, lsb_right, lsb_bool, Nat.reduceSub, mask_1ff8, List.any_cons, List.any_nil, bne_self_eq_false, Bool.or_false, Option.isNone_some, zero_bits]) hl)
theorem RoundTrip.qpeek (h : Head) (d : Reg) (a : Reg) (c : Reg) (n : BitVec 3) : RoundTrip.Statement (.qpeek h d a c n) := fun hl =>
  .inr (roundTrip_of (r := ⟨wRRR h 0x3c d a 0, wXW c 2 0 0 (0#10 ++ n), 0⟩) decQpeek (by
    unfold selectRow
    rw [major_wRRR, fn_wXW]
    rfl) (by
    simp (disch := decide) only [decQpeek, h_wRRR, d_wRRR, a_wRRR, b_wRRR, c_wXW, ty_wXW, rnd_wXW, mods_wXW, BitVec.extractLsb, ext_left, ext_right, ext_all, lsb_left, lsb_right, lsb_bool, Nat.reduceSub]) (by
    simp (disch := decide) only [decQpeek, h_wRRR, d_wRRR, a_wRRR, b_wRRR, c_wXW, ty_wXW, rnd_wXW, mods_wXW, BitVec.extractLsb, ext_left, ext_right, ext_all, lsb_left, lsb_right, lsb_bool, Nat.reduceSub, mask_1ff8, List.any_cons, List.any_nil, bne_self_eq_false, Bool.or_false, Option.isNone_some, zero_bits]) hl)
theorem RoundTrip.qcnt (h : Head) (d : Reg) (a : Reg) : RoundTrip.Statement (.qcnt h d a) := fun hl =>
  .inr (roundTrip_of (r := ⟨wRRR h 0x3c d a 0, wXW 0 3 0 0 0, 0⟩) decQcnt (by
    unfold selectRow
    rw [major_wRRR, fn_wXW]
    rfl) (by
    simp (disch := decide) only [decQcnt, h_wRRR, d_wRRR, a_wRRR, b_wRRR, c_wXW, ty_wXW, rnd_wXW, mods_wXW]) (by
    simp (disch := decide) only [decQcnt, h_wRRR, d_wRRR, a_wRRR, b_wRRR, c_wXW, ty_wXW, rnd_wXW, mods_wXW, mask_1fff, ext_left, ext_right, ext_all, Nat.reduceSub, List.any_cons, List.any_nil, bne_self_eq_false, Bool.or_false, Option.isNone_some, zero_bits]) hl)
theorem RoundTrip.dcarm (h : Head) (a : Reg) (b : Reg) (c : Reg) (q : Reg) : RoundTrip.Statement (.dcarm h a b c q) := fun hl =>
  .inr (roundTrip_of (r := ⟨wRRR h 0x3c 0 a b, wXW c 4 0 0 (0#6 ++ q), 0⟩) decDcarm (by
    unfold selectRow
    rw [major_wRRR, fn_wXW]
    rfl) (by
    simp (disch := decide) only [decDcarm, h_wRRR, d_wRRR, a_wRRR, b_wRRR, c_wXW, ty_wXW, rnd_wXW, mods_wXW, BitVec.extractLsb, ext_left, ext_right, ext_all, lsb_left, lsb_right, lsb_bool, Nat.reduceSub]) (by
    simp (disch := decide) only [decDcarm, h_wRRR, d_wRRR, a_wRRR, b_wRRR, c_wXW, ty_wXW, rnd_wXW, mods_wXW, BitVec.extractLsb, ext_left, ext_right, ext_all, lsb_left, lsb_right, lsb_bool, Nat.reduceSub, mask_1f80, List.any_cons, List.any_nil, bne_self_eq_false, Bool.or_false, Option.isNone_some, zero_bits]) hl)
theorem RoundTrip.dcdec (h : Head) (a : Reg) : RoundTrip.Statement (.dcdec h a) := fun hl =>
  .inr (roundTrip_of (r := ⟨wRRR h 0x3c 0 a 0, wXW 0 5 0 0 0, 0⟩) decDcdec (by
    unfold selectRow
    rw [major_wRRR, fn_wXW]
    rfl) (by
    simp (disch := decide) only [decDcdec, h_wRRR, d_wRRR, a_wRRR, b_wRRR, c_wXW, ty_wXW, rnd_wXW, mods_wXW]) (by
    simp (disch := decide) only [decDcdec, h_wRRR, d_wRRR, a_wRRR, b_wRRR, c_wXW, ty_wXW, rnd_wXW, mods_wXW, mask_1fff, ext_left, ext_right, ext_all, Nat.reduceSub, List.any_cons, List.any_nil, bne_self_eq_false, Bool.or_false, Option.isNone_some, zero_bits]) hl)
theorem RoundTrip.trig (h : Head) : RoundTrip.Statement (.trig h) := fun hl =>
  .inr (roundTrip_of (r := ⟨wRRR h 0x3c 0 0 0, wXW 0 6 0 0 0, 0⟩) decTrig (by
    unfold selectRow
    rw [major_wRRR, fn_wXW]
    rfl) (by
    simp (disch := decide) only [decTrig, h_wRRR, d_wRRR, a_wRRR, b_wRRR, c_wXW, ty_wXW, rnd_wXW, mods_wXW]) (by
    simp (disch := decide) only [decTrig, h_wRRR, d_wRRR, a_wRRR, b_wRRR, c_wXW, ty_wXW, rnd_wXW, mods_wXW, mask_1fff, ext_left, ext_right, ext_all, Nat.reduceSub, List.any_cons, List.any_nil, bne_self_eq_false, Bool.or_false, Option.isNone_some, zero_bits]) hl)
theorem RoundTrip.dwait (h : Head) (d : Reg) : RoundTrip.Statement (.dwait h d) := fun hl =>
  .inr (roundTrip_of (r := ⟨wRRR h 0x3c d 0 0, wXW 0 7 0 0 0, 0⟩) decDwait (by
    unfold selectRow
    rw [major_wRRR, fn_wXW]
    rfl) (by
    simp (disch := decide) only [decDwait, h_wRRR, d_wRRR, a_wRRR, b_wRRR, c_wXW, ty_wXW, rnd_wXW, mods_wXW]) (by
    simp (disch := decide) only [decDwait, h_wRRR, d_wRRR, a_wRRR, b_wRRR, c_wXW, ty_wXW, rnd_wXW, mods_wXW, mask_1fff, ext_left, ext_right, ext_all, Nat.reduceSub, List.any_cons, List.any_nil, bne_self_eq_false, Bool.or_false, Option.isNone_some, zero_bits]) hl)
theorem RoundTrip.beat (h : Head) : RoundTrip.Statement (.beat h) := fun hl =>
  .inr (roundTrip_of (r := ⟨wRRR h 0x3c 0 0 0, wXW 0 8 0 0 0, 0⟩) decBeat (by
    unfold selectRow
    rw [major_wRRR, fn_wXW]
    rfl) (by
    simp (disch := decide) only [decBeat, h_wRRR, d_wRRR, a_wRRR, b_wRRR, c_wXW, ty_wXW, rnd_wXW, mods_wXW]) (by
    simp (disch := decide) only [decBeat, h_wRRR, d_wRRR, a_wRRR, b_wRRR, c_wXW, ty_wXW, rnd_wXW, mods_wXW, mask_1fff, ext_left, ext_right, ext_all, Nat.reduceSub, List.any_cons, List.any_nil, bne_self_eq_false, Bool.or_false, Option.isNone_some, zero_bits]) hl)
theorem RoundTrip.evpost (h : Head) (a : Reg) : RoundTrip.Statement (.evpost h a) := fun hl =>
  .inr (roundTrip_of (r := ⟨wRRR h 0x3c 0 a 0, wXW 0 9 0 0 0, 0⟩) decEvpost (by
    unfold selectRow
    rw [major_wRRR, fn_wXW]
    rfl) (by
    simp (disch := decide) only [decEvpost, h_wRRR, d_wRRR, a_wRRR, b_wRRR, c_wXW, ty_wXW, rnd_wXW, mods_wXW]) (by
    simp (disch := decide) only [decEvpost, h_wRRR, d_wRRR, a_wRRR, b_wRRR, c_wXW, ty_wXW, rnd_wXW, mods_wXW, mask_1fff, ext_left, ext_right, ext_all, Nat.reduceSub, List.any_cons, List.any_nil, bne_self_eq_false, Bool.or_false, Option.isNone_some, zero_bits]) hl)
theorem RoundTrip.evpop (h : Head) (d : Reg) (nb : Bool) : RoundTrip.Statement (.evpop h d nb) := fun hl =>
  .inr (roundTrip_of (r := ⟨wRRR h 0x3c d 0 0, wXW 0 10 0 0 (0#12 ++ BitVec.ofBool nb), 0⟩) decEvpop (by
    unfold selectRow
    rw [major_wRRR, fn_wXW]
    rfl) (by
    simp (disch := decide) only [decEvpop, h_wRRR, d_wRRR, a_wRRR, b_wRRR, c_wXW, ty_wXW, rnd_wXW, mods_wXW, BitVec.extractLsb, ext_left, ext_right, ext_all, lsb_left, lsb_right, lsb_bool, Nat.reduceSub]) (by
    simp (disch := decide) only [decEvpop, h_wRRR, d_wRRR, a_wRRR, b_wRRR, c_wXW, ty_wXW, rnd_wXW, mods_wXW, BitVec.extractLsb, ext_left, ext_right, ext_all, lsb_left, lsb_right, lsb_bool, Nat.reduceSub, mask_1ffe, List.any_cons, List.any_nil, bne_self_eq_false, Bool.or_false, Option.isNone_some, zero_bits]) hl)
theorem RoundTrip.guess (h : Head) (d : Reg) (a : Reg) (b : Reg) (c : Reg) (ty : Ty) (aidReg : Reg) (aid : Bool) (loc : Bool) (imm : Bool) (sw : Bool) : RoundTrip.Statement (.guess h d a b c ty aidReg aid loc imm sw) := fun hl =>
  .inr (roundTrip_of (r := ⟨wRRR h 0x3c d a b, wXW c 16 (BitVec.ofNat 4 ty.code) 0 (0#2 ++ aidReg ++ BitVec.ofBool aid ++ BitVec.ofBool loc ++ BitVec.ofBool imm ++ BitVec.ofBool sw), 0⟩) decGuess (by
    unfold selectRow
    rw [major_wRRR, fn_wXW]
    rfl) (by
    simp (disch := decide) only [decGuess, h_wRRR, d_wRRR, a_wRRR, b_wRRR, c_wXW, rnd_wXW, mods_wXW, Raw.tyName, ty_wXW, Raw.tyBad, ty_code, Option.getD_some, BitVec.extractLsb, ext_left, ext_right, ext_all, lsb_left, lsb_right, lsb_bool, Nat.reduceSub]) (by
    simp (disch := decide) only [decGuess, h_wRRR, d_wRRR, a_wRRR, b_wRRR, c_wXW, rnd_wXW, mods_wXW, Raw.tyName, ty_wXW, Raw.tyBad, ty_code, Option.getD_some, BitVec.extractLsb, ext_left, ext_right, ext_all, lsb_left, lsb_right, lsb_bool, Nat.reduceSub, mask_1800, List.any_cons, List.any_nil, bne_self_eq_false, Bool.or_false, Option.isNone_some, zero_bits]) hl)
theorem RoundTrip.affirm (h : Head) (d : Reg) (a : Reg) (hd : Bool) : RoundTrip.Statement (.affirm h d a hd) := fun hl =>
  .inr (roundTrip_of (r := ⟨wRRR h 0x3c d a 0, wXW 0 17 0 0 (0#12 ++ BitVec.ofBool hd), 0⟩) decAffirm (by
    unfold selectRow
    rw [major_wRRR, fn_wXW]
    rfl) (by
    simp (disch := decide) only [decAffirm, h_wRRR, d_wRRR, a_wRRR, b_wRRR, c_wXW, ty_wXW, rnd_wXW, mods_wXW, BitVec.extractLsb, ext_left, ext_right, ext_all, lsb_left, lsb_right, lsb_bool, Nat.reduceSub]) (by
    simp (disch := decide) only [decAffirm, h_wRRR, d_wRRR, a_wRRR, b_wRRR, c_wXW, ty_wXW, rnd_wXW, mods_wXW, BitVec.extractLsb, ext_left, ext_right, ext_all, lsb_left, lsb_right, lsb_bool, Nat.reduceSub, mask_1ffe, List.any_cons, List.any_nil, bne_self_eq_false, Bool.or_false, Option.isNone_some, zero_bits]) hl)
theorem RoundTrip.deny (h : Head) (d : Reg) (a : Reg) (b : Reg) (ty : Ty) (hd : Bool) : RoundTrip.Statement (.deny h d a b ty hd) := fun hl =>
  .inr (roundTrip_of (r := ⟨wRRR h 0x3c d a b, wXW 0 18 (BitVec.ofNat 4 ty.code) 0 (0#12 ++ BitVec.ofBool hd), 0⟩) decDeny (by
    unfold selectRow
    rw [major_wRRR, fn_wXW]
    rfl) (by
    simp (disch := decide) only [decDeny, h_wRRR, d_wRRR, a_wRRR, b_wRRR, c_wXW, rnd_wXW, mods_wXW, Raw.tyName, ty_wXW, Raw.tyBad, ty_code, Option.getD_some, BitVec.extractLsb, ext_left, ext_right, ext_all, lsb_left, lsb_right, lsb_bool, Nat.reduceSub]) (by
    simp (disch := decide) only [decDeny, h_wRRR, d_wRRR, a_wRRR, b_wRRR, c_wXW, rnd_wXW, mods_wXW, Raw.tyName, ty_wXW, Raw.tyBad, ty_code, Option.getD_some, BitVec.extractLsb, ext_left, ext_right, ext_all, lsb_left, lsb_right, lsb_bool, Nat.reduceSub, mask_1ffe, List.any_cons, List.any_nil, bne_self_eq_false, Bool.or_false, Option.isNone_some, zero_bits]) hl)
theorem RoundTrip.tagq (h : Head) (d : Reg) (a : Reg) (idx : BitVec 2) (mode : TagqMode) : RoundTrip.Statement (.tagq h d a idx mode) := fun hl =>
  .inr (roundTrip_of (r := ⟨wRRR h 0x3c d a 0, wXW 0 19 0 0 (0#9 ++ idx ++ BitVec.ofNat 2 mode.code), 0⟩) decTagq (by
    unfold selectRow
    rw [major_wRRR, fn_wXW]
    rfl) (by
    simp (disch := decide) only [decTagq, h_wRRR, d_wRRR, a_wRRR, b_wRRR, c_wXW, ty_wXW, rnd_wXW, mods_wXW, tagq_code, Option.getD_some, BitVec.extractLsb, ext_left, ext_right, ext_all, lsb_left, lsb_right, lsb_bool, Nat.reduceSub]) (by
    simp (disch := decide) only [decTagq, h_wRRR, d_wRRR, a_wRRR, b_wRRR, c_wXW, ty_wXW, rnd_wXW, mods_wXW, tagq_code, Option.getD_some, BitVec.extractLsb, ext_left, ext_right, ext_all, lsb_left, lsb_right, lsb_bool, Nat.reduceSub, mask_1ff0, List.any_cons, List.any_nil, bne_self_eq_false, Bool.or_false, Option.isNone_some, zero_bits]) hl)
theorem RoundTrip.puts (h : Head) (d : Reg) (a : Reg) (b : Reg) (c : Reg) (lh : Reg) (lhd : Bool) (addSig : Bool) (sig : Bool) (spc : Space) : RoundTrip.Statement (.puts h d a b c lh lhd addSig sig spc) := fun hl =>
  .inr (roundTrip_of (r := ⟨wRRR h 0x3d d a b, wXW c 0 0 0 (lh ++ BitVec.ofBool lhd ++ BitVec.ofBool addSig ++ BitVec.ofBool sig ++ BitVec.ofNat 3 spc.code), 0⟩) decPuts (by
    unfold selectRow
    rw [major_wRRR, fn_wXW]
    rfl) (by
    simp (disch := decide) only [decPuts, h_wRRR, d_wRRR, a_wRRR, b_wRRR, c_wXW, ty_wXW, rnd_wXW, mods_wXW, space_code, Option.getD_some, BitVec.extractLsb, ext_left, ext_right, ext_all, lsb_left, lsb_right, lsb_bool, Nat.reduceSub]) (by
    simp (disch := decide) only [decPuts, h_wRRR, d_wRRR, a_wRRR, b_wRRR, c_wXW, ty_wXW, rnd_wXW, mods_wXW, space_code, Option.getD_some, BitVec.extractLsb, ext_left, ext_right, ext_all, lsb_left, lsb_right, lsb_bool, Nat.reduceSub, List.any_cons, List.any_nil, bne_self_eq_false, Bool.or_false, Option.isNone_some, zero_bits]) hl)
theorem RoundTrip.get (h : Head) (d : Reg) (a : Reg) (b : Reg) (c : Reg) (bar : Bool) (spc : Space) : RoundTrip.Statement (.get h d a b c bar spc) := fun hl =>
  .inr (roundTrip_of (r := ⟨wRRR h 0x3d d a b, wXW c 1 0 0 (0#9 ++ BitVec.ofBool bar ++ BitVec.ofNat 3 spc.code), 0⟩) decGet (by
    unfold selectRow
    rw [major_wRRR, fn_wXW]
    rfl) (by
    simp (disch := decide) only [decGet, h_wRRR, d_wRRR, a_wRRR, b_wRRR, c_wXW, ty_wXW, rnd_wXW, mods_wXW, space_code, Option.getD_some, BitVec.extractLsb, ext_left, ext_right, ext_all, lsb_left, lsb_right, lsb_bool, Nat.reduceSub]) (by
    simp (disch := decide) only [decGet, h_wRRR, d_wRRR, a_wRRR, b_wRRR, c_wXW, ty_wXW, rnd_wXW, mods_wXW, space_code, Option.getD_some, BitVec.extractLsb, ext_left, ext_right, ext_all, lsb_left, lsb_right, lsb_bool, Nat.reduceSub, mask_1ff0, List.any_cons, List.any_nil, bne_self_eq_false, Bool.or_false, Option.isNone_some, zero_bits]) hl)
theorem RoundTrip.radd (h : Head) (d : Reg) (a : Reg) (b : Reg) (c : Reg) (ty : Ty) (lh : Reg) (lhd : Bool) (spc : Space) : RoundTrip.Statement (.radd h d a b c ty lh lhd spc) := fun hl =>
  .inr (roundTrip_of (r := ⟨wRRR h 0x3d d a b, wXW c 2 (BitVec.ofNat 4 ty.code) 0 (lh ++ BitVec.ofBool lhd ++ 0#2 ++ BitVec.ofNat 3 spc.code), 0⟩) decRadd (by
    unfold selectRow
    rw [major_wRRR, fn_wXW]
    rfl) (by
    simp (disch := decide) only [decRadd, h_wRRR, d_wRRR, a_wRRR, b_wRRR, c_wXW, rnd_wXW, mods_wXW, Raw.tyName, ty_wXW, Raw.tyBad, ty_code, space_code, Option.getD_some, BitVec.extractLsb, ext_left, ext_right, ext_all, lsb_left, lsb_right, lsb_bool, Nat.reduceSub]) (by
    simp (disch := decide) only [decRadd, h_wRRR, d_wRRR, a_wRRR, b_wRRR, c_wXW, rnd_wXW, mods_wXW, Raw.tyName, ty_wXW, Raw.tyBad, ty_code, space_code, Option.getD_some, BitVec.extractLsb, ext_left, ext_right, ext_all, lsb_left, lsb_right, lsb_bool, Nat.reduceSub, mask_18, List.any_cons, List.any_nil, bne_self_eq_false, Bool.or_false, Option.isNone_some, zero_bits]) hl)
theorem RoundTrip.sigwt (h : Head) (d : Reg) (a : Reg) (b : Reg) (c : Reg) (p : Reg) (cond : SigCond) : RoundTrip.Statement (.sigwt h d a b c p cond) := fun hl =>
  .inr (roundTrip_of (r := ⟨wRRR h 0x3d d a b, wXW c 3 0 0 (0#4 ++ p ++ BitVec.ofNat 2 cond.code), 0⟩) decSigwt (by
    unfold selectRow
    rw [major_wRRR, fn_wXW]
    rfl) (by
    simp (disch := decide) only [decSigwt, h_wRRR, d_wRRR, a_wRRR, b_wRRR, c_wXW, ty_wXW, rnd_wXW, mods_wXW, cond_code, Option.getD_some, BitVec.extractLsb, ext_left, ext_right, ext_all, lsb_left, lsb_right, lsb_bool, Nat.reduceSub]) (by
    simp (disch := decide) only [decSigwt, h_wRRR, d_wRRR, a_wRRR, b_wRRR, c_wXW, ty_wXW, rnd_wXW, mods_wXW, cond_code, Option.getD_some, BitVec.extractLsb, ext_left, ext_right, ext_all, lsb_left, lsb_right, lsb_bool, Nat.reduceSub, mask_1e00, List.any_cons, List.any_nil, bne_self_eq_false, Bool.or_false, Option.isNone_some, zero_bits]) hl)
theorem RoundTrip.want (h : Head) (d : Reg) (a : Reg) (b : Reg) (c : Reg) (spc : Space) (life : BitVec 4) : RoundTrip.Statement (.want h d a b c spc life) := fun hl =>
  .inr (roundTrip_of (r := ⟨wRRR h 0x3d d a b, wXW c 4 0 0 (0#6 ++ BitVec.ofNat 3 spc.code ++ life), 0⟩) decWant (by
    unfold selectRow
    rw [major_wRRR, fn_wXW]
    rfl) (by
    simp (disch := decide) only [decWant, h_wRRR, d_wRRR, a_wRRR, b_wRRR, c_wXW, ty_wXW, rnd_wXW, mods_wXW, space_code, Option.getD_some, BitVec.extractLsb, ext_left, ext_right, ext_all, lsb_left, lsb_right, lsb_bool, Nat.reduceSub]) (by
    simp (disch := decide) only [decWant, h_wRRR, d_wRRR, a_wRRR, b_wRRR, c_wXW, ty_wXW, rnd_wXW, mods_wXW, space_code, Option.getD_some, BitVec.extractLsb, ext_left, ext_right, ext_all, lsb_left, lsb_right, lsb_bool, Nat.reduceSub, mask_1f80, List.any_cons, List.any_nil, bne_self_eq_false, Bool.or_false, Option.isNone_some, zero_bits]) hl)
theorem RoundTrip.announce (h : Head) (d : Reg) (a : Reg) (b : Reg) (c : Reg) (spc : Space) : RoundTrip.Statement (.announce h d a b c spc) := fun hl =>
  .inr (roundTrip_of (r := ⟨wRRR h 0x3d d a b, wXW c 5 0 0 (0#10 ++ BitVec.ofNat 3 spc.code), 0⟩) decAnnounce (by
    unfold selectRow
    rw [major_wRRR, fn_wXW]
    rfl) (by
    simp (disch := decide) only [decAnnounce, h_wRRR, d_wRRR, a_wRRR, b_wRRR, c_wXW, ty_wXW, rnd_wXW, mods_wXW, space_code, Option.getD_some, BitVec.extractLsb, ext_left, ext_right, ext_all, lsb_left, lsb_right, lsb_bool, Nat.reduceSub]) (by
    simp (disch := decide) only [decAnnounce, h_wRRR, d_wRRR, a_wRRR, b_wRRR, c_wXW, ty_wXW, rnd_wXW, mods_wXW, space_code, Option.getD_some, BitVec.extractLsb, ext_left, ext_right, ext_all, lsb_left, lsb_right, lsb_bool, Nat.reduceSub, mask_1ff8, List.any_cons, List.any_nil, bne_self_eq_false, Bool.or_false, Option.isNone_some, zero_bits]) hl)
theorem RoundTrip.twalk (h : Head) (d : Reg) (a : Reg) (tag : BitVec 6) (port : BitVec 6) : RoundTrip.Statement (.twalk h d a tag port) := fun hl =>
  .inr (roundTrip_of (r := ⟨wRRR h 0x3d d a 0, wXW 0 6 0 0 (0#1 ++ tag ++ port), 0⟩) decTwalk (by
    unfold selectRow
    rw [major_wRRR, fn_wXW]
    rfl) (by
    simp (disch := decide) only [decTwalk, h_wRRR, d_wRRR, a_wRRR, b_wRRR, c_wXW, ty_wXW, rnd_wXW, mods_wXW, BitVec.extractLsb, ext_left, ext_right, ext_all, lsb_left, lsb_right, lsb_bool, Nat.reduceSub]) (by
    simp (disch := decide) only [decTwalk, h_wRRR, d_wRRR, a_wRRR, b_wRRR, c_wXW, ty_wXW, rnd_wXW, mods_wXW, BitVec.extractLsb, ext_left, ext_right, ext_all, lsb_left, lsb_right, lsb_bool, Nat.reduceSub, mask_1000, List.any_cons, List.any_nil, bne_self_eq_false, Bool.or_false, Option.isNone_some, zero_bits]) hl)
theorem RoundTrip.permit (h : Head) (d : Reg) (a : Reg) (b : Reg) : RoundTrip.Statement (.permit h d a b) := fun hl =>
  .inr (roundTrip_of (r := ⟨wRRR h 0x3d d a b, wXW 0 7 0 0 0, 0⟩) decPermit (by
    unfold selectRow
    rw [major_wRRR, fn_wXW]
    rfl) (by
    simp (disch := decide) only [decPermit, h_wRRR, d_wRRR, a_wRRR, b_wRRR, c_wXW, ty_wXW, rnd_wXW, mods_wXW]) (by
    simp (disch := decide) only [decPermit, h_wRRR, d_wRRR, a_wRRR, b_wRRR, c_wXW, ty_wXW, rnd_wXW, mods_wXW, mask_1fff, ext_left, ext_right, ext_all, Nat.reduceSub, List.any_cons, List.any_nil, bne_self_eq_false, Bool.or_false, Option.isNone_some, zero_bits]) hl)
theorem RoundTrip.cseq (h : Head) (d : Reg) (a : Reg) (b : Reg) : RoundTrip.Statement (.cseq h d a b) := fun hl =>
  .inr (roundTrip_of (r := ⟨wRRR h 0x3d d a b, wXW 0 8 0 0 0, 0⟩) decCseq (by
    unfold selectRow
    rw [major_wRRR, fn_wXW]
    rfl) (by
    simp (disch := decide) only [decCseq, h_wRRR, d_wRRR, a_wRRR, b_wRRR, c_wXW, ty_wXW, rnd_wXW, mods_wXW]) (by
    simp (disch := decide) only [decCseq, h_wRRR, d_wRRR, a_wRRR, b_wRRR, c_wXW, ty_wXW, rnd_wXW, mods_wXW, mask_1fff, ext_left, ext_right, ext_all, Nat.reduceSub, List.any_cons, List.any_nil, bne_self_eq_false, Bool.or_false, Option.isNone_some, zero_bits]) hl)
theorem RoundTrip.sysc (h : Head) (n : Reg) : RoundTrip.Statement (.sysc h n) := fun hl =>
  .inr (roundTrip_of (r := ⟨wRRR h 0x3e 0 0 0, wXW 0 0 0 0 (0#6 ++ n), 0⟩) decSysc (by
    unfold selectRow
    rw [major_wRRR, fn_wXW]
    rfl) (by
    simp (disch := decide) only [decSysc, h_wRRR, d_wRRR, a_wRRR, b_wRRR, c_wXW, ty_wXW, rnd_wXW, mods_wXW, BitVec.extractLsb, ext_left, ext_right, ext_all, lsb_left, lsb_right, lsb_bool, Nat.reduceSub]) (by
    simp (disch := decide) only [decSysc, h_wRRR, d_wRRR, a_wRRR, b_wRRR, c_wXW, ty_wXW, rnd_wXW, mods_wXW, BitVec.extractLsb, ext_left, ext_right, ext_all, lsb_left, lsb_right, lsb_bool, Nat.reduceSub, mask_1f80, List.any_cons, List.any_nil, bne_self_eq_false, Bool.or_false, Option.isNone_some, zero_bits]) hl)
theorem RoundTrip.rft (h : Head) (a : Reg) (norep : Bool) (mode : RftMode) : RoundTrip.Statement (.rft h a norep mode) := fun hl =>
  .inr (roundTrip_of (r := ⟨wRRR h 0x3e 0 a 0, wXW 0 1 0 0 (0#9 ++ BitVec.ofBool norep ++ BitVec.ofNat 3 mode.code), 0⟩) decRft (by
    unfold selectRow
    rw [major_wRRR, fn_wXW]
    rfl) (by
    simp (disch := decide) only [decRft, h_wRRR, d_wRRR, a_wRRR, b_wRRR, c_wXW, ty_wXW, rnd_wXW, mods_wXW, rft_code, Option.getD_some, BitVec.extractLsb, ext_left, ext_right, ext_all, lsb_left, lsb_right, lsb_bool, Nat.reduceSub]) (by
    simp (disch := decide) only [decRft, h_wRRR, d_wRRR, a_wRRR, b_wRRR, c_wXW, ty_wXW, rnd_wXW, mods_wXW, rft_code, Option.getD_some, BitVec.extractLsb, ext_left, ext_right, ext_all, lsb_left, lsb_right, lsb_bool, Nat.reduceSub, mask_1ff0, List.any_cons, List.any_nil, bne_self_eq_false, Bool.or_false, Option.isNone_some, zero_bits]) hl)
theorem RoundTrip.awrd (h : Head) (d : Reg) (a : Reg) (b : Reg) (c : Reg) : RoundTrip.Statement (.awrd h d a b c) := fun hl =>
  .inr (roundTrip_of (r := ⟨wRRR h 0x3e d a b, wXW c 2 0 0 0, 0⟩) decAwrd (by
    unfold selectRow
    rw [major_wRRR, fn_wXW]
    rfl) (by
    simp (disch := decide) only [decAwrd, h_wRRR, d_wRRR, a_wRRR, b_wRRR, c_wXW, ty_wXW, rnd_wXW, mods_wXW]) (by
    simp (disch := decide) only [decAwrd, h_wRRR, d_wRRR, a_wRRR, b_wRRR, c_wXW, ty_wXW, rnd_wXW, mods_wXW, mask_1fff, ext_left, ext_right, ext_all, Nat.reduceSub, List.any_cons, List.any_nil, bne_self_eq_false, Bool.or_false, Option.isNone_some, zero_bits]) hl)
theorem RoundTrip.awwr (h : Head) (d : Reg) (a : Reg) (b : Reg) (c : Reg) : RoundTrip.Statement (.awwr h d a b c) := fun hl =>
  .inr (roundTrip_of (r := ⟨wRRR h 0x3e d a b, wXW c 3 0 0 0, 0⟩) decAwwr (by
    unfold selectRow
    rw [major_wRRR, fn_wXW]
    rfl) (by
    simp (disch := decide) only [decAwwr, h_wRRR, d_wRRR, a_wRRR, b_wRRR, c_wXW, ty_wXW, rnd_wXW, mods_wXW]) (by
    simp (disch := decide) only [decAwwr, h_wRRR, d_wRRR, a_wRRR, b_wRRR, c_wXW, ty_wXW, rnd_wXW, mods_wXW, mask_1fff, ext_left, ext_right, ext_all, Nat.reduceSub, List.any_cons, List.any_nil, bne_self_eq_false, Bool.or_false, Option.isNone_some, zero_bits]) hl)
theorem RoundTrip.hstop (h : Head) (d : Reg) (a : Reg) (grp : Bool) : RoundTrip.Statement (.hstop h d a grp) := fun hl =>
  .inr (roundTrip_of (r := ⟨wRRR h 0x3e d a 0, wXW 0 4 0 0 (0#12 ++ BitVec.ofBool grp), 0⟩) decHstop (by
    unfold selectRow
    rw [major_wRRR, fn_wXW]
    rfl) (by
    simp (disch := decide) only [decHstop, h_wRRR, d_wRRR, a_wRRR, b_wRRR, c_wXW, ty_wXW, rnd_wXW, mods_wXW, BitVec.extractLsb, ext_left, ext_right, ext_all, lsb_left, lsb_right, lsb_bool, Nat.reduceSub]) (by
    simp (disch := decide) only [decHstop, h_wRRR, d_wRRR, a_wRRR, b_wRRR, c_wXW, ty_wXW, rnd_wXW, mods_wXW, BitVec.extractLsb, ext_left, ext_right, ext_all, lsb_left, lsb_right, lsb_bool, Nat.reduceSub, mask_1ffe, List.any_cons, List.any_nil, bne_self_eq_false, Bool.or_false, Option.isNone_some, zero_bits]) hl)
theorem RoundTrip.hresume (h : Head) (a : Reg) (grp : Bool) : RoundTrip.Statement (.hresume h a grp) := fun hl =>
  .inr (roundTrip_of (r := ⟨wRRR h 0x3e 0 a 0, wXW 0 5 0 0 (0#12 ++ BitVec.ofBool grp), 0⟩) decHresume (by
    unfold selectRow
    rw [major_wRRR, fn_wXW]
    rfl) (by
    simp (disch := decide) only [decHresume, h_wRRR, d_wRRR, a_wRRR, b_wRRR, c_wXW, ty_wXW, rnd_wXW, mods_wXW, BitVec.extractLsb, ext_left, ext_right, ext_all, lsb_left, lsb_right, lsb_bool, Nat.reduceSub]) (by
    simp (disch := decide) only [decHresume, h_wRRR, d_wRRR, a_wRRR, b_wRRR, c_wXW, ty_wXW, rnd_wXW, mods_wXW, BitVec.extractLsb, ext_left, ext_right, ext_all, lsb_left, lsb_right, lsb_bool, Nat.reduceSub, mask_1ffe, List.any_cons, List.any_nil, bne_self_eq_false, Bool.or_false, Option.isNone_some, zero_bits]) hl)
theorem RoundTrip.brkp (h : Head) (n : BitVec 8) : RoundTrip.Statement (.brkp h n) := fun hl =>
  .inr (roundTrip_of (r := ⟨wRRR h 0x3e 0 0 0, wXW 0 8 0 0 (0#5 ++ n), 0⟩) decBrkp (by
    unfold selectRow
    rw [major_wRRR, fn_wXW]
    rfl) (by
    simp (disch := decide) only [decBrkp, h_wRRR, d_wRRR, a_wRRR, b_wRRR, c_wXW, ty_wXW, rnd_wXW, mods_wXW, BitVec.extractLsb, ext_left, ext_right, ext_all, lsb_left, lsb_right, lsb_bool, Nat.reduceSub]) (by
    simp (disch := decide) only [decBrkp, h_wRRR, d_wRRR, a_wRRR, b_wRRR, c_wXW, ty_wXW, rnd_wXW, mods_wXW, BitVec.extractLsb, ext_left, ext_right, ext_all, lsb_left, lsb_right, lsb_bool, Nat.reduceSub, mask_1f00, List.any_cons, List.any_nil, bne_self_eq_false, Bool.or_false, Option.isNone_some, zero_bits]) hl)
theorem RoundTrip.trace (h : Head) (a : Reg) (b : Reg) (two : Bool) (id : BitVec 8) : RoundTrip.Statement (.trace h a b two id) := fun hl =>
  .inr (roundTrip_of (r := ⟨wRRR h 0x3e 0 a b, wXW 0 9 0 0 (0#4 ++ BitVec.ofBool two ++ id), 0⟩) decTrace (by
    unfold selectRow
    rw [major_wRRR, fn_wXW]
    rfl) (by
    simp (disch := decide) only [decTrace, h_wRRR, d_wRRR, a_wRRR, b_wRRR, c_wXW, ty_wXW, rnd_wXW, mods_wXW, BitVec.extractLsb, ext_left, ext_right, ext_all, lsb_left, lsb_right, lsb_bool, Nat.reduceSub]) (by
    simp (disch := decide) only [decTrace, h_wRRR, d_wRRR, a_wRRR, b_wRRR, c_wXW, ty_wXW, rnd_wXW, mods_wXW, BitVec.extractLsb, ext_left, ext_right, ext_all, lsb_left, lsb_right, lsb_bool, Nat.reduceSub, mask_1e00, List.any_cons, List.any_nil, bne_self_eq_false, Bool.or_false, Option.isNone_some, zero_bits]) hl)
theorem RoundTrip.mark (h : Head) (m : BitVec 13) : RoundTrip.Statement (.mark h m) := fun hl =>
  .inr (roundTrip_of (r := ⟨wRRR h 0x3e 0 0 0, wXW 0 10 0 0 (m), 0⟩) decMark (by
    unfold selectRow
    rw [major_wRRR, fn_wXW]
    rfl) (by
    simp (disch := decide) only [decMark, h_wRRR, d_wRRR, a_wRRR, b_wRRR, c_wXW, ty_wXW, rnd_wXW, mods_wXW, BitVec.extractLsb, ext_left, ext_right, ext_all, lsb_left, lsb_right, lsb_bool, Nat.reduceSub]) (by
    simp (disch := decide) only [decMark, h_wRRR, d_wRRR, a_wRRR, b_wRRR, c_wXW, ty_wXW, rnd_wXW, mods_wXW, BitVec.extractLsb, ext_left, ext_right, ext_all, lsb_left, lsb_right, lsb_bool, Nat.reduceSub, List.any_cons, List.any_nil, bne_self_eq_false, Bool.or_false, Option.isNone_some, zero_bits]) hl)
theorem RoundTrip.rep (stop : Bool) (n : BitVec 6) (sd : Bool) (sa : Bool) (sb : Bool) (sc : Bool) (two : Bool) : RoundTrip.Statement (.rep stop n sd sa sb sc two) := fun hl =>
  .inr (roundTrip_of (r := ⟨wOFF ⟨0, stop, false⟩ 0x3f (0#3 ++ n ++ BitVec.ofBool sd ++ BitVec.ofBool sa ++ BitVec.ofBool sb ++ BitVec.ofBool sc ++ BitVec.ofBool two ++ 0#7), 0, 0⟩) decRep (by
    unfold selectRow
    rw [major_wOFF]
    simp (disch := decide) only [lsb_wOFF, ext_wOFF, BitVec.extractLsb, ext_left, ext_right, ext_all, lsb_left, lsb_right, Nat.reduceSub]
    rfl) (by
    simp (disch := decide) only [decRep, h_wOFF, ext_wOFF, lsb_wOFF, BitVec.extractLsb, ext_left, ext_right, ext_all, lsb_left, lsb_right, lsb_bool, Nat.reduceSub]) (by
    simp (disch := decide) only [decRep, h_wOFF, ext_wOFF, lsb_wOFF, BitVec.extractLsb, ext_left, ext_right, ext_all, lsb_left, lsb_right, lsb_bool, Nat.reduceSub, List.any_cons, List.any_nil, bne_self_eq_false, Bool.or_false, Option.isNone_some, zero_bits]) hl)
theorem RoundTrip.inv (h : Head) (t : Reg) (x : Reg) (k : BitVec 2) (ty : InvTy) (y : Reg) (dec : Bool) (tol : BitVec 5) (iter : BitVec 6) : RoundTrip.Statement (.inv h t x k ty y dec tol iter) := fun hl =>
  .inr (roundTrip_of (r := ⟨wOFF h 0x3f (1#3 ++ t ++ x ++ k ++ BitVec.ofNat 2 ty.code), (y ++ BitVec.ofBool dec ++ tol ++ iter ++ 0#13), 0⟩) decInv (by
    unfold selectRow
    rw [major_wOFF]
    simp (disch := decide) only [lsb_wOFF, ext_wOFF, BitVec.extractLsb, ext_left, ext_right, ext_all, lsb_left, lsb_right, Nat.reduceSub]
    rfl) (by
    simp (disch := decide) only [decInv, h_wOFF, inv_code, Option.getD_some, ext_wOFF, lsb_wOFF, BitVec.extractLsb, ext_left, ext_right, ext_all, lsb_left, lsb_right, lsb_bool, Nat.reduceSub]) (by
    simp (disch := decide) only [decInv, h_wOFF, inv_code, Option.getD_some, ext_wOFF, lsb_wOFF, BitVec.extractLsb, ext_left, ext_right, ext_all, lsb_left, lsb_right, lsb_bool, Nat.reduceSub, List.any_cons, List.any_nil, bne_self_eq_false, Bool.or_false, Option.isNone_some, zero_bits]) hl)
theorem RoundTrip.jmpt (h : Head) (idx : BitVec 20) : RoundTrip.Statement (.jmpt h idx) := fun hl =>
  .inr (roundTrip_of (r := ⟨wOFF h 0x3f (1#1 ++ idx), 0, 0⟩) decJmpt (by
    unfold selectRow
    rw [major_wOFF]
    simp (disch := decide) only [lsb_wOFF, ext_wOFF, BitVec.extractLsb, ext_left, ext_right, ext_all, lsb_left, lsb_right, Nat.reduceSub]
    rfl) (by
    simp (disch := decide) only [decJmpt, h_wOFF, ext_wOFF, lsb_wOFF, BitVec.extractLsb, ext_left, ext_right, ext_all, lsb_left, lsb_right, lsb_bool, Nat.reduceSub]) rfl hl)
theorem RoundTrip.padw (h : Head) : RoundTrip.Statement (.padw h) := fun hl =>
  .inr (roundTrip_of (r := ⟨wOFF h 0x3f (2#3 ++ 0#18), 0, 0⟩) decPadw (by
    unfold selectRow
    rw [major_wOFF]
    simp (disch := decide) only [lsb_wOFF, ext_wOFF, BitVec.extractLsb, ext_left, ext_right, ext_all, lsb_left, lsb_right, Nat.reduceSub]
    rfl) (by
    simp (disch := decide) only [decPadw, h_wOFF, ext_wOFF, lsb_wOFF, BitVec.extractLsb, ext_left, ext_right, ext_all, lsb_left, lsb_right, lsb_bool, Nat.reduceSub]) (by
    simp (disch := decide) only [decPadw, h_wOFF, ext_wOFF, lsb_wOFF, BitVec.extractLsb, ext_left, ext_right, ext_all, lsb_left, lsb_right, lsb_bool, Nat.reduceSub, List.any_cons, List.any_nil, bne_self_eq_false, Bool.or_false, Option.isNone_some, zero_bits]) hl)
theorem RoundTrip.variableLatencyComplete (op : Nat) : RoundTrip.Statement (.variableLatencyComplete op) := fun _ => .inl rfl
theorem RoundTrip.loadDataArrival (op : Nat) : RoundTrip.Statement (.loadDataArrival op) := fun _ => .inl rfl
theorem RoundTrip.storeAck (op : Nat) : RoundTrip.Statement (.storeAck op) := fun _ => .inl rfl
theorem RoundTrip.scratchpadLoadComplete (op : Nat) : RoundTrip.Statement (.scratchpadLoadComplete op) := fun _ => .inl rfl
theorem RoundTrip.fibreEnd (fib : Nat) : RoundTrip.Statement (.fibreEnd fib) := fun _ => .inl rfl
theorem RoundTrip.groupResourceRelease (grp : Nat) : RoundTrip.Statement (.groupResourceRelease grp) := fun _ => .inl rfl
theorem RoundTrip.napWake (fib : Nat) : RoundTrip.Statement (.napWake fib) := fun _ => .inl rfl
theorem RoundTrip.swapOut (grp : Nat) : RoundTrip.Statement (.swapOut grp) := fun _ => .inl rfl
theorem RoundTrip.checkpointSpillComplete (fib : Nat) : RoundTrip.Statement (.checkpointSpillComplete fib) := fun _ => .inl rfl
theorem RoundTrip.pacerFillComplete (op : Nat) : RoundTrip.Statement (.pacerFillComplete op) := fun _ => .inl rfl
theorem RoundTrip.walkComplete (walk : Nat) : RoundTrip.Statement (.walkComplete walk) := fun _ => .inl rfl
theorem RoundTrip.mmaStart (core : Nat) : RoundTrip.Statement (.mmaStart core) := fun _ => .inl rfl
theorem RoundTrip.mmaComplete (core : Nat) : RoundTrip.Statement (.mmaComplete core) := fun _ => .inl rfl
theorem RoundTrip.copyPieceLand (op : Nat) : RoundTrip.Statement (.copyPieceLand op) := fun _ => .inl rfl
theorem RoundTrip.gathRowArrival (op : Nat) (row : Nat) : RoundTrip.Statement (.gathRowArrival op row) := fun _ => .inl rfl
theorem RoundTrip.barwtTimeout (fib : Nat) : RoundTrip.Statement (.barwtTimeout fib) := fun _ => .inl rfl
theorem RoundTrip.accTransferComplete (op : Nat) : RoundTrip.Statement (.accTransferComplete op) := fun _ => .inl rfl
theorem RoundTrip.groupPlace (cluster : Nat) : RoundTrip.Statement (.groupPlace cluster) := fun _ => .inl rfl
theorem RoundTrip.queueEntryArrive (msg : Nat) : RoundTrip.Statement (.queueEntryArrive msg) := fun _ => .inl rfl
theorem RoundTrip.qpopReturn (fib : Nat) : RoundTrip.Statement (.qpopReturn fib) := fun _ => .inl rfl
theorem RoundTrip.dcarmArrive (msg : Nat) : RoundTrip.Statement (.dcarmArrive msg) := fun _ => .inl rfl
theorem RoundTrip.dcdecArrive (msg : Nat) : RoundTrip.Statement (.dcdecArrive msg) := fun _ => .inl rfl
theorem RoundTrip.quiescenceRound (job : Nat) : RoundTrip.Statement (.quiescenceRound job) := fun _ => .inl rfl
theorem RoundTrip.handlerTakeRecord (core : Nat) : RoundTrip.Statement (.handlerTakeRecord core) := fun _ => .inl rfl
theorem RoundTrip.replayComplete (fib : Nat) : RoundTrip.Statement (.replayComplete fib) := fun _ => .inl rfl
theorem RoundTrip.watchedOpResolve (die : Nat) (slot : Nat) : RoundTrip.Statement (.watchedOpResolve die slot) := fun _ => .inl rfl
theorem RoundTrip.resolutionAtHome (msg : Nat) : RoundTrip.Statement (.resolutionAtHome msg) := fun _ => .inl rfl
theorem RoundTrip.affirmApply (die : Nat) (aid : BitVec 32) : RoundTrip.Statement (.affirmApply die aid) := fun _ => .inl rfl
theorem RoundTrip.denyApply (die : Nat) (aid : BitVec 32) : RoundTrip.Statement (.denyApply die aid) := fun _ => .inl rfl
theorem RoundTrip.resolutionAck (die : Nat) (aid : BitVec 32) : RoundTrip.Statement (.resolutionAck die aid) := fun _ => .inl rfl
theorem RoundTrip.localCompletion (op : Nat) : RoundTrip.Statement (.localCompletion op) := fun _ => .inl rfl
theorem RoundTrip.collEnd (prog : Nat) : RoundTrip.Statement (.collEnd prog) := fun _ => .inl rfl
theorem RoundTrip.collLoad (prog : Nat) : RoundTrip.Statement (.collLoad prog) := fun _ => .inl rfl
theorem RoundTrip.collSend (prog : Nat) : RoundTrip.Statement (.collSend prog) := fun _ => .inl rfl
theorem RoundTrip.collRadd (prog : Nat) : RoundTrip.Statement (.collRadd prog) := fun _ => .inl rfl
theorem RoundTrip.collRecvAdd (prog : Nat) : RoundTrip.Statement (.collRecvAdd prog) := fun _ => .inl rfl
theorem RoundTrip.collRecvCopy (prog : Nat) : RoundTrip.Statement (.collRecvCopy prog) := fun _ => .inl rfl
theorem RoundTrip.collWrite (prog : Nat) : RoundTrip.Statement (.collWrite prog) := fun _ => .inl rfl
theorem RoundTrip.collSignal (prog : Nat) : RoundTrip.Statement (.collSignal prog) := fun _ => .inl rfl
theorem RoundTrip.collWaitge (prog : Nat) : RoundTrip.Statement (.collWaitge prog) := fun _ => .inl rfl
theorem RoundTrip.tileWalkTile (walk : Nat) : RoundTrip.Statement (.tileWalkTile walk) := fun _ => .inl rfl
theorem RoundTrip.walkPermitArrive (op : Nat) : RoundTrip.Statement (.walkPermitArrive op) := fun _ => .inl rfl
theorem RoundTrip.sigwtRecheck (fib : Nat) : RoundTrip.Statement (.sigwtRecheck fib) := fun _ => .inl rfl
theorem RoundTrip.forcedRotation (core : Nat) : RoundTrip.Statement (.forcedRotation core) := fun _ => .inl rfl
theorem RoundTrip.cohortRelease (job : Nat) (cohort : Nat) : RoundTrip.Statement (.cohortRelease job cohort) := fun _ => .inl rfl
theorem RoundTrip.queueCreditGrant (job : Nat) (queue : Nat) (die : Nat) (n : Nat) : RoundTrip.Statement (.queueCreditGrant job queue die n) := fun _ => .inl rfl
theorem RoundTrip.queueDeadlock (job : Nat) (queue : Nat) : RoundTrip.Statement (.queueDeadlock job queue) := fun _ => .inl rfl
theorem RoundTrip.watchdogTest (job : Nat) : RoundTrip.Statement (.watchdogTest job) := fun _ => .inl rfl
theorem RoundTrip.wsLoadComplete (die : Nat) : RoundTrip.Statement (.wsLoadComplete die) := fun _ => .inl rfl
theorem RoundTrip.dtinvComplete (die : Nat) : RoundTrip.Statement (.dtinvComplete die) := fun _ => .inl rfl
theorem RoundTrip.evictionStopTimeout (grp : Nat) : RoundTrip.Statement (.evictionStopTimeout grp) := fun _ => .inl rfl
theorem RoundTrip.evictionSave (grp : Nat) : RoundTrip.Statement (.evictionSave grp) := fun _ => .inl rfl
theorem RoundTrip.packageReset : RoundTrip.Statement .packageReset := fun _ => .inl rfl
theorem RoundTrip.launch (fn : Nat) (queue : Nat) (idx : BitVec 16) : RoundTrip.Statement (.launch fn queue idx) := fun _ => .inl rfl
theorem RoundTrip.jobwait (fn : Nat) (queue : Nat) (idx : BitVec 16) : RoundTrip.Statement (.jobwait fn queue idx) := fun _ => .inl rfl
theorem RoundTrip.wsload (fn : Nat) (queue : Nat) (idx : BitVec 16) : RoundTrip.Statement (.wsload fn queue idx) := fun _ => .inl rfl
theorem RoundTrip.halt (fn : Nat) (queue : Nat) (idx : BitVec 16) : RoundTrip.Statement (.halt fn queue idx) := fun _ => .inl rfl
theorem RoundTrip.resume (fn : Nat) (queue : Nat) (idx : BitVec 16) : RoundTrip.Statement (.resume fn queue idx) := fun _ => .inl rfl
theorem RoundTrip.kill (fn : Nat) (queue : Nat) (idx : BitVec 16) : RoundTrip.Statement (.kill fn queue idx) := fun _ => .inl rfl
theorem RoundTrip.unlistedCommand (fn : Nat) (queue : Nat) (idx : BitVec 16) : RoundTrip.Statement (.unlistedCommand fn queue idx) := fun _ => .inl rfl
theorem RoundTrip.fabricPacketArrive (port : Nat) (pkt : Packet) : RoundTrip.Statement (.fabricPacketArrive port pkt) := fun _ => .inl rfl
theorem RoundTrip.retransmitTimeout (seq : Nat) : RoundTrip.Statement (.retransmitTimeout seq) := fun _ => .inl rfl
theorem RoundTrip.interestArrive (port : Nat) (face : Interest) : RoundTrip.Statement (.interestArrive port face) := fun _ => .inl rfl
theorem RoundTrip.faceDeadline (port : Nat) (face : Interest) : RoundTrip.Statement (.faceDeadline port face) := fun _ => .inl rfl
theorem RoundTrip.sigwtTimeout (fib : Nat) : RoundTrip.Statement (.sigwtTimeout fib) := fun _ => .inl rfl
theorem RoundTrip.dbgTokenResult : RoundTrip.Statement .dbgTokenResult := fun _ => .inl rfl
theorem RoundTrip.traceSample (core : Nat) : RoundTrip.Statement (.traceSample core) := fun _ => .inl rfl
theorem RoundTrip.instructionFetchError (fib : Nat) (second : Bool) : RoundTrip.Statement (.instructionFetchError fib second) := fun _ => .inl rfl
theorem RoundTrip.hostInboundWrite (fn : Nat) (addr : Nat) (bytes : List Byte) : RoundTrip.Statement (.hostInboundWrite fn addr bytes) := fun _ => .inl rfl
theorem RoundTrip.hostInboundRead (fn : Nat) (addr : Nat) (len : Nat) : RoundTrip.Statement (.hostInboundRead fn addr len) := fun _ => .inl rfl
theorem RoundTrip.queueCreditReturn (job : Nat) (queue : Nat) (die : Nat) (n : Nat) : RoundTrip.Statement (.queueCreditReturn job queue die n) := fun _ => .inl rfl
theorem RoundTrip.wsPhaseEnter (die : Nat) : RoundTrip.Statement (.wsPhaseEnter die) := fun _ => .inl rfl
theorem RoundTrip.wsPhaseLeave (die : Nat) : RoundTrip.Statement (.wsPhaseLeave die) := fun _ => .inl rfl
theorem RoundTrip.wsLoadGo (die : Nat) : RoundTrip.Statement (.wsLoadGo die) := fun _ => .inl rfl
theorem RoundTrip.wsRefreshStart (die : Nat) (bank : Nat) : RoundTrip.Statement (.wsRefreshStart die bank) := fun _ => .inl rfl
theorem RoundTrip.wsRefreshEnd (die : Nat) (bank : Nat) : RoundTrip.Statement (.wsRefreshEnd die bank) := fun _ => .inl rfl
theorem RoundTrip.wsScrubVisit (die : Nat) (off : Nat) (err : ScrubErr) : RoundTrip.Statement (.wsScrubVisit die off err) := fun _ => .inl rfl
theorem RoundTrip.dramScrubVisit (granule : Nat) (err : ScrubErr) : RoundTrip.Statement (.dramScrubVisit granule err) := fun _ => .inl rfl
theorem RoundTrip.dieFatalError (die : Nat) : RoundTrip.Statement (.dieFatalError die) := fun _ => .inl rfl
theorem RoundTrip.dtinvPage (die : Nat) : RoundTrip.Statement (.dtinvPage die) := fun _ => .inl rfl
theorem RoundTrip.dtinvJob (die : Nat) : RoundTrip.Statement (.dtinvJob die) := fun _ => .inl rfl
theorem RoundTrip.dtinvAll (die : Nat) : RoundTrip.Statement (.dtinvAll die) := fun _ => .inl rfl
theorem RoundTrip.dtinvReservedScope (die : Nat) : RoundTrip.Statement (.dtinvReservedScope die) := fun _ => .inl rfl
theorem RoundTrip.ceccClear (core : Nat) : RoundTrip.Statement (.ceccClear core) := fun _ => .inl rfl
theorem RoundTrip.deccClear (die : Nat) : RoundTrip.Statement (.deccClear die) := fun _ => .inl rfl
theorem RoundTrip.cevdropClear (cluster : Nat) : RoundTrip.Statement (.cevdropClear cluster) := fun _ => .inl rfl
theorem RoundTrip.fpstatReplayClear (port : Nat) : RoundTrip.Statement (.fpstatReplayClear port) := fun _ => .inl rfl
theorem RoundTrip.ucieLinkDown (die : Nat) : RoundTrip.Statement (.ucieLinkDown die) := fun _ => .inl rfl
theorem RoundTrip.hqSqDoorbell (fn : Nat) (queue : Nat) (tail : BitVec 32) : RoundTrip.Statement (.hqSqDoorbell fn queue tail) := fun _ => .inl rfl
theorem RoundTrip.hqCqDoorbell (fn : Nat) (queue : Nat) (head : BitVec 32) : RoundTrip.Statement (.hqCqDoorbell fn queue head) := fun _ => .inl rfl
theorem RoundTrip.lockInterfaceRequest (fn : Nat) : RoundTrip.Statement (.lockInterfaceRequest fn) := fun _ => .inl rfl
theorem RoundTrip.startInterfaceRequest (fn : Nat) (nonce : BitVec 256) : RoundTrip.Statement (.startInterfaceRequest fn nonce) := fun _ => .inl rfl
theorem RoundTrip.stopInterfaceRequest (fn : Nat) : RoundTrip.Statement (.stopInterfaceRequest fn) := fun _ => .inl rfl
theorem RoundTrip.getDeviceInterfaceReport (fn : Nat) : RoundTrip.Statement (.getDeviceInterfaceReport fn) := fun _ => .inl rfl
theorem RoundTrip.lockedFieldWrite (fn : Nat) : RoundTrip.Statement (.lockedFieldWrite fn) := fun _ => .inl rfl
theorem RoundTrip.ideIntegrityFailure (fn : Nat) : RoundTrip.Statement (.ideIntegrityFailure fn) := fun _ => .inl rfl
theorem RoundTrip.functionLevelReset (fn : Nat) : RoundTrip.Statement (.functionLevelReset fn) := fun _ => .inl rfl
theorem RoundTrip.salpolLock : RoundTrip.Statement .salpolLock := fun _ => .inl rfl
theorem RoundTrip.voltageClockGlitch : RoundTrip.Statement .voltageClockGlitch := fun _ => .inl rfl
theorem RoundTrip.fuseIntegrityFailure : RoundTrip.Statement .fuseIntegrityFailure := fun _ => .inl rfl
theorem RoundTrip.powerLimit (clks : Nat) : RoundTrip.Statement (.powerLimit clks) := fun _ => .inl rfl
theorem RoundTrip.thermalThrottle (clks : Nat) : RoundTrip.Statement (.thermalThrottle clks) := fun _ => .inl rfl
theorem RoundTrip.thermalShutdown : RoundTrip.Statement .thermalShutdown := fun _ => .inl rfl
theorem RoundTrip.flitCrcReplay (port : Nat) (again : Nat) : RoundTrip.Statement (.flitCrcReplay port again) := fun _ => .inl rfl
theorem RoundTrip.fabricLinkDown (port : Nat) : RoundTrip.Statement (.fabricLinkDown port) := fun _ => .inl rfl
theorem RoundTrip.fabricPacketForward (pkt : Packet) : RoundTrip.Statement (.fabricPacketForward pkt) := fun _ => .inl rfl
theorem RoundTrip.fabricAckArrive (ack : Ack) : RoundTrip.Statement (.fabricAckArrive ack) := fun _ => .inl rfl
theorem RoundTrip.collChunkArrive (msg : CollMsg) : RoundTrip.Statement (.collChunkArrive msg) := fun _ => .inl rfl
theorem RoundTrip.collCreditGrant (msg : CollMsg) : RoundTrip.Statement (.collCreditGrant msg) := fun _ => .inl rfl
theorem RoundTrip.collAbortReceive (msg : CollMsg) : RoundTrip.Statement (.collAbortReceive msg) := fun _ => .inl rfl
theorem RoundTrip.tileReturn (port : Nat) (tile : TileMsg) : RoundTrip.Statement (.tileReturn port tile) := fun _ => .inl rfl
theorem RoundTrip.dbgStepFibre (core : Nat) : RoundTrip.Statement (.dbgStepFibre core) := fun _ => .inl rfl
theorem RoundTrip.dbgStopSpan (core : Nat) : RoundTrip.Statement (.dbgStopSpan core) := fun _ => .inl rfl
theorem RoundTrip.dbgResumeSpan (core : Nat) : RoundTrip.Statement (.dbgResumeSpan core) := fun _ => .inl rfl
theorem RoundTrip.dbgResumeFibre (core : Nat) : RoundTrip.Statement (.dbgResumeFibre core) := fun _ => .inl rfl
theorem RoundTrip.dbgTokenVerify : RoundTrip.Statement .dbgTokenVerify := fun _ => .inl rfl
theorem RoundTrip.topdownClear (core : Nat) : RoundTrip.Statement (.topdownClear core) := fun _ => .inl rfl
theorem RoundTrip.topdownFreeze (core : Nat) (on : Bool) : RoundTrip.Statement (.topdownFreeze core on) := fun _ => .inl rfl
theorem RoundTrip.noiseModeDirect (core : Nat) : RoundTrip.Statement (.noiseModeDirect core) := fun _ => .inl rfl
theorem RoundTrip.noiseModeLog (core : Nat) : RoundTrip.Statement (.noiseModeLog core) := fun _ => .inl rfl
theorem RoundTrip.noiseModeReplay (core : Nat) : RoundTrip.Statement (.noiseModeReplay core) := fun _ => .inl rfl
theorem RoundTrip.registerWrite (off : Nat) (size : Nat) (val : BitVec 64) : RoundTrip.Statement (.registerWrite off size val) := fun _ => .inl rfl
theorem RoundTrip.fabricLinkRetrain (port : Nat) : RoundTrip.Statement (.fabricLinkRetrain port) := fun _ => .inl rfl
theorem RoundTrip.lifeCycleAdvance (state : BitVec 2) : RoundTrip.Statement (.lifeCycleAdvance state) := fun _ => .inl rfl

end Sys2Proof.Laws
end

