-- ==== Sys2Proof/Laws/State.lean ====
section
/-! SUPPORT. What each named update of a state does to each field: one lemma per field per update, so that no proof unfolds a
record update. -/

namespace Sys2Proof.Machine

/-! ## setFibre -/

@[simp] theorem State.setFibre_clk (s : State) (k : Nat) (f : Fibre) : (s.setFibre k f).clk = s.clk := rfl
@[simp] theorem State.setFibre_turns (s : State) (k : Nat) (f : Fibre) : (s.setFibre k f).turns = s.turns := rfl
@[simp] theorem State.setFibre_strikes (s : State) (k : Nat) (f : Fibre) : (s.setFibre k f).strikes = s.strikes := rfl
@[simp] theorem State.setFibre_lastTurn (s : State) (k : Nat) (f : Fibre) : (s.setFibre k f).lastTurn = s.lastTurn := rfl
@[simp] theorem State.setFibre_cur (s : State) (k : Nat) (f : Fibre) : (s.setFibre k f).cur = s.cur := rfl
@[simp] theorem State.setFibre_nextId (s : State) (k : Nat) (f : Fibre) : (s.setFibre k f).nextId = s.nextId := rfl
@[simp] theorem State.setFibre_mem (s : State) (k : Nat) (f : Fibre) : (s.setFibre k f).mem = s.mem := rfl
@[simp] theorem State.setFibre_past (s : State) (k : Nat) (f : Fibre) : (s.setFibre k f).past = s.past := rfl
@[simp] theorem State.setFibre_wrote (s : State) (k : Nat) (f : Fibre) : (s.setFibre k f).wrote = s.wrote := rfl
@[simp] theorem State.setFibre_looked (s : State) (k : Nat) (f : Fibre) : (s.setFibre k f).looked = s.looked := rfl
@[simp] theorem State.setFibre_pubs (s : State) (k : Nat) (f : Fibre) : (s.setFibre k f).pubs = s.pubs := rfl
@[simp] theorem State.setFibre_carried (s : State) (k : Nat) (f : Fibre) : (s.setFibre k f).carried = s.carried := rfl
@[simp] theorem State.setFibre_poisoned (s : State) (k : Nat) (f : Fibre) : (s.setFibre k f).poisoned = s.poisoned := rfl
@[simp] theorem State.setFibre_groups (s : State) (k : Nat) (f : Fibre) : (s.setFibre k f).groups = s.groups := rfl
@[simp] theorem State.setFibre_jobs (s : State) (k : Nat) (f : Fibre) : (s.setFibre k f).jobs = s.jobs := rfl
@[simp] theorem State.setFibre_ops (s : State) (k : Nat) (f : Fibre) : (s.setFibre k f).ops = s.ops := rfl
@[simp] theorem State.setFibre_msgs (s : State) (k : Nat) (f : Fibre) : (s.setFibre k f).msgs = s.msgs := rfl
@[simp] theorem State.setFibre_queues (s : State) (k : Nat) (f : Fibre) : (s.setFibre k f).queues = s.queues := rfl
@[simp] theorem State.setFibre_cores (s : State) (k : Nat) (f : Fibre) : (s.setFibre k f).cores = s.cores := rfl
@[simp] theorem State.setFibre_clusters (s : State) (k : Nat) (f : Fibre) : (s.setFibre k f).clusters = s.clusters := rfl
@[simp] theorem State.setFibre_dies (s : State) (k : Nat) (f : Fibre) : (s.setFibre k f).dies = s.dies := rfl
@[simp] theorem State.setFibre_pkg (s : State) (k : Nat) (f : Fibre) : (s.setFibre k f).pkg = s.pkg := rfl
@[simp] theorem State.setFibre_fibres (s : State) (k : Nat) (f : Fibre) : (s.setFibre k f).fibres = s.fibres.set k f := rfl

/-! ## modFibre -/

@[simp] theorem State.modFibre_clk (s : State) (k : Nat) (u : Fibre → Fibre) : (s.modFibre k u).clk = s.clk := rfl
@[simp] theorem State.modFibre_turns (s : State) (k : Nat) (u : Fibre → Fibre) : (s.modFibre k u).turns = s.turns := rfl
@[simp] theorem State.modFibre_strikes (s : State) (k : Nat) (u : Fibre → Fibre) : (s.modFibre k u).strikes = s.strikes := rfl
@[simp] theorem State.modFibre_lastTurn (s : State) (k : Nat) (u : Fibre → Fibre) : (s.modFibre k u).lastTurn = s.lastTurn := rfl
@[simp] theorem State.modFibre_cur (s : State) (k : Nat) (u : Fibre → Fibre) : (s.modFibre k u).cur = s.cur := rfl
@[simp] theorem State.modFibre_nextId (s : State) (k : Nat) (u : Fibre → Fibre) : (s.modFibre k u).nextId = s.nextId := rfl
@[simp] theorem State.modFibre_mem (s : State) (k : Nat) (u : Fibre → Fibre) : (s.modFibre k u).mem = s.mem := rfl
@[simp] theorem State.modFibre_past (s : State) (k : Nat) (u : Fibre → Fibre) : (s.modFibre k u).past = s.past := rfl
@[simp] theorem State.modFibre_wrote (s : State) (k : Nat) (u : Fibre → Fibre) : (s.modFibre k u).wrote = s.wrote := rfl
@[simp] theorem State.modFibre_looked (s : State) (k : Nat) (u : Fibre → Fibre) : (s.modFibre k u).looked = s.looked := rfl
@[simp] theorem State.modFibre_pubs (s : State) (k : Nat) (u : Fibre → Fibre) : (s.modFibre k u).pubs = s.pubs := rfl
@[simp] theorem State.modFibre_carried (s : State) (k : Nat) (u : Fibre → Fibre) : (s.modFibre k u).carried = s.carried := rfl
@[simp] theorem State.modFibre_poisoned (s : State) (k : Nat) (u : Fibre → Fibre) : (s.modFibre k u).poisoned = s.poisoned := rfl
@[simp] theorem State.modFibre_groups (s : State) (k : Nat) (u : Fibre → Fibre) : (s.modFibre k u).groups = s.groups := rfl
@[simp] theorem State.modFibre_jobs (s : State) (k : Nat) (u : Fibre → Fibre) : (s.modFibre k u).jobs = s.jobs := rfl
@[simp] theorem State.modFibre_ops (s : State) (k : Nat) (u : Fibre → Fibre) : (s.modFibre k u).ops = s.ops := rfl
@[simp] theorem State.modFibre_msgs (s : State) (k : Nat) (u : Fibre → Fibre) : (s.modFibre k u).msgs = s.msgs := rfl
@[simp] theorem State.modFibre_queues (s : State) (k : Nat) (u : Fibre → Fibre) : (s.modFibre k u).queues = s.queues := rfl
@[simp] theorem State.modFibre_cores (s : State) (k : Nat) (u : Fibre → Fibre) : (s.modFibre k u).cores = s.cores := rfl
@[simp] theorem State.modFibre_clusters (s : State) (k : Nat) (u : Fibre → Fibre) : (s.modFibre k u).clusters = s.clusters := rfl
@[simp] theorem State.modFibre_dies (s : State) (k : Nat) (u : Fibre → Fibre) : (s.modFibre k u).dies = s.dies := rfl
@[simp] theorem State.modFibre_pkg (s : State) (k : Nat) (u : Fibre → Fibre) : (s.modFibre k u).pkg = s.pkg := rfl
@[simp] theorem State.modFibre_fibres (s : State) (k : Nat) (u : Fibre → Fibre) : (s.modFibre k u).fibres = s.fibres.modify k u := rfl

/-! ## mapFibres -/

@[simp] theorem State.mapFibres_clk (s : State) (u : Nat → Fibre → Fibre) : (s.mapFibres u).clk = s.clk := rfl
@[simp] theorem State.mapFibres_turns (s : State) (u : Nat → Fibre → Fibre) : (s.mapFibres u).turns = s.turns := rfl
@[simp] theorem State.mapFibres_strikes (s : State) (u : Nat → Fibre → Fibre) : (s.mapFibres u).strikes = s.strikes := rfl
@[simp] theorem State.mapFibres_lastTurn (s : State) (u : Nat → Fibre → Fibre) : (s.mapFibres u).lastTurn = s.lastTurn := rfl
@[simp] theorem State.mapFibres_cur (s : State) (u : Nat → Fibre → Fibre) : (s.mapFibres u).cur = s.cur := rfl
@[simp] theorem State.mapFibres_nextId (s : State) (u : Nat → Fibre → Fibre) : (s.mapFibres u).nextId = s.nextId := rfl
@[simp] theorem State.mapFibres_mem (s : State) (u : Nat → Fibre → Fibre) : (s.mapFibres u).mem = s.mem := rfl
@[simp] theorem State.mapFibres_past (s : State) (u : Nat → Fibre → Fibre) : (s.mapFibres u).past = s.past := rfl
@[simp] theorem State.mapFibres_wrote (s : State) (u : Nat → Fibre → Fibre) : (s.mapFibres u).wrote = s.wrote := rfl
@[simp] theorem State.mapFibres_looked (s : State) (u : Nat → Fibre → Fibre) : (s.mapFibres u).looked = s.looked := rfl
@[simp] theorem State.mapFibres_pubs (s : State) (u : Nat → Fibre → Fibre) : (s.mapFibres u).pubs = s.pubs := rfl
@[simp] theorem State.mapFibres_carried (s : State) (u : Nat → Fibre → Fibre) : (s.mapFibres u).carried = s.carried := rfl
@[simp] theorem State.mapFibres_poisoned (s : State) (u : Nat → Fibre → Fibre) : (s.mapFibres u).poisoned = s.poisoned := rfl
@[simp] theorem State.mapFibres_groups (s : State) (u : Nat → Fibre → Fibre) : (s.mapFibres u).groups = s.groups := rfl
@[simp] theorem State.mapFibres_jobs (s : State) (u : Nat → Fibre → Fibre) : (s.mapFibres u).jobs = s.jobs := rfl
@[simp] theorem State.mapFibres_ops (s : State) (u : Nat → Fibre → Fibre) : (s.mapFibres u).ops = s.ops := rfl
@[simp] theorem State.mapFibres_msgs (s : State) (u : Nat → Fibre → Fibre) : (s.mapFibres u).msgs = s.msgs := rfl
@[simp] theorem State.mapFibres_queues (s : State) (u : Nat → Fibre → Fibre) : (s.mapFibres u).queues = s.queues := rfl
@[simp] theorem State.mapFibres_cores (s : State) (u : Nat → Fibre → Fibre) : (s.mapFibres u).cores = s.cores := rfl
@[simp] theorem State.mapFibres_clusters (s : State) (u : Nat → Fibre → Fibre) : (s.mapFibres u).clusters = s.clusters := rfl
@[simp] theorem State.mapFibres_dies (s : State) (u : Nat → Fibre → Fibre) : (s.mapFibres u).dies = s.dies := rfl
@[simp] theorem State.mapFibres_pkg (s : State) (u : Nat → Fibre → Fibre) : (s.mapFibres u).pkg = s.pkg := rfl
@[simp] theorem State.mapFibres_fibres (s : State) (u : Nat → Fibre → Fibre) : (s.mapFibres u).fibres = s.fibres.mapIdx u := rfl

/-! ## setGroup -/

@[simp] theorem State.setGroup_clk (s : State) (g : Nat) (x : Group) : (s.setGroup g x).clk = s.clk := rfl
@[simp] theorem State.setGroup_turns (s : State) (g : Nat) (x : Group) : (s.setGroup g x).turns = s.turns := rfl
@[simp] theorem State.setGroup_strikes (s : State) (g : Nat) (x : Group) : (s.setGroup g x).strikes = s.strikes := rfl
@[simp] theorem State.setGroup_lastTurn (s : State) (g : Nat) (x : Group) : (s.setGroup g x).lastTurn = s.lastTurn := rfl
@[simp] theorem State.setGroup_cur (s : State) (g : Nat) (x : Group) : (s.setGroup g x).cur = s.cur := rfl
@[simp] theorem State.setGroup_nextId (s : State) (g : Nat) (x : Group) : (s.setGroup g x).nextId = s.nextId := rfl
@[simp] theorem State.setGroup_mem (s : State) (g : Nat) (x : Group) : (s.setGroup g x).mem = s.mem := rfl
@[simp] theorem State.setGroup_past (s : State) (g : Nat) (x : Group) : (s.setGroup g x).past = s.past := rfl
@[simp] theorem State.setGroup_wrote (s : State) (g : Nat) (x : Group) : (s.setGroup g x).wrote = s.wrote := rfl
@[simp] theorem State.setGroup_looked (s : State) (g : Nat) (x : Group) : (s.setGroup g x).looked = s.looked := rfl
@[simp] theorem State.setGroup_pubs (s : State) (g : Nat) (x : Group) : (s.setGroup g x).pubs = s.pubs := rfl
@[simp] theorem State.setGroup_carried (s : State) (g : Nat) (x : Group) : (s.setGroup g x).carried = s.carried := rfl
@[simp] theorem State.setGroup_poisoned (s : State) (g : Nat) (x : Group) : (s.setGroup g x).poisoned = s.poisoned := rfl
@[simp] theorem State.setGroup_fibres (s : State) (g : Nat) (x : Group) : (s.setGroup g x).fibres = s.fibres := rfl
@[simp] theorem State.setGroup_jobs (s : State) (g : Nat) (x : Group) : (s.setGroup g x).jobs = s.jobs := rfl
@[simp] theorem State.setGroup_ops (s : State) (g : Nat) (x : Group) : (s.setGroup g x).ops = s.ops := rfl
@[simp] theorem State.setGroup_msgs (s : State) (g : Nat) (x : Group) : (s.setGroup g x).msgs = s.msgs := rfl
@[simp] theorem State.setGroup_queues (s : State) (g : Nat) (x : Group) : (s.setGroup g x).queues = s.queues := rfl
@[simp] theorem State.setGroup_cores (s : State) (g : Nat) (x : Group) : (s.setGroup g x).cores = s.cores := rfl
@[simp] theorem State.setGroup_clusters (s : State) (g : Nat) (x : Group) : (s.setGroup g x).clusters = s.clusters := rfl
@[simp] theorem State.setGroup_dies (s : State) (g : Nat) (x : Group) : (s.setGroup g x).dies = s.dies := rfl
@[simp] theorem State.setGroup_pkg (s : State) (g : Nat) (x : Group) : (s.setGroup g x).pkg = s.pkg := rfl
@[simp] theorem State.setGroup_groups (s : State) (g : Nat) (x : Group) : (s.setGroup g x).groups = s.groups.set g x := rfl

/-! ## modGroup -/

@[simp] theorem State.modGroup_clk (s : State) (g : Nat) (u : Group → Group) : (s.modGroup g u).clk = s.clk := rfl
@[simp] theorem State.modGroup_turns (s : State) (g : Nat) (u : Group → Group) : (s.modGroup g u).turns = s.turns := rfl
@[simp] theorem State.modGroup_strikes (s : State) (g : Nat) (u : Group → Group) : (s.modGroup g u).strikes = s.strikes := rfl
@[simp] theorem State.modGroup_lastTurn (s : State) (g : Nat) (u : Group → Group) : (s.modGroup g u).lastTurn = s.lastTurn := rfl
@[simp] theorem State.modGroup_cur (s : State) (g : Nat) (u : Group → Group) : (s.modGroup g u).cur = s.cur := rfl
@[simp] theorem State.modGroup_nextId (s : State) (g : Nat) (u : Group → Group) : (s.modGroup g u).nextId = s.nextId := rfl
@[simp] theorem State.modGroup_mem (s : State) (g : Nat) (u : Group → Group) : (s.modGroup g u).mem = s.mem := rfl
@[simp] theorem State.modGroup_past (s : State) (g : Nat) (u : Group → Group) : (s.modGroup g u).past = s.past := rfl
@[simp] theorem State.modGroup_wrote (s : State) (g : Nat) (u : Group → Group) : (s.modGroup g u).wrote = s.wrote := rfl
@[simp] theorem State.modGroup_looked (s : State) (g : Nat) (u : Group → Group) : (s.modGroup g u).looked = s.looked := rfl
@[simp] theorem State.modGroup_pubs (s : State) (g : Nat) (u : Group → Group) : (s.modGroup g u).pubs = s.pubs := rfl
@[simp] theorem State.modGroup_carried (s : State) (g : Nat) (u : Group → Group) : (s.modGroup g u).carried = s.carried := rfl
@[simp] theorem State.modGroup_poisoned (s : State) (g : Nat) (u : Group → Group) : (s.modGroup g u).poisoned = s.poisoned := rfl
@[simp] theorem State.modGroup_fibres (s : State) (g : Nat) (u : Group → Group) : (s.modGroup g u).fibres = s.fibres := rfl
@[simp] theorem State.modGroup_jobs (s : State) (g : Nat) (u : Group → Group) : (s.modGroup g u).jobs = s.jobs := rfl
@[simp] theorem State.modGroup_ops (s : State) (g : Nat) (u : Group → Group) : (s.modGroup g u).ops = s.ops := rfl
@[simp] theorem State.modGroup_msgs (s : State) (g : Nat) (u : Group → Group) : (s.modGroup g u).msgs = s.msgs := rfl
@[simp] theorem State.modGroup_queues (s : State) (g : Nat) (u : Group → Group) : (s.modGroup g u).queues = s.queues := rfl
@[simp] theorem State.modGroup_cores (s : State) (g : Nat) (u : Group → Group) : (s.modGroup g u).cores = s.cores := rfl
@[simp] theorem State.modGroup_clusters (s : State) (g : Nat) (u : Group → Group) : (s.modGroup g u).clusters = s.clusters := rfl
@[simp] theorem State.modGroup_dies (s : State) (g : Nat) (u : Group → Group) : (s.modGroup g u).dies = s.dies := rfl
@[simp] theorem State.modGroup_pkg (s : State) (g : Nat) (u : Group → Group) : (s.modGroup g u).pkg = s.pkg := rfl
@[simp] theorem State.modGroup_groups (s : State) (g : Nat) (u : Group → Group) : (s.modGroup g u).groups = s.groups.modify g u := rfl

/-! ## modOp -/

@[simp] theorem State.modOp_clk (s : State) (id : Nat) (u : Op → Op) : (s.modOp id u).clk = s.clk := rfl
@[simp] theorem State.modOp_turns (s : State) (id : Nat) (u : Op → Op) : (s.modOp id u).turns = s.turns := rfl
@[simp] theorem State.modOp_strikes (s : State) (id : Nat) (u : Op → Op) : (s.modOp id u).strikes = s.strikes := rfl
@[simp] theorem State.modOp_lastTurn (s : State) (id : Nat) (u : Op → Op) : (s.modOp id u).lastTurn = s.lastTurn := rfl
@[simp] theorem State.modOp_cur (s : State) (id : Nat) (u : Op → Op) : (s.modOp id u).cur = s.cur := rfl
@[simp] theorem State.modOp_nextId (s : State) (id : Nat) (u : Op → Op) : (s.modOp id u).nextId = s.nextId := rfl
@[simp] theorem State.modOp_mem (s : State) (id : Nat) (u : Op → Op) : (s.modOp id u).mem = s.mem := rfl
@[simp] theorem State.modOp_past (s : State) (id : Nat) (u : Op → Op) : (s.modOp id u).past = s.past := rfl
@[simp] theorem State.modOp_wrote (s : State) (id : Nat) (u : Op → Op) : (s.modOp id u).wrote = s.wrote := rfl
@[simp] theorem State.modOp_looked (s : State) (id : Nat) (u : Op → Op) : (s.modOp id u).looked = s.looked := rfl
@[simp] theorem State.modOp_pubs (s : State) (id : Nat) (u : Op → Op) : (s.modOp id u).pubs = s.pubs := rfl
@[simp] theorem State.modOp_carried (s : State) (id : Nat) (u : Op → Op) : (s.modOp id u).carried = s.carried := rfl
@[simp] theorem State.modOp_poisoned (s : State) (id : Nat) (u : Op → Op) : (s.modOp id u).poisoned = s.poisoned := rfl
@[simp] theorem State.modOp_fibres (s : State) (id : Nat) (u : Op → Op) : (s.modOp id u).fibres = s.fibres := rfl
@[simp] theorem State.modOp_groups (s : State) (id : Nat) (u : Op → Op) : (s.modOp id u).groups = s.groups := rfl
@[simp] theorem State.modOp_jobs (s : State) (id : Nat) (u : Op → Op) : (s.modOp id u).jobs = s.jobs := rfl
@[simp] theorem State.modOp_msgs (s : State) (id : Nat) (u : Op → Op) : (s.modOp id u).msgs = s.msgs := rfl
@[simp] theorem State.modOp_queues (s : State) (id : Nat) (u : Op → Op) : (s.modOp id u).queues = s.queues := rfl
@[simp] theorem State.modOp_cores (s : State) (id : Nat) (u : Op → Op) : (s.modOp id u).cores = s.cores := rfl
@[simp] theorem State.modOp_clusters (s : State) (id : Nat) (u : Op → Op) : (s.modOp id u).clusters = s.clusters := rfl
@[simp] theorem State.modOp_dies (s : State) (id : Nat) (u : Op → Op) : (s.modOp id u).dies = s.dies := rfl
@[simp] theorem State.modOp_pkg (s : State) (id : Nat) (u : Op → Op) : (s.modOp id u).pkg = s.pkg := rfl
@[simp] theorem State.modOp_ops (s : State) (id : Nat) (u : Op → Op) : (s.modOp id u).ops = s.ops.map fun o => if o.id == id then u o else o := rfl

/-! ## dropOp -/

@[simp] theorem State.dropOp_clk (s : State) (id : Nat) : (s.dropOp id).clk = s.clk := rfl
@[simp] theorem State.dropOp_turns (s : State) (id : Nat) : (s.dropOp id).turns = s.turns := rfl
@[simp] theorem State.dropOp_strikes (s : State) (id : Nat) : (s.dropOp id).strikes = s.strikes := rfl
@[simp] theorem State.dropOp_lastTurn (s : State) (id : Nat) : (s.dropOp id).lastTurn = s.lastTurn := rfl
@[simp] theorem State.dropOp_cur (s : State) (id : Nat) : (s.dropOp id).cur = s.cur := rfl
@[simp] theorem State.dropOp_nextId (s : State) (id : Nat) : (s.dropOp id).nextId = s.nextId := rfl
@[simp] theorem State.dropOp_mem (s : State) (id : Nat) : (s.dropOp id).mem = s.mem := rfl
@[simp] theorem State.dropOp_past (s : State) (id : Nat) : (s.dropOp id).past = s.past := rfl
@[simp] theorem State.dropOp_wrote (s : State) (id : Nat) : (s.dropOp id).wrote = s.wrote := rfl
@[simp] theorem State.dropOp_looked (s : State) (id : Nat) : (s.dropOp id).looked = s.looked := rfl
@[simp] theorem State.dropOp_pubs (s : State) (id : Nat) : (s.dropOp id).pubs = s.pubs := rfl
@[simp] theorem State.dropOp_poisoned (s : State) (id : Nat) : (s.dropOp id).poisoned = s.poisoned := rfl
@[simp] theorem State.dropOp_fibres (s : State) (id : Nat) : (s.dropOp id).fibres = s.fibres := rfl
@[simp] theorem State.dropOp_groups (s : State) (id : Nat) : (s.dropOp id).groups = s.groups := rfl
@[simp] theorem State.dropOp_jobs (s : State) (id : Nat) : (s.dropOp id).jobs = s.jobs := rfl
@[simp] theorem State.dropOp_msgs (s : State) (id : Nat) : (s.dropOp id).msgs = s.msgs := rfl
@[simp] theorem State.dropOp_queues (s : State) (id : Nat) : (s.dropOp id).queues = s.queues := rfl
@[simp] theorem State.dropOp_cores (s : State) (id : Nat) : (s.dropOp id).cores = s.cores := rfl
@[simp] theorem State.dropOp_clusters (s : State) (id : Nat) : (s.dropOp id).clusters = s.clusters := rfl
@[simp] theorem State.dropOp_dies (s : State) (id : Nat) : (s.dropOp id).dies = s.dies := rfl
@[simp] theorem State.dropOp_pkg (s : State) (id : Nat) : (s.dropOp id).pkg = s.pkg := rfl
@[simp] theorem State.dropOp_ops (s : State) (id : Nat) : (s.dropOp id).ops = s.ops.filter fun o => o.id != id := rfl

/-! ## addOp -/

@[simp] theorem State.addOp_clk (s : State) (o : Op) : (s.addOp o).clk = s.clk := rfl
@[simp] theorem State.addOp_turns (s : State) (o : Op) : (s.addOp o).turns = s.turns := rfl
@[simp] theorem State.addOp_strikes (s : State) (o : Op) : (s.addOp o).strikes = s.strikes := rfl
@[simp] theorem State.addOp_lastTurn (s : State) (o : Op) : (s.addOp o).lastTurn = s.lastTurn := rfl
@[simp] theorem State.addOp_cur (s : State) (o : Op) : (s.addOp o).cur = s.cur := rfl
@[simp] theorem State.addOp_nextId (s : State) (o : Op) : (s.addOp o).nextId = s.nextId := rfl
@[simp] theorem State.addOp_mem (s : State) (o : Op) : (s.addOp o).mem = s.mem := rfl
@[simp] theorem State.addOp_past (s : State) (o : Op) : (s.addOp o).past = s.past := rfl
@[simp] theorem State.addOp_wrote (s : State) (o : Op) : (s.addOp o).wrote = s.wrote := rfl
@[simp] theorem State.addOp_looked (s : State) (o : Op) : (s.addOp o).looked = s.looked := rfl
@[simp] theorem State.addOp_pubs (s : State) (o : Op) : (s.addOp o).pubs = s.pubs := rfl
@[simp] theorem State.addOp_carried (s : State) (o : Op) : (s.addOp o).carried = s.carried := rfl
@[simp] theorem State.addOp_poisoned (s : State) (o : Op) : (s.addOp o).poisoned = s.poisoned := rfl
@[simp] theorem State.addOp_fibres (s : State) (o : Op) : (s.addOp o).fibres = s.fibres := rfl
@[simp] theorem State.addOp_groups (s : State) (o : Op) : (s.addOp o).groups = s.groups := rfl
@[simp] theorem State.addOp_jobs (s : State) (o : Op) : (s.addOp o).jobs = s.jobs := rfl
@[simp] theorem State.addOp_msgs (s : State) (o : Op) : (s.addOp o).msgs = s.msgs := rfl
@[simp] theorem State.addOp_queues (s : State) (o : Op) : (s.addOp o).queues = s.queues := rfl
@[simp] theorem State.addOp_cores (s : State) (o : Op) : (s.addOp o).cores = s.cores := rfl
@[simp] theorem State.addOp_clusters (s : State) (o : Op) : (s.addOp o).clusters = s.clusters := rfl
@[simp] theorem State.addOp_dies (s : State) (o : Op) : (s.addOp o).dies = s.dies := rfl
@[simp] theorem State.addOp_pkg (s : State) (o : Op) : (s.addOp o).pkg = s.pkg := rfl
@[simp] theorem State.addOp_ops (s : State) (o : Op) : (s.addOp o).ops = s.ops ++ [o] := rfl

/-! ## addMsg -/

@[simp] theorem State.addMsg_clk (s : State) (m : Msg) : (s.addMsg m).clk = s.clk := rfl
@[simp] theorem State.addMsg_turns (s : State) (m : Msg) : (s.addMsg m).turns = s.turns := rfl
@[simp] theorem State.addMsg_strikes (s : State) (m : Msg) : (s.addMsg m).strikes = s.strikes := rfl
@[simp] theorem State.addMsg_lastTurn (s : State) (m : Msg) : (s.addMsg m).lastTurn = s.lastTurn := rfl
@[simp] theorem State.addMsg_cur (s : State) (m : Msg) : (s.addMsg m).cur = s.cur := rfl
@[simp] theorem State.addMsg_nextId (s : State) (m : Msg) : (s.addMsg m).nextId = s.nextId := rfl
@[simp] theorem State.addMsg_mem (s : State) (m : Msg) : (s.addMsg m).mem = s.mem := rfl
@[simp] theorem State.addMsg_past (s : State) (m : Msg) : (s.addMsg m).past = s.past := rfl
@[simp] theorem State.addMsg_wrote (s : State) (m : Msg) : (s.addMsg m).wrote = s.wrote := rfl
@[simp] theorem State.addMsg_looked (s : State) (m : Msg) : (s.addMsg m).looked = s.looked := rfl
@[simp] theorem State.addMsg_pubs (s : State) (m : Msg) : (s.addMsg m).pubs = s.pubs := rfl
@[simp] theorem State.addMsg_carried (s : State) (m : Msg) : (s.addMsg m).carried = s.carried := rfl
@[simp] theorem State.addMsg_poisoned (s : State) (m : Msg) : (s.addMsg m).poisoned = s.poisoned := rfl
@[simp] theorem State.addMsg_fibres (s : State) (m : Msg) : (s.addMsg m).fibres = s.fibres := rfl
@[simp] theorem State.addMsg_groups (s : State) (m : Msg) : (s.addMsg m).groups = s.groups := rfl
@[simp] theorem State.addMsg_jobs (s : State) (m : Msg) : (s.addMsg m).jobs = s.jobs := rfl
@[simp] theorem State.addMsg_ops (s : State) (m : Msg) : (s.addMsg m).ops = s.ops := rfl
@[simp] theorem State.addMsg_queues (s : State) (m : Msg) : (s.addMsg m).queues = s.queues := rfl
@[simp] theorem State.addMsg_cores (s : State) (m : Msg) : (s.addMsg m).cores = s.cores := rfl
@[simp] theorem State.addMsg_clusters (s : State) (m : Msg) : (s.addMsg m).clusters = s.clusters := rfl
@[simp] theorem State.addMsg_dies (s : State) (m : Msg) : (s.addMsg m).dies = s.dies := rfl
@[simp] theorem State.addMsg_pkg (s : State) (m : Msg) : (s.addMsg m).pkg = s.pkg := rfl
@[simp] theorem State.addMsg_msgs (s : State) (m : Msg) : (s.addMsg m).msgs = s.msgs ++ [m] := rfl

/-! ## dropMsg -/

@[simp] theorem State.dropMsg_clk (s : State) (id : Nat) : (s.dropMsg id).clk = s.clk := rfl
@[simp] theorem State.dropMsg_turns (s : State) (id : Nat) : (s.dropMsg id).turns = s.turns := rfl
@[simp] theorem State.dropMsg_strikes (s : State) (id : Nat) : (s.dropMsg id).strikes = s.strikes := rfl
@[simp] theorem State.dropMsg_lastTurn (s : State) (id : Nat) : (s.dropMsg id).lastTurn = s.lastTurn := rfl
@[simp] theorem State.dropMsg_cur (s : State) (id : Nat) : (s.dropMsg id).cur = s.cur := rfl
@[simp] theorem State.dropMsg_nextId (s : State) (id : Nat) : (s.dropMsg id).nextId = s.nextId := rfl
@[simp] theorem State.dropMsg_mem (s : State) (id : Nat) : (s.dropMsg id).mem = s.mem := rfl
@[simp] theorem State.dropMsg_past (s : State) (id : Nat) : (s.dropMsg id).past = s.past := rfl
@[simp] theorem State.dropMsg_wrote (s : State) (id : Nat) : (s.dropMsg id).wrote = s.wrote := rfl
@[simp] theorem State.dropMsg_looked (s : State) (id : Nat) : (s.dropMsg id).looked = s.looked := rfl
@[simp] theorem State.dropMsg_pubs (s : State) (id : Nat) : (s.dropMsg id).pubs = s.pubs := rfl
@[simp] theorem State.dropMsg_carried (s : State) (id : Nat) : (s.dropMsg id).carried = s.carried := rfl
@[simp] theorem State.dropMsg_poisoned (s : State) (id : Nat) : (s.dropMsg id).poisoned = s.poisoned := rfl
@[simp] theorem State.dropMsg_fibres (s : State) (id : Nat) : (s.dropMsg id).fibres = s.fibres := rfl
@[simp] theorem State.dropMsg_groups (s : State) (id : Nat) : (s.dropMsg id).groups = s.groups := rfl
@[simp] theorem State.dropMsg_jobs (s : State) (id : Nat) : (s.dropMsg id).jobs = s.jobs := rfl
@[simp] theorem State.dropMsg_ops (s : State) (id : Nat) : (s.dropMsg id).ops = s.ops := rfl
@[simp] theorem State.dropMsg_queues (s : State) (id : Nat) : (s.dropMsg id).queues = s.queues := rfl
@[simp] theorem State.dropMsg_cores (s : State) (id : Nat) : (s.dropMsg id).cores = s.cores := rfl
@[simp] theorem State.dropMsg_clusters (s : State) (id : Nat) : (s.dropMsg id).clusters = s.clusters := rfl
@[simp] theorem State.dropMsg_dies (s : State) (id : Nat) : (s.dropMsg id).dies = s.dies := rfl
@[simp] theorem State.dropMsg_pkg (s : State) (id : Nat) : (s.dropMsg id).pkg = s.pkg := rfl
@[simp] theorem State.dropMsg_msgs (s : State) (id : Nat) : (s.dropMsg id).msgs = s.msgs.filter fun m => m.id != id := rfl

/-! ## modQueue -/

@[simp] theorem State.modQueue_clk (s : State) (j n : Nat) (u : Queue → Queue) : (s.modQueue j n u).clk = s.clk := rfl
@[simp] theorem State.modQueue_turns (s : State) (j n : Nat) (u : Queue → Queue) : (s.modQueue j n u).turns = s.turns := rfl
@[simp] theorem State.modQueue_strikes (s : State) (j n : Nat) (u : Queue → Queue) : (s.modQueue j n u).strikes = s.strikes := rfl
@[simp] theorem State.modQueue_lastTurn (s : State) (j n : Nat) (u : Queue → Queue) : (s.modQueue j n u).lastTurn = s.lastTurn := rfl
@[simp] theorem State.modQueue_cur (s : State) (j n : Nat) (u : Queue → Queue) : (s.modQueue j n u).cur = s.cur := rfl
@[simp] theorem State.modQueue_nextId (s : State) (j n : Nat) (u : Queue → Queue) : (s.modQueue j n u).nextId = s.nextId := rfl
@[simp] theorem State.modQueue_mem (s : State) (j n : Nat) (u : Queue → Queue) : (s.modQueue j n u).mem = s.mem := rfl
@[simp] theorem State.modQueue_past (s : State) (j n : Nat) (u : Queue → Queue) : (s.modQueue j n u).past = s.past := rfl
@[simp] theorem State.modQueue_wrote (s : State) (j n : Nat) (u : Queue → Queue) : (s.modQueue j n u).wrote = s.wrote := rfl
@[simp] theorem State.modQueue_looked (s : State) (j n : Nat) (u : Queue → Queue) : (s.modQueue j n u).looked = s.looked := rfl
@[simp] theorem State.modQueue_pubs (s : State) (j n : Nat) (u : Queue → Queue) : (s.modQueue j n u).pubs = s.pubs := rfl
@[simp] theorem State.modQueue_carried (s : State) (j n : Nat) (u : Queue → Queue) : (s.modQueue j n u).carried = s.carried := rfl
@[simp] theorem State.modQueue_poisoned (s : State) (j n : Nat) (u : Queue → Queue) : (s.modQueue j n u).poisoned = s.poisoned := rfl
@[simp] theorem State.modQueue_fibres (s : State) (j n : Nat) (u : Queue → Queue) : (s.modQueue j n u).fibres = s.fibres := rfl
@[simp] theorem State.modQueue_groups (s : State) (j n : Nat) (u : Queue → Queue) : (s.modQueue j n u).groups = s.groups := rfl
@[simp] theorem State.modQueue_jobs (s : State) (j n : Nat) (u : Queue → Queue) : (s.modQueue j n u).jobs = s.jobs := rfl
@[simp] theorem State.modQueue_ops (s : State) (j n : Nat) (u : Queue → Queue) : (s.modQueue j n u).ops = s.ops := rfl
@[simp] theorem State.modQueue_msgs (s : State) (j n : Nat) (u : Queue → Queue) : (s.modQueue j n u).msgs = s.msgs := rfl
@[simp] theorem State.modQueue_cores (s : State) (j n : Nat) (u : Queue → Queue) : (s.modQueue j n u).cores = s.cores := rfl
@[simp] theorem State.modQueue_clusters (s : State) (j n : Nat) (u : Queue → Queue) : (s.modQueue j n u).clusters = s.clusters := rfl
@[simp] theorem State.modQueue_dies (s : State) (j n : Nat) (u : Queue → Queue) : (s.modQueue j n u).dies = s.dies := rfl
@[simp] theorem State.modQueue_pkg (s : State) (j n : Nat) (u : Queue → Queue) : (s.modQueue j n u).pkg = s.pkg := rfl

/-! ## modCore -/

@[simp] theorem State.modCore_clk (s : State) (c : Nat) (u : Core → Core) : (s.modCore c u).clk = s.clk := rfl
@[simp] theorem State.modCore_turns (s : State) (c : Nat) (u : Core → Core) : (s.modCore c u).turns = s.turns := rfl
@[simp] theorem State.modCore_strikes (s : State) (c : Nat) (u : Core → Core) : (s.modCore c u).strikes = s.strikes := rfl
@[simp] theorem State.modCore_lastTurn (s : State) (c : Nat) (u : Core → Core) : (s.modCore c u).lastTurn = s.lastTurn := rfl
@[simp] theorem State.modCore_cur (s : State) (c : Nat) (u : Core → Core) : (s.modCore c u).cur = s.cur := rfl
@[simp] theorem State.modCore_nextId (s : State) (c : Nat) (u : Core → Core) : (s.modCore c u).nextId = s.nextId := rfl
@[simp] theorem State.modCore_mem (s : State) (c : Nat) (u : Core → Core) : (s.modCore c u).mem = s.mem := rfl
@[simp] theorem State.modCore_past (s : State) (c : Nat) (u : Core → Core) : (s.modCore c u).past = s.past := rfl
@[simp] theorem State.modCore_wrote (s : State) (c : Nat) (u : Core → Core) : (s.modCore c u).wrote = s.wrote := rfl
@[simp] theorem State.modCore_looked (s : State) (c : Nat) (u : Core → Core) : (s.modCore c u).looked = s.looked := rfl
@[simp] theorem State.modCore_pubs (s : State) (c : Nat) (u : Core → Core) : (s.modCore c u).pubs = s.pubs := rfl
@[simp] theorem State.modCore_carried (s : State) (c : Nat) (u : Core → Core) : (s.modCore c u).carried = s.carried := rfl
@[simp] theorem State.modCore_poisoned (s : State) (c : Nat) (u : Core → Core) : (s.modCore c u).poisoned = s.poisoned := rfl
@[simp] theorem State.modCore_fibres (s : State) (c : Nat) (u : Core → Core) : (s.modCore c u).fibres = s.fibres := rfl
@[simp] theorem State.modCore_groups (s : State) (c : Nat) (u : Core → Core) : (s.modCore c u).groups = s.groups := rfl
@[simp] theorem State.modCore_jobs (s : State) (c : Nat) (u : Core → Core) : (s.modCore c u).jobs = s.jobs := rfl
@[simp] theorem State.modCore_ops (s : State) (c : Nat) (u : Core → Core) : (s.modCore c u).ops = s.ops := rfl
@[simp] theorem State.modCore_msgs (s : State) (c : Nat) (u : Core → Core) : (s.modCore c u).msgs = s.msgs := rfl
@[simp] theorem State.modCore_queues (s : State) (c : Nat) (u : Core → Core) : (s.modCore c u).queues = s.queues := rfl
@[simp] theorem State.modCore_clusters (s : State) (c : Nat) (u : Core → Core) : (s.modCore c u).clusters = s.clusters := rfl
@[simp] theorem State.modCore_dies (s : State) (c : Nat) (u : Core → Core) : (s.modCore c u).dies = s.dies := rfl
@[simp] theorem State.modCore_pkg (s : State) (c : Nat) (u : Core → Core) : (s.modCore c u).pkg = s.pkg := rfl
@[simp] theorem State.modCore_cores (s : State) (c : Nat) (u : Core → Core) : (s.modCore c u).cores = assign c (u (s.core c)) s.cores := rfl

/-! ## modCluster -/

@[simp] theorem State.modCluster_clk (s : State) (c : Nat) (u : Cluster → Cluster) : (s.modCluster c u).clk = s.clk := rfl
@[simp] theorem State.modCluster_turns (s : State) (c : Nat) (u : Cluster → Cluster) : (s.modCluster c u).turns = s.turns := rfl
@[simp] theorem State.modCluster_strikes (s : State) (c : Nat) (u : Cluster → Cluster) : (s.modCluster c u).strikes = s.strikes := rfl
@[simp] theorem State.modCluster_lastTurn (s : State) (c : Nat) (u : Cluster → Cluster) : (s.modCluster c u).lastTurn = s.lastTurn := rfl
@[simp] theorem State.modCluster_cur (s : State) (c : Nat) (u : Cluster → Cluster) : (s.modCluster c u).cur = s.cur := rfl
@[simp] theorem State.modCluster_nextId (s : State) (c : Nat) (u : Cluster → Cluster) : (s.modCluster c u).nextId = s.nextId := rfl
@[simp] theorem State.modCluster_mem (s : State) (c : Nat) (u : Cluster → Cluster) : (s.modCluster c u).mem = s.mem := rfl
@[simp] theorem State.modCluster_past (s : State) (c : Nat) (u : Cluster → Cluster) : (s.modCluster c u).past = s.past := rfl
@[simp] theorem State.modCluster_wrote (s : State) (c : Nat) (u : Cluster → Cluster) : (s.modCluster c u).wrote = s.wrote := rfl
@[simp] theorem State.modCluster_looked (s : State) (c : Nat) (u : Cluster → Cluster) : (s.modCluster c u).looked = s.looked := rfl
@[simp] theorem State.modCluster_pubs (s : State) (c : Nat) (u : Cluster → Cluster) : (s.modCluster c u).pubs = s.pubs := rfl
@[simp] theorem State.modCluster_carried (s : State) (c : Nat) (u : Cluster → Cluster) : (s.modCluster c u).carried = s.carried := rfl
@[simp] theorem State.modCluster_poisoned (s : State) (c : Nat) (u : Cluster → Cluster) : (s.modCluster c u).poisoned = s.poisoned := rfl
@[simp] theorem State.modCluster_fibres (s : State) (c : Nat) (u : Cluster → Cluster) : (s.modCluster c u).fibres = s.fibres := rfl
@[simp] theorem State.modCluster_groups (s : State) (c : Nat) (u : Cluster → Cluster) : (s.modCluster c u).groups = s.groups := rfl
@[simp] theorem State.modCluster_jobs (s : State) (c : Nat) (u : Cluster → Cluster) : (s.modCluster c u).jobs = s.jobs := rfl
@[simp] theorem State.modCluster_ops (s : State) (c : Nat) (u : Cluster → Cluster) : (s.modCluster c u).ops = s.ops := rfl
@[simp] theorem State.modCluster_msgs (s : State) (c : Nat) (u : Cluster → Cluster) : (s.modCluster c u).msgs = s.msgs := rfl
@[simp] theorem State.modCluster_queues (s : State) (c : Nat) (u : Cluster → Cluster) : (s.modCluster c u).queues = s.queues := rfl
@[simp] theorem State.modCluster_cores (s : State) (c : Nat) (u : Cluster → Cluster) : (s.modCluster c u).cores = s.cores := rfl
@[simp] theorem State.modCluster_dies (s : State) (c : Nat) (u : Cluster → Cluster) : (s.modCluster c u).dies = s.dies := rfl
@[simp] theorem State.modCluster_pkg (s : State) (c : Nat) (u : Cluster → Cluster) : (s.modCluster c u).pkg = s.pkg := rfl
@[simp] theorem State.modCluster_clusters (s : State) (c : Nat) (u : Cluster → Cluster) : (s.modCluster c u).clusters = assign c (u (s.cluster c)) s.clusters := rfl

/-! ## modDie -/

@[simp] theorem State.modDie_clk (s : State) (d : Nat) (u : Die → Die) : (s.modDie d u).clk = s.clk := rfl
@[simp] theorem State.modDie_turns (s : State) (d : Nat) (u : Die → Die) : (s.modDie d u).turns = s.turns := rfl
@[simp] theorem State.modDie_strikes (s : State) (d : Nat) (u : Die → Die) : (s.modDie d u).strikes = s.strikes := rfl
@[simp] theorem State.modDie_lastTurn (s : State) (d : Nat) (u : Die → Die) : (s.modDie d u).lastTurn = s.lastTurn := rfl
@[simp] theorem State.modDie_cur (s : State) (d : Nat) (u : Die → Die) : (s.modDie d u).cur = s.cur := rfl
@[simp] theorem State.modDie_nextId (s : State) (d : Nat) (u : Die → Die) : (s.modDie d u).nextId = s.nextId := rfl
@[simp] theorem State.modDie_mem (s : State) (d : Nat) (u : Die → Die) : (s.modDie d u).mem = s.mem := rfl
@[simp] theorem State.modDie_past (s : State) (d : Nat) (u : Die → Die) : (s.modDie d u).past = s.past := rfl
@[simp] theorem State.modDie_wrote (s : State) (d : Nat) (u : Die → Die) : (s.modDie d u).wrote = s.wrote := rfl
@[simp] theorem State.modDie_looked (s : State) (d : Nat) (u : Die → Die) : (s.modDie d u).looked = s.looked := rfl
@[simp] theorem State.modDie_pubs (s : State) (d : Nat) (u : Die → Die) : (s.modDie d u).pubs = s.pubs := rfl
@[simp] theorem State.modDie_carried (s : State) (d : Nat) (u : Die → Die) : (s.modDie d u).carried = s.carried := rfl
@[simp] theorem State.modDie_poisoned (s : State) (d : Nat) (u : Die → Die) : (s.modDie d u).poisoned = s.poisoned := rfl
@[simp] theorem State.modDie_fibres (s : State) (d : Nat) (u : Die → Die) : (s.modDie d u).fibres = s.fibres := rfl
@[simp] theorem State.modDie_groups (s : State) (d : Nat) (u : Die → Die) : (s.modDie d u).groups = s.groups := rfl
@[simp] theorem State.modDie_jobs (s : State) (d : Nat) (u : Die → Die) : (s.modDie d u).jobs = s.jobs := rfl
@[simp] theorem State.modDie_ops (s : State) (d : Nat) (u : Die → Die) : (s.modDie d u).ops = s.ops := rfl
@[simp] theorem State.modDie_msgs (s : State) (d : Nat) (u : Die → Die) : (s.modDie d u).msgs = s.msgs := rfl
@[simp] theorem State.modDie_queues (s : State) (d : Nat) (u : Die → Die) : (s.modDie d u).queues = s.queues := rfl
@[simp] theorem State.modDie_cores (s : State) (d : Nat) (u : Die → Die) : (s.modDie d u).cores = s.cores := rfl
@[simp] theorem State.modDie_clusters (s : State) (d : Nat) (u : Die → Die) : (s.modDie d u).clusters = s.clusters := rfl
@[simp] theorem State.modDie_pkg (s : State) (d : Nat) (u : Die → Die) : (s.modDie d u).pkg = s.pkg := rfl
@[simp] theorem State.modDie_dies (s : State) (d : Nat) (u : Die → Die) : (s.modDie d u).dies = assign d (u (s.die d)) s.dies := rfl

/-! ## modPkg -/

@[simp] theorem State.modPkg_clk (s : State) (u : Pkg → Pkg) : (s.modPkg u).clk = s.clk := rfl
@[simp] theorem State.modPkg_turns (s : State) (u : Pkg → Pkg) : (s.modPkg u).turns = s.turns := rfl
@[simp] theorem State.modPkg_strikes (s : State) (u : Pkg → Pkg) : (s.modPkg u).strikes = s.strikes := rfl
@[simp] theorem State.modPkg_lastTurn (s : State) (u : Pkg → Pkg) : (s.modPkg u).lastTurn = s.lastTurn := rfl
@[simp] theorem State.modPkg_cur (s : State) (u : Pkg → Pkg) : (s.modPkg u).cur = s.cur := rfl
@[simp] theorem State.modPkg_nextId (s : State) (u : Pkg → Pkg) : (s.modPkg u).nextId = s.nextId := rfl
@[simp] theorem State.modPkg_mem (s : State) (u : Pkg → Pkg) : (s.modPkg u).mem = s.mem := rfl
@[simp] theorem State.modPkg_past (s : State) (u : Pkg → Pkg) : (s.modPkg u).past = s.past := rfl
@[simp] theorem State.modPkg_wrote (s : State) (u : Pkg → Pkg) : (s.modPkg u).wrote = s.wrote := rfl
@[simp] theorem State.modPkg_looked (s : State) (u : Pkg → Pkg) : (s.modPkg u).looked = s.looked := rfl
@[simp] theorem State.modPkg_pubs (s : State) (u : Pkg → Pkg) : (s.modPkg u).pubs = s.pubs := rfl
@[simp] theorem State.modPkg_carried (s : State) (u : Pkg → Pkg) : (s.modPkg u).carried = s.carried := rfl
@[simp] theorem State.modPkg_poisoned (s : State) (u : Pkg → Pkg) : (s.modPkg u).poisoned = s.poisoned := rfl
@[simp] theorem State.modPkg_fibres (s : State) (u : Pkg → Pkg) : (s.modPkg u).fibres = s.fibres := rfl
@[simp] theorem State.modPkg_groups (s : State) (u : Pkg → Pkg) : (s.modPkg u).groups = s.groups := rfl
@[simp] theorem State.modPkg_jobs (s : State) (u : Pkg → Pkg) : (s.modPkg u).jobs = s.jobs := rfl
@[simp] theorem State.modPkg_ops (s : State) (u : Pkg → Pkg) : (s.modPkg u).ops = s.ops := rfl
@[simp] theorem State.modPkg_msgs (s : State) (u : Pkg → Pkg) : (s.modPkg u).msgs = s.msgs := rfl
@[simp] theorem State.modPkg_queues (s : State) (u : Pkg → Pkg) : (s.modPkg u).queues = s.queues := rfl
@[simp] theorem State.modPkg_cores (s : State) (u : Pkg → Pkg) : (s.modPkg u).cores = s.cores := rfl
@[simp] theorem State.modPkg_clusters (s : State) (u : Pkg → Pkg) : (s.modPkg u).clusters = s.clusters := rfl
@[simp] theorem State.modPkg_dies (s : State) (u : Pkg → Pkg) : (s.modPkg u).dies = s.dies := rfl
@[simp] theorem State.modPkg_pkg (s : State) (u : Pkg → Pkg) : (s.modPkg u).pkg = u s.pkg := rfl

/-! ## putBytes -/

@[simp] theorem State.putBytes_clk (s : State) (l : Nat) (bs : List Byte) : (s.putBytes l bs).clk = s.clk := rfl
@[simp] theorem State.putBytes_turns (s : State) (l : Nat) (bs : List Byte) : (s.putBytes l bs).turns = s.turns := rfl
@[simp] theorem State.putBytes_strikes (s : State) (l : Nat) (bs : List Byte) : (s.putBytes l bs).strikes = s.strikes := rfl
@[simp] theorem State.putBytes_lastTurn (s : State) (l : Nat) (bs : List Byte) : (s.putBytes l bs).lastTurn = s.lastTurn := rfl
@[simp] theorem State.putBytes_cur (s : State) (l : Nat) (bs : List Byte) : (s.putBytes l bs).cur = s.cur := rfl
@[simp] theorem State.putBytes_nextId (s : State) (l : Nat) (bs : List Byte) : (s.putBytes l bs).nextId = s.nextId := rfl
@[simp] theorem State.putBytes_wrote (s : State) (l : Nat) (bs : List Byte) : (s.putBytes l bs).wrote = s.wrote := rfl
@[simp] theorem State.putBytes_looked (s : State) (l : Nat) (bs : List Byte) : (s.putBytes l bs).looked = s.looked := rfl
@[simp] theorem State.putBytes_pubs (s : State) (l : Nat) (bs : List Byte) : (s.putBytes l bs).pubs = s.pubs := rfl
@[simp] theorem State.putBytes_carried (s : State) (l : Nat) (bs : List Byte) : (s.putBytes l bs).carried = s.carried := rfl
@[simp] theorem State.putBytes_poisoned (s : State) (l : Nat) (bs : List Byte) : (s.putBytes l bs).poisoned = s.poisoned := rfl
@[simp] theorem State.putBytes_fibres (s : State) (l : Nat) (bs : List Byte) : (s.putBytes l bs).fibres = s.fibres := rfl
@[simp] theorem State.putBytes_groups (s : State) (l : Nat) (bs : List Byte) : (s.putBytes l bs).groups = s.groups := rfl
@[simp] theorem State.putBytes_jobs (s : State) (l : Nat) (bs : List Byte) : (s.putBytes l bs).jobs = s.jobs := rfl
@[simp] theorem State.putBytes_ops (s : State) (l : Nat) (bs : List Byte) : (s.putBytes l bs).ops = s.ops := rfl
@[simp] theorem State.putBytes_msgs (s : State) (l : Nat) (bs : List Byte) : (s.putBytes l bs).msgs = s.msgs := rfl
@[simp] theorem State.putBytes_queues (s : State) (l : Nat) (bs : List Byte) : (s.putBytes l bs).queues = s.queues := rfl
@[simp] theorem State.putBytes_cores (s : State) (l : Nat) (bs : List Byte) : (s.putBytes l bs).cores = s.cores := rfl
@[simp] theorem State.putBytes_clusters (s : State) (l : Nat) (bs : List Byte) : (s.putBytes l bs).clusters = s.clusters := rfl
@[simp] theorem State.putBytes_dies (s : State) (l : Nat) (bs : List Byte) : (s.putBytes l bs).dies = s.dies := rfl
@[simp] theorem State.putBytes_pkg (s : State) (l : Nat) (bs : List Byte) : (s.putBytes l bs).pkg = s.pkg := rfl
@[simp] theorem State.putBytes_mem (s : State) (l : Nat) (bs : List Byte) : (s.putBytes l bs).mem = Memory.putAll s.mem l bs := rfl

/-! ## store -/

@[simp] theorem State.store_clk (s : State) (l : Nat) (bs : List Byte) : (s.store l bs).clk = s.clk := rfl
@[simp] theorem State.store_turns (s : State) (l : Nat) (bs : List Byte) : (s.store l bs).turns = s.turns := rfl
@[simp] theorem State.store_strikes (s : State) (l : Nat) (bs : List Byte) : (s.store l bs).strikes = s.strikes := rfl
@[simp] theorem State.store_lastTurn (s : State) (l : Nat) (bs : List Byte) : (s.store l bs).lastTurn = s.lastTurn := rfl
@[simp] theorem State.store_cur (s : State) (l : Nat) (bs : List Byte) : (s.store l bs).cur = s.cur := rfl
@[simp] theorem State.store_nextId (s : State) (l : Nat) (bs : List Byte) : (s.store l bs).nextId = s.nextId := rfl
@[simp] theorem State.store_wrote (s : State) (l : Nat) (bs : List Byte) : (s.store l bs).wrote = s.wrote := rfl
@[simp] theorem State.store_looked (s : State) (l : Nat) (bs : List Byte) : (s.store l bs).looked = s.looked := rfl
@[simp] theorem State.store_pubs (s : State) (l : Nat) (bs : List Byte) : (s.store l bs).pubs = s.pubs := rfl
@[simp] theorem State.store_carried (s : State) (l : Nat) (bs : List Byte) : (s.store l bs).carried = s.carried := rfl
@[simp] theorem State.store_fibres (s : State) (l : Nat) (bs : List Byte) : (s.store l bs).fibres = s.fibres := rfl
@[simp] theorem State.store_groups (s : State) (l : Nat) (bs : List Byte) : (s.store l bs).groups = s.groups := rfl
@[simp] theorem State.store_jobs (s : State) (l : Nat) (bs : List Byte) : (s.store l bs).jobs = s.jobs := rfl
@[simp] theorem State.store_ops (s : State) (l : Nat) (bs : List Byte) : (s.store l bs).ops = s.ops := rfl
@[simp] theorem State.store_msgs (s : State) (l : Nat) (bs : List Byte) : (s.store l bs).msgs = s.msgs := rfl
@[simp] theorem State.store_queues (s : State) (l : Nat) (bs : List Byte) : (s.store l bs).queues = s.queues := rfl
@[simp] theorem State.store_cores (s : State) (l : Nat) (bs : List Byte) : (s.store l bs).cores = s.cores := rfl
@[simp] theorem State.store_clusters (s : State) (l : Nat) (bs : List Byte) : (s.store l bs).clusters = s.clusters := rfl
@[simp] theorem State.store_dies (s : State) (l : Nat) (bs : List Byte) : (s.store l bs).dies = s.dies := rfl
@[simp] theorem State.store_pkg (s : State) (l : Nat) (bs : List Byte) : (s.store l bs).pkg = s.pkg := rfl
@[simp] theorem State.store_mem (s : State) (l : Nat) (bs : List Byte) : (s.store l bs).mem = Memory.putAll s.mem l bs := rfl

/-! ## waitFor -/

@[simp] theorem State.waitFor_clk (s : State) (k : Nat) (f : Fibre) (w : Why) : (s.waitFor k f w).clk = s.clk := rfl
@[simp] theorem State.waitFor_turns (s : State) (k : Nat) (f : Fibre) (w : Why) : (s.waitFor k f w).turns = s.turns := rfl
@[simp] theorem State.waitFor_strikes (s : State) (k : Nat) (f : Fibre) (w : Why) : (s.waitFor k f w).strikes = s.strikes := rfl
@[simp] theorem State.waitFor_lastTurn (s : State) (k : Nat) (f : Fibre) (w : Why) : (s.waitFor k f w).lastTurn = s.lastTurn := rfl
@[simp] theorem State.waitFor_cur (s : State) (k : Nat) (f : Fibre) (w : Why) : (s.waitFor k f w).cur = s.cur := rfl
@[simp] theorem State.waitFor_nextId (s : State) (k : Nat) (f : Fibre) (w : Why) : (s.waitFor k f w).nextId = s.nextId := rfl
@[simp] theorem State.waitFor_mem (s : State) (k : Nat) (f : Fibre) (w : Why) : (s.waitFor k f w).mem = s.mem := rfl
@[simp] theorem State.waitFor_past (s : State) (k : Nat) (f : Fibre) (w : Why) : (s.waitFor k f w).past = s.past := rfl
@[simp] theorem State.waitFor_wrote (s : State) (k : Nat) (f : Fibre) (w : Why) : (s.waitFor k f w).wrote = s.wrote := rfl
@[simp] theorem State.waitFor_looked (s : State) (k : Nat) (f : Fibre) (w : Why) : (s.waitFor k f w).looked = s.looked := rfl
@[simp] theorem State.waitFor_pubs (s : State) (k : Nat) (f : Fibre) (w : Why) : (s.waitFor k f w).pubs = s.pubs := rfl
@[simp] theorem State.waitFor_carried (s : State) (k : Nat) (f : Fibre) (w : Why) : (s.waitFor k f w).carried = s.carried := rfl
@[simp] theorem State.waitFor_poisoned (s : State) (k : Nat) (f : Fibre) (w : Why) : (s.waitFor k f w).poisoned = s.poisoned := rfl
@[simp] theorem State.waitFor_groups (s : State) (k : Nat) (f : Fibre) (w : Why) : (s.waitFor k f w).groups = s.groups := rfl
@[simp] theorem State.waitFor_jobs (s : State) (k : Nat) (f : Fibre) (w : Why) : (s.waitFor k f w).jobs = s.jobs := rfl
@[simp] theorem State.waitFor_ops (s : State) (k : Nat) (f : Fibre) (w : Why) : (s.waitFor k f w).ops = s.ops := rfl
@[simp] theorem State.waitFor_msgs (s : State) (k : Nat) (f : Fibre) (w : Why) : (s.waitFor k f w).msgs = s.msgs := rfl
@[simp] theorem State.waitFor_queues (s : State) (k : Nat) (f : Fibre) (w : Why) : (s.waitFor k f w).queues = s.queues := rfl
@[simp] theorem State.waitFor_cores (s : State) (k : Nat) (f : Fibre) (w : Why) : (s.waitFor k f w).cores = s.cores := rfl
@[simp] theorem State.waitFor_clusters (s : State) (k : Nat) (f : Fibre) (w : Why) : (s.waitFor k f w).clusters = s.clusters := rfl
@[simp] theorem State.waitFor_dies (s : State) (k : Nat) (f : Fibre) (w : Why) : (s.waitFor k f w).dies = s.dies := rfl
@[simp] theorem State.waitFor_pkg (s : State) (k : Nat) (f : Fibre) (w : Why) : (s.waitFor k f w).pkg = s.pkg := rfl
@[simp] theorem State.waitFor_fibres (s : State) (k : Nat) (f : Fibre) (w : Why) : (s.waitFor k f w).fibres = s.fibres.set k { f with run := .waiting w, woken := false } := rfl

@[simp] theorem State.dropOp_carried (s : State) (id : Nat) : (s.dropOp id).carried = s.carried.filter (fun c => c.op != id) := rfl

/-! ## fresh -/

@[simp] theorem State.fresh_clk (s : State) : s.fresh.2.clk = s.clk := rfl
@[simp] theorem State.fresh_turns (s : State) : s.fresh.2.turns = s.turns := rfl
@[simp] theorem State.fresh_strikes (s : State) : s.fresh.2.strikes = s.strikes := rfl
@[simp] theorem State.fresh_lastTurn (s : State) : s.fresh.2.lastTurn = s.lastTurn := rfl
@[simp] theorem State.fresh_cur (s : State) : s.fresh.2.cur = s.cur := rfl
@[simp] theorem State.fresh_mem (s : State) : s.fresh.2.mem = s.mem := rfl
@[simp] theorem State.fresh_past (s : State) : s.fresh.2.past = s.past := rfl
@[simp] theorem State.fresh_wrote (s : State) : s.fresh.2.wrote = s.wrote := rfl
@[simp] theorem State.fresh_looked (s : State) : s.fresh.2.looked = s.looked := rfl
@[simp] theorem State.fresh_pubs (s : State) : s.fresh.2.pubs = s.pubs := rfl
@[simp] theorem State.fresh_carried (s : State) : s.fresh.2.carried = s.carried := rfl
@[simp] theorem State.fresh_poisoned (s : State) : s.fresh.2.poisoned = s.poisoned := rfl
@[simp] theorem State.fresh_fibres (s : State) : s.fresh.2.fibres = s.fibres := rfl
@[simp] theorem State.fresh_groups (s : State) : s.fresh.2.groups = s.groups := rfl
@[simp] theorem State.fresh_jobs (s : State) : s.fresh.2.jobs = s.jobs := rfl
@[simp] theorem State.fresh_ops (s : State) : s.fresh.2.ops = s.ops := rfl
@[simp] theorem State.fresh_msgs (s : State) : s.fresh.2.msgs = s.msgs := rfl
@[simp] theorem State.fresh_queues (s : State) : s.fresh.2.queues = s.queues := rfl
@[simp] theorem State.fresh_cores (s : State) : s.fresh.2.cores = s.cores := rfl
@[simp] theorem State.fresh_clusters (s : State) : s.fresh.2.clusters = s.clusters := rfl
@[simp] theorem State.fresh_dies (s : State) : s.fresh.2.dies = s.dies := rfl
@[simp] theorem State.fresh_pkg (s : State) : s.fresh.2.pkg = s.pkg := rfl
@[simp] theorem State.fresh_nextId (s : State) : s.fresh.2.nextId = s.nextId + 1 := rfl
@[simp] theorem State.fresh_id (s : State) : s.fresh.1 = s.nextId := rfl

/-! ## A fibre's registers and predicates -/

@[simp] theorem Fibre.setReg_kind (f : Fibre) (r : Nat) (v : Word) : (f.setReg r v).kind = f.kind := rfl
@[simp] theorem Fibre.setReg_grp (f : Fibre) (r : Nat) (v : Word) : (f.setReg r v).grp = f.grp := rfl
@[simp] theorem Fibre.setReg_fid (f : Fibre) (r : Nat) (v : Word) : (f.setReg r v).fid = f.fid := rfl
@[simp] theorem Fibre.setReg_rp (f : Fibre) (r : Nat) (v : Word) : (f.setReg r v).rp = f.rp := rfl
@[simp] theorem Fibre.setReg_hdr (f : Fibre) (r : Nat) (v : Word) : (f.setReg r v).hdr = f.hdr := rfl
@[simp] theorem Fibre.setReg_preds (f : Fibre) (r : Nat) (v : Word) : (f.setReg r v).preds = f.preds := rfl
@[simp] theorem Fibre.setReg_lr (f : Fibre) (r : Nat) (v : Word) : (f.setReg r v).lr = f.lr := rfl
@[simp] theorem Fibre.setReg_lc (f : Fibre) (r : Nat) (v : Word) : (f.setReg r v).lc = f.lc := rfl
@[simp] theorem Fibre.setReg_rc (f : Fibre) (r : Nat) (v : Word) : (f.setReg r v).rc = f.rc := rfl
@[simp] theorem Fibre.setReg_rep (f : Fibre) (r : Nat) (v : Word) : (f.setReg r v).rep = f.rep := rfl
@[simp] theorem Fibre.setReg_loops (f : Fibre) (r : Nat) (v : Word) : (f.setReg r v).loops = f.loops := rfl
@[simp] theorem Fibre.setReg_occp (f : Fibre) (r : Nat) (v : Word) : (f.setReg r v).occp = f.occp := rfl
@[simp] theorem Fibre.setReg_ocmx (f : Fibre) (r : Nat) (v : Word) : (f.setReg r v).ocmx = f.ocmx := rfl
@[simp] theorem Fibre.setReg_ocga (f : Fibre) (r : Nat) (v : Word) : (f.setReg r v).ocga = f.ocga := rfl
@[simp] theorem Fibre.setReg_ocfx (f : Fibre) (r : Nat) (v : Word) : (f.setReg r v).ocfx = f.ocfx := rfl
@[simp] theorem Fibre.setReg_astat (f : Fibre) (r : Nat) (v : Word) : (f.setReg r v).astat = f.astat := rfl
@[simp] theorem Fibre.setReg_atrap (f : Fibre) (r : Nat) (v : Word) : (f.setReg r v).atrap = f.atrap := rfl
@[simp] theorem Fibre.setReg_mxerr (f : Fibre) (r : Nat) (v : Word) : (f.setReg r v).mxerr = f.mxerr := rfl
@[simp] theorem Fibre.setReg_ks (f : Fibre) (r : Nat) (v : Word) : (f.setReg r v).ks = f.ks := rfl
@[simp] theorem Fibre.setReg_taint (f : Fibre) (r : Nat) (v : Word) : (f.setReg r v).taint = f.taint := rfl
@[simp] theorem Fibre.setReg_ckpt (f : Fibre) (r : Nat) (v : Word) : (f.setReg r v).ckpt = f.ckpt := rfl
@[simp] theorem Fibre.setReg_replay (f : Fibre) (r : Nat) (v : Word) : (f.setReg r v).replay = f.replay := rfl
@[simp] theorem Fibre.setReg_xr (f : Fibre) (r : Nat) (v : Word) : (f.setReg r v).xr = f.xr := rfl
@[simp] theorem Fibre.setReg_inH (f : Fibre) (r : Nat) (v : Word) : (f.setReg r v).inH = f.inH := rfl
@[simp] theorem Fibre.setReg_ret (f : Fibre) (r : Nat) (v : Word) : (f.setReg r v).ret = f.ret := rfl
@[simp] theorem Fibre.setReg_reported (f : Fibre) (r : Nat) (v : Word) : (f.setReg r v).reported = f.reported := rfl
@[simp] theorem Fibre.setReg_restarts (f : Fibre) (r : Nat) (v : Word) : (f.setReg r v).restarts = f.restarts := rfl
@[simp] theorem Fibre.setReg_flight (f : Fibre) (r : Nat) (v : Word) : (f.setReg r v).flight = f.flight := rfl
@[simp] theorem Fibre.setReg_inv (f : Fibre) (r : Nat) (v : Word) : (f.setReg r v).inv = f.inv := rfl
@[simp] theorem Fibre.setReg_dropped (f : Fibre) (r : Nat) (v : Word) : (f.setReg r v).dropped = f.dropped := rfl
@[simp] theorem Fibre.setReg_token (f : Fibre) (r : Nat) (v : Word) : (f.setReg r v).token = f.token := rfl
@[simp] theorem Fibre.setReg_wait (f : Fibre) (r : Nat) (v : Word) : (f.setReg r v).wait = f.wait := rfl
@[simp] theorem Fibre.setReg_arrive (f : Fibre) (r : Nat) (v : Word) : (f.setReg r v).arrive = f.arrive := rfl
@[simp] theorem Fibre.setReg_run (f : Fibre) (r : Nat) (v : Word) : (f.setReg r v).run = f.run := rfl
@[simp] theorem Fibre.setReg_woken (f : Fibre) (r : Nat) (v : Word) : (f.setReg r v).woken = f.woken := rfl
@[simp] theorem Fibre.setReg_holds (f : Fibre) (r : Nat) (v : Word) : (f.setReg r v).holds = f.holds := rfl
@[simp] theorem Fibre.setReg_stopClk (f : Fibre) (r : Nat) (v : Word) : (f.setReg r v).stopClk = f.stopClk := rfl
@[simp] theorem Fibre.setReg_stopIn (f : Fibre) (r : Nat) (v : Word) : (f.setReg r v).stopIn = f.stopIn := rfl
@[simp] theorem Fibre.setReg_stopReq (f : Fibre) (r : Nat) (v : Word) : (f.setReg r v).stopReq = f.stopReq := rfl
@[simp] theorem Fibre.setReg_stepping (f : Fibre) (r : Nat) (v : Word) : (f.setReg r v).stepping = f.stepping := rfl
@[simp] theorem Fibre.setReg_passCmp (f : Fibre) (r : Nat) (v : Word) : (f.setReg r v).passCmp = f.passCmp := rfl
@[simp] theorem Fibre.setReg_issued (f : Fibre) (r : Nat) (v : Word) : (f.setReg r v).issued = f.issued := rfl
@[simp] theorem Fibre.setReg_lastClk (f : Fibre) (r : Nat) (v : Word) : (f.setReg r v).lastClk = f.lastClk := rfl
@[simp] theorem Fibre.setReg_wseq (f : Fibre) (r : Nat) (v : Word) : (f.setReg r v).wseq = f.wseq := rfl
@[simp] theorem Fibre.setReg_held (f : Fibre) (r : Nat) (v : Word) : (f.setReg r v).held = f.held := rfl
@[simp] theorem Fibre.setReg_undo (f : Fibre) (r : Nat) (v : Word) : (f.setReg r v).undo = f.undo := rfl
@[simp] theorem Fibre.setReg_service (f : Fibre) (r : Nat) (v : Word) : (f.setReg r v).service = f.service := rfl
@[simp] theorem Fibre.setReg_trigd (f : Fibre) (r : Nat) (v : Word) : (f.setReg r v).trigd = f.trigd := rfl
@[simp] theorem Fibre.setReg_mark (f : Fibre) (r : Nat) (v : Word) : (f.setReg r v).mark = f.mark := rfl
@[simp] theorem Fibre.setReg_seq (f : Fibre) (r : Nat) (v : Word) : (f.setReg r v).seq = f.seq := rfl
@[simp] theorem Fibre.setReg_useful (f : Fibre) (r : Nat) (v : Word) : (f.setReg r v).useful = f.useful := rfl
@[simp] theorem Fibre.setReg_serving (f : Fibre) (r : Nat) (v : Word) : (f.setReg r v).serving = f.serving := rfl
@[simp] theorem Fibre.setReg_walked (f : Fibre) (r : Nat) (v : Word) : (f.setReg r v).walked = f.walked := rfl
@[simp] theorem Fibre.setReg_guessing (f : Fibre) (r : Nat) (v : Word) : (f.setReg r v).guessing = f.guessing := rfl
@[simp] theorem Fibre.setReg_releasing (f : Fibre) (r : Nat) (v : Word) : (f.setReg r v).releasing = f.releasing := rfl
@[simp] theorem Fibre.setReg_lost (f : Fibre) (r : Nat) (v : Word) : (f.setReg r v).lost = f.lost := rfl
@[simp] theorem Fibre.setReg_seen (f : Fibre) (r : Nat) (v : Word) : (f.setReg r v).seen = f.seen := rfl
@[simp] theorem Fibre.setReg_acqs (f : Fibre) (r : Nat) (v : Word) : (f.setReg r v).acqs = f.acqs := rfl
@[simp] theorem Fibre.setReg_rels (f : Fibre) (r : Nat) (v : Word) : (f.setReg r v).rels = f.rels := rfl
@[simp] theorem Fibre.setReg_owed (f : Fibre) (r : Nat) (v : Word) : (f.setReg r v).owed = f.owed := rfl
@[simp] theorem Fibre.setReg_drawn (f : Fibre) (r : Nat) (v : Word) : (f.setReg r v).drawn = f.drawn := rfl
@[simp] theorem Fibre.setReg_relOp (f : Fibre) (r : Nat) (v : Word) : (f.setReg r v).relOp = f.relOp := rfl

@[simp] theorem Fibre.setPred_kind (f : Fibre) (p : Nat) (v : Bool) : (f.setPred p v).kind = f.kind := rfl
@[simp] theorem Fibre.setPred_grp (f : Fibre) (p : Nat) (v : Bool) : (f.setPred p v).grp = f.grp := rfl
@[simp] theorem Fibre.setPred_fid (f : Fibre) (p : Nat) (v : Bool) : (f.setPred p v).fid = f.fid := rfl
@[simp] theorem Fibre.setPred_rp (f : Fibre) (p : Nat) (v : Bool) : (f.setPred p v).rp = f.rp := rfl
@[simp] theorem Fibre.setPred_hdr (f : Fibre) (p : Nat) (v : Bool) : (f.setPred p v).hdr = f.hdr := rfl
@[simp] theorem Fibre.setPred_regs (f : Fibre) (p : Nat) (v : Bool) : (f.setPred p v).regs = f.regs := rfl
@[simp] theorem Fibre.setPred_lr (f : Fibre) (p : Nat) (v : Bool) : (f.setPred p v).lr = f.lr := rfl
@[simp] theorem Fibre.setPred_lc (f : Fibre) (p : Nat) (v : Bool) : (f.setPred p v).lc = f.lc := rfl
@[simp] theorem Fibre.setPred_rc (f : Fibre) (p : Nat) (v : Bool) : (f.setPred p v).rc = f.rc := rfl
@[simp] theorem Fibre.setPred_rep (f : Fibre) (p : Nat) (v : Bool) : (f.setPred p v).rep = f.rep := rfl
@[simp] theorem Fibre.setPred_loops (f : Fibre) (p : Nat) (v : Bool) : (f.setPred p v).loops = f.loops := rfl
@[simp] theorem Fibre.setPred_occp (f : Fibre) (p : Nat) (v : Bool) : (f.setPred p v).occp = f.occp := rfl
@[simp] theorem Fibre.setPred_ocmx (f : Fibre) (p : Nat) (v : Bool) : (f.setPred p v).ocmx = f.ocmx := rfl
@[simp] theorem Fibre.setPred_ocga (f : Fibre) (p : Nat) (v : Bool) : (f.setPred p v).ocga = f.ocga := rfl
@[simp] theorem Fibre.setPred_ocfx (f : Fibre) (p : Nat) (v : Bool) : (f.setPred p v).ocfx = f.ocfx := rfl
@[simp] theorem Fibre.setPred_astat (f : Fibre) (p : Nat) (v : Bool) : (f.setPred p v).astat = f.astat := rfl
@[simp] theorem Fibre.setPred_atrap (f : Fibre) (p : Nat) (v : Bool) : (f.setPred p v).atrap = f.atrap := rfl
@[simp] theorem Fibre.setPred_mxerr (f : Fibre) (p : Nat) (v : Bool) : (f.setPred p v).mxerr = f.mxerr := rfl
@[simp] theorem Fibre.setPred_ks (f : Fibre) (p : Nat) (v : Bool) : (f.setPred p v).ks = f.ks := rfl
@[simp] theorem Fibre.setPred_taint (f : Fibre) (p : Nat) (v : Bool) : (f.setPred p v).taint = f.taint := rfl
@[simp] theorem Fibre.setPred_ckpt (f : Fibre) (p : Nat) (v : Bool) : (f.setPred p v).ckpt = f.ckpt := rfl
@[simp] theorem Fibre.setPred_replay (f : Fibre) (p : Nat) (v : Bool) : (f.setPred p v).replay = f.replay := rfl
@[simp] theorem Fibre.setPred_xr (f : Fibre) (p : Nat) (v : Bool) : (f.setPred p v).xr = f.xr := rfl
@[simp] theorem Fibre.setPred_inH (f : Fibre) (p : Nat) (v : Bool) : (f.setPred p v).inH = f.inH := rfl
@[simp] theorem Fibre.setPred_ret (f : Fibre) (p : Nat) (v : Bool) : (f.setPred p v).ret = f.ret := rfl
@[simp] theorem Fibre.setPred_reported (f : Fibre) (p : Nat) (v : Bool) : (f.setPred p v).reported = f.reported := rfl
@[simp] theorem Fibre.setPred_restarts (f : Fibre) (p : Nat) (v : Bool) : (f.setPred p v).restarts = f.restarts := rfl
@[simp] theorem Fibre.setPred_handles (f : Fibre) (p : Nat) (v : Bool) : (f.setPred p v).handles = f.handles := rfl
@[simp] theorem Fibre.setPred_poison (f : Fibre) (p : Nat) (v : Bool) : (f.setPred p v).poison = f.poison := rfl
@[simp] theorem Fibre.setPred_flight (f : Fibre) (p : Nat) (v : Bool) : (f.setPred p v).flight = f.flight := rfl
@[simp] theorem Fibre.setPred_inv (f : Fibre) (p : Nat) (v : Bool) : (f.setPred p v).inv = f.inv := rfl
@[simp] theorem Fibre.setPred_dropped (f : Fibre) (p : Nat) (v : Bool) : (f.setPred p v).dropped = f.dropped := rfl
@[simp] theorem Fibre.setPred_token (f : Fibre) (p : Nat) (v : Bool) : (f.setPred p v).token = f.token := rfl
@[simp] theorem Fibre.setPred_wait (f : Fibre) (p : Nat) (v : Bool) : (f.setPred p v).wait = f.wait := rfl
@[simp] theorem Fibre.setPred_arrive (f : Fibre) (p : Nat) (v : Bool) : (f.setPred p v).arrive = f.arrive := rfl
@[simp] theorem Fibre.setPred_run (f : Fibre) (p : Nat) (v : Bool) : (f.setPred p v).run = f.run := rfl
@[simp] theorem Fibre.setPred_woken (f : Fibre) (p : Nat) (v : Bool) : (f.setPred p v).woken = f.woken := rfl
@[simp] theorem Fibre.setPred_holds (f : Fibre) (p : Nat) (v : Bool) : (f.setPred p v).holds = f.holds := rfl
@[simp] theorem Fibre.setPred_stopClk (f : Fibre) (p : Nat) (v : Bool) : (f.setPred p v).stopClk = f.stopClk := rfl
@[simp] theorem Fibre.setPred_stopIn (f : Fibre) (p : Nat) (v : Bool) : (f.setPred p v).stopIn = f.stopIn := rfl
@[simp] theorem Fibre.setPred_stopReq (f : Fibre) (p : Nat) (v : Bool) : (f.setPred p v).stopReq = f.stopReq := rfl
@[simp] theorem Fibre.setPred_stepping (f : Fibre) (p : Nat) (v : Bool) : (f.setPred p v).stepping = f.stepping := rfl
@[simp] theorem Fibre.setPred_passCmp (f : Fibre) (p : Nat) (v : Bool) : (f.setPred p v).passCmp = f.passCmp := rfl
@[simp] theorem Fibre.setPred_issued (f : Fibre) (p : Nat) (v : Bool) : (f.setPred p v).issued = f.issued := rfl
@[simp] theorem Fibre.setPred_lastClk (f : Fibre) (p : Nat) (v : Bool) : (f.setPred p v).lastClk = f.lastClk := rfl
@[simp] theorem Fibre.setPred_wseq (f : Fibre) (p : Nat) (v : Bool) : (f.setPred p v).wseq = f.wseq := rfl
@[simp] theorem Fibre.setPred_held (f : Fibre) (p : Nat) (v : Bool) : (f.setPred p v).held = f.held := rfl
@[simp] theorem Fibre.setPred_undo (f : Fibre) (p : Nat) (v : Bool) : (f.setPred p v).undo = f.undo := rfl
@[simp] theorem Fibre.setPred_service (f : Fibre) (p : Nat) (v : Bool) : (f.setPred p v).service = f.service := rfl
@[simp] theorem Fibre.setPred_trigd (f : Fibre) (p : Nat) (v : Bool) : (f.setPred p v).trigd = f.trigd := rfl
@[simp] theorem Fibre.setPred_mark (f : Fibre) (p : Nat) (v : Bool) : (f.setPred p v).mark = f.mark := rfl
@[simp] theorem Fibre.setPred_seq (f : Fibre) (p : Nat) (v : Bool) : (f.setPred p v).seq = f.seq := rfl
@[simp] theorem Fibre.setPred_useful (f : Fibre) (p : Nat) (v : Bool) : (f.setPred p v).useful = f.useful := rfl
@[simp] theorem Fibre.setPred_serving (f : Fibre) (p : Nat) (v : Bool) : (f.setPred p v).serving = f.serving := rfl
@[simp] theorem Fibre.setPred_walked (f : Fibre) (p : Nat) (v : Bool) : (f.setPred p v).walked = f.walked := rfl
@[simp] theorem Fibre.setPred_guessing (f : Fibre) (p : Nat) (v : Bool) : (f.setPred p v).guessing = f.guessing := rfl
@[simp] theorem Fibre.setPred_releasing (f : Fibre) (p : Nat) (v : Bool) : (f.setPred p v).releasing = f.releasing := rfl
@[simp] theorem Fibre.setPred_lost (f : Fibre) (p : Nat) (v : Bool) : (f.setPred p v).lost = f.lost := rfl
@[simp] theorem Fibre.setPred_seen (f : Fibre) (p : Nat) (v : Bool) : (f.setPred p v).seen = f.seen := rfl
@[simp] theorem Fibre.setPred_acqs (f : Fibre) (p : Nat) (v : Bool) : (f.setPred p v).acqs = f.acqs := rfl
@[simp] theorem Fibre.setPred_rels (f : Fibre) (p : Nat) (v : Bool) : (f.setPred p v).rels = f.rels := rfl
@[simp] theorem Fibre.setPred_owed (f : Fibre) (p : Nat) (v : Bool) : (f.setPred p v).owed = f.owed := rfl
@[simp] theorem Fibre.setPred_drawn (f : Fibre) (p : Nat) (v : Bool) : (f.setPred p v).drawn = f.drawn := rfl
@[simp] theorem Fibre.setPred_relOp (f : Fibre) (p : Nat) (v : Bool) : (f.setPred p v).relOp = f.relOp := rfl

@[simp] theorem Fibre.poisonReg_kind (f : Fibre) (k : PoisonKind) (r : Nat) : (f.poisonReg k r).kind = f.kind := rfl
@[simp] theorem Fibre.poisonReg_grp (f : Fibre) (k : PoisonKind) (r : Nat) : (f.poisonReg k r).grp = f.grp := rfl
@[simp] theorem Fibre.poisonReg_fid (f : Fibre) (k : PoisonKind) (r : Nat) : (f.poisonReg k r).fid = f.fid := rfl
@[simp] theorem Fibre.poisonReg_rp (f : Fibre) (k : PoisonKind) (r : Nat) : (f.poisonReg k r).rp = f.rp := rfl
@[simp] theorem Fibre.poisonReg_hdr (f : Fibre) (k : PoisonKind) (r : Nat) : (f.poisonReg k r).hdr = f.hdr := rfl
@[simp] theorem Fibre.poisonReg_regs (f : Fibre) (k : PoisonKind) (r : Nat) : (f.poisonReg k r).regs = f.regs := rfl
@[simp] theorem Fibre.poisonReg_preds (f : Fibre) (k : PoisonKind) (r : Nat) : (f.poisonReg k r).preds = f.preds := rfl
@[simp] theorem Fibre.poisonReg_lr (f : Fibre) (k : PoisonKind) (r : Nat) : (f.poisonReg k r).lr = f.lr := rfl
@[simp] theorem Fibre.poisonReg_lc (f : Fibre) (k : PoisonKind) (r : Nat) : (f.poisonReg k r).lc = f.lc := rfl
@[simp] theorem Fibre.poisonReg_rc (f : Fibre) (k : PoisonKind) (r : Nat) : (f.poisonReg k r).rc = f.rc := rfl
@[simp] theorem Fibre.poisonReg_rep (f : Fibre) (k : PoisonKind) (r : Nat) : (f.poisonReg k r).rep = f.rep := rfl
@[simp] theorem Fibre.poisonReg_loops (f : Fibre) (k : PoisonKind) (r : Nat) : (f.poisonReg k r).loops = f.loops := rfl
@[simp] theorem Fibre.poisonReg_occp (f : Fibre) (k : PoisonKind) (r : Nat) : (f.poisonReg k r).occp = f.occp := rfl
@[simp] theorem Fibre.poisonReg_ocmx (f : Fibre) (k : PoisonKind) (r : Nat) : (f.poisonReg k r).ocmx = f.ocmx := rfl
@[simp] theorem Fibre.poisonReg_ocga (f : Fibre) (k : PoisonKind) (r : Nat) : (f.poisonReg k r).ocga = f.ocga := rfl
@[simp] theorem Fibre.poisonReg_ocfx (f : Fibre) (k : PoisonKind) (r : Nat) : (f.poisonReg k r).ocfx = f.ocfx := rfl
@[simp] theorem Fibre.poisonReg_astat (f : Fibre) (k : PoisonKind) (r : Nat) : (f.poisonReg k r).astat = f.astat := rfl
@[simp] theorem Fibre.poisonReg_atrap (f : Fibre) (k : PoisonKind) (r : Nat) : (f.poisonReg k r).atrap = f.atrap := rfl
@[simp] theorem Fibre.poisonReg_mxerr (f : Fibre) (k : PoisonKind) (r : Nat) : (f.poisonReg k r).mxerr = f.mxerr := rfl
@[simp] theorem Fibre.poisonReg_ks (f : Fibre) (k : PoisonKind) (r : Nat) : (f.poisonReg k r).ks = f.ks := rfl
@[simp] theorem Fibre.poisonReg_taint (f : Fibre) (k : PoisonKind) (r : Nat) : (f.poisonReg k r).taint = f.taint := rfl
@[simp] theorem Fibre.poisonReg_ckpt (f : Fibre) (k : PoisonKind) (r : Nat) : (f.poisonReg k r).ckpt = f.ckpt := rfl
@[simp] theorem Fibre.poisonReg_replay (f : Fibre) (k : PoisonKind) (r : Nat) : (f.poisonReg k r).replay = f.replay := rfl
@[simp] theorem Fibre.poisonReg_xr (f : Fibre) (k : PoisonKind) (r : Nat) : (f.poisonReg k r).xr = f.xr := rfl
@[simp] theorem Fibre.poisonReg_inH (f : Fibre) (k : PoisonKind) (r : Nat) : (f.poisonReg k r).inH = f.inH := rfl
@[simp] theorem Fibre.poisonReg_ret (f : Fibre) (k : PoisonKind) (r : Nat) : (f.poisonReg k r).ret = f.ret := rfl
@[simp] theorem Fibre.poisonReg_reported (f : Fibre) (k : PoisonKind) (r : Nat) : (f.poisonReg k r).reported = f.reported := rfl
@[simp] theorem Fibre.poisonReg_restarts (f : Fibre) (k : PoisonKind) (r : Nat) : (f.poisonReg k r).restarts = f.restarts := rfl
@[simp] theorem Fibre.poisonReg_handles (f : Fibre) (k : PoisonKind) (r : Nat) : (f.poisonReg k r).handles = f.handles := rfl
@[simp] theorem Fibre.poisonReg_flight (f : Fibre) (k : PoisonKind) (r : Nat) : (f.poisonReg k r).flight = f.flight := rfl
@[simp] theorem Fibre.poisonReg_inv (f : Fibre) (k : PoisonKind) (r : Nat) : (f.poisonReg k r).inv = f.inv := rfl
@[simp] theorem Fibre.poisonReg_dropped (f : Fibre) (k : PoisonKind) (r : Nat) : (f.poisonReg k r).dropped = f.dropped := rfl
@[simp] theorem Fibre.poisonReg_token (f : Fibre) (k : PoisonKind) (r : Nat) : (f.poisonReg k r).token = f.token := rfl
@[simp] theorem Fibre.poisonReg_wait (f : Fibre) (k : PoisonKind) (r : Nat) : (f.poisonReg k r).wait = f.wait := rfl
@[simp] theorem Fibre.poisonReg_arrive (f : Fibre) (k : PoisonKind) (r : Nat) : (f.poisonReg k r).arrive = f.arrive := rfl
@[simp] theorem Fibre.poisonReg_run (f : Fibre) (k : PoisonKind) (r : Nat) : (f.poisonReg k r).run = f.run := rfl
@[simp] theorem Fibre.poisonReg_woken (f : Fibre) (k : PoisonKind) (r : Nat) : (f.poisonReg k r).woken = f.woken := rfl
@[simp] theorem Fibre.poisonReg_holds (f : Fibre) (k : PoisonKind) (r : Nat) : (f.poisonReg k r).holds = f.holds := rfl
@[simp] theorem Fibre.poisonReg_stopClk (f : Fibre) (k : PoisonKind) (r : Nat) : (f.poisonReg k r).stopClk = f.stopClk := rfl
@[simp] theorem Fibre.poisonReg_stopIn (f : Fibre) (k : PoisonKind) (r : Nat) : (f.poisonReg k r).stopIn = f.stopIn := rfl
@[simp] theorem Fibre.poisonReg_stopReq (f : Fibre) (k : PoisonKind) (r : Nat) : (f.poisonReg k r).stopReq = f.stopReq := rfl
@[simp] theorem Fibre.poisonReg_stepping (f : Fibre) (k : PoisonKind) (r : Nat) : (f.poisonReg k r).stepping = f.stepping := rfl
@[simp] theorem Fibre.poisonReg_passCmp (f : Fibre) (k : PoisonKind) (r : Nat) : (f.poisonReg k r).passCmp = f.passCmp := rfl
@[simp] theorem Fibre.poisonReg_issued (f : Fibre) (k : PoisonKind) (r : Nat) : (f.poisonReg k r).issued = f.issued := rfl
@[simp] theorem Fibre.poisonReg_lastClk (f : Fibre) (k : PoisonKind) (r : Nat) : (f.poisonReg k r).lastClk = f.lastClk := rfl
@[simp] theorem Fibre.poisonReg_wseq (f : Fibre) (k : PoisonKind) (r : Nat) : (f.poisonReg k r).wseq = f.wseq := rfl
@[simp] theorem Fibre.poisonReg_held (f : Fibre) (k : PoisonKind) (r : Nat) : (f.poisonReg k r).held = f.held := rfl
@[simp] theorem Fibre.poisonReg_undo (f : Fibre) (k : PoisonKind) (r : Nat) : (f.poisonReg k r).undo = f.undo := rfl
@[simp] theorem Fibre.poisonReg_service (f : Fibre) (k : PoisonKind) (r : Nat) : (f.poisonReg k r).service = f.service := rfl
@[simp] theorem Fibre.poisonReg_trigd (f : Fibre) (k : PoisonKind) (r : Nat) : (f.poisonReg k r).trigd = f.trigd := rfl
@[simp] theorem Fibre.poisonReg_mark (f : Fibre) (k : PoisonKind) (r : Nat) : (f.poisonReg k r).mark = f.mark := rfl
@[simp] theorem Fibre.poisonReg_seq (f : Fibre) (k : PoisonKind) (r : Nat) : (f.poisonReg k r).seq = f.seq := rfl
@[simp] theorem Fibre.poisonReg_useful (f : Fibre) (k : PoisonKind) (r : Nat) : (f.poisonReg k r).useful = f.useful := rfl
@[simp] theorem Fibre.poisonReg_serving (f : Fibre) (k : PoisonKind) (r : Nat) : (f.poisonReg k r).serving = f.serving := rfl
@[simp] theorem Fibre.poisonReg_walked (f : Fibre) (k : PoisonKind) (r : Nat) : (f.poisonReg k r).walked = f.walked := rfl
@[simp] theorem Fibre.poisonReg_guessing (f : Fibre) (k : PoisonKind) (r : Nat) : (f.poisonReg k r).guessing = f.guessing := rfl
@[simp] theorem Fibre.poisonReg_releasing (f : Fibre) (k : PoisonKind) (r : Nat) : (f.poisonReg k r).releasing = f.releasing := rfl
@[simp] theorem Fibre.poisonReg_lost (f : Fibre) (k : PoisonKind) (r : Nat) : (f.poisonReg k r).lost = f.lost := rfl
@[simp] theorem Fibre.poisonReg_seen (f : Fibre) (k : PoisonKind) (r : Nat) : (f.poisonReg k r).seen = f.seen := rfl
@[simp] theorem Fibre.poisonReg_acqs (f : Fibre) (k : PoisonKind) (r : Nat) : (f.poisonReg k r).acqs = f.acqs := rfl
@[simp] theorem Fibre.poisonReg_rels (f : Fibre) (k : PoisonKind) (r : Nat) : (f.poisonReg k r).rels = f.rels := rfl
@[simp] theorem Fibre.poisonReg_owed (f : Fibre) (k : PoisonKind) (r : Nat) : (f.poisonReg k r).owed = f.owed := rfl
@[simp] theorem Fibre.poisonReg_drawn (f : Fibre) (k : PoisonKind) (r : Nat) : (f.poisonReg k r).drawn = f.drawn := rfl
@[simp] theorem Fibre.poisonReg_relOp (f : Fibre) (k : PoisonKind) (r : Nat) : (f.poisonReg k r).relOp = f.relOp := rfl

@[simp] theorem Fibre.setHandle_kind (f : Fibre) (r op : Nat) : (f.setHandle r op).kind = f.kind := rfl
@[simp] theorem Fibre.setHandle_grp (f : Fibre) (r op : Nat) : (f.setHandle r op).grp = f.grp := rfl
@[simp] theorem Fibre.setHandle_fid (f : Fibre) (r op : Nat) : (f.setHandle r op).fid = f.fid := rfl
@[simp] theorem Fibre.setHandle_rp (f : Fibre) (r op : Nat) : (f.setHandle r op).rp = f.rp := rfl
@[simp] theorem Fibre.setHandle_hdr (f : Fibre) (r op : Nat) : (f.setHandle r op).hdr = f.hdr := rfl
@[simp] theorem Fibre.setHandle_regs (f : Fibre) (r op : Nat) : (f.setHandle r op).regs = f.regs := rfl
@[simp] theorem Fibre.setHandle_preds (f : Fibre) (r op : Nat) : (f.setHandle r op).preds = f.preds := rfl
@[simp] theorem Fibre.setHandle_lr (f : Fibre) (r op : Nat) : (f.setHandle r op).lr = f.lr := rfl
@[simp] theorem Fibre.setHandle_lc (f : Fibre) (r op : Nat) : (f.setHandle r op).lc = f.lc := rfl
@[simp] theorem Fibre.setHandle_rc (f : Fibre) (r op : Nat) : (f.setHandle r op).rc = f.rc := rfl
@[simp] theorem Fibre.setHandle_rep (f : Fibre) (r op : Nat) : (f.setHandle r op).rep = f.rep := rfl
@[simp] theorem Fibre.setHandle_loops (f : Fibre) (r op : Nat) : (f.setHandle r op).loops = f.loops := rfl
@[simp] theorem Fibre.setHandle_occp (f : Fibre) (r op : Nat) : (f.setHandle r op).occp = f.occp := rfl
@[simp] theorem Fibre.setHandle_ocmx (f : Fibre) (r op : Nat) : (f.setHandle r op).ocmx = f.ocmx := rfl
@[simp] theorem Fibre.setHandle_ocga (f : Fibre) (r op : Nat) : (f.setHandle r op).ocga = f.ocga := rfl
@[simp] theorem Fibre.setHandle_ocfx (f : Fibre) (r op : Nat) : (f.setHandle r op).ocfx = f.ocfx := rfl
@[simp] theorem Fibre.setHandle_astat (f : Fibre) (r op : Nat) : (f.setHandle r op).astat = f.astat := rfl
@[simp] theorem Fibre.setHandle_atrap (f : Fibre) (r op : Nat) : (f.setHandle r op).atrap = f.atrap := rfl
@[simp] theorem Fibre.setHandle_mxerr (f : Fibre) (r op : Nat) : (f.setHandle r op).mxerr = f.mxerr := rfl
@[simp] theorem Fibre.setHandle_ks (f : Fibre) (r op : Nat) : (f.setHandle r op).ks = f.ks := rfl
@[simp] theorem Fibre.setHandle_taint (f : Fibre) (r op : Nat) : (f.setHandle r op).taint = f.taint := rfl
@[simp] theorem Fibre.setHandle_ckpt (f : Fibre) (r op : Nat) : (f.setHandle r op).ckpt = f.ckpt := rfl
@[simp] theorem Fibre.setHandle_replay (f : Fibre) (r op : Nat) : (f.setHandle r op).replay = f.replay := rfl
@[simp] theorem Fibre.setHandle_xr (f : Fibre) (r op : Nat) : (f.setHandle r op).xr = f.xr := rfl
@[simp] theorem Fibre.setHandle_inH (f : Fibre) (r op : Nat) : (f.setHandle r op).inH = f.inH := rfl
@[simp] theorem Fibre.setHandle_ret (f : Fibre) (r op : Nat) : (f.setHandle r op).ret = f.ret := rfl
@[simp] theorem Fibre.setHandle_reported (f : Fibre) (r op : Nat) : (f.setHandle r op).reported = f.reported := rfl
@[simp] theorem Fibre.setHandle_restarts (f : Fibre) (r op : Nat) : (f.setHandle r op).restarts = f.restarts := rfl
@[simp] theorem Fibre.setHandle_flight (f : Fibre) (r op : Nat) : (f.setHandle r op).flight = f.flight := rfl
@[simp] theorem Fibre.setHandle_inv (f : Fibre) (r op : Nat) : (f.setHandle r op).inv = f.inv := rfl
@[simp] theorem Fibre.setHandle_dropped (f : Fibre) (r op : Nat) : (f.setHandle r op).dropped = f.dropped := rfl
@[simp] theorem Fibre.setHandle_token (f : Fibre) (r op : Nat) : (f.setHandle r op).token = f.token := rfl
@[simp] theorem Fibre.setHandle_wait (f : Fibre) (r op : Nat) : (f.setHandle r op).wait = f.wait := rfl
@[simp] theorem Fibre.setHandle_arrive (f : Fibre) (r op : Nat) : (f.setHandle r op).arrive = f.arrive := rfl
@[simp] theorem Fibre.setHandle_run (f : Fibre) (r op : Nat) : (f.setHandle r op).run = f.run := rfl
@[simp] theorem Fibre.setHandle_woken (f : Fibre) (r op : Nat) : (f.setHandle r op).woken = f.woken := rfl
@[simp] theorem Fibre.setHandle_holds (f : Fibre) (r op : Nat) : (f.setHandle r op).holds = f.holds := rfl
@[simp] theorem Fibre.setHandle_stopClk (f : Fibre) (r op : Nat) : (f.setHandle r op).stopClk = f.stopClk := rfl
@[simp] theorem Fibre.setHandle_stopIn (f : Fibre) (r op : Nat) : (f.setHandle r op).stopIn = f.stopIn := rfl
@[simp] theorem Fibre.setHandle_stopReq (f : Fibre) (r op : Nat) : (f.setHandle r op).stopReq = f.stopReq := rfl
@[simp] theorem Fibre.setHandle_stepping (f : Fibre) (r op : Nat) : (f.setHandle r op).stepping = f.stepping := rfl
@[simp] theorem Fibre.setHandle_passCmp (f : Fibre) (r op : Nat) : (f.setHandle r op).passCmp = f.passCmp := rfl
@[simp] theorem Fibre.setHandle_issued (f : Fibre) (r op : Nat) : (f.setHandle r op).issued = f.issued := rfl
@[simp] theorem Fibre.setHandle_lastClk (f : Fibre) (r op : Nat) : (f.setHandle r op).lastClk = f.lastClk := rfl
@[simp] theorem Fibre.setHandle_wseq (f : Fibre) (r op : Nat) : (f.setHandle r op).wseq = f.wseq := rfl
@[simp] theorem Fibre.setHandle_held (f : Fibre) (r op : Nat) : (f.setHandle r op).held = f.held := rfl
@[simp] theorem Fibre.setHandle_undo (f : Fibre) (r op : Nat) : (f.setHandle r op).undo = f.undo := rfl
@[simp] theorem Fibre.setHandle_service (f : Fibre) (r op : Nat) : (f.setHandle r op).service = f.service := rfl
@[simp] theorem Fibre.setHandle_trigd (f : Fibre) (r op : Nat) : (f.setHandle r op).trigd = f.trigd := rfl
@[simp] theorem Fibre.setHandle_mark (f : Fibre) (r op : Nat) : (f.setHandle r op).mark = f.mark := rfl
@[simp] theorem Fibre.setHandle_seq (f : Fibre) (r op : Nat) : (f.setHandle r op).seq = f.seq := rfl
@[simp] theorem Fibre.setHandle_useful (f : Fibre) (r op : Nat) : (f.setHandle r op).useful = f.useful := rfl
@[simp] theorem Fibre.setHandle_serving (f : Fibre) (r op : Nat) : (f.setHandle r op).serving = f.serving := rfl
@[simp] theorem Fibre.setHandle_walked (f : Fibre) (r op : Nat) : (f.setHandle r op).walked = f.walked := rfl
@[simp] theorem Fibre.setHandle_guessing (f : Fibre) (r op : Nat) : (f.setHandle r op).guessing = f.guessing := rfl
@[simp] theorem Fibre.setHandle_releasing (f : Fibre) (r op : Nat) : (f.setHandle r op).releasing = f.releasing := rfl
@[simp] theorem Fibre.setHandle_lost (f : Fibre) (r op : Nat) : (f.setHandle r op).lost = f.lost := rfl
@[simp] theorem Fibre.setHandle_seen (f : Fibre) (r op : Nat) : (f.setHandle r op).seen = f.seen := rfl
@[simp] theorem Fibre.setHandle_acqs (f : Fibre) (r op : Nat) : (f.setHandle r op).acqs = f.acqs := rfl
@[simp] theorem Fibre.setHandle_rels (f : Fibre) (r op : Nat) : (f.setHandle r op).rels = f.rels := rfl
@[simp] theorem Fibre.setHandle_owed (f : Fibre) (r op : Nat) : (f.setHandle r op).owed = f.owed := rfl
@[simp] theorem Fibre.setHandle_drawn (f : Fibre) (r op : Nat) : (f.setHandle r op).drawn = f.drawn := rfl
@[simp] theorem Fibre.setHandle_relOp (f : Fibre) (r op : Nat) : (f.setHandle r op).relOp = f.relOp := rfl

@[simp] theorem Fibre.setReg_regs (f : Fibre) (r : Nat) (v : Word) : (f.setReg r v).regs = f.regs.set r v := rfl
@[simp] theorem Fibre.setPred_preds (f : Fibre) (p : Nat) (v : Bool) : (f.setPred p v).preds = predSet f.preds p v := rfl

end Sys2Proof.Machine
end

