-- ==== Sys2Proof/Laws/Words.lean ====
section
/-! SUPPORT. What the shapes of words do once they execute, what an issued word leaves of the machine, and what register updates leave of
a fibre. -/

namespace Sys2Proof.Machine

/-! ## Shapes of words that execute -/

section
variable {i : Instr} {s : State} {f : Fibre}

theorem aluWord_go (hx : gate i s = .go f) (d : Nat) (v : Nat → Fibre → List Word × Conds) :
    aluWord i d s v = .next (s.finish s.cur i f ((f.setRun d (v s.cur f).1).raise (v s.cur f).2)) := issueWord_go hx _
theorem plainWord_go (hx : gate i s = .go f) (d : Reg) (v : Nat → Fibre → Word) :
    plainWord i d s v = .next (s.finish s.cur i f ((f.setReg d.toNat (v s.cur f)).raise Conds.none)) := aluWord_go hx _ _
theorem predWord_go (hx : gate i s = .go f) (v : Nat → Fibre → List (Nat × Bool) × Conds) :
    predWord i s v = .next (s.finish s.cur i f ((f.setPreds (v s.cur f).1).raise (v s.cur f).2)) := issueWord_go hx _
theorem lateWord_go (hx : gate i s = .go f) (d : Nat) (v : Nat → Fibre → List Word × Conds) :
    lateWord i d s v = .next ((withResult s s.cur f (runOf d (v s.cur f).1)).finish s.cur i f (f.raise (v s.cur f).2)) := issueWord_go hx _
theorem jumpWord_go (hx : gate i s = .go f) (target : Nat → Fibre → DWord) (link : Bool) :
    jumpWord i s target link =
      .next (s.finishTo s.cur i f (if link then { f with lr := f.nextClause } else f) (target s.cur f)) := issueWord_go hx _
/-- A rounding word either has no noise to draw, or draws it, or waits or stops for it. -/
theorem withNoise_cases (s : State) (k : Nat) (f : Fibre) (n : Nat) (wide : Bool) (body : List Nat → State → Fibre → State) :
    (n = 0 ∧ s.withNoise k f n wide body = body [] s f) ∨
    (n ≠ 0 ∧ ∃ vs u, s.draw f (n - f.drawn.length) wide = .got vs u ∧
      s.withNoise k f n wide body = body (f.drawn ++ vs) u { f with seq := f.seq + vs.length, drawn := [] }) ∨
    (n ≠ 0 ∧ ∃ vs u, s.draw f (n - f.drawn.length) wide = .wait vs u ∧
      s.withNoise k f n wide body = u.waitFor k { f with seq := f.seq + vs.length, drawn := f.drawn ++ vs } .memory) ∨
    (n ≠ 0 ∧ ∃ code, s.draw f (n - f.drawn.length) wide = .stop code ∧ s.withNoise k f n wide body =
      (((s.modCore (s.site f).coreIx fun c => { c with cnsc := c.cnsc ||| 0x20000000 }).setFibre k (f.hold s.clk .debug)).debugRecord
        (s.site f).coreIx 0xA 0 ((s.modCore (s.site f).coreIx fun c => { c with cnsc := c.cnsc ||| 0x20000000 }).ordAt f f.here).toNat code f 0 0 0)) := by
  unfold State.withNoise
  by_cases h : n = 0
  · simp [h]
  · rw [if_neg h]
    cases hd : s.draw f (n - f.drawn.length) wide with
    | got vs u => exact .inr (.inl ⟨h, vs, u, rfl, rfl⟩)
    | wait vs u => exact .inr (.inr (.inl ⟨h, vs, u, rfl, rfl⟩))
    | stop code => exact .inr (.inr (.inr ⟨h, code, rfl, rfl⟩))
/-- A word's body with the noise it drew. -/
theorem withNoise_got {k n : Nat} {wide : Bool} {ns : List Nat} {u : State} {g : Fibre} (h : Draws s f n wide ns u g)
    (body : List Nat → State → Fibre → State) : s.withNoise k f n wide body = body ns u g := by
  unfold State.withNoise
  obtain ⟨h0, rfl, rfl, rfl⟩ | ⟨h0, vs, hd, rfl, rfl⟩ := h
  · rw [if_pos h0]
  · rw [if_neg h0, hd]
theorem roundWord_go (hx : gate i s = .go f) {d n : Nat} {r : Rnd} {ns : List Nat} {u : State} {g : Fibre}
    (h : Draws s f (srDraws r n) false ns u g) (v : Nat → Fibre → List Nat → List Word × Conds) :
    roundWord i d r n s v = .next (u.finish s.cur i f ((g.setRun d (v s.cur f ns).1).raise (v s.cur f ns).2)) := by
  unfold roundWord
  rw [issueWord_go hx, withNoise_got h]
theorem lateRoundWord_go (hx : gate i s = .go f) {d n : Nat} {r : Rnd} {ns : List Nat} {u : State} {g : Fibre}
    (h : Draws s f (srDraws r n) false ns u g) (v : Nat → Fibre → List Nat → List Word × Conds) :
    lateRoundWord i d r n s v =
      .next ((withResult u s.cur f (runOf d (v s.cur f ns).1)).finish s.cur i f (g.raise (v s.cur f ns).2)) := by
  unfold lateRoundWord
  rw [issueWord_go hx, withNoise_got h]
  rfl

end

/-! ## What issue leaves of the machine -/

/-- Issue seen from outside the fibre touches jobs, groups and cores only. -/
theorem State.noteIssue_eq (s : State) (k : Nat) (f : Fibre) (i : Instr) (x : Bool) :
    ∃ js gs cs, s.noteIssue k f i x = { s with jobs := js, groups := gs, cores := cs } := by
  have hj : ∀ (s : State) (j : Nat) (u : Job → Job), ∃ js, s.modJob j u = { s with jobs := js } := fun s j u => by
    unfold State.modJob
    split
    · exact ⟨s.jobs, rfl⟩
    · exact ⟨_, rfl⟩
  obtain ⟨js, h1⟩ : ∃ js, (if f.isPacer = true then s else s.modJob (s.jobOf f) fun j => { j with lastIssue := s.clk }) = { s with jobs := js } := by
    split
    · exact ⟨s.jobs, rfl⟩
    · exact hj s (s.jobOf f) fun j => { j with lastIssue := s.clk }
  unfold State.noteIssue
  simp only [h1]
  split
  · exact ⟨js, _, s.cores, rfl⟩
  · exact ⟨js, _, _, rfl⟩

section
variable (s : State) (k : Nat) (f : Fibre) (i : Instr) (x : Bool)

@[simp] theorem State.noteIssue_clk : (s.noteIssue k f i x).clk = s.clk := by obtain ⟨_, _, _, h⟩ := s.noteIssue_eq k f i x; rw [h]
@[simp] theorem State.noteIssue_turns : (s.noteIssue k f i x).turns = s.turns := by obtain ⟨_, _, _, h⟩ := s.noteIssue_eq k f i x; rw [h]
@[simp] theorem State.noteIssue_cur : (s.noteIssue k f i x).cur = s.cur := by obtain ⟨_, _, _, h⟩ := s.noteIssue_eq k f i x; rw [h]
@[simp] theorem State.noteIssue_nextId : (s.noteIssue k f i x).nextId = s.nextId := by obtain ⟨_, _, _, h⟩ := s.noteIssue_eq k f i x; rw [h]
@[simp] theorem State.noteIssue_mem : (s.noteIssue k f i x).mem = s.mem := by obtain ⟨_, _, _, h⟩ := s.noteIssue_eq k f i x; rw [h]
@[simp] theorem State.noteIssue_past : (s.noteIssue k f i x).past = s.past := by obtain ⟨_, _, _, h⟩ := s.noteIssue_eq k f i x; rw [h]
@[simp] theorem State.noteIssue_pubs : (s.noteIssue k f i x).pubs = s.pubs := by obtain ⟨_, _, _, h⟩ := s.noteIssue_eq k f i x; rw [h]
@[simp] theorem State.noteIssue_carried : (s.noteIssue k f i x).carried = s.carried := by obtain ⟨_, _, _, h⟩ := s.noteIssue_eq k f i x; rw [h]
@[simp] theorem State.noteIssue_strikes : (s.noteIssue k f i x).strikes = s.strikes := by obtain ⟨_, _, _, h⟩ := s.noteIssue_eq k f i x; rw [h]
@[simp] theorem State.noteIssue_poisoned : (s.noteIssue k f i x).poisoned = s.poisoned := by obtain ⟨_, _, _, h⟩ := s.noteIssue_eq k f i x; rw [h]
@[simp] theorem State.noteIssue_fibres : (s.noteIssue k f i x).fibres = s.fibres := by obtain ⟨_, _, _, h⟩ := s.noteIssue_eq k f i x; rw [h]
@[simp] theorem State.noteIssue_ops : (s.noteIssue k f i x).ops = s.ops := by obtain ⟨_, _, _, h⟩ := s.noteIssue_eq k f i x; rw [h]
@[simp] theorem State.noteIssue_msgs : (s.noteIssue k f i x).msgs = s.msgs := by obtain ⟨_, _, _, h⟩ := s.noteIssue_eq k f i x; rw [h]
@[simp] theorem State.noteIssue_queues : (s.noteIssue k f i x).queues = s.queues := by obtain ⟨_, _, _, h⟩ := s.noteIssue_eq k f i x; rw [h]
@[simp] theorem State.noteIssue_clusters : (s.noteIssue k f i x).clusters = s.clusters := by obtain ⟨_, _, _, h⟩ := s.noteIssue_eq k f i x; rw [h]
@[simp] theorem State.noteIssue_dies : (s.noteIssue k f i x).dies = s.dies := by obtain ⟨_, _, _, h⟩ := s.noteIssue_eq k f i x; rw [h]
@[simp] theorem State.noteIssue_pkg : (s.noteIssue k f i x).pkg = s.pkg := by obtain ⟨_, _, _, h⟩ := s.noteIssue_eq k f i x; rw [h]
@[simp] theorem State.noteIssue_fibre? (j : Nat) : (s.noteIssue k f i x).fibre? j = s.fibre? j := by
  unfold State.fibre?
  rw [State.noteIssue_fibres]

end

/-! ## Fibres of a state -/

theorem State.setFibre_fibre?_same {s : State} {k : Nat} {f0 f : Fibre} (h : s.fibre? k = some f0) : (s.setFibre k f).fibre? k = some f := by
  have hk : k < s.fibres.length := (List.getElem?_eq_some_iff.1 h).1
  simp [State.fibre?, State.setFibre, hk]
theorem State.setFibre_fibre?_other {s : State} {k j : Nat} {f : Fibre} (h : j ≠ k) : (s.setFibre k f).fibre? j = s.fibre? j := by
  simp [State.fibre?, State.setFibre, Ne.symm h]
theorem State.setFibre_others (s : State) (k : Nat) (f : Fibre) : OthersSame k s (s.setFibre k f) :=
  ⟨by simp [State.setFibre], fun _ h => State.setFibre_fibre?_other h⟩

/-! ## Words that are done -/

@[simp] theorem Fibre.pass_inv (f : Fibre) (n : Nat) : (f.pass n).inv = f.inv := by
  unfold Fibre.pass Fibre.leave
  dsimp only
  split <;> split <;> (try split) <;> rfl
/-- The end of an INV evaluation is nothing to a fibre without one. -/
theorem State.invEnd_none {s : State} {k : Nat} {f : Fibre} (h : s.fibre? k = some f) (hi : f.inv = none) : s.invEnd k = s := by
  unfold State.invEnd
  rw [h]
  simp [hi]
/-- A word that is done outside an INV routine: its fibre passes it, and issue is noted. -/
theorem State.finish_eq {u : State} {k : Nat} {i : Instr} {f g f0 : Fibre} (hi : g.inv = none) (hu : u.fibre? k = some f0) :
    u.finish k i f g = (u.setFibre k ((g.counted f i true u.clk).pass i.size)).noteIssue k f i true := by
  unfold State.finish
  refine State.invEnd_none (f := (g.counted f i true u.clk).pass i.size) ?_ ?_
  · rw [State.noteIssue_fibre?]
    exact State.setFibre_fibre?_same hu
  · rw [Fibre.pass_inv]
    exact hi
/-- Passing a word moves a fibre's place in the code and nothing else. -/
theorem Fibre.pass_agrees (f : Fibre) (n : Nat) : f.Agrees (f.pass n) := by
  unfold Fibre.pass Fibre.leave Fibre.Agrees
  dsimp only
  split <;> split <;> (try split) <;> rfl
@[simp] theorem Fibre.pass_regs (f : Fibre) (n : Nat) : (f.pass n).regs = f.regs := by
  unfold Fibre.pass Fibre.leave
  dsimp only
  split <;> split <;> (try split) <;> rfl
@[simp] theorem Fibre.pass_preds (f : Fibre) (n : Nat) : (f.pass n).preds = f.preds := by
  unfold Fibre.pass Fibre.leave
  dsimp only
  split <;> split <;> (try split) <;> rfl
@[simp] theorem Fibre.pass_astat (f : Fibre) (n : Nat) : (f.pass n).astat = f.astat := by
  unfold Fibre.pass Fibre.leave
  dsimp only
  split <;> split <;> (try split) <;> rfl

/-! ## Register updates -/

theorem Fibre.setReg_reg_same {f : Fibre} {r : Nat} (v : Word) (h : r < f.regs.length) : (f.setReg r v).reg r = v := by
  simp [Fibre.setReg, Fibre.reg, h]
theorem Fibre.setReg_reg_other {f : Fibre} {r q : Nat} (v : Word) (h : q ≠ r) : (f.setReg r v).reg q = f.reg q := by
  simp [Fibre.setReg, Fibre.reg, Ne.symm h]
theorem Fibre.setRun_reg_other (ws : List Word) : ∀ (f : Fibre) (d q : Nat), (q < d ∨ d + ws.length ≤ q) → (f.setRun d ws).reg q = f.reg q := by
  induction ws with
  | nil => intros; rfl
  | cons w ws ih =>
    intro f d q h
    simp only [List.length_cons] at h
    rw [Fibre.setRun, ih _ _ _ (by omega), Fibre.setReg_reg_other _ (by omega)]
theorem Fibre.setRun_agrees (ws : List Word) : ∀ (f : Fibre) (d : Nat), ∃ rs po hs,
    f.setRun d ws = { f with regs := rs, poison := po, handles := hs } ∧ rs.length = f.regs.length := by
  induction ws with
  | nil => intro f d; exact ⟨f.regs, f.poison, f.handles, rfl, rfl⟩
  | cons w ws ih =>
    intro f d
    obtain ⟨rs, po, hs, h, hl⟩ := ih (f.setReg d w) (d + 1)
    exact ⟨rs, po, hs, h, by rw [hl]; simp [Fibre.setReg]⟩
theorem Fibre.setPreds_eq (l : List (Nat × Bool)) : ∀ f : Fibre, ∃ ps, f.setPreds l = { f with preds := ps } := by
  induction l with
  | nil => intro f; exact ⟨f.preds, rfl⟩
  | cons p l ih =>
    intro f
    obtain ⟨ps, h⟩ := ih (f.setPred p.1 p.2)
    exact ⟨ps, h⟩
theorem raiseBits_keeps (a : Word) (c : Conds) : raiseBits a c &&& a = a := by
  unfold raiseBits
  ext i
  simp only [BitVec.getElem_and, BitVec.getElem_or]
  cases a[i] <;> simp

end Sys2Proof.Machine
end

