-- ==== Sys2Proof/Tests/Slice0.lean ====
section
/-! SUPPORT. The model's own tests: words written out from their encodings, terms that WellFormed refuses, worked results of the spec, and for
each statement of Certificates/Slice0 states and operands that meet its hypotheses. -/

namespace Sys2Proof.Tests
set_option Elab.async false
open Sys2Proof Sys2Proof.Machine

/-- The head of a word without guard, stall or stop site. -/
def h : Head := ⟨0, false, false⟩

/-! ## Decoding: words from the spec's encodings, one of each family or more -/

/-- R30 and R35: major 0x08 in [29:24] of the word, stop [31], stall and guard, d, a, b. -/
theorem test_decode_add : decodeTableWord 32 0x20004103 = some (.add ⟨1, false, false⟩ 1 2 3) := by decide +kernel
/-- R99: MOVI with its 14-bit immediate, guarded. -/
theorem test_decode_movi : decodeTableWord 32 0x0A213FFB = some (.movi ⟨0, false, true⟩ 4 0x3FFB) := by decide +kernel
/-- R54: PADW. -/
theorem test_decode_padw : decodeTableWord 32 0x17E80000 = some (.padw ⟨0, true, false⟩) := by decide +kernel
/-- R53: JMPT with its index. -/
theorem test_decode_jmpt : decodeTableWord 32 0x17F00005 = some (.jmpt ⟨0, true, false⟩ 5) := by decide +kernel
/-- R49: REP. -/
theorem test_decode_rep : decodeTableWord 32 0x07E07E00 = some (.rep false 7 true true true false false) := by decide +kernel
/-- R110: LOOP on a register. -/
theorem test_decode_loop : decodeTableWord 64 0x0000000303E00000 = some (.loopReg h 0 3) := by decide +kernel
/-- R125: QNT to BFP4 with .adj. -/
theorem test_decode_qnt : decodeTableWord 64 0x9008002205AA0400 = some (.qnt h 40 8 72 .rn true .bfp4) := by decide +kernel
/-- R179 and R180: the three words of an MMA. -/
theorem test_decode_mma : decodeTableWord 96 0x000000200400004607600800 =
    some (.mma h 0 16 0 2 false false false false true false .bfp8 0 false 0 32) := by decide +kernel
/-- R231: DCARM. -/
theorem test_decode_dcarm : decodeTableWord 64 0x204000050780050B = some (.dcarm h 10 11 16 5) := by decide +kernel
/-- R225: QPUSH of two words without a task. -/
theorem test_decode_qpush : decodeTableWord 64 0x0000000107814100 = some (.qpush h 5 2 0 0 false 1) := by decide +kernel
/-- R297: GUESS of an immediate. -/
theorem test_decode_guess : decodeTableWord 64 0x010000021781540A = some (.guess ⟨0, true, false⟩ 5 40 10 0 .s32 0 false false true false) := by
  decide +kernel
/-- R298: AFFIRM with a handle. -/
theorem test_decode_affirm : decodeTableWord 64 0x0110000107824600 = some (.affirm h 9 12 true) := by decide +kernel
/-- R336: PUTS with a signal that adds. -/
theorem test_decode_puts : decodeTableWord 64 0x2800001807AA0504 = some (.puts h 40 10 4 20 0 false true true .sp) := by decide +kernel
/-- R341: SIGWT. -/
theorem test_decode_sigwt : decodeTableWord 64 0x2430000C07A78710 = some (.sigwt h 30 14 16 18 3 .ge) := by decide +kernel
/-- R370: BRKP stands at a stop site. -/
theorem test_decode_brkp : decodeTableWord 64 0x0080000517C00000 = some (.brkp ⟨0, true, false⟩ 5) := by decide +kernel
/-- R371: TRACE of two registers, and MARK. -/
theorem test_decode_trace : decodeTableWord 64 0x0090010307C0060D = some (.trace h 12 13 true 3) ∧
    decodeTableWord 64 0x00A0002A07C00000 = some (.mark h 42) := by decide +kernel
/-- R272: AWWR; R269: RFT. -/
theorem test_decode_handler : decodeTableWord 64 0x1030000007C28205 = some (.awwr h 10 4 5 8) ∧
    decodeTableWord 64 0x0010000007C00000 = some (.rft h 0 false .ret) := by decide +kernel
/-- R133: INV, its iteration limit in bits above the tolerance. -/
theorem test_decode_inv : decodeTableWord 64 0x0E03E00007E42864 = some (.inv h 5 6 1 .fp32 7 false 0 31) ∧
    decodeTableWord 64 0x0E00E00007E42861 = some (.inv h 5 6 0 .int32 7 false 0 7) := by decide +kernel
/-- R47: a reserved major opcode decodes to nothing. -/
theorem test_decode_reserved : decodeTableWord 32 (0x14 * 2 ^ 21) = none ∧ decodeTableWord 64 (0x2B * 2 ^ 21) = none := by decide +kernel

/-! ## WellFormed: for each check a term it refuses, by its cause -/

/-- The causes of the fields that make an instruction illegal. -/
def causes (i : Instr) : List Nat := (i.faults.filter (·.1)).map (·.2)
/-- Each term is ill-formed for the one cause beside it. -/
def refused (l : List (Nat × Instr)) : Bool := l.all fun e => causes e.2 == [e.1] && !e.2.legal

theorem test_ill_formed_integer : refused [
    (9, .addTyped h 0 0 0 .f32 false), (9, .subTyped h 0 0 0 .f64 false), (9, .mulTyped h 0 0 0 .f16 false), (9, .mulhi h 0 0 0 .bf16),
    (9, .div h 0 0 0 .f32 false), (9, .rem h 0 0 0 .f32), (9, .minTyped h 0 0 0 .f32), (9, .maxTyped h 0 0 0 .f32), (9, .negTyped h 0 0 .f32 false),
    (9, .absTyped h 0 0 .ui32 false), (9, .mad h 0 0 0 0 .f32 false), (9, .bfx h 0 0 0 .s16), (9, .bfi h 0 0 0 0 .ui8), (6, .sel h 0 0 0 96 .s32),
    (9, .sel h 0 0 0 0 .s8), (6, .setp h 96 0 0 0 0 .s32 false 0), (6, .setp h 0 0 0 96 0 .s32 true 0), (9, .setp h 0 0 0 0 0 .f32 false 0),
    (3, .setp h 0 0 0 1 0 .s32 false 0), (3, .setp h 0 0 0 0 0 .s32 false 1), (6, .plog h 96 0 0 0 0), (6, .plog h 0 96 0 0 0), (6, .plog h 0 0 96 0 0),
    (6, .plog h 0 0 0 96 0), (6, .pmovToReg h 0 3), (6, .pmovToPred h 3 0), (12, .movs h 0 0x1D), (12, .movsw h 0 0x00), (12, .movsw h 0 0x28),
    (5, .loopReg h 0 1), (5, .loopImm h 0 1), (3, .lbrk h 0), (3, .lbrk h 5)] = true := by decide +kernel
theorem test_ill_formed_float : refused [
    (9, .fclass h 0 0 .s32), (6, .fcmp h 96 0 0 0 0 false 0), (6, .fcmp h 0 0 0 96 0 true 0), (3, .fcmp h 0 0 0 0 0 false 1),
    (6, .dcmp h 96 0 0 0 0 false 0), (6, .dcmp h 0 0 0 96 0 true 0), (3, .dcmp h 0 0 0 1 0 false 0), (9, .hadd2 h 0 0 0 .f32 .rn),
    (9, .hmul2 h 0 0 0 .s16 .rn), (9, .hfma2 h 0 0 0 0 .f64 .rn), (3, .cvt h 0 0 .s64 .rn true .s32), (3, .cvt h 0 0 .f64 .ru false .f32),
    (9, .qnt h 0 0 0 .rn false .f16), (9, .dqnt h 0 0 0 .int8), (9, .rand h 0 .s32), (9, .shfl h 0 0 0 0 .lane .s16 0), (6, .shfl h 0 0 0 0 .lane .s32 96),
    (6, .vote h 96 0 0 0 .split), (6, .vote h 0 96 0 0 .mask), (3, .vote h 0 0 1 0 .mask), (9, .spred h 0 0 0 .fadd .f32 .sr false),
    (9, .spred h 0 0 0 .add .f32 .rn false), (3, .spred h 0 0 0 .min .s32 .ru false), (9, .qswap h 0 0 .s16 0), (3, .qswap h 0 0 .s32 3),
    (9, .qbc h 0 0 .bf16 0)] = true := by decide +kernel
theorem test_ill_formed_memory : refused [
    (3, .ld h 0 0 .sp .b32 .weak .clu 0), (9, .ld h 0 0 .sp .b128 .rlx .grp 0), (9, .ld h 0 0 .sp .b32 .rel .grp 0), (3, .st h 0 0 .sp .b32 .weak .die 0),
    (9, .st h 0 0 .sp .b128 .rel .grp 0), (9, .st h 0 0 .sp .b32 .acq .grp 0), (9, .st h 0 0 .ws .b32 .weak .grp 0), (3, .atom h 0 0 0 .sp .b32 .weak .sys .add 0),
    (9, .atom h 0 0 0 .ws .b32 .rlx .grp .add 0), (9, .atom h 0 0 0 .sp .b16 .rlx .grp .add 0), (9, .atom h 0 0 0 .sys .b32 .rlx .grp .umax 0),
    (3, .red h 0 0 .sp .b32 .weak .pkg .add 0), (9, .red h 0 0 .ws .b32 .rlx .grp .add 0), (9, .red h 0 0 .g .b8 .rlx .grp .add 0),
    (9, .red h 0 0 .sys .b32 .rlx .grp .and 0), (9, .red h 0 0 .sp .b32 .rlx .grp .exch 0), (9, .fence h 5 0), (9, .fence h 0 2),
    (9, .cpasync h 0 0 0 0 false .sp .ws), (9, .cpasync h 0 0 0 0 false .sys .sp), (9, .gath h 0 0 0 0 .sp .bfp2 false), (9, .gath h 0 0 0 0 .g .f16 true),
    (9, .gath h 0 0 0 0 .g .bfp4 false), (6, .gath h 0 8 0 0 .g .bfp4 true), (6, .ftest h 96 0), (6, .fcancel h 96 0), (6, .oqpop h 0 8 0), (6, .oqrel h 8),
    (3, .aslice h 1 0 false), (6, .afeed h 8 0 0 0 .reg), (3, .afeed h 0 0 0 0x100 .reg), (3, .afeed h 0 0 0 0x008 .mem), (3, .afeed h 0 0 0 0x400 .b),
    (9, .afeed h 0 0 0 4 .mem), (9, .afeed h 0 0 0 0x0C0 .b), (9, .afeed h 0 0 0 0x198 .b), (3, .afeed h 0 0 1 0 .reg), (6, .pwait h 8 0),
    (6, .barst h 96 0), (6, .cvdecl h 16 0)] = true := by decide +kernel
theorem test_ill_formed_matrix : refused [
    (6, .mma h 6 0 0 0 false false false false false false .bfp8 0 false 0 0), (6, .mma h 0 0 0 16 false false false false false false .bfp8 0 false 0 0),
    (6, .mma h 0 0 8 0 false false false false false false .bfp8 0 false 0 0), (9, .mma h 0 0 0 0 false false false false false true .f16 0 false 0 0),
    (9, .mma h 0 0 0 0 false true false false false false .bfp8 0 false 0 0), (9, .mma h 0 0 0 0 true true false false false false .int8 0 false 0 0),
    (9, .mma h 0 0 0 0 false false true true false false .bfp8 0 false 0 0), (9, .mma h 0 0 0 0 false false false false false false .bfp8 0 false 3 0),
    (3, .mma h 0 0 0 0 false false false false false false .int8 0 false 0 1), (3, .mma h 0 0 0 0 false false false false false false .int8 0 false 1 0),
    (3, .mma h 0 0 0 0 false false false false false false .bfp8 1 false 0 0), (6, .accz h 6), (6, .accld h 6 0 .sp), (9, .accld h 0 0 .ws),
    (6, .accst h 6 0 0 .rn .sp false .f32), (9, .accst h 0 0 0 .rn .sys false .f32), (9, .accst h 0 0 0 .rn .sp false .int8),
    (3, .accst h 0 0 0 .ru .sp false .f32), (3, .accst h 0 0 0 .rn .sp true .f32), (3, .accst h 0 0 1 .rn .sp false .f32), (6, .accrd h 0 6 0)] = true := by
  decide +kernel
theorem test_ill_formed_system : refused [
    (3, .qpush h 0 0 0 0 false 6), (3, .qpush h 0 0 1 0 false 0), (6, .qpeek h 0 0 96 0), (9, .guess h 0 0 0 0 .s16 0 false false false true),
    (3, .guess h 0 1 0 0 .s32 0 false false false true), (3, .guess h 0 0 0 0 .s32 0 false true false true), (3, .guess h 0 1 0 0 .s32 1 false false false false),
    (3, .guess h 0 1 0 2 .s32 0 false false false false), (3, .affirm h 1 0 false), (9, .deny h 0 0 0 .s8 false), (3, .deny h 1 0 0 .s32 false),
    (3, .tagq h 0 0 1 .state), (3, .tagq h 0 1 0 .aid), (9, .puts h 0 0 0 0 0 false false false .cm), (3, .puts h 0 0 0 0 0 false true false .sp),
    (3, .puts h 0 0 0 0 1 false false false .sp), (3, .puts h 0 0 0 0 0 true false false .sp), (9, .get h 0 0 0 0 false .ws),
    (9, .radd h 0 0 0 0 .s16 0 false .sp), (9, .radd h 0 0 0 0 .s32 0 false .cm), (3, .radd h 0 0 0 0 .s32 1 false .sp), (3, .radd h 0 0 0 0 .s32 0 true .sp),
    (6, .sigwt h 0 0 0 0 96 .ge), (9, .want h 0 0 0 0 .cm 0), (9, .announce h 0 0 0 0 .sys), (9, .twalk h 0 0 0 36), (6, .permit h 96 0 0),
    (3, .rft h 2 false .ret), (3, .brkp h 0), (3, .trace h 0 1 false 0)] = true := by decide +kernel
/-- R40: a run that begins off its multiple or passes register 127 is ill-formed, the same run in its place is well-formed. -/
theorem test_ill_formed_runs :
    [Instr.dadd h 1 2 4 .rn, .dadd h 0 2 5 .rn, .ld h 2 1 .g .b32 .weak .grp 0, .ld h 2 0 .sp .b128 .weak .grp 0, .brx h 3, .qnt h 100 97 0 .rn false .bfp4,
     .dqnt h 97 0 0 .bfp4, .mma h 0 113 0 0 false false false false false false .bfp8 0 false 0 0, .accrd h 97 0 0, .movhi h 1 0, .movs h 1 7].all (!·.legal) = true ∧
    [Instr.dadd h 0 2 4 .rn, .ld h 2 0 .g .b32 .weak .grp 0, .ld h 4 0 .sp .b128 .weak .grp 0, .brx h 2, .qnt h 100 96 0 .rn false .bfp4, .dqnt h 96 0 0 .bfp4,
     .mma h 0 112 0 0 false false false false false false .bfp8 0 false 0 0, .accrd h 96 0 0, .movhi h 0 0, .movs h 0 7].all (·.legal) = true := by decide +kernel

/-! ## One step on a small state -/

/-- A machine with a job of one fibre of 128 registers at a clause of six words. -/
def base : State := let s := State.reset.withFetchWord 32 0
  s.modFibre s.cur fun f => { f with hdr := some (headerWord 6 0 0 0 0 false) }
/-- The fibre of `base`. -/
def me : Nat := base.cur
/-- `base` with the registers given in the fibre. -/
def with_ (rs : List (Nat × Word)) : State := base.modFibre me fun f => f.setRegs rs
/-- The machine after an instruction; the same machine where it answers no next state. -/
def after_ (i : Instr) (s : State) : State := match exec i s with | .next t => t | _ => s
/-- The fibre of `base` after an instruction. -/
def fibreAfter (i : Instr) (s : State) : Fibre := ((after_ i s).fibre? me).getD (Fibre.controlReset 0)
/-- A register after an instruction. -/
def reg (i : Instr) (s : State) (r : Nat) : Word := (fibreAfter i s).reg r

/-- R93: a shift of the full width gives 0, an arithmetic one the sign; ROT takes its amount modulo 32. -/
theorem test_shift_full : reg (.shl h 1 2 3) (with_ [(2, 1), (3, 32)]) 1 = 0 ∧ reg (.sar h 1 2 3) (with_ [(2, 0x80000000), (3, 40)]) 1 = 0xFFFFFFFF ∧
    reg (.rot h 1 2 3) (with_ [(2, 0x80000001), (3, 33)]) 1 = 3 := by decide +kernel
/-- R93 and R94: SUB wraps and reads both sources before it writes one of them; ANDN; CLZ of 0; BREV. -/
theorem test_one_word : reg (.sub h 2 2 3) (with_ [(2, 1), (3, 2)]) 2 = 0xFFFFFFFF ∧ reg (.andn h 1 2 3) (with_ [(2, 0xFF), (3, 0x0F)]) 1 = 0xF0 ∧
    reg (.clz h 1 2) (with_ []) 1 = 32 ∧ reg (.brev h 1 2) (with_ [(2, 1)]) 1 = 0x80000000 := by decide +kernel
/-- R95's example: ADD.ui8.sat of 200 and 100 writes 255 and sets SAT (bit 5); without .sat it writes 44. -/
theorem test_add_ui8 : reg (.addTyped h 1 2 3 .ui8 true) (with_ [(2, 200), (3, 100)]) 1 = 255 ∧
    (fibreAfter (.addTyped h 1 2 3 .ui8 true) (with_ [(2, 200), (3, 100)])).astat.getLsbD 5 = true ∧
    reg (.addTyped h 1 2 3 .ui8 false) (with_ [(2, 200), (3, 100)]) 1 = 44 := by decide +kernel
/-- R96: MIN by −1 gives MIN, a signed dividend by 0 MIN or MAX by its sign; the result is in flight (R92). -/
theorem test_div_corner :
    (after_ (.div h 1 2 3 .s32 false) (with_ [(2, 0x80000000), (3, 0xFFFFFFFF)])).ops.map (·.body) = [.result [(1, 0x80000000)] [] 0] ∧
    (after_ (.div h 1 2 3 .s32 false) (with_ [(2, 5)])).ops.map (·.body) = [.result [(1, 0x7FFFFFFF)] [] 0] ∧
    (after_ (.rem h 1 2 3 .s32) (with_ [(2, 0xFFFFFFF9), (3, 3)])).ops.map (·.body) = [.result [(1, 0xFFFFFFFF)] [] 0] := by decide +kernel
/-- R99's example: MOVI of 0x3FFB writes −5; MOVHI writes the odd register only. -/
theorem test_movi : reg (.movi h 4 0x3FFB) (with_ []) 4 = 0xFFFFFFFB ∧ reg (.movhi h 4 7) (with_ [(4, 1)]) 5 = 7 ∧ reg (.movhi h 4 7) (with_ [(4, 1)]) 4 = 1 := by
  decide +kernel
/-- R33: the fibre discards a guarded word while its guard p3 is 0, and goes past it. -/
theorem test_guard_discards : let s := base.modFibre me fun f => { f with hdr := some (headerWord 6 0 0 0 3 false) }
    reg (.movi ⟨0, false, true⟩ 4 1) s 4 = 0 ∧ (fibreAfter (.movi ⟨0, false, true⟩ 4 1) s).rp.idx = 1 := by decide +kernel
/-- R100: BFX of 4 bits at 28 sign-extended; BFI of a field of length 0 changes nothing. -/
theorem test_bit_fields : reg (.bfx h 1 2 3 .s32) (with_ [(2, 0xF0000000), (3, 0x41C)]) 1 = 0xFFFFFFFF ∧
    reg (.bfi h 1 2 3 4 .s32) (with_ [(2, 0xF), (3, 0x004), (4, 0xAB)]) 1 = 0xAB := by decide +kernel
/-- R104: a block of predicates has p32k in bit 0, and p0 stays 1. -/
theorem test_pmov : (fibreAfter (.pmovToPred h 0 2) (with_ [(2, 2)])).pred 1 = true ∧ (fibreAfter (.pmovToPred h 0 2) (with_ [(2, 2)])).pred 0 = true ∧
    reg (.pmovToReg h 1 0) (with_ []) 1 = 1 := by decide +kernel
/-- R244's example: cluster 3 at clk 1,000,000 reads 0x0601_6760, and at 1,090,000 a NEXT of 2,000. -/
theorem test_wscal : wscal 3 1000000 = 0x06016760 ∧ (wscal 3 1090000).toNat % 2 ^ 17 = 2000 := by decide +kernel
/-- R44: BRA reaches its word's address plus 4 × off21, and the rest of the clause does not issue. -/
theorem test_bra : (fibreAfter (.bra h 0x1FFFFF) base).rp = ⟨((base.fibre? me).getD (Fibre.controlReset 0)).pc - 4, 0⟩ := by decide +kernel
/-- R108: TRAP in a group without a handler is a job fault: the fibre stops. -/
theorem test_trap : (fibreAfter (.trap h 7) base).run = .stopped ∧ (fibreAfter (.trap h 7) base).xr.cls = 0x14 ∧
    (fibreAfter (.trap h 7) base).xr.opd = 7 := by decide +kernel
/-- R116: 1.0 + 2^−24 is a tie and gives 1.0 with NX; −0 and +0 give +0; R26's fixed order gives 0x3F80_0000. -/
theorem test_fadd : reg (.fadd h 1 2 3 .rn) (with_ [(2, 0x3F800000), (3, 0x33800000)]) 1 = 0x3F800000 ∧
    (fibreAfter (.fadd h 1 2 3 .rn) (with_ [(2, 0x3F800000), (3, 0x33800000)])).astat.getLsbD 4 = true ∧
    reg (.fadd h 1 2 3 .rn) (with_ [(2, 0x80000000)]) 1 = 0 ∧ accumulate (accumulate 0x3F800000 0x33800000) 0x33800000 = 0x3F800000 := by decide +kernel
/-- R9: infinity minus infinity is the canonical NaN with NV; a quiet NaN raises nothing. -/
theorem test_nan : FF.f32.sub .rn 0x7F800000 0x7F800000 0 = (0x7FC00000, { nv := true }) ∧ (FF.f32.add .rn 0x7FC12345 0 0) = (0x7FC00000, Conds.none) := by
  decide +kernel
/-- R124: BF16 of the tie 0x3F80_8000 is 0x3F80, upward 0x3F81, both with NX. -/
theorem test_cvt : cvtValue .bf16 .f32 .rn false 0x3F808000 0 = ([0x3F80], { nx := true }) ∧ cvtValue .bf16 .f32 .ru false 0x3F808000 0 = ([0x3F81], { nx := true }) := by
  decide +kernel
/-- R24's first block: E = 128, one underflow, bytes 0xE6, 0x01; its second: E = 127, none, first byte 0x18. -/
theorem test_qnt :
    let q := quantise 4 .rn true ([0x40400000, 0xBFA00000, 0x3E99999A, 0x3D800000] ++ List.replicate 28 0) []
    let p := quantise 4 .rn true ([0xC0000000, 0x3E400000] ++ List.replicate 30 0) []
    (q.e, q.ufc, leWords 4 (q.bytes 4 0)) = (128, 1, [0x1E6, 0, 0, 0]) ∧ (p.e, p.ufc, (p.bytes 4 0).take 1) = (127, 0, [0x18]) := by decide +kernel
/-- R126: the values of the first block are 3.0, −1.0, 0.5 and 0. -/
theorem test_dqnt : [6, -2, 1, 0].map (fun m => (dequant 4 128 m).1) = [0x40400000, 0xBF800000, 0x3F000000, 0] := by decide +kernel
/-- R25: mantissas of 64 in every place of both operands at E = 127 make an element 64.0. -/
theorem test_mma_round : let v := ((127, List.replicate 32 (64 : Int)), (127, List.replicate 32 (64 : Int)))
    mmaElem false 8 v v 0 = (0x42800000, false) := by decide +kernel
/-- R27: the s32 mode saturates at 2^31 − 1 and says so. -/
theorem test_mma_s32 : let v := ((0, List.replicate 32 (127 : Int)), (0, List.replicate 32 (127 : Int)))
    mmaElem true 8 v v 0x7FFFFFFF = (0x7FFFFFFF, true) := by decide +kernel
/-- R167: signed and unsigned order differ, .wrap goes from b − 1 to 0, .cas leaves another value. -/
theorem test_atomics : atomNew .smin 32 0xFFFFFFFF 1 0 = 0xFFFFFFFF ∧ atomNew .umin 32 0xFFFFFFFF 1 0 = 1 ∧ atomNew .wrap 32 4 5 0 = 0 ∧
    atomNew .cas 32 4 5 9 = 4 ∧ atomNew .cas 32 5 5 9 = 9 := by decide +kernel
/-- R216's example: of A (PRIO 2, TASK 9, clk 100), B (5, 4, 103) and C (5, 3, 103) pops take C, B, A. -/
theorem test_queue_order :
    let e := fun (p t clk : Nat) => QEntry.mk ([0, 0, 0, 0, 0, 0] ++ [w32 t, w32 (p * 2 ^ 24)]) none [] clk 0 false none [] []
    let a := e 2 9 100; let b := e 5 4 103; let c := e 5 3 103
    firstEntry [a, b, c] 0 = some (2, c) ∧ firstEntry [a, b] 0 = some (1, b) ∧ firstEntry [a] 0 = some (0, a) := by decide +kernel
/-- R325's example in BF16: the order 0, 1, 2 sends 1.0 twice and ends at 1.00390625; the order 1, 2, 0 ends at 1.0078125. -/
theorem test_collective_order :
    let go := fun (x y z : Nat) => let p := widen 0 (wire 0 x); let q := widen 0 (wire 0 (collAdd 0 p y)); (wire 0 x, wire 0 (collAdd 0 p y), collAdd 0 q z)
    go 0x3F800000 0x3B800000 0x3B800000 = (0x3F80, 0x3F80, 0x3F808000) ∧ go 0x3B800000 0x3B800000 0x3F800000 = (0x3B80, 0x3C00, 0x3F810000) := by decide +kernel
/-- R176: the second of two arrivals opens the next phase and moves the status of the running phase down. -/
theorem test_barrier : Barrier.arrive ⟨4, 2, 1, 0⟩ .dataerr = ⟨5, 2, 0, 6⟩ ∧ Barrier.arrive ⟨4, 2, 0, 3⟩ .fault = ⟨4, 2, 1, 0x10003⟩ := by decide +kernel
/-- R164: an 8-bit store leaves the bytes beside it, and a memory byte written with what an unlisted one reads as is unlisted again. -/
theorem test_store : let s := base.store 100 [1, 2, 3]
    s.getBytes 99 5 = [0, 1, 2, 3, 0] ∧ (s.store 101 [0]).mem.length = base.mem.length + 2 := by decide +kernel
/-- R48 and R105: %clk's low word, %fid and %lr as MOVS reads them. -/
theorem test_movs : reg (.movs h 2 7) base 2 = 0 ∧ reg (.movs h 2 0) base 2 = 0 ∧
    reg (.movs h 2 8) (base.modFibre me fun f => { f with lr := 0x123456789 }) 3 = 1 := by decide +kernel
/-- R49: REP of 8 leaves %rc at 8, with the target to come. -/
theorem test_rep : (fibreAfter (.rep false 7 true true true false false) base).rc = 8 := by decide +kernel
/-- R168 and R169: a FENCE with nothing outstanding goes on. -/
theorem test_fence : (fibreAfter (.fence h 2 0) base).rp.idx = 1 := by decide +kernel
/-- R269: RFT outside a handler is cause 0x1C. -/
theorem test_rft : (fibreAfter (.rft h 0 false .ret) base).xr.cls = 0x1C := by decide +kernel
/-- R230: QCNT of a queue that is not configured is cause 0x1A. -/
theorem test_qcnt : (fibreAfter (.qcnt h 1 5) base).xr.cls = 0x1A := by decide +kernel
/-- R59 and R265: EVPOP outside control mode is a system trap for a privilege violation, and the fibre stops before it. -/
theorem test_evpop : (fibreAfter (.evpop h 4 true) base).run = .stopped ∧ (fibreAfter (.evpop h 4 true) base).rp.idx = 0 ∧
    ((after_ (.evpop h 4 true) base).core ((base.site ((base.fibre? me).getD (Fibre.controlReset 0))).coreIx)).trapq.map (fun r => (r.words.getD 0 0).toNat / 2 ^ 24) = [4] := by
  decide +kernel

/-! ## Witnesses: for each statement, states and operands that meet its hypotheses -/

/-- All of these hold. -/
def met (l : List Bool) : Bool := l.all id
/-- The instruction executes in s, for a fibre of which p holds: the hypothesis `Executes i s f`. -/
def goes (i : Instr) (s : State) (p : Fibre → Bool := fun _ => true) : Bool := match gate i s with | .go f => p f | _ => false
theorem goes_executes (i : Instr) (s : State) (h : goes i s = true) : ∃ f, Executes i s f := by
  unfold goes at h
  split at h
  · exact ⟨_, by assumption⟩
  · cases h
/-- A fibre in no helper and with no assumption (`Free`). -/
def free_ (f : Fibre) : Bool := !f.isHelper && !f.tainted
/-- Each of the instructions executes in s for a free fibre. -/
def allGo (s : State) (l : List Instr) : Bool := l.all fun i => goes i s free_
/-- `base` with a change to its fibre. -/
def fib (u : Fibre → Fibre) : State := base.modFibre me u
/-- The fibre of s at `me`. -/
def the (s : State) : Fibre := (s.fibre? me).getD (Fibre.controlReset 0)
/-- `base` with its fibre a helper, or under an assumption, or privileged. -/
def helper : State := fib fun f => { f with kind := .helper }
def tainted : State := fib fun f => { f with taint := [(0x10, 0)] }
def control : State := fib fun f => { f with kind := .control 0 }

/-- The fibre whose turn it is stands at an instruction of which p holds, with every hypothesis of AStepRunsTheDecodedWord met. -/
def stands (s : State) (p : State → Nat → Fibre → Raw → Instr → Bool) : Bool :=
  match s.nextTurn with
  | (some (.fibre k), u) =>
    match u.fibre? k with
    | some f =>
      match ({ u with cur := k } : State).fetchInstr f f.rp.idx f.header.count with
      | (.ok r, v) =>
        match decode r with
        | .ok i => u.mayIssue f && f.hdr.isSome && f.owed.isNone && !f.lost && f.rep.isNone && f.inv.isNone && !f.isPacer &&
            (wordCauses f.header.cls f.rp.idx f.header.count (v.allocation f).1 (v.allocation f).2 f.isPacer f.privileged r).isEmpty &&
            (!r.h.stop || !(v.stopSite k f (BitVec.ofNat 64 f.rp.addr)).1) && p v k f r i
        | _ => false
      | _ => false
    | none => false
  | _ => false
/-- The instruction stands where the next step fetches, its clause open. -/
def opened (nbits w n : Nat) : State := let s := State.reset.withFetchWord nbits w
  s.modFibre s.cur fun f => { f with hdr := some (headerWord n 6 0 0 0 false) }
theorem test_witness_step : met [
    match (State.reset.withFetchWord 32 0).nextTurn with
      | (some (.fibre k), u) => (match u.prepare k with | .run _ i => i == .add h 0 0 0 | _ => false)
      | _ => false,
    stands (opened 32 0 1) fun _ _ _ _ i => i == .add h 0 0 0,
    stands (opened 32 0x17E80000 1) fun _ _ _ _ i => i == .padw ⟨0, true, false⟩,
    stands (opened 32 0x07E07E00 2) fun v k f r _ => (v.prepareRep k f f.header r (v.allocation f).1 (v.allocation f).2).1.isNone,
    stands (opened 64 0x0E03E00007E42864 2) fun v k f r _ => (v.prepareInv k f f.header r [] (v.allocation f).1 (v.allocation f).2).1.isNone,
    match ({ base with turns := [⟨0, .event (.napWake 1)⟩] } : State).nextTurn with | (some (.event i), u) => u.admits i | _ => false] = true := by
  decide +kernel

theorem test_witness_fetch : let a : DWord := w64 placeVa
    let f := the base
    let core := (base.site f).coreIx
    let cached := base.modCore core fun c => { c with icache := [(base.jobOf f, a, 7)] }
    met [
      cached.cached core (cached.jobOf f) a == some 7,
      (base.cached core (base.jobOf f) (w64 (2 ^ 57))).isNone,
      (base.cached core (base.jobOf f) a).isNone && (match base.find f .g a.toNat 4 .fetch with | (.at_ loc, t) => !t.poisonedAt loc 4 | _ => false),
      let s := State.reset.withFetchWord 32 0
      let f := the s
      f.hdr.isNone && !badHeader f.rp.hdr && f.rp.idx == 0 && (match s.fetchWord f f.rp.hdr with
        | (.ok w, _) => (headerCauses w).isEmpty && !f.clauseWaits (Header.ofWord w) | _ => false)] = true := by
  decide +kernel

/-- The word after which an access of base's fibre stands at its place. -/
def issued (i : Instr) (rs : List (Nat × Word) := []) : State := after_ i (with_ rs)
/-- The core of the fibre of `base`. -/
def core0 : Nat := (base.site (the base)).coreIx
/-- The last operation of a state. -/
def last (s : State) : Op := s.ops.getLast?.getD default
theorem test_witness_invariants : met [
    Memory.wf base.mem, (match step base with | .next _ => true | _ => false),
    Memory.wf ([] : List Host.Cell), decide (encode (.add h 1 2 3) ≠ []), (Instr.add h 1 2 3).legal,
    decide ((⟨0x14 * 2 ^ 21, 0, 0⟩ : Raw).major.toNat = 0x14), decide ((⟨0x2B * 2 ^ 21, 0, 0⟩ : Raw).major.toNat = 0x2B),
    decide (decode ⟨0x20004103, 0, 0⟩ = .ok (.add ⟨1, false, false⟩ 1 2 3))] = true := by
  decide +kernel

theorem test_witness_frames : met [
    goes (.add h 1 2 3) base, (the base).inv.isNone, (match exec (.add h 1 2 3) base with | .next _ => true | _ => false),
    registerWord (.add h 1 2 3), drawingWord (.rand h 1 .ui32), goes (.rand h 1 .ui32) base,
    (match exec (.rand h 1 .ui32) base with | .next _ => true | _ => false),
    [Instr.ld h 1 2 .sp .b32 .weak .grp 0, .st h 2 1 .sp .b32 .weak .grp 0, .atom h 1 2 3 .sp .b32 .rlx .grp .add 0, .red h 2 3 .sp .b32 .rlx .grp .add 0].all
      fun i => accessWord i && goes i base && (match exec i base with | .next _ => true | _ => false),
    let s := issued (.ld h 1 2 .sp .b32 .weak .grp 0)
    match (last s).body with
      | .mem a (.at_ loc) => (s.op? (last s).id == some (last s)) && (regOffset loc).isNone &&
          (s.core (s.site (the s)).coreIx).cmps.all (fun c => !c.watches (the s) (((s.group? (the s).grp).map (·.rgi)).getD 0) a.space a.addr.toNat a.size a.kind.writes) &&
          (match exec (.scratchpadLoadComplete (last s).id) s with | .next _ => true | _ => false)
      | _ => false] = true := by
  decide +kernel

/-- Integer operands of a signed word. -/
def ints (x y : Word) : State := with_ [(2, x), (3, y)]
theorem test_witness_OneWordFormsCompute : met [allGo base [.add h 1 2 3, .sub h 1 2 3, .mul h 1 2 3, .and h 1 2 3, .or h 1 2 3, .xor h 1 2 3, .andn h 1 2 3,
    .shl h 1 2 3, .shr h 1 2 3, .sar h 1 2 3, .rot h 1 2 3, .addTyped h 1 2 3 .s32 false, .subTyped h 1 2 3 .s32 false, .mulTyped h 1 2 3 .s32 false]] = true := by
  decide +kernel
theorem test_witness_OneRegisterFormsCompute : met [allGo base [.mov h 1 2, .neg h 1 2, .abs h 1 2, .not h 1 2, .clz h 1 2, .popc h 1 2, .brev h 1 2],
    goes (.clz h 1 2) (with_ [(2, 1)]), (let r : Raw := ⟨0x0B * 2 ^ 21 + 7, 0, 0⟩; r.major == 0x0B && 7 ≤ r.b.toNat)] = true := by
  decide +kernel
theorem test_witness_TypedFormsCompute : met [allGo base [.addTyped h 1 2 3 .ui8 true, .subTyped h 1 2 3 .ui8 true, .mulTyped h 1 2 3 .s16 true,
      .mulhi h 2 4 6 .s64, .minTyped h 1 2 3 .s8, .maxTyped h 1 2 3 .ui16, .negTyped h 1 2 .s32 true, .absTyped h 1 2 .s32 true, .mad h 2 4 6 8 .ui64 true],
    Ty.isInt .s32, let i := Instr.div h 1 2 3 .s32 true; let j := Instr.rem h 1 2 3 .s32
    [ints 0x80000000 0, ints 5 0, ints 0x80000000 0xFFFFFFFF, ints 7 2].all fun s => goes i s && goes j s,
    let f := the (ints 0x80000000 0xFFFFFFFF); f.intOperand me .s32 2 == tyMin .s32 && f.intOperand me .s32 3 == -1,
    let f := the (ints 5 0); f.intOperand me .s32 3 == 0, let f := the (ints 7 2); f.intOperand me .s32 3 == 2] = true := by
  decide +kernel
theorem test_witness_ImmediateFormsCompute : met [allGo base [.addImm h 1 2 5, .subImm h 1 2 5, .mulImm h 1 2 5, .andImm h 1 2 5, .orImm h 1 2 5, .xorImm h 1 2 5,
      .andnImm h 1 2 5, .shlImm h 1 2 32, .shrImm h 1 2 31, .sarImm h 1 2 32, .rotImm h 1 2 33, .minImm h 1 2 5, .minImmU h 1 2 5, .maxImm h 1 2 5, .maxImmU h 1 2 5],
    (let r : Raw := ⟨0x10 * 2 ^ 21 + 15, 0, 0⟩; r.major == 0x10 && 15 ≤ r.b.toNat)] = true := by
  decide +kernel
theorem test_witness_LiteralsAndBitFields : met [allGo base [.movi h 1 0x2000, .moviLit h 1 7, .movhi h 2 7, .bfx h 1 2 3 .s32, .bfi h 2 4 6 8 .ui64],
    (let r : Raw := ⟨0x12 * 2 ^ 21 + 1, 0, 0⟩; r.major == 0x12 && r.imm14 != 0),
    decide (decode ⟨0x13 * 2 ^ 21 + 2 * 2 ^ 14, 9, 0⟩ = .ok (.movhi h 2 9)), (let r : Raw := ⟨0x13 * 2 ^ 21 + 6 * 2 ^ 14, 0, 0⟩; r.major == 0x13 && 7 ≤ r.d.toNat + 1),
    decide (decode (rawOf (encode (.bfx h 1 2 3 .s32))) = .ok (.bfx h 1 2 3 .s32)),
    decide (decode (rawOf (encode (.bfi h 2 4 6 8 .ui64))) = .ok (.bfi h 2 4 6 8 .ui64))] = true := by
  decide +kernel
theorem test_witness_SelectAndCompareCompute : met [allGo base [.sel h 1 2 3 5 .s32, .sel h 2 4 6 0 .f64, .setp h 1 2 3 4 1 .s8 true 6, .setp h 1 2 3 0 1 .s8 false 0],
    (the base).flight.isEmpty, (let r : Raw := ⟨0x0F * 2 ^ 21, 4 * 2 ^ 16, 0⟩; r.major == 0x0F && r.fn == 0 && r.rnd == 0 && r.mods == 0 && r.c.toNat < 96 && !(List.elem r.ty.toNat [0, 1, 2, 3, 8, 9])),
    decide (decode (rawOf (encode (.sel h 1 2 3 5 .s32))) = .ok (.sel h 1 2 3 5 .s32))] = true := by
  decide +kernel
theorem test_witness_PredicateWordsCompute : met [allGo base [.plog h 1 2 3 4 0xE8, .pmovToReg h 1 2, .pmovToPred h 2 1],
    (let r : Raw := ⟨0x1A * 2 ^ 21 + 3 * 2 ^ 7, 0, 0⟩; r.major == 0x1A && r.b == 0 && 3 ≤ r.a.toNat),
    (let r : Raw := ⟨0x1A * 2 ^ 21 + 3 * 2 ^ 14 + 1, 0, 0⟩; r.major == 0x1A && r.b == 1 && 3 ≤ r.d.toNat),
    (let r : Raw := ⟨0x1A * 2 ^ 21 + 2, 0, 0⟩; r.major == 0x1A && 2 ≤ r.b.toNat),
    decide (decode (rawOf (encode (.plog h 1 2 3 4 0xE8))) = .ok (.plog h 1 2 3 4 0xE8))] = true := by
  decide +kernel
theorem test_witness_SpecialRegistersMove : met [allGo base ((List.range 0x1D ++ (List.range 8).map (0x20 + ·)).map fun n => .movs h 2 (BitVec.ofNat 7 n)),
    allGo base ([8, 9, 10, 0x0F, 0x10, 0x11, 0x13, 0x14, 0x15, 0x1A, 0x20, 0x27].map fun n => .movsw h 2 (BitVec.ofNat 7 n)),
    (the base).rep.isNone && !(the base).inH, goes (.movsw h 2 0x14) helper (·.isHelper), (the base).loops.isEmpty] = true := by
  decide +kernel

theorem test_witness_WordsExecuteOrAreDiscarded :
    let on := fib fun f => { f with hdr := some (headerWord 6 0 0 0 3 false), preds := 8 }
    let off := fib fun f => { f with hdr := some (headerWord 6 0 0 0 3 false) }
    let i := Instr.add ⟨0, false, true⟩ 1 2 3
    met [
      decide ((on.fibre? on.cur).isSome), decide (128 + (the on).header.guard ∉ on.pendingSlots me), (the on).guardHolds me,
      (i.sources ++ i.slots).all fun x => !(on.pendingSlots me).contains x, (i.reads.flatMap Run.regs).all fun r => ((the on).handle? r).isNone,
      (the on).flight.isEmpty && (the on).poison.isEmpty && ((the on).target me i).isNone && !i.privileged && (the on).reportable == 0, goes i on,
      decide (128 + (the off).header.guard ∉ off.pendingSlots me), (the off).readPred me (the off).header.guard == (the off).header.pol,
      (match (the (with_ [(2, 0x20000)])).target me (.brx h 2) with | some a => !badHeader a | none => false), goes (.brx h 2) (with_ [(2, 0x20000)]),
      Instr.privileged (.evpop h 4 true) && (the control).privileged, goes (.evpop h 4 true) control] = true := by
  decide +kernel

/-- `base` with a trampoline table of three entries in its page: none, a clause header, no clause header. -/
def tramp : State := (base.modJob (base.jobOf (the base)) fun j => { j with tramp := w64 (placeVa + 0x100), trampN := 3 }).store (placeVa + 0x100)
  (leBytes 8 0 ++ leBytes 8 0x20000 ++ leBytes 8 0x20001)
/-- `base` with a free slot in its group. -/
def slot1 : State := { base with clk := 5, fibres := base.fibres ++ [{ (Fibre.fresh .real (the base).grp 1 128 0 0 0) with run := .ended }] }
theorem test_witness_ControlWordsAct : met [
    goes (.bra h 4) base, goes (.call h 4) base, goes (.brx h 2) (with_ [(2, 0x20000)]), goes (.callx h 2) (with_ [(2, 0x20000)]),
    goes (.ret h) (fib fun f => { f with lr := 0x20000 }),
    [0, 1, 2, 3].all fun n => goes (.jmpt h n) tramp, (tramp.job? (tramp.jobOf (the tramp))).isSome,
    [0, 1, 2].all (fun n => !tramp.walkBlocked (the tramp) .g (placeVa + 0x100 + 8 * n) 8 .read),
    [0, 1, 2].map (fun n => match tramp.findNow (the tramp) .g (placeVa + 0x100 + 8 * n) 8 .read with
      | (.at_ loc, t) => if t.poisonedAt loc 8 then 0 else leNat (t.getBytes loc 8) | _ => 0) == [0, 0x20000, 0x20001],
    !badHeader 0x20000, badHeader 0x20001, goes (.fork h 1 4) helper (·.isHelper), goes (.fork h 1 4) base free_, base.accessesDone me (the base) && slot1.accessesDone me (the slot1) && (slot1.pendingSlots me).isEmpty &&
      (the slot1).handles.isEmpty && (the slot1).poison.isEmpty && (the slot1).regs.length == 128,
    (base.freeSlot (the base).grp).isNone, goes (.fork h 1 4) slot1 free_, (slot1.freeSlot (the slot1).grp).isSome, (slot1.group? (the slot1).grp).isSome] = true := by
  decide +kernel
theorem test_witness_SimpleWordsAct : met [allGo base [.nop h, .padw h, .yield h, .nap h 1, .endFibre h, .trap h 3], goes (.nap h 2) (with_ [(2, 5)]),
    goes (.endFibre h) helper (·.isHelper), (base.barTrap me (the base)).isNone, goes (.trap h 3) tainted fun f => (tainted.barTrap me f).isSome] = true := by
  decide +kernel

/-- `base` with a clause of one word after its own. -/
def looped : State := base.store (placeVa + 28) (wordBytes [headerWord 1 0 0 0 0 false, 0])
/-- The header walk of a LOOP ends at that clause. -/
def walked : Bool := match looped.walkLoop (the looped) ((the looped).pc + 28) 9 (the looped).nextClause with | (.found _ _, _) => true | _ => false
/-- A loop around the fibre's clause. -/
def inLoop : State := fib fun f => { f with loops := [⟨0x10000, 0x10000, 0x20000, 7⟩], lc := 3 }
theorem test_witness_LoopsAndPrefixesBegin : let i := Instr.inv h 5 6 1 .fp32 7 false 0 31
    met [
      decide ((the looped).loops.length < 4), walked, goes (.loopReg h 0 7) looped, goes (.loopImm h 3 7) looped, goes (.ploop h 0 7) looped,
      goes (.lbrk h 1) inLoop, (the inLoop).loops[0]?.isSome, (the inLoop).loops[1]?.isNone, goes (.lbrk h 2) inLoop,
      goes (.rep false 7 true true true false false) base, goes i base,
      [(0x7FC00000, 0), (0, 0x7FC00000), (0x40000000, 0x3F800000), (0x3F800000, 0x40000000)].map (fun (p : Word × Word) =>
        let f := the (fib fun f => { f with ks := [0, 0, p.1, p.2, 0, 0, 0, 0] })
        (invNan .fp32 (f.ks.getD 2 0), invNan .fp32 (f.ks.getD 3 0), decide ((ordKey .fp32 (f.ks.getD 3 0)).toNat < (ordKey .fp32 (f.ks.getD 2 0)).toNat))) ==
        [(true, false, true), (false, true, false), (false, false, true), (false, false, false)],
      [(0x3F800000, 0x40000000), (0x40000000, 0x3F800000)].all fun (p : Word × Word) => goes i (fib fun f => { f with ks := [0, 0, p.1, p.2, 0, 0, 0, 0] })] = true := by
  decide +kernel

/-- The core delivers n noises to the fibre (`Draws`). -/
def draws (n : Nat) (wide : Bool) : Bool := match base.draw (the base) n wide with | .got _ _ => true | _ => false
theorem test_witness_FloatWordsCompute : met [
    [Rnd.rn, .ru, .sr].all fun r => allGo base [.fadd h 1 2 3 r, .fsub h 1 2 3 r, .fmul h 1 2 3 r, .ffma h 1 2 3 4 r, .frcp h 1 2 r, .frsq h 1 2 r, .frnd h 1 2 r,
      .fdiv h 1 2 3 r, .fsqrt h 1 2 r, .dadd h 2 4 6 r, .dmul h 2 4 6 r, .dfma h 2 4 6 8 r, .hadd2 h 1 2 3 .f16 r, .hmul2 h 1 2 3 .bf16 r, .hfma2 h 1 2 3 4 .f16 r],
    allGo base [.fex2 h 1 2, .flg2 h 1 2, .fsin h 1 2, .fcos h 1 2, .ftanh h 1 2], srDraws .rn 1 == 0, srDraws .sr 1 == 1, draws 1 false, srDraws .sr 2 == 2,
    draws 2 false] = true := by
  decide +kernel
theorem test_witness_FloatsCompare : met [allGo base [.fmin h 1 2 3, .fmax h 1 2 3, .fcmp h 1 2 3 4 2 true 6, .dcmp h 1 2 4 0 2 false 0, .fclass h 1 2 .f16],
    (FF.f32.val 0x7FC00000).isNan, (FF.f32.val 0x7F800001).isSnan, !(FF.f32.val 0x3F800000).isNan,
    decide (cmpFin (FF.f32.val 0x3F800000) (FF.f32.val 0x40000000) = .lt), decide (cmpFin (FF.f32.val 0x40000000) (FF.f32.val 0x3F800000) = .gt),
    decide (cmpFin (FF.f32.val 0x80000000) (FF.f32.val 0) = .eq), (FF.f32.val 0x80000000).neg, !(FF.f32.val 0).neg,
    (FF.f32.val (FF.f32.add .rn 0x7F800000 0xFF800000 0).1).isNan] = true := by
  decide +kernel
theorem test_witness_ConversionsCompute : met [allGo base [.cvt h 1 2 .bf16 .ru false .f32, .cvt h 1 2 .f32 .sr false .s32, .qnt h 40 8 72 .rn true .bfp4,
    .qnt h 40 8 72 .sr false .bfp8, .dqnt h 8 40 72 .bfp4, .rand h 1 .f32], draws 1 false, draws 32 false, draws 1 true, srDraws .rn 32 == 0] = true := by
  decide +kernel
theorem test_witness_CrossLaneWordsExchange :
    let l := fun (c : Reg) => [Instr.shfl h 1 2 3 c .lane .s32 0, .vote h 1 2 0 c .count, .spred h 1 2 c .add .s32 .rn false]
    let s := with_ [(4, 0), (5, 3), (6, 1)]
    let quads := [Instr.qswap h 1 2 .s32 0, .qbc h 1 2 .s32 1]
    let ctl := s.modFibre me fun f => { f with kind := .control 0 }
    met [
      allGo s (l 4 ++ l 5 ++ l 6 ++ quads), !(the s).privileged && (the s).fid == 0 && (the s).taint.isEmpty && (the s).run == .ready,
      badMask (s.exchangers (the s) false 3), !badMask (s.exchangers (the s) false 1), (s.exchangers (the s) false 1) == [some (me, the s)],
      (l 6).all (goes · ctl (·.privileged)), quads.all (goes · ctl (·.privileged))] = true := by
  decide +kernel
theorem test_witness_VotesAndQuadsGive : let ms := [Member.mk 0 [5] 0 true, ⟨1, [6], 0, false⟩, ⟨31, [7], 0, true⟩]
    met [ms.all fun m => m.lane < 32, decide (ms.Pairwise fun x y => x.lane ≠ y.lane), (ms.getD 1 default).lane == (ms.getD 0 default).lane ^^^ 1] = true := by
  decide +kernel

/-- A held effect of the tainted fibre finds room. -/
def holds (e : HeldEff) : Bool := (tainted.hold (the tainted) e 0).isSome
/-- An access in its turn meets the hypotheses of AccessesArePerformed. -/
def performs (s : State) : Bool := let o := last s
  match o.body with
  | .mem a (.at_ loc) =>
    let f := (s.fibre? o.fib).getD (Fibre.controlReset 0)
    s.op? o.id == some o && o.done.isNone && (s.fibre? o.fib).isSome && !f.tainted && !f.isPacer && f.held.isEmpty &&
      (s.core (s.site f).coreIx).cmps.all (fun c => !c.watches f (((s.group? f.grp).map (·.rgi)).getD 0) a.space a.addr.toNat a.size a.kind.writes) &&
      a.space != .sys && (regOffset loc).isNone && !s.poisonedAt loc a.size && (loc < 2 ^ 51 || 2 ^ 52 ≤ loc) && s.mayPerform o a (.at_ loc) &&
      !s.undoBlocked o.fib a loc && !s.wsHeld loc o.start && s.bankTurn o a loc && s.laneTurn o a && !(a.space == .sp && a.kind.reads && s.lanesLeft o) &&
      (match s.arriveAt (s.master f) (s.jobOf f) a.kind.acc a.addr.toNat loc with | (.at_ l, _) => l == loc | _ => false) && f.releasing.isEmpty && s.past.all (fun p => !p.meets loc a.size || !s.mayMiss o.fib f a p) && (a.kind != .red || a.ndst == 0)
  | _ => false
/-- An address in the mapped page in w2:w3. -/
def paged : List (Nat × Word) := [(2, 0x10200), (3, 0), (4, 0x10400), (5, 0)]
theorem test_witness_MemoryWordsIssue :
    let mem := [Instr.st h 2 1 .sp .b32 .weak .grp 0, .red h 2 1 .sp .b32 .rlx .grp .add 0, .atom h 1 2 4 .sp .b32 .rlx .grp .cas 0, .st h 2 4 .g .b64 .weak .grp 8]
    let s := issued (.ld h 1 2 .sp .b32 .weak .grp 0)
    let r := fib fun f => { f with replay := [⟨default, .dataError, default⟩] }
    met [
      allGo base (.ld h 1 2 .sp .b32 .weak .grp 0 :: mem), !(the base).isPacer && base.accessRoom me (the base), mem.all (goes · helper (·.isHelper)),
      (goes (.st h 2 1 .g .b32 .weak .grp 0) tainted fun f => !f.isHelper && f.tainted), holds (.mem default),
      allGo base [.fence h 0 0, .fence h 4 1, .efence h], base.accessesDone me (the base) && (the base).replay.isEmpty, goes (.fence h 4 1) tainted (·.tainted),
      (!s.accessesDone me (the s) && goes (.fence h 0 0) s fun f => !f.tainted), goes (.efence h) s,
      (goes (.efence h) r fun f => !f.replay.isEmpty) && r.accessesDone me (the r),
      (goes (.efence h) (fib fun f => { f with held := [⟨0, .mem default, 0, false⟩] }) fun f => f.held.any fun x => x.eff.isAccess),
      let s := issued (.div h 1 2 3 .s32 false)
      (match (last s).body with | .result .. => (s.op? (last s).id).isSome && !(last s).gone | _ => false) &&
        (({ s with ops := s.ops.map fun o => { o with gone := true } } : State).op? (last s).id).any (·.gone)] = true := by
  decide +kernel
theorem test_witness_AccessesArePerformed : met [
    performs (issued (.ld h 1 2 .sp .b32 .weak .grp 0)), performs (issued (.st h 2 1 .sp .b128 .weak .grp 16)),
    performs (issued (.atom h 1 2 3 .sp .b32 .rlx .grp .add 4)), performs (issued (.red h 2 3 .sp .b64 .rlx .grp .umax 8)),
    performs (issued (.ld h 1 2 .g .b64 .weak .grp 0) paged), performs (issued (.st h 2 1 .g .b8 .weak .grp 3) paged)] = true := by
  decide +kernel
theorem test_witness_BarriersAct :
    let s := with_ [(1, 64)]
    let tok := s.modFibre me fun f => { f with token := some (64, 0xFFFFFFFF) }
    let late := fib fun f => { f with run := .waiting .barrier, wait := some (.bar 64 0 (some 0) 0 0) }
    met [
      s.accessesDone me (the s) && (the s).read me 1 == 64,
      match s.find (the s) .sp 64 16 .atomic with
        | (.at_ loc, t) => !t.loggedByOther me loc 16 && (t.barrierAt loc).phase == (the s).waitPhase 64 (t.barrierAt loc).phase &&
          (t.barrierAt loc).phase != (the tok).waitPhase 64 (t.barrierAt loc).phase
        | _ => false,
      allGo s [.barinit h 1 2, .bararr h 1, .barwt h 1 2, .barst h 3 1], goes (.barwt h 1 2) tok,
      (the late).run == .waiting .barrier && !(the late).tainted && late.clk == 0] = true := by
  decide +kernel

/-- `base` with an operand queue 0 of four slots of 20 KiB, some of them taken. -/
def queued (slots : List Slot) (sl : Option Slice := none) : State :=
  base.modGroup (the base).grp fun g => { g with oqs := [(0, ⟨4, 20480, slots⟩)], slice := sl }
def slot (st : SlotState) (gath : Bool := false) : Slot := ⟨0, st, 0, [1, 2, 3, 4], 0, gath, [], false⟩
/-- Registers of a GATH to .sp of 2 rows of 16 bytes, and to the queue of 2 rows. -/
def gathered : List (Nat × Word) := [(1, 0x400), (2, 0x10200), (3, 0), (4, 2), (5, 16)]
theorem test_witness_AsynchronousWordsAct :
    let cp := Instr.cpasync h 10 2 4 6 false .g .g
    let ga := Instr.gath h 10 1 2 4 .g .bfp2 false
    let gq := Instr.gath h 10 0 2 4 .g .bfp4 true
    let s := with_ gathered
    let q := (queued [slot .full]).modFibre me fun f => f.setRegs gathered
    let c := issued cp (paged ++ [(6, 200)])
    let busy := fib fun f => { f with occp := 3 }
    met [
      [cp, ga, gq].all (goes · helper (·.isHelper)), allGo s [cp, ga], (the s).occp != 255 && (the s).ocga != 255, allGo base [ga],
      (q.oq? (the q).grp 0).any (fun o => 2 ≤ o.e && recordBytes Fmt.bfp4.width ≤ o.b && o.slots.length + 2 ≤ o.e), allGo q [gq],
      allGo busy [.waitc h 3 8, .waitc h 2 8, .waitc h 0 7], allGo base [.ftest h 1 10, .fcancel h 1 10],
      goes (.fcancel h 1 10) helper (·.isHelper), ((the base).handle? 10).isNone,
      allGo c [.fcancel h 1 10, .ftest h 1 10], ((the c).handle? 10).any fun id => (c.op? id).any (·.cancellable),
      (let d : State := { c with ops := c.ops.map fun o => { o with done := some .ok } }; ((the d).handle? 10).any (fun id => (d.op? id).any (!·.cancellable)) && allGo d [.fcancel h 1 10])] = true := by
  decide +kernel

/-- The Pacer context of a group with queue 0. -/
def pacer (slots : List Slot) (rs : List (Nat × Word) := []) : State :=
  (queued slots (some ⟨.running, me, 0⟩)).modFibre me fun f => ({ f with kind := .pacer }).setRegs rs
/-- A copy whose next piece is read and written. -/
def pieceGoes (s : State) (last_ : Bool) : Bool := let o := last s
  let f := (s.fibre? o.fib).getD (Fibre.controlReset 0)
  match o.body with
  | .copy c =>
    let n := pieceLen c.dst.addr.toNat c.pos c.len
    s.op? o.id == some o && o.done.isNone && s.olderDone o && !s.copyBlocked o f c && c.fail.isNone && c.pos < c.len &&
      (decide (c.len ≤ c.pos + n) == last_) && match s.atHand o.id f c.src.space (c.src.addr.toNat + c.pos) n none with
        | (true, s1) =>
          (match s1.copyBytes o.id o.seq f c n with
           | (.ok bs, t) =>
             (match t.atHand o.id f c.dst.space (c.dst.addr.toNat + c.pos) n (some bs) with
              | (true, t1) => (match t1.engineWrite o.fib f (some o) c.dst.space c.tainted (c.dst.addr.toNat + c.pos) bs with | (none, _) => true | _ => false)
              | _ => false)
           | _ => false)
        | _ => false
  | _ => false
theorem test_witness_PiecesAndRowsLand :
    let cp := fun (n : Word) => issued (.cpasync h 10 2 4 6 false .g .g) [(2, 0x10200), (4, 0x14000), (6, n)]
    let g := issued (.gath h 10 1 2 4 .g .bfp2 false) gathered
    let m := after_ (.afeed h 0 2 6 2 .mem) (pacer [] [(2, 0x10200), (3, 0), (6, 16)])
    met [
      pieceGoes (cp 300) false, pieceGoes (cp 4) true,
      match (last g).body with
        | .gath x => g.op? (last g).id == some (last g) && (last g).done.isNone && g.olderDone (last g) && x.left.contains 1 && !x.toq && !g.walkBlocked (the g) .g (x.table.toNat + 8) 8 .read &&
          !g.pieceBlocked me (the g) .sp (x.dst + x.rowLen) x.rowLen && !(the g).isPacer && !g.wsBlocked (the g) x.space (g.rowSource (the g) x 1) x.rowLen (last g).start
        | _ => false,
      match (last m).body with
        | .feed gr _ _ p len none => m.op? (last m).id == some (last m) && (((m.group? gr).bind (·.slice)).map (·.state) == some .running) &&
          (m.group? gr).map (·.out) == some false && !m.wsBlocked (the m) p.space p.addr.toNat len (last m).start && !m.pacerMiss (the m) p.space p.addr.toNat len &&
          (match m.readBlank (some (last m).id) (the m) 0 p.space p.addr.toNat len with | (.ok (_, []), _) => p.space != .g || pkgOf p.addr.toNat == Config.pkgNumber | _ => false)
        | _ => false] = true := by
  decide +kernel

/-- A descriptor of an access slice in the mapped page: its entry, and queue 0 of two slots of 256 bytes. -/
def sliced : State := (with_ paged).store 0x10200 (leBytes 8 0x20000 ++ leBytes 4 0x80010001 ++ List.replicate 28 0)
theorem test_witness_AccessSlicesAct :
    let pop := Instr.oqpop h 10 0 0
    let state := fun (st : SliceState) => queued [] (some ⟨st, me, 0⟩)
    let p := pacer []
    met [
      goes pop helper (·.isHelper), goes (.oqrel h 0) helper (·.isHelper), goes pop (queued [slot .full]) free_, (the base).dropped == false,
      decide (firstIdx (fun e : Slot => e.state == .full && !e.kept) [slot .full] 0 = some (0, slot .full)) && (slot .full).bad.isEmpty, goes pop (queued []) free_,
      [SliceState.ended, .cancelled, .faulted, .running].all fun st => goes pop (state st) free_,
      goes (.oqrel h 0) (queued [slot .popped]) free_,
      goes (.aslice h 10 2 true) sliced free_, sliced.accessesDone me (the sliced), pkgOf 0x10200 == Config.pkgNumber,
      !sliced.walkBlocked (the sliced) .g 0x10200 40 .read && (sliced.pendingSlots me).isEmpty && (the sliced).handles.isEmpty && (the sliced).poison.isEmpty,
      match sliced.engineRead none (the sliced) .g 0x10200 40 with
        | (.ok d, t) => let v := t.dropCarried (wordKey me)
          let l := (v.launchOp me (the sliced) .none (some 10) (.slice (the sliced).grp) (v.ordAt (the sliced) (the sliced).rp)).2.2
          (l.group? (the sliced).grp).any fun g => !g.sliceStands && (match sliceQueues d with
            | some qs => decide (l.queueTaken (l.site (the sliced)).coreIx + queueBytes qs ≤ 229376 + queueBytes g.oqs) | none => false)
        | _ => false,
      ((sliced.group? (the sliced).grp).bind (·.slice)).isNone, goes (.astop h) base free_, (goes (.astop h) p fun f => f.isPacer), p.ops.all (fun o => !o.fills me),
      goes (.astop h) (state .running) fun f => free_ f && !f.isPacer,
      (p.oq? (the p).grp 0).isSome, [Instr.afeed h 0 2 0 0 .reg, .afeed h 0 2 0 0xF8 .reg].all (goes · p),
      [16, 20484, 0].all (fun n => goes (.afeed h 0 2 6 2 .mem) (pacer [] [(2, 0x10200), (6, n)])), goes (.afeed h 0 2 6 2 .mem) (pacer [] [(2, 0x10202), (6, 4)]),
      goes (.afeed h 0 2 0 0x12 .b) (pacer [] [(2, 0x10200)]), recordBytes (convertedWidth (feedFmt 0x12) false) ≤ 20480,
      [0, 3, 4].all fun n => goes (.pwait h 0 n) p && goes (.pwait h 0 n) (pacer [slot .full, slot .full])] = true := by
  decide +kernel

/-- `base` with convergence register 2 as given, and its core's queue of MMAs. -/
def conv (c : Conv) : State := base.modGroup (the base).grp fun g => { g with convs := g.convs.set 2 c }
def mma : Instr := .mma h 0 16 0 2 false false false false true false .bfp8 0 false 0 32
theorem test_witness_MatrixWordsAct :
    let one := conv ⟨1, [], 0⟩
    let core := (base.site (the base)).coreIx
    let ready := fun (slots : List Slot) => (queued slots).modCore core fun c => { c with mmaq := [{ (default : MmaJob) with grp := (the base).grp, fmt := .bfp8 }] }
    met [
      goes (.cvdecl h 2 3) base free_, (base.group? (the base).grp).isSome, goes mma base free_, goes mma one free_, goes mma (conv ⟨2, [], 0⟩) free_,
      goes mma (conv ⟨2, [(0, 9)], 4⟩) (fun f => free_ f && f.pc != 4), (the one).ocmx != 255 && (one.core core).mmaq.length < 4,
      ((ready []).core core).running.isNone && !((ready []).core core).dead && !(ready []).accOlder core 0 0,
      (match (ready []).operandB { (default : MmaJob) with grp := (the base).grp, fmt := .bfp8 } with | .wait => true | _ => false),
      (match (ready [slot .full]).operandB { (default : MmaJob) with grp := (the base).grp, fmt := .bfp8 } with | .got .. => true | _ => false),
      ((base.modCore core fun c => { c with running := some (default, .ok) }).core core).running.isSome] = true := by
  decide +kernel
theorem test_witness_AccumulatorWordsAct :
    let l := [Instr.accz h 1, .accld h 1 2 .sp, .accst h 1 2 4 .rn .sp false .bfp8, .accst h 1 2 0 .rn .sp false .f32, .accrd h 1 0 2]
    let turns := fun (s : State) => let o := last s
      match o.body with
      | .acc w => s.olderDone o && let tile := match w with | .zero t => t | .read t _ _ _ => t | .move a => a.tile
        let core := (s.site (the s)).coreIx
        s.op? o.id == some o && o.done.isNone && !o.gone && (s.group? o.grp).isSome && !(s.core core).dead && !s.accOlder core tile o.id &&
          (s.core core).mmaq.isEmpty && (s.core core).running.isNone && s.tileLost core tile == [] &&
            (match w with | .move a => !s.moveBlocked o (the s) a | _ => true)
      | _ => false
    met [allGo base l, (the base).ocmx != 255 && base.accessRoom me (the base), l.all fun i => turns (issued i),
      let s := issued (.accld h 1 2 .sp) [(2, 8)]
      turns s && match (last s).body with | .acc (.move a) => (s.moveTile (last s) (the s) core0 a).1.isSome | _ => false] = true := by
  decide +kernel

/-- A queue of the job at home in cluster 0 of this package, with the entries and the waiting fibres given. -/
def q5 (ring : List QEntry := []) (waiters : List Nat := []) : Queue :=
  { (default : Queue) with job := base.jobOf (the base), num := 5, depth := 8, home := (Config.pkgNumber, 0, 0), en := true, ring := ring, waiters := waiters }
def entry : QEntry := ⟨[1, 2, 3, 4, 5, 6, 0, 0], none, [], 0, 0, false, none, [], []⟩
def withQ (q : Queue) : State := { base with queues := [q] }
/-- A message of base's fibre. -/
def sent (s : State) (b : MsgBody) : State := { s with msgs := [{ (default : Msg) with id := 7, job := base.jobOf (the base), fib := me, body := b }] }
theorem test_witness_QueuesAct :
    let job := base.jobOf (the base)
    let push := Instr.qpush h 5 2 0 0 false 1
    let s := withQ (q5 [entry])
    let p := (withQ (q5 [entry] [me])).modFibre me fun f => { f with run := .waiting .queue, wait := some (.qpop 5 2 10) }
    let m := sent (withQ (q5)) (.push 5 entry 0)
    met [
      goes push { helper with queues := [q5 [entry]] } (·.isHelper), ({ helper with queues := [q5 [entry]] } : State).configured job 5,
      goes push base free_ && !base.configured job 5, goes push s fun f => !f.isHelper && f.taint.isEmpty,
      (s.queue? job 5).any (fun q => q.en && q.hasRoom 0 && q.home.1 == Config.pkgNumber),
      [base, s].all fun s => [Instr.qpop h 10 5 1, .qcnt h 10 5].all fun i => goes i s fun f => !f.isHelper, s.configured job 5,
      goes (.qpeek h 10 5 3 1) s fun f => !f.isHelper,
      (match ((withQ (q5)).modQueue job 5 fun q => q.register (the s).grp).popLook me (the s) job 5 with | (.empty, _) => true | _ => false),
      (match (s.modQueue job 5 fun q => q.register (the s).grp).popLook me (the s) job 5 with | (.ready _ _ [], _) => true | _ => false),
      (m.msg? 7).isSome && (m.queue? job 5).any (fun q => q.homeDie == 0), (p.queue? (p.jobOf (the p)) 5).any (fun q => p.firstWaiter q == some me),
      (match p.popLook me (the p) job 5 with | (.ready _ _ [], _) => true | _ => false), (firstEntry [entry] 0).isSome] = true := by
  decide +kernel
theorem test_witness_CountersAndEventsAct :
    let job := base.jobOf (the base)
    let ranged := (withQ (q5)).modJob job fun j => { j with ctrHi := 100 }
    let arm := fun (id n : Word) (q : Nat) => sent ranged (.dcarm id n [] q)
    let dec := fun (id : Word) (c : Nat) => (sent ranged (.dcdec id)).modCluster 0 fun x => { x with counters := [(7, ⟨c, [], 5, job, []⟩)] }
    let busy := issued (.ld h 1 2 .sp .b32 .weak .grp 0)
    let produced := base.modJob job fun j => { j with producer := job }
    let full := base.modCluster 0 fun c => { c with events := List.replicate 512 0 }
    met [
      allGo base [.dcarm h 10 11 16 5, .dcdec h 10, .trig h, .dwait h 10, .beat h, .evpost h 10], goes (.beat h) helper (·.isHelper),
      base.accessesDone me (the base) && !busy.accessesDone me (the busy) && goes (.trig h) busy (fun f => free_ f && !f.trigd && f.held.isEmpty),
      goes (.trig h) (fib fun f => { f with trigd := true }) (·.trigd), base.producerDone 0 == some 0,
      (produced.producerDone job).isNone && goes (.dwait h 10) produced, base.eventRoom 0, !full.eventRoom 0, goes (.evpost h 10) full fun f => free_ f && !f.isControl,
      let c := full.modFibre me fun f => { f with kind := .control 0 }
      goes (.evpop h 4 false) c && (c.cluster 0).events.length == 512, goes (.evpop h 4 true) control && goes (.evpop h 4 false) control && (control.cluster 0).events.isEmpty,
      [arm (2 ^ 17) 1 5, arm 101 1 5, arm 7 65536 5, arm 7 1 6, arm 7 0 5, arm 100 1 5].all fun s => (s.msg? 7).isSome && (the s).releasing.isEmpty && (s.job? job).any fun j => j.ctrHi == 100,
      !ranged.configured job 6 && ranged.configured job 5 && (look 7 (ranged.cluster 0).counters).isNone,
      [dec (2 ^ 17) 1, dec 7 1, dec 7 2].all fun s => (s.msg? 7).isSome && s.drained (some (me, 0)), (look 7 ((dec 7 2).cluster 0).counters).map (·.count) == some 2] = true := by
  decide +kernel
theorem test_witness_QueueAndJobEventsAct :
    let job := base.jobOf (the base)
    let s := withQ { (q5) with credits := [(2, 64)] }
    let stuck := ((withQ { (q5) with consumers := [(the base).grp] }).modFibre me fun f => { f with run := .ended }).modJob job fun j => { j with groups := 1 }
    let idle := base.modGroup (the base).grp fun g => { g with exited := true }
    let again := idle.modJob job fun j => { j with lastRound := some (idle.jobCounts job) }
    let live := fun (s : State) => (s.job? job).any fun j => j.status.isNone && j.ending.isNone && (s.cluster 0).evWait.isEmpty && j.peers.isEmpty
    met [
      ((withQ (q5)).queue? job 5).any (fun q => q.en && q.home.1 == Config.pkgNumber && q.homeDie != 1 && q.free == 8 && (look 1 q.credits).isNone),
      (s.queue? job 5).any (fun q => (look 2 q.credits).getD 0 == 64),
      (stuck.queue? job 5).any (fun q => !q.consumers.isEmpty && q.consumers.all fun g => (stuck.members g).all fun m => m.2.isHelper || m.2.run == .ended) &&
        stuck.allPlaced job && live stuck,
      live base && !base.jobIdle job, live idle && idle.jobIdle job && balanced (idle.jobCounts job) && (idle.job? job).any fun j => j.lastRound.isNone,
      live again && again.jobIdle job && (again.job? job).any fun j => j.lastRound == some (again.jobCounts job),
      [0, 2 ^ 20].all fun t => (base.job? job).any fun j => !j.persistent && ({ j with watchdog := 1 } : Job).period != 0 &&
        (decide (max j.lastIssue j.launchClk + ({ j with watchdog := 1 } : Job).period ≤ t) == (t == 2 ^ 20))] = true := by
  decide +kernel

/-- An open slot 1 of die 0, changed by u, and its AID. -/
def aid : BitVec 32 := mkAid 0 1 1
def slotted (u : AidSlot → AidSlot) : State := base.modDie 0 fun d => { d with slots := [(1, u { (default : AidSlot) with
  state := .open, gen := 1, job := base.jobOf (the base), fib := me, value := 10, recv := [(Config.pkgNumber, 0)] })] }
theorem test_witness_AssumptionWordsAct :
    let imm := Instr.guess h 5 0 10 0 .s32 6 true false true true
    let four := fib fun f => { f with taint := [(1, 0), (2, 0), (3, 0), (4, 0)] }
    let a := (slotted id).modFibre me fun f => f.setReg 2 aid
    met [
      allGo base [imm, .guess h 4 0 6 0 .s64 0 false false false true], goes imm helper (·.isHelper), (the base).restarts.isEmpty && (the base).taint.isEmpty,
      (base.die 0).freeSlot.isSome, !(base.ensureCkpt (the base) (the base).rp).ckptStalls, goes imm four fun f => !f.isHelper && 4 ≤ f.taint.length,
      aidPkg aid == Config.pkgNumber, allGo a [.affirm h 9 2 true, .deny h 9 2 4 .s32 true, .tagq h 1 2 0 .state, .tagq h 1 0 3 .aid, .tagq h 1 2 0 .wait],
      a.aidState ((the a).read me 2) == 1, allGo base [.tagq h 1 2 0 .wait], base.aidState ((the base).read me 2) != 1] = true := by
  decide +kernel
theorem test_witness_AssumptionsResolve :
    let m := fun (s : State) => sent s (.resolve aid (.deny 11) (some 3))
    let watched := slotted fun x => { x with watch := some .ok, auto := true, seen := some (some 10) }
    let ck := fib fun f => { f with wait := some .ckpt, run := .waiting .tag }
    met [
      ((m base).msg? 7).isSome && ((m base).slotOf aid).isNone,
      [slotted fun x => { x with job := 99 }, slotted fun x => { x with auto := true }, slotted fun x => { x with state := .affirmed },
        slotted fun x => { x with state := .denied }, slotted id].map (fun s => ((m s).slotOf aid).map fun x => (x.job == base.jobOf (the base), x.auto, x.state)) ==
        [some (false, false, .open), some (true, true, .open), some (true, false, .affirmed), some (true, false, .denied), some (true, false, .open)],
      (look 1 (watched.die 0).slots).any fun x => x.watch == some .ok && x.state == .open && x.auto && x.seen == some (some x.value) && (watched.fibre? x.fib).isSome,
      ((slotted fun x => { x with state := .affirmed }).slotOf aid).any fun x => x.recv.contains (Config.pkgNumber, 0) && x.acked.isEmpty, !base.tagsOut (some 0) aid,
      ((slotted fun x => { x with state := .denied }).applyDeny (some 0) aid).2,
      ((slotted fun x => { x with state := .affirmed, acked := x.recv }).slotOf aid).any fun x => x.recv.all x.acked.contains, aidDie aid == 0,
      (the ck).wait == some .ckpt] = true := by
  decide +kernel
theorem test_witness_RollbacksRestore :
    let f := fib fun f => f.setRegs [(1, 5), (2, 6)]
    let g := { the f with handles := [(2, 9), (3, 11)] }
    let c := { base.checkpointAt g g.rp with num := 10 }
    met [1 < g.regs.length, c.regs.length == g.regs.length, (g.restore c).handles.all (·.1 == 2)] = true := by
  decide +kernel

/-- Registers of a fabric word: global pointers of this package in w2 and w10, scratchpad offset in w4, 64 bytes. -/
def fab : List (Nat × Word) := [(10, 0x10200), (11, 0), (4, 0x400), (5, 0), (20, 64), (21, 0), (22, 0x10300), (23, 0), (24, 1), (25, 0)]
/-- The same with a name-table entry that gives every tensor of the job to die 0 of this package (R328). -/
def named_ : State := (with_ fab).modPkg fun p => { p with names := [(0, BitVec.ofNat 128 (1 + (2 ^ 24 - 1) * 2 ^ 48 + base.jobOf (the base) * 2 ^ 96))] }
theorem test_witness_FabricWordsLaunch :
    let s := with_ fab
    met [
      allGo s [.puts h 40 10 4 20 0 false true true .sp, .puts h 40 10 4 20 41 true false false .sp, .get h 40 4 10 20 false .sp, .get h 40 4 10 20 true .sp,
        .radd h 40 10 4 20 .s32 0 false .sp, .radd h 40 10 4 20 .f64 41 true .sp, .announce h 40 4 10 20 .sp, .sigwt h 30 10 24 20 3 .ge],
      goes (.want h 40 4 10 20 .sp 15) named_ free_, !named_.unrouted (named_.jobOf (the named_)) 0x10200,
      (the s).ocfx != 255, s.accessesDone me (the s)] = true := by
  decide +kernel

/-- An operation stands at its start, its fibre untainted and everything before it done. -/
def starts (s : State) : Bool := let o := last s
  s.op? o.id == some o && (s.fibre? o.fib).any (fun f => !f.holdsOp o.id && (match o.body with | .fab x .. => s.flowReady o f x | _ => false)) &&
    s.olderDone o && o.done.isNone
/-- A packet for a package. -/
def packet (dst hops seq : Nat) : Packet := { (default : Packet) with src := 3, dst := dst, hops := hops, seq := seq, body := .load 0 0 4 }
def retx7 : Retx := { (default : Retx) with id := 7, pkt := packet 5 8 0, clk := 0 }
/-- `base` with fabric port 2 up and on the route to package 5, and a packet that waits for its acknowledgement. -/
def linked : State := base.modPkg fun p => { p with fpstat := p.fpstat.set 2 0x80000000, routes := [(5, 0x80000002)], retx := [retx7] }
theorem test_witness_FabricEventsAct :
    let g := after_ (.get h 40 4 10 20 false .g) ((with_ fab).modFibre me fun f => f.setRegs [(4, 0x10800)])
    let p := after_ (.puts h 40 10 4 20 41 true false false .sp) (with_ fab)
    let w := after_ (.want h 40 4 10 20 .sp 0) named_
    let sw := fun (dl : Option Nat) (x : DWord) => fib fun f => { f with run := .waiting .sigwt, wait := some (.sigwt 0x10800 .ge x 30 3 dl) }
    met [
      starts g && match (last g).body with
        | .fab (.get dst from_ _ _) 0 [] none .ok => dst.space != .sys && pkgOf from_.toNat == Config.pkgNumber
        | _ => false,
      starts p && match (last p).body with
        | .fab (.puts dst from_ len _ (some _)) 0 [] none .ok => pkgOf dst.toNat == Config.pkgNumber && !p.pieceBlocked me (the p) from_.space from_.addr.toNat len &&
          (match p.engineRead (some (last p).id) (the p) from_.space from_.addr.toNat len with | (.ok _, _) => true | _ => false)
        | _ => false,
      (w.crumbsAt 3).isEmpty && (last w).done.isNone && w.op? (last w).id == some (last w) && (match (last w).body with | .fab (.want ..) 0 _ none .ok => true | _ => false),
      [sw none 0, sw none 1, sw (some 0) 1].all fun s => (the s).run == .waiting .sigwt && (s.signalOp me).isNone && !s.walkBlocked (the s) .g 0x10800 8 .read &&
        (match s.readSignal (the s) 0x10800 with | (.value v, _) => v == 0 | _ => false),
      (linked.pkg.retx.find? fun r => r.id == 7) == some retx7, (linked.answered retx7 ⟨7, .ok, none, []⟩).isSome, linked.pkg.portUp 2,
      [149999, 150000].map (fun t => decide (retx7.clk + 150000 ≤ t)) == [false, true],
      linked.pkg.retx.all (fun r => r.port != some 2) && 2 < linked.pkg.fpstat.length,
      [5, 6].map (fun d => match linked.pkg.egress d 0 0 0 with | .ok p => p | _ => 99) == [2, 99],
      (packet 5 2 0).dst != Config.pkgNumber, (packet 0 8 0).dst == Config.pkgNumber && linked.expected (packet 0 8 0) == 0,
      linked.expected (packet 0 8 1) < (packet 0 8 1).seq && linked.pkg.early.isEmpty] = true := by
  decide +kernel

/-- A walk of two tiles to two destinations, its storer bit given. -/
def walk_ (storer : Bool) (done : List (Nat × Nat)) : TWalk :=
  { (default : TWalk) with id := 9, job := base.jobOf (the base), port := 3, tag := 1, nt := 2, k := 2, rowb := 4, rows := 1, storer := storer, done := done,
                           dests := [(0, 0, 0), (0x100, 0x200, 0)], grps := [some (the base).grp, some (the base).grp] }
def walking (w : TWalk) : State := (with_ [(2, 0x1043), (6, 0x43)]).modPkg fun p => { p with walks := [w] }
/-- A collective program of one step in w2:w3's page. -/
def collDesc : List Byte := leBytes 8 0x10800 ++ leBytes 8 0x10C00 ++ leBytes 4 64 ++ [1, 0, 6, 0] ++ leBytes 2 1 ++ leBytes 6 0 ++ leBytes 16 0
theorem test_witness_WalksAct :
    let c := (with_ paged).store 0x10200 collDesc
    let open_ := walking (walk_ false [])
    let p := issued (.nop h)
    let w := after_ (.permit h 3 2 4) open_
    met [
      goes (.twalk h 10 2 1 3) (with_ paged) free_ && (with_ paged).accessesDone me (the (with_ paged)) && (the p).ocfx != 255 && p.pkg.walks.isEmpty,
      (let s := with_ paged
       let e := s.agent 0 (s.jobOf (the s)) 0x4304
       [0x10200, 0x10204].map (fun a => s.fabOk (the s) (.twalk a 3 1)) == [true, false] && (s.walkOfKey (s.jobOf (the s)) 3 1).isNone &&
         !s.walkBlocked e .g 0x10200 160 .read && (match s.engineRead none e .g 0x10200 160 with | (.ok _, _) => true | _ => false)),
      goes (.cseq h 10 2 6) c free_ && c.accessesDone me (the c) && c.pkg.progs.isEmpty && c.fabOk (the c) (.cseq 0x10200 0) && (c.progOf (c.jobOf (the c)) 0).isNone,
      pkgOf 0x10200 == Config.pkgNumber, (match c.readProg me (c.agent 0 (c.jobOf (the c)) 0x4300) 0x10200 with | (some (.ok bs), t) => t.chunkRoom bs | _ => false),
      goes (.permit h 3 2 4) base free_ && (base.walkOfKey (base.jobOf (the base)) 0 0).isNone, goes (.permit h 3 2 4) open_ free_,
      (open_.walkOfKey (open_.jobOf (the open_)) 3 1) == some (walk_ false []), decide (bitsOf 0x1043 14 12 < 2),
      (w.op? (last w).id == some (last w)) && (match (last w).body with | .permit 9 1 0 3 => true | _ => false) && w.olderDone (last w) && !(last w).gone &&
        (w.walk? 9).any fun x => !x.permits.contains (1, 0),
      [walk_ true [], walk_ false []].all fun x => !x.openDests.isEmpty, (let o := last w
       let e := { walk_ false [(0, 2), (1, 2)] with op := o.id }
       let s := w.modPkg fun p => { p with walks := [e] }
       e.openDests.isEmpty && e.acks.isEmpty && s.walk? 9 == some e && (s.op? o.id).isSome),
      (walking { walk_ false [] with permits := [(0, 0)] }).nextDest { walk_ false [] with permits := [(0, 0)] } == some 0] = true := by
  decide +kernel

/-- `base` with a running program of 64 INT32 elements in two chunks at this step. -/
def prog (op p c s a : Nat) (u : Prog → Prog := id) : Prog := u { (default : Prog) with
  id := 4, job := base.jobOf (the base), tag := 6, ord := 1, die := 0, src := 0x10800, dst := 0x10C00, e := 65, ty := 1, chk := 6, live := true,
  steps := [BitVec.ofNat 128 (op + p * 2 ^ 16 + c * 2 ^ 32 + s * 2 ^ 48 + a * 2 ^ 64)] }
def running (p : Prog) : State := base.modPkg fun x => { x with progs := [p] }
/-- The access table of fabric port 2, open to every master. -/
def port2 : Nat × List (Nat × BitVec 128) := (42, [(0, 0x000000000FFFFFFFFF0000FFFF000087#128)])
def full : CollMsg := { (default : CollMsg) with job := base.jobOf (the base), tag := 6, peer := 3, slot := 2, ty := 1, values := [5], ord := 1 }
theorem test_witness_CollectivesRun :
    let at_ := fun (p : Prog) => let s := running p; s.prog? 4 == some p && p.sent.isNone
    let load := prog 1 0 1 0 0
    let radd := prog 3 0 1 0 0x10A00 fun p => { p with acc := [(1, [7])] }
    let write := prog 6 0 1 0 0 fun p => { p with acc := [(1, [7])] }
    let recv := fun op => prog op 0 1 2 0 fun p => { p with slots := [(2, full)], acc := [(1, [7])] }
    let wait := fun c => prog 8 0 c 0 0x10A00
    let granted := prog 0 0 0 0 0 fun p => { p with granted := [2] }
    met [
      at_ (prog 0 0 0 0 0) && (prog 0 0 0 0 0).step.op == 0,
      at_ load && load.step.op == 1 && (match (running load).readElems load.op (load.agent (running load)) 4 0x10900 1 with | (.ok _, _) => true | _ => false) &&
        load.src.toNat + load.first 1 * 4 == 0x10900 && load.count 1 == 1,
      (let p := prog 2 Config.pkgNumber 1 2 0; at_ p && p.step.op == 2 && p.step.p == Config.pkgNumber && p.slots.isEmpty && p.granted.isEmpty),
      at_ radd && radd.step.op == 3 && pkgOf radd.step.a == Config.pkgNumber &&
        ((running radd).raddElems (radd.agent (running radd)) .s32 radd.step.a ((radd.accOf 1).map (·.toNat))).1 == .ok,
      [4, 5].all fun op => at_ (recv op) && (recv op).step.op == op && look (recv op).step.s (recv op).slots == some full && full.values.length == (recv op).count 1,
      at_ write && write.step.op == 6 && (match (running write).engineWrite (running write).fibres.length (write.agent (running write)) none .g false
        0x10D00 ((write.accOf 1).flatMap write.outBytes) with | (none, _) => true | _ => false),
      (let p := prog 7 0 0 0 0x10A00; at_ p && (match (running p).signalHere (p.agent (running p)) none p.step.a true 1 with | (none, _) => true | _ => false)),
      [0, 1].all fun c => at_ (wait c) && (wait c).step.c == c && (match (running (wait c)).engineRead (some (wait c).op) ((wait c).agent (running (wait c))) .g 0x10A00 8 with
        | (.ok bs, _) => leNat bs == 0 | _ => false),
      (running granted).progOf full.job full.tag == some granted && granted.granted.contains full.slot && full.slot < 16 && (look full.slot granted.slots).isNone, full.peer != Config.pkgNumber && base.pkg.credits.isEmpty,
      full.ord == granted.ord, (base.progOf full.job full.tag).isNone && ({ full with ord := 0 } : CollMsg).ord ≤ base.runsOf full.job full.tag,
      full.ty == (recv 4).ty,
      let s := (running (prog 0 0 0 0 0)).modPkg fun p => { p with fpstat := p.fpstat.set 2 0x80000000, routes := [(5, 0x80000002)], access := port2 :: p.access }
      match s.send ⟨0, 0, 0⟩ full.job 0x4300 5 0 0 .write (.credit ⟨full.job, 6, Config.pkgNumber, 2, 0, [], 0, .ok⟩) none with | (.ok _, _) => true | _ => false] = true := by
  decide +kernel

/-- `base` with a user handler at 0x20000, or at no clause header. -/
def handled (u : DWord) : State := base.modGroup (the base).grp fun g => { g with uhandler := u }
/-- A plain fibre, as the trap statements take it. -/
def plain (f : Fibre) : Bool := f.kind == .real && f.taint.isEmpty && f.inv.isNone && f.service.isEmpty
theorem test_witness_UserTrapsAreTaken : met [
    [0x20000, 0, 0x20001, 2 ^ 57].all fun u => plain (the (handled u)) && !(the (handled u)).inH &&
      ((handled u).group? (the base).grp).any (fun g => g.uhandler == u)] = true := by
  decide +kernel
/-- A full handler queue on the core of `base`. -/
def trapped (n : Nat) : State := base.modCore core0 fun c => { c with trapq := List.replicate n ⟨[0, 0, 0, 0, 0, 0, 0, 0], none, 0⟩ }
theorem test_witness_SystemTrapsAreTaken : met [
    [63, 64].all fun n => plain (the (trapped n)) && ((trapped n).group? (the base).grp).isSome && ((trapped n).core core0).trapq.length == n && ((trapped n).core core0).trapWait.isEmpty,
    (the helper).kind == .helper, (the (pacer [])).kind == .pacer, (the tainted).kind == .real && !(the tainted).taint.isEmpty,
    let s := fib fun f => { f with kind := .handler 0 0 }; (the s).kind == .handler 0 0 && (the s).taint.isEmpty] = true := by
  decide +kernel
/-- A handler fibre on the core of `base`'s group, and a stopped fibre of the group with %fid 1. -/
def watch : State := let s := fib fun f => { f with kind := .handler core0 0 }
  { s with fibres := s.fibres ++ [{ (Fibre.fresh .real (the base).grp 1 128 0 0 0) with run := .stopped, holds := [.hstop] }] }
theorem test_witness_TrapWordsReturn :
    let inH := fun (r : TrapReturn) => fib fun f => { f with inH := true, ret := some r }
    let s := inH ⟨⟨0x10000, 0⟩, false, false, false, none⟩
    let k := inH ⟨⟨0x10000, 0⟩, false, false, false, some (headerWord 6 0 0 0 0 false)⟩
    let serves := fun (r : TrapRec) => watch.modFibre me fun f => { f with serving := some r }
    let held := (serves ⟨List.replicate 8 0, some (me + 1), 0⟩).modFibre (me + 1) fun f => { f with holds := [.trap], hdr := some (headerWord 6 0 0 0 0 false) }
    met [
      goes (.sysc h 5) base plain && (base.core core0).trapq.length < 64, goes (.rft h 0 false .ret) base fun f => f.serving.isNone && !f.inH,
      [Instr.rft h 0 false .ret, .rft h 0 true .ret, .rft h 0 false .endFibre, .rft h 0 false .faultJob].all fun i => goes i s fun f => f.serving.isNone && f.inH &&
        f.ret.isSome && f.replay.isEmpty && !f.tainted,
      goes (.rft h 2 false .addr) (s.modFibre me fun f => f.setRegs [(2, 0x20000)]) fun f => f.inH,
      goes (.rft h 0 false .skip) k fun f => f.inH && f.ret.any fun r => !atHeader r.rp r.hdr,
      [Instr.rft h 0 false .ret, .rft h 0 false .addr, .rft h 0 false .skip, .rft h 0 false .endFibre, .rft h 0 false .faultJob].all fun i =>
        goes i held fun f => f.serving.any fun r => r.fib.isSome && (held.trapped r).any fun p => p.1 == me + 1 && p.2.replay.isEmpty && !atHeader p.2.rp p.2.hdr,
      goes (.rft h 0 false .ret) (serves ⟨List.replicate 8 0, some (me + 1), 0⟩) fun f => f.serving.any fun r => r.fib.isSome && ((serves r).trapped r).isNone] = true := by
  decide +kernel

/-- The same with a target and an item for the access window. -/
def sel (t : Word) (item : Word) : State := watch.modFibre me fun f => f.setRegs [(4, t), (5, item)]
theorem test_witness_HandlerWordsAct :
    let idle := (watch.modCore core0 fun c => { c with trapq := [⟨List.replicate 8 0, none, 0⟩], chentry := 0x20000 }).modFibre me fun f => { f with serving := none }
    let target := fun (s : State) => s.windowTarget (the s) ((the s).read me 4)
    let rep := fib fun f => { f with run := .waiting .replay, wait := some (.replay ⟨0, 0⟩) }
    met [
      (the idle).kind == .handler core0 0 && (the idle).serving.isNone && (idle.core core0).trapq.length == 1 && !(idle.core core0).dead &&
        (idle.core core0).chentry != 0 && (idle.fibres.take me).all fun f => !(match f.kind with | .handler .. => true | _ => false),
      [sel 0 0, sel 1 0, sel 1 0xFF, sel 1 0x80000010].all fun s => [Instr.awrd h 10 4 5 8, .awwr h 10 4 5 8].all (goes · s),
      (target (sel 2 0)).isNone, (target (sel 1 0)).isSome, decide (itemOf 0xFF 128 65536 = .none) && decide (itemOf 3 128 65536 = .reg 3),
      !watch.loggedByOther (me + 1) 0 4, (match target (sel 1 0) with | some (t, x, g) => (watch.windowWrite t x g 7 (.reg 3)).isSome && (watch.windowWrite t x g 7 .none).isNone | none => false),
      [Instr.hstop h 10 4 false, .hstop h 10 4 true, .hresume h 4 false].all (goes · (sel 1 0)),
      let s := sel (BitVec.ofNat 32 (watch.jobOf (the base))) 0
      (s.fibres.find? fun x => s.selected (the s) ((the s).read me 4) false x && (x.holds.contains .hstop || x.stopReq.contains .hstop)).isSome,
      ((sel 99 0).fibres.find? fun x => (sel 99 0).selected (the (sel 99 0)) 99 false x && (x.holds.contains .hstop || x.stopReq.contains .hstop)).isNone,
      (the rep).serving.isNone && rep.replayDone me,
      let s := (issued (.ld h 1 2 .sp .b32 .weak .grp 0)).modFibre me fun f => { f with run := .waiting .replay, wait := some (.replay ⟨0, 0⟩) }
      !s.replayDone me] = true := by
  decide +kernel
theorem test_witness_DebugActs :
    let open_ := base.modPkg fun p => { p with lcstate := 1, dbgFeat := 15 }
    let closed := base.modPkg fun p => { p with lcstate := 1 }
    let brkp := Instr.brkp ⟨0, true, false⟩ 5
    let cmd := fun (op : Nat) => (fib fun f => { f with run := .stopped, holds := [.debug] }).modCore core0 fun c => { c with cdbg := BitVec.ofNat 32 (2 ^ 31 + op * 2 ^ 29) }
    let none_ := fun (op : Nat) => (cmd op).modFibre me fun f => { f with run := .ready, holds := [] }
    let grp := (base.resident? core0 0).map (·.1)
    met [
      goes brkp helper (·.isHelper), goes brkp control (·.privileged), (goes brkp closed fun f => !f.isHelper && !f.privileged) && !closed.feature 0, open_.feature 0, goes brkp open_,
      [Instr.trace h 12 13 true 3, .trace h 12 0 false 3, .mark h 42].all fun i => goes i base && goes i helper (·.isHelper),
      [0, 1, 2, 3].all fun op => (cmd op).command core0 op == some (grp, 0), grp.isSome, (let s := base.modCore core0 fun c => { c with cdbg := 0xDE000000 }; s.command core0 2 == some (none, 0)), (cmd 0).debugStopped grp 0 == some me, ((none_ 0).debugStopped grp 0).isNone,
      ((cmd 1).spanOf grp 0).length == 1, (base.spanOf none 0).isEmpty, (base.modPkg fun p => { p with dbgBusy := true }).pkg.dbgBusy,
      tokenStatus (List.replicate 256 0) 0 == 1, open_.feature 2 && open_.feature 3 && open_.feature 1,
      let s := (open_.modCore core0 fun c => { c with trr := { c.trr with ctl := 0x1800 } }).pass 128
      bitsOf (s.core core0).trr.ctl.toNat 15 11 == 3 && s.clk == 128 && (s.core core0).samples != 1 && (s.charged core0 1 none).1.isSome && (s.core core0).frozen ≤ s.clk] = true := by
  decide +kernel

def grp : Nat := (the base).grp
def job : Nat := base.jobOf (the base)
def waiting (w : Wait) (why : Why) : State := fib fun f => { f with run := .waiting why, wait := some w }
def withGroup (u : Group → Group) (s : State := base) : State := s.modGroup grp u
/-- `base` with a page table whose second level ends in a leaf of 32 GiB, and a walk of its address 0 on die 0 (R248, R249). -/
def tables : State := (((base.modJob job fun j => { j with roots := [0x40000] }).store 0x40000 (leBytes 8 0x44001)).store 0x44000 [0x1F]).modDie 0
  fun d => { d with walks := [{ (default : Walk) with id := 8, job := job, va := 0, cores := [(0, 0)] }] }
/-- A second group of the core, pending, with a ready fibre, beside a group whose fibre naps. -/
def pending (age : Nat) : State := let s := waiting (.nap 5) .nap
  let s : State := { s with groups := s.groups ++ [{ placedGroup job 0 with active := false, rgi := 1, age := age }] }
  { s with fibres := s.fibres ++ [Fibre.fresh .real (grp + 1) 0 128 0 0 0] }
theorem test_witness_SchedulingEventsAct :
    let end_ := waiting (.ending false) .ending
    let busy := (issued (.div h 1 2 3 .s32 false)).modFibre me fun f => { f with run := .waiting .ending, wait := some (.ending false) }
    let nap := fun t => waiting (.nap t) .nap
    let gone := withGroup fun g => { g with exited := true }
    let evict := fun (u : Fibre → Fibre) => (withGroup fun g => { g with evict := some (0, (1, 2)) }).modFibre me u
    let cohort := (withGroup fun g => { g with exited := true }).modJob job fun j => { j with cohort := 1, groups := 1 }
    met [
      (tables.dies.flatMap fun d => d.2.walks.map fun w => (d.1, w)).any fun p => p.2.id == 8 && p.1 == 0,
      (match tables.missDone 0 job 0 with | (.ok t, _) => t.size == 2 ^ 35 | _ => false),
      base.mayIssue (the base) && (the base).run == .ready && (the base).hdr.isSome,
      end_.replayDone me && (the end_).replay.isEmpty && end_.endReady me (the end_), busy.replayDone me && !busy.endReady me (the busy),
      [0, 5].all fun t => (the (nap t)).wait == some (.nap t), base.clk == 0,
      (gone.group? grp).any (fun g => g.exited && !g.freed && gone.exitStands (cluIx g.die g.clu) grp) && !gone.deliveriesLeft grp,
      ((pending 0).group? grp).any (fun g => g.active && g.resident && g.job != 0 && ((pending 0).oldestPending g.coreIx).isSome) &&
        ((pending 0).members grp).all fun p => (pending 0).longWait p.1 p.2,
      (evict id).clk == 0 && ((evict id).members grp).any fun p => !p.2.atRest,
      (let e := evict fun f => { f with run := .stopped, holds := [.evict] }
       (e.members grp).all (fun p => p.2.atRest && p.2.releasing.isEmpty) &&
         (e.group? grp).any (fun g => e.mayHoldTaints grp (e.saveDie grp g)) && e.ops.isEmpty && (e.core core0).mmaq.isEmpty && (e.core core0).running.isNone),
      [1023, 1024].all fun n => ((pending n).oldestPending core0).any fun p => p.2.age == n,
      !(base.die 0).dead,
      (cohort.job? job).any fun j => ((cohort.jobGroups job).filter fun p => p.2.gid / max j.cohort 1 == 0).length == min (max j.cohort 1) (j.groups - 0) &&
        cohort.ops.isEmpty && (cohort.jobGroups job).all (·.2.exited)] = true := by
  decide +kernel
theorem test_witness_DieEventsAct :
    let die := fun (u : Die → Die) => base.modDie 0 u
    let ws := fun (bits : Word) (src : DWord) => die fun d => { d with wsctl := bits, wslsrc := src, wsldst := 64, wsllen := 64 }
    let maps := (tables.store 0x44000 (leBytes 8 0x48001)).store 0x48000 (leBytes 8 (0x1F + 2 * 2 ^ 57))
    met [
      maps.groups.any fun g => g.die == 0 && g.core < 8 && !g.out && !g.exited && !g.freed && maps.jobMapsWeight 0 g.job,
      !base.groups.any fun g => g.die == 0 && g.core < 8 && !g.out && !g.exited && !g.freed && base.jobMapsWeight 0 g.job,
      [ws 1 64, ws 1 65, ws 0 64, ws 0x101 64].map (fun s => (s.die 0).wsctl.getLsbD 0 && !(s.die 0).wsctl.getLsbD 8 && (s.die 0).wslsrc.toNat % 64 == 0 &&
        populated 0 (s.die 0).wslsrc.toNat 64) == [true, false, false, false],
      (let s := ws 0x101 0x10200; (s.die 0).wsctl.getLsbD 8 && (s.loadGranules 0 0x10200 64 .ok 1).1 != .linkfail),
      inWindow 0 0 && inWindow 0 2999 && !inWindow 0 3000 && inWindow 7 84000, (base.die 0).inRefresh.isEmpty,
      ((die fun d => { d with inRefresh := [3] }).die 0).inRefresh.contains 3 && !inWindow 3 0, decide (6 * 2 ^ 30 - 1 < 6 * 2 ^ 30), populated 0 (64 * (48 * 2 ^ 24 - 1)) 64,
      !(base.die 0).dtinvc.getLsbD 0, ((die fun d => { d with inval := some (2, [5]) }).die 0).inval == some (2, [5]) && (base.op? 5).isNone,
      (let s := issued (.ld h 1 2 .sp .b32 .weak .grp 0); (s.op? (last s).id).isSome)] = true := by
  decide +kernel
theorem test_witness_PackageEventsAct : met [
    base.ops.isEmpty && base.pkg.downDies.isEmpty, base.pkg.lcstate == 0, [0, 1, 2, 3].all fun (n : BitVec 2) => n.toNat ≤ (3 : BitVec 2).toNat,
    decide ((0 : BitVec 2).toNat < (3 : BitVec 2).toNat)] = true := by
  decide +kernel

/-- `base` with a command in queue 0 of function 0, and a queue with a ring. -/
def cmd (op : Nat) (raw : List Byte) (started : Bool := false) : HostCmd :=
  { (default : HostCmd) with idx := 3, op := op, raw := leBytes 1 op ++ [0, 0, 0] ++ raw ++ List.replicate (60 - raw.length) 0, started := started }
def commanded (c : HostCmd) : State := base.modQueueOf 0 0 fun q => { q with cmds := [c], cfg := 0x80070007 }
def tdi (st : TdiState) : State := base.modTdi 2 fun t => { t with state := st, nonce := 5 }
/-- A launch descriptor of one group of one fibre (R305), in DRAM at 0x10800. -/
def descriptor : List Byte := [(2, 2), (20, 1), (26, 7), (52, 1), (176, 4)].foldl (fun l (e : Nat × Byte) => l.set e.1 e.2) (List.replicate 256 0)
theorem test_witness_HostActs :
    let named := fun (c : HostCmd) => ((commanded c).jobOfCmd 0 c).map (·.1)
    let job8 := leBytes 4 job
    let host := base.modPkg fun p => { p with access := assign 0 [(0, 0x000000000FFFFFFFFF0000FFFF000087#128), (1, 0x000000000FFFFFFFFF8000800000000087#128)] p.access }
    let bar := host.modTdi 0 fun t => { t with bar2 := 4096, bar2Base := 0x10000 }
    let l := ((commanded (cmd 1 (leBytes 8 0x10800))).modPkg fun p => { p with access := host.pkg.access }).store 0x10800 descriptor
    met [
      (base.tdi 2).state == .unlocked, ((tdi .locked).tdi 2).nonce == 5, [TdiState.locked, .run, .error].all fun st => ((tdi st).tdi 2).state == st,
      base.barsOpen 0, ((commanded (cmd 1 [])).hostQueue 0 0).cfg.getLsbD 31,
      [1, 2, 3, 4, 5, 6, 0, 7].all fun op => ((commanded (cmd op [])).command? 0 0 3 (· == op)).isSome, [2, 4, 5, 6].all fun op => named (cmd op job8) == some job,
      (named (cmd 6 (leBytes 4 99))).isNone, (base.job? job).any (·.status.isNone), ((base.modJob job fun j => { j with status := some .fault }).job? job).any (·.status.isSome),
      (cmd 3 [1]).restZero 32 && (cmd 3 [1]).field 7 5 == 0 && (cmd 3 [15]).field 4 4 < 16,
      ((commanded (cmd 4 job8 true)).command? 0 0 3 (· == 4)).any (·.started),
      (fib fun f => { f with run := .stopped }).fibres.all fun x => !(x.kind == .real || x.kind == .helper) || x.atRest,
      match bar.barPlace 0 (2 * 2 ^ 40 + 4092) 4 with
        | .phys pa => pa == 0x10FFC && (2 * 2 ^ 40 + 4092) / 2 ^ 40 == 2 && populated 0 pa 4 && !bar.unreachable (physTarget pa) && !bar.poisonedAt pa 4 &&
          bar.accessOk (physTarget pa) (hostMaster 0) .write pa && bar.accessOk (physTarget pa) (hostMaster 0) .read pa
        | _ => false,
      (l.command? 0 0 3 (· == 1)).any fun c => c.restZero 12 && c.field 11 4 % 64 == 0, (jobOfDescriptor descriptor 0 0).qcount == 0,
      match l.hostFetch 0 0x10800 256 with
        | (.ok d, t) => d == descriptor && t.descriptorOk d
        | _ => false] = true := by
  decide +kernel

/-- Values for the statements about numbers alone: memories that read alike, addresses, an atomic's operands, arrivals, a bank group in its window. -/
theorem test_witness_values : met [
    Memory.wf [⟨1, 2⟩] && Memory.wf base.mem, decide ((0 : Nat) < [5].length), decide (99 < 100) && decide (100 + [5].length ≤ 101),
    decide (0xFFFFFFFF < 2 ^ 32) && decide (2 ^ 32 ≤ 2 ^ 64 - 1), decide ((65535 : Word).toNat + 1 = 65536) && decide ((2 ^ 31 - 1 : Word).toNat < 2 ^ 31),
    inWindow 3 36000 && !inWindow 2 36000 && !inWindow 4 36000] = true := by
  decide +kernel

end Sys2Proof.Tests
end

/-! SUPPORT. The scalar words of R93 to R104: what each sets where it executes, the bits that their operations give, and which words
decode to them. -/

namespace Sys2Proof.ScalarWords

open Sys2Proof.Machine

/-! ## What the shapes of scalar words set -/

section
variable {i : Instr} {s : State} {f : Fibre}

theorem sets_aluWord {d : Nat} {v : Nat → Fibre → List Word × Conds} (hi : exec i s = aluWord i d s v) (hx : Executes i s f) :
    Sets i s f d (v s.cur f).1 (v s.cur f).2 := hi.trans (aluWord_go hx d v)
theorem sets_plainWord {d : Reg} {v : Nat → Fibre → Word} (hi : exec i s = plainWord i d s v) (hx : Executes i s f) :
    Sets i s f d.toNat [v s.cur f] Conds.none := hi.trans (plainWord_go hx d v)
theorem sets_binWord {d a b : Reg} {op : Word → Word → Word} (hi : exec i s = binWord i d a b op s) (hx : Executes i s f) :
    Sets i s f d.toNat [op (src s f a) (src s f b)] Conds.none :=
  sets_plainWord (v := fun k f => op (f.read k a.toNat) (f.read k b.toNat)) hi hx
theorem sets_unWord {d a : Reg} {op : Word → Word} (hi : exec i s = unWord i d a op s) (hx : Executes i s f) :
    Sets i s f d.toNat [op (src s f a)] Conds.none := sets_plainWord (v := fun k f => op (f.read k a.toNat)) hi hx
theorem sets_immWord {d a : Reg} {l : Word} {op : Word → Word → Word} (hi : exec i s = immWord i d a l op s) (hx : Executes i s f) :
    Sets i s f d.toNat [op (src s f a) l] Conds.none := sets_plainWord (v := fun k f => op (f.read k a.toNat) l) hi hx
theorem setsPreds_predWord {v : Nat → Fibre → List (Nat × Bool) × Conds} (hi : exec i s = predWord i s v) (hx : Executes i s f) :
    SetsPreds i s f (v s.cur f).1 (v s.cur f).2 := hi.trans (predWord_go hx v)

/-! ## Typed words at INT32 -/

theorem intOperand_s32 (f : Fibre) (k : Nat) (a : Reg) : f.intOperand k .s32 a = (f.read k a.toNat).toInt := by
  have hlt := (f.read k a.toNat).isLt
  have hop : f.operand k .s32 a = (f.read k a.toNat).toNat := Nat.mod_eq_of_lt hlt
  rw [Fibre.intOperand, hop, BitVec.toInt_eq_toNat_cond]
  change (if decide (2 ^ 31 ≤ (f.read k a.toNat).toNat) = true then _ else _) = _
  by_cases hs : 2 ^ 31 ≤ (f.read k a.toNat).toNat
  · rw [if_pos (decide_eq_true hs), if_neg (by omega)]
    rfl
  · rw [if_neg (by simpa using hs), if_pos (by omega)]
/-- An exact integer at INT32 is the 32-bit word it is congruent to. -/
theorem intResult_s32 (v : Int) : intResult .s32 v = [BitVec.ofInt 32 v] := by
  have h : BitVec.ofInt 32 (exact true 32 (v.emod (2 ^ 32 : Nat)).toNat) = BitVec.ofInt 32 v := by
    apply BitVec.eq_of_toNat_eq
    rw [BitVec.toNat_ofInt, BitVec.toNat_ofInt, exact]
    have hm : v.emod (2 ^ 32 : Nat) = v % 4294967296 := rfl
    rw [hm]
    split <;> omega
  exact congrArg (fun w => [w]) h
/-- Without .sat a typed word at INT32 computes on whole registers, as its one-word form does. -/
theorem sets_typedWord_s32 {d a b : Reg} {op : Int → Int → Int} {wop : Word → Word → Word}
    (hop : ∀ x y : Word, BitVec.ofInt 32 (op x.toInt y.toInt) = wop x y)
    (hi : exec i s = typedWord i d a b .s32 false op s) (hx : Executes i s f) :
    Sets i s f d.toNat [wop (src s f a) (src s f b)] Conds.none := by
  have h := sets_aluWord hi hx
  simp only [clampTo, Bool.false_and, Bool.false_eq_true, if_false, intResult_s32, intOperand_s32, hop] at h
  exact h

end

theorem ofInt_toInt_add (x y : Word) : BitVec.ofInt 32 (x.toInt + y.toInt) = x + y := by
  rw [BitVec.ofInt_add, BitVec.ofInt_toInt, BitVec.ofInt_toInt]
theorem ofInt_toInt_sub (x y : Word) : BitVec.ofInt 32 (x.toInt - y.toInt) = x - y := by
  rw [Int.sub_eq_add_neg, BitVec.ofInt_add, BitVec.ofInt_neg, BitVec.ofInt_toInt, BitVec.ofInt_toInt, BitVec.sub_eq_add_neg]
theorem ofInt_toInt_mul (x y : Word) : BitVec.ofInt 32 (x.toInt * y.toInt) = x * y := by
  rw [BitVec.ofInt_mul, BitVec.ofInt_toInt, BitVec.ofInt_toInt]

/-- Settles O14: each one-word form is its operation on two whole registers, and the typed forms at INT32 without .sat are congruent to
them modulo 2^32. -/
theorem oneWordFormsCompute : Obligations.OneWordFormsCompute := by
  unfold Obligations.OneWordFormsCompute
  intro h d a b s f
  refine ⟨?_, ?_, ?_, ?_, ?_, ?_, ?_, ?_, ?_, ?_, ?_, ?_, ?_, ?_⟩
  · exact sets_binWord (exec_add h d a b s)
  · exact sets_binWord (exec_sub h d a b s)
  · exact sets_binWord (exec_mul h d a b s)
  · exact sets_binWord (exec_and h d a b s)
  · exact sets_binWord (exec_or h d a b s)
  · exact sets_binWord (exec_xor h d a b s)
  · exact sets_binWord (op := fun x y => x &&& ~~~y) (exec_andn h d a b s)
  · exact sets_binWord (op := shl32) (exec_shl h d a b s)
  · exact sets_binWord (op := shr32) (exec_shr h d a b s)
  · exact sets_binWord (op := sar32) (exec_sar h d a b s)
  · exact sets_binWord (op := rot32) (exec_rot h d a b s)
  · exact sets_typedWord_s32 ofInt_toInt_add (exec_addTyped h d a b .s32 false s)
  · exact sets_typedWord_s32 ofInt_toInt_sub (exec_subTyped h d a b .s32 false s)
  · exact sets_typedWord_s32 ofInt_toInt_mul (exec_mulTyped h d a b .s32 false s)

/-! ## Counting and reversing bits -/

theorem leadingZeros_le (x n : Nat) : leadingZeros x n ≤ n := by
  induction n with
  | zero => exact Nat.le_refl 0
  | succ n ih =>
    rw [leadingZeros]
    split <;> omega
theorem testBit_of_leadingZeros {x n i : Nat} (hlo : n - leadingZeros x n ≤ i) (hi : i < n) : x.testBit i = false := by
  induction n with
  | zero => omega
  | succ n ih =>
    have hle := leadingZeros_le x n
    rw [leadingZeros] at hlo
    split at hlo
    next => omega
    next hn =>
      by_cases h : i = n
      · rw [h, Bool.eq_false_iff]
        exact hn
      · exact ih (by omega) (by omega)
theorem testBit_below_leadingZeros {x n : Nat} (h : leadingZeros x n < n) : x.testBit (n - 1 - leadingZeros x n) = true := by
  induction n with
  | zero => omega
  | succ n ih =>
    rw [leadingZeros] at h ⊢
    split at h
    next hn => simp [hn]
    next hn =>
      rw [if_neg hn, show n + 1 - 1 - (1 + leadingZeros x n) = n - 1 - leadingZeros x n by omega]
      exact ih (by omega)
theorem ones_eq_length (x n : Nat) : ones x n = ((List.range n).filter fun i => x.testBit i).length := by
  induction n with
  | zero => rfl
  | succ n ih =>
    rw [ones, ih, List.range_succ, List.filter_append, List.length_append]
    cases hn : x.testBit n <;> simp [bit, hn, Nat.add_comm]
theorem testBit_packBits (l : List Bool) : ∀ i, (packBits l).testBit i = l.getD i false := by
  induction l with
  | nil => simp [packBits]
  | cons b l ih =>
    intro i
    cases i with
    | zero => cases b <;> simp [packBits, bit, Nat.testBit_zero]
    | succ i =>
      have hdiv : (bit b + 2 * packBits l) / 2 = packBits l := by
        have hb : bit b < 2 := by cases b <;> decide
        omega
      rw [packBits, Nat.testBit_succ, hdiv, ih, List.getD_cons_succ]
/-- A word packed from 32 bits has them in order. -/
theorem getLsbD_packWord (g : Nat → Bool) {i : Nat} (hi : i < 32) : (w32 (packBits ((List.range 32).map g))).getLsbD i = g i := by
  rw [w32, BitVec.getLsbD_ofNat, testBit_packBits]
  simp [hi]

/-! ## Decoding by rows of the opcode map -/

theorem mem_causesOf {c : Nat} {l : List (Bool × Nat)} : c ∈ causesOf l ↔ (true, c) ∈ l := by
  simp [causesOf]
theorem lowest_eq_min? (l : List Nat) : lowest l = l.min? := by
  induction l with
  | nil => rfl
  | cons c l ih =>
    rw [lowest, ih, List.min?_cons]
    cases l.min? <;> rfl

section
variable {r : Raw} {i : Instr} {cs : List (Bool × Nat)}

/-- Every check of a word that its row of the map selects: the row's, the instruction's, and its registers against the largest
allocation. -/
def checks (i : Instr) (cs : List (Bool × Nat)) : List (Bool × Nat) := cs ++ i.faults ++ [(runsBad 128 i.runs, 6)]
theorem decodeRaw_of_row (hs : selectRow r = .ok (i, cs)) : decodeRaw r = ⟨some i, causesOf (checks i cs)⟩ := by
  rw [decodeRaw, hs]
  rfl
/-- The lowest cause that holds of a word is the cause of its decode trap (R57). -/
theorem decode_eq_error {c : Nat} (hs : selectRow r = .ok (i, cs)) (hc : (true, c) ∈ checks i cs)
    (hmin : ∀ e, (true, e) ∈ checks i cs → c ≤ e) : decode r = .error c := by
  have hl : lowest (causesOf (checks i cs)) = some c := by
    rw [lowest_eq_min?, List.min?_eq_some_iff]
    exact ⟨mem_causesOf.2 hc, fun e he => hmin e (mem_causesOf.1 he)⟩
  rw [decode, decodeRaw_of_row hs, hl]
theorem decode_of_unlisted {c : Nat} (hs : selectRow r = .error c) : decode r = .error c := by
  rw [decode, decodeRaw, hs]
  rfl
/-- A word that decodes has its row's instruction, and no check holds of it. -/
theorem row_of_decode (hd : decode r = .ok i) : ∃ cs, selectRow r = .ok (i, cs) ∧ ∀ x ∈ checks i cs, x.1 = false := by
  rcases hs : selectRow r with c | ⟨j, cs⟩
  · rw [decode_of_unlisted hs] at hd
    cases hd
  · rw [decode, decodeRaw_of_row hs] at hd
    rcases hl : lowest (causesOf (checks j cs)) with _ | c
    · rw [hl] at hd
      cases hd
      refine ⟨cs, rfl, fun x hx => Bool.eq_false_iff.2 fun hx1 => ?_⟩
      rw [lowest_eq_min?, List.min?_eq_none_iff, causesOf, List.map_eq_nil_iff] at hl
      exact List.filter_eq_nil_iff.1 hl x hx hx1
    · rw [hl] at hd
      cases hd
/-- The registers of an instruction that decodes are aligned and within the largest allocation (R40). -/
theorem runsBad_of_decode (hd : decode r = .ok i) : runsBad 128 i.runs = false := by
  obtain ⟨cs, -, hno⟩ := row_of_decode hd
  exact hno (_, 6) (List.mem_append_right _ List.mem_cons_self)
theorem faults_of_decode (hd : decode r = .ok i) : ∀ x ∈ i.faults, x.1 = false := by
  obtain ⟨cs, -, hno⟩ := row_of_decode hd
  exact fun x hx => hno x (List.mem_append_left _ (List.mem_append_right _ hx))

end

theorem selectRow_oneRegister_unlisted {r : Raw} (hm : r.major = 0x0B) (hb : 7 ≤ r.b.toNat) : selectRow r = .error 2 := by
  obtain ⟨n, hn⟩ := Nat.exists_eq_add_of_le' hb
  rw [selectRow, hm, hn]
  rfl
theorem selectRow_immediate_unlisted {r : Raw} (hm : r.major = 0x10) (hb : 15 ≤ r.b.toNat) : selectRow r = .error 2 := by
  obtain ⟨n, hn⟩ := Nat.exists_eq_add_of_le' hb
  rw [selectRow, hm, hn]
  rfl

/-! ## One-register and immediate forms -/

/-- MOV copies its source register, and with it the handle of the operation that the source is pending on (R170). -/
theorem leaves_mov (h : Head) (d a : Reg) {s : State} {f : Fibre} (hx : Executes (.mov h d a) s f) :
    Leaves (.mov h d a) s s f (match f.handle? a.toNat with
      | some op => (f.setReg d.toNat (src s f a)).setHandle d.toNat op
      | none => f.setReg d.toNat (src s f a)) := by
  have hi := (exec_mov h d a s).trans (issueWord_go hx _)
  rw [Leaves, hi]
  cases f.handle? a.toNat <;> rfl

/-- Settles O15: NEG to BREV are the model's operations on a whole register, which count and reverse bits as their lemmas say; MOV is
`leaves_mov`. -/
theorem oneRegisterFormsCompute : Obligations.OneRegisterFormsCompute := by
  unfold Obligations.OneRegisterFormsCompute
  refine ⟨fun h d a s f => ⟨leaves_mov h d a, ?_, ?_, ?_, ?_, ?_, ?_⟩, fun r hm hb => decode_of_unlisted (selectRow_oneRegister_unlisted hm hb)⟩
  · exact sets_unWord (op := fun x => 0 - x) (exec_neg h d a s)
  · exact sets_unWord (op := fun x => if x.getLsbD 31 then 0 - x else x) (exec_abs h d a s)
  · exact sets_unWord (op := fun x => ~~~x) (exec_not h d a s)
  · intro hx
    refine ⟨leadingZeros (src s f a).toNat 32, leadingZeros_le _ 32, fun _ hlo hi => testBit_of_leadingZeros hlo hi, fun hn => ?_,
      sets_unWord (op := clz32) (exec_clz h d a s) hx⟩
    rw [← BitVec.testBit_toNat]
    exact testBit_below_leadingZeros hn
  · intro hx
    have hset := sets_unWord (op := popc32) (exec_popc h d a s) hx
    rw [popc32, ones_eq_length] at hset
    exact hset
  · intro hx
    exact ⟨brev32 (src s f a), fun _ hi => getLsbD_packWord _ hi, sets_unWord (op := brev32) (exec_brev h d a s) hx⟩

theorem smin32_eq (x y : Word) : smin32 x y = if x.toInt < y.toInt then x else y := by
  simp only [smin32, BitVec.slt_iff_toInt_lt]
theorem smax32_eq (x y : Word) : smax32 x y = if x.toInt < y.toInt then y else x := by
  simp only [smax32, BitVec.slt_iff_toInt_lt]

/-- Settles O17: each immediate form is the operation of its register form on a whole register and the literal. -/
theorem immediateFormsCompute : Obligations.ImmediateFormsCompute := by
  unfold Obligations.ImmediateFormsCompute
  refine ⟨fun h d a l s f => ⟨?_, ?_, ?_, ?_, ?_, ?_, ?_, ?_, ?_, ?_, ?_, ?_, ?_, ?_, ?_⟩,
    fun r hm hb => decode_of_unlisted (selectRow_immediate_unlisted hm hb)⟩
  · exact sets_immWord (exec_addImm h d a l s)
  · exact sets_immWord (exec_subImm h d a l s)
  · exact sets_immWord (exec_mulImm h d a l s)
  · exact sets_immWord (exec_andImm h d a l s)
  · exact sets_immWord (exec_orImm h d a l s)
  · exact sets_immWord (exec_xorImm h d a l s)
  · exact sets_immWord (op := fun x y => x &&& ~~~y) (exec_andnImm h d a l s)
  · exact sets_immWord (op := shl32) (exec_shlImm h d a l s)
  · exact sets_immWord (op := shr32) (exec_shrImm h d a l s)
  · exact sets_immWord (op := sar32) (exec_sarImm h d a l s)
  · exact sets_immWord (op := rot32) (exec_rotImm h d a l s)
  · rw [← smin32_eq]
    exact sets_immWord (exec_minImm h d a l s)
  · exact sets_immWord (op := umin32) (exec_minImmU h d a l s)
  · rw [← smax32_eq]
    exact sets_immWord (exec_maxImm h d a l s)
  · exact sets_immWord (op := umax32) (exec_maxImmU h d a l s)

/-! ## Literals -/

theorem sets_movhi (h : Head) (d : Reg) (l : Word) {s : State} {f : Fibre} (hx : Executes (.movhi h d l) s f) :
    Sets (.movhi h d l) s f (d.toNat + 1) [l] Conds.none :=
  sets_aluWord (v := fun _ _ => ([l], Conds.none)) (exec_movhi h d l s) hx
theorem selectRow_moviLit {r : Raw} (hm : r.major = 0x12) : selectRow r = .ok (decMoviLit r) := by
  rw [selectRow, hm]
  rfl
theorem selectRow_movhi {r : Raw} (hm : r.major = 0x13) : selectRow r = .ok (decMovhi r) := by
  rw [selectRow, hm]
  rfl
/-- Beside a literal, a nonzero imm14 is the one check below cause 0x06 (R99). -/
theorem decode_imm14 {r : Raw} {i : Instr} (hs : selectRow r = .ok (i, [(r.imm14 != 0, 3)])) (hf : i.faults = []) (himm : r.imm14 ≠ 0) :
    decode r = .error 3 := by
  rw [← bne_iff_ne] at himm
  refine decode_eq_error hs ?_ fun e he => ?_
  · rw [checks, himm]
    exact List.mem_cons_self
  · rw [checks, hf] at he
    simp only [List.append_nil, List.mem_append, List.mem_singleton, Prod.mk.injEq] at he
    omega
theorem decode_literal_imm14 {r : Raw} (hm : r.major = 0x12 ∨ r.major = 0x13) (himm : r.imm14 ≠ 0) : decode r = .error 3 := by
  rcases hm with hm | hm
  · exact decode_imm14 (selectRow_moviLit hm) rfl himm
  · exact decode_imm14 (selectRow_movhi hm) rfl himm
/-- MOVHI names the whole pair, though it writes the odd register only. -/
theorem runs_movhi (h : Head) (d : Reg) (l : Word) : (Instr.movhi h d l).runs = [⟨d.toNat, 2, 2⟩] := rfl
theorem movhi_pair_of_decode {r : Raw} {h : Head} {d : Reg} {l : Word} (hd : decode r = .ok (.movhi h d l)) : d.toNat % 2 = 0 := by
  have hruns := runsBad_of_decode hd
  simp only [runs_movhi, runsBad, List.any_cons, List.any_nil, Bool.or_false, Bool.and_eq_false_iff, Bool.or_eq_false_iff,
    bne_eq_false_iff_eq] at hruns
  omega
theorem runsBad_movhi {n : Nat} {h : Head} {d : Reg} {l : Word} (hd : n ≤ d.toNat + 1) : runsBad n (Instr.movhi h d l).runs = true := by
  have hout : d.toNat + 2 > n := by omega
  simp [runs_movhi, runsBad, hout]
/-- A word whose registers lie outside the fibre's allocation has cause 0x06 where it stands (R40, R56). -/
theorem mem_wordCauses_of_runsBad {cls idx count nregs ntiles : Nat} {pacer priv : Bool} {r : Raw} {i : Instr} {cs : List (Bool × Nat)}
    (hs : selectRow r = .ok (i, cs)) (hb : runsBad nregs i.runs = true) : 6 ∈ wordCauses cls idx count nregs ntiles pacer priv r := by
  have hplace : 6 ∈ placeCauses cls idx count nregs ntiles pacer priv i r.w0 (wordCount r.w0 r.w1) := by
    rw [placeCauses, mem_causesOf]
    simp [hb]
  rw [wordCauses, decodeRaw_of_row hs]
  exact List.mem_append_right _ hplace

/-! ## Bit fields (R100) -/

theorem fieldPos_eq (b : Word) : fieldPos b = b.toNat % 256 := rfl
theorem fieldLen_eq (w : Nat) (b : Word) : fieldLen w b = min (b.toNat / 256 % 256) w := by
  rw [fieldLen, bitsOf, Nat.shiftRight_eq_div_pow]
  rfl
theorem fieldLen_le (w : Nat) (b : Word) : fieldLen w b ≤ w := Nat.min_le_right _ _
/-- Adding the bits from len to w is setting them. -/
theorem testBit_signExtended {v len w j : Nat} (hv : v < 2 ^ len) (hle : len ≤ w) (hj : j < w) :
    (v + (2 ^ w - 2 ^ len)).testBit j = if j < len then v.testBit j else true := by
  have hhigh : 2 ^ w - 2 ^ len = (2 ^ (w - len) - 1) <<< len := by
    rw [Nat.shiftLeft_eq, Nat.sub_mul, Nat.one_mul, ← Nat.pow_add, Nat.sub_add_cancel hle]
  rw [hhigh, Nat.add_comm, Nat.shiftLeft_add_eq_or_of_lt hv, Nat.testBit_or, Nat.testBit_shiftLeft, Nat.testBit_two_pow_sub_one]
  split
  next h => simp [show ¬len ≤ j by omega]
  next h => simp [show len ≤ j by omega, show j - len < w - len by omega]
theorem bfxBits_lt (w : Nat) (signed : Bool) (a : Nat) (b : Word) : bfxBits w signed a b < 2 ^ w := by
  have hv : (a >>> fieldPos b) % 2 ^ fieldLen w b < 2 ^ fieldLen w b := Nat.mod_lt _ (Nat.two_pow_pos _)
  have hpow : 2 ^ fieldLen w b ≤ 2 ^ w := Nat.pow_le_pow_right (by decide) (fieldLen_le w b)
  unfold bfxBits
  dsimp only
  split
  · exact Nat.two_pow_pos w
  · split <;> omega
theorem testBit_bfxBits (w : Nat) (signed : Bool) (a : Nat) (b : Word) {j : Nat} (hj : j < w) :
    (bfxBits w signed a b).testBit j = (decide (fieldLen w b ≠ 0) && decide (fieldPos b < w) &&
      if j < fieldLen w b then a.testBit (fieldPos b + j) else signed && a.testBit (fieldPos b + fieldLen w b - 1)) := by
  have hle := fieldLen_le w b
  unfold bfxBits
  dsimp only
  generalize fieldPos b = pos at *
  generalize fieldLen w b = len at *
  by_cases hout : len = 0 ∨ w ≤ pos
  · rw [if_pos (by simpa using hout), Nat.zero_testBit]
    rcases hout with h | h <;> simp [h]
  · rw [not_or, Nat.not_le] at hout
    obtain ⟨hlen, hpos⟩ := hout
    have hfield : ∀ q, ((a >>> pos) % 2 ^ len).testBit q = (decide (q < len) && a.testBit (pos + q)) := fun q => by
      rw [Nat.testBit_mod_two_pow, Nat.testBit_shiftRight]
    have hsign : ((a >>> pos) % 2 ^ len).testBit (len - 1) = a.testBit (pos + len - 1) := by
      rw [hfield, decide_eq_true (by omega), Bool.true_and, Nat.add_sub_assoc (by omega)]
    rw [if_neg (by simp [hlen, hpos]), hsign]
    cases hs : signed && a.testBit (pos + len - 1)
    · rw [if_neg (by decide), hfield]
      by_cases h : j < len <;> simp [h, hlen, hpos]
    · rw [if_pos rfl, testBit_signExtended (Nat.mod_lt _ (Nat.two_pow_pos _)) hle hj, hfield]
      by_cases h : j < len <;> simp [h, hlen, hpos]
theorem testBit_bfiBits (w a : Nat) (b : Word) (c : Nat) {j : Nat} (hj : j < w) :
    (bfiBits w a b c).testBit j =
      if fieldLen w b ≠ 0 ∧ fieldPos b ≤ j ∧ j < fieldPos b + fieldLen w b then a.testBit (j - fieldPos b) else c.testBit j := by
  unfold bfiBits
  dsimp only
  generalize fieldPos b = pos at *
  generalize fieldLen w b = len at *
  by_cases hout : len = 0 ∨ w ≤ pos
  · rw [if_pos (by simpa using hout), if_neg (by omega)]
  · rw [not_or, Nat.not_le] at hout
    obtain ⟨hlen, hpos⟩ := hout
    have hmask : ((2 ^ len - 1) <<< pos) % 2 ^ w < 2 ^ w := Nat.mod_lt _ (Nat.two_pow_pos w)
    rw [if_neg (by simp [hlen, hpos]), Nat.testBit_or, Nat.testBit_and, Nat.sub_sub, Nat.add_comm 1, Nat.testBit_two_pow_sub_succ hmask]
    simp only [Nat.testBit_mod_two_pow, Nat.testBit_shiftLeft, Nat.testBit_two_pow_sub_one, hj, decide_true, Bool.true_and]
    by_cases hin : pos ≤ j ∧ j < pos + len
    · rw [if_pos ⟨hlen, hin⟩]
      simp [hin.1, show j - pos < len by omega]
    · rw [if_neg (fun h => hin h.2)]
      by_cases h : pos ≤ j
      · simp [h, show ¬j - pos < len by omega]
      · simp [h]

theorem sets_bfx (h : Head) (d a b : Reg) (ty : Ty) {s : State} {f : Fibre} (hx : Executes (.bfx h d a b ty) s f) :
    Sets (.bfx h d a b ty) s f d.toNat (tyWords ty (bfxBits ty.width ty.signed (f.operand s.cur ty a) (src s f b))) Conds.none :=
  sets_aluWord (v := fun k f => (tyWords ty (bfxBits ty.width ty.signed (f.operand k ty a) (f.read k b.toNat)), Conds.none))
    (exec_bfx h d a b ty s) hx
theorem sets_bfi (h : Head) (d a b c : Reg) (ty : Ty) {s : State} {f : Fibre} (hx : Executes (.bfi h d a b c ty) s f) :
    Sets (.bfi h d a b c ty) s f d.toNat (tyWords ty (bfiBits ty.width (f.operand s.cur ty a) (src s f b) (f.operand s.cur ty c))) Conds.none :=
  sets_aluWord (v := fun k f => (tyWords ty (bfiBits ty.width (f.operand k ty a) (f.read k b.toNat) (f.operand k ty c)), Conds.none))
    (exec_bfi h d a b c ty s) hx

/-! ## Rows that give one instruction -/

/-- The major opcode and function code of the rows that read BFX, BFI and PLOG. -/
def rowCode : Instr → Option (Nat × Nat)
  | .bfx .. => some (0x0E, 0)
  | .bfi .. => some (0x0E, 1)
  | .plog .. => some (0x19, 0)
  | _ => none
/-- No other row reads them: a leaf of the map either has no instruction, or one without a code here, or the codes it was reached by. -/
theorem rowCode_of_selectRow {r : Raw} {p : Instr × List (Bool × Nat)} {c : Nat × Nat} (hs : selectRow r = .ok p)
    (hc : rowCode p.1 = some c) : (r.major.toNat, r.fn.toNat) = c := by
  unfold selectRow at hs
  repeat' split at hs
  all_goals cases hs <;> cases hc <;> simp [*]
/-- A word that decodes to an instruction of one of these rows has its codes, and nothing that the row rejects. -/
theorem row_of_decode_code {r : Raw} {i : Instr} {m : BitVec 6} {n : BitVec 5} (dec : Raw → Instr × List (Bool × Nat))
    (hsel : ∀ r : Raw, r.major = m → r.fn = n → selectRow r = .ok (dec r)) (hc : rowCode i = some (m.toNat, n.toNat)) (hd : decode r = .ok i) :
    r.major = m ∧ r.fn = n ∧ ∀ x ∈ (dec r).2, x.1 = false := by
  obtain ⟨cs, hs, hno⟩ := row_of_decode hd
  obtain ⟨hm, hn⟩ := Prod.mk.inj (rowCode_of_selectRow hs hc)
  have hm := BitVec.eq_of_toNat_eq hm
  have hn := BitVec.eq_of_toNat_eq hn
  rw [hsel r hm hn] at hs
  have hcs : (dec r).2 = cs := congrArg Prod.snd (Except.ok.inj hs)
  refine ⟨hm, hn, fun x hx => hno x ?_⟩
  rw [hcs] at hx
  exact List.mem_append_left _ (List.mem_append_left _ hx)
theorem selectRow_bfx (r : Raw) (hm : r.major = 0x0E) (hn : r.fn = 0) : selectRow r = .ok (decBfx r) := by
  rw [selectRow, hm, hn]
  rfl
theorem selectRow_bfi (r : Raw) (hm : r.major = 0x0E) (hn : r.fn = 1) : selectRow r = .ok (decBfi r) := by
  rw [selectRow, hm, hn]
  rfl
theorem selectRow_plog (r : Raw) (hm : r.major = 0x19) (hn : r.fn = 0) : selectRow r = .ok (decPlog r) := by
  rw [selectRow, hm, hn]
  rfl

/-- The types and the pair that the fields of a bit-field word may name (R100). -/
def FieldFits (ty : Ty) (b : Reg) : Prop := ty ∈ [Ty.s32, .ui32, .s64, .ui64] ∧ (ty.is64 = true → b.toNat % 2 = 0)
theorem fieldFits_of_decode {r : Raw} {i : Instr} {ty : Ty} {b : Reg} (hd : decode r = .ok i)
    (hf : i.faults = [(!(List.elem ty [.s32, .ui32, .s64, .ui64]), 9)]) (hb : i.pairsNamed = [ty.run b]) : FieldFits ty b := by
  have hty := faults_of_decode hd
  rw [hf] at hty
  refine ⟨List.elem_iff.1 (Bool.not_inj (y := true) (hty _ List.mem_cons_self)), fun h64 => ?_⟩
  have hruns := runsBad_of_decode hd
  rw [runsBad, List.any_eq_false] at hruns
  have hpair : ty.run b ∈ i.runs := List.mem_append_right _ (hb ▸ List.mem_cons_self)
  have hrun := hruns _ hpair
  rw [Ty.run, if_pos h64] at hrun
  simp only [Bool.not_eq_true, Bool.and_eq_false_iff, Bool.or_eq_false_iff, bne_eq_false_iff_eq] at hrun
  omega

theorem bfx_of_decode {r : Raw} {h : Head} {d a b : Reg} {ty : Ty} (hd : decode r = .ok (.bfx h d a b ty)) :
    FieldFits ty b ∧ r.major = 0x0E ∧ r.fn = 0 ∧ r.c = 0 ∧ r.rnd = 0 ∧ r.mods = 0 := by
  obtain ⟨hm, hn, hno⟩ := row_of_decode_code decBfx selectRow_bfx rfl hd
  simp only [decBfx, List.forall_mem_cons, bne_eq_false_iff_eq] at hno
  obtain ⟨hc, -, hrnd, hmods, -⟩ := hno
  exact ⟨fieldFits_of_decode hd rfl rfl, hm, hn, hc, hrnd, BitVec.and_allOnes.symm.trans hmods⟩
theorem bfi_of_decode {r : Raw} {h : Head} {d a b c : Reg} {ty : Ty} (hd : decode r = .ok (.bfi h d a b c ty)) :
    FieldFits ty b ∧ r.major = 0x0E ∧ r.fn = 1 := by
  obtain ⟨hm, hn, -⟩ := row_of_decode_code decBfi selectRow_bfi rfl hd
  exact ⟨fieldFits_of_decode hd rfl rfl, hm, hn⟩

/-- Settles O18: on bits, BFX and BFI are `testBit_bfxBits` and `testBit_bfiBits`; what decodes is read off the checks of its row. -/
theorem literalsAndBitFields : Obligations.LiteralsAndBitFields := by
  unfold Obligations.LiteralsAndBitFields
  refine ⟨⟨fun h d imm l s f => ⟨?_, ?_, sets_movhi h d l⟩, fun r => ⟨decode_literal_imm14, ?_, ?_⟩⟩, fun h d a b c ty s f => ⟨?_, ?_⟩, ?_⟩
  · exact sets_plainWord (v := fun _ _ => imm.signExtend 32) (exec_movi h d imm s)
  · exact sets_plainWord (v := fun _ _ => l) (exec_moviLit h d l s)
  · exact fun h d l => movhi_pair_of_decode
  · intro cls idx count nregs ntiles pacer priv hm hd
    exact mem_wordCauses_of_runsBad (selectRow_movhi hm) (runsBad_movhi hd)
  · intro hx
    rw [← fieldPos_eq, ← fieldLen_eq]
    exact ⟨_, bfxBits_lt _ _ _ _, fun j hj => testBit_bfxBits _ _ _ _ hj, sets_bfx h d a b ty hx⟩
  · intro hx
    rw [← fieldPos_eq, ← fieldLen_eq]
    exact ⟨_, fun j hj => testBit_bfiBits _ _ _ _ hj, sets_bfi h d a b c ty hx⟩
  · exact fun r h d a b c ty => ⟨bfx_of_decode, bfi_of_decode⟩

/-! ## SEL and SETP -/

theorem is64_iff (ty : Ty) : ty.is64 = true ↔ ty ∈ [Ty.s64, .ui64, .f64] := by cases ty <;> decide
/-- SEL's source is a pair at the 64-bit types and one register at the others. -/
theorem readRun_ty (f : Fibre) (k : Nat) (r : Reg) (ty : Ty) : f.readRun k r.toNat (if ty.is64 then 2 else 1) =
    if ty ∈ [Ty.s64, .ui64, .f64] then [f.read k r.toNat, f.read k (r.toNat + 1)] else [f.read k r.toNat] := by
  simp only [is64_iff]
  split <;> rfl
theorem readPred_zero {f : Fibre} (k : Nat) (hf : f.flight = []) : f.readPred k 0 = true := by
  rw [Fibre.readPred, hf]
  rfl
theorem sets_sel (h : Head) (d a b c : Reg) (ty : Ty) {s : State} {f : Fibre} {r : Reg} (hx : Executes (.sel h d a b c ty) s f)
    (hr : (if f.readPred s.cur c.toNat then a else b) = r) : Sets (.sel h d a b c ty) s f d.toNat
      (if ty ∈ [Ty.s64, .ui64, .f64] then [f.read s.cur r.toNat, f.read s.cur (r.toNat + 1)] else [src s f r]) Conds.none := by
  have hset := sets_aluWord (v := fun k f => (f.readRun k (if f.readPred k c.toNat then a.toNat else b.toNat) (if ty.is64 then 2 else 1),
    Conds.none)) (exec_sel h d a b c ty s) hx
  dsimp only at hset
  rw [← apply_ite BitVec.toNat, hr, readRun_ty] at hset
  exact hset
theorem setsPreds_setp (h : Head) (d a b c : Reg) (cond : BitVec 3) (ty : Ty) (merge : Bool) (tbl : BitVec 4) {s : State} {f : Fibre}
    (hx : Executes (.setp h d a b c cond ty merge tbl) s f) : SetsPreds (.setp h d a b c cond ty merge tbl) s f
      [(d.toNat, merged merge tbl (cond.getLsbD (outcome (f.intOperand s.cur ty a) (f.intOperand s.cur ty b))) (f.readPred s.cur c.toNat))]
      Conds.none :=
  setsPreds_predWord (v := fun k f => ([(d.toNat,
    merged merge tbl (cond.getLsbD (outcome (f.intOperand k ty a) (f.intOperand k ty b))) (f.readPred k c.toNat))], Conds.none))
    (exec_setp h d a b c cond ty merge tbl s) hx
theorem selectRow_sel (r : Raw) (hm : r.major = 0x0F) (hn : r.fn = 0) : selectRow r = .ok (decSel r) := by
  rw [selectRow, hm, hn]
  rfl
theorem code_of_ofCode {n : Nat} {ty : Ty} (h : Ty.ofCode n = some ty) : n = ty.code := by
  unfold Ty.ofCode at h
  split at h <;> cases h <;> rfl
/-- A type code outside SEL's list is reserved or names a type that SEL rejects; either way the word names no pair. -/
theorem tyName_of_code_not_mem {r : Raw} (hty : r.ty.toNat ∉ [0, 1, 2, 3, 8, 9]) : r.tyName.is64 = false ∧
    (r.tyBad = true ∨ List.elem r.tyName [Ty.s32, .ui32, .f32, .s64, .ui64, .f64] = false) := by
  rw [Raw.tyName, Raw.tyBad]
  rcases hc : Ty.ofCode r.ty.toNat with _ | ty
  · exact ⟨rfl, .inl rfl⟩
  · rw [code_of_ofCode hc] at hty
    cases ty <;> revert hty <;> decide
theorem runs_sel (h : Head) (d a b c : Reg) (ty : Ty) : (Instr.sel h d a b c ty).runs = [ty.run a, ty.run b, ty.run d] := rfl
theorem runsBad_sel {h : Head} {d a b c : Reg} {ty : Ty} (h64 : ty.is64 = false) : runsBad 128 (Instr.sel h d a b c ty).runs = false := by
  have hone : ∀ r : Reg, ty.run r = ⟨r.toNat, 1, 1⟩ := fun r => if_neg (by simp [h64])
  have hfit : ∀ r : Reg, decide (r.toNat + 1 > 128) = false := fun r => decide_eq_false (by have := r.isLt; omega)
  simp only [runs_sel, runsBad, hone, List.any_cons, List.any_nil, Nat.mod_one, bne_self_eq_false, hfit, Bool.or_false, Bool.and_false]
theorem decode_sel_ty {r : Raw} (hm : r.major = 0x0F) (hn : r.fn = 0) (hrnd : r.rnd = 0) (hmods : r.mods = 0) (hc : r.c.toNat < 96)
    (hty : r.ty.toNat ∉ [0, 1, 2, 3, 8, 9]) : decode r = .error 9 := by
  obtain ⟨h64, hbad⟩ := tyName_of_code_not_mem hty
  have hchecks : checks (decSel r).1 (decSel r).2 = [(r.tyBad, 9), (false, 3), (false, 3), (false, 6),
      (!List.elem r.tyName [Ty.s32, .ui32, .f32, .s64, .ui64, .f64], 9), (false, 6)] := by
    change [(r.tyBad, 9), (r.rnd != 0, 3), (r.mods &&& 0x1fff#13 != 0, 3), (decide (r.c.toNat ≥ 96), 6), (_, 9),
      (runsBad 128 (Instr.sel r.h r.d r.a r.b r.c r.tyName).runs, 6)] = _
    simp only [hrnd, hmods, runsBad_sel h64, decide_eq_false (show ¬r.c.toNat ≥ 96 by omega)]
    rfl
  refine decode_eq_error (i := (decSel r).1) (cs := (decSel r).2) (selectRow_sel r hm hn) ?_ fun e he => ?_
  · rw [hchecks]
    rcases hbad with h | h <;> simp only [h, Bool.not_false, List.mem_cons, true_or, or_true]
  · rw [hchecks] at he
    simp only [List.mem_cons, List.not_mem_nil, Prod.mk.injEq, reduceCtorEq, false_and, false_or, or_false] at he
    omega
theorem sel_pred_of_decode {r : Raw} {h : Head} {d a b c : Reg} {ty : Ty} (hd : decode r = .ok (.sel h d a b c ty)) : c.toNat < 96 := by
  have hc := faults_of_decode hd _ List.mem_cons_self
  simpa using hc

/-- Settles O19: SEL reads the run of the register that its predicate chooses, SETP merges the bit of its outcome mask, and a type code
outside SEL's list leaves 0x09 as the only cause. -/
theorem selectAndCompareCompute : Obligations.SelectAndCompareCompute := by
  unfold Obligations.SelectAndCompareCompute
  refine ⟨fun h d a b c ty cond merge tbl s f => ⟨fun hx => sets_sel h d a b c ty hx rfl, fun hx hf => ?_, setsPreds_setp h d a b c cond ty merge tbl⟩,
    fun r => decode_sel_ty, fun r h d a b c ty => sel_pred_of_decode⟩
  exact sets_sel h d a b 0 ty hx (if_pos (readPred_zero s.cur hf))

/-! ## Predicates -/

theorem getLsbD_predBlock (f : Fibre) (k blk : Nat) {j : Nat} (hj : j < 32) : (f.predBlock k blk).getLsbD j = f.readPred k (32 * blk + j) := by
  rw [Fibre.predBlock, blockPreds, List.map_map]
  exact getLsbD_packWord _ hj
theorem setPred_zero (f : Fibre) (v : Bool) : f.setPred 0 v = f := rfl
theorem pred_zero (f : Fibre) : f.pred 0 = true := rfl
theorem getLsbD_predSet (ps : BitVec 96) {p : Nat} (hp : p ≠ 0) (v : Bool) (q : Nat) :
    (predSet ps p v).getLsbD q = if q = p then decide (p < 96) && v else ps.getLsbD q := by
  have hbit : (BitVec.ofNat 96 (2 ^ p)).getLsbD q = (decide (q < 96) && decide (q = p)) := by
    rw [BitVec.getLsbD_ofNat, Nat.testBit_two_pow, decide_eq_decide.2 eq_comm]
  have hps : ps.getLsbD q = true → q < 96 := BitVec.lt_of_getLsbD
  rw [predSet, if_neg hp]
  generalize BitVec.ofNat 96 (2 ^ p) = m at hbit
  by_cases h : q = p
  · rw [decide_eq_true h, Bool.and_true] at hbit
    rw [if_pos h, ← h]
    cases v
    · simp [hbit]
    · simpa [hbit] using hps
  · rw [decide_eq_false h, Bool.and_false] at hbit
    rw [if_neg h]
    cases v
    · simpa [hbit] using hps
    · simp [hbit]
theorem setPred_pred_same {f : Fibre} {p : Nat} (v : Bool) (hp : p ≠ 0) (h : p < 96) : (f.setPred p v).pred p = v := by
  rw [Fibre.pred, Fibre.setPred_preds, getLsbD_predSet _ hp, if_pos rfl]
  simp [hp, h]
theorem setPred_pred_other {f : Fibre} {p q : Nat} (v : Bool) (h : q ≠ p) : (f.setPred p v).pred q = f.pred q := by
  by_cases hp : p = 0
  · rw [hp, setPred_zero]
  · rw [Fibre.pred, Fibre.setPred_preds, getLsbD_predSet _ hp, if_neg h, Fibre.pred]
theorem selectRow_pmovToReg (r : Raw) (hm : r.major = 0x1A) (hb : r.b = 0) : selectRow r = .ok (decPmovToReg r) := by
  rw [selectRow, hm, hb]
  rfl
theorem selectRow_pmovToPred (r : Raw) (hm : r.major = 0x1A) (hb : r.b = 1) : selectRow r = .ok (decPmovToPred r) := by
  rw [selectRow, hm, hb]
  rfl
theorem selectRow_pmov_unlisted {r : Raw} (hm : r.major = 0x1A) (hb : 2 ≤ r.b.toNat) : selectRow r = .error 2 := by
  obtain ⟨n, hn⟩ := Nat.exists_eq_add_of_le' hb
  rw [selectRow, hm, hn]
  rfl
/-- A PMOV whose block number is above 2 has no cause but 0x06, from that number or from a register. -/
theorem decode_pmov_block {r : Raw} {i : Instr} {blk : Nat} (hs : selectRow r = .ok (i, [])) (hf : i.faults = [(decide (blk ≥ 3), 6)])
    (hblk : 3 ≤ blk) : decode r = .error 6 := by
  refine decode_eq_error hs ?_ fun e he => ?_
  · rw [checks, hf, decide_eq_true hblk]
    exact List.mem_cons_self
  · rw [checks, hf] at he
    simp only [List.nil_append, List.mem_append, List.mem_singleton, Prod.mk.injEq] at he
    omega
theorem plog_of_decode {r : Raw} {h : Head} {d a b c : Reg} {t : BitVec 8} (hd : decode r = .ok (.plog h d a b c t)) :
    r.major = 0x19 ∧ r.fn = 0 ∧ r.mods.toNat < 256 ∧ r.ty = 0 ∧ r.rnd = 0 := by
  obtain ⟨hm, hn, hno⟩ := row_of_decode_code decPlog selectRow_plog rfl hd
  simp only [decPlog, List.forall_mem_cons, Laws.mask_1f00, bne_eq_false_iff_eq] at hno
  obtain ⟨hty, hrnd, hmods, -⟩ := hno
  refine ⟨hm, hn, ?_, hty, hrnd⟩
  have hhigh : (r.mods.toNat >>> 8) % 2 ^ 5 = 0 := by
    rw [← BitVec.extractLsb'_toNat, hmods]
    rfl
  have hlt := r.mods.isLt
  rw [Nat.shiftRight_eq_div_pow] at hhigh
  omega
theorem setsPreds_plog (h : Head) (d a b c : Reg) (tbl : BitVec 8) {s : State} {f : Fibre} (hx : Executes (.plog h d a b c tbl) s f) :
    SetsPreds (.plog h d a b c tbl) s f [(d.toNat, tbl.getLsbD
      (4 * bit (f.readPred s.cur a.toNat) + 2 * bit (f.readPred s.cur b.toNat) + bit (f.readPred s.cur c.toNat)))] Conds.none :=
  setsPreds_predWord (v := fun k f => ([(d.toNat, tbl.getLsbD
    (4 * bit (f.readPred k a.toNat) + 2 * bit (f.readPred k b.toNat) + bit (f.readPred k c.toNat)))], Conds.none)) (exec_plog h d a b c tbl s) hx
theorem setsPreds_pmovToPred (h : Head) (d a : Reg) {s : State} {f : Fibre} (hx : Executes (.pmovToPred h d a) s f) :
    SetsPreds (.pmovToPred h d a) s f ((List.range 32).map fun j => (32 * d.toNat + j, (src s f a).getLsbD j)) Conds.none :=
  setsPreds_predWord (v := fun k f => ((List.range 32).map fun j => (32 * d.toNat + j, (f.read k a.toNat).getLsbD j), Conds.none))
    (exec_pmovToPred h d a s) hx

/-- Settles O20: PLOG and PMOV are the model's predicate words, a block packed bit by bit; their decode traps are read off their rows; a
predicate written reads back as `getLsbD_predSet` says. -/
theorem predicateWordsCompute : Obligations.PredicateWordsCompute := by
  unfold Obligations.PredicateWordsCompute
  refine ⟨⟨fun h d a b c tbl s f => ⟨setsPreds_plog h d a b c tbl, fun hx => ?_, setsPreds_pmovToPred h d a⟩, fun r => ⟨?_, ?_, ?_⟩⟩, ?_⟩
  · exact ⟨f.predBlock s.cur a.toNat, fun j hj => getLsbD_predBlock f s.cur a.toNat hj,
      sets_plainWord (v := fun k f => f.predBlock k a.toNat) (exec_pmovToReg h d a s) hx⟩
  · rintro hm (⟨hb, hblk⟩ | ⟨hb, hblk⟩)
    · exact decode_pmov_block (selectRow_pmovToReg r hm hb) rfl hblk
    · exact decode_pmov_block (selectRow_pmovToPred r hm hb) rfl hblk
  · exact fun hm hb => decode_of_unlisted (selectRow_pmov_unlisted hm hb)
  · exact fun h d a b c t => plog_of_decode
  · exact fun f p q v => ⟨pred_zero _, setPred_zero f v, setPred_pred_same v, setPred_pred_other v⟩

end Sys2Proof.ScalarWords

/-! SUPPORT. Encoding and decoding, instruction by instruction. -/

namespace Sys2Proof.Encoding

open Sys2Proof.Laws Sys2Proof.ScalarWords

/-- The words of any well-formed instruction decode to it: each constructor by the lemma of its row. -/
theorem roundTrip : ∀ i : Instr, RoundTrip.Statement i
  | .add .. => RoundTrip.add _ _ _ _
  | .sub .. => RoundTrip.sub _ _ _ _
  | .mul .. => RoundTrip.mul _ _ _ _
  | .and .. => RoundTrip.and _ _ _ _
  | .or .. => RoundTrip.or _ _ _ _
  | .xor .. => RoundTrip.xor _ _ _ _
  | .andn .. => RoundTrip.andn _ _ _ _
  | .shl .. => RoundTrip.shl _ _ _ _
  | .shr .. => RoundTrip.shr _ _ _ _
  | .sar .. => RoundTrip.sar _ _ _ _
  | .rot .. => RoundTrip.rot _ _ _ _
  | .mov .. => RoundTrip.mov _ _ _
  | .neg .. => RoundTrip.neg _ _ _
  | .abs .. => RoundTrip.abs _ _ _
  | .not .. => RoundTrip.not _ _ _
  | .clz .. => RoundTrip.clz _ _ _
  | .popc .. => RoundTrip.popc _ _ _
  | .brev .. => RoundTrip.brev _ _ _
  | .addTyped .. => RoundTrip.addTyped _ _ _ _ _ _
  | .subTyped .. => RoundTrip.subTyped _ _ _ _ _ _
  | .mulTyped .. => RoundTrip.mulTyped _ _ _ _ _ _
  | .mulhi .. => RoundTrip.mulhi _ _ _ _ _
  | .div .. => RoundTrip.div _ _ _ _ _ _
  | .rem .. => RoundTrip.rem _ _ _ _ _
  | .minTyped .. => RoundTrip.minTyped _ _ _ _ _
  | .maxTyped .. => RoundTrip.maxTyped _ _ _ _ _
  | .negTyped .. => RoundTrip.negTyped _ _ _ _ _
  | .absTyped .. => RoundTrip.absTyped _ _ _ _ _
  | .mad .. => RoundTrip.mad _ _ _ _ _ _ _
  | .bfx .. => RoundTrip.bfx _ _ _ _ _
  | .bfi .. => RoundTrip.bfi _ _ _ _ _ _
  | .sel .. => RoundTrip.sel _ _ _ _ _ _
  | .addImm .. => RoundTrip.addImm _ _ _ _
  | .subImm .. => RoundTrip.subImm _ _ _ _
  | .mulImm .. => RoundTrip.mulImm _ _ _ _
  | .andImm .. => RoundTrip.andImm _ _ _ _
  | .orImm .. => RoundTrip.orImm _ _ _ _
  | .xorImm .. => RoundTrip.xorImm _ _ _ _
  | .andnImm .. => RoundTrip.andnImm _ _ _ _
  | .shlImm .. => RoundTrip.shlImm _ _ _ _
  | .shrImm .. => RoundTrip.shrImm _ _ _ _
  | .sarImm .. => RoundTrip.sarImm _ _ _ _
  | .rotImm .. => RoundTrip.rotImm _ _ _ _
  | .minImm .. => RoundTrip.minImm _ _ _ _
  | .minImmU .. => RoundTrip.minImmU _ _ _ _
  | .maxImm .. => RoundTrip.maxImm _ _ _ _
  | .maxImmU .. => RoundTrip.maxImmU _ _ _ _
  | .movi .. => RoundTrip.movi _ _ _
  | .moviLit .. => RoundTrip.moviLit _ _ _
  | .movhi .. => RoundTrip.movhi _ _ _
  | .setp .. => RoundTrip.setp _ _ _ _ _ _ _ _ _
  | .plog .. => RoundTrip.plog _ _ _ _ _ _
  | .pmovToReg .. => RoundTrip.pmovToReg _ _ _
  | .pmovToPred .. => RoundTrip.pmovToPred _ _ _
  | .movs .. => RoundTrip.movs _ _ _
  | .movsw .. => RoundTrip.movsw _ _ _
  | .bra .. => RoundTrip.bra _ _
  | .call .. => RoundTrip.call _ _
  | .brx .. => RoundTrip.brx _ _
  | .callx .. => RoundTrip.callx _ _
  | .ret .. => RoundTrip.ret _
  | .endFibre .. => RoundTrip.endFibre _
  | .yield .. => RoundTrip.yield _
  | .nap .. => RoundTrip.nap _ _
  | .nop .. => RoundTrip.nop _
  | .trap .. => RoundTrip.trap _ _
  | .loopReg .. => RoundTrip.loopReg _ _ _
  | .loopImm .. => RoundTrip.loopImm _ _ _
  | .lbrk .. => RoundTrip.lbrk _ _
  | .fork .. => RoundTrip.fork _ _ _
  | .fadd .. => RoundTrip.fadd _ _ _ _ _
  | .fsub .. => RoundTrip.fsub _ _ _ _ _
  | .fmul .. => RoundTrip.fmul _ _ _ _ _
  | .fdiv .. => RoundTrip.fdiv _ _ _ _ _
  | .ffma .. => RoundTrip.ffma _ _ _ _ _ _
  | .fmin .. => RoundTrip.fmin _ _ _ _
  | .fmax .. => RoundTrip.fmax _ _ _ _
  | .frcp .. => RoundTrip.frcp _ _ _ _
  | .fsqrt .. => RoundTrip.fsqrt _ _ _ _
  | .frsq .. => RoundTrip.frsq _ _ _ _
  | .frnd .. => RoundTrip.frnd _ _ _ _
  | .fclass .. => RoundTrip.fclass _ _ _ _
  | .fcmp .. => RoundTrip.fcmp _ _ _ _ _ _ _ _
  | .dcmp .. => RoundTrip.dcmp _ _ _ _ _ _ _ _
  | .fex2 .. => RoundTrip.fex2 _ _ _
  | .flg2 .. => RoundTrip.flg2 _ _ _
  | .fsin .. => RoundTrip.fsin _ _ _
  | .fcos .. => RoundTrip.fcos _ _ _
  | .ftanh .. => RoundTrip.ftanh _ _ _
  | .dadd .. => RoundTrip.dadd _ _ _ _ _
  | .dmul .. => RoundTrip.dmul _ _ _ _ _
  | .dfma .. => RoundTrip.dfma _ _ _ _ _ _
  | .hadd2 .. => RoundTrip.hadd2 _ _ _ _ _ _
  | .hmul2 .. => RoundTrip.hmul2 _ _ _ _ _ _
  | .hfma2 .. => RoundTrip.hfma2 _ _ _ _ _ _ _
  | .cvt .. => RoundTrip.cvt _ _ _ _ _ _ _
  | .qnt .. => RoundTrip.qnt _ _ _ _ _ _ _
  | .dqnt .. => RoundTrip.dqnt _ _ _ _ _
  | .rand .. => RoundTrip.rand _ _ _
  | .shfl .. => RoundTrip.shfl _ _ _ _ _ _ _ _
  | .vote .. => RoundTrip.vote _ _ _ _ _ _
  | .spred .. => RoundTrip.spred _ _ _ _ _ _ _ _
  | .qswap .. => RoundTrip.qswap _ _ _ _ _
  | .qbc .. => RoundTrip.qbc _ _ _ _ _
  | .ld .. => RoundTrip.ld _ _ _ _ _ _ _ _
  | .st .. => RoundTrip.st _ _ _ _ _ _ _ _
  | .atom .. => RoundTrip.atom _ _ _ _ _ _ _ _ _ _
  | .red .. => RoundTrip.red _ _ _ _ _ _ _ _ _
  | .fence .. => RoundTrip.fence _ _ _
  | .efence .. => RoundTrip.efence _
  | .cpasync .. => RoundTrip.cpasync _ _ _ _ _ _ _ _
  | .gath .. => RoundTrip.gath _ _ _ _ _ _ _ _
  | .waitc .. => RoundTrip.waitc _ _ _
  | .ftest .. => RoundTrip.ftest _ _ _
  | .fcancel .. => RoundTrip.fcancel _ _ _
  | .oqpop .. => RoundTrip.oqpop _ _ _ _
  | .oqrel .. => RoundTrip.oqrel _ _
  | .aslice .. => RoundTrip.aslice _ _ _ _
  | .astop .. => RoundTrip.astop _
  | .ploop .. => RoundTrip.ploop _ _ _
  | .afeed .. => RoundTrip.afeed _ _ _ _ _ _
  | .pwait .. => RoundTrip.pwait _ _ _
  | .barinit .. => RoundTrip.barinit _ _ _
  | .bararr .. => RoundTrip.bararr _ _
  | .barwt .. => RoundTrip.barwt _ _ _
  | .barst .. => RoundTrip.barst _ _ _
  | .cvdecl .. => RoundTrip.cvdecl _ _ _
  | .mma .. => RoundTrip.mma _ _ _ _ _ _ _ _ _ _ _ _ _ _ _ _
  | .accz .. => RoundTrip.accz _ _
  | .accld .. => RoundTrip.accld _ _ _ _
  | .accst .. => RoundTrip.accst _ _ _ _ _ _ _ _
  | .accrd .. => RoundTrip.accrd _ _ _ _
  | .qpush .. => RoundTrip.qpush _ _ _ _ _ _ _
  | .qpop .. => RoundTrip.qpop _ _ _ _
  | .qpeek .. => RoundTrip.qpeek _ _ _ _ _
  | .qcnt .. => RoundTrip.qcnt _ _ _
  | .dcarm .. => RoundTrip.dcarm _ _ _ _ _
  | .dcdec .. => RoundTrip.dcdec _ _
  | .trig .. => RoundTrip.trig _
  | .dwait .. => RoundTrip.dwait _ _
  | .beat .. => RoundTrip.beat _
  | .evpost .. => RoundTrip.evpost _ _
  | .evpop .. => RoundTrip.evpop _ _ _
  | .guess .. => RoundTrip.guess _ _ _ _ _ _ _ _ _ _ _
  | .affirm .. => RoundTrip.affirm _ _ _ _
  | .deny .. => RoundTrip.deny _ _ _ _ _ _
  | .tagq .. => RoundTrip.tagq _ _ _ _ _
  | .puts .. => RoundTrip.puts _ _ _ _ _ _ _ _ _ _
  | .get .. => RoundTrip.get _ _ _ _ _ _ _
  | .radd .. => RoundTrip.radd _ _ _ _ _ _ _ _ _
  | .sigwt .. => RoundTrip.sigwt _ _ _ _ _ _ _
  | .want .. => RoundTrip.want _ _ _ _ _ _ _
  | .announce .. => RoundTrip.announce _ _ _ _ _ _
  | .twalk .. => RoundTrip.twalk _ _ _ _ _
  | .permit .. => RoundTrip.permit _ _ _ _
  | .cseq .. => RoundTrip.cseq _ _ _ _
  | .sysc .. => RoundTrip.sysc _ _
  | .rft .. => RoundTrip.rft _ _ _ _
  | .awrd .. => RoundTrip.awrd _ _ _ _ _
  | .awwr .. => RoundTrip.awwr _ _ _ _ _
  | .hstop .. => RoundTrip.hstop _ _ _ _
  | .hresume .. => RoundTrip.hresume _ _ _
  | .brkp .. => RoundTrip.brkp _ _
  | .trace .. => RoundTrip.trace _ _ _ _ _
  | .mark .. => RoundTrip.mark _ _
  | .rep .. => RoundTrip.rep _ _ _ _ _ _ _
  | .inv .. => RoundTrip.inv _ _ _ _ _ _ _ _ _
  | .jmpt .. => RoundTrip.jmpt _ _
  | .padw .. => RoundTrip.padw _
  | .variableLatencyComplete .. => RoundTrip.variableLatencyComplete _
  | .loadDataArrival .. => RoundTrip.loadDataArrival _
  | .storeAck .. => RoundTrip.storeAck _
  | .scratchpadLoadComplete .. => RoundTrip.scratchpadLoadComplete _
  | .fibreEnd .. => RoundTrip.fibreEnd _
  | .groupResourceRelease .. => RoundTrip.groupResourceRelease _
  | .napWake .. => RoundTrip.napWake _
  | .swapOut .. => RoundTrip.swapOut _
  | .checkpointSpillComplete .. => RoundTrip.checkpointSpillComplete _
  | .pacerFillComplete .. => RoundTrip.pacerFillComplete _
  | .walkComplete .. => RoundTrip.walkComplete _
  | .mmaStart .. => RoundTrip.mmaStart _
  | .mmaComplete .. => RoundTrip.mmaComplete _
  | .copyPieceLand .. => RoundTrip.copyPieceLand _
  | .gathRowArrival .. => RoundTrip.gathRowArrival _ _
  | .barwtTimeout .. => RoundTrip.barwtTimeout _
  | .accTransferComplete .. => RoundTrip.accTransferComplete _
  | .groupPlace .. => RoundTrip.groupPlace _
  | .queueEntryArrive .. => RoundTrip.queueEntryArrive _
  | .qpopReturn .. => RoundTrip.qpopReturn _
  | .dcarmArrive .. => RoundTrip.dcarmArrive _
  | .dcdecArrive .. => RoundTrip.dcdecArrive _
  | .quiescenceRound .. => RoundTrip.quiescenceRound _
  | .handlerTakeRecord .. => RoundTrip.handlerTakeRecord _
  | .replayComplete .. => RoundTrip.replayComplete _
  | .watchedOpResolve .. => RoundTrip.watchedOpResolve _ _
  | .resolutionAtHome .. => RoundTrip.resolutionAtHome _
  | .affirmApply .. => RoundTrip.affirmApply _ _
  | .denyApply .. => RoundTrip.denyApply _ _
  | .resolutionAck .. => RoundTrip.resolutionAck _ _
  | .localCompletion .. => RoundTrip.localCompletion _
  | .collEnd .. => RoundTrip.collEnd _
  | .collLoad .. => RoundTrip.collLoad _
  | .collSend .. => RoundTrip.collSend _
  | .collRadd .. => RoundTrip.collRadd _
  | .collRecvAdd .. => RoundTrip.collRecvAdd _
  | .collRecvCopy .. => RoundTrip.collRecvCopy _
  | .collWrite .. => RoundTrip.collWrite _
  | .collSignal .. => RoundTrip.collSignal _
  | .collWaitge .. => RoundTrip.collWaitge _
  | .tileWalkTile .. => RoundTrip.tileWalkTile _
  | .walkPermitArrive .. => RoundTrip.walkPermitArrive _
  | .sigwtRecheck .. => RoundTrip.sigwtRecheck _
  | .forcedRotation .. => RoundTrip.forcedRotation _
  | .cohortRelease .. => RoundTrip.cohortRelease _ _
  | .queueCreditGrant .. => RoundTrip.queueCreditGrant _ _ _ _
  | .queueDeadlock .. => RoundTrip.queueDeadlock _ _
  | .watchdogTest .. => RoundTrip.watchdogTest _
  | .wsLoadComplete .. => RoundTrip.wsLoadComplete _
  | .dtinvComplete .. => RoundTrip.dtinvComplete _
  | .evictionStopTimeout .. => RoundTrip.evictionStopTimeout _
  | .evictionSave .. => RoundTrip.evictionSave _
  | .packageReset => RoundTrip.packageReset
  | .launch .. => RoundTrip.launch _ _ _
  | .jobwait .. => RoundTrip.jobwait _ _ _
  | .wsload .. => RoundTrip.wsload _ _ _
  | .halt .. => RoundTrip.halt _ _ _
  | .resume .. => RoundTrip.resume _ _ _
  | .kill .. => RoundTrip.kill _ _ _
  | .unlistedCommand .. => RoundTrip.unlistedCommand _ _ _
  | .fabricPacketArrive .. => RoundTrip.fabricPacketArrive _ _
  | .retransmitTimeout .. => RoundTrip.retransmitTimeout _
  | .interestArrive .. => RoundTrip.interestArrive _ _
  | .faceDeadline .. => RoundTrip.faceDeadline _ _
  | .sigwtTimeout .. => RoundTrip.sigwtTimeout _
  | .dbgTokenResult => RoundTrip.dbgTokenResult
  | .traceSample .. => RoundTrip.traceSample _
  | .instructionFetchError .. => RoundTrip.instructionFetchError _ _
  | .hostInboundWrite .. => RoundTrip.hostInboundWrite _ _ _
  | .hostInboundRead .. => RoundTrip.hostInboundRead _ _ _
  | .queueCreditReturn .. => RoundTrip.queueCreditReturn _ _ _ _
  | .wsPhaseEnter .. => RoundTrip.wsPhaseEnter _
  | .wsPhaseLeave .. => RoundTrip.wsPhaseLeave _
  | .wsLoadGo .. => RoundTrip.wsLoadGo _
  | .wsRefreshStart .. => RoundTrip.wsRefreshStart _ _
  | .wsRefreshEnd .. => RoundTrip.wsRefreshEnd _ _
  | .wsScrubVisit .. => RoundTrip.wsScrubVisit _ _ _
  | .dramScrubVisit .. => RoundTrip.dramScrubVisit _ _
  | .dieFatalError .. => RoundTrip.dieFatalError _
  | .dtinvPage .. => RoundTrip.dtinvPage _
  | .dtinvJob .. => RoundTrip.dtinvJob _
  | .dtinvAll .. => RoundTrip.dtinvAll _
  | .dtinvReservedScope .. => RoundTrip.dtinvReservedScope _
  | .ceccClear .. => RoundTrip.ceccClear _
  | .deccClear .. => RoundTrip.deccClear _
  | .cevdropClear .. => RoundTrip.cevdropClear _
  | .fpstatReplayClear .. => RoundTrip.fpstatReplayClear _
  | .ucieLinkDown .. => RoundTrip.ucieLinkDown _
  | .hqSqDoorbell .. => RoundTrip.hqSqDoorbell _ _ _
  | .hqCqDoorbell .. => RoundTrip.hqCqDoorbell _ _ _
  | .lockInterfaceRequest .. => RoundTrip.lockInterfaceRequest _
  | .startInterfaceRequest .. => RoundTrip.startInterfaceRequest _ _
  | .stopInterfaceRequest .. => RoundTrip.stopInterfaceRequest _
  | .getDeviceInterfaceReport .. => RoundTrip.getDeviceInterfaceReport _
  | .lockedFieldWrite .. => RoundTrip.lockedFieldWrite _
  | .ideIntegrityFailure .. => RoundTrip.ideIntegrityFailure _
  | .functionLevelReset .. => RoundTrip.functionLevelReset _
  | .salpolLock => RoundTrip.salpolLock
  | .voltageClockGlitch => RoundTrip.voltageClockGlitch
  | .fuseIntegrityFailure => RoundTrip.fuseIntegrityFailure
  | .powerLimit .. => RoundTrip.powerLimit _
  | .thermalThrottle .. => RoundTrip.thermalThrottle _
  | .thermalShutdown => RoundTrip.thermalShutdown
  | .flitCrcReplay .. => RoundTrip.flitCrcReplay _ _
  | .fabricLinkDown .. => RoundTrip.fabricLinkDown _
  | .fabricPacketForward .. => RoundTrip.fabricPacketForward _
  | .fabricAckArrive .. => RoundTrip.fabricAckArrive _
  | .collChunkArrive .. => RoundTrip.collChunkArrive _
  | .collCreditGrant .. => RoundTrip.collCreditGrant _
  | .collAbortReceive .. => RoundTrip.collAbortReceive _
  | .tileReturn .. => RoundTrip.tileReturn _ _
  | .dbgStepFibre .. => RoundTrip.dbgStepFibre _
  | .dbgStopSpan .. => RoundTrip.dbgStopSpan _
  | .dbgResumeSpan .. => RoundTrip.dbgResumeSpan _
  | .dbgResumeFibre .. => RoundTrip.dbgResumeFibre _
  | .dbgTokenVerify => RoundTrip.dbgTokenVerify
  | .topdownClear .. => RoundTrip.topdownClear _
  | .topdownFreeze .. => RoundTrip.topdownFreeze _ _
  | .noiseModeDirect .. => RoundTrip.noiseModeDirect _
  | .noiseModeLog .. => RoundTrip.noiseModeLog _
  | .noiseModeReplay .. => RoundTrip.noiseModeReplay _
  | .registerWrite .. => RoundTrip.registerWrite _ _ _
  | .fabricLinkRetrain .. => RoundTrip.fabricLinkRetrain _
  | .lifeCycleAdvance .. => RoundTrip.lifeCycleAdvance _

/-- Settles O4: a word by its row's round trip; an event has no words. -/
theorem encodedWordsDecode : Obligations.EncodedWordsDecode := by
  unfold Obligations.EncodedWordsDecode
  intro i hwf hne
  exact (roundTrip i hwf).resolve_left hne

/-- No row of the map reads a reserved major opcode (R47). -/
theorem selectRow_reserved {r : Raw} (hm : 0x14 ≤ r.major.toNat ∧ r.major.toNat ≤ 0x17 ∨ 0x29 ≤ r.major.toNat ∧ r.major.toNat ≤ 0x2B) :
    selectRow r = .error 1 := by
  have hcases : r.major.toNat = 0x14 ∨ r.major.toNat = 0x15 ∨ r.major.toNat = 0x16 ∨ r.major.toNat = 0x17 ∨ r.major.toNat = 0x29 ∨
      r.major.toNat = 0x2A ∨ r.major.toNat = 0x2B := by omega
  rcases hcases with h | h | h | h | h | h | h <;> (rw [selectRow, h]; rfl)
/-- Every rule of an instruction is among the checks of the row that reads it, so what decodes breaks none. -/
theorem wellFormed_of_decode {r : Raw} {i : Instr} (hd : decode r = .ok i) : WellFormed i := by
  have hfaults : i.faults.any (·.1) = false := List.any_eq_false.2 fun x hx => by rw [faults_of_decode hd x hx]; decide
  rw [WellFormed, Instr.legal, hfaults, runsBad_of_decode hd]
  rfl

/-- Settles O5: a reserved major selects no row; what decodes passed its row's checks. -/
theorem decodingRejects : Obligations.DecodingRejects := by
  unfold Obligations.DecodingRejects
  exact ⟨fun _ hm => decode_of_unlisted (selectRow_reserved hm), fun _ _ => wellFormed_of_decode⟩

/-- Settles O3: the words of R30 to R53 written out, by evaluation of the decoder. -/
theorem wordsDecode : Obligations.WordsDecode := by
  unfold Obligations.WordsDecode
  decide +kernel

end Sys2Proof.Encoding

/-! SUPPORT. Memory as a list of cells, the machine at reset, the refresh calendar, the table of atomics, and a restored checkpoint. -/

namespace Sys2Proof.Stores

open Sys2Proof.Machine Sys2Proof.ScalarWords

/-! ## Canonical memories and stores (R5) -/

theorem get_cons_same (k : Nat) (v : Byte) (m : List Host.Cell) : Memory.get ((k, v) :: m) k = v := if_pos rfl
theorem get_cons_other {k a : Nat} (h : k ≠ a) (v : Byte) (m : List Host.Cell) : Memory.get ((k, v) :: m) a = Memory.get m a := if_neg h
theorem wf_cons {k : Nat} {v : Byte} {m : List Host.Cell} :
    Memory.wf ((k, v) :: m) = true ↔ Memory.above k m = true ∧ v ≠ Config.emptyByte ∧ Memory.wf m = true := by
  simp [Memory.wf, and_assoc]
/-- Below the first address of a canonical memory every byte reads as unlisted. -/
theorem get_below {k a : Nat} {v : Byte} {m : List Host.Cell} (hm : Memory.above k m = true) (ha : a < k) :
    Memory.get ((k, v) :: m) a = Config.emptyByte := by
  rw [get_cons_other (Nat.ne_of_gt ha), Memory.get_of_above (Nat.le_of_lt ha) hm]
/-- A canonical memory that reads as unlisted everywhere lists nothing. -/
theorem eq_nil_of_get : ∀ {m : List Host.Cell}, Memory.wf m = true → (∀ a, Memory.get m a = Config.emptyByte) → m = []
  | [], _, _ => rfl
  | (k, v) :: m, hm, h => absurd ((get_cons_same k v m).symm.trans (h k)) (wf_cons.1 hm).2.1
theorem eq_of_get : ∀ {m n : List Host.Cell}, Memory.wf m = true → Memory.wf n = true → (∀ a, Memory.get m a = Memory.get n a) → m = n
  | [], n, _, hn, h => (eq_nil_of_get hn fun a => (h a).symm).symm
  | m, [], hm, _, h => eq_nil_of_get hm h
  | (k, v) :: m, (l, w) :: n, hm, hn, h => by
    obtain ⟨ham, hv, hwm⟩ := wf_cons.1 hm
    obtain ⟨han, hw, hwn⟩ := wf_cons.1 hn
    have hkl : k = l := by
      rcases Nat.lt_trichotomy k l with hlt | heq | hgt
      · exact absurd ((get_cons_same k v m).symm.trans ((h k).trans (get_below han hlt))) hv
      · exact heq
      · exact absurd ((get_cons_same l w n).symm.trans ((h l).symm.trans (get_below ham hgt))) hw
    subst hkl
    have hvw : v = w := (get_cons_same k v m).symm.trans ((h k).trans (get_cons_same k w n))
    have htail : ∀ a, Memory.get m a = Memory.get n a := fun a => by
      by_cases hka : k = a
      · rw [← hka, Memory.get_of_above (Nat.le_refl k) ham, Memory.get_of_above (Nat.le_refl k) han]
      · rw [← get_cons_other hka v m, h a, get_cons_other hka]
    rw [hvw, eq_of_get hwm hwn htail]
/-- Byte i of a number's little-endian bytes. -/
theorem getElem?_leBytes : ∀ (n x : Nat) {i : Nat}, i < n → (leBytes n x)[i]? = some (BitVec.ofNat 8 (x / 256 ^ i))
  | n + 1, x, 0, _ => by rw [leBytes, List.getElem?_cons_zero, Nat.pow_zero, Nat.div_one]
  | n + 1, x, i + 1, h => by
    rw [leBytes, List.getElem?_cons_succ, getElem?_leBytes n _ (by omega), Nat.div_div_eq_div_mul, Nat.pow_succ, Nat.mul_comm 256]
theorem byte_of_dword (w : DWord) (i : Nat) : BitVec.ofNat 8 (w.toNat / 256 ^ i) = (w >>> (8 * i)).setWidth 8 := by
  apply BitVec.eq_of_toNat_eq
  rw [BitVec.toNat_ofNat, BitVec.toNat_setWidth, BitVec.toNat_ushiftRight, Nat.shiftRight_eq_div_pow, Nat.pow_mul]
theorem leNat_leBytes : ∀ x n : Nat, leNat (leBytes n x) = x % 256 ^ n
  | x, 0 => (Nat.mod_one x).symm
  | x, n + 1 => by
    rw [leBytes, leNat, leNat_leBytes, BitVec.toNat_ofNat, Nat.pow_succ' (m := 256)]
    exact (Nat.mod_mul (a := 256)).symm

/-- Settles O10: two canonical lists that read alike have the same first cell, and so on down; a store is `Memory.putAll`. -/
theorem memoryReadsBack : Obligations.MemoryReadsBack := by
  unfold Obligations.MemoryReadsBack
  refine ⟨fun _ _ => eq_of_get, fun s loc bs hs => ⟨State.store_wf loc bs hs, fun i h => Memory.get_putAll_in bs loc i h hs,
    fun a h => Memory.get_putAll_other bs loc s.mem a h⟩, fun w i hi => ?_, leNat_leBytes⟩
  rw [getElem?_leBytes 8 _ hi, byte_of_dword]

/-! ## Reset (R105, R210, R308) -/

theorem look_other {α : Type} {k j : Nat} (h : j ≠ k) (v : α) : look k [(j, v)] = none := if_neg h

/-- Settles O7: nothing is listed at reset. -/
theorem resetMemoryIsCanonical : Obligations.ResetMemoryIsCanonical := by
  unfold Obligations.ResetMemoryIsCanonical
  exact ⟨State.reset_mem_wf, fun _ => rfl⟩

/-- Settles O6: each field is what `State.reset` lists; a unit that no table lists is at its own reset. -/
theorem resetHolds : Obligations.ResetHolds := by
  unfold Obligations.ResetHolds
  refine ⟨rfl, rfl, rfl, rfl, rfl, ?_, fun c => ⟨rfl, rfl, rfl, rfl, rfl, rfl, rfl, rfl, rfl⟩, fun d => ⟨rfl, rfl, rfl, rfl, rfl, rfl⟩,
    rfl, rfl, rfl, rfl, rfl, fun t ht => look_other (Ne.symm ht) _⟩
  intro f hf
  obtain ⟨c, -, rfl⟩ := List.mem_map.1 hf
  rfl

/-! ## The refresh calendar (R243, R244) -/

theorem inWindow_iff (g t : Nat) : inWindow g t = true ↔ (t + 96000 - 12000 * g) % 96000 < 3000 := decide_eq_true_iff
theorem inWindow_eq_decide (g t : Nat) : inWindow g t = decide ((t + 96000 - 12000 * g) % 96000 < 3000) := rfl
/-- %wscal's fields as one number: bit 31, the bank group, the clk until the change. -/
theorem wscal_toNat {c : Nat} (t : Nat) (hc : c < 8) :
    (wscal c t).toNat = if refreshPhase c t < 3000 then 2 ^ 31 + c * 2 ^ 25 + (3000 - refreshPhase c t) else c * 2 ^ 25 + (96000 - refreshPhase c t) := by
  have hph : refreshPhase c t < 96000 := Nat.mod_lt _ (by decide)
  have hjoin : ∀ n, n < 2 ^ 25 → c <<< 25 ||| n = c * 2 ^ 25 + n := fun n hn => by
    rw [← Nat.shiftLeft_add_eq_or_of_lt hn, Nat.shiftLeft_eq]
  unfold wscal
  dsimp only
  split
  next hw =>
    rw [Nat.or_assoc, hjoin _ (by omega), ← Nat.shiftLeft_add_eq_or_of_lt (by omega), w32, BitVec.toNat_ofNat]
    omega
  next hw =>
    rw [hjoin _ (by omega), w32, BitVec.toNat_ofNat]
    omega
theorem getLsbD_31 (w : Word) : w.getLsbD 31 = decide (2 ^ 31 ≤ w.toNat) := by
  have hlt := w.isLt
  rw [← BitVec.testBit_toNat, Nat.testBit_eq_decide_div_mod_eq, decide_eq_decide]
  omega

/-- Settles O58: %wscal is `wscal_toNat`; the windows of two bank groups start 12000 clk apart and last 3000. -/
theorem theRefreshCalendarIsRead : Obligations.TheRefreshCalendarIsRead := by
  unfold Obligations.TheRefreshCalendarIsRead
  refine ⟨fun c t hc => ?_, fun g h t hg hh hwg hwh => ?_⟩
  · obtain ⟨hin, hout⟩ := ite_eq_iff'.1 (wscal_toNat t hc).symm
    simp only [getLsbD_31, inWindow_eq_decide, refreshPhase] at hin hout ⊢
    generalize (wscal c t).toNat = v at hin hout ⊢
    refine ⟨?_, by omega, by omega, by omega, by omega, ?_, fun j hj => ?_⟩
    · rw [decide_eq_decide]
      omega
    · rw [← decide_not, decide_eq_decide]
      omega
    · rw [decide_eq_decide]
      omega
  · rw [inWindow_iff] at hwg hwh
    omega

/-! ## Atomics (R167) -/

theorem exact_eq (n x : Nat) : exact true n x = if 2 ^ (n - 1) ≤ x then (x : Int) - 2 ^ n else (x : Int) := by
  simp [exact]
theorem atomNew_smin (n old b b2 : Nat) : exact true n (atomNew .smin n old b b2) = min (exact true n old) (exact true n b) := by
  simp only [atomNew, decide_eq_true_eq]
  split <;> omega
theorem atomNew_smax (n old b b2 : Nat) : exact true n (atomNew .smax n old b b2) = max (exact true n old) (exact true n b) := by
  simp only [atomNew, decide_eq_true_eq]
  split <;> omega

/-- Settles O34: each row of R167's table is the model's; the signed rows are compared as exact integers. -/
theorem atomicsFollowTheirTable : Obligations.AtomicsFollowTheirTable := by
  unfold Obligations.AtomicsFollowTheirTable
  intro n old b b2 hn hold hb hb2
  have hmod : old + 1 ≤ 2 ^ n := hold
  refine ⟨rfl, ?_, ?_, rfl, rfl, fun j => Nat.testBit_and .., fun j => Nat.testBit_or .., fun j => Nat.testBit_xor .., rfl, rfl, fun h => if_pos h,
    fun h => ?_, fun h => ?_, rfl, rfl, rfl, rfl, rfl⟩
  · have h := atomNew_smin n old b b2
    simpa only [exact_eq] using h
  · have h := atomNew_smax n old b b2
    simpa only [exact_eq] using h
  · simp only [atomNew, if_neg (Nat.ne_of_gt h)]
    exact Nat.mod_lt _ h
  · simp only [atomNew, if_neg (show ¬b = 0 by omega)]
    rw [Nat.mod_eq_of_lt (show old + 1 < 2 ^ n by omega)]
    split
    next he => rw [he, Nat.mod_self]
    next he => exact Nat.mod_eq_of_lt (by omega)

/-! ## Roll-backs (R286, R293) -/

theorem restore_reg {f : Fibre} (c : Checkpoint) {r : Nat} (h : r < f.regs.length) : (f.restore c).reg r = (c.regs.getD r none).getD 0 := by
  simp [Fibre.restore, Fibre.reg, h]
theorem mem_restore_handles (f : Fibre) (c : Checkpoint) (p : Nat × Nat) :
    p ∈ (f.restore c).handles ↔ p ∈ f.handles ∧ p.2 < c.num ∧ (c.regs.getD p.1 none).isSome = true := by
  simp [Fibre.restore]

/-- Settles O46: registers and handles as `restore_reg` and `mem_restore_handles` say; every other field is the checkpoint's or the fibre's. -/
theorem rollbacksRestore : Obligations.RollbacksRestore := by
  unfold Obligations.RollbacksRestore
  intro f c
  exact ⟨fun r hr => restore_reg c hr, mem_restore_handles f c, rfl, rfl, rfl, rfl, rfl, rfl, rfl, rfl, rfl, rfl, rfl, rfl, rfl, rfl, rfl, rfl, rfl,
    rfl, rfl⟩

end Sys2Proof.Stores

/-! SUPPORT. When a word executes and what a word that is done, or discarded, leaves as it was (R33, R41, R43). -/

namespace Sys2Proof.Frames

open Sys2Proof.Machine

/-! ## Passing a word -/

/-- Passing a word moves the place in the code, the loops and the repeat. -/
theorem pass_eq (f : Fibre) (n : Nat) : ∃ rp hdr lc loops rc rep,
    f.pass n = { f with rp := rp, hdr := hdr, lc := lc, loops := loops, rc := rc, rep := rep, run := .ready } := by
  have hgo : ∀ (g : Fibre) (idx : Nat), ∃ rp hdr lc loops rep,
      (if idx < g.header.count || g.inv.isSome then { g with rp := ⟨g.rp.hdr, idx⟩, run := .ready } else g.leave g.rp.hdr g.nextClause) =
        { g with rp := rp, hdr := hdr, lc := lc, loops := loops, rep := rep, run := .ready } := fun g idx => by
    split
    · exact ⟨_, g.hdr, g.lc, g.loops, g.rep, rfl⟩
    · exact ⟨_, _, _, _, _, rfl⟩
  unfold Fibre.pass
  dsimp only
  split
  next hrep =>
    obtain ⟨rp, hdr, lc, loops, rep, h⟩ := hgo f (f.rp.idx + n)
    exact ⟨rp, hdr, lc, loops, f.rc, rep, h⟩
  next p hrep =>
    split
    · obtain ⟨rp, hdr, lc, loops, rep, h⟩ := hgo { f with rc := 0, rep := none } (f.rp.idx + 1 + n)
      exact ⟨rp, hdr, lc, loops, 0, rep, h⟩
    · exact ⟨f.rp, f.hdr, f.lc, f.loops, f.rc - 1, f.rep, rfl⟩
/-- Inside its clause, and outside a repeat, a fibre goes on to the next word (R43). -/
theorem pass_inside {f : Fibre} {n : Nat} (hrep : f.rep = none) (h : f.rp.idx + n < f.header.count) :
    f.pass n = { f with rp := ⟨f.rp.hdr, f.rp.idx + n⟩, run := .ready } := by
  unfold Fibre.pass
  simp [hrep, h]
/-- What every word that has been issued and passed leaves of its fibre g, which was f before it. -/
theorem passed_agrees (g f : Fibre) (i : Instr) (e : Bool) (clk : Nat) : let x := (g.counted f i e clk).pass i.size
    g.Agrees x ∧ x.regs = g.regs ∧ x.preds = g.preds ∧ x.astat = g.astat ∧ x.mxerr = g.mxerr ∧ x.poison = g.poison ∧ x.handles = g.handles ∧
      x.issued = f.issued + 1 := by
  obtain ⟨rp, hdr, lc, loops, rc, rep, h⟩ := pass_eq (g.counted f i e clk) i.size
  intro x
  rw [show x = _ from h]
  exact ⟨rfl, rfl, rfl, rfl, rfl, rfl, rfl, rfl⟩
theorem passed_inside {g f : Fibre} {i : Instr} {e : Bool} {clk : Nat} (hrep : g.rep = none) (h : g.rp.idx + i.size < g.header.count) :
    let x := (g.counted f i e clk).pass i.size
    x.rp = ⟨g.rp.hdr, g.rp.idx + i.size⟩ ∧ x.hdr = g.hdr ∧ x.lc = g.lc ∧ x.loops = g.loops ∧ x.rc = g.rc := by
  intro x
  rw [show x = _ from pass_inside (f := g.counted f i e clk) hrep h]
  exact ⟨rfl, rfl, rfl, rfl, rfl⟩

/-! ## The machine after an issued word -/

section
variable (s : State) (k : Nat) (x f : Fibre) (i : Instr) (e : Bool)

theorem unitsSame_issued : UnitsSame s ((s.setFibre k x).noteIssue k f i e) := by simp [UnitsSame]
theorem othersSame_issued : OthersSame k s ((s.setFibre k x).noteIssue k f i e) := by
  refine ⟨by simp, fun j hj => ?_⟩
  rw [State.noteIssue_fibre?, State.setFibre_fibre?_other hj]
theorem fibre?_issued {f0 : Fibre} (h : s.fibre? k = some f0) : ((s.setFibre k x).noteIssue k f i e).fibre? k = some x := by
  rw [State.noteIssue_fibre?, State.setFibre_fibre?_same h]

end

/-- Settles O11: a word that is done is the fibre set to its passed state and its issue noted; passing is `pass_eq`. -/
theorem aWordDoneLeavesTheRest : Obligations.AWordDoneLeavesTheRest := by
  unfold Obligations.AWordDoneLeavesTheRest
  intro i s u t f g f0 hleaves hexec hinv hfib
  obtain rfl : u.finish s.cur i f g = t := Host.Outcome.next.inj (hleaves.symm.trans hexec)
  rw [State.finish_eq hinv hfib]
  obtain ⟨hagr, hregs, hpreds, hastat, hmxerr, hpoison, hhandles, hissued⟩ := passed_agrees g f i true u.clk
  exact ⟨unitsSame_issued .., othersSame_issued .., by simp, by simp, by simp, by simp, _, fibre?_issued u s.cur _ f i true hfib,
    hagr, hregs, hpreds, hastat, hmxerr, hpoison, hhandles, hissued, passed_inside⟩

/-! ## What stands against a word (R259) -/

section
variable {s : State} {k : Nat} {f : Fibre} {i : Instr}

theorem dependence_none (hslots : ∀ x ∈ i.sources ++ i.slots, x ∉ s.pendingSlots k)
    (hreads : ∀ r ∈ i.reads.flatMap Run.regs, f.handle? r = none) : s.dependence k f i = none := by
  have hops : ((s.opsOf k).find? fun o => o.targets.any (i.sources.filter (!(s.latchedRegs f i).contains ·) ++ i.slots).contains) = none := by
    rw [List.find?_eq_none]
    intro o ho hany
    obtain ⟨x, hx, hnamed⟩ := List.any_eq_true.1 hany
    rw [List.contains_iff_mem, List.mem_append] at hnamed
    have hin : x ∈ i.sources ++ i.slots := List.mem_append.2 (hnamed.imp_left List.mem_of_mem_filter)
    exact hslots x hin (List.mem_flatMap.2 ⟨o, ho, hx⟩)
  have hhandles : ((i.reads.flatMap Run.regs).any fun r => (f.handle? r).isSome && !(s.latchedRegs f i).contains r) = false := by
    rw [List.any_eq_false]
    intro r hr
    simp [hreads r hr]
  unfold State.dependence
  simp only [hops, hhandles, Bool.false_eq_true, if_false]
theorem stallShort_none (hf : f.flight = []) : s.stallShort k f i = none := by
  unfold State.stallShort
  simp [hf]
theorem badTarget_none (ht : ∀ a, f.target k i = some a → badHeader a = false) : s.badTarget k f i = none := by
  unfold State.badTarget
  cases h : f.target k i with
  | none => rfl
  | some a => simp [ht a h]
theorem privilege_none (hp : i.privileged = true → f.privileged = true) : s.privilege k f i = none := by
  unfold State.privilege
  rw [if_neg]
  cases h : i.privileged
  · simp
  · simp [hp h]
theorem poisoned?_none (hf : f.poison = []) : s.poisoned? k f i = none := by
  have hreads : poisonReads i f = [] := by
    unfold poisonReads
    dsimp only
    rw [hf]
    refine List.filter_eq_nil_iff.2 fun p hp => ?_
    obtain ⟨_, -, hfind⟩ := List.mem_filterMap.1 hp
    cases hfind
  unfold State.poisoned?
  rw [hreads]
  rfl
theorem report_none (hr : i.reports = true → f.reported = true ∨ f.reportable = 0) : s.report k f i = none := by
  unfold State.report
  rw [if_neg]
  cases h : i.reports
  · simp
  · rcases hr h with h | h <;> simp [h]

end

/-- A word whose guard predicate is known and does not hold is discarded (R33). -/
theorem gate_off {i : Instr} {s : State} {f : Fibre} (hf : s.fibre? s.cur = some f) (hg : i.head.g = true)
    (hknown : 128 + f.header.guard ∉ s.pendingSlots s.cur) (hoff : f.readPred s.cur f.header.guard = f.header.pol) : gate i s = .off f := by
  unfold gate
  simp [hf, hg, hknown, hoff, Fibre.guardHolds]

/-- Settles O22: each of the gate's conditions by its lemma; a discarded word is the fibre passed and its issue noted. -/
theorem wordsExecuteOrAreDiscarded : Obligations.WordsExecuteOrAreDiscarded := by
  unfold Obligations.WordsExecuteOrAreDiscarded
  refine ⟨fun i s f hf hguard hslots hreads hflight hpoison htarget hpriv hreport => ?_, fun i s f body hf hg hknown hoff => ⟨?_, ?_⟩⟩
  · unfold Executes gate
    simp only [hf, dependence_none hslots hreads, stallShort_none hflight, badTarget_none htarget, privilege_none hpriv, poisoned?_none hpoison,
      report_none hreport, firstOf]
    cases h : i.head.g
    · simp
    · obtain ⟨hpend, hholds⟩ := hguard h
      simp [hpend, hholds]
  · unfold issueWord
    rw [gate_off hf hg hknown hoff]
  · obtain ⟨hagr, hregs, hpreds, hastat, hmxerr, -⟩ := passed_agrees f f i false s.clk
    exact ⟨unitsSame_issued .., othersSame_issued .., State.noteIssue_ops .., State.noteIssue_clk .., State.noteIssue_nextId ..,
      _, fibre?_issued s s.cur _ f i false hf, hagr, hregs, hpreds, hastat, hmxerr, fun hrep _ h => (passed_inside hrep h).1⟩

end Sys2Proof.Frames

/-! SUPPORT. The arithmetic words: typed integers and division (R95 to R97), floating point and its comparisons (R9, R116 to R123),
conversions and noise (R124 to R127). -/

namespace Sys2Proof.Arithmetic

open Sys2Proof.Machine Sys2Proof.ScalarWords

/-! ## Shapes of words that execute, as the statements name them -/

section
variable {i : Instr} {s u : State} {f g : Fibre} {d n : Nat} {r : Rnd} {ns : List Nat}

theorem setsLater_lateWord {v : Nat → Fibre → List Word × Conds} (hi : exec i s = lateWord i d s v) (hx : Executes i s f) :
    SetsLater i s s f f (runOf d (v s.cur f).1) (v s.cur f).2 := hi.trans (lateWord_go hx d v)
theorem leaves_roundWord {v : Nat → Fibre → List Nat → List Word × Conds} (hi : exec i s = roundWord i d r n s v)
    (hn : Draws s f (srDraws r n) false ns u g) (hx : Executes i s f) :
    Leaves i s u f ((g.setRun d (v s.cur f ns).1).raise (v s.cur f ns).2) := hi.trans (roundWord_go hx hn v)
theorem setsLater_lateRoundWord {v : Nat → Fibre → List Nat → List Word × Conds} (hi : exec i s = lateRoundWord i d r n s v)
    (hn : Draws s f (srDraws r n) false ns u g) (hx : Executes i s f) :
    SetsLater i s u f g (runOf d (v s.cur f ns).1) (v s.cur f ns).2 := hi.trans (lateRoundWord_go hx hn v)

end

/-! ## Typed integers -/

theorem tyMin_le_tyMax (t : Ty) : tyMin t ≤ tyMax t := by cases t <;> decide
/-- .sat clamps to the type and raises SAT where it does. -/
theorem clampTo_eq (t : Ty) (sat : Bool) (v : Int) : clampTo t sat v =
    (if sat then max (tyMin t) (min (tyMax t) v) else v, if sat && (v < tyMin t || tyMax t < v) then { sat := true } else Conds.none) := by
  have h := tyMin_le_tyMax t
  unfold clampTo
  cases sat
  · simp
  · by_cases hlo : v < tyMin t
    · simp [hlo, show min (tyMax t) v = v by omega, show max (tyMin t) v = tyMin t by omega]
    · by_cases hhi : tyMax t < v
      · simp [hlo, hhi, show min (tyMax t) v = tyMax t by omega, show max (tyMin t) (tyMax t) = tyMax t by omega]
      · simp [hlo, hhi, show min (tyMax t) v = v by omega, show max (tyMin t) v = v by omega]
theorem clampTo_inside {t : Ty} {v : Int} (sat : Bool) (hlo : tyMin t ≤ v) (hhi : v ≤ tyMax t) : clampTo t sat v = (v, Conds.none) := by
  unfold clampTo
  simp [show ¬v < tyMin t by omega, show ¬v > tyMax t by omega]

section
variable {i : Instr} {s : State} {f : Fibre} {d a b : Reg} {ty : Ty} {sat : Bool}

/-- A word on an exact integer result x: the result clamped under .sat, with its condition. -/
def SetsClamped (i : Instr) (s : State) (f : Fibre) (d : Reg) (ty : Ty) (sat : Bool) (x : Int) : Prop :=
  Sets i s f d.toNat (intResult ty (if sat then max (tyMin ty) (min (tyMax ty) x) else x))
    (if sat && (x < tyMin ty || tyMax ty < x) then { sat := true } else Conds.none)
theorem setsClamped_of_clampTo {x : Int} (h : Sets i s f d.toNat (intResult ty (clampTo ty sat x).1) (clampTo ty sat x).2) :
    SetsClamped i s f d ty sat x := by
  rw [clampTo_eq] at h
  exact h
theorem setsClamped_typedWord {op : Int → Int → Int} (hi : exec i s = typedWord i d a b ty sat op s) (hx : Executes i s f) :
    SetsClamped i s f d ty sat (op (f.intOperand s.cur ty a) (f.intOperand s.cur ty b)) :=
  setsClamped_of_clampTo (sets_aluWord (v := fun k f =>
    let r := clampTo ty sat (op (f.intOperand k ty a) (f.intOperand k ty b))
    (intResult ty r.1, r.2)) hi hx)
theorem setsClamped_typedUnWord {op : Int → Int} (hi : exec i s = typedUnWord i d a ty sat op s) (hx : Executes i s f) :
    SetsClamped i s f d ty sat (op (f.intOperand s.cur ty a)) :=
  setsClamped_of_clampTo (sets_aluWord (v := fun k f =>
    let r := clampTo ty sat (op (f.intOperand k ty a))
    (intResult ty r.1, r.2)) hi hx)

end

theorem setsClamped_mad (h : Head) (d a b c : Reg) (ty : Ty) (sat : Bool) {s : State} {f : Fibre} (hx : Executes (.mad h d a b c ty sat) s f) :
    SetsClamped (.mad h d a b c ty sat) s f d ty sat
      (f.intOperand s.cur ty a * f.intOperand s.cur ty b + f.intOperand s.cur ty c) :=
  setsClamped_of_clampTo (sets_aluWord (v := fun k f =>
    let r := clampTo ty sat (f.intOperand k ty a * f.intOperand k ty b + f.intOperand k ty c)
    (intResult ty r.1, r.2)) (exec_mad h d a b c ty sat s) hx)
theorem operand_lt (f : Fibre) (k : Nat) (ty : Ty) (a : Reg) : f.operand k ty a < 2 ^ ty.width := by
  unfold Fibre.operand
  cases h : ty.is64
  · rw [if_neg (by decide)]
    exact Nat.mod_lt _ (Nat.two_pow_pos _)
  · rw [if_pos rfl, show ty.width = 64 by revert h; cases ty <;> decide]
    exact BitVec.isLt _
/-- An operand lies in its type's range (R91). -/
theorem intOperand_range (f : Fibre) (k : Nat) {ty : Ty} (a : Reg) :
    tyMin ty ≤ f.intOperand k ty a ∧ f.intOperand k ty a ≤ tyMax ty := by
  have hlt := operand_lt f k ty a
  have hhalf : 2 ^ ty.width = 2 * 2 ^ (ty.width - 1) := by cases ty <;> rfl
  unfold Fibre.intOperand exact tyMin tyMax
  generalize f.operand k ty a = x at hlt
  generalize 2 ^ ty.width = p at hlt hhalf
  generalize 2 ^ (ty.width - 1) = q at hhalf
  cases ty.signed
  · simp only [Bool.false_and, Bool.false_eq_true, if_false]
    omega
  · simp only [Bool.true_and, if_true, decide_eq_true_eq]
    split <;> omega
theorem tyMin_signed {ty : Ty} (h : ty.signed = true) : tyMin ty = -(2 ^ (ty.width - 1) : Nat) := if_pos h
theorem tyMax_signed {ty : Ty} (h : ty.signed = true) : tyMax ty = (2 ^ (ty.width - 1) : Nat) - 1 := if_pos h
theorem tyMin_unsigned {ty : Ty} (h : ty.signed = false) : tyMin ty = 0 := if_neg (by simp [h])
/-- A quotient lies in its type's range, but for MIN by −1 (R96). -/
theorem tdiv_range {ty : Ty} {x y : Int} (hx : tyMin ty ≤ x ∧ x ≤ tyMax ty) (hy : tyMin ty ≤ y) (hno : ¬(y = -1 ∧ x = tyMin ty)) :
    tyMin ty ≤ x.tdiv y ∧ x.tdiv y ≤ tyMax ty := by
  obtain ⟨hlo, hhi⟩ := hx
  have habs : (x.tdiv y).natAbs = x.natAbs / y.natAbs := Int.natAbs_tdiv x y
  cases h : ty.signed
  · rw [tyMin_unsigned h] at hlo hy ⊢
    have hpos : 0 ≤ x.tdiv y := Int.tdiv_nonneg hlo hy
    have hle : x.natAbs / y.natAbs ≤ x.natAbs := Nat.div_le_self _ _
    omega
  · have hbig : 2 ≤ 2 ^ (ty.width - 1) := by cases ty <;> decide
    rw [tyMin_signed h] at hlo hno ⊢
    rw [tyMax_signed h] at hhi ⊢
    generalize 2 ^ (ty.width - 1) = q at *
    by_cases hone : y = -1
    · rw [hone, Int.tdiv_neg, Int.tdiv_one]
      omega
    · by_cases hsmall : y = 0 ∨ y = 1
      · rcases hsmall with rfl | rfl
        · rw [Int.tdiv_zero]
          omega
        · rw [Int.tdiv_one]
          omega
      · have hhalf : x.natAbs / y.natAbs ≤ x.natAbs / 2 := Nat.div_le_div_left (by omega) (by decide)
        omega
/-- Wrapping to the type forgets a multiple of its modulus. -/
theorem intResult_neg_tyMin {ty : Ty} (h : ty.signed = true) : intResult ty (-tyMin ty) = intResult ty (tyMin ty) := by
  have hmod : (-tyMin ty).emod (2 ^ ty.width : Nat) = (tyMin ty).emod (2 ^ ty.width : Nat) := by
    revert h
    cases ty <;> decide
  unfold intResult
  rw [hmod]
theorem signed_of_intOperand_neg {f : Fibre} {k : Nat} {ty : Ty} {a : Reg} (h : f.intOperand k ty a = -1) : ty.signed = true := by
  by_contra hs
  have hlo := (intOperand_range f k (ty := ty) a).1
  rw [tyMin_unsigned (Bool.eq_false_iff.2 hs)] at hlo
  omega
theorem divInt_zero (ty : Ty) (sat : Bool) (x : Int) : divInt ty sat x 0 = (if ty.signed && x < 0 then tyMin ty else tyMax ty, { dz := true }) := by
  unfold divInt
  cases ty.signed
  · simp
  · by_cases h : x < 0
    · simp [h]
    · simp [h, Int.not_lt.1 h]
theorem divInt_minByMinusOne {ty : Ty} (sat : Bool) (h : ty.signed = true) :
    divInt ty sat (tyMin ty) (-1) = (if sat then tyMax ty else -tyMin ty, if sat then { sat := true } else Conds.none) := by
  have hout : tyMax ty < -tyMin ty := by
    rw [tyMin_signed h, tyMax_signed h]
    generalize 2 ^ (ty.width - 1) = q
    omega
  have hlow : ¬-tyMin ty < tyMin ty := by
    rw [tyMin_signed h]
    generalize 2 ^ (ty.width - 1) = q
    omega
  unfold divInt clampTo
  cases sat <;> simp [hout, hlow]

section
variable (h : Head) (d a b : Reg) (ty : Ty) (sat : Bool) {s : State} {f : Fibre}

theorem setsLater_div (hx : Executes (.div h d a b ty sat) s f) : SetsLater (.div h d a b ty sat) s s f f
    (runOf d.toNat (intResult ty (divInt ty sat (f.intOperand s.cur ty a) (f.intOperand s.cur ty b)).1))
    (divInt ty sat (f.intOperand s.cur ty a) (f.intOperand s.cur ty b)).2 :=
  setsLater_lateWord (v := fun k f =>
    let r := divInt ty sat (f.intOperand k ty a) (f.intOperand k ty b)
    (intResult ty r.1, r.2)) (exec_div h d a b ty sat s) hx
theorem setsLater_rem (hx : Executes (.rem h d a b ty) s f) : SetsLater (.rem h d a b ty) s s f f
    (runOf d.toNat (intResult ty (remInt (f.intOperand s.cur ty a) (f.intOperand s.cur ty b)).1))
    (remInt (f.intOperand s.cur ty a) (f.intOperand s.cur ty b)).2 :=
  setsLater_lateWord (v := fun k f =>
    let r := remInt (f.intOperand k ty a) (f.intOperand k ty b)
    (intResult ty r.1, r.2)) (exec_rem h d a b ty s) hx

end

/-- Settles O16: the typed words clamp as `clampTo_eq` says; a quotient stays in its type but for MIN by −1, which wraps to itself. -/
theorem typedFormsCompute : Obligations.TypedFormsCompute := by
  unfold Obligations.TypedFormsCompute
  refine ⟨fun h d a b c ty sat s f => ⟨?_, ?_, ?_, ?_, ?_, ?_, ?_, ?_, ?_⟩, fun h d a b ty sat s f _ => ⟨fun hy => ⟨fun hx => ?_, fun hx => ?_⟩,
    fun hy hmin => ⟨fun hx => ?_, fun hx => ?_⟩, fun hy hno => ⟨fun hx => ?_, fun hx => ?_⟩⟩⟩
  · exact setsClamped_typedWord (exec_addTyped h d a b ty sat s)
  · exact setsClamped_typedWord (exec_subTyped h d a b ty sat s)
  · exact setsClamped_typedWord (exec_mulTyped h d a b ty sat s)
  · exact setsClamped_typedWord (op := fun x y => (x * y).fdiv (2 ^ ty.width : Nat)) (exec_mulhi h d a b ty s)
  · exact setsClamped_typedWord (op := min) (exec_minTyped h d a b ty s)
  · exact setsClamped_typedWord (op := max) (exec_maxTyped h d a b ty s)
  · rw [← Int.zero_sub]
    exact setsClamped_typedUnWord (op := fun x => 0 - x) (exec_negTyped h d a ty sat s)
  · simp only [← Int.zero_sub]
    exact setsClamped_typedUnWord (op := fun x => if x < 0 then 0 - x else x) (exec_absTyped h d a ty sat s)
  · exact setsClamped_mad h d a b c ty sat
  · have hset := setsLater_div h d a b ty sat hx
    rw [hy, divInt_zero] at hset
    exact hset
  · have hset := setsLater_rem h d a b ty hx
    rw [hy] at hset
    exact hset
  · have hsigned := signed_of_intOperand_neg hy
    have hset := setsLater_div h d a b ty sat hx
    rw [hy, hmin, divInt_minByMinusOne sat hsigned] at hset
    rw [hmin]
    cases sat
    · simp only [Bool.false_eq_true, if_false, intResult_neg_tyMin hsigned] at hset ⊢
      exact hset
    · exact hset
  · have hset := setsLater_rem h d a b ty hx
    rw [hy] at hset
    simp only [remInt, Int.tmod_neg, Int.tmod_one] at hset
    exact hset
  · have hset := setsLater_div h d a b ty sat hx
    obtain ⟨hlo, hhi⟩ := tdiv_range (intOperand_range f s.cur a) (intOperand_range f s.cur b).1 hno
    rw [divInt, if_neg hy, clampTo_inside sat hlo hhi] at hset
    exact hset
  · have hset := setsLater_rem h d a b ty hx
    rw [remInt, if_neg hy] at hset
    exact hset

end Sys2Proof.Arithmetic

/-! SUPPORT. Floating-point words, their comparisons, conversions and noise (R9, R116 to R127). -/

namespace Sys2Proof.Floats

open Sys2Proof.Machine Sys2Proof.ScalarWords Sys2Proof.Arithmetic

/-! ## Words of one rounding (R116 to R119, R121 to R123) -/

theorem float_f32 (f : Fibre) (k : Nat) (a : Reg) : f.float k .f32 a = (f.read k a.toNat).toNat := Nat.mod_eq_of_lt (f.read k a.toNat).isLt
theorem float_f64 (f : Fibre) (k : Nat) (a : Reg) : f.float k .f64 a = (f.readPair k a.toNat).toNat := rfl

section
variable {i : Instr} {s u : State} {f g : Fibre} {d a b c : Reg} {r : Rnd} {ns : List Nat}

theorem leaves_floatBin_f32 {op : FF → Rnd → Nat → Nat → Nat → Nat × Conds} (hi : exec i s = floatBin i .f32 d a b r op s)
    (hn : Draws s f (srDraws r 1) false ns u g) (hx : Executes i s f) :
    let v := op .f32 r (src s f a).toNat (src s f b).toNat (ns.getD 0 0)
    Leaves i s u f ((g.setRun d.toNat [w32 v.1]).raise v.2) := by
  have h := leaves_roundWord (v := fun k f ns =>
    let x := op (ffOf .f32) r (f.float k .f32 a) (f.float k .f32 b) (ns.getD 0 0)
    ((ffOf .f32).words x.1, x.2)) hi hn hx
  simp only [float_f32] at h
  exact h
theorem leaves_floatBin_f64 {op : FF → Rnd → Nat → Nat → Nat → Nat × Conds} (hi : exec i s = floatBin i .f64 d a b r op s)
    (hn : Draws s f (srDraws r 1) false ns u g) (hx : Executes i s f) :
    let v := op .f64 r (f.readPair s.cur a.toNat).toNat (f.readPair s.cur b.toNat).toNat (ns.getD 0 0)
    Leaves i s u f ((g.setRun d.toNat (dwords (w64 v.1))).raise v.2) :=
  leaves_roundWord (v := fun k f ns =>
    let x := op (ffOf .f64) r (f.float k .f64 a) (f.float k .f64 b) (ns.getD 0 0)
    ((ffOf .f64).words x.1, x.2)) hi hn hx
theorem leaves_floatUn {op : FF → Rnd → Nat → Nat → Nat × Conds} (hi : exec i s = floatUn i d a r op s)
    (hn : Draws s f (srDraws r 1) false ns u g) (hx : Executes i s f) :
    let v := op .f32 r (src s f a).toNat (ns.getD 0 0)
    Leaves i s u f ((g.setRun d.toNat [w32 v.1]).raise v.2) := by
  have h := leaves_roundWord (v := fun k f ns =>
    let x := op .f32 r (f.float k .f32 a) (ns.getD 0 0)
    ([w32 x.1], x.2)) hi hn hx
  simp only [float_f32] at h
  exact h
theorem leaves_floatFma_f32 (hi : exec i s = floatFma i .f32 d a b c r s)
    (hn : Draws s f (srDraws r 1) false ns u g) (hx : Executes i s f) :
    let v := FF.f32.fma r (src s f a).toNat (src s f b).toNat (src s f c).toNat (ns.getD 0 0)
    Leaves i s u f ((g.setRun d.toNat [w32 v.1]).raise v.2) := by
  have h := leaves_roundWord (v := fun k f ns =>
    let x := (ffOf .f32).fma r (f.float k .f32 a) (f.float k .f32 b) (f.float k .f32 c) (ns.getD 0 0)
    ((ffOf .f32).words x.1, x.2)) hi hn hx
  simp only [float_f32] at h
  exact h
theorem leaves_floatFma_f64 (hi : exec i s = floatFma i .f64 d a b c r s)
    (hn : Draws s f (srDraws r 1) false ns u g) (hx : Executes i s f) :
    let v := FF.f64.fma r (f.readPair s.cur a.toNat).toNat (f.readPair s.cur b.toNat).toNat (f.readPair s.cur c.toNat).toNat (ns.getD 0 0)
    Leaves i s u f ((g.setRun d.toNat (dwords (w64 v.1))).raise v.2) :=
  leaves_roundWord (v := fun k f ns =>
    let x := (ffOf .f64).fma r (f.float k .f64 a) (f.float k .f64 b) (f.float k .f64 c) (ns.getD 0 0)
    ((ffOf .f64).words x.1, x.2)) hi hn hx
theorem sets_floatWord {op : Nat → Nat × Conds} (hi : exec i s = floatWord i d s fun k f => op (f.float k .f32 a)) (hx : Executes i s f) :
    Sets i s f d.toNat [w32 (op (src s f a).toNat).1] (op (src s f a).toNat).2 := by
  have h := sets_aluWord (v := fun k f => ([w32 (op (f.float k .f32 a)).1], (op (f.float k .f32 a)).2)) hi hx
  simp only [float_f32] at h
  exact h
theorem sets_floatWord₂ {op : Nat → Nat → Nat × Conds}
    (hi : exec i s = floatWord i d s fun k f => op (f.float k .f32 a) (f.float k .f32 b)) (hx : Executes i s f) :
    Sets i s f d.toNat [w32 (op (src s f a).toNat (src s f b).toNat).1] (op (src s f a).toNat (src s f b).toNat).2 := by
  have h := sets_aluWord (v := fun k f =>
    ([w32 (op (f.float k .f32 a) (f.float k .f32 b)).1], (op (f.float k .f32 a) (f.float k .f32 b)).2)) hi hx
  simp only [float_f32] at h
  exact h
theorem leaves_packedWord {op : Nat → Fibre → Nat → Nat → Nat × Conds} (hi : exec i s = packedWord i d r s op)
    (hn : Draws s f (srDraws r 2) false ns u g) (hx : Executes i s f) :
    let x := op s.cur f 0 (ns.getD 0 0)
    let y := op s.cur f 1 (ns.getD 1 0)
    Leaves i s u f ((g.setRun d.toNat [w32 (x.1 + 65536 * y.1)]).raise (x.2.or y.2)) :=
  leaves_roundWord (v := fun k f ns =>
    let x := op k f 0 (ns.getD 0 0)
    let y := op k f 1 (ns.getD 1 0)
    ([w32 (x.1 + 65536 * y.1)], x.2.or y.2)) hi hn hx

end

section
variable (h : Head) (d a b : Reg) (r : Rnd) {s u : State} {f g : Fibre} {ns : List Nat}

theorem setsLater_fdiv (hn : Draws s f (srDraws r 1) false ns u g) (hx : Executes (.fdiv h d a b r) s f) :
    let v := FF.f32.div r (src s f a).toNat (src s f b).toNat (ns.getD 0 0)
    SetsLater (.fdiv h d a b r) s u f g (runOf d.toNat [w32 v.1]) v.2 := by
  have h := setsLater_lateRoundWord (v := fun k f ns =>
    let x := FF.f32.div r (f.float k .f32 a) (f.float k .f32 b) (ns.getD 0 0)
    ([w32 x.1], x.2)) (exec_fdiv h d a b r s) hn hx
  simp only [float_f32] at h
  exact h
theorem setsLater_fsqrt (hn : Draws s f (srDraws r 1) false ns u g) (hx : Executes (.fsqrt h d a r) s f) :
    let v := FF.f32.sqrt r (src s f a).toNat (ns.getD 0 0)
    SetsLater (.fsqrt h d a r) s u f g (runOf d.toNat [w32 v.1]) v.2 := by
  have h := setsLater_lateRoundWord (v := fun k f ns =>
    let x := FF.f32.sqrt r (f.float k .f32 a) (ns.getD 0 0)
    ([w32 x.1], x.2)) (exec_fsqrt h d a r s) hn hx
  simp only [float_f32] at h
  exact h

end

/-- Settles O26: each word by the lemma of its shape. -/
theorem floatWordsCompute : Obligations.FloatWordsCompute := by
  unfold Obligations.FloatWordsCompute
  refine ⟨fun h d a b c r s u f g ns => ?_, fun h d a b c ty r s u f g ns => ?_⟩
  · intro x y z x2 y2 z2 n single double late hn
    refine ⟨?_, ?_, ?_, ?_, ?_, ?_, ?_, ?_, ?_, ?_, ?_, ?_⟩
    · exact leaves_floatBin_f32 (exec_fadd h d a b r s) hn
    · exact leaves_floatBin_f32 (exec_fsub h d a b r s) hn
    · exact leaves_floatBin_f32 (exec_fmul h d a b r s) hn
    · exact leaves_floatFma_f32 (exec_ffma h d a b c r s) hn
    · exact leaves_floatUn (exec_frcp h d a r s) hn
    · exact leaves_floatUn (exec_frsq h d a r s) hn
    · exact leaves_floatUn (exec_frnd h d a r s) hn
    · exact setsLater_fdiv h d a b r hn
    · exact setsLater_fsqrt h d a r hn
    · exact leaves_floatBin_f64 (exec_dadd h d a b r s) hn
    · exact leaves_floatBin_f64 (exec_dmul h d a b r s) hn
    · exact leaves_floatFma_f64 (exec_dfma h d a b c r s) hn
  · intro x one el two
    refine ⟨?_, ?_, ?_, ?_, ?_, fun hn => ⟨?_, ?_, ?_⟩⟩
    · exact sets_floatWord (exec_fex2 h d a s)
    · exact sets_floatWord (exec_flg2 h d a s)
    · exact sets_floatWord (exec_fsin h d a s)
    · exact sets_floatWord (exec_fcos h d a s)
    · exact sets_floatWord (exec_ftanh h d a s)
    · exact leaves_packedWord (op := fun k f e n => (ffOf ty).add r (halfOf (f.read k a.toNat) e) (halfOf (f.read k b.toNat) e) n)
        (exec_hadd2 h d a b ty r s) hn
    · exact leaves_packedWord (op := fun k f e n => (ffOf ty).mul r (halfOf (f.read k a.toNat) e) (halfOf (f.read k b.toNat) e) n)
        (exec_hmul2 h d a b ty r s) hn
    · exact leaves_packedWord (op := fun k f e n =>
        (ffOf ty).fma r (halfOf (f.read k a.toNat) e) (halfOf (f.read k b.toNat) e) (halfOf (f.read k c.toNat) e) n) (exec_hfma2 h d a b c ty r s) hn

/-! ## Minimum and maximum (R118) -/

section
variable {t : FF} {m : Bool} {x y : Nat}

theorem minMax_nans (hx : (t.val x).isNan = true) (hy : (t.val y).isNan = true) : (t.minMax m x y).1 = t.qnan := by
  simp [FF.minMax, hx, hy]
theorem minMax_nan_left (hx : (t.val x).isNan = true) (hy : (t.val y).isNan = false) : (t.minMax m x y).1 = y := by
  simp [FF.minMax, hx, hy]
theorem minMax_nan_right (hx : (t.val x).isNan = false) (hy : (t.val y).isNan = true) : (t.minMax m x y).1 = x := by
  simp [FF.minMax, hx, hy]
theorem minMax_conds : (t.minMax m x y).2 = { nv := (t.val x).isSnan || (t.val y).isSnan } := by
  unfold FF.minMax
  dsimp only
  split
  · rfl
  · split
    · rfl
    · split <;> rfl
/-- Whether of two numbers the first counts as the lower: −0 lies below +0. -/
def isBelow (x y : FV) : Bool :=
  match cmpFin x y with
  | .lt => true
  | .gt => false
  | .eq => x.neg && !y.neg
theorem minMax_numbers (hx : (t.val x).isNan = false) (hy : (t.val y).isNan = false) :
    (t.minMax m x y).1 = if isBelow (t.val x) (t.val y) != m then x else y := by
  simp only [FF.minMax, hx, hy, Bool.false_and, Bool.false_eq_true, if_false]
  rfl
theorem minMax_mem (hx : (t.val x).isNan = false) (hy : (t.val y).isNan = false) : (t.minMax m x y).1 = x ∨ (t.minMax m x y).1 = y := by
  rw [minMax_numbers hx hy]
  split <;> simp

end

section
variable (h : Head) (d a b : Reg) {s : State} {f : Fibre} {w : Word}

theorem sets_fmin (hw : w32 (FF.f32.minMax false (src s f a).toNat (src s f b).toNat).1 = w) (hx : Executes (.fmin h d a b) s f) :
    Sets (.fmin h d a b) s f d.toNat [w] { nv := (FF.f32.val (src s f a).toNat).isSnan || (FF.f32.val (src s f b).toNat).isSnan } := by
  have hset := sets_floatWord₂ (exec_fmin h d a b s) hx
  rw [hw, minMax_conds] at hset
  exact hset
theorem sets_fmax (hw : w32 (FF.f32.minMax true (src s f a).toNat (src s f b).toNat).1 = w) (hx : Executes (.fmax h d a b) s f) :
    Sets (.fmax h d a b) s f d.toNat [w] { nv := (FF.f32.val (src s f a).toNat).isSnan || (FF.f32.val (src s f b).toNat).isSnan } := by
  have hset := sets_floatWord₂ (exec_fmax h d a b s) hx
  rw [hw, minMax_conds] at hset
  exact hset

end

theorem w32_toNat (w : Word) : w32 w.toNat = w := BitVec.eq_of_toNat_eq (by simp [w32])

/-! ## Comparisons and classes (R119, R120) -/

theorem isSnan_of_not_isNan {v : FV} (h : v.isNan = false) : v.isSnan = false := by
  cases v with
  | nan => cases h
  | inf => rfl
  | fin => rfl
theorem cmpFin_swap {x y : FV} (hx : x.isNan = false) (hy : y.isNan = false) : cmpFin y x = (cmpFin x y).swap := by
  cases x with
  | nan => cases hx
  | inf s =>
    cases y with
    | nan => cases hy
    | inf u => cases s <;> cases u <;> rfl
    | fin => cases s <;> rfl
  | fin xs xm xe =>
    cases y with
    | nan => cases hy
    | inf u => cases u <;> rfl
    | fin ys ym ye =>
      simp only [cmpFin]
      rw [Int.min_comm ye xe]
      exact (Std.OrientedCmp.eq_swap (cmp := compare) ..)

section
variable {t : FF} {x y : Nat}

theorem cmp_unordered (h : (t.val x).isNan = true ∨ (t.val y).isNan = true) :
    (∀ n, n ∈ [0, 2, 3, 4, 5, 7] → (t.cmp n x y).1 = false) ∧ (∀ n, n ∈ [1, 6] → (t.cmp n x y).1 = true) ∧
      (∀ n, n ∈ [2, 3, 4, 5] → (t.cmp n x y).2.nv = true) ∧
      (∀ n, n ∈ [0, 1, 6, 7] → (t.cmp n x y).2.nv = ((t.val x).isSnan || (t.val y).isSnan)) := by
  have hun : ((t.val x).isNan || (t.val y).isNan) = true := by simpa using h
  simp [FF.cmp, hun]
theorem cmp_conds (hx : (t.val x).isNan = false) (hy : (t.val y).isNan = false) (n : Nat) : (t.cmp n x y).2 = Conds.none := by
  unfold FF.cmp
  simp only [hx, hy, isSnan_of_not_isNan hx, isSnan_of_not_isNan hy]
  split <;> rfl
/-- R120's table for two numbers, by their order. -/
theorem cmp_numbers (hx : (t.val x).isNan = false) (hy : (t.val y).isNan = false) : let o := cmpFin (t.val x) (t.val y)
    (t.cmp 0 x y).1 = (o == .eq) ∧ (t.cmp 1 x y).1 = (o != .eq) ∧ (t.cmp 2 x y).1 = (o == .lt) ∧ (t.cmp 3 x y).1 = (o != .gt) ∧
      (t.cmp 4 x y).1 = (o == .gt) ∧ (t.cmp 5 x y).1 = (o != .lt) ∧ (t.cmp 6 x y).1 = false ∧ (t.cmp 7 x y).1 = true := by
  simp [FF.cmp, hx, hy]
theorem cmp_table (hx : (t.val x).isNan = false) (hy : (t.val y).isNan = false) : let o := cmpFin (t.val x) (t.val y)
    ((t.cmp 0 x y).1 = true ↔ o = .eq) ∧ ((t.cmp 2 x y).1 = true ↔ o = .lt) ∧ (t.cmp 6 x y).1 = false ∧ (t.cmp 7 x y).1 = true ∧
      ((t.cmp 2 x y).1 = true ↔ (t.cmp 4 y x).1 = true) ∧ ((t.cmp 3 x y).1 = true ↔ (t.cmp 4 x y).1 = false) ∧
      ((t.cmp 5 x y).1 = true ↔ (t.cmp 2 x y).1 = false) ∧ ((t.cmp 1 x y).1 = true ↔ (t.cmp 0 x y).1 = false) ∧
      ((t.cmp 0 x y).1 = true ↔ (t.cmp 3 x y).1 = true ∧ (t.cmp 5 x y).1 = true) := by
  obtain ⟨h0, h1, h2, h3, h4, h5, h6, h7⟩ := cmp_numbers hx hy
  have h4' := (cmp_numbers hy hx).2.2.2.2.1
  rw [cmpFin_swap hx hy] at h4'
  simp only [h0, h1, h2, h3, h4, h5, h6, h7, h4']
  cases cmpFin (t.val x) (t.val y) <;> decide

end

theorem setsPreds_floatCmp {i : Instr} {ty : Ty} {d a b c : Reg} {cond : BitVec 3} {merge : Bool} {tbl : BitVec 4} {s : State} {f : Fibre}
    (hi : exec i s = floatCmp i ty d a b c cond merge tbl s) (hx : Executes i s f) :
    let v := (ffOf ty).cmp cond.toNat (f.float s.cur ty a) (f.float s.cur ty b)
    SetsPreds i s f [(d.toNat, merged merge tbl v.1 (f.readPred s.cur c.toNat))] v.2 :=
  setsPreds_predWord (v := fun k f =>
    let x := (ffOf ty).cmp cond.toNat (f.float k ty a) (f.float k ty b)
    ([(d.toNat, merged merge tbl x.1 (f.readPred k c.toNat))], x.2)) hi hx
theorem setsPreds_fcmp (h : Head) (d a b c : Reg) (cond : BitVec 3) (merge : Bool) (tbl : BitVec 4) {s : State} {f : Fibre}
    (hx : Executes (.fcmp h d a b c cond merge tbl) s f) : let v := FF.f32.cmp cond.toNat (src s f a).toNat (src s f b).toNat
    SetsPreds (.fcmp h d a b c cond merge tbl) s f [(d.toNat, merged merge tbl v.1 (f.readPred s.cur c.toNat))] v.2 := by
  have hset := setsPreds_floatCmp (exec_fcmp h d a b c cond merge tbl s) hx
  simp only [float_f32] at hset
  exact hset
theorem setsPreds_dcmp (h : Head) (d a b c : Reg) (cond : BitVec 3) (merge : Bool) (tbl : BitVec 4) {s : State} {f : Fibre}
    (hx : Executes (.dcmp h d a b c cond merge tbl) s f) :
    let v := FF.f64.cmp cond.toNat (f.readPair s.cur a.toNat).toNat (f.readPair s.cur b.toNat).toNat
    SetsPreds (.dcmp h d a b c cond merge tbl) s f [(d.toNat, merged merge tbl v.1 (f.readPred s.cur c.toNat))] v.2 := by
  have hset := setsPreds_floatCmp (exec_dcmp h d a b c cond merge tbl s) hx
  simp only [float_f64] at hset
  exact hset
theorem sets_fclass (h : Head) (d a : Reg) (ty : Ty) {s : State} {f : Fibre} (hx : Executes (.fclass h d a ty) s f) :
    Sets (.fclass h d a ty) s f d.toNat [w32 (2 ^ (ffOf ty).classBit (f.operand s.cur ty a))] Conds.none :=
  sets_plainWord (v := fun k f => w32 (2 ^ (ffOf ty).classBit (f.float k ty a))) (exec_fclass h d a ty s) hx
/-- R119's table of ten classes. -/
theorem classBit_eq (t : FF) (x : Nat) : t.classBit x = match t.val x with
    | .nan s => if s then 0 else 1
    | .inf s => if s then 2 else 9
    | .fin s m _ => if m = 0 then (if s then 5 else 6) else if x / 2 ^ t.mw % 2 ^ t.ew = 0 then (if s then 4 else 7) else (if s then 3 else 8) := by
  unfold FF.classBit
  cases t.val x <;> simp

/-- Settles O27: `minMax_numbers` and its companions; R120's table is `cmp_numbers`, R119's is `classBit_eq`. -/
theorem floatsCompare : Obligations.FloatsCompare := by
  unfold Obligations.FloatsCompare
  refine ⟨fun h d a b s f => ?_, fun h d a b c cond merge tbl ty s f => ?_, fun t x y => ⟨cmp_unordered, fun hx hy => ⟨cmp_conds hx hy, cmp_table hx hy⟩⟩⟩
  · intro x y c low high
    have of_eq : ∀ {m : Bool} {v : Nat} {w : Word}, (FF.f32.minMax m (src s f a).toNat (src s f b).toNat).1 = v → w32 v = w →
        w32 (FF.f32.minMax m (src s f a).toNat (src s f b).toNat).1 = w := fun h hw => h ▸ hw
    have both : ∀ {v w : Nat} {p q : Word}, w32 v = p → w32 w = q → (FF.f32.minMax false (src s f a).toNat (src s f b).toNat).1 = v →
        (FF.f32.minMax true (src s f a).toNat (src s f b).toNat).1 = w → low p ∧ high q :=
      fun hv hw hlow hhigh => ⟨sets_fmin h d a b (of_eq hlow hv), sets_fmax h d a b (of_eq hhigh hw)⟩
    have wa := w32_toNat (src s f a)
    have wb := w32_toNat (src s f b)
    refine ⟨fun hx hy => both rfl rfl (minMax_nans hx hy) (minMax_nans hx hy),
      fun hx hy => both wb wb (minMax_nan_left hx hy) (minMax_nan_left hx hy),
      fun hx hy => both wa wa (minMax_nan_right hx hy) (minMax_nan_right hx hy), fun hx hy => ⟨fun ho => ?_, fun ho => ?_, fun ho hnx hny => ?_,
      fun ho hnx hny => ?_, fun ho hn => ?_⟩⟩
    · have hb : isBelow x y = true := by rw [isBelow, ho]
      exact both wa wb (by rw [minMax_numbers hx hy, hb]; rfl) (by rw [minMax_numbers hx hy, hb]; rfl)
    · have hb : isBelow x y = false := by rw [isBelow, ho]
      exact both wb wa (by rw [minMax_numbers hx hy, hb]; rfl) (by rw [minMax_numbers hx hy, hb]; rfl)
    · have hb : isBelow x y = true := by simp [isBelow, ho, hnx, hny]
      exact both wa wb (by rw [minMax_numbers hx hy, hb]; rfl) (by rw [minMax_numbers hx hy, hb]; rfl)
    · have hb : isBelow x y = false := by simp [isBelow, ho, hnx, hny]
      exact both wb wa (by rw [minMax_numbers hx hy, hb]; rfl) (by rw [minMax_numbers hx hy, hb]; rfl)
    · have hmem : ∀ m, w32 (FF.f32.minMax m (src s f a).toNat (src s f b).toNat).1 ∈ [src s f a, src s f b] := fun m => by
        rcases minMax_mem (m := m) hx hy with h | h
        · simp [h, wa]
        · simp [h, wb]
      exact ⟨_, _, hmem false, hmem true, sets_fmin h d a b rfl, sets_fmax h d a b rfl⟩
  · intro put
    refine ⟨setsPreds_fcmp h d a b c cond merge tbl, setsPreds_dcmp h d a b c cond merge tbl, sets_fclass h d a ty,
      fun t x neg => ?_⟩
    rw [classBit_eq]
    refine ⟨fun hv => ?_, fun hv => ?_, fun hv => ?_, fun m e hv => ⟨fun hm => ?_, fun hm he => ?_, fun hm he => ?_⟩⟩
    · rw [hv]; rfl
    · rw [hv]; rfl
    · rw [hv]
    · rw [hv]; exact if_pos hm
    · rw [hv]; exact (if_neg hm).trans (if_pos he)
    · rw [hv]; exact (if_neg hm).trans (if_neg he)

/-! ## Conversions and noise (R124 to R127) -/

section
variable (h : Head) (d a c : Reg) (ty sty : Ty) (r : Rnd) (sat adj : Bool) (fmt : Fmt) {s u : State} {f g : Fibre} {ns : List Nat}

theorem leaves_cvt (hn : Draws s f (srDraws r 1) false ns u g) (hx : Executes (.cvt h d a ty r sat sty) s f) :
    let v := cvtValue ty sty r sat (f.operand s.cur sty a) (ns.getD 0 0)
    Leaves (.cvt h d a ty r sat sty) s u f ((g.setRun d.toNat v.1).raise v.2) :=
  leaves_roundWord (v := fun k f ns => cvtValue ty sty r sat (f.operand k sty a) (ns.getD 0 0)) (exec_cvt h d a ty r sat sty s) hn hx
theorem setsLater_qnt (hn : Draws s f (srDraws r 32) false ns u g) (hx : Executes (.qnt h d a c r adj fmt) s f) :
    let xs := (f.readRun s.cur a.toNat 32).map (·.toNat)
    let q := quantise fmt.width r adj xs ns
    SetsLater (.qnt h d a c r adj fmt) s u f (g.mxEvents 0 false q.eovf q.sat)
      (runOf d.toNat (leWords fmt.width (q.bytes fmt.width (s.cur * 2 ^ 32 + f.issued))) ++ [(c.toNat, w32 (q.e ||| q.ufc <<< 8))])
      { nv := xs.any fun x => (FF.f32.val x).isSnan } := by
  have hi := (exec_qnt h d a c r adj fmt s).trans (issueWord_go hx _)
  rw [withNoise_got hn] at hi
  exact hi
theorem setsLater_dqnt (hx : Executes (.dqnt h d a c fmt) s f) :
    let dq := (List.range 32).map fun i => dequant fmt.width (bitsOf (src s f c).toNat 7 0)
      (exact true fmt.width (streamAt fmt.width (leNat (wordBytes (f.readRun s.cur a.toNat fmt.width))) i))
    SetsLater (.dqnt h d a c fmt) s s f f (runOf d.toNat (dq.map fun v => w32 v.1)) (dq.foldl (fun e v => e.or v.2) Conds.none) := by
  have hi := (exec_dqnt h d a c fmt s).trans (lateWord_go hx _ _)
  exact hi
theorem leaves_rand (hn : Draws s f 1 true ns u g) (hx : Executes (.rand h d ty) s f) :
    let n := ns.getD 0 0
    Leaves (.rand h d ty) s (withResult u s.cur f [(d.toNat,
      if ty = .f32 then w32 (FF.f32.round .rn false (n / 256) (-24) 0).1 else w32 n)]) f g := by
  have hi := (exec_rand h d ty s).trans (issueWord_go hx _)
  rw [withNoise_got hn] at hi
  exact hi

end

/-- Settles O29: CVT and DQNT by their shapes; QNT and RAND put their registers in flight with the noise they drew. -/
theorem conversionsCompute : Obligations.ConversionsCompute := by
  unfold Obligations.ConversionsCompute
  intro h d a c ty sty r sat adj fmt s u f g ns vals q dq rnd32
  refine ⟨leaves_cvt h d a ty sty r sat, fun hn hx => ?_, setsLater_dqnt h d a c fmt, fun hn hx => ?_⟩
  · have hset := setsLater_qnt h d a c r adj fmt hn hx
    simp only [List.any_map] at hset
    exact hset
  · have hl := leaves_rand h d ty hn hx
    simp only [← apply_ite w32] at hl
    exact hl

end Sys2Proof.Floats

/-! SUPPORT. A turn of the machine: what placing an address, fetching a word and the checks before a word leave of the machine, and that a
word whose fibre stands and every event answer a next state. -/

namespace Sys2Proof.Turns
open Sys2Proof Sys2Proof.Machine

/-! ## The fibre whose turn it is stands where it stood -/

/-- The turn is still the same fibre's and no fibre has come or gone. -/
def SameSeat (s t : State) : Prop := t.cur = s.cur ∧ t.fibres.length = s.fibres.length

theorem SameSeat.refl (s : State) : SameSeat s s := ⟨rfl, rfl⟩

theorem SameSeat.trans {s t u : State} (h : SameSeat s t) (h' : SameSeat t u) : SameSeat s u :=
  ⟨h'.1.trans h.1, h'.2.trans h.2⟩

/-- A fibre that stands in one state stands in another with the same seats. -/
theorem SameSeat.stands {s t : State} {k : Nat} (h : SameSeat s t) (hk : s.fibre? k ≠ none) : t.fibre? k ≠ none := by
  have hlen : k < s.fibres.length := by simpa [State.fibre?] using hk
  simpa [State.fibre?, h.2] using hlen

theorem sameSeat_modFibre (s : State) (k : Nat) (u : Fibre → Fibre) : SameSeat s (s.modFibre k u) := ⟨rfl, by simp⟩

theorem sameSeat_setFibre (s : State) (k : Nat) (f : Fibre) : SameSeat s (s.setFibre k f) := ⟨rfl, by simp⟩

theorem sameSeat_mapFibres (s : State) (u : Nat → Fibre → Fibre) : SameSeat s (s.mapFibres u) := ⟨rfl, by simp⟩

theorem sameSeat_modCore (s : State) (c : Nat) (u : Core → Core) : SameSeat s (s.modCore c u) := ⟨rfl, rfl⟩

theorem sameSeat_modPkg (s : State) (u : Pkg → Pkg) : SameSeat s (s.modPkg u) := ⟨rfl, rfl⟩

theorem sameSeat_modJob (s : State) (j : Nat) (u : Job → Job) : SameSeat s (s.modJob j u) := by
  unfold State.modJob
  split <;> exact ⟨rfl, rfl⟩

theorem sameSeat_foldl {α : Type} {g : State → α → State} (hg : ∀ s x, SameSeat s (g s x)) (l : List α) (s : State) :
    SameSeat s (l.foldl g s) := by
  induction l generalizing s with
  | nil => exact .refl s
  | cons x l ih => exact (hg s x).trans (ih (g s x))

theorem sameSeat_faultJob (s : State) (j c : Nat) : SameSeat s (s.faultJob j c) := by
  unfold State.faultJob
  split
  · exact .refl s
  · split
    · exact .refl s
    · exact (sameSeat_modJob s j _).trans (sameSeat_mapFibres _ _)

theorem sameSeat_tdiError (s : State) (fn : Nat) : SameSeat s (s.tdiError fn) :=
  (sameSeat_modPkg s _).trans (sameSeat_foldl (fun s j => sameSeat_faultJob s j 3) _ _)

theorem sameSeat_ite {c : Prop} [Decidable c] {s t u : State} (ht : c → SameSeat s t) (hu : SameSeat s u) :
    SameSeat s (if c then t else u) := by
  split
  · exact ht ‹c›
  · exact hu

theorem sameSeat_alarm (s : State) (i a b c d : Nat) : SameSeat s (s.alarm i a b c d) := by
  have h1 : ∀ t : State, SameSeat t (if salAction s.pkg.salpol i ≥ 1 then t.faultJob d 3 else t) :=
    fun t => sameSeat_ite (fun _ => sameSeat_faultJob t d 3) (.refl t)
  have h2 : ∀ t : State, SameSeat t (if salAction s.pkg.salpol i ≥ 2 then
      (((t.modPkg fun p => { p with erased := p.erased + 1 }).pkg.tdis.filter fun t => t.2.state != .unlocked).foldl
        (fun s t => s.tdiError t.1) (t.modPkg fun p => { p with erased := p.erased + 1 })) else t) :=
    fun t => sameSeat_ite (fun _ => (sameSeat_modPkg t _).trans (sameSeat_foldl (fun s (t : Nat × Tdi) => sameSeat_tdiError s t.1) _ _)) (.refl t)
  have h3 : ∀ t : State, SameSeat t (if salAction s.pkg.salpol i ≥ 3 then t.modPkg fun p => { p with held := true } else t) :=
    fun t => sameSeat_ite (fun _ => sameSeat_modPkg t _) (.refl t)
  exact (((sameSeat_modPkg s _).trans (h1 _)).trans (h2 _)).trans (h3 _)

/-! ## Placing an address raises an alarm at most -/

/-- The machine after an address has been placed: as it was, or with the alarm of a refused access. -/
def Placed (s t : State) : Prop := t = s ∨ ∃ a b c d, t = s.alarm 0 a b c d

@[simp] theorem placed_self (s : State) : Placed s s := .inl rfl

@[simp] theorem placed_alarm (s : State) (a b c d : Nat) : Placed s (s.alarm 0 a b c d) := .inr ⟨a, b, c, d, rfl⟩

@[simp] theorem placed_checkTarget (s : State) (now : Bool) (tg m j : Nat) (a : Acc) (addr loc : Nat) :
    Placed s (s.checkTarget now tg m j a addr loc).2 := by
  unfold State.checkTarget
  split
  · simp
  · split
    · simp
    · split <;> simp

@[simp] theorem placed_checkLeaf (s : State) (now : Bool) (t : Tlb) (die va m j : Nat) (x : Space) (a : Acc) :
    Placed s (s.checkLeaf now t die va m j x a).2 := by
  unfold State.checkLeaf
  split <;> simp

@[simp] theorem placed_findLocal (s : State) (now : Bool) (p : Site) (j va m : Nat) (x : Space) (a : Acc) :
    Placed s (s.findLocal now p j va m x a).2 := by
  unfold State.findLocal
  split
  · simp
  · split
    · simp
    · split <;> simp

/-- Wherever an access goes, its placement raises one alarm at most. -/
@[simp] theorem placed_place (s : State) (now : Bool) (f : Fibre) (x : Space) (addr n : Nat) (a : Acc) :
    Placed s (s.place now f x addr n a).2 := by
  unfold State.place
  dsimp only
  repeat' split
  all_goals simp

theorem Placed.sameSeat {s t : State} (h : Placed s t) : SameSeat s t := by
  obtain rfl | ⟨a, b, c, d, rfl⟩ := h
  · exact .refl _
  · exact sameSeat_alarm ..

/-! ## Fetching keeps the seats -/

/-- What holds of the second part of a result holds of the state that a pattern names. -/
theorem SameSeat.of_eq {α : Type} {s t : State} {a : α} {p : α × State} (h : SameSeat s p.2) (e : p = (a, t)) : SameSeat s t := by
  subst e
  exact h

theorem sameSeat_find (s : State) (f : Fibre) (x : Space) (addr n : Nat) (a : Acc) : SameSeat s (s.find f x addr n a).2 :=
  (placed_place s true f x addr n a).sameSeat

theorem sameSeat_startWalk (s : State) (p : Site) (job va : Nat) : SameSeat s (s.startWalk p job va) := by
  unfold State.startWalk
  dsimp only
  split <;> exact ⟨rfl, rfl⟩

theorem sameSeat_fetchWord (s : State) (f : Fibre) (a : DWord) : SameSeat s (s.fetchWord f a).2 := by
  unfold State.fetchWord
  dsimp only
  split
  · exact .refl s
  · split
    · exact .refl s
    · have hf := sameSeat_find s f .g a.toNat 4 .fetch
      split <;> rename_i t heq <;> replace hf := hf.of_eq heq
      · split
        · exact hf
        · exact hf.trans (sameSeat_modCore ..)
      · split
        · exact hf
        · exact hf.trans (sameSeat_startWalk ..)
      all_goals exact hf

theorem sameSeat_fetchWords (s : State) (f : Fibre) (a : DWord) (n : Nat) : SameSeat s (s.fetchWords f a n).2 := by
  induction n generalizing s a with
  | zero => exact .refl s
  | succ n ih =>
    have hw := sameSeat_fetchWord s f a
    unfold State.fetchWords
    split <;> rename_i t heq <;> replace hw := hw.of_eq heq
    · have ht := hw.trans (ih t (a + 4))
      split
      · rename_i heq'
        exact ht.of_eq heq'
      · exact ht
    · exact hw

theorem sameSeat_fetchInstr (s : State) (f : Fibre) (idx count : Nat) : SameSeat s (s.fetchInstr f idx count).2 := by
  have h0 := sameSeat_fetchWord s f (BitVec.ofNat 64 (RP.addr ⟨f.rp.hdr, idx⟩))
  unfold State.fetchInstr
  dsimp only
  split <;> rename_i t heq <;> replace h0 := h0.of_eq heq
  · split
    · exact h0
    · have h1 := h0.trans (sameSeat_fetchWord t f (BitVec.ofNat 64 (RP.addr ⟨f.rp.hdr, idx⟩) + 4))
      split <;> rename_i u heq' <;> replace h1 := h1.of_eq heq'
      · split
        · exact h1
        · have h2 := h1.trans (sameSeat_fetchWord u f (BitVec.ofNat 64 (RP.addr ⟨f.rp.hdr, idx⟩) + 8))
          split <;> rename_i heq'' <;> exact h2.of_eq heq''
      · exact h1
  · exact h0

theorem sameSeat_repWord (s : State) (f : Fibre) : SameSeat s (s.repWord f).2 := by
  unfold State.repWord
  split
  · exact .refl s
  · exact sameSeat_fetchWord ..

/-- A clause that is open, or is opened without a stop, leaves the seats. -/
theorem sameSeat_openClause (s : State) (k : Nat) (f : Fibre) : SameSeat s (s.openClause k f).2 := by
  unfold State.openClause
  split
  · exact .refl s
  · split
    · exact .refl s
    · split
      · exact .refl s
      · have hw := sameSeat_fetchWord s f f.rp.hdr
        split <;> rename_i heq <;> replace hw := hw.of_eq heq
        · split
          · exact hw
          · split
            · exact hw
            · split
              · exact hw
              · exact hw.trans (sameSeat_modFibre ..)
        · exact hw

theorem sameSeat_ringPut (s : State) (core : Nat) (trace : Bool) (r : List Word) : SameSeat s (s.ringPut core trace r) := by
  unfold State.ringPut
  exact sameSeat_ite (fun _ => .refl s) (sameSeat_ite (fun _ => sameSeat_modCore ..) ⟨rfl, rfl⟩)

theorem sameSeat_debugRecord (s : State) (core kind cmp ord code : Nat) (f : Fibre) (flags : Nat) (d0 d1 : Word) :
    SameSeat s (s.debugRecord core kind cmp ord code f flags d0 d1) := by
  unfold State.debugRecord State.debugRecordOf
  dsimp only
  have h1 := fun r => sameSeat_ite (c := (decide (kind ≤ 6) || decide (kind = 0xA) || decide (kind = 0xB)) = true)
    (fun _ => sameSeat_ringPut s core false r) (.refl s)
  exact sameSeat_ite (fun _ => (h1 _).trans (sameSeat_ringPut ..)) (h1 _)

theorem sameSeat_askDebug (s : State) (k : Nat) (f : Fibre) (span : Bool) : SameSeat s (s.askDebug k f span) := by
  unfold State.askDebug
  exact (sameSeat_ite (fun _ => sameSeat_modCore ..) (.refl s)).trans (sameSeat_mapFibres ..)

theorem sameSeat_debugSite (s : State) (k : Nat) (f : Fibre) (addr : DWord) : SameSeat s (s.debugSite k f addr).2 := by
  unfold State.debugSite
  dsimp only
  split
  · exact .refl s
  · split
    · exact (sameSeat_setFibre ..).trans (sameSeat_debugRecord ..)
    · split
      · exact .refl s
      · split
        · exact ((sameSeat_debugRecord ..).trans (sameSeat_ite (fun _ => sameSeat_askDebug ..) (.refl _))).trans (sameSeat_modFibre ..)
        · exact (sameSeat_debugRecord ..).trans (sameSeat_modFibre ..)

theorem sameSeat_stopSite (s : State) (k : Nat) (f : Fibre) (addr : DWord) : SameSeat s (s.stopSite k f addr).2 := by
  unfold State.stopSite
  dsimp only
  split
  · exact sameSeat_debugSite ..
  · exact (sameSeat_debugSite ..).trans (sameSeat_modFibre ..)

theorem sameSeat_stopIf (s : State) (c : Prop) [Decidable c] (k : Nat) (f : Fibre) (addr : DWord) :
    SameSeat s (if c then s.stopSite k f addr else (false, s)).2 := by
  split
  · exact sameSeat_stopSite ..
  · exact .refl s

theorem sameSeat_prepareRep (s : State) (k : Nat) (f : Fibre) (h : Header) (r : Raw) (nregs ntiles : Nat) :
    SameSeat s (s.prepareRep k f h r nregs ntiles).2 := by
  unfold State.prepareRep
  dsimp only
  split
  · exact .refl s
  · have hw := sameSeat_fetchInstr s f (f.rp.idx + 1) h.count
    split <;> rename_i heq <;> replace hw := hw.of_eq heq
    · exact hw
    · split <;> exact hw

theorem sameSeat_prepareInv (s : State) (k : Nat) (f : Fibre) (h : Header) (r : Raw) (own : List Nat) (nregs ntiles : Nat) :
    SameSeat s (s.prepareInv k f h r own nregs ntiles).2 := by
  unfold State.prepareInv
  dsimp only
  have hw := sameSeat_fetchWord s f f.nextClause
  split <;> rename_i heq <;> replace hw := hw.of_eq heq
  · rename_i w t
    have hb := hw.trans (sameSeat_fetchWords t f (f.nextClause + 4) (Header.ofWord w).count)
    split <;> rename_i heq' <;> replace hb := hb.of_eq heq'
    · split <;> exact hb
    · exact hb
  · exact hw

/-! ## A word that is to run finds its fibre -/

/-- What a turn prepares leaves the seats, where it is a word to run. -/
def RunsFrom (s : State) : Prep → Prop
  | .done _ => True
  | .run t _ => SameSeat s t

theorem runsFrom_ite {s : State} {c : Prop} [Decidable c] {p q : Prep} (hp : RunsFrom s p) (hq : RunsFrom s q) :
    RunsFrom s (if c then p else q) := by
  split
  · exact hp
  · exact hq

theorem runsFrom_prepareWord (s : State) (k : Nat) : RunsFrom s (s.prepareWord k) := by
  unfold State.prepareWord
  split
  · trivial
  rename_i f _
  dsimp only
  refine runsFrom_ite trivial ?_
  have h0 := sameSeat_repWord s f
  split <;> rename_i t heq
  · trivial
  · trivial
  replace h0 := h0.of_eq heq
  have h1 := h0.trans (sameSeat_fetchInstr t f (if f.rep.isSome then f.rp.idx + 1 else f.rp.idx) f.header.count)
  split <;> rename_i heq
  · trivial
  refine runsFrom_ite trivial ?_
  rename_i r u
  replace h1 := h1.of_eq heq
  split <;> rename_i v heq
  · trivial
  have h2 : SameSeat s v := (h1.trans (sameSeat_stopIf ..)).of_eq heq
  refine runsFrom_ite trivial (runsFrom_ite trivial ?_)
  split
  · split <;> rename_i heq
    · trivial
    · exact h2.trans ((sameSeat_prepareInv ..).of_eq heq)
  · split
    · trivial
    · split
      · split <;> rename_i heq
        · trivial
        · exact h2.trans ((sameSeat_prepareRep ..).of_eq heq)
      · exact h2
  · trivial

/-- The word that a turn runs has its fibre. -/
theorem fibre_of_prepare {s t : State} {k : Nat} {i : Instr} (h : s.prepare k = .run t i) : t.fibre? t.cur ≠ none := by
  unfold State.prepare at h
  split at h
  · cases h
  rename_i f hf
  split at h
  · cases h
  dsimp only at h
  split at h
  · cases h
  split at h
  · cases h
  have h0 := sameSeat_openClause { s with cur := k } k f
  split at h <;> rename_i u heq
  · cases h
  have h1 := runsFrom_prepareWord u k
  rw [h] at h1
  have h2 : SameSeat { s with cur := k } t := (h0.of_eq heq).trans h1
  have h3 : ({ s with cur := k } : State).fibre? k ≠ none := ne_of_eq_of_ne hf (Option.some_ne_none f)
  rw [h2.1]
  exact h2.stands h3

/-! ## Every word and every event answers a next state -/

theorem gate_ne_noFibre {i : Instr} {s : State} (h : s.fibre? s.cur ≠ none) : gate i s ≠ .noFibre := by
  unfold gate
  split
  · exact absurd ‹_› h
  · dsimp only
    split
    · nofun
    · split
      · nofun
      · split <;> nofun

theorem goesOn_ite {c : Prop} [Decidable c] {o p : Host.Outcome State Fault Refusal} (ho : GoesOn o) (hp : GoesOn p) :
    GoesOn (if c then o else p) := by
  split
  · exact ho
  · exact hp

section
variable {i : Instr} {s : State} (hg : gate i s ≠ .noFibre)
include hg

/-- A word that is issued goes on, whether it is discarded, kept or executed. -/
theorem goesOn_issueWord (body : Nat → Fibre → State) : GoesOn (issueWord i s body) := by
  obtain ⟨h, _⟩ | ⟨f, _, h⟩ | ⟨t, _, h⟩ | ⟨f, _, h⟩ := issueWord_cases i s body
  · exact absurd h hg
  · exact ⟨_, h⟩
  · exact ⟨_, h⟩
  · exact ⟨_, h⟩

theorem goesOn_aluWord (d : Nat) (v : Nat → Fibre → List Word × Conds) : GoesOn (aluWord i d s v) := by
  unfold aluWord
  exact goesOn_issueWord hg _

theorem goesOn_lateWord (d : Nat) (v : Nat → Fibre → List Word × Conds) : GoesOn (lateWord i d s v) := by
  unfold lateWord
  exact goesOn_issueWord hg _

theorem goesOn_predWord (v : Nat → Fibre → List (Nat × Bool) × Conds) : GoesOn (predWord i s v) := by
  unfold predWord
  exact goesOn_issueWord hg _

theorem goesOn_jumpWord (target : Nat → Fibre → DWord) (link : Bool) : GoesOn (jumpWord i s target link) := by
  unfold jumpWord
  exact goesOn_issueWord hg _

theorem goesOn_roundWord (d : Nat) (r : Rnd) (n : Nat) (v : Nat → Fibre → List Nat → List Word × Conds) :
    GoesOn (roundWord i d r n s v) := by
  unfold roundWord
  exact goesOn_issueWord hg _

theorem goesOn_lateRoundWord (d : Nat) (r : Rnd) (n : Nat) (v : Nat → Fibre → List Nat → List Word × Conds) :
    GoesOn (lateRoundWord i d r n s v) := by
  unfold lateRoundWord
  exact goesOn_issueWord hg _

theorem goesOn_plainWord (d : Reg) (v : Nat → Fibre → Word) : GoesOn (plainWord i d s v) := by
  unfold plainWord
  exact goesOn_aluWord hg _ _

theorem goesOn_binWord (d a b : Reg) (op : Word → Word → Word) : GoesOn (binWord i d a b op s) := by
  unfold binWord
  exact goesOn_plainWord hg _ _

theorem goesOn_unWord (d a : Reg) (op : Word → Word) : GoesOn (unWord i d a op s) := by
  unfold unWord
  exact goesOn_plainWord hg _ _

theorem goesOn_immWord (d a : Reg) (lit : Word) (op : Word → Word → Word) : GoesOn (immWord i d a lit op s) := by
  unfold immWord
  exact goesOn_plainWord hg _ _

theorem goesOn_typedWord (d a b : Reg) (ty : Ty) (sat : Bool) (op : Int → Int → Int) : GoesOn (typedWord i d a b ty sat op s) := by
  unfold typedWord
  exact goesOn_aluWord hg _ _

theorem goesOn_typedUnWord (d a : Reg) (ty : Ty) (sat : Bool) (op : Int → Int) : GoesOn (typedUnWord i d a ty sat op s) := by
  unfold typedUnWord
  exact goesOn_aluWord hg _ _

theorem goesOn_floatWord (d : Reg) (v : Nat → Fibre → Nat × Conds) : GoesOn (floatWord i d s v) := by
  unfold floatWord
  exact goesOn_aluWord hg _ _

theorem goesOn_packedWord (d : Reg) (r : Rnd) (op : Nat → Fibre → Nat → Nat → Nat × Conds) : GoesOn (packedWord i d r s op) := by
  unfold packedWord
  exact goesOn_roundWord hg _ _ _ _

theorem goesOn_floatBin (ty : Ty) (d a b : Reg) (r : Rnd) (op : FF → Rnd → Nat → Nat → Nat → Nat × Conds) :
    GoesOn (floatBin i ty d a b r op s) := by
  unfold floatBin
  exact goesOn_roundWord hg _ _ _ _

theorem goesOn_floatFma (ty : Ty) (d a b c : Reg) (r : Rnd) : GoesOn (floatFma i ty d a b c r s) := by
  unfold floatFma
  exact goesOn_roundWord hg _ _ _ _

theorem goesOn_floatUn (d a : Reg) (r : Rnd) (op : FF → Rnd → Nat → Nat → Nat × Conds) : GoesOn (floatUn i d a r op s) := by
  unfold floatUn
  exact goesOn_roundWord hg _ _ _ _

theorem goesOn_floatCmp (ty : Ty) (d a b c : Reg) (cond : BitVec 3) (merge : Bool) (tbl : BitVec 4) :
    GoesOn (floatCmp i ty d a b c cond merge tbl s) := by
  unfold floatCmp
  exact goesOn_predWord hg _

theorem goesOn_crossWord (c : Reg) : GoesOn (crossWord i c s) := by
  unfold crossWord
  dsimp only
  split
  · exact absurd ‹_› hg
  · exact ⟨_, rfl⟩
  · exact goesOn_ite ⟨_, rfl⟩ ⟨_, rfl⟩
  · exact goesOn_ite ⟨_, rfl⟩ (goesOn_ite ⟨_, rfl⟩ (goesOn_ite ⟨_, rfl⟩ ⟨_, rfl⟩))

end

theorem goesOn_execInv {h : Head} {t x y : Reg} {k : BitVec 2} {ty : InvTy} {dec : Bool} {tol : BitVec 5} {iter : BitVec 6}
    {s : State} (hg : gate (.inv h t x k ty y dec tol iter) s ≠ .noFibre) : GoesOn (execInv h t x k ty y dec tol iter s) := by
  unfold execInv
  dsimp only
  split
  · exact absurd ‹_› hg
  · exact ⟨_, rfl⟩
  · exact ⟨_, rfl⟩
  · exact goesOn_ite ⟨_, rfl⟩ ⟨_, rfl⟩

/-- An event's row of the table answers a next state, whatever the machine. -/
theorem goesOn_event {i : Instr} {s : State} (h : isEvent i = true) : GoesOn (exec i s) := by
  cases i with
  | variableLatencyComplete | loadDataArrival | storeAck | scratchpadLoadComplete | fibreEnd | groupResourceRelease | napWake
    | swapOut | checkpointSpillComplete | pacerFillComplete | walkComplete | mmaStart | mmaComplete | copyPieceLand |
    gathRowArrival | barwtTimeout | accTransferComplete | groupPlace | queueEntryArrive | qpopReturn | dcarmArrive |
    dcdecArrive | quiescenceRound | handlerTakeRecord | replayComplete | watchedOpResolve | resolutionAtHome | affirmApply |
    denyApply | resolutionAck | localCompletion | collEnd | collLoad | collSend | collRadd | collRecvAdd | collRecvCopy |
    collWrite | collSignal | collWaitge | tileWalkTile | walkPermitArrive | sigwtRecheck | forcedRotation | cohortRelease |
    queueCreditGrant | queueDeadlock | watchdogTest | wsLoadComplete | dtinvComplete | evictionStopTimeout | evictionSave |
    packageReset | launch | jobwait | wsload | halt | resume | kill | unlistedCommand | fabricPacketArrive |
    retransmitTimeout | interestArrive | faceDeadline | sigwtTimeout | dbgTokenResult | traceSample | instructionFetchError |
    hostInboundWrite | hostInboundRead | queueCreditReturn | wsPhaseEnter | wsPhaseLeave | wsLoadGo | wsRefreshStart |
    wsRefreshEnd | wsScrubVisit | dramScrubVisit | dieFatalError | dtinvPage | dtinvJob | dtinvAll | dtinvReservedScope |
    ceccClear | deccClear | cevdropClear | fpstatReplayClear | ucieLinkDown | hqSqDoorbell | hqCqDoorbell |
    lockInterfaceRequest | startInterfaceRequest | stopInterfaceRequest | getDeviceInterfaceReport | lockedFieldWrite |
    ideIntegrityFailure | functionLevelReset | salpolLock | voltageClockGlitch | fuseIntegrityFailure | powerLimit |
    thermalThrottle | thermalShutdown | flitCrcReplay | fabricLinkDown | fabricPacketForward | fabricAckArrive |
    collChunkArrive | collCreditGrant | collAbortReceive | tileReturn | dbgStepFibre | dbgStopSpan | dbgResumeSpan |
    dbgResumeFibre | dbgTokenVerify | topdownClear | topdownFreeze | noiseModeDirect | noiseModeLog | noiseModeReplay |
    registerWrite | fabricLinkRetrain | lifeCycleAdvance => exact ⟨_, rfl⟩
  | _ => exact absurd h Bool.false_ne_true

/-- Every event goes on, and every word whose fibre stands. -/
theorem goesOn_exec {i : Instr} {s : State} (h : isEvent i = true ∨ gate i s ≠ .noFibre) : GoesOn (exec i s) := by
  by_cases he : isEvent i = true
  · exact goesOn_event he
  replace h := h.resolve_left he
  cases i with
  | add | sub | mul | and | or | xor | andn | shl | shr | sar | rot =>
    simp only [exec_add, execAdd, exec_sub, execSub, exec_mul, execMul, exec_and, execAnd, exec_or, execOr, exec_xor,
      execXor, exec_andn, execAndn, exec_shl, execShl, exec_shr, execShr, exec_sar, execSar, exec_rot, execRot]
    exact goesOn_binWord h ..
  | neg | abs | not | clz | popc | brev =>
    simp only [exec_neg, execNeg, exec_abs, execAbs, exec_not, execNot, exec_clz, execClz, exec_popc, execPopc, exec_brev,
      execBrev]
    exact goesOn_unWord h ..
  | addTyped | subTyped | mulTyped | mulhi | minTyped | maxTyped =>
    simp only [exec_addTyped, execAddTyped, exec_subTyped, execSubTyped, exec_mulTyped, execMulTyped, exec_mulhi, execMulhi,
      exec_minTyped, execMinTyped, exec_maxTyped, execMaxTyped]
    exact goesOn_typedWord h ..
  | div | rem | dqnt =>
    simp only [exec_div, execDiv, exec_rem, execRem, exec_dqnt, execDqnt]
    exact goesOn_lateWord h ..
  | negTyped | absTyped =>
    simp only [exec_negTyped, execNegTyped, exec_absTyped, execAbsTyped]
    exact goesOn_typedUnWord h ..
  | mad | bfx | bfi | sel | movhi | movs =>
    simp only [exec_mad, execMad, exec_bfx, execBfx, exec_bfi, execBfi, exec_sel, execSel, exec_movhi, execMovhi, exec_movs,
      execMovs]
    exact goesOn_aluWord h ..
  | addImm | subImm | mulImm | andImm | orImm | xorImm | andnImm | shlImm | shrImm | sarImm | rotImm | minImm | minImmU |
    maxImm | maxImmU =>
    simp only [exec_addImm, execAddImm, exec_subImm, execSubImm, exec_mulImm, execMulImm, exec_andImm, execAndImm,
      exec_orImm, execOrImm, exec_xorImm, execXorImm, exec_andnImm, execAndnImm, exec_shlImm, execShlImm, exec_shrImm,
      execShrImm, exec_sarImm, execSarImm, exec_rotImm, execRotImm, exec_minImm, execMinImm, exec_minImmU, execMinImmU,
      exec_maxImm, execMaxImm, exec_maxImmU, execMaxImmU]
    exact goesOn_immWord h ..
  | movi | moviLit | pmovToReg | fclass =>
    simp only [exec_movi, execMovi, exec_moviLit, execMoviLit, exec_pmovToReg, execPmovToReg, exec_fclass, execFclass]
    exact goesOn_plainWord h ..
  | setp | plog | pmovToPred =>
    simp only [exec_setp, execSetp, exec_plog, execPlog, exec_pmovToPred, execPmovToPred]
    exact goesOn_predWord h ..
  | bra | call | brx | callx | ret =>
    simp only [exec_bra, execBra, exec_call, execCall, exec_brx, execBrx, exec_callx, execCallx, exec_ret, execRet]
    exact goesOn_jumpWord h ..
  | fadd | fsub | fmul | dadd | dmul =>
    simp only [exec_fadd, execFadd, exec_fsub, execFsub, exec_fmul, execFmul, exec_dadd, execDadd, exec_dmul, execDmul]
    exact goesOn_floatBin h ..
  | fdiv | fsqrt =>
    simp only [exec_fdiv, execFdiv, exec_fsqrt, execFsqrt]
    exact goesOn_lateRoundWord h ..
  | ffma | dfma =>
    simp only [exec_ffma, execFfma, exec_dfma, execDfma]
    exact goesOn_floatFma h ..
  | fmin | fmax | fex2 | flg2 | fsin | fcos | ftanh =>
    simp only [exec_fmin, execFmin, exec_fmax, execFmax, exec_fex2, execFex2, exec_flg2, execFlg2, exec_fsin, execFsin,
      exec_fcos, execFcos, exec_ftanh, execFtanh]
    exact goesOn_floatWord h ..
  | frcp | frsq | frnd =>
    simp only [exec_frcp, execFrcp, exec_frsq, execFrsq, exec_frnd, execFrnd]
    exact goesOn_floatUn h ..
  | fcmp | dcmp =>
    simp only [exec_fcmp, execFcmp, exec_dcmp, execDcmp]
    exact goesOn_floatCmp h ..
  | hadd2 | hmul2 | hfma2 =>
    simp only [exec_hadd2, execHadd2, exec_hmul2, execHmul2, exec_hfma2, execHfma2]
    exact goesOn_packedWord h ..
  | cvt =>
    simp only [exec_cvt, execCvt]
    exact goesOn_roundWord h ..
  | shfl | vote | spred | qswap | qbc =>
    simp only [exec_shfl, execShfl, exec_vote, execVote, exec_spred, execSpred, exec_qswap, execQswap, exec_qbc, execQbc]
    exact goesOn_crossWord h ..
  | inv => exact goesOn_execInv h
  | mov => rw [exec_mov, execMov]; exact goesOn_issueWord h _
  | movsw => rw [exec_movsw, execMovsw]; exact goesOn_issueWord h _
  | endFibre => rw [exec_endFibre, execEndFibre]; exact goesOn_issueWord h _
  | yield => rw [exec_yield, execYield]; exact goesOn_issueWord h _
  | nap => rw [exec_nap, execNap]; exact goesOn_issueWord h _
  | nop => rw [exec_nop, execNop]; exact goesOn_issueWord h _
  | loopReg => rw [exec_loopReg, execLoopReg]; exact goesOn_issueWord h _
  | loopImm => rw [exec_loopImm, execLoopImm]; exact goesOn_issueWord h _
  | lbrk => rw [exec_lbrk, execLbrk]; exact goesOn_issueWord h _
  | fork => rw [exec_fork, execFork]; exact goesOn_issueWord h _
  | qnt => rw [exec_qnt, execQnt]; exact goesOn_issueWord h _
  | rand => rw [exec_rand, execRand]; exact goesOn_issueWord h _
  | jmpt => rw [exec_jmpt, execJmpt]; exact goesOn_issueWord h _
  | padw => rw [exec_padw, execPadw]; exact goesOn_issueWord h _
  | trap => rw [exec_trap, execTrap]; exact goesOn_issueWord h _
  | ld => rw [exec_ld, execLd]; exact goesOn_issueWord h _
  | st => rw [exec_st, execSt]; exact goesOn_issueWord h _
  | atom => rw [exec_atom, execAtom]; exact goesOn_issueWord h _
  | red => rw [exec_red, execRed]; exact goesOn_issueWord h _
  | fence => rw [exec_fence, execFence]; exact goesOn_issueWord h _
  | efence => rw [exec_efence, execEfence]; exact goesOn_issueWord h _
  | cpasync => rw [exec_cpasync, execCpasync]; exact goesOn_issueWord h _
  | gath => rw [exec_gath, execGath]; exact goesOn_issueWord h _
  | waitc => rw [exec_waitc, execWaitc]; exact goesOn_issueWord h _
  | ftest => rw [exec_ftest, execFtest]; exact goesOn_issueWord h _
  | fcancel => rw [exec_fcancel, execFcancel]; exact goesOn_issueWord h _
  | oqpop => rw [exec_oqpop, execOqpop]; exact goesOn_issueWord h _
  | oqrel => rw [exec_oqrel, execOqrel]; exact goesOn_issueWord h _
  | aslice => rw [exec_aslice, execAslice]; exact goesOn_issueWord h _
  | astop => rw [exec_astop, execAstop]; exact goesOn_issueWord h _
  | ploop => rw [exec_ploop, execPloop]; exact goesOn_issueWord h _
  | afeed => rw [exec_afeed, execAfeed]; exact goesOn_issueWord h _
  | pwait => rw [exec_pwait, execPwait]; exact goesOn_issueWord h _
  | barinit => rw [exec_barinit, execBarinit]; exact goesOn_issueWord h _
  | bararr => rw [exec_bararr, execBararr]; exact goesOn_issueWord h _
  | barwt => rw [exec_barwt, execBarwt]; exact goesOn_issueWord h _
  | barst => rw [exec_barst, execBarst]; exact goesOn_issueWord h _
  | cvdecl => rw [exec_cvdecl, execCvdecl]; exact goesOn_issueWord h _
  | mma => rw [exec_mma, execMma]; exact goesOn_issueWord h _
  | accz => rw [exec_accz, execAccz]; exact goesOn_issueWord h _
  | accld => rw [exec_accld, execAccld]; exact goesOn_issueWord h _
  | accst => rw [exec_accst, execAccst]; exact goesOn_issueWord h _
  | accrd => rw [exec_accrd, execAccrd]; exact goesOn_issueWord h _
  | qpush => rw [exec_qpush, execQpush]; exact goesOn_issueWord h _
  | qpop => rw [exec_qpop, execQpop]; exact goesOn_issueWord h _
  | qpeek => rw [exec_qpeek, execQpeek]; exact goesOn_issueWord h _
  | qcnt => rw [exec_qcnt, execQcnt]; exact goesOn_issueWord h _
  | dcarm => rw [exec_dcarm, execDcarm]; exact goesOn_issueWord h _
  | dcdec => rw [exec_dcdec, execDcdec]; exact goesOn_issueWord h _
  | trig => rw [exec_trig, execTrig]; exact goesOn_issueWord h _
  | dwait => rw [exec_dwait, execDwait]; exact goesOn_issueWord h _
  | beat => rw [exec_beat, execBeat]; exact goesOn_issueWord h _
  | evpost => rw [exec_evpost, execEvpost]; exact goesOn_issueWord h _
  | evpop => rw [exec_evpop, execEvpop]; exact goesOn_issueWord h _
  | guess => rw [exec_guess, execGuess]; exact goesOn_issueWord h _
  | affirm => rw [exec_affirm, execAffirm]; exact goesOn_issueWord h _
  | deny => rw [exec_deny, execDeny]; exact goesOn_issueWord h _
  | tagq => rw [exec_tagq, execTagq]; exact goesOn_issueWord h _
  | puts => rw [exec_puts, execPuts]; exact goesOn_issueWord h _
  | get => rw [exec_get, execGet]; exact goesOn_issueWord h _
  | radd => rw [exec_radd, execRadd]; exact goesOn_issueWord h _
  | sigwt => rw [exec_sigwt, execSigwt]; exact goesOn_issueWord h _
  | want => rw [exec_want, execWant]; exact goesOn_issueWord h _
  | announce => rw [exec_announce, execAnnounce]; exact goesOn_issueWord h _
  | twalk => rw [exec_twalk, execTwalk]; exact goesOn_issueWord h _
  | permit => rw [exec_permit, execPermit]; exact goesOn_issueWord h _
  | cseq => rw [exec_cseq, execCseq]; exact goesOn_issueWord h _
  | sysc => rw [exec_sysc, execSysc]; exact goesOn_issueWord h _
  | rft => rw [exec_rft, execRft]; exact goesOn_issueWord h _
  | awrd => rw [exec_awrd, execAwrd]; exact goesOn_issueWord h _
  | awwr => rw [exec_awwr, execAwwr]; exact goesOn_issueWord h _
  | hstop => rw [exec_hstop, execHstop]; exact goesOn_issueWord h _
  | hresume => rw [exec_hresume, execHresume]; exact goesOn_issueWord h _
  | brkp => rw [exec_brkp, execBrkp]; exact goesOn_issueWord h _
  | trace => rw [exec_trace, execTrace]; exact goesOn_issueWord h _
  | mark => rw [exec_mark, execMark]; exact goesOn_issueWord h _
  | rep => rw [exec_rep, execRep]; exact goesOn_issueWord h _
  | variableLatencyComplete | loadDataArrival | storeAck | scratchpadLoadComplete | fibreEnd | groupResourceRelease | napWake
    | swapOut | checkpointSpillComplete | pacerFillComplete | walkComplete | mmaStart | mmaComplete | copyPieceLand |
    gathRowArrival | barwtTimeout | accTransferComplete | groupPlace | queueEntryArrive | qpopReturn | dcarmArrive |
    dcdecArrive | quiescenceRound | handlerTakeRecord | replayComplete | watchedOpResolve | resolutionAtHome | affirmApply |
    denyApply | resolutionAck | localCompletion | collEnd | collLoad | collSend | collRadd | collRecvAdd | collRecvCopy |
    collWrite | collSignal | collWaitge | tileWalkTile | walkPermitArrive | sigwtRecheck | forcedRotation | cohortRelease |
    queueCreditGrant | queueDeadlock | watchdogTest | wsLoadComplete | dtinvComplete | evictionStopTimeout | evictionSave |
    packageReset | launch | jobwait | wsload | halt | resume | kill | unlistedCommand | fabricPacketArrive |
    retransmitTimeout | interestArrive | faceDeadline | sigwtTimeout | dbgTokenResult | traceSample | instructionFetchError |
    hostInboundWrite | hostInboundRead | queueCreditReturn | wsPhaseEnter | wsPhaseLeave | wsLoadGo | wsRefreshStart |
    wsRefreshEnd | wsScrubVisit | dramScrubVisit | dieFatalError | dtinvPage | dtinvJob | dtinvAll | dtinvReservedScope |
    ceccClear | deccClear | cevdropClear | fpstatReplayClear | ucieLinkDown | hqSqDoorbell | hqCqDoorbell |
    lockInterfaceRequest | startInterfaceRequest | stopInterfaceRequest | getDeviceInterfaceReport | lockedFieldWrite |
    ideIntegrityFailure | functionLevelReset | salpolLock | voltageClockGlitch | fuseIntegrityFailure | powerLimit |
    thermalThrottle | thermalShutdown | flitCrcReplay | fabricLinkDown | fabricPacketForward | fabricAckArrive |
    collChunkArrive | collCreditGrant | collAbortReceive | tileReturn | dbgStepFibre | dbgStopSpan | dbgResumeSpan |
    dbgResumeFibre | dbgTokenVerify | topdownClear | topdownFreeze | noiseModeDirect | noiseModeLog | noiseModeReplay |
    registerWrite | fabricLinkRetrain | lifeCycleAdvance => exact absurd rfl he

theorem goesOn_after {u : State → State} {o : Host.Outcome State Fault Refusal} (h : GoesOn o) : GoesOn (after u o) := by
  obtain ⟨t, rfl⟩ := h
  exact ⟨_, rfl⟩

/-- Settles O9: a turn runs a word only of a fibre that stands there, and neither a word nor an event answers anything but a next state. -/
theorem everyStepGoesOn : Obligations.EveryStepGoesOn := by
  intro s
  unfold step State.take
  split
  · exact ⟨_, rfl⟩
  · split <;> rename_i h
    · exact ⟨_, rfl⟩
    · exact goesOn_after (goesOn_exec (.inr (gate_ne_noFibre (fibre_of_prepare h))))
  · split <;> rename_i h
    · exact goesOn_after (goesOn_exec (.inl (by simp_all [State.admits])))
    · exact ⟨_, rfl⟩

end Sys2Proof.Turns

/-! SUPPORT. Control words: the special registers, branches and simple control, loops, prefixes and FORK (R49 to R53, R80, R105 to R113). -/

namespace Sys2Proof.ControlWords
open Sys2Proof Sys2Proof.Machine Sys2Proof.ScalarWords

section
variable {i : Instr} {s : State} {f : Fibre}

/-- The fibre that executes is the one whose turn it is. -/
theorem fibre_of_executes (hx : Executes i s f) : s.fibre? s.cur = some f := by
  unfold Executes gate at hx
  dsimp only at hx
  split at hx
  · cases hx
  · split at hx
    · cases hx
    · split at hx
      · cases hx
      · split at hx
        · cases hx
        · cases hx
          assumption

/-- A word whose row of the table is the issue of a body has the body's effect where it executes. -/
theorem exec_issued {body : Nat → Fibre → State} (he : exec i s = issueWord i s body) (hx : Executes i s f) :
    exec i s = .next (body s.cur f) := he.trans (issueWord_go hx body)

end

/-! ## Special registers (R48, R105) -/

theorem movsw_go {h : Head} {d a : Reg} {s : State} {f : Fibre} (hx : Executes (.movsw h d a) s f) :
    let v2 := if srWide a.toNat then f.read s.cur (d.toNat + 1) else 0
    (groupSpecial a.toNat = false → Leaves (.movsw h d a) s s f (f.writeSpecial a.toNat (src s f d) v2)) ∧
    (groupSpecial a.toNat = true → Leaves (.movsw h d a) s
      (if f.isHelper then s else s.modGroup f.grp fun g => g.writeSpecial a.toNat (src s f d) v2) f f) := by
  have he := (exec_movsw h d a s).trans (issueWord_go hx _)
  constructor <;> intro hg <;> simp only [hg] at he <;> exact he

/-- Settles O21: MOVS and MOVSW by the number of their register. -/
theorem specialRegistersMove : Obligations.SpecialRegistersMove := by
  intro h d a s f v pair writes
  refine ⟨sets_aluWord (v := fun _ f => (s.readSpecial f a.toNat, Conds.none)) (exec_movs h d a s), fun hx => ?_⟩
  obtain ⟨own, shared⟩ := movsw_go hx
  have at_ : ∀ n, a.toNat = n → groupSpecial n = false →
      writes (f.writeSpecial n v (if srWide n then f.read s.cur (d.toNat + 1) else 0)) := by
    rintro _ rfl hn
    exact own hn
  refine ⟨fun ha => at_ 0x08 ha rfl, fun ha => ?_, fun ha hr hh => ?_, fun ha => at_ 0x0F ha rfl, fun ha => at_ 0x10 ha rfl,
    fun ha => at_ 0x11 ha rfl, fun ha => at_ 0x15 ha rfl, fun ha => at_ 0x1A ha rfl, fun h0 h1 => ?_, fun ha hh => ?_,
    fun ha hh => ?_, fun ha hh => ?_⟩
  · have hl := at_ 0x09 ha rfl
    simpa only [Fibre.writeSpecial, List.isEmpty_iff] using hl
  · have hk := at_ 0x0A ha rfl
    simpa [Fibre.writeSpecial, Fibre.repHeld, hr, hh] using hk
  · have hk : f.writeSpecial a.toNat v (if srWide a.toNat then f.read s.cur (d.toNat + 1) else 0) =
        { f with ks := f.ks.set (a.toNat - 0x20) v } := by
      unfold Fibre.writeSpecial
      split
      case h_13 => exact if_pos h0
      all_goals omega
    exact hk ▸ at_ _ rfl (by simp [groupSpecial]; omega)
  · have hg := shared (ha ▸ rfl)
    simpa only [hh, if_true] using hg
  · have hg := shared (ha ▸ rfl)
    simp only [hh, ha] at hg
    exact hg
  · have hg := shared (ha ▸ rfl)
    simp only [hh, ha] at hg
    exact hg

/-! ## Simple control (R53, R58, R80, R107, R108) -/

/-- Settles O24: each simple word by its row, and TRAP by what stands before a trap. -/
theorem simpleWordsAct : Obligations.SimpleWordsAct := by
  intro h a s f n
  refine ⟨fun hx => exec_issued (exec_nop h s) hx, fun hx => exec_issued (exec_padw h s) hx,
    fun hx => exec_issued (exec_yield h s) hx, fun hx => ?_, fun hx => ?_, fun hx => ?_⟩
  · have he := (exec_nap h a s).trans (issueWord_go hx _)
    exact ⟨fun hn => he.trans (congrArg _ (if_pos hn)), fun hn => he.trans (congrArg _ (if_neg hn))⟩
  · have he := (exec_endFibre h s).trans (issueWord_go hx _)
    refine ⟨fun ht => ?_, fun ht => ?_⟩ <;> simp only [ht] at he <;> exact he
  · refine ⟨fun t ht => ?_, fun ht => ?_⟩ <;> simp only [exec_trap, execTrap, issueWord_go hx, ht]

/-! ## Branches and calls (R44, R106) -/

theorem jumps_jumpWord {i : Instr} {s : State} {f : Fibre} {target : Nat → Fibre → DWord} {link : Bool}
    (he : exec i s = jumpWord i s target link) (hx : Executes i s f) :
    Jumps i s f (if link then { f with lr := f.nextClause } else f) (target s.cur f) := he.trans (jumpWord_go hx _ _)

theorem branches_jump (h : Head) (off : BitVec 21) (a : Reg) (s : State) (f : Fibre) :
    let near := f.pc + (off.signExtend 64 <<< 2)
    let far := joinPair (src s f a) (f.read s.cur (a.toNat + 1))
    (Executes (.bra h off) s f → Jumps (.bra h off) s f f near) ∧
    (Executes (.call h off) s f → Jumps (.call h off) s f { f with lr := f.nextClause } near) ∧
    (Executes (.brx h a) s f → Jumps (.brx h a) s f f far) ∧
    (Executes (.callx h a) s f → Jumps (.callx h a) s f { f with lr := f.nextClause } far) ∧
    (Executes (.ret h) s f → Jumps (.ret h) s f f f.lr) :=
  ⟨jumps_jumpWord (target := fun _ f => f.near off) (link := false) (exec_bra h off s),
   jumps_jumpWord (target := fun _ f => f.near off) (link := true) (exec_call h off s),
   jumps_jumpWord (target := fun k f => f.readPair k a.toNat) (link := false) (exec_brx h a s),
   jumps_jumpWord (target := fun k f => f.readPair k a.toNat) (link := true) (exec_callx h a s),
   jumps_jumpWord (target := fun _ f => f.lr) (link := false) (exec_ret h s)⟩

/-! ## JMPT (R53) -/

theorem jmpt_go {h : Head} {idx : BitVec 20} {s t : State} {f : Fibre} {j : Job} {loc : Nat} (hx : Executes (.jmpt h idx) s f)
    (hj : s.job? (s.jobOf f) = some j) :
    let e := w64 (leNat (t.getBytes loc 8))
    let traps := fun (u : State) => exec (.jmpt h idx) s = .next (u.userTrap s.cur
      (wordTrap f (s.issuedWords f (.jmpt h idx)).1 (s.issuedWords f (.jmpt h idx)).2 0x0B) f.rp false)
    (j.trampN ≤ idx.toNat → traps s) ∧
    (idx.toNat < j.trampN → s.walkBlocked f .g (j.tramp + BitVec.ofNat 64 (8 * idx.toNat)).toNat 8 .read = false →
      s.findNow f .g (j.tramp + BitVec.ofNat 64 (8 * idx.toNat)).toNat 8 .read = (.at_ loc, t) →
      t.poisonedAt loc 8 = false →
      (e = 0 ∨ badHeader e = true → traps t) ∧
      (e ≠ 0 → badHeader e = false → exec (.jmpt h idx) s = .next (t.finishTo s.cur (.jmpt h idx) f f e))) := by
  simp only [exec_jmpt, execJmpt, issueWord_go hx, hj, Option.getD_some]
  refine ⟨fun hn => ?_, fun hn hw hf hp => ⟨fun hb => ?_, fun h0 hb => ?_⟩⟩
  · rw [if_pos hn]
  · rw [if_neg (by omega), hw, hf]
    simp only [hp, Bool.false_eq_true, if_false]
    rw [if_pos (by simpa using hb)]
  · rw [if_neg (by omega), hw, hf]
    simp only [hp, Bool.false_eq_true, if_false]
    rw [if_neg (by simpa using ⟨h0, hb⟩)]

/-! ## FORK (R79, R113) -/

/-- What a fence below .sc leaves of its fibre: all it reads, and more that it has seen. -/
theorem fenceAt_fibre {s : State} {k : Nat} {f : Fibre} (hf : s.fibre? k = some f) (sc : Scope) :
    ∃ g, (s.fenceAt k f sc false).fibre? k = some g ∧ (∀ x ∈ f.seen, x ∈ g.seen) ∧
      g = { f with seen := g.seen, acqs := g.acqs, rels := g.rels } := by
  refine ⟨_, State.setFibre_fibre?_same hf, fun x hx => ?_, rfl⟩
  simp [Fibre.join, joinView, hx]

theorem meetsPoison_nil (s : State) (k : Nat) (f : Fibre) (i : Instr) : s.meetsPoison k f i [] = none := rfl

/-- The low registers of a child are the arguments it was given (R74). -/
theorem initRegs_low {j : Job} {gid slots fid n : Nat} {args : List Word} (hn : 16 ≤ n) {r : Nat} (hr : r < 8) :
    (initRegs j gid slots fid n args).getD r 0 = args.getD r 0 := by
  unfold initRegs
  rw [if_neg (by omega)]
  simp only [List.getD_eq_getElem?_getD]
  rw [List.getElem?_set_ne (by omega), List.getElem?_set_ne (by omega)]
  simp [show r < n by omega, hr]

theorem forkChild_reg {s : State} {k : Nat} {f old : Fibre} {g : Group} {target : DWord} (hn : 16 ≤ f.regs.length) {r : Nat}
    (hr : r < 8) : (s.forkChild k f old g target).reg r = f.read k r := by
  refine (initRegs_low hn hr).trans ?_
  simp [Fibre.readRun, List.getD_eq_getElem?_getD, hr]

theorem fork_go {h : Head} {d : Reg} {off : BitVec 32} {s : State} {f : Fibre} (hx : Executes (.fork h d off) s f) :
    let gives := fun (u : State) (g : Fibre) (v : Word) => Leaves (.fork h d off) s (withResult u s.cur f [(d.toNat, v)]) f g
    (f.isHelper = true → gives s f 0xFFFFFFFF) ∧
    (Free f → s.accessesDone s.cur f = true → (∀ r ∈ s.pendingSlots s.cur, 8 ≤ r) → (∀ e ∈ f.handles, 8 ≤ e.1) →
      (∀ e ∈ f.poison, 8 ≤ e.1) →
      (∀ g c old, s.group? f.grp = some g → s.freeSlot f.grp = some (c, old) →
        let v := s.fenceAt s.cur f .grp false
        let f1 := (v.fibre? s.cur).getD f
        gives (v.setFibre c (v.forkChild s.cur f1 old g (f.pc + (off.signExtend 64 <<< 2)))) f1 (BitVec.ofNat 32 old.fid)) ∧
      (s.freeSlot f.grp = none → gives s f 0xFFFFFFFF)) := by
  simp only [Leaves, withResult, exec_fork, execFork, issueWord_go hx]
  refine ⟨fun hh => ?_, fun hfree hd hp hhd hps => ?_⟩
  · rw [if_pos hh]
  · obtain ⟨hh, ht⟩ := hfree
    have hp' : (s.pendingSlots s.cur).any (· < 8) = false := by simpa using hp
    have hh' : f.handles.any (·.1 < 8) = false := by simpa using hhd
    have hs' : f.poison.filter (·.1 < 8) = [] := by simpa using hps
    simp only [hh, ht, hd, hp', hh', hs', meetsPoison_nil]
    refine ⟨fun g c old hg ho => ?_, fun ho => ?_⟩
    · rw [hg, ho]
      rfl
    · rw [ho]
      cases s.group? f.grp <;> rfl

/-- Settles O23: jumps, the trampoline and the child of FORK. -/
theorem controlWordsAct : Obligations.ControlWordsAct := by
  refine ⟨branches_jump, fun h idx s t f j loc hx hj => jmpt_go hx hj, fun h d off s f hx => ?_⟩
  obtain ⟨helper, free⟩ := fork_go hx
  refine ⟨helper, fun hf hd hp hh hs => ?_⟩
  obtain ⟨child, full⟩ := free hf hd hp hh hs
  refine ⟨fun g c old hg ho => ?_, full⟩
  obtain ⟨f1, hf1, hseen, heq⟩ := fenceAt_fibre (fibre_of_executes hx) .grp
  have hc := child g c old hg ho
  simp only [hf1, Option.getD_some] at hc ⊢
  refine ⟨hc, hseen, rfl, fun hn r hr => ?_⟩
  rw [forkChild_reg (by rw [heq]; exact hn) hr, heq]
  rfl

/-! ## Loops (R110, R112, R157) -/

/-- LOOP enters the nest, or passes the loop where the count is 0, once its walk has found the end clause inside the loop around it. -/
theorem startLoop_found {s t : State} {k : Nat} {i : Instr} {f : Fibre} {cnt : Word} {last : BitVec 16} {e x : DWord}
    (hl : f.loops.length < 4) (hin : ∀ o ∈ f.loops.head?, x.toNat ≤ o.exit.toNat)
    (hw : s.walkLoop f (f.pc + BitVec.ofNat 64 (4 * last.toNat)) (last.toNat + 2) f.nextClause = (.found e x, t)) :
    s.startLoop k i f cnt last = if cnt = 0 then t.finishTo k i f f x
      else t.finishTo k i f { f with loops := ⟨f.nextClause, e, x, f.lc⟩ :: f.loops, lc := cnt } f.nextClause := by
  have hout : (f.loops.head?.map fun l => decide (x.toNat > l.exit.toNat)).getD false = false := by
    cases ho : f.loops.head? with
    | none => rfl
    | some o => simpa using hin o ho
  unfold State.startLoop
  simp only [hw, hout]
  rw [if_neg (by omega)]
  rfl

theorem loopReg_go {h : Head} {a : Reg} {last : BitVec 16} {s : State} {f : Fibre} (hx : Executes (.loopReg h a last) s f) :
    exec (.loopReg h a last) s = .next (s.startLoop s.cur (.loopReg h a last) f (src s f a) last) :=
  exec_issued (exec_loopReg ..) hx

theorem loopImm_go {h : Head} {cnt last : BitVec 16} {s : State} {f : Fibre} (hx : Executes (.loopImm h cnt last) s f) :
    exec (.loopImm h cnt last) s = .next (s.startLoop s.cur (.loopImm h cnt last) f (cnt.setWidth 32) last) :=
  exec_issued (exec_loopImm ..) hx

/-- PLOOP is a LOOP wherever its walk does not fail in translation. -/
theorem ploop_go {h : Head} {a : Reg} {last : BitVec 13} {s t : State} {f : Fibre} {e x : DWord}
    (hx : Executes (.ploop h a last) s f)
    (hw : s.walkLoop f (f.pc + BitVec.ofNat 64 (4 * last.toNat)) (last.toNat + 2) f.nextClause = (.found e x, t)) :
    exec (.ploop h a last) s = .next (s.startLoop s.cur (.ploop h a last) f (src s f a) (last.setWidth 16)) := by
  simp only [exec_ploop, execPloop, issueWord_go hx, hw]
  rfl

theorem lbrk_go {h : Head} {n : BitVec 32} {s : State} {f : Fibre} (hx : Executes (.lbrk h n) s f) :
    (∀ o, f.loops[n.toNat - 1]? = some o →
      Jumps (.lbrk h n) s f { f with loops := f.loops.drop n.toNat, lc := o.outer } o.exit) ∧
    (f.loops[n.toNat - 1]? = none → exec (.lbrk h n) s = .next (s.userTrap s.cur { f.xr with cls := 0x15 } f.rp false)) := by
  simp only [Jumps, exec_lbrk, execLbrk, issueWord_go hx]
  exact ⟨fun o ho => by rw [ho], fun ho => by rw [ho]⟩

/-! ## REP and INV (R49, R52) -/

theorem rep_go {stop sd sa sb sc two : Bool} {n : BitVec 6} {s : State} {f : Fibre}
    (hx : Executes (.rep stop n sd sa sb sc two) s f) :
    let i := Instr.rep stop n sd sa sb sc two
    exec i s = .next ((s.setFibre s.cur { (f.counted f i true s.clk) with
      rep := some f.rp, rc := BitVec.ofNat 32 (n.toNat + 1), run := .ready }).noteIssue s.cur f i true) := by
  simp only [exec_rep, execRep, issueWord_go hx]
  rfl

theorem inv_go {h : Head} {t x y : Reg} {k : BitVec 2} {ty : InvTy} {dec : Bool} {tol : BitVec 5} {iter : BitVec 6} {s : State}
    {f : Fibre} (hx : Executes (.inv h t x k ty y dec tol iter) s f) :
    let i := Instr.inv h t x k ty y dec tol iter
    let lo := f.ks.getD (2 * k.toNat) 0
    let hi := f.ks.getD (2 * k.toNat + 1) 0
    let v := InvRun.start f i s.cur t x y k ty dec tol iter (s.routine f).2.2
    (invNan ty lo = true ∨ invNan ty hi = true ∨ (ordKey ty hi).toNat < (ordKey ty lo).toNat →
      exec i s = .next (s.invTrap s.cur f v 0x16 2)) ∧
    (invNan ty lo = false → invNan ty hi = false → (ordKey ty lo).toNat ≤ (ordKey ty hi).toNat →
      ∃ g, exec i s = .next ((s.setFibre s.cur g).noteIssue s.cur f i true) ∧ g.inv = some v ∧ g.rp = ⟨f.nextClause, 0⟩ ∧
        (x.toNat < f.regs.length → g.reg x.toNat = lo) ∧ (∀ r, r ≠ x.toNat → g.reg r = f.reg r) ∧ g.preds = f.preds) := by
  have hg : gate (.inv h t x k ty y dec tol iter) s = .go f := hx
  simp only [exec_inv, execInv, hg]
  refine ⟨fun hb => ?_, fun hlo hhi hle => ?_⟩
  · rw [if_pos (by simpa [InvRun.start, or_assoc] using hb)]
  · rw [if_neg (by
      simp only [InvRun.start, hlo, hhi, Bool.or_false, Bool.false_or]
      simpa using hle)]
    refine ⟨_, rfl, rfl, rfl, fun hr => ?_, fun r hr => ?_, rfl⟩
    · rw [Fibre.setReg_reg_same]
      · rfl
      · exact hr
    · rw [Fibre.setReg_reg_other]
      · rfl
      · exact hr

/-- Settles O25: the loops by their walk, LBRK by its nest, REP and INV by their rows. -/
theorem loopsAndPrefixesBegin : Obligations.LoopsAndPrefixesBegin := by
  refine ⟨fun h a cnt last last13 n s t f e x => ?_, fun _ _ _ _ _ _ _ _ _ hx => rep_go hx, fun _ _ _ _ _ _ _ _ _ _ _ hx => inv_go hx⟩
  refine ⟨fun hn hw => ⟨fun hx => ?_, fun hx => ?_⟩, fun hn hw hx => ?_, lbrk_go⟩
  · exact (loopReg_go hx).trans (congrArg _ (startLoop_found hn.1 hn.2 hw))
  · exact (loopImm_go hx).trans (congrArg _ (startLoop_found hn.1 hn.2 hw))
  · have hlast : (last13.setWidth 16).toNat = last13.toNat := by simp; omega
    exact (ploop_go hx hw).trans (congrArg _ (startLoop_found hn.1 hn.2 (hlast ▸ hw)))

end Sys2Proof.ControlWords

/-! SUPPORT. A step as the word or event whose turn it is, and how words and headers are fetched (R29 to R34, R43, R55, R59, R82). -/

namespace Sys2Proof.Fetching
open Sys2Proof Sys2Proof.Machine Sys2Proof.ScalarWords

/-! ## The turn's word (R43, R56, R82) -/

theorem instr_of_decode {r : Raw} {i : Instr} (hd : decode r = .ok i) : (decodeRaw r).instr = some i := by
  obtain ⟨cs, hs, -⟩ := row_of_decode hd
  rw [decodeRaw_of_row hs]

/-- A word without a cause lies wholly in its clause. -/
theorem framed_of_wordCauses {cls idx count nregs ntiles : Nat} {pacer priv : Bool} {r : Raw} {i : Instr}
    (hi : (decodeRaw r).instr = some i) (hc : wordCauses cls idx count nregs ntiles pacer priv r = []) :
    ¬count < idx + wordCount r.w0 r.w1 := by
  intro hlt
  simp [wordCauses, hi, placeCauses, causesOf, hlt] at hc

section
variable {s v w : State} {k : Nat} {f : Fibre} {r : Raw} {i : Instr}

/-- A fibre that may issue, with nothing owed and its clause open, goes on to its word. -/
theorem prepare_of_open (hf : s.fibre? k = some f) (hm : s.mayIssue f = true) (ho : f.owed = none) (hl : f.lost = false)
    (hh : f.hdr ≠ none) : s.prepare k = ({ s with cur := k } : State).prepareWord k := by
  obtain ⟨h, hh⟩ := Option.ne_none_iff_exists'.1 hh
  simp [State.prepare, hf, hm, ho, hl, State.openClause, hh]

variable (hf : s.fibre? k = some f) (hr : f.rep = none) (hi : f.inv = none)
  (hw : s.fetchInstr f f.rp.idx f.header.count = (.ok r, v)) (hd : decode r = .ok i)
  (hc : wordCauses f.header.cls f.rp.idx f.header.count (v.allocation f).1 (v.allocation f).2 f.isPacer f.privileged r = [])
  (hp : f.isPacer = false) (hs : r.h.stop = true → v.stopSite k f (BitVec.ofNat 64 f.rp.addr) = (false, v))
include hf hr hi hw hd hc hp hs

/-- A word with nothing against it where it stands runs; REP and INV first have their framing judged. -/
theorem prepareWord_of_decode :
    ((∀ a b c d e g t, i ≠ .rep a b c d e g t) → (∀ a b c d e g t x y, i ≠ .inv a b c d e g t x y) → s.prepareWord k = .run v i) ∧
    (∀ a b c d e g t, i = .rep a b c d e g t →
      v.prepareRep k f f.header r (v.allocation f).1 (v.allocation f).2 = (none, w) → s.prepareWord k = .run w i) ∧
    (∀ a b c d e g t x y, i = .inv a b c d e g t x y →
      v.prepareInv k f f.header r [] (v.allocation f).1 (v.allocation f).2 = (none, w) → s.prepareWord k = .run w i) := by
  have hdi := instr_of_decode hd
  have hfr := framed_of_wordCauses hdi hc
  have hst : (if r.h.stop = true then v.stopSite k f (BitVec.ofNat 64 f.rp.addr) else (false, v)) = (false, v) := by
    split
    · exact hs ‹_›
    · rfl
  rw [hp] at hc
  refine ⟨fun _ _ => ?_, fun a b c d e g t hrep hj => ?_, fun a b c d e g t x y hinv hj => ?_⟩
  all_goals
    subst_vars
    unfold State.prepareWord
    simp only [State.repWord, lowest, Option.isSome_none, Option.isNone_none, Bool.false_and, Bool.and_true, Bool.false_eq_true,
      if_false, if_true, gt_iff_lt, *]

end

theorem step_of_fibre {s u w : State} {k : Nat} {i : Instr} (ht : s.nextTurn = (some (.fibre k), u)) (hp : u.prepare k = .run w i) :
    step s = after State.follow (exec i w) := by
  simp only [step, State.take, ht, hp]

theorem step_of_event {s u : State} {i : Instr} (ht : s.nextTurn = (some (.event i), u)) (ha : u.admits i = true) :
    step s = after State.followEvent (exec i u) := by
  simp only [step, State.take, ht, ha, if_true]

/-- Settles O1: the turn's fibre reaches its word, whose framing and causes are judged, and the word's row gives the step. -/
theorem aStepRunsTheDecodedWord : Obligations.AStepRunsTheDecodedWord := by
  intro s u v w k f r i
  refine ⟨step_of_fibre, fun ht hf hm ho hl hh hr hi hw hd hc hp hs => ?_, step_of_event⟩
  have hprep := prepare_of_open hf hm ho hl hh
  obtain ⟨plain, rep, inv⟩ := prepareWord_of_decode (w := w) (s := { u with cur := k }) hf hr hi hw hd hc hp hs
  refine ⟨fun h1 h2 => step_of_fibre ht (hprep.trans (plain h1 h2)), fun a b c d e g t hrep hj => ?_,
    fun a b c d e g t x y hinv hj => ?_⟩
  · exact step_of_fibre ht (hprep.trans (rep a b c d e g t hrep hj))
  · exact step_of_fibre ht (hprep.trans (inv a b c d e g t x y hinv hj))

/-! ## Fetching (R29, R30, R34, R55, R59) -/

theorem look_assign_same {α : Type} (k : Nat) (v : α) (l : List (Nat × α)) : look k (assign k v l) = some v := by
  induction l with
  | nil => exact if_pos rfl
  | cons e l ih =>
    by_cases h : e.1 = k
    · simp only [assign, h, if_true, look]
    · simp only [assign, h, if_false, look, ih]

@[simp] theorem State.core_modCore_same (s : State) (c : Nat) (u : Core → Core) : (s.modCore c u).core c = u (s.core c) := by
  simp [State.core, State.modCore, look_assign_same]

@[simp] theorem State.cluster_modCluster_same (s : State) (c : Nat) (u : Cluster → Cluster) :
    (s.modCluster c u).cluster c = u (s.cluster c) := by
  simp [State.cluster, State.modCluster, look_assign_same]

@[simp] theorem State.die_modDie_same (s : State) (d : Nat) (u : Die → Die) : (s.modDie d u).die d = u (s.die d) := by
  simp [State.die, State.modDie, look_assign_same]

/-- A word that has been fetched is found in the cache, where no earlier copy is. -/
theorem find?_keepWord {c : Core} {job : Nat} {a : DWord} {w : Word}
    (h : c.icache.find? (fun e => e.1 == job && e.2.1 == a) = none) :
    (c.keepWord job a w).icache.find? (fun e => e.1 == job && e.2.1 == a) = some (job, a, w) := by
  have hn : c.icache.length + 1 - icacheWords ≤ c.icache.length := by
    unfold icacheWords
    omega
  have hd : (c.icache.drop (c.icache.length + 1 - icacheWords)).find? (fun e => e.1 == job && e.2.1 == a) = none := by
    rw [List.find?_eq_none] at h ⊢
    exact fun e he => h e (List.mem_of_mem_drop he)
  simp only [Core.keepWord]
  rw [List.drop_append_of_le_length hn, List.find?_append, hd]
  simp

theorem cached_keepWord {s : State} {c job : Nat} {a : DWord} {w : Word} (h : s.cached c job a = none) :
    (s.modCore c fun x => x.keepWord job a w).cached c job a = some w := by
  simp only [State.cached, State.core_modCore_same] at h ⊢
  rw [Option.map_eq_none_iff] at h
  rw [find?_keepWord h]
  rfl

theorem fetchWord_cached {s : State} {f : Fibre} {a : DWord} {w : Word}
    (h : s.cached (s.site f).coreIx (s.jobOf f) a = some w) : s.fetchWord f a = (.ok w, s) := by
  simp only [State.fetchWord, h]

theorem fetchWord_far {s : State} {f : Fibre} {a : DWord} (h : s.cached (s.site f).coreIx (s.jobOf f) a = none)
    (ha : 2 ^ 57 ≤ a.toNat) : s.fetchWord f a = (.bad 1, s) := by
  simp only [State.fetchWord, h, ge_iff_le, ha, if_true]

theorem fetchWord_memory {s t : State} {f : Fibre} {a : DWord} {loc : Nat}
    (h : s.cached (s.site f).coreIx (s.jobOf f) a = none) (ha : a.toNat < 2 ^ 57)
    (hf : s.find f .g a.toNat 4 .fetch = (.at_ loc, t)) (hp : t.poisonedAt loc 4 = false) :
    s.fetchWord f a = (.ok (BitVec.ofNat 32 (leNat (t.getBytes loc 4))),
      t.modCore (s.site f).coreIx fun c => c.keepWord (s.jobOf f) a (BitVec.ofNat 32 (leNat (t.getBytes loc 4)))) := by
  simp only [State.fetchWord, h, ge_iff_le, Nat.not_le.2 ha, if_false, hf, hp, Bool.false_eq_true]
  rfl

theorem openClause_latches {s t : State} {k : Nat} {f : Fibre} {w : Word} (hh : f.hdr = none) (hb : badHeader f.rp.hdr = false)
    (hw : s.fetchWord f f.rp.hdr = (.ok w, t)) (hc : headerCauses w = [])
    (hp : f.isPacer = false ∨ (Header.ofWord w).guard < 16)
    (hn : f.rp.idx ≠ 0 ∨ f.clauseWaits (Header.ofWord w) = false) :
    s.openClause k f = (none, t.modFibre k fun f => { f with hdr := some w }) := by
  have hg : (f.isPacer && decide ((Header.ofWord w).guard ≥ 16)) = false := by
    rw [Bool.and_eq_false_iff, decide_eq_false_iff_not]
    exact hp.imp_right Nat.not_le.2
  have hi : (decide (f.rp.idx = 0) && f.clauseWaits (Header.ofWord w)) = false := by
    rw [Bool.and_eq_false_iff, decide_eq_false_iff_not]
    exact hn
  simp only [State.openClause, hh, hb, hw, hc, lowest, hg, hi, Bool.and_false, Bool.false_eq_true, if_false]

/-- Settles O2: the cache first, then memory, then the header's latch. -/
theorem wordsAreFetched : Obligations.WordsAreFetched := by
  intro s t k f a w loc bs core
  refine ⟨fetchWord_cached, fetchWord_far, fun hc ha hf hp => ?_, openClause_latches, rfl⟩
  exact ⟨_, fetchWord_memory hc ha hf hp, rfl, rfl, cached_keepWord⟩

end Sys2Proof.Fetching

/-! SUPPORT. Cross-lane exchanges: what their members are given, and a fault that a tainted fibre holds (R58, R86, R130 to R132). -/

namespace Sys2Proof.Lanes
open Sys2Proof Sys2Proof.Machine

/-! ## What members are given (R130 to R132) -/

/-- The bits gathered from the members whose predicate holds. -/
theorem testBit_gather (ms : List Member) (n j : Nat) :
    (ms.foldl (fun n m => if m.p then n ||| 1 <<< m.lane else n) n).testBit j = (n.testBit j || ms.any fun m => m.lane == j && m.p) := by
  induction ms generalizing n with
  | nil => simp
  | cons m ms ih =>
    rw [List.foldl_cons, ih, List.any_cons, ← Bool.or_assoc]
    congr 1
    cases m.p
    · simp
    · simp only [if_true, Nat.one_shiftLeft, Nat.testBit_or, Nat.testBit_two_pow, Bool.and_true, beq_eq_decide]

theorem voteMask_getLsbD (ms : List Member) {j : Nat} (hj : j < 32) :
    (w32 (ms.foldl (fun n m => if m.p then n ||| 1 <<< m.lane else n) 0)).getLsbD j = ms.any fun m => m.lane == j && m.p := by
  rw [w32, BitVec.getLsbD_ofNat, testBit_gather]
  simp [hj]

/-- Some but not all of a list pass a test. -/
theorem split_iff {α : Type} (p : α → Bool) (l : List α) :
    ((l.filter p).length != 0 && (l.filter p).length != l.length) = decide (0 < (l.filter p).length ∧ (l.filter p).length < l.length) := by
  have hle := List.length_filter_le p l
  rw [Bool.eq_iff_iff]
  simp only [Bool.and_eq_true, bne_iff_ne, ne_eq, decide_eq_true_eq]
  omega

/-- The value of a lane is that of the one member in it. -/
theorem laneVals_of_mem {ms : List Member} {m : Member} (hm : m ∈ ms) (hd : ms.Pairwise fun x y => x.lane ≠ y.lane) :
    laneVals ms m.lane = some m.vals := by
  induction ms with
  | nil => cases hm
  | cons x ms ih =>
    rw [List.pairwise_cons] at hd
    obtain rfl | hm := List.mem_cons.1 hm
    · simp [laneVals]
    · have hne : (x.lane == m.lane) = false := by simpa using hd.1 m hm
      have hi := ih hm hd.2
      rw [laneVals] at hi ⊢
      rw [List.find?_cons, hne]
      exact hi

/-- Settles O31: a vote is a fold over its members; a quad partner is the one member in its lane. -/
theorem votesAndQuadsGive : Obligations.VotesAndQuadsGive := by
  intro h d a b c ty dir lane ms me yes give
  refine ⟨fun _ => ⟨_, rfl, fun j hj => voteMask_getLsbD ms hj⟩, rfl, ?_, rfl, ?_, fun m hm hd hl => ?_, fun m hm hd hl => ?_⟩
  · simp only [give, crossGive, List.filter_filter, Bool.and_comm]
    rfl
  · simp only [give, crossGive, split_iff]
    rfl
  · simp only [crossGive, ← hl, laneVals_of_mem hm hd, Option.getD_some]
  · simp only [crossGive, ← hl, laneVals_of_mem hm hd, Option.getD_some]

/-! ## A bad mask of a tainted fibre (R58, R86) -/

/-- A fibre of one assumption whose registers hold 3: as a mask, its own lane and that of a fibre that does not exist. -/
def guessing : Fibre := { Fibre.fresh .real 0 0 16 0 0 0 with regs := List.replicate 16 3, taint := [(1, 0)] }
/-- A machine with that fibre alone. -/
def guessingAlone : State := { State.reset with fibres := [guessing], cur := 0 }
/-- A VOTE whose mask is w3. -/
def voteWord : Instr := .vote ⟨0, false, false⟩ 1 0 2 3 .mask

theorem voteWord_executes : Executes voteWord guessingAlone guessing := rfl

/-- The tainted fibre holds the fault until its taint is empty: it owes the trap. -/
theorem exec_voteWord : ∃ t f, exec voteWord guessingAlone = .next t ∧ t.fibre? 0 = some f ∧ f.owed ≠ none :=
  ⟨_, _, rfl, rfl, by decide⟩

/-- A trap taken at once leaves it owing nothing. -/
theorem userTrap_owed (x : TrapRegs) (p : RP) {f : Fibre} (hf : (guessingAlone.userTrap 0 x p false).fibre? 0 = some f) : f.owed = none := by
  have h : (guessingAlone.userTrap 0 x p false).fibre? 0 = some { guessing with run := .waiting .tag, woken := false } := rfl
  cases h.symm.trans hf
  rfl

/-- Refutes O30: a tainted fibre whose mask names an absent slot does not take the member fault 0x11 but owes it (R58); a trap taken at
once, as the statement has it, leaves nothing owed. -/
theorem not_crossLaneWordsExchange : ¬ Obligations.CrossLaneWordsExchange := by
  rintro ⟨h, -⟩
  have hv := (h ⟨0, false, false⟩ 1 0 2 3 0 .lane .mask .add .s32 .rn false 0 0 guessingAlone guessing rfl).2.1 voteWord_executes
  obtain ⟨t, f, ht, hf, ho⟩ := exec_voteWord
  have he := Host.Outcome.next.inj (ht.symm.trans (hv.2.1 (by decide) (by decide)))
  exact ho (userTrap_owed _ _ (he ▸ hf))

end Sys2Proof.Lanes

/-! SUPPORT. Traps as they are taken and the words that return from them (R59, R78, R156, R259 to R270). -/

namespace Sys2Proof.Traps
open Sys2Proof Sys2Proof.Machine Sys2Proof.ControlWords

/-! ## What a trap meets before it is taken (R58, R259, R267) -/

section
variable {s : State} {k : Nat} {f : Fibre}

theorem barTrap_real (hk : f.kind = .real) (ht : f.taint = []) : s.barTrap k f = none := by
  simp [State.barTrap, Fibre.isHelper, Fibre.isPacer, Fibre.tainted, Fibre.isHandler, hk, ht]

theorem barTrap_helper (hk : f.kind = .helper) :
    s.barTrap k f = some (s.setFibre k { f with run := .halted, wait := none, arrive := none }) := by
  simp [State.barTrap, Fibre.isHelper, hk]

theorem barTrap_pacer (hk : f.kind = .pacer) : s.barTrap k f = some (s.sliceFault f.grp) := by
  simp [State.barTrap, Fibre.isHelper, Fibre.isPacer, hk]

theorem barTrap_tainted (hk : f.kind = .real) (ht : f.taint ≠ []) :
    s.barTrap k f = some (s.setFibre k { f with run := .waiting .tag, woken := false }) := by
  simp [State.barTrap, Fibre.isHelper, Fibre.isPacer, Fibre.tainted, hk, ht]

theorem barTrap_handler {core slot : Nat} (hk : f.kind = .handler core slot) (ht : f.taint = []) :
    s.barTrap k f = some (s.coreFatal (s.site f).coreIx 0 f.fid) := by
  simp [State.barTrap, Fibre.isHelper, Fibre.isPacer, Fibre.tainted, Fibre.isHandler, hk, ht]

theorem userTrap_barred {t : State} (hf : s.fibre? k = some f) (hb : s.barTrap k f = some t) (x : TrapRegs) (p : RP) (after : Bool) :
    s.userTrap k x p after = t := by
  simp only [State.userTrap, hf, hb]

theorem systemTrap_barred {t : State} (hf : s.fibre? k = some f) (hb : s.barTrap k f = some t) (kind code : Nat) (p : RP) (a b : Word) :
    s.systemTrap k kind code p a b = t := by
  simp only [State.systemTrap, hf, hb]

end

/-! ## User traps (R262, R264) -/

theorem badHeader_iff (a : DWord) : badHeader a = true ↔ a.toNat % 4 ≠ 0 ∨ 2 ^ 57 ≤ a.toNat := by
  have hlt := a.isLt
  have h0 : a.extractLsb' 0 2 = 0#2 ↔ a.toNat % 4 = 0 := by
    rw [← BitVec.toNat_inj, BitVec.extractLsb'_toNat]
    simp
  have h1 : a.extractLsb' 57 7 = 0#7 ↔ a.toNat < 2 ^ 57 := by
    rw [← BitVec.toNat_inj, BitVec.extractLsb'_toNat, Nat.shiftRight_eq_div_pow]
    simp only [BitVec.toNat_ofNat]
    omega
  simp only [badHeader, Bool.or_eq_true, bne_iff_ne, ne_eq, h0, h1, not_lt]

/-- Settles O51: a plain fibre's trap enters the handler where its header is good and the fibre is in none. -/
theorem userTrapsAreTaken : Obligations.UserTrapsAreTaken := by
  intro s k f x p after hf hk ht hi u y bad
  have hb : (f.inH || decide (u = 0) || badHeader u) = true ↔ bad := by
    simp only [Bool.or_eq_true, decide_eq_true_eq, badHeader_iff, bad, or_assoc]
  have hp : f.trapPoint p = p := by simp only [Fibre.trapPoint, hi]
  have htrap : s.userTrap k x p after = if f.inH || u = 0 || badHeader u then
      (s.setFibre k { f with xr := y, rp := p, inv := none, wait := none, owed := none, run := .stopped, holds := [.fault], stopClk := s.clk }).faultJob
        (s.jobOf f) 3
      else s.setFibre k (f.enterHandler y p after (s.headerAt f p) u) := by
    simp only [State.userTrap, hf, barTrap_real hk ht, hp]
    rfl
  rw [htrap]
  refine ⟨fun h => ?_, fun h => ?_⟩
  · rw [if_neg (mt hb.1 h), Fibre.enterHandler, ← hi]
  · rw [if_pos (hb.2 h), ← hi]

/-! ## System traps (R265, R266) -/

theorem modCore_congr {s : State} {c : Nat} {u v : Core → Core} (h : u (s.core c) = v (s.core c)) : s.modCore c u = s.modCore c v := by
  simp only [State.modCore, h]

/-- A plain fibre's system trap puts its record to its core's queue. -/
theorem systemTrap_real {s : State} {k kind code : Nat} {f : Fibre} {p : RP} {a b : Word} (hf : s.fibre? k = some f)
    (hk : f.kind = .real) (ht : f.taint = []) (hi : f.inv = none) (hs : f.service = []) :
    s.systemTrap k kind code p a b = (s.setFibre k { f with
      xr := { f.xr with spo := s.spoAt f p }, rp := p, hdr := s.headerAt f p, wait := none, run := .stopped, stopIn := none,
      holds := f.holds ++ [.trap], stopClk := s.clk, reported := false, walked := none }).modCore (s.site f).coreIx
        (·.pushTrap (s.trapRecord f (some k) kind code p a b)) := by
  have hp : f.trapPoint p = p := by simp only [Fibre.trapPoint, hi]
  simp only [State.systemTrap, hf, barTrap_real hk ht, hp, hs, List.reverse_nil]
  rw [← hi]

/-- Settles O52: the record in the queue or behind it, and the four that bar a trap. -/
theorem systemTrapsAreTaken : Obligations.SystemTrapsAreTaken := by
  refine ⟨fun s k kind code f p a b g hf hk ht hi hs hg => ?_, fun s k kind code f x p after a b hf => ?_⟩
  · intro core rec8 stopped
    have hrec : s.trapRecord f (some k) kind code p a b = rec8 := by
      simp only [State.trapRecord, hg]
      rfl
    have htrap := systemTrap_real (kind := kind) (code := code) (p := p) (a := a) (b := b) hf hk ht hi hs
    rw [hrec] at htrap
    refine ⟨fun hw hl => htrap.trans (modCore_congr ?_), fun hl => htrap.trans (modCore_congr ?_)⟩
    · exact if_pos (by
        rw [Bool.and_eq_true, decide_eq_true_eq, List.isEmpty_iff]
        exact ⟨hw, hl⟩)
    · exact if_neg (by
        simp only [Bool.and_eq_true, decide_eq_true_eq, not_and, not_lt]
        exact fun _ => hl)
  · exact ⟨fun hk => ⟨userTrap_barred hf (barTrap_helper hk) .., systemTrap_barred hf (barTrap_helper hk) ..⟩,
      fun hk => ⟨userTrap_barred hf (barTrap_pacer hk) .., systemTrap_barred hf (barTrap_pacer hk) ..⟩,
      fun hk ht => ⟨userTrap_barred hf (barTrap_tainted hk ht) .., systemTrap_barred hf (barTrap_tainted hk ht) ..⟩,
      fun _ _ hk ht => ⟨userTrap_barred hf (barTrap_handler hk ht) .., systemTrap_barred hf (barTrap_handler hk ht) ..⟩⟩

/-! ## SYSC and RFT (R269, R270) -/

theorem sysc_go {h : Head} {n : Reg} {s : State} {f : Fibre} (hx : Executes (.sysc h n) s f) (hk : f.kind = .real) (ht : f.taint = []) :
    let g := (f.counted f (.sysc h n) true s.clk).pass 2
    exec (.sysc h n) s = .next (((s.setFibre s.cur g).noteIssue s.cur f (.sysc h n) true).systemTrap s.cur 9 n.toNat g.rp 0 0) := by
  simp only [exec_sysc, execSysc, issueWord_go hx, barTrap_real hk ht]

section
variable {h : Head} {a : Reg} {norep : Bool} {mode : RftMode} {s : State} {f : Fibre} (hx : Executes (.rft h a norep mode) s f)
include hx

/-- Outside a handler RFT is cause 0x1C. -/
theorem rft_outside (hs : f.serving = none) (hn : f.inH = false ∨ f.ret = none) :
    exec (.rft h a norep mode) s = .next (s.userTrap s.cur { f.xr with cls := 0x1C } f.rp false) := by
  simp only [exec_rft, execRft, issueWord_go hx, hs]
  obtain hn | hn := hn <;> rw [hn]
  cases f.inH <;> rfl

/-- In a user handler RFT returns, unless .skip has no word to pass or .end meets a taint. -/
theorem rft_user {r : TrapReturn} (hs : f.serving = none) (hi : f.inH = true) (hr : f.ret = some r)
    (hb : (mode = .skip && atHeader r.rp r.hdr) = false) (ht : (mode = .endFibre && f.tainted) = false) :
    exec (.rft h a norep mode) s =
      .next (s.userReturn s.cur (.rft h a norep mode) f r norep mode (joinPair (src s f a) (f.read s.cur (a.toNat + 1)))) := by
  simp only [exec_rft, execRft, issueWord_go hx, hs, hi, hr, hb, ht]
  rfl

/-- In a handler fibre whose record's fibre stands no more, RFT only makes it idle. -/
theorem rft_handler_none {r : TrapRec} (hs : f.serving = some r) (hf : r.fib ≠ none) (hr : s.trapped r = none) :
    exec (.rft h a norep mode) s = .next ((s.finish s.cur (.rft h a norep mode) f f).modFibre s.cur Fibre.idle) := by
  obtain ⟨x, hf⟩ := Option.ne_none_iff_exists'.1 hf
  simp only [exec_rft, execRft, issueWord_go hx, hs, hf, hr]

/-- In a handler fibre RFT returns to its record's fibre, and makes itself idle where no replay is awaited. -/
theorem rft_handler {r : TrapRec} {t : Nat} {x : Fibre} {u : State} (hs : f.serving = some r) (hf : r.fib ≠ none)
    (hr : s.trapped r = some (t, x)) (hb : (mode = .skip && atHeader x.rp x.hdr) = false)
    (hu : (s.finish s.cur (.rft h a norep mode) f f).handlerReturn t x norep mode
      (joinPair (src s f a) (f.read s.cur (a.toNat + 1))) = (u, true)) :
    exec (.rft h a norep mode) s = .next (u.modFibre s.cur Fibre.idle) := by
  obtain ⟨y, hf⟩ := Option.ne_none_iff_exists'.1 hf
  simp only [exec_rft, execRft, issueWord_go hx, hs, hf, hr, hb]
  simp only [src, ← Fibre.readPair.eq_1] at hu
  simp only [hu]
  rfl

end

theorem userReturn_continues {s : State} {k : Nat} {i : Instr} {f : Fibre} {r : TrapReturn} {norep : Bool} {mode : RftMode}
    {dest : DWord} (hm : mode ≠ .endFibre ∧ mode ≠ .faultJob) (hn : norep = true ∨ f.replay = []) :
    s.userReturn k i f r norep mode dest = (s.setFibre k { s.continueAt { (f.counted f i true s.clk) with
      inH := false, ret := none, reported := r.report && mode == RftMode.ret, rp := r.rp, hdr := r.hdr } mode dest r.after r.rep with
        replay := [] }).noteIssue k f i true := by
  have hc : (norep || f.replay.isEmpty) = true := by simpa using hn
  cases mode <;> simp_all [State.userReturn]

theorem handlerReturn_continues {s : State} {t : Nat} {f : Fibre} {norep : Bool} {mode : RftMode} {dest : DWord}
    (hm : mode ≠ .endFibre ∧ mode ≠ .faultJob) (hn : norep = true ∨ f.replay = []) :
    s.handlerReturn t f norep mode dest = ((s.setFibre t { s.continueAt f mode dest false f.rep.isSome with
      run := f.run, holds := f.holds, replay := [] }).resumeTarget t, true) := by
  have hc : (norep || f.replay.isEmpty) = true := by simpa using hn
  cases mode <;> simp_all [State.handlerReturn]

/-- Settles O53: SYSC by its record's point, RFT by where it stands and its mode. -/
theorem trapWordsReturn : Obligations.TrapWordsReturn := by
  intro h n a norep s f
  refine ⟨sysc_go, fun mode => ?_⟩
  intro i base dest
  refine ⟨fun hx hs => ⟨rft_outside hx hs, fun r hi hr hn => ?_⟩, fun r t x hx hs hf => ?_⟩
  · intro b at_ continues
    have user := fun hb ht => rft_user (mode := mode) hx hs hi hr hb ht
    refine ⟨fun hm => ?_, fun hm => ?_, fun hm hh => ?_, fun hm ht => ?_, fun hm => ?_⟩ <;> subst hm
    · exact (user rfl rfl).trans (congrArg _ (userReturn_continues (by decide) hn))
    · exact (user rfl rfl).trans (congrArg _ (userReturn_continues (by decide) hn))
    · exact (user hh rfl).trans (congrArg _ (userReturn_continues (by decide) hn))
    · exact user rfl ht
    · exact user rfl rfl
  · intro u back resumes
    refine ⟨rft_handler_none hx hs hf, fun hr => ⟨fun hn => ⟨fun hm => ?_, fun hm => ?_, fun hm hh => ?_⟩, fun hm => ?_, fun hm => ?_⟩⟩ <;>
      subst hm
    · exact rft_handler hx hs hf hr rfl (handlerReturn_continues (by decide) hn)
    · exact rft_handler hx hs hf hr rfl (handlerReturn_continues (by decide) hn)
    · exact rft_handler hx hs hf hr hh (handlerReturn_continues (by decide) hn)
    · exact rft_handler hx hs hf hr rfl rfl
    · exact rft_handler hx hs hf hr rfl rfl

end Sys2Proof.Traps

/-! SUPPORT. Handler fibres, the access window, HSTOP and HRESUME; debug words, commands and samples (R265 to R273, R357 to R371). -/

namespace Sys2Proof.Handlers
open Sys2Proof Sys2Proof.Machine

/-- A fibre that stands is changed by setting it to what it becomes. -/
theorem modFibre_eq_setFibre {s : State} {k : Nat} {f : Fibre} (hf : s.fibre? k = some f) (u : Fibre → Fibre) :
    s.modFibre k u = s.setFibre k (u f) := by
  have hk : s.fibres[k]? = some f := hf
  simp [State.modFibre, State.setFibre, List.modify_eq_set_getElem?, hk]

/-! ## Handler fibres (R265) -/

/-- The first element of a list, with its place, that is of those picked and meets a condition. -/
theorem find_filter_indexed {α : Type} {l : List α} {k : Nat} {x : α} {pick cond : Nat × α → Bool} (hl : l[k]? = some x)
    (hp : pick (k, x) = true) (hc : cond (k, x) = true)
    (hfirst : ∀ j y, j < k → l[j]? = some y → pick (j, y) = true → cond (j, y) = false) :
    ((l.mapIdx fun k y => (k, y)).filter pick).find? cond = some (k, x) := by
  obtain ⟨hlt, rfl⟩ := List.getElem?_eq_some_iff.1 hl
  rw [List.find?_filter, List.find?_eq_some_iff_getElem]
  refine ⟨by simp [hp, hc], k, by simpa using hlt, by simp, fun j hj => ?_⟩
  have hjl : j < l.length := by omega
  have hother := hfirst j l[j] hj (List.getElem?_eq_getElem hjl)
  cases hpick : pick (j, l[j]) <;> simp [hpick, hother]

theorem handlerTakeRecord_idle {s : State} {core k slot : Nat} {old : Fibre} {r : TrapRec} {rest : List TrapRec}
    (hq : (s.core core).trapq = r :: rest) (he : (s.core core).chentry ≠ 0) (hd : (s.core core).dead = false)
    (hf : s.fibre? k = some old) (hk : old.kind = .handler core slot) (hs : old.serving = none)
    (hfirst : ∀ j y n, j < k → s.fibre? j = some y → y.kind = .handler core n → y.serving ≠ none) :
    exec (.handlerTakeRecord core) s = .next ((s.setFibre k { handlerFibre core slot (s.core core).chentry r s.clk with
      issued := old.issued, wseq := old.wseq }).modCore core fun x =>
        { x with trapq := rest, frozen := max x.frozen s.clk + 4 }.refillTraps) := by
  simp only [exec_handlerTakeRecord, execHandlerTakeRecord, hq]
  rw [if_neg (by simpa [hd] using he), find_filter_indexed hf (by simp [hk]) (by simp [hs])]
  · simp only [hk]
    rfl
  · intro j y hj hy hmine
    dsimp only at hmine
    split at hmine
    · rename_i c n hkind
      rw [beq_iff_eq] at hmine
      simpa [Option.isSome_iff_ne_none] using hfirst j y n hj hy (hmine ▸ hkind)
    · cases hmine

/-! ## The access window (R271, R272) -/

section
variable {h : Head} {d a b c : Reg} {s : State} {f x : Fibre} {g : Group} {t : Nat}

theorem awrd_go (hx : Executes (.awrd h d a b c) s f) :
    let it := itemOf (src s f b).toNat x.regs.length g.spad
    let free := ∀ off, it = .spad off → s.loggedByOther t (s.spLoc g off) 4 = false
    (s.windowTarget f (src s f a) = none → Leaves (.awrd h d a b c) s s f (f.setReg c.toNat 1)) ∧
    (s.windowTarget f (src s f a) = some (t, x, g) → it = .none → Leaves (.awrd h d a b c) s s f (f.setReg c.toNat 2)) ∧
    (s.windowTarget f (src s f a) = some (t, x, g) → it ≠ .none → free →
      Leaves (.awrd h d a b c) s s f ((f.setReg d.toNat (s.itemValue t x g it).1).setReg c.toNat (s.itemValue t x g it).2)) := by
  intro it free
  simp only [Leaves, exec_awrd, execAwrd, issueWord_go hx]
  refine ⟨fun ht => ?_, fun ht hi => ?_, fun ht hi hf => ?_⟩ <;> replace ht : s.windowTarget f (f.read s.cur a.toNat) = _ := ht
  · simp only [ht]
  · replace hi : itemOf (f.read s.cur b.toNat).toNat x.regs.length g.spad = .none := hi
    simp only [ht, hi]
    rfl
  · simp only [ht]
    refine congrArg Host.Outcome.next ((if_neg ?_).trans (if_neg hi))
    split
    · simp [hf _ (by assumption)]
    · decide

theorem awwr_go (hx : Executes (.awwr h d a b c) s f) :
    let it := itemOf (src s f b).toNat x.regs.length g.spad
    let free := ∀ off, it = .spad off → s.loggedByOther t (s.spLoc g off) 4 = false
    (s.windowTarget f (src s f a) = none → Leaves (.awwr h d a b c) s s f (f.setReg c.toNat 1)) ∧
    (∀ u o, s.windowTarget f (src s f a) = some (t, x, g) → free → s.windowWrite t x g (src s f d) it = some (u, o) →
      Leaves (.awwr h d a b c) s u f (f.setReg c.toNat (if o then 4 else 0))) ∧
    (s.windowTarget f (src s f a) = some (t, x, g) → free → s.windowWrite t x g (src s f d) it = none →
      Leaves (.awwr h d a b c) s s f (f.setReg c.toNat 2)) := by
  intro it free
  simp only [Leaves, exec_awwr, execAwwr, issueWord_go hx]
  refine ⟨fun ht => ?_, fun u o ht hf hw => ?_, fun ht hf hw => ?_⟩ <;>
    replace ht : s.windowTarget f (f.read s.cur a.toNat) = _ := ht
  · simp only [ht]
  all_goals
    replace hw : s.windowWrite t x g (f.read s.cur d.toNat) (itemOf (f.read s.cur b.toNat).toNat x.regs.length g.spad) = _ := hw
    simp only [ht, hw]
    refine congrArg Host.Outcome.next ((if_neg ?_).trans ?_)
  · split
    · simp [hf _ (by assumption)]
    · decide
  · cases o <;> rfl
  · split
    · simp [hf _ (by assumption)]
    · decide
  · rfl

/-! ## HSTOP and HRESUME (R273) -/

theorem hstop_go {grp : Bool} (hx : Executes (.hstop h d a grp) s f) :
    let named := if grp then (s.resident? (s.site f).coreIx (src s f a).toNat).map (·.1) else none
    let l := launched s f .none (some d.toNat) (.stop (if grp then none else some (src s f a).toNat) named)
    Leaves (.hstop h d a grp) s (l.2.2.mapFibres fun _ x => if s.selected f (src s f a) grp x then x.askStop s.clk .hstop else x) f l.2.1 := by
  simp only [Leaves, exec_hstop, execHstop, issueWord_go hx]
  rfl

theorem hresume_go {grp : Bool} (hx : Executes (.hresume h a grp) s f) :
    let held := fun (x : Fibre) => s.selected f (src s f a) grp x && (x.holds.contains .hstop || x.stopReq.contains .hstop)
    (s.fibres.find? held = none → Leaves (.hresume h a grp) s s f f) ∧
    (s.fibres.find? held = some x → Leaves (.hresume h a grp) s (({ s with cores := s.cores.map fun c =>
      (c.1, { c.2 with icache := c.2.icache.filter fun e => e.1 != s.jobOf x }) } : State).mapFibres fun _ x =>
        if held x then x.release .hstop else x) f f) := by
  simp only [Leaves, src, exec_hresume, execHresume, issueWord_go hx]
  exact ⟨fun hn => by rw [hn], fun hs => by rw [hs]; rfl⟩

end

/-! ## Replays (R261) -/

theorem replayComplete_user {s : State} {k : Nat} {f : Fibre} {p : RP} (hf : s.fibre? k = some f) (hr : f.run = .waiting .replay)
    (hw : f.wait = some (.replay p)) (hs : f.serving = none) :
    (s.replayDone k = true → exec (.replayComplete k) s = .next (s.setFibre k { f with wait := none, run := .ready })) ∧
    (s.replayDone k = false → exec (.replayComplete k) s = .next s) := by
  simp only [exec_replayComplete, execReplayComplete, hf, hr, hw, hs]
  refine ⟨fun hd => ?_, fun hd => ?_⟩
  · rw [if_pos hd, modFibre_eq_setFibre hf, hs]
  · rw [hd, if_neg (by decide)]

/-- Settles O54: the first idle handler fibre, the window by its target and item, and the rest by their rows. -/
theorem handlerWordsAct : Obligations.HandlerWordsAct := by
  intro h d a b c grp core k s f x g t r rest it free sel
  exact ⟨fun old slot hq he hd hf hk hs hfirst => handlerTakeRecord_idle hq he hd hf hk hs hfirst, awrd_go, awwr_go, hstop_go,
    hresume_go, fun p hf hr hw hs => replayComplete_user hf hr hw hs⟩

/-! ## BRKP, TRACE and MARK (R370, R371) -/

section
variable {h : Head} {n id : BitVec 8} {a b : Reg} {two : Bool} {m : BitVec 13} {s : State} {f : Fibre}

theorem brkp_go (hx : Executes (.brkp h n) s f) :
    (f.isHelper = true ∨ f.privileged = true ∨ s.feature 0 = false → Leaves (.brkp h n) s s f f) ∧
    (f.isHelper = false → f.privileged = false → s.feature 0 = true →
      let g := ((f.counted f (.brkp h n) true s.clk).pass 2).hold s.clk .debug
      exec (.brkp h n) s = .next (((s.debugRecord (s.site f).coreIx 2 0 (s.ordAt f f.rp).toNat n.toNat f 0 0 0).setFibre s.cur
        { g with stepping := false }).noteIssue s.cur f (.brkp h n) true)) := by
  simp only [Leaves, exec_brkp, execBrkp, issueWord_go hx]
  refine ⟨fun hc => ?_, fun hh hp hf => ?_⟩
  · rw [if_pos (by simpa [or_assoc] using hc)]
  · rw [hh, hp, hf]
    rfl

theorem trace_go (hx : Executes (.trace h a b two id) s f) :
    (f.isHelper = true → Leaves (.trace h a b two id) s s f f) ∧
    (f.isHelper = false → Leaves (.trace h a b two id) s
      (s.debugRecord (s.site f).coreIx 7 0 (s.ordAt f f.rp).toNat id.toNat f 0 (src s f a) (if two then src s f b else 0)) f f) := by
  simp only [Leaves, src, exec_trace, execTrace, issueWord_go hx]
  exact ⟨fun hh => if_pos hh ▸ rfl, fun hh => by rw [hh, if_neg (by decide)]⟩

theorem mark_go (hx : Executes (.mark h m) s f) :
    (f.isHelper = true → Leaves (.mark h m) s s f f) ∧
    (f.isHelper = false → Leaves (.mark h m) s
      (s.debugRecord (s.site f).coreIx 8 0 (s.ordAt f f.rp).toNat 0 f 0 (m.setWidth 32) (f.mark.setWidth 32)) f { f with mark := m }) := by
  simp only [Leaves, exec_mark, execMark, issueWord_go hx]
  exact ⟨fun hh => if_pos hh ▸ rfl, fun hh => by rw [hh, if_neg (by decide)]⟩

end

/-! ## Debug commands (R361) -/

section
variable {core fid k : Nat} {g : Option Nat} {s : State}

theorem dbgStepFibre_go (hc : s.command core 0 = some (g, fid)) :
    (s.debugStopped g fid = some k → exec (.dbgStepFibre core) s = .next ((s.modFibre k fun f =>
      { f.debugGo with stepping := true, passCmp := f.wait.isNone && f.arrive.isNone }).commandDone core true)) ∧
    (s.debugStopped g fid = none → exec (.dbgStepFibre core) s = .next (s.commandDone core false)) := by
  simp only [exec_dbgStepFibre, execDbgStepFibre, hc]
  exact ⟨fun hs => by rw [hs], fun hs => by rw [hs]⟩

theorem dbgStopSpan_found {x : Nat} {l : List (Nat × Fibre)} (hc : s.command core 1 = some (some x, fid))
    (hl : s.spanOf (some x) fid = l) (hn : l ≠ []) :
    exec (.dbgStopSpan core) s = .next (((l.foldl (fun s p => s.modFibre p.1 fun f => f.askStop s.clk .debug) s).modCore core fun c =>
      { c with spans := c.spans ++ [(x, fid / 32)], spanSet := c.spanSet.filter (· != (x, fid / 32)) ++ [(x, fid / 32)] }).commandDone
        core true) := by
  obtain ⟨p, l', rfl⟩ := List.exists_cons_of_ne_nil hn
  simp only [exec_dbgStopSpan, execDbgStopSpan, hc, hl]

theorem dbgStopSpan_empty (hc : s.command core 1 = some (g, fid)) (hl : s.spanOf g fid = []) :
    exec (.dbgStopSpan core) s = .next (s.commandDone core false) := by
  simp only [exec_dbgStopSpan, execDbgStopSpan, hc, hl]

theorem dbgResumeSpan_go {l : List (Nat × Fibre)} (hc : s.command core 2 = some (g, fid))
    (hl : (s.spanOf g fid).filter (fun p => p.2.run == .stopped && p.2.holds.contains .debug) = l) :
    (g = none → exec (.dbgResumeSpan core) s = .next ((l.foldl (fun s p => s.modFibre p.1 Fibre.debugGo) s).commandDone core (!l.isEmpty))) ∧
    (∀ x, g = some x → exec (.dbgResumeSpan core) s = .next ((l.foldl (fun s p => s.modFibre p.1 Fibre.debugGo)
      (s.modCore core fun c => { c with spanSet := c.spanSet.filter (· != (x, fid / 32)) })).commandDone core (!l.isEmpty))) := by
  simp only [exec_dbgResumeSpan, execDbgResumeSpan, hc, hl]
  exact ⟨fun hg => by rw [hg], fun x hg => by rw [hg]⟩

theorem dbgResumeFibre_go (hc : s.command core 3 = some (g, fid)) :
    (s.debugStopped g fid = some k → exec (.dbgResumeFibre core) s = .next ((s.modFibre k Fibre.debugGo).commandDone core true)) ∧
    (s.debugStopped g fid = none → exec (.dbgResumeFibre core) s = .next (s.commandDone core false)) := by
  simp only [exec_dbgResumeFibre, execDbgResumeFibre, hc]
  exact ⟨fun hs => by rw [hs], fun hs => by rw [hs]⟩

end

/-! ## Tokens and samples (R357, R367) -/

theorem dbgTokenResult_go {s : State} (hb : s.pkg.dbgBusy = true) :
    let t := (s.pkg.dbgtok ++ List.replicate 256 0).take 256
    let done := fun (mask : BitVec 4) => s.modPkg fun p =>
      { p with dbgBusy := false, dbgStat := tokenStatus t s.pkg.nonce, dbgFeat := p.dbgFeat ||| mask }
    (tokenStatus t s.pkg.nonce = 0 → exec .dbgTokenResult s = .next (done (BitVec.ofNat 4 (leNat ((t.drop 72).take 1))))) ∧
    (tokenStatus t s.pkg.nonce ≠ 0 → exec .dbgTokenResult s = .next ((done 0).alarm 3 0 0 0 0)) := by
  intro t done
  simp only [exec_dbgTokenResult, execDbgTokenResult, hb]
  refine ⟨fun hs => ?_, fun hs => ?_⟩
  · rw [if_neg (by decide), if_pos hs, if_pos hs]
  · rw [if_neg (by decide), if_neg hs, if_neg hs]

theorem sample_due {s : State} {core leaf : Nat} {still : Option Nat} {f : Fibre} :
    let per := bitsOf (s.core core).trr.ctl.toNat 15 11
    let j := s.clk / 2 ^ (min per 20 + 4)
    let u := s.modCore core fun c => { c with samples := j }
    per ≠ 0 → s.feature 1 = true → s.clk % 2 ^ (min per 20 + 4) = 0 → j ≠ (s.core core).samples →
    u.charged core (j % 4) still = (some f, leaf) →
    s.sample core still = u.debugRecord core 9 0 (u.ordAt f f.here).toNat leaf f 0 (f.mark.setWidth 32) (BitVec.ofNat 32 (j % 4)) := by
  intro per j u hper hfeat hclk hnew hch
  have hp : (s.core core).samplePeriod = 2 ^ (min per 20 + 4) := if_neg hper
  have hpos : 2 ^ (min per 20 + 4) ≠ 0 := by positivity
  simp only [State.sample, hp]
  rw [if_neg (by simp only [hfeat, hclk, hpos]; simpa using hnew)]
  simp only [j, u] at hch ⊢
  rw [hch]
  rfl

/-- Settles O55: the debug words by their fibre and features, the commands by what they name, the sample by its period. -/
theorem debugActs : Obligations.DebugActs := by
  refine ⟨fun h n id a b two m s f => ⟨brkp_go, trace_go, mark_go⟩, fun core fid k g s f l on => ?_⟩
  refine ⟨dbgStepFibre_go, fun x hc hl hn => dbgStopSpan_found hc hl hn, dbgStopSpan_empty, dbgResumeSpan_go, dbgResumeFibre_go,
    exec_dbgTokenVerify s, dbgTokenResult_go, fun hf => ?_, fun hf => ?_, ?_⟩
  · simp only [exec_topdownClear, execTopdownClear, exec_topdownFreeze, execTopdownFreeze, hf, if_true, and_self]
  · simp only [exec_noiseModeDirect, execNoiseModeDirect, exec_noiseModeLog, execNoiseModeLog, exec_noiseModeReplay,
      execNoiseModeReplay, hf, if_true]
    exact ⟨rfl, rfl, rfl⟩
  · intro per j hper hfeat hclk hnew u leaf hch
    rw [exec_traceSample, execTraceSample, sample_due hper hfeat hclk hnew hch]

end Sys2Proof.Handlers

/-! SUPPORT. What happens to the die, the package and the host port (R242 to R254, R303 to R311). -/

namespace Sys2Proof.Outside
open Sys2Proof Sys2Proof.Machine

/-! ## The weight store (R242 to R246) -/

section
variable {die : Nat} {s : State}

theorem wsPhaseEnter_blocked (hb : (s.groups.any fun g => g.die == die && g.core < 8 && !g.out && !g.exited && !g.freed &&
      s.jobMapsWeight die g.job) = true) :
    exec (.wsPhaseEnter die) s = .next (s.modDie die fun d => { d with wsctl := wsStatus (d.wsctl &&& ~~~1#32) .access }) := by
  simp only [exec_wsPhaseEnter, execWsPhaseEnter, State.wsEnter, hb, if_true]

theorem wsPhaseEnter_free (hb : (s.groups.any fun g => g.die == die && g.core < 8 && !g.out && !g.exited && !g.freed &&
      s.jobMapsWeight die g.job) = false) :
    exec (.wsPhaseEnter die) s =
      .next (s.modDie die fun d => { d with wsctl := wsStatus (d.wsctl ||| 1) .ok, wsLeave := false }) := by
  simp only [exec_wsPhaseEnter, execWsPhaseEnter, State.wsEnter, hb]
  rfl

theorem modDie_congr {u v : Die → Die} (h : u (s.die die) = v (s.die die)) : s.modDie die u = s.modDie die v := by
  simp only [State.modDie, h]

theorem wsLoadGo_go :
    let x := s.die die
    let good := x.wsctl.getLsbD 0 = true ∧ x.wsctl.getLsbD 8 = false ∧ x.wslsrc.toNat % 64 = 0 ∧ x.wsldst.toNat % 64 = 0 ∧
      x.wsllen.toNat % 64 = 0 ∧ x.wsldst.toNat + x.wsllen.toNat ≤ 6 * 2 ^ 30 ∧
      ∃ t ∈ [0, 1, 3], populated t x.wslsrc.toNat x.wsllen.toNat = true
    (good → exec (.wsLoadGo die) s = .next (s.modDie die fun d =>
      { d with wsctl := d.wsctl ||| 0x100, wsRun := (x.wslsrc.toNat, x.wsldst.toNat, x.wsllen.toNat) })) ∧
    (¬ good → exec (.wsLoadGo die) s = .next (s.modDie die fun d => { d with wsctl := wsStatus d.wsctl .fault })) := by
  intro x good
  have hok : (x.wsctl.getLsbD 0 && !x.wsctl.getLsbD 8 && x.wslsrc.toNat % 64 == 0 && x.wsldst.toNat % 64 == 0 &&
      x.wsllen.toNat % 64 == 0 && decide (x.wsldst.toNat + x.wsllen.toNat ≤ 6 * 2 ^ 30) &&
      [0, 1, 3].any fun t => populated t x.wslsrc.toNat x.wsllen.toNat) = true ↔ good := by
    simp only [good, Bool.and_eq_true, Bool.not_eq_true', beq_iff_eq, decide_eq_true_eq, List.any_eq_true, and_assoc]
  simp only [exec_wsLoadGo, execWsLoadGo, State.wsGo]
  exact ⟨fun h => congrArg _ (modDie_congr (if_pos (hok.2 h))), fun h => congrArg _ (modDie_congr (if_neg (mt hok.1 h)))⟩

theorem wsLoadComplete_go {st : Status} {t : State} (hb : (s.die die).wsctl.getLsbD 8 = true)
    (hl : s.loadGranules die (s.die die).wsRun.1 (s.die die).wsRun.2.1 .ok ((s.die die).wsRun.2.2 / 64) = (st, t)) :
    exec (.wsLoadComplete die) s = .next (t.modDie die fun d =>
      let w := wsStatus (d.wsctl &&& ~~~0x100#32) st
      { d with wsctl := if d.wsLeave then w &&& ~~~1#32 else w, wsLeave := false }) := by
  simp only [exec_wsLoadComplete, execWsLoadComplete, hb, hl]
  rfl

theorem wsRefreshStart_go {bank : Nat} (hb : bank < 8) (hw : inWindow bank s.clk = true) (hn : bank ∉ (s.die die).inRefresh) :
    exec (.wsRefreshStart die bank) s =
      .next (s.modDie die fun d => { d with inRefresh := d.inRefresh.filter (inWindow · s.clk) ++ [bank] }) := by
  simp only [exec_wsRefreshStart, execWsRefreshStart]
  rw [if_pos (by simp [hb, hw, hn])]

theorem wsRefreshEnd_go {bank : Nat} (hw : inWindow bank s.clk = false) (hi : bank ∈ (s.die die).inRefresh) :
    exec (.wsRefreshEnd die bank) s = .next (s.modDie die fun d =>
      { d with inRefresh := d.inRefresh.filter (· != bank), wsFix := d.wsFix.filter fun o => o / 0x30000000 != bank }) := by
  simp only [exec_wsRefreshEnd, execWsRefreshEnd]
  rw [if_pos (by simp [hw])]
  refine congrArg _ (modDie_congr ?_)
  simp only [hi, List.contains_iff_mem, if_true]

theorem dtinvGo_free {scope : Nat} (hd : (s.die die).dtinvc.getLsbD 0 = false) :
    s.dtinvGo die scope = (s.modDie die fun d => { d with dtinvc := w32 (2 * scope) }).dtinvStart die scope :=
  if_neg (ne_true_of_eq_false hd)

theorem dtinvComplete_go {scope : Nat} {busy : List Nat} (hi : (s.die die).inval = some (scope, busy)) :
    ((∀ id ∈ busy, s.op? id = none) →
      exec (.dtinvComplete die) s = .next (s.modDie die fun d => { d with inval := none, dtinvc := d.dtinvc &&& 6 })) ∧
    ((∃ id ∈ busy, s.op? id ≠ none) → exec (.dtinvComplete die) s = .next s) := by
  simp only [exec_dtinvComplete, execDtinvComplete, hi]
  refine ⟨fun h => congrArg _ (if_pos ?_), fun ⟨id, hm, hne⟩ => congrArg _ (if_neg ?_)⟩
  · simpa using h
  · exact fun hall => hne (Option.isNone_iff_eq_none.1 (List.all_eq_true.1 hall id hm))

end

/-- Settles O57: the weight store by its phase and calendar, invalidation by its scope, the counts by their writes. -/
theorem dieEventsAct : Obligations.DieEventsAct := by
  intro die bank off granule core port err s x status blocked at_
  refine ⟨wsPhaseEnter_blocked, wsPhaseEnter_free, exec_wsPhaseLeave die s, wsLoadGo_go, fun hb st t hl => wsLoadComplete_go hb hl,
    wsRefreshStart_go, wsRefreshEnd_go, fun hw => ?_, fun ho => ⟨?_, ?_⟩, fun hp => ?_, fun hd => ?_, fun scope busy hi =>
    dtinvComplete_go hi, exec_ceccClear core s, exec_deccClear die s, exec_fpstatReplayClear port s⟩
  · simp only [exec_wsRefreshEnd, execWsRefreshEnd, hw]
    rfl
  · simp only [exec_wsScrubVisit, execWsScrubVisit, State.scrub, if_neg (Nat.not_le.2 ho)]
  · simp only [exec_wsScrubVisit, execWsScrubVisit, if_neg (Nat.not_le.2 ho)]
  · simp only [exec_dramScrubVisit, execDramScrubVisit, hp, if_true]
  · simp only [exec_dtinvPage, execDtinvPage, exec_dtinvJob, execDtinvJob, exec_dtinvAll, execDtinvAll, exec_dtinvReservedScope,
      execDtinvReservedScope, dtinvGo_free hd]
    exact ⟨rfl, rfl, rfl, rfl⟩

/-! ## Limits (R311): withheld clk come after those of the words issued already -/

/-- The machine after reset without its fibres, where one batch holds an issue slot of core 0 for 1 clk. -/
def oneSlotHeld : State :=
  { State.reset with fibres := [], cores := [(0, { Core.reset with slots := [⟨0, 0, ⟨0, 0⟩, 0, 0, 0, 0, 1⟩] })] }

theorem withhold_nothing_passes_issued : (oneSlotHeld.withhold 0).clk = 1 := rfl

/-- Refutes O59: a power limit of 0 clk, where a word that has issued still holds its slot, lets that word's clk pass, so %clk moves on
by more than the clk withheld. -/
theorem not_packageEventsAct : ¬ Obligations.PackageEventsAct := by
  unfold Obligations.PackageEventsAct
  intro h
  obtain ⟨-, -, -, -, -, -, -, -, ⟨u, hu, hclk, -⟩, -⟩ := h 0 0 0 0 0 0 oneSlotHeld
  rw [exec_powerLimit, execPowerLimit] at hu
  cases hu
  rw [withhold_nothing_passes_issued] at hclk
  exact absurd hclk (by decide)

/-! ## Interfaces (R303, R306) -/

section
variable {fn : Nat} {nonce : BitVec 256} {s : State}

theorem lockInterface_go :
    (fn < 16 → (s.tdi fn).state = .unlocked → exec (.lockInterfaceRequest fn) s = .next (s.modTdi fn fun t => { t with
      state := .locked, digest := Config.sha384 (s.frozenConfig fn), nonce := Config.tdiNonce fn t.locks, locks := t.locks + 1 })) ∧
    ((s.tdi fn).state ≠ .unlocked → exec (.lockInterfaceRequest fn) s = .next s) := by
  simp only [exec_lockInterfaceRequest, execLockInterfaceRequest]
  refine ⟨fun hf hu => congrArg _ (if_pos (by simp [hf, hu])), fun hu => congrArg _ (if_neg ?_)⟩
  simp only [Bool.and_eq_true, beq_iff_eq, not_and]
  exact fun _ => hu

theorem startInterface_go :
    ((s.tdi fn).state = .locked → nonce = (s.tdi fn).nonce →
      exec (.startInterfaceRequest fn nonce) s = .next (s.modTdi fn fun t => { t with state := .run })) ∧
    ((s.tdi fn).state ≠ .locked ∨ nonce ≠ (s.tdi fn).nonce → exec (.startInterfaceRequest fn nonce) s = .next s) := by
  simp only [exec_startInterfaceRequest, execStartInterfaceRequest]
  refine ⟨fun hl hn => congrArg _ (if_pos (by simp [hl, hn])), fun hne => congrArg _ (if_neg ?_)⟩
  simp only [Bool.and_eq_true, beq_iff_eq, not_and_or]
  exact hne

theorem stopInterface_go (hu : (s.tdi fn).state ≠ .unlocked) :
    exec (.stopInterfaceRequest fn) s = .next (((((s.fnJobs fn).foldl (fun s j => s.faultJob j 3) s).modPkg fun p => { p with
      access := p.access.map fun t => (t.1, t.2.filter fun e => !namesFn fn e.2), erased := p.erased + 1 })).modTdi fn fun t =>
        let lost := t.queues.map fun q => (q.1, { q.2 with cmds := [], cpls := [] })
        { t with state := .unlocked, queues := if t.state == .error then lost else t.queues }) := by
  simp only [exec_stopInterfaceRequest, execStopInterfaceRequest]
  exact congrArg _ (if_neg (by simpa using hu))

end

/-! ## Command queues (R304, R305) -/

section
variable {fn queue : Nat} {idx : BitVec 16} {s : State} {c : HostCmd}

theorem sqDoorbell_go {v : BitVec 32} (ho : s.barsOpen fn = true) (hq : queue < 4) :
    let u := s.modQueueOf fn queue fun h => { h with tail := v }
    (u.hostQueue fn queue).cfg.getLsbD 31 = true →
      exec (.hqSqDoorbell fn queue v) s = .next (u.takeEntries fn queue (u.hostQueue fn queue).sqDepth) := by
  intro u he
  simp only [exec_hqSqDoorbell, execHqSqDoorbell, ho, decide_eq_false (Nat.not_le.2 hq)]
  exact congrArg _ (if_pos he)

theorem cqDoorbell_go {v : BitVec 32} (ho : s.barsOpen fn = true) (hq : queue < 4) :
    let u := s.modQueueOf fn queue fun h => { h with head := v }
    exec (.hqCqDoorbell fn queue v) s = .next (u.drainCompletions fn queue ((u.hostQueue fn queue).cpls.length + 1)) := by
  simp only [exec_hqCqDoorbell, execHqCqDoorbell, ho, decide_eq_false (Nat.not_le.2 hq)]
  rfl

theorem launch_go {d : List Byte} {t : State} (hc : s.command? fn queue idx (· == 1) = some c) (hz : c.restZero 12 = true)
    (ha : c.field 11 4 % 64 = 0) (hd : s.hostFetch fn (c.field 11 4) 256 = (.ok d, t)) (hok : t.descriptorOk d = true) :
    let j := jobOfDescriptor d fn t.clk
    let n := t.jobs.length + 1
    ∀ table u, (j.qcount = 0 → table = [] ∧ u = t) → (j.qcount ≠ 0 → t.hostFetch fn j.qtable.toNat (32 * j.qcount) = (.ok table, u)) →
    let qs := (List.range j.qcount).map fun i => queueOfEntry n i ((table.drop (32 * i)).take 32)
    (∀ q ∈ qs, q ≠ none) →
    exec (.launch fn queue idx) s =
      .next (({ u with jobs := u.jobs ++ [j], queues := u.queues ++ qs.filterMap id } : State).completeCmd fn queue c n .ok) := by
  intro j n table u h0 h1 qs hqs
  have htable : (if j.qcount = 0 then (.ok [], t) else t.hostFetch fn j.qtable.toNat (32 * j.qcount)) = (.ok table, u) := by
    split
    next hq =>
      obtain ⟨rfl, rfl⟩ := h0 hq
      rfl
    next hq => exact h1 hq
  have hall : qs.any (·.isNone) = false := by
    simpa [Option.isSome_iff_ne_none] using hqs
  simp only [qs, n, j] at htable hall ⊢
  simp only [exec_launch, execLaunch, hc, hz, ha, hd, hok, htable, hall]
  rfl

theorem jobwait_go {job : Nat} {j : Job} (hc : s.command? fn queue idx (· == 2) = some c) (hj : s.jobOfCmd fn c = some (job, j)) :
    (∀ st, j.status = some st → exec (.jobwait fn queue idx) s = .next (s.completeCmd fn queue c 0 st)) ∧
    (j.status = none → exec (.jobwait fn queue idx) s = .next (s.setCmd fn queue c { c with started := true })) := by
  simp only [exec_jobwait, execJobwait, hc, hj]
  exact ⟨fun st hs => by rw [hs], fun hs => by rw [hs]⟩

theorem wsload_go {d : HostCmd} {t : State} (hc : s.command? fn queue idx (· == 3) = some c) (hz : c.restZero 32 = true)
    (h7 : c.field 7 5 = 0) (h4 : c.field 4 4 < 16) (hw : s.wsloadOn c 10 = (d, t)) :
    let u := t.setCmd fn queue c d
    exec (.wsload fn queue idx) s = .next (if 4 ≤ d.pos then u.completeCmd fn queue d (statusNum d.st) d.st else u) := by
  simp only [exec_wsload, execWsload, hc, hz, h7, decide_eq_false (Nat.not_le.2 h4), hw]
  rfl

theorem halt_go {job : Nat} {j : Job} (hc : s.command? fn queue idx (· == 4) = some c) (hj : s.jobOfCmd fn c = some (job, j))
    (hs : c.started = true)
    (hrest : ∀ x ∈ s.fibres, x.kind = .real ∨ x.kind = .helper → s.jobOf x = job → x.atRest = true) :
    exec (.halt fn queue idx) s = .next (s.completeCmd fn queue { c with started := true } 0 .ok) := by
  have hall : (s.fibres.all fun x => !((x.kind == .real || x.kind == .helper) && s.jobOf x == job) || x.atRest) = true := by
    simp only [List.all_eq_true, Bool.or_eq_true, Bool.not_eq_true', Bool.and_eq_false_iff, Bool.or_eq_false_iff]
    intro x hx
    by_cases hm : (x.kind = .real ∨ x.kind = .helper) ∧ s.jobOf x = job
    · exact .inr (hrest x hx hm.1 hm.2)
    · simp only [not_and_or, not_or] at hm
      simpa using .inl hm
  simp only [exec_halt, execHalt, hc, hj, hs, hall, if_true]

theorem resume_go {job : Nat} {j : Job} (hc : s.command? fn queue idx (· == 5) = some c) (hj : s.jobOfCmd fn c = some (job, j)) :
    exec (.resume fn queue idx) s = .next (((({ s with cores := s.cores.map fun x =>
      (x.1, { x.2 with icache := x.2.icache.filter fun e => e.1 != job }) } : State).mapFibres fun _ x =>
        if (x.kind == .real || x.kind == .helper) && s.jobOf x == job then x.release .hstop else x).modJob job fun x =>
          { x with halted := false }).completeCmd fn queue c 0 .ok) := by
  simp only [exec_resume, execResume, hc, hj]

theorem kill_go {job : Nat} {j : Job} (hc : s.command? fn queue idx (· == 6) = some c) :
    (s.jobOfCmd fn c = some (job, j) → exec (.kill fn queue idx) s = .next ((s.faultJob job 3).completeCmd fn queue c 0 .ok)) ∧
    (s.jobOfCmd fn c = none → exec (.kill fn queue idx) s = .next (s.completeCmd fn queue c 0 .fault)) := by
  simp only [exec_kill, execKill, hc]
  exact ⟨fun hj => by rw [hj], fun hj => by rw [hj]⟩

end

/-! ## Inbound accesses (R208, R303) -/

section
variable {fn addr len pa : Nat} {bytes : List Byte} {s : State}

theorem fn_lt_of_barsOpen (ho : s.barsOpen fn = true) : fn < 16 := by
  simp only [State.barsOpen, Bool.and_eq_true, decide_eq_true_eq] at ho
  exact ho.1

theorem withoutIde_of_barsOpen (ho : s.barsOpen fn = true) : withoutIde fn = fn := by
  have := fn_lt_of_barsOpen ho
  exact if_neg (by simp only [Bool.and_eq_true, decide_eq_true_eq]; omega)

theorem inboundWrite_go (ho : s.barsOpen fn = true) (h3 : addr / 2 ^ 40 ≠ 3)
    (h4 : fn = 0 → addr / 2 ^ 40 = 4 → (s.tdi 0).state = .unlocked) (hp : s.barPlace fn addr bytes.length = .phys pa)
    (hpop : populated 0 pa bytes.length = true) (hr : s.unreachable (physTarget pa) = false)
    (ha : s.accessOk (physTarget pa) (hostMaster fn) .write pa = true) :
    exec (.hostInboundWrite fn addr bytes) s = .next (s.hostStore fn pa bytes) := by
  simp only [exec_hostInboundWrite, execHostInboundWrite, withoutIde_of_barsOpen ho, ho, hp, hpop, hr, ha]
  rw [if_neg (by
    simp only [Bool.and_eq_true, decide_eq_true_eq, not_and]
    exact fun _ => h3), if_neg (by
    simp only [Bool.and_eq_true, decide_eq_true_eq, bne_iff_ne, not_and, not_not, and_imp]
    exact h4)]
  rfl

theorem inboundRead_go (ho : s.barsOpen fn = true) (hp : s.barPlace fn addr len = .phys pa) (hpop : populated 0 pa len = true)
    (hr : s.unreachable (physTarget pa) = false) (hb : s.poisonedAt pa len = false)
    (ha : s.accessOk (physTarget pa) (hostMaster fn) .read pa = true) :
    exec (.hostInboundRead fn addr len) s =
      .next ((s.hostLoad fn pa len).2.modPkg fun p => { p with reads := p.reads ++ [(s.hostLoad fn pa len).1] }) := by
  simp only [exec_hostInboundRead, execHostInboundRead, withoutIde_of_barsOpen ho, ho, hp, hpop, hr, hb, ha]
  rfl

end

/-- Settles O60: the interfaces by their state, the commands by their row of the queue, inbound accesses by their place. -/
theorem hostActs : Obligations.HostActs := by
  refine ⟨fun fn nonce s => ?_, fun fn queue addr len idx v bytes s c job j => ?_⟩
  · obtain ⟨lock, locked⟩ := lockInterface_go (fn := fn) (s := s)
    obtain ⟨start, stay⟩ := startInterface_go (fn := fn) (nonce := nonce) (s := s)
    refine ⟨lock, locked, start, stay, stopInterface_go, fun hf => ?_, exec_lockedFieldWrite fn s, exec_functionLevelReset fn s,
      exec_ideIntegrityFailure fn s⟩
    simp only [exec_getDeviceInterfaceReport, execGetDeviceInterfaceReport, hf, if_true]
  · refine ⟨fun ho hq => ⟨sqDoorbell_go ho hq, cqDoorbell_go ho hq⟩, fun d t hc hz ha hd hok => launch_go hc hz ha hd hok,
      fun hc hj => jobwait_go hc hj, fun d t hc hz h7 h4 hw => wsload_go hc hz h7 h4 hw, fun hc hj hs hr => halt_go hc hj hs hr,
      fun hc hj => resume_go hc hj, fun hc => kill_go hc, fun hc => ?_,
      fun pa ho h3 h4 hp hpop hr ha => inboundWrite_go ho h3 h4 hp hpop hr ha,
      fun pa ho hp hpop hr hb ha => inboundRead_go ho hp hpop hr hb ha⟩
    simp only [exec_unlistedCommand, execUnlistedCommand, hc]

end Sys2Proof.Outside

/-! SUPPORT. Task queues, dependence counters, triggers and event records (R214 to R237). -/

namespace Sys2Proof.Tasks
open Sys2Proof Sys2Proof.Machine

/-! ## Words -/

section
variable {h : Head} {s : State} {f : Fibre}

theorem raise_none (f : Fibre) : f.raise Conds.none = f := by
  have hbits : raiseBits f.astat Conds.none = f.astat := BitVec.or_zero
  rw [Fibre.raise, hbits]

theorem holdOr_free (hf : Free f) (k : Nat) (i : Instr) (e : HeldEff) (now : State) : s.holdOr k f i e now = now := by
  obtain ⟨hh, ht⟩ := hf
  rw [State.holdOr, hh, ht]
  rfl

theorem configured_iff {job num : Nat} : s.configured job num = true ↔ ∃ q, s.queue? job num = some q ∧ q.en = true := by
  unfold State.configured
  cases s.queue? job num <;> simp

theorem not_configured_iff {job num : Nat} : s.configured job num = false ↔ ∀ q, s.queue? job num = some q → q.en = false := by
  unfold State.configured
  cases s.queue? job num <;> simp

theorem qpush_go {d a b : Reg} {prio : BitVec 8} {t : Bool} {n : BitVec 3} (hx : Executes (.qpush h d a b prio t n) s f) :
    let i := Instr.qpush h d a b prio t n
    let job := s.jobOf f
    let die := (s.site f).die
    let e := fun (q : Queue) => QEntry.mk (pushWords (f.readRun s.cur a.toNat (n.toNat + 1)) (if t then src s f b else 0) prio)
      (some (s.cur, f.wseq)) [] 0 (s.sourceOf f) false none [⟨scopeOf q.scope, s.locus f, f.seen⟩] (s.loadsOut s.cur)
    (f.isHelper = true → s.configured job d.toNat = true → Leaves i s s f f) ∧
    (s.configured job d.toNat = false → exec i s = .next (s.queueTrap s.cur f i d.toNat)) ∧
    (∀ q, f.isHelper = false → f.taint = [] → s.queue? job d.toNat = some q → q.en = true → q.hasRoom die = true →
      let v := s.modQueue job d.toNat fun q => q.takeRoom die
      let w := if q.home.1 = Config.pkgNumber ∧ q.homeDie = die then v else v.countSent die job
      Leaves i s (w.sendMsg s.cur f (.push d.toNat (e q) die)) f { f with wseq := f.wseq + 1 }) := by
  intro i job die e
  simp only [Leaves, i, exec_qpush, execQpush, issueWord_go hx]
  refine ⟨fun hh hc => ?_, fun hc => ?_, fun q hh ht hq he hr => ?_⟩
  · obtain ⟨q, hq, he⟩ := configured_iff.1 hc
    simp only [job] at hq
    simp only [hq, he, hh]
    rfl
  · have hc := not_configured_iff.1 hc
    split
    next => rfl
    next q hq => exact congrArg _ (if_pos (by rw [hc q hq]; rfl))
  · simp only [job, die] at hq hr ⊢
    simp only [hq, he, hh, hr, ht, List.all_nil, List.map_nil, List.foldl_nil, Bool.and_eq_true, beq_iff_eq]
    rfl

theorem qpop_go {d a : Reg} {n : BitVec 3} (hx : Executes (.qpop h d a n) s f) :
    (s.configured (s.jobOf f) a.toNat = false → exec (.qpop h d a n) s = .next (s.queueTrap s.cur f (.qpop h d a n) a.toNat)) ∧
    (f.isHelper = false → s.configured (s.jobOf f) a.toNat = true →
      BeginsWait (.qpop h d a n) s (s.modQueue (s.jobOf f) a.toNat fun q =>
        { q.register f.grp with waiters := if q.waiters.contains s.cur then q.waiters else q.waiters ++ [s.cur] }) f f
          (.qpop a.toNat (n.toNat + 1) d.toNat)) := by
  simp only [BeginsWait, exec_qpop, execQpop, issueWord_go hx]
  refine ⟨fun hc => ?_, fun hh hc => ?_⟩
  · rw [hc]
    rfl
  · rw [hc, hh]
    rfl

theorem qpeek_go {d a c : Reg} {n : BitVec 3} {u : State} (hx : Executes (.qpeek h d a c n) s f) (hh : f.isHelper = false)
    (hc : s.configured (s.jobOf f) a.toNat = true) :
    let v := s.modQueue (s.jobOf f) a.toNat fun q => q.register f.grp
    (v.popLook s.cur f (s.jobOf f) a.toNat = (.empty, u) → Leaves (.qpeek h d a c n) s u f
      ((f.setRun d.toNat (List.replicate (n.toNat + 1) 0)).setPred c.toNat false)) ∧
    (∀ j e, v.popLook s.cur f (s.jobOf f) a.toNat = (.ready j e [], u) → Leaves (.qpeek h d a c n) s u f
      ((({ u.acquireEntry f (s.jobOf f) a.toNat e with ckpt := none } : Fibre).setRun d.toNat (e.words.take (n.toNat + 1))).setPred
        c.toNat true)) := by
  intro v
  simp only [Leaves, exec_qpeek, execQpeek, issueWord_go hx, hc, hh]
  refine ⟨fun hp => ?_, fun j e hp => ?_⟩ <;> simp only [v] at hp <;> simp only [hp] <;> rfl

theorem qcnt_go {d a : Reg} (hx : Executes (.qcnt h d a) s f) :
    (s.configured (s.jobOf f) a.toNat = false → exec (.qcnt h d a) s = .next (s.queueTrap s.cur f (.qcnt h d a) a.toNat)) ∧
    (∀ q, s.queue? (s.jobOf f) a.toNat = some q → q.en = true → q.home.1 = Config.pkgNumber →
      Sets (.qcnt h d a) s f d.toNat [w32 (q.ring.length + q.ext.length)] Conds.none) := by
  simp only [Sets, raise_none, Leaves, exec_qcnt, execQcnt, issueWord_go hx]
  refine ⟨fun hc => ?_, fun q hq he hp => ?_⟩
  · have hc := not_configured_iff.1 hc
    split
    next => rfl
    next q hq => exact congrArg _ (if_pos (by rw [hc q hq]; rfl))
  · simp only [hq, he, hp, beq_self_eq_true]
    rfl

theorem dcarm_go {a b c q : Reg} (hx : Executes (.dcarm h a b c q) s f) (hf : Free f) :
    Leaves (.dcarm h a b c q) s (s.sendMsg s.cur f (.dcarm (src s f a) (src s f b) (f.readRun s.cur c.toNat 8) q.toNat)) f
      { f with wseq := f.wseq + 1 } := by
  simp only [Leaves, exec_dcarm, execDcarm, issueWord_go hx, holdOr_free hf]
  rfl

theorem dcdec_go {a : Reg} (hx : Executes (.dcdec h a) s f) (hf : Free f) :
    Leaves (.dcdec h a) s (s.sendMsg s.cur f (.dcdec (src s f a))) f { f with wseq := f.wseq + 1 } := by
  simp only [Leaves, exec_dcdec, execDcdec, issueWord_go hx, holdOr_free hf]
  rfl

theorem trig_go (hx : Executes (.trig h) s f) :
    (f.trigd = true → Leaves (.trig h) s s f f) ∧
    (Free f → f.trigd = false → f.held = [] →
      (s.accessesDone s.cur f = true → Leaves (.trig h) s (s.publish (.job (s.jobOf f)) f.seen) f { f with trigd := true }) ∧
      (s.accessesDone s.cur f = false → exec (.trig h) s = .next (s.waitFor s.cur f .trig))) := by
  simp only [Leaves, exec_trig, execTrig, issueWord_go hx]
  refine ⟨fun ht => ?_, fun hf ht hh => ?_⟩
  · rw [ht]
    rfl
  · rw [holdOr_free hf, ht, hh]
    exact ⟨fun hd => by rw [hd]; rfl, fun hd => by rw [hd]; rfl⟩

theorem dwait_go {d : Reg} (hx : Executes (.dwait h d) s f) :
    let producer := ((s.job? (s.jobOf f)).map (·.producer)).getD 0
    (∀ v, s.producerDone producer = some v → Leaves (.dwait h d) s s f ((s.acquire (.job producer) f).setReg d.toNat v)) ∧
    (s.producerDone producer = none → exec (.dwait h d) s = .next (s.waitFor s.cur f .dwait)) := by
  simp only [Leaves, exec_dwait, execDwait, issueWord_go hx]
  exact ⟨fun v hv => by rw [hv], fun hv => by rw [hv]⟩

theorem beat_go (hx : Executes (.beat h) s f) :
    (f.isHelper = true → Leaves (.beat h) s s f f) ∧
    (f.isHelper = false → Leaves (.beat h) s (s.modGroup f.grp fun g => { g with beat := s.clk }) f f) := by
  simp only [Leaves, exec_beat, execBeat, issueWord_go hx]
  refine ⟨fun hh => ?_, fun hh => ?_⟩ <;> rw [hh] <;> rfl

theorem evpost_go {a : Reg} (hx : Executes (.evpost h a) s f) (hf : Free f) :
    (s.eventRoom (s.site f).cluIx = true → Leaves (.evpost h a) s (s.postFibre f (src s f a).toNat 0x0B .ok .none) f f) ∧
    (s.eventRoom (s.site f).cluIx = false → f.isControl = false → exec (.evpost h a) s = .next (s.waitFor s.cur f .queue)) := by
  simp only [Leaves, exec_evpost, execEvpost, issueWord_go hx, holdOr_free hf]
  refine ⟨fun hr => ?_, fun hr hc => ?_⟩
  · rw [hr]
    rfl
  · rw [hr, hc]
    rfl

/-- The four words of a record have its bytes (R5, R211). -/
theorem leNat_quarters (r : BitVec 128) : leNat (wordBytes ((List.range 4).map (quarter r))) = r.toNat := by
  have hbytes : wordBytes ((List.range 4).map (quarter r)) = leBytes 16 r.toNat := by
    have hq : ∀ j, (quarter r j).toNat = r.toNat / 2 ^ (32 * j) % 2 ^ 32 := fun j => by
      simp [quarter, Nat.shiftRight_eq_div_pow]
    have hb : ∀ x y : Nat, x % 256 = y % 256 → BitVec.ofNat 8 x = BitVec.ofNat 8 y := fun x y h =>
      BitVec.eq_of_toNat_eq (by simpa using h)
    simp only [wordBytes, List.range, List.range.loop, List.map_cons, List.map_nil, List.flatMap_cons, List.flatMap_nil, hq, leBytes,
      List.cons_append, List.nil_append, List.append_nil, List.cons.injEq, and_true]
    refine ⟨hb _ _ ?_, hb _ _ ?_, hb _ _ ?_, hb _ _ ?_, hb _ _ ?_, hb _ _ ?_, hb _ _ ?_, hb _ _ ?_, hb _ _ ?_, hb _ _ ?_,
      hb _ _ ?_, hb _ _ ?_, hb _ _ ?_, hb _ _ ?_, hb _ _ ?_, hb _ _ ?_⟩ <;> omega
  rw [hbytes, Sys2Proof.Stores.leNat_leBytes]
  exact Nat.mod_eq_of_lt r.isLt

theorem evpop_go {d : Reg} {nb : Bool} (hx : Executes (.evpop h d nb) s f) :
    let clu := (s.site f).cluIx
    (∀ r l, (s.cluster clu).events = r :: l →
      Leaves (.evpop h d nb) s (s.modCluster clu fun c => { c with events := l }) f (f.setRun d.toNat ((List.range 4).map (quarter r)))) ∧
    ((s.cluster clu).events = [] → nb = true → Leaves (.evpop h d nb) s s f (f.setRun d.toNat [0, 0, 0, 0])) ∧
    ((s.cluster clu).events = [] → nb = false → exec (.evpop h d nb) s = .next (s.waitFor s.cur f .queue)) := by
  simp only [Leaves, exec_evpop, execEvpop, issueWord_go hx]
  exact ⟨fun r l he => by rw [he], fun he hn => by rw [he, hn]; rfl, fun he hn => by rw [he, hn]; rfl⟩

end

/-! ## Messages at their homes (R216, R220, R232) -/

section
variable {msg : Nat} {s : State} {m : Msg}

theorem id_of_msg? (hm : s.msg? msg = some m) : m.id = msg := by
  simpa using List.find?_some hm

theorem msgBehind_false {same : MsgBody → Bool} (h : ∀ x ∈ s.msgs, x.fib = m.fib → x.stamp < m.stamp → same x.body = false) :
    s.msgBehind m same = false := by
  simp only [State.msgBehind, List.any_eq_false, Bool.and_eq_true, beq_iff_eq, decide_eq_true_eq, not_and, Bool.not_eq_true]
  exact fun x hx ⟨hf, hs⟩ => h x hx hf hs

theorem counterBehind_false (hfirst : ∀ x ∈ s.msgs, x.fib = m.fib → m.stamp ≤ x.stamp)
    (hr : ∀ f, s.fibre? m.fib = some f → f.releasing = []) (clu : Nat) : s.counterBehind m clu = false := by
  have hb : ∀ same, s.msgBehind m same = false := fun same =>
    msgBehind_false fun x hx hf hs => absurd hs (Nat.not_lt.2 (hfirst x hx hf))
  unfold State.counterBehind
  simp only [hb, Bool.false_or]
  cases hf : s.fibre? m.fib with
  | none => rfl
  | some f => simp [hr f hf]

theorem queueEntryArrive_go {num die : Nat} {e : QEntry} {q : Queue} (hm : s.msg? msg = some m) (hb : m.body = .push num e die)
    (hfirst : ∀ x ∈ s.msgs, x.fib = m.fib → x.stamp < m.stamp → ∀ e d, x.body ≠ .push num e d)
    (hq : s.queue? m.job num = some q) (hp : q.home.1 = Config.pkgNumber) (hd : die = q.homeDie) :
    exec (.queueEntryArrive msg) s = .next (((s.modQueue m.job num fun q =>
      { q with inFlight := q.inFlight - 1 }).releaseEntry m.job num ⟨q.homeDie, q.homeClu % 8, 8⟩ (s.arriving q.homeDie e)).dropMsg msg) := by
  simp only [exec_queueEntryArrive, execQueueEntryArrive, hm, hb, hq]
  rw [msgBehind_false]
  · simp only [hp, hd, beq_self_eq_true, if_true]
    rfl
  · intro x hx hf hs
    have hne := hfirst x hx hf hs
    split
    next q' e' d' heq => exact beq_false_of_ne fun hq' => hne e' d' (hq' ▸ heq)
    next => rfl

theorem qpopReturn_go {fib num n d j : Nat} {e : QEntry} {t : State} {f : Fibre} {q : Queue} (hf : s.fibre? fib = some f)
    (hr : ∃ w, f.run = .waiting w) (hw : f.wait = some (.qpop num n d)) (hq : s.queue? (s.jobOf f) num = some q)
    (hfirst : s.firstWaiter q = some fib) (hp : s.popLook fib f (s.jobOf f) num = (.ready j e [], t)) :
    exec (.qpopReturn fib) s = .next (t.givePop fib f (s.jobOf f) num n d j e []) := by
  obtain ⟨w, hr⟩ := hr
  simp only [exec_qpopReturn, execQpopReturn, hf, hr, hw, hq, Option.bind_some, hfirst, bne_self_eq_false, hp]
  rfl

/-- The check of R232 passes for an ID inside both ranges. -/
theorem counterBad_ok {job : Nat} {j : Job} {id : Word} (hj : s.job? job = some j) (hid : id.toNat < 2 ^ 17)
    (hlo : j.ctrLo.toNat ≤ id.toNat) (hhi : id.toNat ≤ j.ctrHi.toNat) (arm : Option (Word × Nat)) :
    s.counterBad job id arm = match arm with
      | some (n, q) => if n.toNat > 65535 || !s.configured job q then some .fault else none
      | none => none := by
  unfold State.counterBad
  simp only [hj]
  rw [if_neg (Nat.not_le.2 hid), if_neg (by simp [hlo, hhi])] <;> rfl

theorem counterBad_high {job : Nat} {id : Word} (hid : 2 ^ 17 ≤ id.toNat) (arm : Option (Word × Nat)) :
    s.counterBad job id arm = some .fault := if_pos hid

theorem counterBad_outside {job : Nat} {j : Job} {id : Word} (hj : s.job? job = some j) (hid : id.toNat < 2 ^ 17)
    (hout : ¬(j.ctrLo.toNat ≤ id.toNat ∧ id.toNat ≤ j.ctrHi.toNat)) (arm : Option (Word × Nat)) :
    s.counterBad job id arm = some .access := by
  unfold State.counterBad
  simp only [hj]
  rw [if_neg (Nat.not_le.2 hid), if_pos (by simpa only [Bool.not_eq_true', Bool.and_eq_false_iff, decide_eq_false_iff_not, ← not_and_or] using hout)]

theorem dcarmArrive_eq {id n : Word} {succ : List Word} {q : Nat} (hm : s.msg? msg = some m) (hb : m.body = .dcarm id n succ q)
    (hdead : m.dead = false) (hbehind : s.counterBehind m (counterClu id) = false) :
    exec (.dcarmArrive msg) s = .next (s.counterWord m id (s.armCounter m.job id n succ q)) := by
  simp only [exec_dcarmArrive, execDcarmArrive, hm, hb, hdead, hbehind]
  rfl

theorem dcdecArrive_eq {id : Word} (hm : s.msg? msg = some m) (hb : m.body = .dcdec id) (hdead : m.dead = false)
    (hbehind : s.counterBehind m (counterClu id) = false) (hdr : s.drained (some (m.fib, m.stamp)) = true) :
    exec (.dcdecArrive msg) s = .next (s.counterWord m id (s.decCounter m.job id m.who (s.live (s.viewAt m.fib m.stamp m.view)))) := by
  simp only [exec_dcdecArrive, execDcdecArrive, hm, hb, hdead, hbehind, hdr]
  rfl

theorem armCounter_bad {job : Nat} {id n : Word} {succ : List Word} {q : Nat} {st : Status}
    (hb : s.counterBad job id (some (n, q)) = some st) : s.armCounter job id n succ q = .error st := by
  simp only [State.armCounter, hb]

theorem armCounter_free {job : Nat} {id n : Word} {succ : List Word} {q : Nat} (hb : s.counterBad job id (some (n, q)) = none)
    (hl : look (counterIx id) (s.cluster (counterClu id)).counters = none) :
    s.armCounter job id n succ q = .ok (if n = 0 then s.releaseSuccessor job q succ id []
      else s.modCluster (counterClu id) fun c => { c with counters := assignSorted (counterIx id) ⟨n.toNat, succ, q, job, []⟩ c.counters }) := by
  simp only [State.armCounter, hb, hl]

/-- What a counter has been released by, with a decrement whose agent releases the writes v. -/
def viewWith (s : State) (c : DepCounter) (who : Locus) (v : List Nat) : List Sync :=
  if v = [] then c.view else addSync c.view ⟨s.queueScope c.job c.queue, who, v⟩

theorem decCounter_bad {job : Nat} {id : Word} {who : Locus} {v : List Nat} {st : Status}
    (hb : s.counterBad job id none = some st) : s.decCounter job id who v = .error st := by
  simp only [State.decCounter, hb]

theorem decCounter_armed {job : Nat} {id : Word} {who : Locus} {v : List Nat} {c : DepCounter} (hb : s.counterBad job id none = none)
    (hl : look (counterIx id) (s.cluster (counterClu id)).counters = some c) :
    s.decCounter job id who v = .ok (if 1 < c.count then
      s.modCluster (counterClu id) fun x =>
        { x with counters := assignSorted (counterIx id) { c with count := c.count - 1, view := viewWith s c who v } x.counters }
      else (s.modCluster (counterClu id) fun x => { x with counters := x.counters.filter (·.1 != counterIx id) }).releaseSuccessor
        c.job c.queue c.succ id (viewWith s c who v)) := by
  have hv : (if v.isEmpty then c.view else addSync c.view ⟨s.queueScope c.job c.queue, who, v⟩) = viewWith s c who v := by
    simp only [viewWith, List.isEmpty_iff]
  simp only [State.decCounter, hb, hl, hv]

/-- Counter words at their counter: the discards of R232 and the rows of R220's table. -/
theorem counterWords_act {j : Job} {id n : Word} {succ : List Word} {q : Nat} (hm : s.msg? msg = some m) (hj : s.job? m.job = some j)
    (hfirst : ∀ x ∈ s.msgs, x.fib = m.fib → m.stamp ≤ x.stamp) (hr : ∀ f, s.fibre? m.fib = some f → f.releasing = [])
    (hdead : m.dead = false) :
    let ok := id.toNat < 2 ^ 17 ∧ j.ctrLo.toNat ≤ id.toNat ∧ id.toNat ≤ j.ctrHi.toNat
    let clu := counterClu id
    let ix := counterIx id
    let v := s.live (s.viewAt m.fib m.stamp m.view)
    let discards := fun (st : Status) => s.discardWord m id st
    (m.body = .dcarm id n succ q →
      (2 ^ 17 ≤ id.toNat → exec (.dcarmArrive msg) s = .next (discards .fault)) ∧
      (id.toNat < 2 ^ 17 → ¬ok → exec (.dcarmArrive msg) s = .next (discards .access)) ∧
      (ok → (65535 < n.toNat ∨ s.configured m.job q = false) → exec (.dcarmArrive msg) s = .next (discards .fault)) ∧
      (ok → n.toNat ≤ 65535 → s.configured m.job q = true → look ix (s.cluster clu).counters = none →
        (n = 0 → exec (.dcarmArrive msg) s = .next ((s.releaseSuccessor m.job q succ id []).dropMsg msg)) ∧
        (n ≠ 0 → exec (.dcarmArrive msg) s = .next ((s.modCluster clu fun c =>
          { c with counters := assignSorted ix ⟨n.toNat, succ, q, m.job, []⟩ c.counters }).dropMsg msg)))) ∧
    (m.body = .dcdec id → s.drained (some (m.fib, m.stamp)) = true →
      (2 ^ 17 ≤ id.toNat → exec (.dcdecArrive msg) s = .next (discards .fault)) ∧
      (∀ c, ok → look ix (s.cluster clu).counters = some c →
        (1 < c.count → exec (.dcdecArrive msg) s = .next ((s.modCluster clu fun x =>
          { x with counters := assignSorted ix { c with count := c.count - 1, view := viewWith s c m.who v } x.counters }).dropMsg msg)) ∧
        (c.count ≤ 1 → exec (.dcdecArrive msg) s = .next (((s.modCluster clu fun x =>
          { x with counters := x.counters.filter (·.1 != ix) }).releaseSuccessor c.job c.queue c.succ id (viewWith s c m.who v)).dropMsg
            msg)))) := by
  intro ok clu ix v discards
  have hid := id_of_msg? hm
  have hbehind := counterBehind_false hfirst hr (counterClu id)
  refine ⟨fun hb => ⟨fun hhi => ?_, fun hlo hno => ?_, fun hok hbad => ?_, fun hok hn hc hl => ⟨fun h0 => ?_, fun h0 => ?_⟩⟩,
    fun hb hdr => ⟨fun hhi => ?_, fun c hok hl => ⟨fun h1 => ?_, fun h1 => ?_⟩⟩⟩
  · rw [dcarmArrive_eq hm hb hdead hbehind, armCounter_bad (counterBad_high hhi _)]
    rfl
  · rw [dcarmArrive_eq hm hb hdead hbehind, armCounter_bad (counterBad_outside hj hlo (fun h => hno ⟨hlo, h⟩) _)]
    rfl
  · rw [dcarmArrive_eq hm hb hdead hbehind,
      armCounter_bad (st := .fault) ((counterBad_ok hj hok.1 hok.2.1 hok.2.2 _).trans (if_pos (by simpa using hbad)))]
    rfl
  · rw [dcarmArrive_eq hm hb hdead hbehind,
      armCounter_free ((counterBad_ok hj hok.1 hok.2.1 hok.2.2 _).trans (if_neg (by simp [hc, hn]))) hl, if_pos h0, ← hid]
    rfl
  · rw [dcarmArrive_eq hm hb hdead hbehind,
      armCounter_free ((counterBad_ok hj hok.1 hok.2.1 hok.2.2 _).trans (if_neg (by simp [hc, hn]))) hl, if_neg h0, ← hid]
    rfl
  · rw [dcdecArrive_eq hm hb hdead hbehind hdr, decCounter_bad (counterBad_high hhi _)]
    rfl
  · rw [dcdecArrive_eq hm hb hdead hbehind hdr, decCounter_armed (counterBad_ok hj hok.1 hok.2.1 hok.2.2 _) hl, if_pos h1, ← hid]
    rfl
  · rw [dcdecArrive_eq hm hb hdead hbehind hdr, decCounter_armed (counterBad_ok hj hok.1 hok.2.1 hok.2.2 _) hl,
      if_neg (Nat.not_lt.2 h1), ← hid]
    rfl

end

/-- Settles O42: each counter word by its row, each arrival by the check of R232 and the table of R220. -/
theorem countersAndEventsAct : Obligations.CountersAndEventsAct := by
  refine ⟨fun h d a b c q nb s f => ?_, fun msg s m j id n succ q hm hj hfirst hr hdead => ?_⟩
  · refine ⟨dcarm_go, dcdec_go, trig_go, dwait_go, beat_go, evpost_go, fun hx => ?_⟩
    obtain ⟨taken, empty, waits⟩ := evpop_go hx
    exact ⟨fun r l he => ⟨(List.range 4).map (quarter r), rfl, leNat_quarters r, taken r l he⟩, empty, waits⟩
  · have acts := counterWords_act (id := id) (n := n) (succ := succ) (q := q) hm hj hfirst hr hdead
    simp only [State.discardWord, id_of_msg? hm] at acts
    exact acts

/-! ## The order of a queue (R216) -/

/-- An entry comes before or beside another: higher PRIO, then the lower release clk, TASK and source. -/
def QEntry.NotAfter (a b : QEntry) : Prop :=
  b.prio ≤ a.prio ∧ (b.prio = a.prio → a.relClk ≤ b.relClk ∧ (b.relClk = a.relClk → a.task ≤ b.task ∧ (b.task = a.task → a.src ≤ b.src)))

theorem notAfter_of_not_before {a b : QEntry} (h : b.before a = false) : QEntry.NotAfter a b := by
  unfold QEntry.before at h
  unfold QEntry.NotAfter
  split_ifs at h <;> simp_all

theorem notAfter_of_before {a b : QEntry} (h : a.before b = true) : QEntry.NotAfter a b := by
  unfold QEntry.before at h
  unfold QEntry.NotAfter
  split_ifs at h <;> simp_all <;> omega

theorem QEntry.NotAfter.refl (a : QEntry) : QEntry.NotAfter a a := ⟨le_rfl, fun _ => ⟨le_rfl, fun _ => ⟨le_rfl, fun _ => le_rfl⟩⟩⟩

theorem QEntry.NotAfter.trans {a b c : QEntry} (hab : QEntry.NotAfter a b) (hbc : QEntry.NotAfter b c) : QEntry.NotAfter a c := by
  unfold QEntry.NotAfter at *
  omega

/-- The entry first in order stands at its place, is taken by no fibre, and comes after none of those. -/
theorem firstEntry_spec : ∀ {l : List QEntry} {i j : Nat} {e : QEntry}, firstEntry l i = some (j, e) →
    i ≤ j ∧ l[j - i]? = some e ∧ e.takenBy = none ∧ ∀ x ∈ l, x.takenBy = none → QEntry.NotAfter e x
  | [], i, j, e, h => by cases h
  | x :: l, i, j, e, h => by
    have tail : ∀ {j e}, firstEntry l (i + 1) = some (j, e) → (∀ y, y = x → y.takenBy = none → QEntry.NotAfter e y) →
        i ≤ j ∧ (x :: l)[j - i]? = some e ∧ e.takenBy = none ∧ ∀ y ∈ x :: l, y.takenBy = none → QEntry.NotAfter e y := by
      intro j e hr hx
      obtain ⟨hle, hget, hfree, hmin⟩ := firstEntry_spec hr
      refine ⟨by omega, ?_, hfree, fun y hy hyf => ?_⟩
      · rwa [show j - i = j - (i + 1) + 1 by omega, List.getElem?_cons_succ]
      · obtain rfl | hy := List.mem_cons.1 hy
        · exact hx y rfl hyf
        · exact hmin y hy hyf
    rw [firstEntry] at h
    cases hx : x.takenBy with
    | some p =>
      rw [hx] at h
      exact tail h fun y hy hyf => by simp [hy, hx] at hyf
    | none =>
      cases hr : firstEntry l (i + 1) with
      | none =>
        rw [hx, hr] at h
        cases h
        refine ⟨le_rfl, by simp, hx, fun y hy hyf => ?_⟩
        obtain rfl | hy := List.mem_cons.1 hy
        · exact QEntry.NotAfter.refl y
        · exact absurd hyf (firstEntry_none hr y hy)
      | some p =>
        obtain ⟨k, y⟩ := p
        simp only [hx, hr] at h
        split at h
        · cases h
          exact tail hr fun z hz _ => hz ▸ notAfter_of_before (by assumption)
        next hb =>
          cases h
          obtain ⟨-, -, -, hmin⟩ := firstEntry_spec hr
          have hxy := notAfter_of_not_before (Bool.not_eq_true _ ▸ hb)
          refine ⟨le_rfl, by simp, hx, fun z hz hzf => ?_⟩
          obtain rfl | hz := List.mem_cons.1 hz
          · exact QEntry.NotAfter.refl z
          · exact hxy.trans (hmin z hz hzf)
where
  firstEntry_none : ∀ {l : List QEntry} {i : Nat}, firstEntry l i = none → ∀ x ∈ l, x.takenBy ≠ none
    | [], _, _, x, hx => by cases hx
    | y :: l, i, h, x, hx => by
      rw [firstEntry] at h
      cases hy : y.takenBy with
      | none =>
        cases hr : firstEntry l (i + 1) with
        | none => simp [hy, hr] at h
        | some p =>
          simp only [hy, hr] at h
          split at h <;> cases h
      | some p =>
        rw [hy] at h
        obtain rfl | hx := List.mem_cons.1 hx
        · simp [hy]
        · exact firstEntry_none h x hx

/-- Settles O41: the queue words by their queue, the arrivals and pops by their turn, the order by the search for its first. -/
theorem queuesAct : Obligations.QueuesAct := by
  refine ⟨fun h d a b c prio t n s u f => ?_, ⟨fun msg num die e s m q hm hb hfirst hq hp hd => queueEntryArrive_go hm hb hfirst hq hp hd,
    fun fib num n d j e s t f q hf hr hw hq hfirst hp => qpopReturn_go hf hr hw hq hfirst hp⟩, fun l j e he => ?_⟩
  · intro job die cnt traps e' reg
    exact ⟨qpush_go, qpop_go, fun hx hh hc => qpeek_go hx hh hc, qcnt_go⟩
  · obtain ⟨-, hget, hfree, hmin⟩ := firstEntry_spec he
    exact ⟨hget, hfree, hmin⟩

/-! ## Credits, deadlock, quiescence and watchdogs (R218, R222, R223, R228) -/

section
variable {job queue : Nat} {s : State} {q : Queue} {j : Job}

theorem creditGrant_go {die n : Nat} (hq : s.queue? job queue = some q) (he : q.en = true) (hd : die < 4)
    (hh : q.home.1 = Config.pkgNumber → q.homeDie ≠ die ∧ n ≤ q.free) (hn : (look die q.credits).getD 0 + n ≤ 64) :
    exec (.queueCreditGrant job queue die n) s =
      .next (s.modQueue job queue fun q' => { q' with credits := assign die ((look die q.credits).getD 0 + n) q'.credits }) := by
  simp only [exec_queueCreditGrant, execQueueCreditGrant, hq]
  refine congrArg _ (if_neg ?_)
  simp only [he, Bool.not_true, Bool.false_or, Bool.or_eq_true, Bool.and_eq_true, Bool.not_eq_true', decide_eq_true_eq, beq_iff_eq]
  rintro (((⟨-, h4⟩ | h4) | ⟨hp, hb⟩) | h64)
  · omega
  · omega
  · obtain ⟨hne, hle⟩ := hh hp
    omega
  · omega

theorem creditReturn_go {die n : Nat} (hq : s.queue? job queue = some q) (hn : n ≤ (look die q.credits).getD 0) :
    exec (.queueCreditReturn job queue die n) s =
      .next (s.modQueue job queue fun q' => { q' with credits := assign die ((look die q.credits).getD 0 - n) q'.credits }) := by
  simp only [exec_queueCreditReturn, execQueueCreditReturn, hq]
  exact congrArg _ (if_neg (Nat.not_lt.2 hn))

theorem deadlock_go (hq : s.queue? job queue = some q) (hj : s.job? job = some j) (hc : q.consumers ≠ [])
    (hb : ∀ g ∈ q.consumers, ∀ m ∈ s.members g, m.2.isHelper = true ∨ m.2.run = .ended ∨ s.waitsInPush m.2 queue = true)
    (hp : s.allPlaced job = true) (he : j.ending = none) (hs : j.status = none)
    (hw : ∀ e ∈ (s.cluster q.homeClu).evWait, e.2 ≠ .deadlock job) :
    exec (.queueDeadlock job queue) s = .next (s.postHw q.homeClu queue job 7 .ok (.deadlock job)) := by
  have hblocked : (q.consumers.all fun g => (s.members g).all fun m =>
      m.2.isHelper || m.2.run == .ended || s.waitsInPush m.2 queue) = true := by
    simpa only [List.all_eq_true, Bool.or_eq_true, beq_iff_eq, or_assoc] using hb
  have hwait : ((s.cluster q.homeClu).evWait.any fun e => e.2 == .deadlock job) = false := by
    simpa only [List.any_eq_false, beq_iff_eq] using hw
  simp only [exec_queueDeadlock, execQueueDeadlock, hq, hj, hblocked, hp, hwait]
  rw [if_neg (by simpa [he, hs] using hc)]
  rfl

/-- A round of a job that is still running and has every die's report. -/
theorem quiescenceRound_eq (hj : s.job? job = some j) (hs : j.status = none) (he : j.ending = none) (hw : (s.cluster 0).evWait = [])
    (hp : ∀ p ∈ j.peers, p.last ≠ none) :
    let ok := s.jobIdle job && balanced (s.jobCounts job)
    let u := s.modJob job fun x => x.round (if ok then some (s.jobCounts job) else none)
    let st : Status := if j.failed then .fault else .ok
    exec (.quiescenceRound job) s = .next (if ok && j.lastRound == some (s.jobCounts job) then
      u.postHw 0 (j.rounds + 1) job 2 st (.complete job st) else u) := by
  have hrep : (j.peers.any fun p => p.last.isNone) = false := by
    simpa [Option.isSome_iff_ne_none] using hp
  simp only [exec_quiescenceRound, execQuiescenceRound, hj, hs, he, hw, hrep]
  rfl

theorem watchdogTest_go (hj : s.job? job = some j) (hn : j.persistent = false) (hp : j.period ≠ 0) (he : j.ending = none)
    (hs : j.status = none) :
    (max j.lastIssue j.launchClk + j.period ≤ s.clk → exec (.watchdogTest job) s = .next ((s.modJob job fun x => { x with
      late := ((sortBy (fun p => p.2.gid) ((s.jobGroups job).filter fun p => !p.2.exited)).head?.map fun p => p.2.gid).getD 0 }).faultJob
        job 1)) ∧
    (s.clk < max j.lastIssue j.launchClk + j.period → exec (.watchdogTest job) s = .next s) := by
  simp only [exec_watchdogTest, execWatchdogTest, hj, hn, he, hs]
  refine ⟨fun hl => congrArg _ (if_neg ?_), fun hl => congrArg _ (if_pos ?_)⟩
  · simp [hp, hl]
  · simp only [Bool.false_eq_true, if_false, decide_eq_false (Nat.not_le.2 hl)]
    simp

end

/-- Settles O43: credits by their bounds, deadlock and watchdog by their tests, a round by its counts. -/
theorem queueAndJobEventsAct : Obligations.QueueAndJobEventsAct := by
  intro job queue die n clu s q j hq hj has moved counts round
  refine ⟨creditGrant_go hq, creditReturn_go hq, deadlock_go hq hj, fun _ => rfl, fun hs he hw hp => ?_,
    fun hn hp he hs => watchdogTest_go hj hn hp he hs, exec_cevdropClear clu s⟩
  have hround := quiescenceRound_eq hj hs he hw hp
  refine ⟨fun hno => ?_, fun hi hb hl => ?_, fun hi hb hl => ?_⟩ <;> simp only [counts] at *
  · have hok : (s.jobIdle job && balanced (s.jobCounts job)) = false := by simpa only [Bool.and_eq_false_iff] using hno
    simp only [hok] at hround
    exact hround
  · simp only [hi, hb, Bool.and_self, Bool.true_and, beq_false_of_ne hl] at hround
    exact hround
  · simp only [hi, hb, hl, Bool.and_self, beq_self_eq_true] at hround
    exact hround

end Sys2Proof.Tasks

/-! SUPPORT. Assumptions: the words, their resolution and their outcome (R280 to R299). -/

namespace Sys2Proof.Assumptions
open Sys2Proof Sys2Proof.Machine Sys2Proof.Tasks

/-! ## GUESS, AFFIRM, DENY and TAGQ (R296 to R299) -/

section
variable {h : Head} {d a b c aidReg : Reg} {ty : Ty} {s : State} {f : Fibre}

theorem guess_go {aid imm : Bool} (hx : Executes (.guess h d a b c ty aidReg aid false imm true) s f) :
    let i := Instr.guess h d a b c ty aidReg aid false imm true
    let g : DWord := if imm then b.setWidth 64 else if ty.is64 then joinPair (src s f b) (f.read s.cur (b.toNat + 1)) else (src s f b).setWidth 64
    let die := (s.site f).die
    let put := fun (x : Fibre) => x.setRun d.toNat (if ty.is64 then dwords g else [loWord g])
    (f.isHelper = true → Leaves i s s f (put (if aid then f.setReg aidReg.toNat 0 else f))) ∧
    (∀ slot, f.isHelper = false → f.restarts = [] → f.taint = [] → (s.die die).freeSlot = some slot → (s.ensureCkpt f f.rp).ckptStalls = false →
      let gen := (s.die die).nextGen slot
      let id := mkAid die slot gen
      let e := { s.ensureCkpt f f.rp with taint := [(id, 0)] }
      let x : AidSlot := { state := .open, gen := gen, job := s.jobOf f, fib := s.cur, word := f.pc, value := g, wide := ty.is64, auto := false,
                           loc := none, op := 0, seen := none, watch := none, answer := none, recv := [(Config.pkgNumber, die)], acked := [] }
      Leaves i s (s.modDie die fun y => { y with slots := assignSorted slot x y.slots }) f (put (if aid then e.setReg aidReg.toNat id else e))) ∧
    (f.isHelper = false → f.restarts = [] → 4 ≤ f.taint.length →
      exec i s = .next (s.waitFor s.cur { f with guessing := none } .tag)) := by
  intro i g die put
  simp only [i, Leaves, exec_guess, execGuess, issueWord_go hx, Bool.false_and, Bool.false_eq_true, if_false, if_true]
  refine ⟨fun hh => ?_, fun slot hh hr ht hs hc => ?_, fun hh hr ht => ?_⟩
  · rw [if_pos hh]
    rfl
  · simp only [die] at hs
    have hfind : (f.restarts.find? fun e => e.1 == f.pc) = none := by rw [hr, List.find?_nil]
    simp only [hh, hfind, ht, hs, hc, State.mint]
    cases aid <;> rfl
  · have hfind : (f.restarts.find? fun e => e.1 == f.pc) = none := by rw [hr, List.find?_nil]
    simp only [hh, hfind]
    rw [if_neg (by decide), if_pos ht]
    rfl

/-- A resolution of an AID of this package leaves as a message. -/
theorem resolveWord_sends (hf : Free f) {id : BitVec 32} (ha : aidPkg id = Config.pkgNumber) (i : Instr) (dst : Option Nat) (r : Resolution) :
    let l := launched s f .none dst .resolve
    s.resolveWord s.cur f i dst id r = (l.2.2.finish s.cur i f l.2.1).sendMsg s.cur l.2.1 (.resolve id r (some l.1)) := by
  obtain ⟨hh, ht⟩ := hf
  simp only [State.resolveWord, hh, ht, State.sendResolution, ha, if_true]
  rfl

theorem affirm_go {hd : Bool} (hx : Executes (.affirm h d a hd) s f) (hf : Free f) (ha : aidPkg (src s f a) = Config.pkgNumber) :
    let l := launched s f .none (if hd then some d.toNat else none) .resolve
    exec (.affirm h d a hd) s =
      .next ((l.2.2.finish s.cur (.affirm h d a hd) f l.2.1).sendMsg s.cur l.2.1 (.resolve (src s f a) .affirm (some l.1))) := by
  rw [exec_affirm, execAffirm, issueWord_go hx]
  exact congrArg _ (resolveWord_sends hf ha _ _ _)

theorem deny_go {hd : Bool} (hx : Executes (.deny h d a b ty hd) s f) (hf : Free f) (ha : aidPkg (src s f a) = Config.pkgNumber) :
    let l := launched s f .none (if hd then some d.toNat else none) .resolve
    exec (.deny h d a b ty hd) s = .next ((l.2.2.finish s.cur (.deny h d a b ty hd) f l.2.1).sendMsg s.cur l.2.1 (.resolve (src s f a)
      (.deny (if ty.is64 then joinPair (src s f b) (f.read s.cur (b.toNat + 1)) else (src s f b).setWidth 64)) (some l.1))) := by
  rw [exec_deny, execDeny, issueWord_go hx]
  exact congrArg _ (resolveWord_sends hf ha _ _ _)

theorem tagq_go {idx : BitVec 2} :
    (Executes (.tagq h d a idx .aid) s f → Sets (.tagq h d a idx .aid) s f d.toNat [((f.taint[idx.toNat]?).map (·.1)).getD 0] Conds.none) ∧
    (Executes (.tagq h d a idx .state) s f → Sets (.tagq h d a idx .state) s f d.toNat [w32 (s.aidState (src s f a))] Conds.none) ∧
    (Executes (.tagq h d a idx .wait) s f →
      (s.aidState (src s f a) ≠ 1 → Sets (.tagq h d a idx .wait) s f d.toNat [w32 (s.aidState (src s f a))] Conds.none) ∧
      (s.aidState (src s f a) = 1 → exec (.tagq h d a idx .wait) s = .next (s.waitFor s.cur f .tagq))) := by
  simp only [Sets, raise_none, Leaves]
  refine ⟨fun hx => ?_, fun hx => ?_, fun hx => ?_⟩ <;> rw [exec_tagq, execTagq, issueWord_go hx]
  · rfl
  · rfl
  · exact ⟨fun hn => congrArg _ (if_neg hn), fun he => congrArg _ (if_pos he)⟩

end

/-- Settles O44: GUESS by what it finds, the resolutions as messages, TAGQ by its mode. -/
theorem assumptionWordsAct : Obligations.AssumptionWordsAct := by
  intro h d a b c aidReg ty aid imm hd idx s f i g die put deny sends
  exact ⟨guess_go, affirm_go, deny_go, tagq_go⟩

/-! ## Resolution and outcome (R281, R291 to R293, R298) -/

section
variable {s : State} {a : BitVec 32} {x : AidSlot} {r : Resolution}

/-- The answers of R298's table. -/
theorem resolveHome_answers {job : Nat} :
    (s.slotOf a = none → s.resolveHome job a r = (.fault, s)) ∧
    (s.slotOf a = some x →
      (x.job ≠ job → s.resolveHome job a r = (.access, s)) ∧ (x.job = job → x.auto = true → s.resolveHome job a r = (.fault, s)) ∧
      (x.job = job → x.auto = false → x.state = .affirmed → s.resolveHome job a r = (.cancelled, s)) ∧
      (x.job = job → x.auto = false → x.state = .denied → s.resolveHome job a r = (.denied, s)) ∧
      (x.job = job → x.auto = false → x.state = .open →
        s.resolveHome job a r = (.ok, s.settleSlot a r (match r with | .deny v => some v | _ => none)))) := by
  unfold State.resolveHome
  refine ⟨fun hs => by rw [hs], fun hs => ?_⟩
  simp only [hs]
  refine ⟨fun hj => if_pos (by simpa using hj), fun hj ha => ?_, fun hj ha ho => ?_, fun hj ha ho => ?_, fun hj ha ho => ?_⟩ <;>
    rw [if_neg (by simp [hj]), ha]
  · rfl
  all_goals rw [ho, if_neg (by decide)] <;> rfl

theorem resolutionAtHome_eq {msg op : Nat} {m : Msg} {st : Status} {u : State} (hm : s.msg? msg = some m)
    (hb : m.body = .resolve a r (some op)) (hr : s.resolveHome m.job a r = (st, u)) :
    exec (.resolutionAtHome msg) s = .next ((u.finishOp op st).dropMsg msg) := by
  simp only [exec_resolutionAtHome, execResolutionAtHome, hm, hb, hr]

theorem watchedOpResolve_go {die slot : Nat} {st : Status} {v : DWord} (hl : look slot (s.die die).slots = some x) (hw : x.watch = some st)
    (ho : x.state = .open) (ha : x.auto = true) (hs : x.seen = some (some v)) (hf : (s.fibre? x.fib).isSome = true) :
    (st = .ok → v = x.value → exec (.watchedOpResolve die slot) s = .next (s.settleSlot (mkAid die slot x.gen) .affirm none)) ∧
    (st ≠ .ok ∨ v ≠ x.value →
      exec (.watchedOpResolve die slot) s = .next (s.settleSlot (mkAid die slot x.gen) (.deny v) (some v))) := by
  obtain ⟨f, hf⟩ := Option.isSome_iff_exists.1 hf
  simp only [exec_watchedOpResolve, execWatchedOpResolve, hl, hw, hf, ho, ha, hs]
  refine ⟨fun hst hv => ?_, fun hne => ?_⟩
  · rw [hst, hv]
    simp
  · rw [if_neg (by decide), if_neg (by simpa only [Bool.and_eq_true, beq_iff_eq, not_and_or] using hne)]

/-- A die that is to apply an outcome and has no tagged message out. -/
theorem awaits_of {die : Nat} (hs : s.slotOf a = some x) (hr : (Config.pkgNumber, die) ∈ x.recv) (hk : (Config.pkgNumber, die) ∉ x.acked)
    (ht : s.tagsOut (some die) a = false) {st : AidState} (ho : x.state = st) :
    (s.awaits die a st && !s.tagsOut (some die) a) = true := by
  simp [State.awaits, hs, hr, hk, ht, ho]

theorem resolutionAck_go {die : Nat} (hs : s.slotOf a = some x) (hd : aidDie a = die) (ho : x.state = .affirmed ∨ x.state = .denied) :
    ((∀ d ∈ x.recv, d ∈ x.acked) → exec (.resolutionAck die a) s = .next (s.modSlot a fun x => { x with state := .free })) ∧
    (∀ d ∈ x.recv, d ∉ x.acked → exec (.resolutionAck die a) s = .next s) := by
  simp only [exec_resolutionAck, execResolutionAck, hs]
  refine ⟨fun hall => congrArg _ (if_pos ?_), fun d hr hk => congrArg _ (if_neg ?_)⟩
  · simpa [hd, ho] using hall
  · simp only [Bool.and_eq_true, List.all_eq_true, not_and]
    exact fun _ hall => hk (List.contains_iff_mem.1 (hall d hr))

theorem checkpointSpillComplete_go {fib : Nat} {f : Fibre} {w : Why} (hf : s.fibre? fib = some f) (hw : f.wait = some .ckpt)
    (hr : f.run = .waiting w) :
    let g : Fibre := { f with wait := none }
    exec (.checkpointSpillComplete fib) s = .next ((s.storeCkpt f).setFibre fib { g with run := g.freeRun }) := by
  simp only [exec_checkpointSpillComplete, execCheckpointSpillComplete, hf, hw, hr]
  rfl

end

/-- Settles O45: a resolution by R298's table, an outcome by what its die has out, an acknowledgement by those that lack. -/
theorem assumptionsResolve : Obligations.AssumptionsResolve := by
  intro msg die slot fib a s m r op x answers
  refine ⟨fun hm hb => ?_, fun st v hl hw ho ha hs hf => watchedOpResolve_go hl hw ho ha hs hf, fun hs hr hk ht => ⟨fun ho => ?_, fun ho hd => ?_⟩,
    resolutionAck_go, fun f w hf hw hr => ⟨checkpointSpillComplete_go hf hw hr, fun hn hi => ?_⟩⟩
  · obtain ⟨gone, found⟩ := resolveHome_answers (s := s) (a := a) (x := x) (r := r) (job := m.job)
    refine ⟨fun hs => resolutionAtHome_eq hm hb (gone hs), fun hs => ?_⟩
    obtain ⟨access, fault, cancelled, denied, ok⟩ := found hs
    exact ⟨fun hj => resolutionAtHome_eq hm hb (access hj), fun hj ha => resolutionAtHome_eq hm hb (fault hj ha),
      fun hj ha ho => resolutionAtHome_eq hm hb (cancelled hj ha ho), fun hj ha ho => resolutionAtHome_eq hm hb (denied hj ha ho),
      fun hj ha ho => resolutionAtHome_eq hm hb (ok hj ha ho)⟩
  · rw [exec_affirmApply, execAffirmApply, if_pos (awaits_of hs hr hk ht ho)]
  · rw [exec_denyApply, execDenyApply, if_pos (awaits_of hs hr hk ht ho)]
    generalize s.applyDeny (some die) a = done at hd ⊢
    obtain ⟨u, _⟩ := done
    cases hd
    rfl
  · simp [Fibre.freeRun, hn, hi]

end Sys2Proof.Assumptions

/-! SUPPORT. Walks, fetch errors, ends, naps and the placing of groups (R59, R80 to R82, R143 to R151, R212, R250, R274 to R277). -/

namespace Sys2Proof.Scheduling
open Sys2Proof Sys2Proof.Machine

section
variable {s t : State} {fib grp core clu : Nat} {f : Fibre} {g : Machine.Group}

theorem walkComplete_leaf {walk die : Nat} {w : Walk} {leaf : Tlb}
    (hw : (s.dies.flatMap fun d => (d.2.walks.take 512).map fun w => (d.1, w)).find? (fun p => p.2.id == walk) = some (die, w))
    (hm : s.missDone die w.job w.va = (.ok leaf, t)) :
    let u := (t.modDie die fun d => { d with walks := d.walks.filter fun x => x.id != walk }).fillAll die leaf (s.die die).walks
    exec (.walkComplete walk) s = .next (((u.ops.filter fun o => match o.body with | .mem _ .walking => true | _ => false).map (·.id)).foldl
      State.resolveAccess u) := by
  simp only [exec_walkComplete, execWalkComplete, hw, hm] <;> rfl

theorem instructionFetchError_go (hf : s.fibre? fib = some f) (hi : s.mayIssue f = true) (hr : f.run = .ready) (hh : f.hdr ≠ none) :
    let a := w64 f.rp.addr
    let core := (s.site f).coreIx
    let word := (s.cached core (s.jobOf f) a).getD 0
    let x := s.modCore core fun c => { c with icache := c.icache.filter fun e => !(e.1 == s.jobOf f && e.2.1 == a) }
    let u := x.logCore core 0 (a.toNat % 2 ^ 32) 3 0 (((x.group? f.grp).map (·.rgi)).getD 0) f.fid
    exec (.instructionFetchError fib false) s = .next u ∧ exec (.instructionFetchError fib true) s = .next (u.systemTrap fib 6 0 f.rp word 0) := by
  obtain ⟨hd, hh⟩ := Option.ne_none_iff_exists'.1 hh
  simp only [exec_instructionFetchError, execInstructionFetchError, hf, hi, hr, hh]
  exact ⟨rfl, rfl⟩

theorem fibreEnd_go (hf : s.fibre? fib = some f) (hr : f.run = .waiting .ending) (hw : f.wait = some (.ending false))
    (hd : s.replayDone fib = true) (hn : f.replay = []) :
    (s.endReady fib f = true → exec (.fibreEnd fib) s = .next (s.endFibre fib)) ∧
    (s.endReady fib f = false → exec (.fibreEnd fib) s = .next s) := by
  simp only [exec_fibreEnd, execFibreEnd, hf, hr, hw, hd]
  have hlist : (!false && !f.isHelper && !f.replay.isEmpty) = false := by simp [hn]
  rw [if_neg (by decide), if_neg (ne_true_of_eq_false hlist)]
  exact ⟨fun he => congrArg _ (if_pos he), fun he => congrArg _ (if_neg (ne_true_of_eq_false he))⟩

theorem napWake_go {wake : Nat} (hf : s.fibre? fib = some f) (hr : f.run = .waiting .nap) (hw : f.wait = some (.nap wake)) :
    (wake ≤ s.clk → exec (.napWake fib) s = .next (s.setFibre fib (f.leaveWait 1))) ∧ (s.clk < wake → exec (.napWake fib) s = .next s) := by
  simp only [exec_napWake, execNapWake, hf, hr, hw]
  exact ⟨fun hl => congrArg _ (if_pos hl), fun hl => congrArg _ (if_neg (Nat.not_le.2 hl))⟩

/-! ## Groups (R81, R149 to R151, R275) -/

theorem groupResourceRelease_go (hg : s.group? grp = some g) (he : g.exited = true) (hf : g.freed = false)
    (hs : s.exitStands (cluIx g.die g.clu) grp = true) (hd : s.deliveriesLeft grp = false) :
    exec (.groupResourceRelease grp) s = .next (s.freeGroup grp) := by
  simp only [exec_groupResourceRelease, execGroupResourceRelease, hg, he, hf, hs, hd]
  rfl

theorem swapOut_go (hg : s.group? grp = some g) (ha : g.active = true) (hr : g.resident = true) (hj : g.job ≠ 0)
    (hp : (s.oldestPending g.coreIx).isSome = true) (hw : ∀ p ∈ s.members grp, s.longWait p.1 p.2 = true) :
    exec (.swapOut grp) s = .next ((s.leaveActive grp).swapIn g.coreIx 16) := by
  have hall : ((s.members grp).all fun p => s.longWait p.1 p.2) = true := by simpa only [List.all_eq_true] using hw
  simp only [exec_swapOut, execSwapOut, hg, ha, hr, hp, hall]
  exact congrArg _ (if_pos (by simpa using hj))

theorem evictionStopTimeout_go {at_ : Nat} {who : Nat × Nat} (hg : s.group? grp = some g) (he : g.evict = some (at_, who))
    (ht : at_ ≤ s.clk) (hm : ∃ p ∈ s.members grp, p.2.atRest = false) :
    exec (.evictionStopTimeout grp) s = .next (((s.members grp).foldl (fun s p => s.modFibre p.1 fun f => f.release .evict)
      (s.modGroup grp fun g => { g with evict := none, tried := g.tried ++ [who] })).swapIn g.coreIx 16) := by
  simp only [exec_evictionStopTimeout, execEvictionStopTimeout, hg, he]
  obtain ⟨p, hp, hrest⟩ := hm
  refine congrArg _ (if_neg ?_)
  simp only [Bool.or_eq_true, decide_eq_true_eq, List.all_eq_true, not_or, not_forall]
  exact ⟨Nat.not_lt.2 ht, p, hp, by simp [hrest]⟩

theorem evictionSave_go (hg : s.group? grp = some g) (he : g.evict ≠ none)
    (hm : ∀ p ∈ s.members grp, p.2.atRest = true ∧ p.2.releasing = []) (ho : ∀ o ∈ s.ops, o.grp ≠ grp)
    (hq : ∀ m ∈ (s.core g.coreIx).mmaq, m.grp ≠ grp) (hr : (s.core g.coreIx).running = none)
    (ht : s.mayHoldTaints grp (s.saveDie grp g) = true) :
    let v := ((s.joinTaints grp (s.saveDie grp g)).loseWalks grp).writeContext grp g
    let u := (v.members grp).foldl (fun s p => s.setFibre p.1 (s.savedFibre p.2)) v
    exec (.evictionSave grp) s = .next ((u.modGroup grp fun x => { x with
      evict := none, out := true, active := false, unprot := [], savedSp := u.spadBytes g, savedTiles := g.tmap.map (u.tileWords g),
      savedBad := (u.core g.coreIx).tileBad.filterMap fun e => (firstIdx (· == e.1) g.tmap 0).map fun p => (p.1, e.2) }).swapIn g.coreIx 16) := by
  have hbusy : (s.ops.any fun o => o.grp == grp && o.done.isNone && keepsGroup o &&
      !((s.fibre? o.fib).map fun f => f.holdsOp o.id).getD false) = false := by
    simp only [List.any_eq_false, Bool.and_eq_true, beq_iff_eq]
    exact fun o hmem h => ho o hmem h.1.1.1
  have hmem : (s.members grp).all (fun p => p.2.atRest && p.2.releasing.isEmpty) = true := by
    simpa only [List.all_eq_true, Bool.and_eq_true, List.isEmpty_iff] using hm
  have hmma : (s.core g.coreIx).mmaq.any (·.grp == grp) = false := by
    simpa only [List.any_eq_false, beq_iff_eq] using hq
  simp only [exec_evictionSave, execEvictionSave, hg, hbusy, hmem, hmma, hr, ht]
  rw [if_neg (by simpa using he)]

theorem forcedRotation_go {i : Nat} (hp : s.oldestPending core = some (i, g)) :
    (g.age < 1024 → exec (.forcedRotation core) s = .next s) ∧
    (1024 ≤ g.age → exec (.forcedRotation core) s = .next ((s.rotateOut core g.slots
      (sortBy (fun p => p.2.actClk) (s.coreGroups core fun g => g.active && g.unprot.isEmpty))).swapIn core 16)) := by
  simp only [exec_forcedRotation, execForcedRotation, hp]
  exact ⟨fun ha => congrArg _ (if_pos ha), fun ha => congrArg _ (if_neg (Nat.not_lt.2 ha))⟩

theorem groupPlace_go (hc : clu < 32) (hd : (s.die (clu / 8)).dead = false) :
    exec (.groupPlace clu) s = .next (s.placeFirst clu s.dispatching) := by
  simp only [exec_groupPlace, execGroupPlace, hd]
  exact congrArg _ (if_pos (by simpa using hc))

theorem cohortRelease_go {job coh : Nat} {j : Job} (hj : s.job? job = some j) :
    let mine := (s.jobGroups job).filter fun p => p.2.gid / max j.cohort 1 == coh
    (j.status ≠ none ∨ j.ending ≠ none ∨ mine.length = min (max j.cohort 1) (j.groups - coh * max j.cohort 1)) →
    (∀ p ∈ mine, p.2.exited = true) → s.ops = [] →
    exec (.cohortRelease job coh) s = .next (s.modJob job fun j => { j with cohorts := j.cohorts.filter fun c => c.1 != coh }) := by
  intro mine hn hx ho
  have htotal : mine.length = if j.status.isSome || j.ending.isSome then mine.length
      else min (max j.cohort 1) (j.groups - coh * max j.cohort 1) := by
    split
    next => rfl
    next hno =>
      simp only [Bool.or_eq_true, not_or, Bool.not_eq_true, Option.isSome_eq_false_iff, Option.isNone_iff_eq_none] at hno
      obtain hs | he | hlen := hn
      · exact absurd hno.1 hs
      · exact absurd hno.2 he
      · exact hlen
  simp only [exec_cohortRelease, execCohortRelease, hj, ho, List.any_nil]
  refine congrArg _ (if_pos ?_)
  simp only [Bool.and_eq_true, decide_eq_true_eq, List.all_eq_true]
  exact ⟨⟨htotal, hx⟩, rfl⟩

end

/-- Settles O56: each event by the test of its row. -/
theorem schedulingEventsAct : Obligations.SchedulingEventsAct := by
  intro walk fib grp core clu job coh die s t f g w j
  exact ⟨fun leaf hw hm => walkComplete_leaf hw hm, fun hf hi hr hh => instructionFetchError_go hf hi hr hh, fibreEnd_go,
    fun wake hf hr hw => napWake_go hf hr hw, fun hg => ⟨groupResourceRelease_go hg, swapOut_go hg,
      fun t who he ht hm => evictionStopTimeout_go hg he ht hm, evictionSave_go hg⟩, fun i hp => forcedRotation_go hp, groupPlace_go,
    fun hj => cohortRelease_go hj⟩

end Sys2Proof.Scheduling

/-! SUPPORT. Barriers, asynchronous copies and gathers, and what lands of them (R155, R170 to R177, R188). -/

namespace Sys2Proof.Engines
open Sys2Proof Sys2Proof.Machine

/-! ## Barriers (R174 to R177) -/

theorem statusNum_lt (st : Status) : statusNum st < 8 := by cases st <;> decide

/-- A barrier's status word: the running status above the one of the phase that ended. -/
theorem statusWord_toNat {hi lo : Nat} (hh : hi < 8) (hl : lo < 8) : (w32 (hi <<< 16 ||| lo)).toNat = hi * 2 ^ 16 + lo := by
  have hor : hi <<< 16 ||| lo = hi * 2 ^ 16 + lo := by
    rw [← Nat.shiftLeft_add_eq_or_of_lt (by omega), Nat.shiftLeft_eq]
  simp only [w32, BitVec.toNat_ofNat, hor]
  omega

theorem arrive_spec (b : Barrier) (st : Status) :
    let goal : Nat := if b.expected = 0 then 65536 else b.expected.toNat
    let running := bitsOf b.status.toNat 18 16
    let merged := if st ≠ .ok ∧ running = 0 then statusNum st else running
    b.arrived.toNat < 2 ^ 31 →
      (b.arrived.toNat + 1 = goal → b.arrive st = ⟨b.phase + 1, b.expected, 0, w32 merged⟩) ∧
      (b.arrived.toNat + 1 ≠ goal → (b.arrive st).phase = b.phase ∧ (b.arrive st).expected = b.expected ∧
        (b.arrive st).arrived = b.arrived + 1 ∧ bitsOf (b.arrive st).status.toNat 18 16 = merged ∧
        bitsOf (b.arrive st).status.toNat 2 0 = bitsOf b.status.toNat 2 0) := by
  intro goal running merged hlt
  have hcur : (if st != .ok && running == 0 then statusNum st else running) = merged := by
    simp only [merged, Bool.and_eq_true, bne_iff_ne, beq_iff_eq]
  have hmerged : merged < 8 := by
    simp only [merged, running, bitsOf]
    split
    · exact statusNum_lt st
    · omega
  have hgoal : b.arrived + 1 = (if b.expected = 0 then 65536 else b.expected) ↔ b.arrived.toNat + 1 = goal := by
    rw [← BitVec.toNat_inj, BitVec.toNat_add, show (1 : Word).toNat = 1 from rfl, Nat.mod_eq_of_lt (by omega)]
    simp only [goal]
    split <;> rfl
  have harrive : b.arrive st = if b.arrived + 1 = (if b.expected = 0 then 65536 else b.expected) then ⟨b.phase + 1, b.expected, 0, w32 merged⟩
      else ⟨b.phase, b.expected, b.arrived + 1, w32 (merged <<< 16 ||| bitsOf b.status.toNat 2 0)⟩ := by
    rw [← hcur]
    rfl
  rw [harrive]
  refine ⟨fun h => if_pos (hgoal.2 h), fun h => ?_⟩
  rw [if_neg (mt hgoal.1 h)]
  have hlow : bitsOf b.status.toNat 2 0 < 8 := by
    simp only [bitsOf]
    omega
  refine ⟨rfl, rfl, rfl, ?_, ?_⟩ <;> simp only [statusWord_toNat hmerged hlow] <;>
    generalize bitsOf b.status.toNat 2 0 = low at * <;> simp only [bitsOf, Nat.shiftRight_eq_div_pow] <;> omega

theorem mem_joinView {a b : List Nat} {x : Nat} (h : x ∈ a ++ b) : x ∈ joinView a b := by
  simp only [joinView, List.mem_append, List.mem_filter] at *
  by_cases ha : x ∈ a
  · exact .inl ha
  · exact .inr ⟨h.resolve_left ha, by simpa using ha⟩

/-- An arrival stores the object and publishes what its fibre has seen. -/
theorem arriveBarrier_frame (t : State) (loc : Nat) (st : Status) (view : List Nat) :
    let u := t.arriveBarrier loc st view
    u.mem = (t.putBarrier loc ((t.barrierAt loc).arrive st)).mem ∧ u.fibres = t.fibres ∧ u.ops = t.ops := by
  have hpub : ∀ (s : State) x v, (s.publish x v).mem = s.mem ∧ (s.publish x v).fibres = s.fibres ∧ (s.publish x v).ops = s.ops :=
    fun _ _ _ => ⟨rfl, rfl, rfl⟩
  have hput : ∀ (s : State) b, (s.putBarrier loc b).fibres = s.fibres ∧ (s.putBarrier loc b).ops = s.ops := fun _ _ => ⟨rfl, rfl⟩
  intro u
  simp only [u, State.arriveBarrier]
  split <;> simp only [hpub, hput, and_self]

section
variable {s t : State} {f : Fibre} {off : Word} {loc : Nat}

/-- A barrier word at an aligned object that its fibre's accesses have left does its body there. -/
theorem barrierWord_at (hd : s.accessesDone s.cur f = true) (ho : off.toNat % 16 = 0)
    (hfind : s.find f .sp off.toNat 16 .atomic = (.at_ loc, t)) (hl : t.loggedByOther s.cur loc 16 = false) (i : Instr)
    (body : State → Nat → State) : s.barrierWord s.cur f i off body = body t loc := by
  simp only [State.barrierWord, hd, ho, hfind, hl]
  rfl

end

/-- Settles O35: the arrival's arithmetic, the words on their object, and the time-out's record and trap. -/
theorem barriersAct : Obligations.BarriersAct := by
  refine ⟨arrive_spec, fun h d a b s t f loc => ?_, fun fib t off p w0 w1 s f hf hr hw ht hfree => ?_⟩
  · intro off o hd ho hfind hl
    have hword := barrierWord_at hd ho hfind hl
    refine ⟨fun hx hfree => ?_, fun hx hfree => ?_, fun hx => ⟨fun hp => ⟨joinView f.seen (t.published (.phase loc)), ?_, fun x => mem_joinView⟩,
      fun hp => ?_⟩, fun hx => ?_⟩
    · simp only [Leaves, exec_barinit, execBarinit, issueWord_go hx, hfree.1, hfree.2]
      exact congrArg _ (hword _ _)
    · obtain ⟨hmem, hfib, hops⟩ := arriveBarrier_frame t loc .ok f.seen
      refine ⟨hmem, hfib, hops, ?_⟩
      simp only [Leaves, exec_bararr, execBararr, issueWord_go hx, hfree.1, hfree.2]
      exact congrArg _ (hword _ _)
    · simp only [Leaves, exec_barwt, execBarwt, issueWord_go hx]
      exact congrArg _ ((hword _ _).trans (if_pos (bne_iff_ne.2 hp)))
    · simp only [exec_barwt, execBarwt, issueWord_go hx]
      refine congrArg _ ((hword _ _).trans ((if_neg fun hne => bne_iff_ne.1 hne hp).trans ?_))
      exact congrArg (fun p => t.beginWait s.cur (.barwt h a b) f f (.bar off p _ _ _)) hp.symm
    · simp only [Leaves, exec_barst, execBarst, issueWord_go hx]
      exact congrArg _ (hword _ _)
  · intro core missing u
    refine ⟨{ f.xr with opc := w0, opi := w1, opa := w32 missing.length,
                        opb := w32 ((missing.head?.map fun x => x.2.fid).getD 0), cls := 0x18 }, rfl, rfl, rfl, rfl, fun m hm => ?_, ?_⟩
    · rw [Option.mem_def.1 hm]
      rfl
    · simp only [exec_barwtTimeout, execBarwtTimeout, hf, hr, hw, hfree.1, hfree.2, decide_eq_false (Nat.not_lt.2 ht)]
      rfl

/-! ## CPASYNC and GATH (R170, R172, R173) -/

section
variable {h : Head} {d a b c : Reg} {s : State} {f : Fibre}

theorem counterFull_false {cls : Cls} (hc : f.oc cls ≠ 255) : f.counterFull cls = false := by
  simpa [Fibre.counterFull] using fun _ => hc

theorem cpasync_go {bar : Bool} {ssp dsp : Space} (hx : Executes (.cpasync h d a b c bar ssp dsp) s f) :
    let dst : Place := ⟨dsp, w64 (f.base s.cur dsp a)⟩
    let from_ : Place := ⟨ssp, w64 (f.base s.cur ssp b)⟩
    let n := (src s f c).toNat
    let off := if bar then some (f.read s.cur (c.toNat + 1)).toNat else none
    (f.isHelper = true → Leaves (.cpasync h d a b c bar ssp dsp) s s f (f.setReg d.toNat 5)) ∧
    (Free f → f.occp ≠ 255 → Launches (.cpasync h d a b c bar ssp dsp) s f .cp (some d.toNat)
      (.copy ⟨dst, from_, n, 0, off, false, false, s.copyFail f dst from_ n off, []⟩)) := by
  simp only [Launches, Leaves, exec_cpasync, execCpasync, issueWord_go hx]
  refine ⟨fun hh => congrArg _ (if_pos hh), fun hf hc => ?_⟩
  simp only [hf.1, hf.2, counterFull_false (cls := .cp) hc, Bool.false_and, Bool.false_eq_true, if_false]
  rfl

/-- A gather to .sp of a fibre that is no helper and carries no assumption, with its counter below 255. -/
theorem gathSp_eq {ssp : Space} {fmt : Fmt} (hx : Executes (.gath h d a b c ssp fmt false) s f) (hf : Free f) (hc : f.ocga ≠ 255) :
    let n := (src s f c).toNat
    let len := (f.read s.cur (c.toNat + 1)).toNat
    let ok := decide (1 ≤ n) && decide (n ≤ 4096) && (decide (4 ≤ len) && decide (len ≤ 65536) && len % 4 == 0)
    let g : Gather := { table := joinPair (src s f b) (f.read s.cur (b.toNat + 1)), n := n, rowLen := len, dst := (src s f a).toNat, toq := false,
                        fmt := fmt, space := ssp, first := ((s.group? f.grp).map (·.oqNext)).getD 0,
                        left := if ok then List.range n else [], st := if ok then .ok else .fault, tainted := false, wrote := false }
    let l := launched s f .ga (some d.toNat) (.gath g)
    let u := l.2.2.finish s.cur (.gath h d a b c ssp fmt false) f l.2.1
    exec (.gath h d a b c ssp fmt false) s = .next (if ok then u else u.finishOp l.1 .fault) := by
  intro n len ok g l u
  simp only [exec_gath, execGath, issueWord_go hx]
  simp only [hf.1, hf.2, counterFull_false (cls := .ga) hc, Bool.false_and, Bool.false_eq_true, if_false]
  rfl

/-- What a gather to an operand queue starts. -/
def queueGather (s : State) (f : Fibre) (a b : Reg) (n : Nat) (fmt : Fmt) (ssp : Space) : Gather :=
  { table := joinPair (src s f b) (f.read s.cur (b.toNat + 1)), n := n, rowLen := recordBytes fmt.width, dst := a.toNat, toq := true,
    fmt := fmt, space := ssp, first := ((s.group? f.grp).map (·.oqNext)).getD 0, left := List.range n, st := .ok, tainted := false,
    wrote := false }

theorem gathQueue_go {ssp : Space} {fmt : Fmt} {q : OQueue} (hx : Executes (.gath h d a b c ssp fmt true) s f) (hf : Free f)
    (hc : f.ocga ≠ 255) (hq : s.oq? f.grp a.toNat = some q) (h1 : 1 ≤ (src s f c).toNat) (h64 : (src s f c).toNat ≤ 64)
    (he : (src s f c).toNat ≤ q.e) (hb : recordBytes fmt.width ≤ q.b) (hr : q.slots.length + (src s f c).toNat ≤ q.e) :
    let n := (src s f c).toNat
    let u := s.reserve f.grp a.toNat n true
    let l := u.launchOp s.cur f .ga (some d.toNat) (.gath (queueGather s f a b n fmt ssp)) (u.ordAt f f.rp)
    Leaves (.gath h d a b c ssp fmt true) s l.2.2 f l.2.1 := by
  intro n u l
  have hok : ∀ m : Nat, 1 ≤ m → m ≤ 64 → m ≤ q.e → (decide (1 ≤ m) && decide (m ≤ 4096) &&
      (decide (m ≤ 64) && (decide (m ≤ q.e) && decide (recordBytes fmt.width ≤ q.b)))) = true := fun m h1 h64 he => by
    have h4096 : m ≤ 4096 := by omega
    simp [h1, h4096, h64, he, hb]
  have hfull : ∀ m : Nat, q.slots.length + m ≤ q.e → decide (q.e < q.slots.length + m) = false := fun m hr =>
    decide_eq_false (Nat.not_lt.2 hr)
  simp only [Leaves, exec_gath, execGath, issueWord_go hx]
  simp only [hf.1, hf.2, counterFull_false (cls := .ga) hc, hq, Bool.false_and, Bool.false_eq_true, if_false, if_true]
  rw [hok (f.read s.cur c.toNat).toNat h1 h64 he, hfull (f.read s.cur c.toNat).toNat hr]
  rfl

theorem waitc_go {n : BitVec 8} {mask : BitVec 4} (hx : Executes (.waitc h n mask) s f) :
    let held := fun (j : Nat) (c : BitVec 8) => mask.getLsbD j = true → c.toNat ≤ n.toNat
    (held 3 f.occp ∧ held 2 f.ocmx ∧ held 1 f.ocga ∧ held 0 f.ocfx → Leaves (.waitc h n mask) s s f f) ∧
    (¬(held 3 f.occp ∧ held 2 f.ocmx ∧ held 1 f.ocga ∧ held 0 f.ocfx) → exec (.waitc h n mask) s = .next (s.waitFor s.cur f .counter)) := by
  intro held
  have hhigh : ∀ j (c : BitVec 8), (mask.getLsbD j && decide (n.toNat < c.toNat)) = true ↔ ¬held j c := fun j c => by
    simp only [held, Bool.and_eq_true, decide_eq_true_eq, Classical.not_imp, not_le]
  simp only [Leaves, exec_waitc, execWaitc, issueWord_go hx, Bool.or_eq_true, hhigh]
  refine ⟨fun hall => congrArg _ (if_neg ?_), fun hno => congrArg _ (if_pos ?_)⟩
  · simpa only [not_or, not_not, and_assoc] using hall
  · simpa only [not_and_or, or_assoc] using hno

theorem fcancel_go (hx : Executes (.fcancel h d a) s f) :
    (f.isHelper = true → Leaves (.fcancel h d a) s s f (f.setPred d.toNat false)) ∧
    (Free f → f.handle? a.toNat = none → Leaves (.fcancel h d a) s s f (f.setPred d.toNat false)) ∧
    (∀ id o, Free f → f.handle? a.toNat = some id → s.op? id = some o →
      (o.cancellable = false → Leaves (.fcancel h d a) s s f (f.setPred d.toNat false)) ∧
      (o.cancellable = true → let u := (s.cancel o).modFibre s.cur fun f => f.setPred d.toNat true
        exec (.fcancel h d a) s = .next (u.finish s.cur (.fcancel h d a) f ((u.fibre? s.cur).getD f)))) := by
  simp only [Leaves, exec_fcancel, execFcancel, issueWord_go hx]
  refine ⟨fun hh => congrArg _ (if_pos hh), fun hf hn => ?_, fun id o hf hs ho => ?_⟩
  · rw [hf.1, hf.2, hn]
    rfl
  · simp only [hf.1, hf.2, hs, Option.bind_some, ho]
    exact ⟨fun hc => by rw [hc]; rfl, fun hc => by rw [hc]; rfl⟩

end

/-- Settles O36: the copy and the gathers as they are launched, the counters, the test and the cancel. -/
theorem asynchronousWordsAct : Obligations.AsynchronousWordsAct := by
  refine ⟨fun h d a b c bar ssp dsp fmt s f => ?_, fun h d a n mask s f => ⟨waitc_go, fun hx => ?_, fcancel_go⟩⟩
  · intro dst from_ n len off ga
    refine ⟨cpasync_go, fun hx => ⟨fun hh => ?_, fun hf hc h1 h4096 h4 h65536 hm => ?_, fun hf hc hbad => ?_⟩, fun hx => ⟨fun hh => ?_,
      fun q hf hc hq h1 h64 he hb hr => gathQueue_go hx hf hc hq h1 h64 he hb hr⟩⟩
    · simp only [Leaves, exec_gath, execGath, issueWord_go hx]
      exact congrArg _ (if_pos hh)
    · have hok : (decide (1 ≤ n) && decide (n ≤ 4096) && (decide (4 ≤ len) && decide (len ≤ 65536) && len % 4 == 0)) = true := by
        simp [h1, h4096, h4, h65536, hm]
      have he := gathSp_eq hx hf hc
      simp only [n, len] at hok
      simp only [hok, if_true] at he
      exact he
    · have hok : (decide (1 ≤ n) && decide (n ≤ 4096) && (decide (4 ≤ len) && decide (len ≤ 65536) && len % 4 == 0)) = false := by
        simp only [Bool.and_eq_false_iff, decide_eq_false_iff_not, beq_eq_false_iff_ne]
        omega
      have he := gathSp_eq hx hf hc
      simp only [n, len] at hok
      simp only [hok, Bool.false_eq_true, if_false] at he
      exact he
    · simp only [Leaves, exec_gath, execGath, issueWord_go hx]
      exact congrArg _ (if_pos hh)
  · simp only [Leaves, exec_ftest, execFtest, issueWord_go hx]
    cases f.handle? a.toNat <;> rfl

/-! ## Pieces, rows and fills (R155, R172, R173, R188) -/

section
variable {op : Nat} {s s1 t t1 u : State} {o : Op} {f : Fibre} {bs : List Byte}

theorem landCopy_piece {c : Copy} (hfail : c.fail = none) (hlen : c.pos < c.len) :
    let at_ := c.dst.addr.toNat + c.pos
    let n := pieceLen c.dst.addr.toNat c.pos c.len
    let v := (u.watchOp o c.src.space (c.src.addr.toNat + c.pos) n false).watchOp o c.dst.space at_ n true
    let c2 := { c with pos := c.pos + n, before := c.before ++ t1.overwritten f c at_ n }
    s.atHand o.id f c.src.space (c.src.addr.toNat + c.pos) n none = (true, s1) → s1.copyBytes o.id o.seq f c n = (.ok bs, t) →
    t.atHand o.id f c.dst.space at_ n (some bs) = (true, t1) → t1.engineWrite o.fib f (some o) c.dst.space c.tainted at_ bs = (none, u) →
    s.landCopy o f c = if c.len ≤ c.pos + n then v.endCopy o f c2 (if c.bad then .dataerr else .ok)
      else (v.modOp o.id fun o => { o with body := .copy c2, start := v.clk }).dropCarried o.id := by
  intro at_ n v c2 hsrc hread hdst hwrite
  simp only [at_, n] at hsrc hread hdst hwrite
  simp only [State.landCopy, hfail, hsrc, hread, hdst, hwrite, Bool.or_false]
  rw [if_neg (Nat.not_le.2 hlen), if_neg (by decide), if_neg (by decide)]
  simp only [v, c2, n, at_, hfail]

theorem copyPieceLand_eq {c : Copy} (ho : s.op? op = some o) (hf : s.fibre? o.fib = some f) (hd : o.done = none)
    (hold : s.olderDone o = true) (hb : o.body = .copy c) (hblock : s.copyBlocked o f c = false) :
    exec (.copyPieceLand op) s = .next (s.landCopy o f c) := by
  simp only [exec_copyPieceLand, execCopyPieceLand, ho, hf, hd, hb, hold, hblock]
  rfl

theorem gathRowArrival_go {row : Nat} {g : Gather} (ho : s.op? op = some o) (hf : s.fibre? o.fib = some f) (hd : o.done = none)
    (hold : s.olderDone o = true) (hb : o.body = .gath g) (hrow : row ∈ g.left) (hq : g.toq = false)
    (hpiece : s.pieceBlocked o.fib f .sp (g.dst + row * g.rowLen) g.rowLen = false) (hp : f.isPacer = false)
    (hwalk : s.walkBlocked f .g (g.table.toNat + 8 * row) 8 .read = false)
    (hws : s.wsBlocked f g.space (s.rowSource f g row) g.rowLen o.start = false) :
    exec (.gathRowArrival op row) s = .next (s.landRow o f g row) := by
  simp only [exec_gathRowArrival, execGathRowArrival, ho, hf, hd, hb, hold, hq, hpiece, hp, hwalk, hws, List.contains_iff_mem.2 hrow]
  rfl

theorem atHand_here {id addr n : Nat} {spc : Space} {w : Option (List Byte)} (h : spc ≠ .g ∨ pkgOf addr = Config.pkgNumber) :
    s.atHand id f spc addr n w = (true, s) := if_pos (by simpa using h)

theorem pacerFillComplete_go {g q slot len : Nat} {from_ : Place} {sl : Slice} {bad : List Nat} (ho : s.op? op = some o)
    (hb : o.body = .feed g q slot from_ len none) (hf : s.fibre? o.fib = some f) (hsl : (s.group? g).bind (·.slice) = some sl)
    (hrun : sl.state = .running) (hin : (s.group? g).map (·.out) = some false)
    (hws : s.wsBlocked f from_.space from_.addr.toNat len o.start = false)
    (hhere : from_.space ≠ .g ∨ pkgOf from_.addr.toNat = Config.pkgNumber)
    (hmiss : s.pacerMiss f from_.space from_.addr.toNat len = false)
    (hread : s.readBlank (some op) f 0 from_.space from_.addr.toNat len = (.ok (bs, bad), t)) :
    exec (.pacerFillComplete op) s = .next (((t.watchOp o from_.space from_.addr.toNat len false).fillSlot g q slot
      (if bad = [] then 0 else 6) bs (unitBits bad)).dropOp op) := by
  simp only [exec_pacerFillComplete, execPacerFillComplete, ho, hb, hf, hsl, hin, Option.map_some, hrun, hws, atHand_here hhere, hmiss,
    hread]
  cases bad <;> rfl

end

/-- Settles O37: a piece read and written, a row landed, a fill ended. -/
theorem piecesAndRowsLand : Obligations.PiecesAndRowsLand := by
  refine ⟨fun op row s s1 t t1 u o f bs ho hf hd hold => ⟨fun c hb hblock hfail hlen => ?_, fun g hb hrow hq hpiece hp hwalk hws =>
    gathRowArrival_go ho hf hd hold hb hrow hq hpiece hp hwalk hws⟩,
    fun op g q slot len from_ s t o f sl bs bad ho hb hf hsl hrun hin hws hhere hmiss hread =>
      pacerFillComplete_go ho hb hf hsl hrun hin hws hhere hmiss hread⟩
  intro at_ n v c2 hsrc hread hdst hwrite
  have hland := copyPieceLand_eq ho hf hd hold hb hblock
  rw [landCopy_piece hfail hlen hsrc hread hdst hwrite] at hland
  exact ⟨fun hmore => hland.trans (congrArg _ (if_neg (Nat.not_le.2 hmore))), fun hend => hland.trans (congrArg _ (if_pos hend))⟩

end Sys2Proof.Engines

/-! SUPPORT. Access slices and operand queues, the matrix engine and the accumulator words (R153 to R159, R179 to R188). -/

namespace Sys2Proof.Matrix
open Sys2Proof Sys2Proof.Machine Sys2Proof.ControlWords Sys2Proof.Engines

theorem firstIdx_eq_none {α : Type} {p : α → Bool} : ∀ {l : List α} (i : Nat), (∀ x ∈ l, p x = false) → firstIdx p l i = none
  | [], _, _ => rfl
  | x :: l, i, h => by
    rw [firstIdx, h x (List.mem_cons_self ..)]
    exact firstIdx_eq_none (i + 1) fun y hy => h y (List.mem_cons_of_mem _ hy)

/-! ## OQPOP and OQREL (R186) -/

section
variable {h : Head} {d a b : Reg} {s : State} {f : Fibre}

theorem takeWords_plain (hd : f.dropped = false) (n : Nat) (ws : List Word) : f.takeWords n ws [] = f.setRun n ws := by
  rw [Fibre.takeWords, hd]
  rfl

/-- An entry with no erroneous element is logged nowhere and poisons no register. -/
theorem pop_clean {e : Slot} (he : e.bad = []) (q n : Nat) : s.logPop f q n e = s ∧ popPoison d.toNat n e = [] := by
  constructor
  · unfold State.logPop
    split
    · rfl
    · rw [he]
      rfl
  · simp [popPoison, bitsBad, he]

theorem oqpop_go {n : BitVec 5} (hx : Executes (.oqpop h d a n) s f) (hd : f.dropped = false) :
    let i := Instr.oqpop h d a n
    let cnt := n.toNat + 1
    let slots := ((s.oq? f.grp a.toNat).map (·.slots)).getD []
    let slice := ((s.group? f.grp).bind (·.slice)).map (·.state)
    let gives := fun (st : Word) => Leaves i s s f (f.setRun d.toNat (st :: List.replicate cnt 0))
    (f.isHelper = true → gives 5) ∧
    (∀ j e, Free f → firstIdx (fun e => e.state == .full && !e.kept) slots 0 = some (j, e) → e.bad = [] →
      Leaves i s (s.modOq f.grp a.toNat fun q => { q with slots := q.slots.modify j fun x => { x with state := .popped } }) f
        (f.setRun d.toNat (e.status :: leWords cnt e.payload))) ∧
    (Free f → (∀ e ∈ slots, e.state = .full → e.kept = true) → (∀ e ∈ slots, e.gath = true → e.state ≠ .filling) →
      (slice = none ∨ slice = some .ended ∨ slice = some .cancelled → gives 5) ∧ (slice = some .faulted → gives 1)) ∧
    (Free f → (∀ e ∈ slots, e.state = .full → e.kept = true) → slice = some .running ∨ slice = some .waitingTrap →
      exec i s = .next (s.waitFor s.cur f .opQueue)) := by
  intro i cnt slots slice gives
  have hnone : (∀ e ∈ slots, e.state = .full → e.kept = true) → firstIdx (fun e => e.state == .full && !e.kept) slots 0 = none :=
    fun hk => firstIdx_eq_none 0 fun e he => by simpa using hk e he
  simp only [gives, i, Leaves, exec_oqpop, execOqpop, issueWord_go hx, takeWords_plain hd]
  refine ⟨fun hh => congrArg _ (if_pos hh), fun j e hf hj he => ?_, fun hf hk hg => ?_, fun hf hk hs => ?_⟩
  · obtain ⟨hlog, hpois⟩ := pop_clean (s := s) (f := f) (d := d) he a.toNat cnt
    simp only [slots, cnt] at hj hlog hpois
    simp only [hf.1, hf.2, hj, hlog, hpois, takeWords_plain hd]
    rfl
  · have hres : (slots.any fun e => e.gath && e.state == .filling) = false := by
      simpa using hg
    have hj := hnone hk
    simp only [slots] at hres hj
    simp only [hf.1, hj, hres]
    refine ⟨fun hs => ?_, fun hs => ?_⟩
    · obtain hs | hs | hs := hs <;> simp only [slice] at hs <;> rw [hs] <;> rfl
    · simp only [slice] at hs
      rw [hs]
      rfl
  · have hj := hnone hk
    simp only [slots] at hj
    simp only [hf.1, hj]
    obtain hs | hs := hs <;> simp only [slice] at hs <;> rw [hs] <;> simp

theorem oqrel_go (hx : Executes (.oqrel h a) s f) : (f.isHelper = true → Leaves (.oqrel h a) s s f f) ∧
    (Free f → Leaves (.oqrel h a) s (s.oqRelease f.grp a.toNat) f f) := by
  simp only [Leaves, exec_oqrel, execOqrel, issueWord_go hx]
  refine ⟨fun hh => congrArg _ (if_pos hh), fun hf => ?_⟩
  rw [hf.1, hf.2]
  rfl

/-! ## ASLICE and ASTOP (R187) -/

theorem aslice_go {hd : Bool} {t : State} {g : Machine.Group} {desc : List Byte} {qs : List (Nat × OQueue)}
    (hx : Executes (.aslice h d a hd) s f) (hf : Free f) (hacc : s.accessesDone s.cur f = true)
    (hpend : ∀ r ∈ s.pendingSlots s.cur, 8 ≤ r) (hhand : ∀ e ∈ f.handles, 8 ≤ e.1) (hpois : ∀ e ∈ f.poison, 8 ≤ e.1) :
    let i := Instr.aslice h d a hd
    let addr := (joinPair (src s f a) (f.read s.cur (a.toNat + 1))).toNat
    let v := t.dropCarried (wordKey s.cur)
    let l := v.launchOp s.cur f .none (if hd then some d.toNat else none) (.slice f.grp) (v.ordAt f f.rp)
    let p := l.2.2.fibres.length
    let started : State := { l.2.2 with fibres := l.2.2.fibres ++ [pacerFibre f (w64 (leNat (desc.take 8))) l.2.2.clk] }
    pkgOf addr = Config.pkgNumber → s.walkBlocked f .g addr 40 .read = false → s.engineRead none f .g addr 40 = (.ok desc, t) →
    l.2.2.group? f.grp = some g → g.sliceStands = false → sliceQueues desc = some qs → addr % 8 = 0 →
    l.2.2.queueTaken (l.2.2.site f).coreIx + queueBytes qs ≤ 229376 + queueBytes g.oqs →
    Leaves i s (started.modGroup f.grp fun x => { x with slice := some ⟨.running, p, l.1⟩, oqs := qs }) f l.2.1 := by
  intro i addr v l p started hpkg hwalk hread hg hstands hqs halign hroom
  have hp : (s.pendingSlots s.cur).any (· < 8) = false := by simpa using hpend
  have hh : f.handles.any (·.1 < 8) = false := by simpa using hhand
  have hs : f.poison.filter (·.1 < 8) = [] := by simpa using hpois
  have hhere : s.atHand (wordKey s.cur) f .g (f.readPair s.cur a.toNat).toNat 40 none = (true, s) := atHand_here (.inr hpkg)
  replace hwalk : s.walkBlocked f .g (f.readPair s.cur a.toNat).toNat 40 .read = false := hwalk
  replace hread : s.engineRead none f .g (f.readPair s.cur a.toNat).toNat 40 = (.ok desc, t) := hread
  replace hg : (v.launchOp s.cur f .none (if hd then some d.toNat else none) (.slice f.grp) (v.ordAt f f.rp)).2.2.group? f.grp = some g := hg
  simp only [i, Leaves, exec_aslice, execAslice, issueWord_go hx]
  simp only [hf.1, hf.2, hacc, hp, hh, hs, meetsPoison_nil, hwalk, hhere, hread]
  simp only [v] at hg
  simp only [hg, hqs, hstands]
  refine congrArg _ ((if_neg (by decide)).trans ((if_neg (by decide)).trans ((if_neg (by decide)).trans ((if_neg (by decide)).trans
    ((if_neg (by decide)).trans ((if_neg (by decide)).trans ((if_neg ?_).trans rfl)))))))
  simp only [Bool.or_eq_true, bne_iff_ne, decide_eq_true_eq, not_or, not_not, not_lt, Bool.false_eq_true, not_false_eq_true, and_true]
  exact ⟨halign, hroom⟩

theorem astop_none (hx : Executes (.astop h) s f) (hn : (s.group? f.grp).bind (·.slice) = none) (hf : Free f) :
    Leaves (.astop h) s s f f := by
  simp only [Leaves, exec_astop, execAstop, issueWord_go hx, hn, hf.2]
  rfl

theorem astop_pacer {sl : Slice} (hx : Executes (.astop h) s f) (hsl : (s.group? f.grp).bind (·.slice) = some sl) (hp : f.isPacer = true)
    (ho : ∀ o ∈ s.ops, o.fills s.cur = false) :
    exec (.astop h) s = .next ((s.finish s.cur (.astop h) f f).endSlice f.grp sl .ended .ok) := by
  have hfills : (s.ops.any fun o => o.fills s.cur) = false := by simpa using ho
  simp only [exec_astop, execAstop, issueWord_go hx, hsl, hp, hfills]
  rfl

theorem astop_fibre {sl : Slice} (hx : Executes (.astop h) s f) (hsl : (s.group? f.grp).bind (·.slice) = some sl) (hp : f.isPacer = false)
    (hf : Free f) (hr : sl.state = .running) :
    let u := s.freeFilling f.grp sl.fib
    exec (.astop h) s = .next ((({ u with ops := u.ops.filter fun o => o.fib != sl.fib } : State).endSlice f.grp sl .cancelled .cancelled).finish
      s.cur (.astop h) f f) := by
  simp only [exec_astop, execAstop, issueWord_go hx, hsl, hp, hf.1, hf.2, hr]
  rfl

/-! ## AFEED and PWAIT (R155, R188) -/

section
variable {m : BitVec 11} {q : OQueue} (hq : s.oq? f.grp d.toNat = some q)
include hq

theorem afeed_reg (hx : Executes (.afeed h d a b m .reg) s f) :
    let num := ((s.group? f.grp).map (·.oqNext)).getD 0
    let u := s.reserve f.grp d.toNat 1 false
    let cnt := (m.extractLsb 7 3).toNat + 1
    (q.b < 4 * cnt → exec (.afeed h d a b m .reg) s = .next (s.sliceFault f.grp)) ∧
    (4 * cnt ≤ q.b → q.slots.length < q.e →
      Leaves (.afeed h d a b m .reg) s (u.fillSlot f.grp d.toNat num 0 (wordBytes (f.readRun s.cur a.toNat cnt)) []) f f) := by
  intro num u cnt
  simp only [Leaves, exec_afeed, execAfeed, issueWord_go hx, hq]
  refine ⟨fun hb => congrArg _ (if_pos ?_), fun hb he => congrArg _ ((if_neg ?_).trans ((if_neg (Nat.not_le.2 he)).trans rfl))⟩
  · simp only [Bool.or_eq_true, decide_eq_true_eq]
    exact .inl (.inr hb)
  · simp only [cnt] at hb
    simp only [Bool.not_true, Bool.or_false, Bool.or_eq_true, decide_eq_true_eq]
    omega

theorem afeed_mem (hx : Executes (.afeed h d a b m .mem) s f) :
    let num := ((s.group? f.grp).map (·.oqNext)).getD 0
    let u := s.reserve f.grp d.toNat 1 false
    let from_ := f.feedPlace s.cur m a
    let len := (src s f b).toNat
    (len = 0 ∨ q.b < len ∨ from_.addr.toNat % 4 ≠ 0 → exec (.afeed h d a b m .mem) s = .next (s.sliceFault f.grp)) ∧
    (1 ≤ len → len ≤ q.b → from_.addr.toNat % 4 = 0 → q.slots.length < q.e →
      let r := u.launchOp s.cur f .none none (.feed f.grp d.toNat num from_ len none) 0xFFFFFF
      Leaves (.afeed h d a b m .mem) s r.2.2 f r.2.1) := by
  intro num u from_ len
  simp only [Leaves, exec_afeed, execAfeed, issueWord_go hx, hq]
  refine ⟨fun hb => congrArg _ (if_pos ?_), fun h1 hb ha he => congrArg _ ((if_neg ?_).trans ((if_neg (Nat.not_le.2 he)).trans rfl))⟩ <;>
    simp only [Bool.or_eq_true, decide_eq_true_eq, Bool.not_eq_true', beq_eq_false_iff_ne, or_assoc]
  · exact hb
  · simp only [not_or, not_not]
    exact ⟨Nat.pos_iff_ne_zero.1 h1, Nat.not_lt.2 hb, ha⟩

theorem afeed_b (hx : Executes (.afeed h d a b m .b) s f) :
    let num := ((s.group? f.grp).map (·.oqNext)).getD 0
    let u := s.reserve f.grp d.toNat 1 false
    let from_ := f.feedPlace s.cur m a
    let fmt := feedFmt m
    recordBytes (convertedWidth fmt (m.getLsbD 8)) ≤ q.b → from_.addr.toNat % 8 = 0 → q.slots.length < q.e →
      let r := u.launchOp s.cur f .none none (.feed f.grp d.toNat num from_ (4096 * fmt.bits + (if fmt.isBfp || m.getLsbD 9 then 1024 else 0))
        (some (fmt, m.getLsbD 8, m.getLsbD 9))) 0xFFFFFF
      Leaves (.afeed h d a b m .b) s r.2.2 f r.2.1 := by
  intro num u from_ fmt hb ha he
  simp only [Leaves, exec_afeed, execAfeed, issueWord_go hx, hq]
  refine congrArg _ ((if_neg ?_).trans ((if_neg (Nat.not_le.2 he)).trans rfl))
  simp only [Bool.or_eq_true, decide_eq_true_eq, Bool.not_eq_true', beq_eq_false_iff_ne, or_assoc, not_or, not_not]
  refine ⟨?_, Nat.not_lt.2 hb, ha⟩
  unfold recordBytes
  omega

theorem pwait_go {n : BitVec 6} (hx : Executes (.pwait h d n) s f) :
    (q.e < n.toNat + 1 → exec (.pwait h d n) s = .next (s.sliceFault f.grp)) ∧
    (q.slots.length + n.toNat + 1 ≤ q.e → Leaves (.pwait h d n) s s f f) ∧
    (n.toNat + 1 ≤ q.e → q.e < q.slots.length + n.toNat + 1 → exec (.pwait h d n) s = .next (s.waitFor s.cur f .opQueue)) := by
  simp only [Leaves, exec_pwait, execPwait, issueWord_go hx, hq]
  refine ⟨fun he => congrArg _ (if_pos he), fun he => congrArg _ ((if_neg ?_).trans (if_neg ?_)), fun he hl =>
    congrArg _ ((if_neg (Nat.not_lt.2 he)).trans (if_pos hl))⟩ <;> omega

end
end

/-- Settles O38: pops and permits by their slots, a context by its descriptor, fills by their queue's bounds. -/
theorem accessSlicesAct : Obligations.AccessSlicesAct := by
  refine ⟨fun h d a n s f => ?_, fun h d a hd s t f g desc qs => ?_, fun h d a b m n s f q hq => ?_⟩
  · exact ⟨oqpop_go, oqrel_go⟩
  · exact ⟨aslice_go, fun hx => ⟨astop_none hx, fun sl hsl => ⟨astop_pacer hx hsl, astop_fibre hx hsl⟩⟩⟩
  · exact ⟨afeed_reg hq, afeed_mem hq, afeed_b hq, pwait_go hq⟩

/-! ## Rounds of the matrix engine (R181, R182) -/

/-- What issue notes of a fibre's group is its protection alone (R151). -/
theorem noteIssue_groups (s : State) (k : Nat) (f : Fibre) (i : Instr) (x : Bool) :
    (s.noteIssue k f i x).groups = s.groups.modify f.grp fun g => { g with unprot := g.unprot.filter (· != k) } := by
  have hjob : ∀ (s : State) (j : Nat) (u : Job → Job), (s.modJob j u).groups = s.groups := fun s j u => by
    unfold State.modJob
    split <;> rfl
  unfold State.noteIssue
  cases f.isPacer <;> cases f.privileged <;> simp [hjob]

theorem cvdecl_go {h : Head} {c n : Reg} {s : State} {f : Fibre} {g : Machine.Group} (hx : Executes (.cvdecl h c n) s f)
    (hg : s.group? f.grp = some g) (hf : Free f) (ho : (g.convs.getD c.toNat default).signed = []) :
    Leaves (.cvdecl h c n) s (s.modGroup f.grp fun y => { y with convs := y.convs.set c.toNat ⟨n.toNat + 1, [], 0⟩ }) f f := by
  simp only [Leaves, exec_cvdecl, execCvdecl, issueWord_go hx, hf.1, hf.2, hg, Option.map_some, Option.getD_some, ho]
  rfl

section
variable {h : Head} {c d a b hreg sreg : Reg} {sc s32 fr spSrc reuse x hd : Bool} {fmt : Fmt} {ssel : BitVec 2} {s : State} {f : Fibre}
  {g : Machine.Group} (hx : Executes (.mma h d a b c sc s32 fr spSrc reuse x fmt hreg hd ssel sreg) s f) (hg : s.group? f.grp = some g)
  (hf : Free f)
include hx hg hf

theorem mma_foreign (hbad : (g.convs.getD c.toNat default).n = 0 ∨
      (g.convs.getD c.toNat default).signed ≠ [] ∧ (g.convs.getD c.toNat default).word ≠ f.pc) :
    let i := Instr.mma h d a b c sc s32 fr spSrc reuse x fmt hreg hd ssel sreg
    exec i s = .next (s.userTrap s.cur (wordTrap f (s.issuedWords f i).1 (s.issuedWords f i).2 0x19) f.rp false) := by
  simp only [exec_mma, execMma, issueWord_go hx, hf.1, hf.2, hg, Option.map_some, Option.getD_some]
  refine congrArg _ ((if_neg (by decide)).trans ((if_neg (by decide)).trans (if_pos ?_)))
  simpa only [Bool.or_eq_true, decide_eq_true_eq, Bool.and_eq_true, Bool.not_eq_true', List.isEmpty_eq_false_iff, bne_iff_ne] using hbad

/-- The machine after a signature: the operation in flight, the fibre in its convergence wait, the register with one signer more. -/
def signedState (s : State) (f : Fibre) (i : Instr) (dst : Option Nat) (c : Nat) (cv : Conv) : State :=
  let l := launched s f .mx dst .mma
  (l.2.2.beginWait s.cur i f l.2.1 (.signed l.1)).modGroup f.grp fun y =>
    { y with convs := y.convs.set c ⟨cv.n, cv.signed ++ [(s.cur, l.1)], f.pc⟩ }

omit hx hf in
theorem signedState_tmap (i : Instr) (dst : Option Nat) (cv : Conv) :
    ((signedState s f i dst c.toNat cv).group? f.grp).map (·.tmap) = some g.tmap := by
  have hl : (launched s f .mx dst .mma).2.2.groups = s.groups := rfl
  have hgs : s.groups[f.grp]? = some g := hg
  simp [signedState, State.group?, State.beginWait, noteIssue_groups, hl, hgs]

theorem mma_signs {cv : Conv} (hcv : g.convs.getD c.toNat default = cv) (hw : cv.word = f.pc ∨ cv.signed = [])
    (hself : ∀ p ∈ cv.signed, p.1 ≠ s.cur) (hoc : f.ocmx ≠ 255) :
    let i := Instr.mma h d a b c sc s32 fr spSrc reuse x fmt hreg hd ssel sreg
    let l := launched s f .mx (if hd then some hreg.toNat else none) .mma
    let n := cv.signed.length + 1
    let u := signedState s f i (if hd then some hreg.toNat else none) c.toNat cv
    (n < cv.n → exec i s = .next u) ∧
    (n = cv.n → (s.core (s.site f).coreIx).mmaq.length < 4 →
      ∃ job : List (Nat × Nat) → MmaJob, exec i s = .next (u.enterRound f.grp (s.site f).coreIx c.toNat job) ∧
        ∀ r, (job r).grp = f.grp ∧ (job r).op = l.1 ∧ (job r).fmt = fmt ∧ (job r).x = x ∧ (job r).sc = sc ∧ (job r).s32 = s32 ∧
          (job r).reuse = reuse ∧ (job r).fr = fr ∧ (job r).spSrc = spSrc ∧ (job r).tile = g.tmap.getD d.toNat 0 ∧ (job r).ltile = d.toNat ∧
          (job r).signers = r.map (·.1) ∧ (job r).ops = r.map (·.2)) := by
  intro i l n u
  have hself : (cv.signed.any fun p => p.1 == s.cur) = false := by simpa only [List.any_eq_false, beq_iff_eq] using hself
  have hopen : cv.n ≠ 0 → (decide (cv.n = 0) || (!cv.signed.isEmpty && cv.word != f.pc)) = false := fun h0 => by
    obtain hw | hw := hw <;> simp [h0, hw]
  simp only [i, exec_mma, execMma, issueWord_go hx, hf.1, hf.2, hg, Option.map_some, Option.getD_some, hcv, hself,
    counterFull_false (cls := .mx) hoc, List.length_append, List.length_singleton]
  refine ⟨fun hlt => ?_, fun heq hq => ?_⟩
  · rw [hopen (by omega), decide_eq_false (show ¬(cv.signed.length + 1 ≥ cv.n) by omega), if_pos hlt]
    rfl
  · replace heq : cv.signed.length + 1 = cv.n := heq
    rw [hopen (by omega), decide_eq_false (Nat.not_le.2 hq), Bool.and_false, if_neg (show ¬cv.signed.length + 1 < cv.n by omega)]
    simp only [Bool.false_eq_true, if_false]
    refine ⟨_, rfl, fun r => ⟨rfl, rfl, rfl, rfl, rfl, rfl, rfl, rfl, rfl, ?_, rfl, rfl, rfl⟩⟩
    have ht := signedState_tmap (c := c) hg i (if hd then some hreg.toNat else none) cv
    obtain ⟨y, hy, hty⟩ := Option.map_eq_some_iff.1 ht
    rw [← hty]
    exact congrArg (fun o => (o.map fun g : Machine.Group => g.tmap.getD d.toNat 0).getD 0) hy

end

theorem mmaStart_go {core : Nat} {s : State} {j : MmaJob} {rest : List MmaJob} (hq : (s.core core).mmaq = j :: rest)
    (hr : (s.core core).running = none) (hd : (s.core core).dead = false) (ho : s.accOlder core j.tile j.op = false) :
    (∀ st rec bad ix t, s.operandB j = .got st rec bad ix t → let r := s.compute core j (.got st rec bad ix t)
      exec (.mmaStart core) s = .next ((r.1.modCore core fun c => { c with mmaq := rest, running := some (j, r.2) }).leaveRound j)) ∧
    (s.operandB j = .wait → exec (.mmaStart core) s = .next (s.keepEntry j)) := by
  simp only [exec_mmaStart, execMmaStart, hq, hr, hd, ho]
  exact ⟨fun st rec bad ix t hb => by rw [hb]; rfl, fun hb => by rw [hb]; rfl⟩

/-- Settles O39: a round by its convergence register, the engine by its queue. -/
theorem matrixWordsAct : Obligations.MatrixWordsAct := by
  refine ⟨fun h c n d a b hreg sreg sc s32 fr spSrc reuse x hd fmt ssel s f g hg hf => ?_, fun core s =>
    ⟨fun j rest hq hr hd ho => mmaStart_go hq hr hd ho, fun j st hr => ?_⟩⟩
  · intro i cv l signed u
    refine ⟨fun hx ho => cvdecl_go hx hg hf ho, fun hx => ⟨mma_foreign hx hg hf, fun hw hself hoc => ?_⟩⟩
    have signs := mma_signs hx hg hf rfl hw hself hoc
    have hlen : signed.length = cv.signed.length + 1 := by simp [signed]
    rw [hlen]
    exact signs
  · simp only [exec_mmaComplete, execMmaComplete, hr]

/-! ## Accumulator words (R159, R184) -/

section
variable {h : Head} {d a b : Reg} {s : State} {f : Fibre}

theorem withNoise_none (k : Nat) {n : Nat} (hn : n = 0) (wide : Bool) (body : List Nat → State → Fibre → State) :
    s.withNoise k f n wide body = body [] s f := if_pos hn

theorem accz_go (hx : Executes (.accz h d) s f) (hf : Free f) (hc : f.ocmx ≠ 255) :
    Launches (.accz h d) s f .mx none (.acc (.zero (s.physTile f d))) := by
  simp only [Launches, Leaves, exec_accz, execAccz, issueWord_go hx, hf.1, hf.2, counterFull_false (cls := .mx) hc]
  rfl

/-- What a transfer of a tile carries from its word on. -/
def tileMove (s : State) (f : Fibre) (d a : Reg) (spc : Space) (k : AccKind) : Access :=
  { (default : Access) with kind := k, space := spc, addr := w64 (f.base s.cur spc a), size := 1, base := w64 (f.base s.cur spc a),
                            tile := s.physTile f d, row := 0, fmt := .f32 }

theorem accld_go {spc : Space} (hx : Executes (.accld h d a spc) s f) (hf : Free f) (hc : f.ocmx ≠ 255) (hr : s.accessRoom s.cur f = true) :
    Launches (.accld h d a spc) s f .mx none (.acc (.move (tileMove s f d a spc .accld))) := by
  simp only [Launches, Leaves, exec_accld, execAccld, issueWord_go hx, hf.1, hf.2, counterFull_false (cls := .mx) hc, hr]
  rfl

theorem accst_go {spc : Space} {rnd : Rnd} {adj : Bool} {fmt : Fmt} (hx : Executes (.accst h d a b rnd spc adj fmt) s f) (hf : Free f)
    (hc : f.ocmx ≠ 255) (hr : s.accessRoom s.cur f = true) (hn : rnd ≠ .sr ∨ fmt = .f32) :
    Launches (.accst h d a b rnd spc adj fmt) s f .mx none (.acc (.move { tileMove s f d a spc .accst with
      fmt := fmt, rnd := rnd, adj := adj, exps := if fmt = .f32 then 0 else w64 (f.base s.cur spc b) })) := by
  have hdraws : (if fmt = .f32 then 0 else srDraws rnd 65536) = 0 := by
    unfold srDraws
    split_ifs <;> simp_all
  simp only [Launches, Leaves, exec_accst, execAccst, issueWord_go hx, hf.1, hf.2, counterFull_false (cls := .mx) hc, hr,
    withNoise_none _ hdraws]
  rfl

theorem accrd_go (hx : Executes (.accrd h d a b) s f) :
    let v := (src s f b).toNat
    Launches (.accrd h d a b) s f .none none (.acc (.read (s.physTile f a) (bitsOf v 22 16) (bitsOf v 8 5) (some d.toNat))) := by
  simp only [Launches, Leaves, exec_accrd, execAccrd, issueWord_go hx]
  rfl

end

section
variable {op tile : Nat} {s : State} {o : Op} {f : Fibre} {g : Machine.Group} (ho : s.op? op = some o) (hd : o.done = none)
  (hf : s.fibre? o.fib = some f) (hg : s.group? o.grp = some g) (hdead : (s.core g.coreIx).dead = false)
  (hold : s.accOlder g.coreIx tile op = false) (hq : ∀ j ∈ (s.core g.coreIx).mmaq, j.tile = tile → op ≤ j.op)
  (hr : ∀ r ∈ (s.core g.coreIx).running, r.1.tile = tile → op ≤ r.1.op)

include hq hr in
/-- No older MMA, waiting or running, holds the tile. -/
theorem no_older_mma : (((s.core g.coreIx).mmaq ++ (match (s.core g.coreIx).running with | some r => [r.1] | none => [])).any fun j =>
    j.tile == tile && j.op < op) = false := by
  simp only [List.any_eq_false, List.mem_append, Bool.and_eq_true, beq_iff_eq, decide_eq_true_eq, not_and, not_lt]
  rintro j (hj | hj) ht
  · exact hq j hj ht
  · cases hrun : (s.core g.coreIx).running with
    | none => simp [hrun] at hj
    | some r =>
      simp only [hrun, List.mem_singleton] at hj
      subst hj
      exact hr r (by simp [hrun]) ht

include hd hdead hold hq hr in
/-- Nothing keeps an accumulator operation from its tile. -/
theorem tile_free : ¬(o.done.isSome || (s.core g.coreIx).dead || s.accOlder g.coreIx tile op ||
    ((s.core g.coreIx).mmaq ++ (match (s.core g.coreIx).running with | some r => [r.1] | none => [])).any fun j =>
      j.tile == tile && j.op < op) = true := by
  rw [hd, hdead, hold, no_older_mma hq hr]
  decide

include ho hd hf hg hdead hold hq hr

theorem accTransfer_zero (hb : o.body = .acc (.zero tile)) : exec (.accTransferComplete op) s =
    .next ((s.setTile g.coreIx tile (List.replicate 128 (List.replicate 512 0))).finishOp op .ok) := by
  simp only [exec_accTransferComplete, execAccTransferComplete, ho, hb, hf, hg, Option.map_some]
  exact congrArg _ (if_neg (tile_free hd hdead hold hq hr))

theorem accTransfer_read {r b d : Nat} (hb : o.body = .acc (.read tile r b (some d))) (hgone : o.gone = false)
    (hlost : s.tileLost g.coreIx tile = []) : exec (.accTransferComplete op) s =
    .next ((s.modFibre o.fib fun f => f.setRun d ((((s.tileRows g.coreIx tile).getD r []).drop (32 * b)).take 32)).finishOp op .ok) := by
  simp only [exec_accTransferComplete, execAccTransferComplete, ho, hb, hf, hg, Option.map_some, hlost, hgone, List.filter_nil,
    List.isEmpty_nil, Bool.or_true, if_true]
  exact congrArg _ (if_neg (tile_free hd hdead hold hq hr))

theorem accTransfer_move {a : Access} (ha : a.tile = tile) {st : Status} {t : State} (hb : o.body = .acc (.move a))
    (hmb : s.moveBlocked o f a = false) (hod : s.olderDone o = true) (hmv : s.moveTile o f g.coreIx a = (some st, t)) :
    exec (.accTransferComplete op) s = .next (t.finishOp op st) := by
  subst ha
  simp only [exec_accTransferComplete, execAccTransferComplete, ho, hb, hf, hg, Option.map_some, hmb, hod, hmv]
  exact congrArg _ (if_neg (tile_free hd hdead hold hq hr))

end

/-- Settles O40: a word launches its operation; the operation acts once nothing older holds its tile. -/
theorem accumulatorWordsAct : Obligations.AccumulatorWordsAct := by
  refine ⟨fun h d a b spc adj rnd fmt s f => ⟨fun hx hf hc => accz_go hx hf hc, fun hx hf hc hr => accld_go hx hf hc hr,
    fun hx hf hc hr hn => accst_go hx hf hc hr hn, fun hx => accrd_go hx⟩, fun op s o f g w ho hb hd hf hg => ?_⟩
  intro core tile hdead hold hq hr
  refine ⟨fun hw => ?_, fun r b d hw hgone hlost => ?_, fun a st t hw hmb hod hmv => ?_⟩
  · exact accTransfer_zero ho hd hf hg hdead hold hq hr (hw ▸ hb)
  · exact accTransfer_read ho hd hf hg hdead hold hq hr (hw ▸ hb) hgone hlost
  · exact accTransfer_move ho hd hf hg hdead hold hq hr (by rw [show tile = a.tile from by simp only [tile, hw]]) (hw ▸ hb) hmb hod hmv

end Sys2Proof.Matrix

/-! SUPPORT. Loads, stores, atomics and fences as they issue, and an access in its turn (R164 to R169, R196 to R207). -/

namespace Sys2Proof.MemoryWords
open Sys2Proof Sys2Proof.Machine Sys2Proof.ControlWords

/-! ## Issue (R164, R165) -/

section
variable {h : Head} {d a b : Reg} {spc : Space} {sz : Size} {ord : Order} {sc : Scope} {off : BitVec 16} {s : State} {f : Fibre}

theorem ld_go (hx : Executes (.ld h d a spc sz ord sc off) s f) (hp : f.isPacer = false) (hr : s.accessRoom s.cur f = true)
    (hh : spc = .sys → f.held = []) :
    exec (.ld h d a spc sz ord sc off) s = .next
      ((s.issueAccess s.cur (f.access s.cur .ld spc a off sz.bytes ord sc .add d.toNat (sz.run d).len []) f.wseq (s.ordAt f f.rp)).finishNow
        s.cur (.ld h d a spc sz ord sc off) f) := by
  have hs : (spc == .sys && f.held.any fun h => h.eff.inSys) = false := by
    cases spc <;> simp [hh]
  simp only [exec_ld, execLd, issueWord_go hx, hp, hs, hr]
  rfl

section
variable {i : Instr} {x : Access}

theorem issueWrite_helper (hh : f.isHelper = true) : s.issueWrite s.cur f i x = s.finish s.cur i f f := if_pos hh

/-- A write with room for one more access goes out under the next write-drain count. -/
theorem issueWrite_free (hf : Free f) (hr : s.accessRoom s.cur f = true) : s.issueWrite s.cur f i x =
    ((s.modFibre s.cur fun f => { f with wseq := f.wseq + 1 }).issueAccess s.cur x (f.wseq + 1) (s.ordAt f f.rp)).finishNow s.cur i f := by
  simp only [State.issueWrite, hf.1, hf.2, hr, Bool.false_and, Bool.false_eq_true, if_false, Bool.not_true]
  refine if_neg ?_
  split <;> simp

theorem issueWrite_held {g : Fibre} (hh : f.isHelper = false) (ht : f.tainted = true) (hs : x.space ≠ .sp)
    (hg : s.hold f (.mem x) (s.ordAt f f.rp) = some g) : s.issueWrite s.cur f i x = s.finish s.cur i f g := by
  have hc : (f.tainted && x.space != .sp) = true := by simp [ht, hs]
  simp only [State.issueWrite, hh, hc, hg, Bool.false_eq_true, if_false, if_true]

/-- A word that is a write: nothing in a helper, sent where there is room, held in a tainted fibre. -/
theorem write_go {y : Nat → Fibre → Access} (he : exec i s = issueWord i s fun k f => s.issueWrite k f i (y k f)) (hy : y s.cur f = x)
    (hx : Executes i s f) :
    (f.isHelper = true → Leaves i s s f f) ∧
    (Free f → s.accessRoom s.cur f = true → exec i s = .next
      (((s.modFibre s.cur fun f => { f with wseq := f.wseq + 1 }).issueAccess s.cur x (f.wseq + 1) (s.ordAt f f.rp)).finishNow s.cur i f)) ∧
    (f.isHelper = false → f.tainted = true → x.space ≠ .sp → ∀ g, s.hold f (.mem x) (s.ordAt f f.rp) = some g → Leaves i s s f g) := by
  rw [Leaves, he, issueWord_go hx, hy]
  refine ⟨fun hh => congrArg _ (issueWrite_helper hh), fun hf hr => congrArg _ (issueWrite_free hf hr), fun hh ht hs g hg => ?_⟩
  rw [Leaves, he, issueWord_go hx, hy, issueWrite_held hh ht hs hg]

end

theorem atom_go {op : AtomOp} (hx : Executes (.atom h d a b spc sz ord sc op off) s f) :
    let i := Instr.atom h d a b spc sz ord sc op off
    (f.isHelper = true → Leaves i s s f (f.setRun d.toNat (List.replicate (sz.run d).len 0))) ∧
    (Free f → s.accessRoom s.cur f = true → exec i s = .next
      (((s.modFibre s.cur fun f => { f with wseq := f.wseq + 1 }).issueAccess s.cur
        (f.access s.cur .atom spc a off sz.bytes ord sc op d.toNat (sz.run d).len (atomData f s.cur b sz op)) (f.wseq + 1)
        (s.ordAt f f.rp)).finishNow s.cur i f)) := by
  simp only [Leaves, exec_atom, execAtom, issueWord_go hx]
  refine ⟨fun hh => congrArg _ (if_pos hh), fun hf hr => ?_⟩
  simp only [hf.1, hf.2, hr]
  rfl

/-! ## FENCE and EFENCE (R168, R198, R261) -/

@[simp] theorem publish_mem (s : State) (x : Pub) (v : List Nat) : (s.publish x v).mem = s.mem := rfl
@[simp] theorem publish_ops (s : State) (x : Pub) (v : List Nat) : (s.publish x v).ops = s.ops := rfl
@[simp] theorem publish_fibres (s : State) (x : Pub) (v : List Nat) : (s.publish x v).fibres = s.fibres := rfl

/-- The fibre as a fence at a scope leaves it. -/
def fenced (s : State) (f : Fibre) (sc : Scope) (seq : Bool) : Fibre :=
  let me := s.locus f
  let f := f.join (acquired f.acqs sc me)
  let f := if seq then s.acquire (.fence sc (instanceOf sc me)) f else f
  { f with acqs := f.acqs.filter fun e => !e.view.all f.seen.contains, rels := (sc, f.seen) :: f.rels.filter fun e => e.1 != sc }

/-- A fence writes its fibre, and under .sc what it has published. -/
theorem fenceAt_eq (s : State) (k : Nat) (f : Fibre) (sc : Scope) (seq : Bool) : s.fenceAt k f sc seq =
    if seq then (s.setFibre k (fenced s f sc seq)).publish (.fence sc (instanceOf sc (s.locus f))) (fenced s f sc seq).seen
    else s.setFibre k (fenced s f sc seq) := rfl

theorem mem_join {f : Fibre} {x : Nat} (hx : x ∈ f.seen) (v : List Nat) : x ∈ (f.join v).seen := by
  simp [Fibre.join, joinView, hx]

theorem fenced_eq (s : State) (f : Fibre) (sc : Scope) (seq : Bool) : fenced s f sc seq =
    { f with seen := (fenced s f sc seq).seen, acqs := (fenced s f sc seq).acqs, rels := (fenced s f sc seq).rels } := by
  cases seq <;> rfl

theorem seen_fenced {s : State} {f : Fibre} {x : Nat} (hx : x ∈ f.seen) (sc : Scope) (seq : Bool) : x ∈ (fenced s f sc seq).seen := by
  cases seq
  · exact mem_join hx _
  · exact mem_join (mem_join hx _) _

theorem rels_fenced (s : State) (f : Fibre) (sc : Scope) (seq : Bool) : (sc, (fenced s f sc seq).seen) ∈ (fenced s f sc seq).rels :=
  List.mem_cons_self ..

/-- What a fence leaves of the machine: memory, operations and every other fibre. -/
theorem fenceAt_frame (hf : s.fibre? k = some f) (f1 : Fibre) (sc : Scope) (seq : Bool) :
    let u := (s.setFibre k f1).fenceAt k f1 sc seq
    u.mem = s.mem ∧ u.ops = s.ops ∧ OthersSame k s u ∧ u.fibre? k = some (fenced (s.setFibre k f1) f1 sc seq) := by
  intro u
  have hfib : u.fibres = ((s.setFibre k f1).setFibre k (fenced (s.setFibre k f1) f1 sc seq)).fibres := by
    simp only [u, fenceAt_eq]
    split <;> rfl
  have hlook : ∀ j, u.fibre? j = ((s.setFibre k f1).setFibre k (fenced (s.setFibre k f1) f1 sc seq)).fibre? j := fun j => congrArg (·[j]?) hfib
  refine ⟨?_, ?_, ⟨by simp [hfib], fun j hj => ?_⟩, ?_⟩
  · simp only [u, fenceAt_eq]
    split <;> rfl
  · simp only [u, fenceAt_eq]
    split <;> rfl
  · rw [hlook, State.setFibre_fibre?_other hj, State.setFibre_fibre?_other hj]
  · rw [hlook]
    exact State.setFibre_fibre?_same (State.setFibre_fibre?_same hf)

/-- The fibre as FENCE finds it for its scope: what it holds is ordered by the fence too (R169, R207). -/
def fencing (s : State) (f : Fibre) (d : Reg) : Fibre :=
  if f.held.isEmpty then f
  else { f with wseq := f.wseq + 1, held := f.held ++ [⟨f.wseq + 1, .fence (scopeOf d.toNat), s.ordAt f f.rp, false⟩] }

theorem fencing_eq (s : State) (f : Fibre) (d : Reg) : fencing s f d = { f with wseq := (fencing s f d).wseq, held := (fencing s f d).held } := by
  unfold fencing
  split <;> rfl

theorem fence_go (hx : Executes (.fence h d a) s f) :
    (s.accessesDone s.cur f = true → f.tainted = false ∨ a ≠ 1 →
      let u := (s.setFibre s.cur (fencing s f d)).fenceAt s.cur (fencing s f d) (scopeOf d.toNat) (a == 1)
      Leaves (.fence h d a) s u f (fenced (s.setFibre s.cur (fencing s f d)) (fencing s f d) (scopeOf d.toNat) (a == 1))) ∧
    (f.tainted = true → a = 1 → exec (.fence h d a) s = .next (s.waitFor s.cur f .tag)) ∧
    (s.accessesDone s.cur f = false → f.tainted = false ∨ a ≠ 1 → exec (.fence h d a) s = .next (s.waitFor s.cur f .memory)) := by
  have hg : f.tainted = false ∨ a ≠ 1 → ¬(f.tainted && a == 1) = true := fun h => by
    simpa only [Bool.and_eq_true, beq_iff_eq, not_and, Bool.eq_false_iff, ne_eq, imp_iff_not_or] using h
  have hfib := fibre_of_executes hx
  simp only [Leaves, exec_fence, execFence, issueWord_go hx]
  refine ⟨fun hd ht => congrArg _ ((if_neg (hg ht)).trans ((if_neg (by simp [hd])).trans ?_)),
    fun ht ha => congrArg _ (if_pos (by simp [ht, ha])), fun hd ht => congrArg _ ((if_neg (hg ht)).trans (if_pos (by simp [hd])))⟩
  obtain ⟨-, -, -, hu⟩ := fenceAt_frame hfib (fencing s f d) (scopeOf d.toNat) (a == 1)
  exact congrArg (State.finish _ s.cur (.fence h d a) f) (congrArg (·.getD f) hu)

theorem efence_go (hx : Executes (.efence h) s f) :
    let own := f.held.any fun x => x.eff.isAccess
    (s.accessesDone s.cur f = true → own = false → f.replay = [] → Leaves (.efence h) s s f f) ∧
    (s.accessesDone s.cur f = true ∨ s.releaseStuck s.cur f = true → own = false → f.replay ≠ [] →
      exec (.efence h) s = .next (s.deliver s.cur f.rp (s.issuedWords f (.efence h)).1 (s.issuedWords f (.efence h)).2)) ∧
    (s.accessesDone s.cur f = false ∧ s.releaseStuck s.cur f = false ∨ own = true →
      exec (.efence h) s = .next (s.waitFor s.cur f .memory)) := by
  simp only [Leaves, exec_efence, execEfence, issueWord_go hx, Bool.or_eq_true, Bool.and_eq_true, Bool.not_eq_true']
  refine ⟨fun hd ho hr => congrArg _ ((if_neg ?_).trans (if_pos ?_)), fun hd ho hr => congrArg _ ((if_neg ?_).trans (if_neg ?_)),
    fun hw => congrArg _ (if_pos hw)⟩
  · simp [hd, ho]
  · simp [hr]
  · rcases hd with hd | hd <;> simp [hd, ho]
  · simpa using hr

end

/-- A result without a fixed latency is written when its operation completes, and goes nowhere once its fibre has ended (R92). -/
theorem variableLatencyComplete_go {op : Nat} {s : State} {o : Op} {rs : List (Nat × Word)} {ps : List (Nat × Bool)} {nv : Word}
    (ho : s.op? op = some o) (hb : o.body = .result rs ps nv) :
    (o.gone = false → exec (.variableLatencyComplete op) s = .next ((s.dropOp op).modFibre o.fib fun f => (f.setRegs rs).setPreds ps)) ∧
    (o.gone = true → exec (.variableLatencyComplete op) s = .next (s.dropOp op)) := by
  simp only [exec_variableLatencyComplete, execVariableLatencyComplete, ho, hb]
  exact ⟨fun hg => congrArg _ (if_neg (by simp [hg])), fun hg => congrArg _ (if_pos hg)⟩

/-- Settles O32: words by where their fibre stands, fences by what is still out. -/
theorem memoryWordsIssue : Obligations.MemoryWordsIssue := by
  refine ⟨fun h d a b spc sz ord sc op off s f => ?_, fun h d a s f => ⟨fun hx => ?_, fun hx => efence_go hx⟩,
    fun op s o rs ps nv ho hb => variableLatencyComplete_go ho hb⟩
  · intro base addr acc goes wrote stData opData writes
    refine ⟨fun hx hp hr hh => ?_, fun hx => ?_, fun hx => ?_, fun hx => ?_⟩
    · exact ld_go hx hp hr hh
    · exact write_go (y := fun k f => f.access k .st spc a off sz.bytes ord sc .add 0 0 (f.readRun k b.toNat (sz.run b).len)) (exec_st ..) rfl hx
    · exact write_go (y := fun k f => f.access k .red spc a off sz.bytes ord sc op 0 0 (atomData f k b sz op)) (exec_red ..) rfl hx
    · exact atom_go hx
  · obtain ⟨goes, stalls, waits⟩ := fence_go hx
    refine ⟨fun hd ht => ⟨_, _, goes hd ht, ?_⟩, stalls, waits⟩
    obtain ⟨hmem, hops, hothers, -⟩ := fenceAt_frame (fibre_of_executes hx) (fencing s f d) (scopeOf d.toNat) (a == 1)
    refine ⟨hmem, hops, hothers, ?_, ?_, fun x hx => seen_fenced ?_ _ _, rels_fenced .., fun hh => ?_⟩
    · rw [fenced_eq, fencing_eq]
    · rw [fenced_eq, fencing_eq]
    · rwa [fencing_eq]
    · rw [fenced_eq, fencing, hh]
      exact hh

/-! ## An access in its turn (R164, R167, R196 to R207) -/

/-- What an access leaves as it was while its fibre learns what it has seen: operations, the clk, the queues' entries, every other fibre,
and of its own all but the releases and writes it knows. -/
def Learns (k : Nat) (s t : State) : Prop :=
  t.ops = s.ops ∧ t.clk = s.clk ∧ SameEntries s t ∧ OthersSame k s t ∧
    ∀ f, s.fibre? k = some f → ∃ seen acqs, t.fibre? k = some { f with seen := seen, acqs := acqs }

section
variable {s t u : State} {k : Nat} {f : Fibre}

/-- A state with the same operations, clk, queues and fibres. -/
theorem Learns.of_eq (ho : t.ops = s.ops) (hc : t.clk = s.clk) (hq : t.queues = s.queues) (hf : t.fibres = s.fibres) : Learns k s t :=
  ⟨ho, hc, by rw [SameEntries, hq], ⟨by rw [hf], fun j _ => congrArg (·[j]?) hf⟩, fun f h => ⟨f.seen, f.acqs, (congrArg (·[k]?) hf).trans h⟩⟩

theorem Learns.trans (h : Learns k s t) (h' : Learns k t u) : Learns k s u := by
  obtain ⟨ho, hc, hq, ⟨hl, hj⟩, hf⟩ := h
  obtain ⟨ho', hc', hq', ⟨hl', hj'⟩, hf'⟩ := h'
  refine ⟨ho'.trans ho, hc'.trans hc, Eq.trans hq' hq, ⟨hl'.trans hl, fun j h => (hj' j h).trans (hj j h)⟩, fun f h => ?_⟩
  obtain ⟨_, _, h1⟩ := hf f h
  obtain ⟨x, y, h2⟩ := hf' _ h1
  exact ⟨x, y, h2⟩

theorem fibre?_modFibre_same (s : State) (k : Nat) (v : Fibre → Fibre) : (s.modFibre k v).fibre? k = (s.fibre? k).map v := by
  simp [State.fibre?]

theorem othersSame_modFibre (s : State) (k : Nat) (v : Fibre → Fibre) : OthersSame k s (s.modFibre k v) :=
  ⟨by simp, fun j h => by simp [State.fibre?, Ne.symm h]⟩

theorem learns_modFibre (s : State) (k : Nat) (v : Fibre → Fibre) (hv : ∀ f, v f = { f with seen := (v f).seen, acqs := (v f).acqs }) :
    Learns k s (s.modFibre k v) :=
  ⟨rfl, rfl, rfl, othersSame_modFibre s k v, fun f h => ⟨(v f).seen, (v f).acqs, by rw [fibre?_modFibre_same, h, Option.map_some, ← hv]⟩⟩

theorem learns_notePast (s v : State) (k : Nat) (f : Fibre) (strong rel : Option Scope) (chain : List Sync) (loc n seq : Nat) (op : Option Nat) :
    Learns k s (s.notePast v k f strong rel chain loc n seq op) := by
  cases op with
  | some _ => exact .of_eq rfl rfl rfl rfl
  | none =>
    unfold State.notePast
    dsimp only
    rw [if_neg (by decide)]
    exact .trans (.of_eq rfl rfl rfl rfl) (learns_modFibre _ k _ fun _ => rfl)

@[simp] theorem notePast_mem (s v : State) (k : Nat) (f : Fibre) (strong rel : Option Scope) (chain : List Sync) (loc n seq : Nat)
    (op : Option Nat) : (s.notePast v k f strong rel chain loc n seq op).mem = s.mem := by
  cases op <;> rfl

theorem words_told (e : QEntry) (op : Nat) (v : List Nat) : (e.told op v).words = e.words := by
  unfold QEntry.told
  split <;> rfl

theorem learns_tellEntries (s : State) (k op : Nat) (v : List Nat) : Learns k s (s.tellEntries k op v) := by
  refine ⟨rfl, rfl, ?_, ⟨rfl, fun _ _ => rfl⟩, fun f h => ⟨f.seen, f.acqs, h⟩⟩
  simp [SameEntries, State.tellEntries, words_told, Function.comp_def]

@[simp] theorem tellEntries_mem (s : State) (k op : Nat) (v : List Nat) : (s.tellEntries k op v).mem = s.mem := rfl

/-- A write at a place outside the management window stores its bytes. -/
theorem writeAt_mem {loc : Nat} (hr : regOffset loc = none) (req : BitVec 16) (bs : List Byte) :
    (s.writeAt req loc bs).mem = Memory.putAll s.mem loc bs := by
  simp only [State.writeAt, hr]
  split <;> rfl

theorem learns_writeAt {loc : Nat} (hr : regOffset loc = none) (k : Nat) (req : BitVec 16) (bs : List Byte) :
    Learns k s (s.writeAt req loc bs) := by
  simp only [State.writeAt, hr]
  split <;> exact .of_eq rfl rfl rfl rfl

theorem learns_releaseToHost (s : State) (k : Nat) : Learns k s s.releaseToHost := .of_eq rfl rfl rfl rfl

theorem writeFor_mem {loc : Nat} (hr : regOffset loc = none) (k : Nat) (f : Fibre) (a : Access) (chain : List Sync) (seq : Nat)
    (bs : List Byte) : (s.writeFor k f a chain loc seq bs).mem = Memory.putAll s.mem loc bs := by
  unfold State.writeFor
  dsimp only
  split
  · split
    · exact (notePast_mem ..).trans (writeAt_mem hr ..)
    · exact (notePast_mem ..).trans (writeAt_mem hr ..)
  · exact writeAt_mem hr ..

theorem learns_writeFor {loc : Nat} (hr : regOffset loc = none) (k : Nat) (f : Fibre) (a : Access) (chain : List Sync) (seq : Nat)
    (bs : List Byte) : Learns k s (s.writeFor k f a chain loc seq bs) := by
  unfold State.writeFor
  dsimp only
  split
  · have hnote := (learns_writeAt (s := s) hr k (s.requester (s.jobOf f)) bs).trans (learns_notePast _ s k f a.strength
      (if a.order == .rel then some a.reach else none) chain loc bs.length seq none)
    split
    · exact hnote.trans (learns_releaseToHost _ k)
    · exact hnote
  · exact learns_writeAt hr k ..

@[simp] theorem loadFor_mem (k : Nat) (f : Fibre) (a : Access) (loc seq : Nat) : (s.loadFor k f a loc seq).2.mem = s.mem := by
  unfold State.loadFor
  split <;> rfl

theorem learns_loadFor (s : State) (k : Nat) (f : Fibre) (a : Access) (loc seq : Nat) : Learns k s (s.loadFor k f a loc seq).2 := by
  unfold State.loadFor
  split
  · exact .trans (t := { s with looked := s.looked + 1 }) (.of_eq rfl rfl rfl rfl) (learns_modFibre _ k _ fun _ => rfl)
  · exact .of_eq rfl rfl rfl rfl

/-- Changing a fibre to itself changes nothing. -/
theorem modFibre_id (hf : s.fibre? k = some f) {v : Fibre → Fibre} (hv : v f = f) : s.modFibre k v = s := by
  obtain ⟨hk, hg⟩ := List.getElem?_eq_some_iff.1 hf
  have hmod : s.fibres.modify k v = s.fibres := by
    rw [List.modify_eq_set_get _ hk, List.get_eq_getElem, hg, hv, ← hg, List.set_getElem_self]
  exact congrArg (fun l => ({ s with fibres := l } : State)) hmod

/-- An untainted fibre's write makes no undo entry. -/
theorem logUndo_plain (hf : s.fibre? k = some f) (ht : f.tainted = false) (op loc n : Nat) : s.logUndo k op loc n = s :=
  modFibre_id hf (by simp [Fibre.covers, ht])

/-- With nothing held, and nothing that the fibre may miss, a load finds the bytes at its place. -/
theorem loadFor_plain {a : Access} {loc seq : Nat} (hr : regOffset loc = none) (hh : f.held = []) (hl : f.releasing = [])
    (hm : ∀ p ∈ s.past, p.meets loc a.size = true → s.mayMiss k f a p = false) : (s.loadFor k f a loc seq).1 = s.getBytes loc a.size := by
  have hover : ∀ n bs, s.overlay f loc n seq bs = bs := fun n bs => by simp [State.overlay, hh, hl]
  have hread : s.readAt loc a.size = s.getBytes loc a.size := by simp [State.readAt, hr]
  have hfree : (s.past.filter (·.meets loc a.size)).takeWhile (s.mayMiss k f a) = [] := by
    cases hits : s.past.filter (·.meets loc a.size) with
    | nil => rfl
    | cons p l =>
      obtain ⟨hp, hmeets⟩ := List.mem_filter.1 (hits ▸ List.mem_cons_self .. : p ∈ s.past.filter (·.meets loc a.size))
      rw [List.takeWhile_cons, hm p hp hmeets]
      rfl
  unfold State.loadFor
  split
  · simp only [State.splitPast, hfree, hover, hread]
    rfl
  · rw [hover, hread]

/-- An access that no comparator watches is performed unrecorded. -/
theorem watch_unwatched {a : Access} (hf : s.fibre? k = some f) (hu : Unwatched s f a.space a.addr.toNat a.size a.kind.writes) (code : Nat)
    (ord : BitVec 24) (gone : Bool) : s.watch k a.space a.addr.toNat a.size a.kind.writes code ord gone = s := by
  have hits : ∀ n : List Nat, (((s.core (s.site f).coreIx).cmps.mapIdx fun i c => (i, c)).filter fun p =>
      p.2.watches f (((s.group? f.grp).map (·.rgi)).getD 0) a.space a.addr.toNat a.size a.kind.writes && !n.contains p.1) = [] := fun n => by
    refine List.filter_eq_nil_iff.2 fun p hp => ?_
    obtain ⟨i, hi, rfl⟩ := List.mem_mapIdx.1 hp
    rw [hu _ (List.getElem_mem hi), Bool.false_and]
    exact Bool.false_ne_true
  simp only [State.watch, State.watchOf, hf, hits]

section
variable {a : Access} {loc : Nat} {t : Seat} (hf : s.fibre? k = some f) (hh : inHost loc = false)
  (hp : a.kind.reads = true → s.poisonedAt loc a.size = false) (hu : Unwatched s f a.space a.addr.toNat a.size a.kind.writes)
include hf hh hp hu

/-- What bars an access from its place does not bar this one, and no comparator records it. -/
theorem performAt_eq : s.performAt k a loc t =
    (match a.kind with
      | .ld =>
        let got := s.loadFor k f a loc t.seq
        let seen := ((got.2.fibre? k).map fun g => g.seen.filter fun i => !f.seen.contains i).getD []
        (got.2.tellEntries k t.num seen).modFibre k fun f => f.receive a (loadWords got.1)
      | .st => (if a.space == .sp then s.logUndo k t.num loc a.size else s).writeFor k f a [] loc t.seq (storeBytes a.size a.data)
      | _ =>
        let old := s.readAt loc a.size
        let s := if a.space == .sp then s.logUndo k t.num loc a.size else s
        let g := s.observe f a loc (s.past.filter (·.meets loc a.size))
        (((s.modFibre k fun f => { f with seen := g.seen, acqs := g.acqs }).tellEntries k t.num
          (g.seen.filter fun i => !f.seen.contains i)).writeFor k g a (s.carriedBy loc a.size) loc t.seq (atomBytes a old)).modFibre k
            fun f => f.receive a (loadWords old)) := by
  have hpois : ¬(a.kind.reads && s.poisonedAt loc a.size) = true := by
    simpa only [Bool.and_eq_true, not_and, Bool.not_eq_true] using hp
  unfold State.performAt
  simp only [hf, hh, Bool.false_and, Bool.false_eq_true, if_false, watch_unwatched hf hu]
  refine (if_neg hpois).trans ?_
  cases a.kind <;> rfl

end

theorem setRun_regs_congr (ws : List Word) : ∀ {f g : Fibre} (d : Nat), f.regs = g.regs → (f.setRun d ws).regs = (g.setRun d ws).regs := by
  induction ws with
  | nil => exact fun _ h => h
  | cons w ws ih => exact fun d h => ih (d + 1) (congrArg (·.set d w) h)

theorem setRun_preds (ws : List Word) (f : Fibre) (d : Nat) : (f.setRun d ws).preds = f.preds := by
  obtain ⟨rs, po, hs, h, -⟩ := f.setRun_agrees ws d
  rw [h]

/-- The machine t is s with the memory m, an operation's fibre k with the registers rs: what else it knows aside, nothing differs. -/
def Gives (k : Nat) (f : Fibre) (s t : State) (m : List Host.Cell) (rs : List Word) : Prop :=
  t.mem = m ∧ t.ops = s.ops ∧ SameEntries s t ∧ OthersSame k s t ∧ ∃ g, t.fibre? k = some g ∧ g.regs = rs ∧ g.preds = f.preds

theorem Learns.gives (h : Learns k s t) (hf : s.fibre? k = some f) : Gives k f s t t.mem f.regs := by
  obtain ⟨ho, -, hq, hj, hg⟩ := h
  obtain ⟨_, _, hg⟩ := hg f hf
  exact ⟨rfl, ho, hq, hj, _, hg, rfl, rfl⟩

theorem Learns.gives_received (h : Learns k s t) (hf : s.fibre? k = some f) (a : Access) (ws : List Word) :
    Gives k f s (t.modFibre k fun f => f.receive a ws) t.mem (f.setRun a.dst (ws.take a.ndst)).regs := by
  obtain ⟨ho, -, hq, ⟨hl, hj⟩, hg⟩ := h
  obtain ⟨sn, aq, hg⟩ := hg f hf
  obtain ⟨hl', hj'⟩ := othersSame_modFibre t k fun f => f.receive a ws
  exact ⟨rfl, ho, hq, ⟨hl'.trans hl, fun j h => (hj' j h).trans (hj j h)⟩, _, (fibre?_modFibre_same ..).trans (congrArg (Option.map _) hg),
    setRun_regs_congr _ _ rfl, setRun_preds ..⟩

section
variable {a : Access} {loc : Nat} {t : Seat} (hf : s.fibre? k = some f) (hh : inHost loc = false) (hr : regOffset loc = none)
  (hp : a.kind.reads = true → s.poisonedAt loc a.size = false) (hu : Unwatched s f a.space a.addr.toNat a.size a.kind.writes)
  (ht : f.tainted = false)
include hf hh hr hp hu

theorem performAt_ld (hk : a.kind = .ld) (hheld : f.held = []) (hrel : f.releasing = [])
    (hm : ∀ p ∈ s.past, p.meets loc a.size = true → s.mayMiss k f a p = false) :
    Gives k f s (s.performAt k a loc t) s.mem (f.setRun a.dst ((loadWords (s.getBytes loc a.size)).take a.ndst)).regs := by
  rw [performAt_eq hf hh hp hu, hk, ← loadFor_plain (seq := t.seq) hr hheld hrel hm]
  have learns := (learns_loadFor s k f a loc t.seq).trans (learns_tellEntries _ k t.num
    ((((s.loadFor k f a loc t.seq).2.fibre? k).map fun g => g.seen.filter fun i => !f.seen.contains i).getD []))
  have gives := learns.gives_received hf a (loadWords (s.loadFor k f a loc t.seq).1)
  rwa [tellEntries_mem, loadFor_mem] at gives

include ht in
theorem performAt_st (hk : a.kind = .st) :
    Gives k f s (s.performAt k a loc t) (s.store loc (storeBytes a.size a.data)).mem f.regs := by
  rw [performAt_eq hf hh hp hu, hk]
  dsimp only
  rw [logUndo_plain hf ht, ite_self]
  have gives := (learns_writeFor hr k f a [] t.seq (storeBytes a.size a.data)).gives hf
  rwa [writeFor_mem hr] at gives

omit hh hp hu in
/-- An atomic's write and what it gives: its fibre learns, the new contents are stored, the old ones reach its registers. -/
theorem gives_atomic (g : Fibre) (v : List Nat) (op seq : Nat) (chain : List Sync) (old : List Byte) : Gives k f s
    ((((s.modFibre k fun f => { f with seen := g.seen, acqs := g.acqs }).tellEntries k op v).writeFor k g a chain loc seq
      (atomBytes a old)).modFibre k fun f => f.receive a (loadWords old))
    (s.store loc (atomBytes a old)).mem (f.setRun a.dst ((loadWords old).take a.ndst)).regs := by
  have learns := ((learns_modFibre s k (fun f => { f with seen := g.seen, acqs := g.acqs }) fun _ => rfl).trans
    (learns_tellEntries _ k op v)).trans (learns_writeFor hr k g a chain seq (atomBytes a old))
  have gives := learns.gives_received hf a (loadWords old)
  rwa [writeFor_mem hr] at gives

include ht in
theorem performAt_atomic (hk : a.kind = .atom ∨ a.kind = .red) : Gives k f s (s.performAt k a loc t)
    (s.store loc (atomBytes a (s.getBytes loc a.size))).mem
    (f.setRun a.dst ((loadWords (s.getBytes loc a.size)).take a.ndst)).regs := by
  have hread : s.readAt loc a.size = s.getBytes loc a.size := by simp [State.readAt, hr]
  rw [performAt_eq hf hh hp hu, logUndo_plain hf ht, ite_self, hread]
  rcases hk with hk | hk
  · rw [hk]
    exact gives_atomic hf hr ..
  · rw [hk]
    exact gives_atomic hf hr ..

end
end

/-! ## The event of an access's turn -/

section
variable {op loc : Nat} {o : Op} {a : Access} {s : State} {f : Fibre}

/-- An access that nothing stands before is performed, and its operation is gone. -/
theorem completeAccess_performs (ho : s.op? op = some o) (hb : o.body = .mem a (.at_ loc)) (hd : o.done = none) (hf : s.fibre? o.fib = some f)
    (hpacer : f.isPacer = false) (hmay : s.mayPerform o a (.at_ loc) = true) (hundo : s.undoBlocked o.fib a loc = false)
    (hws : s.wsHeld loc o.start = false) (hbank : s.bankTurn o a loc = true) (hlane : s.laneTurn o a = true)
    (hleft : a.space = .sp → a.kind.reads = true → s.lanesLeft o = false)
    (harr : s.arriveAt (s.master f) (s.jobOf f) a.kind.acc a.addr.toNat loc = (.at_ loc, s)) {which : Access → Bool} (hw : which a = true) :
    s.completeAccess op which = (s.dropOp op).performAt o.fib a loc o.seat := by
  have hl : ¬(a.space == .sp && a.kind.reads && s.lanesLeft o && !s.poisonedAt loc a.size) = true := by
    simp only [Bool.and_eq_true, beq_iff_eq, not_and]
    rintro ⟨⟨hs, hr⟩, hlanes⟩
    exact absurd hlanes (by simp [hleft hs hr])
  unfold State.completeAccess
  simp only [ho, hb, hf, hd, hw, hmay, hundo, hbank, hlane, hws, harr, hpacer]
  exact if_neg hl

/-- The event of an access's turn: of .sp the scratchpad's, else the load's or the store's. -/
theorem exec_turn {t : State} (hk : a.kind = .ld ∨ a.kind = .atom ∨ a.kind = .st ∨ a.kind = .red)
    (hdone : ∀ which : Access → Bool, which a = true → s.completeAccess op which = t) :
    exec (if a.space = .sp then .scratchpadLoadComplete op else if a.kind = .ld ∨ a.kind = .atom then .loadDataArrival op else .storeAck op) s = .next t := by
  split
  · next hs => exact congrArg _ (hdone _ (by simp [hs]))
  · next hs =>
    split
    · next hl => exact congrArg _ (hdone _ (by simp [hs, hl]))
    · next hl => exact congrArg _ (hdone _ (by rcases hk with hk | hk | hk | hk <;> simp_all))

end

/-- Settles O33: an access that nothing stands before is performed; each kind by what performing it gives. -/
theorem accessesArePerformed : Obligations.AccessesArePerformed := by
  intro op loc o a s f ho hb hd hf ht hpacer hheld hrel hu hsys hr hp hloc hmay hundo hws hbank hlane hleft harr hm old new ev gives
  have hh : inHost loc = false := by
    simp only [inHost, Bool.and_eq_false_iff, decide_eq_false_iff_not]
    omega
  have performs (which : Access → Bool) (hw : which a = true) :=
    completeAccess_performs ho hb hd hf hpacer hmay hundo hws hbank hlane hleft harr hw
  have done (hk : a.kind = .ld ∨ a.kind = .atom ∨ a.kind = .st ∨ a.kind = .red) {m rs} (hg : Gives o.fib f (s.dropOp op) ((s.dropOp op).performAt o.fib a loc o.seat) m rs) : gives m rs := by
    obtain ⟨hmem, hops, hq, hj, g, hg⟩ := hg
    exact ⟨_, g, exec_turn hk performs, hmem, hops, hq, hj, hg⟩
  refine ⟨fun hk => done (.inl hk) (performAt_ld (s := s.dropOp op) hf hh hr hp hu hk hheld hrel hm),
    fun hk => done (.inr (.inr (.inl hk))) (performAt_st (s := s.dropOp op) hf hh hr hp hu ht hk),
    fun hk => done (.inr (.inl hk)) (performAt_atomic (s := s.dropOp op) hf hh hr hp hu ht (.inl hk)),
    fun hk hn => done (.inr (.inr (.inr hk))) ?_⟩
  have performed := performAt_atomic (s := s.dropOp op) (t := o.seat) hf hh hr hp hu ht (.inr hk)
  rwa [hn, List.take_zero] at performed

end Sys2Proof.MemoryWords

/-! SUPPORT. What every part of a step leaves as it was: the clk, and memory in its canonical form. One lemma for each function of the model that
answers a machine, in the order of the model's files; each follows from those of the functions it calls. -/

namespace Sys2Proof.Form
set_option Elab.async false
open Sys2Proof Sys2Proof.Machine

/-- What a part of a step leaves as it was: the clk; and memory in its canonical form. -/
def Calm (s t : State) : Prop := t.clk = s.clk ∧ (Memory.wf s.mem = true → Memory.wf t.mem = true)
/-- The same of an outcome. -/
def CalmOut (s : State) (o : Host.Outcome State Fault Refusal) : Prop := ∀ t, o = .next t → Calm s t

variable {r s t : State}

/-! ## How parts of a step compose -/

theorem Calm.refl (s : State) : Calm s s := ⟨rfl, id⟩
theorem Calm.trans (h : Calm r s) (h' : Calm s t) : Calm r t := ⟨h'.1.trans h.1, fun w => h'.2 (h.2 w)⟩
theorem calm_of_eq (h : Calm r s) (hc : t.clk = s.clk) (hm : t.mem = s.mem) : Calm r t := ⟨hc.trans h.1, fun w => hm ▸ h.2 w⟩
theorem calm_putBytes (h : Calm r s) (l : Nat) (bs : List Byte) : Calm r (s.putBytes l bs) :=
  ⟨h.1, fun w => State.store_wf l bs (h.2 w)⟩
theorem calm_store (h : Calm r s) (l : Nat) (bs : List Byte) : Calm r (s.store l bs) :=
  ⟨h.1, fun w => State.store_wf l bs (h.2 w)⟩
theorem calm_foldl {α : Type} {g : State → α → State} (hg : ∀ s x, Calm r s → Calm r (g s x)) (l : List α) :
    ∀ s, Calm r s → Calm r (l.foldl g s) := by
  induction l with
  | nil => exact fun _ h => h
  | cons x l ih => exact fun s h => ih _ (hg s x h)
theorem calm_ite {c : Prop} [Decidable c] (hs : Calm r s) (ht : Calm r t) : Calm r (if c then s else t) := by
  split
  · exact hs
  · exact ht
theorem calm_snd {α : Type} {p : α × State} {a : α} (h : Calm r p.2) (e : p = (a, t)) : Calm r t := by
  subst e
  exact h
theorem calm_opt {c : Prop} [Decidable c] (h : Calm r s) (hst : Calm r s → Calm r t) : Calm r (if c then t else s) := calm_ite
    (hst h) h
theorem calm_unless {c : Prop} [Decidable c] (h : Calm r s) (hst : Calm r s → Calm r t) : Calm r (if c then s else t) := calm_ite h
    (hst h)
theorem calm_withPubs (h : Calm r s) (x : List (Pub × List Nat)) : Calm r { s with pubs := x } := calm_of_eq h rfl rfl
theorem calm_withOps (h : Calm r s) (x : List Op) : Calm r { s with ops := x } := calm_of_eq h rfl rfl
theorem calm_withFibres (h : Calm r s) (x : List Fibre) : Calm r { s with fibres := x } := calm_of_eq h rfl rfl
theorem calm_pair {α : Type} {a b : α} (h : Calm r s) (e : (b, s) = (a, t)) : Calm r t := (Prod.mk.inj e).2 ▸ h
/-- A fold whose accumulator carries the machine beside other results. -/
theorem calm_folded {α β : Type} {g : β → α → β} (pr : β → State) (hg : ∀ b x, Calm r (pr b) → Calm r (pr (g b x))) {l : List α}
    {b c : β}
    (hb : Calm r (pr b)) (e : l.foldl g b = c) : Calm r (pr c) := by
  induction l generalizing b with
  | nil =>
    subst e
    exact hb
  | cons x l ih => exact ih (hg _ _ hb) e
theorem calm_next (h : Calm r s) : CalmOut r (.next s) := fun _ e => Host.Outcome.next.inj e ▸ h
theorem calmOut_ite {c : Prop} [Decidable c] {a b : Host.Outcome State Fault Refusal} (ha : CalmOut r a) (hb : CalmOut r b) :
    CalmOut r (if c then a else b) := by
  split
  · exact ha
  · exact hb

/-! ## Machine/Units -/

theorem calm_setFibre (h : Calm r s) (k : Nat) (f : Fibre) : Calm r (State.setFibre s k f) := by
  grind [State.setFibre, Calm]
theorem calm_modFibre (h : Calm r s) (k : Nat) (u : Fibre → Fibre) : Calm r (State.modFibre s k u) := by
  grind [State.modFibre, Calm]
theorem calm_mapFibres (h : Calm r s) (u : Nat → Fibre → Fibre) : Calm r (State.mapFibres s u) := by
  grind [State.mapFibres, Calm]
theorem calm_setGroup (h : Calm r s) (g : Nat) (x : Group) : Calm r (State.setGroup s g x) := by
  grind [State.setGroup, Calm]
theorem calm_modGroup (h : Calm r s) (g : Nat) (u : Group → Group) : Calm r (State.modGroup s g u) := by
  grind [State.modGroup, Calm]
theorem calm_modJob (h : Calm r s) (j : Nat) (u : Job → Job) : Calm r (State.modJob s j u) := by
  grind [State.modJob, Calm]
theorem calm_modOp (h : Calm r s) (id : Nat) (u : Op → Op) : Calm r (State.modOp s id u) := by
  grind [State.modOp, Calm]
theorem calm_dropOp (h : Calm r s) (id : Nat) : Calm r (State.dropOp s id) := by
  grind [State.dropOp, Calm]
theorem calm_dropCarried (h : Calm r s) (id : Nat) : Calm r (State.dropCarried s id) := by
  grind [State.dropCarried, Calm]
theorem calm_modCore (h : Calm r s) (c : Nat) (u : Core → Core) : Calm r (State.modCore s c u) := by
  grind [State.modCore, Calm]
theorem calm_mapCores (h : Calm r s) (u : Core → Core) : Calm r (State.mapCores s u) := by
  grind [State.mapCores, Calm]
theorem calm_modCluster (h : Calm r s) (c : Nat) (u : Cluster → Cluster) : Calm r (State.modCluster s c u) := by
  grind [State.modCluster, Calm]
theorem calm_modDie (h : Calm r s) (d : Nat) (u : Die → Die) : Calm r (State.modDie s d u) := by
  grind [State.modDie, Calm]
theorem calm_modPkg (h : Calm r s) (u : Pkg → Pkg) : Calm r (State.modPkg s u) := by
  grind [State.modPkg, Calm]
theorem calm_modQueue (h : Calm r s) (job num : Nat) (u : Queue → Queue) : Calm r (State.modQueue s job num u) := by
  grind [State.modQueue, Calm]
theorem calm_fresh (h : Calm r s) : Calm r (State.fresh s).2 := by
  grind [State.fresh, Calm]
theorem calm_addOp (h : Calm r s) (o : Op) : Calm r (State.addOp s o) := by
  grind [State.addOp, Calm]
theorem calm_addMsg (h : Calm r s) (m : Msg) : Calm r (State.addMsg s m) := by
  grind [State.addMsg, Calm]
theorem calm_poison (h : Calm r s) (loc : Nat) : Calm r (State.poison s loc) := by
  grind [State.poison, calm_foldl, Calm]
theorem calm_logCore (h : Calm r s) (core coord index unit kind group fibre : Nat) : Calm r
    (State.logCore s core coord index unit kind group fibre) := by
  grind [State.logCore, calm_modCore]
theorem calm_logDie (h : Calm r s) (die addr unit kind clu : Nat) (scrub : Bool) (job : Nat) : Calm r
    (State.logDie s die addr unit kind clu scrub job) := by
  grind [State.logDie, calm_modDie]
theorem calm_faultJob (h : Calm r s) (j cause : Nat) : Calm r (State.faultJob s j cause) := by
  grind [State.faultJob, calm_modJob, calm_mapFibres]
theorem calm_tdiError (h : Calm r s) (fn : Nat) : Calm r (State.tdiError s fn) := by
  grind [State.tdiError, calm_modPkg, calm_foldl, calm_faultJob]
theorem calm_alarm (h : Calm r s) (src addr target master job : Nat) : Calm r (State.alarm s src addr target master job) := by
  grind [State.alarm, calm_modPkg, calm_faultJob, calm_foldl, calm_tdiError]
theorem calm_post (h : Calm r s) (clu : Nat) (rec : BitVec 128) (act : EvAct) : Calm r (State.post s clu rec act) := by
  grind [State.post, calm_modCluster]
theorem calm_postHw (h : Calm r s) (clu data job kind : Nat) (st : Status) (act : EvAct) : Calm r
    (State.postHw s clu data job kind st act) := by
  grind [State.postHw, calm_post]
theorem calm_postFibre (h : Calm r s) (f : Fibre) (data kind : Nat) (st : Status) (act : EvAct) : Calm r
    (State.postFibre s f data kind st act) := by
  grind [State.postFibre, calm_post]
theorem calm_ringPut (h : Calm r s) (core : Nat) (trace : Bool) (rec : List Word) : Calm r (State.ringPut s core trace rec) := by
  grind [State.ringPut, calm_modCore, calm_store]
theorem calm_debugRecordOf (h : Calm r s) (rgi core kind cmp ord code : Nat) (f : Fibre) (flags : Nat) (d0 d1 : Word) : Calm r
    (State.debugRecordOf s rgi core kind cmp ord code f flags d0 d1) := by
  grind [State.debugRecordOf, calm_ringPut]
theorem calm_debugRecord (h : Calm r s) (core kind cmp ord code : Nat) (f : Fibre) (flags : Nat) (d0 d1 : Word) : Calm r
    (State.debugRecord s core kind cmp ord code f flags d0 d1) := by
  grind [State.debugRecord, calm_debugRecordOf]

/-! ## Machine/Translate -/

theorem calm_tlbFill (h : Calm r s) (p : Site) (t0 : Tlb) : Calm r (State.tlbFill s p t0) := by
  grind [State.tlbFill, calm_modCore, calm_modCluster]
theorem calm_dieWalk (h : Calm r s) (die job va : Nat) : Calm r (State.dieWalk s die job va).2 := by
  grind [State.dieWalk, calm_modDie, calm_alarm]
theorem calm_missDone (h : Calm r s) (die job va : Nat) : Calm r (State.missDone s die job va).2 := by
  grind [State.missDone, calm_dieWalk, calm_modDie]
theorem calm_walkDone (h : Calm r s) (p : Site) (job va : Nat) : Calm r (State.walkDone s p job va).2 := by
  grind [State.walkDone, calm_missDone, calm_tlbFill]
theorem calm_checkTarget (h : Calm r s) (now : Bool) (target master job : Nat) (a : Acc) (addr loc : Nat) : Calm r
    (State.checkTarget s now target master job a addr loc).2 := by
  grind [State.checkTarget, calm_alarm]
theorem calm_arriveAt (h : Calm r s) (master job : Nat) (a : Acc) (off loc : Nat) : Calm r
    (State.arriveAt s master job a off loc).2 := by
  grind [State.arriveAt, calm_checkTarget]
theorem calm_checkLeaf (h : Calm r s) (now : Bool) (t0 : Tlb) (die va master job : Nat) (spc : Space) (a : Acc) : Calm r
    (State.checkLeaf s now t0 die va master job spc a).2 := by
  grind [State.checkLeaf, calm_checkTarget]
theorem calm_findLocal (h : Calm r s) (now : Bool) (p : Site) (job va master : Nat) (spc : Space) (a : Acc) : Calm r
    (State.findLocal s now p job va master spc a).2 := by
  grind [State.findLocal, calm_checkLeaf]
theorem calm_place (h : Calm r s) (now : Bool) (f : Fibre) (spc : Space) (addr n : Nat) (a : Acc) : Calm r
    (State.place s now f spc addr n a).2 := by
  unfold State.place
  split <;> grind [calm_checkTarget, calm_findLocal, Calm]
theorem calm_find (h : Calm r s) (f : Fibre) (spc : Space) (addr n : Nat) (a : Acc) : Calm r (State.find s f spc addr n a).2 := by
  grind [State.find, calm_place]
theorem calm_placeNow (h : Calm r s) (now : Bool) (f : Fibre) (spc : Space) (addr n : Nat) (a : Acc) : Calm r
    (State.placeNow s now f spc addr n a).2 := by
  grind [State.placeNow, calm_place, calm_walkDone, calm_checkLeaf]
theorem calm_findNow (h : Calm r s) (f : Fibre) (spc : Space) (addr n : Nat) (a : Acc) : Calm r
    (State.findNow s f spc addr n a).2 := by
  grind [State.findNow, calm_placeNow]

/-! ## Machine/Scopes -/

theorem calm_publish (h : Calm r s) (x : Pub) (v : List Nat) : Calm r (State.publish s x v) := by
  grind [State.publish, Calm]
theorem calm_notePast (h : Calm r s) (before : State) (k : Nat) (f : Fibre) (strong rel : Option Scope) (chain : List Sync)
    (loc n seq : Nat) (op : Option Nat) : Calm r (State.notePast s before k f strong rel chain loc n seq op) := by
  unfold State.notePast
  split <;> grind [calm_foldl, calm_modFibre, Calm]
theorem calm_noteOutside (h : Calm r s) (before : State) (who : Locus) (view : List Nat) (loc n : Nat) : Calm r
    (State.noteOutside s before who view loc n) := by
  grind [State.noteOutside, Calm]
theorem calm_releaseToHost (h : Calm r s) : Calm r (State.releaseToHost s) := by
  grind [State.releaseToHost, calm_modPkg]
theorem calm_hostStore (h : Calm r s) (fn loc : Nat) (bs : List Byte) : Calm r (State.hostStore s fn loc bs) := by
  grind [State.hostStore, calm_store, calm_noteOutside]
theorem calm_hostLoad (h : Calm r s) (fn loc n : Nat) : Calm r (State.hostLoad s fn loc n).2 := by
  grind [State.hostLoad, calm_modPkg, Calm]
theorem calm_fenceAt (h : Calm r s) (k : Nat) (f : Fibre) (sc : Scope) (seq : Bool) : Calm r (State.fenceAt s k f sc seq) := by
  grind [State.fenceAt, calm_setFibre, calm_publish]

/-! ## Machine/Ops -/

theorem calm_settleReg (h : Calm r s) (k r0 op : Nat) (v : Word) : Calm r (State.settleReg s k r0 op v) := by
  grind [State.settleReg, calm_store, calm_modFibre]
theorem calm_retire (h : Calm r s) (o : Op) (st : Status) : Calm r (State.retire s o st) := by
  unfold State.retire
  dsimp only
  split
  · exact calm_of_eq h rfl rfl
  · refine calm_foldl (fun s x hs => calm_settleReg hs ..) _ _ ?_
    exact calm_of_eq h rfl rfl
theorem calm_retireHead (h : Calm r s) (fib : Nat) (c : Cls) : Calm r (State.retireHead s fib c) := by
  grind [State.retireHead, calm_foldl, calm_retire]
theorem calm_finishOp (h : Calm r s) (id : Nat) (st : Status) : Calm r (State.finishOp s id st) := by
  grind [State.finishOp, calm_retire, calm_modOp, calm_retireHead]
theorem calm_coreFatal (h : Calm r s) (core index fid : Nat) : Calm r (State.coreFatal s core index fid) := by
  grind [State.coreFatal, calm_logCore, calm_modCore, calm_mapFibres, calm_foldl, calm_faultJob]
theorem calm_dieFatal (h : Calm r s) (die : Nat) : Calm r (State.dieFatal s die) := by
  grind [State.dieFatal, calm_modDie, calm_mapFibres, calm_foldl, calm_faultJob]
theorem calm_sliceFaultAt (h : Calm r s) (g index : Nat) : Calm r (State.sliceFaultAt s g index) := by
  unfold State.sliceFaultAt
  split <;> grind [calm_logCore, calm_modGroup, calm_modFibre, calm_finishOp, Calm]
theorem calm_sliceFault (h : Calm r s) (g : Nat) : Calm r (State.sliceFault s g) := by
  grind [State.sliceFault, calm_sliceFaultAt]
theorem calm_barTrap (h : Calm r s) (k : Nat) (f : Fibre) (e : State.barTrap s k f = some t) : Calm r t := by
  grind [State.barTrap, calm_setFibre, calm_sliceFault, calm_coreFatal]
theorem calm_userTrap (h : Calm r s) (k : Nat) (x : TrapRegs) (at_ : RP) (after : Bool) : Calm r
    (State.userTrap s k x at_ after) := by
  grind [State.userTrap, calm_barTrap, calm_setFibre, calm_faultJob]
theorem calm_systemTrap (h : Calm r s) (k kind code : Nat) (at_ : RP) (w5 w6 : Word) : Calm r
    (State.systemTrap s k kind code at_ w5 w6) := by
  unfold State.systemTrap
  split <;> grind [calm_barTrap, calm_setFibre, calm_modCore, calm_foldl, calm_postFibre, Calm]
theorem calm_deliver (h : Calm r s) (k : Nat) (at_ : RP) (w0 w1 : Word) : Calm r (State.deliver s k at_ w0 w1) := by
  grind [State.deliver, calm_systemTrap, calm_userTrap]

/-! ## Machine/Fetch -/

theorem calm_startWalk (h : Calm r s) (p : Site) (job va : Nat) : Calm r (State.startWalk s p job va) := by
  grind [State.startWalk, calm_modDie, calm_fresh]
theorem calm_fetchWord (h : Calm r s) (f : Fibre) (a : DWord) : Calm r (State.fetchWord s f a).2 := by
  grind [State.fetchWord, calm_find, calm_modCore, calm_startWalk]
theorem calm_fetchWords (h : Calm r s) (f : Fibre) (a : DWord) (x0 : Nat) : Calm r (State.fetchWords s f a x0).2 := by
  (fun_induction State.fetchWords s f a x0 <;> grind [calm_fetchWord, Calm])
theorem calm_fetchStop (h : Calm r s) (k : Nat) (f : Fibre) (r0 : Fetched) (a : DWord) (at_ : RP) (w0 w1 : Word) : Calm r
    (State.fetchStop s k f r0 a at_ w0 w1) := by
  unfold State.fetchStop
  split <;> grind [calm_setFibre, calm_systemTrap, Calm]

/-! ## Machine/Inverse -/

theorem calm_invTrap (h : Calm r s) (k : Nat) (f : Fibre) (v : InvRun) (cause code : Nat) : Calm r
    (State.invTrap s k f v cause code) := by
  grind [State.invTrap, calm_setFibre, calm_userTrap]
theorem calm_invEnd (h : Calm r s) (k : Nat) : Calm r (State.invEnd s k) := by
  grind [State.invEnd, calm_setFibre, calm_invTrap]

/-! ## Machine/Operands -/

theorem calm_waitFor (h : Calm r s) (k : Nat) (f : Fibre) (w : Why) : Calm r (State.waitFor s k f w) := by
  grind [State.waitFor, calm_setFibre]
theorem calm_dependence (h : Calm r s) (k : Nat) (f : Fibre) (i : Instr) (e : State.dependence s k f i = some t) : Calm r t := by
  grind [State.dependence, calm_waitFor]
theorem calm_stallShort (h : Calm r s) (k : Nat) (f : Fibre) (i : Instr) (e : State.stallShort s k f i = some t) : Calm r t := by
  grind [State.stallShort, calm_userTrap]
theorem calm_badTarget (h : Calm r s) (k : Nat) (f : Fibre) (i : Instr) (e : State.badTarget s k f i = some t) : Calm r t := by
  grind [State.badTarget, calm_userTrap]
theorem calm_privilege (h : Calm r s) (k : Nat) (f : Fibre) (i : Instr) (e : State.privilege s k f i = some t) : Calm r t := by
  grind [State.privilege, calm_systemTrap]
theorem calm_meetsPoison (h : Calm r s) (k : Nat) (f : Fibre) (i : Instr) (x0 : List (Nat × PoisonKind)) :
    ∀ t, State.meetsPoison s k f i x0 = some t → Calm r t := by
  (fun_induction State.meetsPoison s k f i x0 <;> grind [calm_systemTrap, calm_waitFor, calm_barTrap, calm_deliver, Calm])
theorem calm_poisonedQ (h : Calm r s) (k : Nat) (f : Fibre) (i : Instr) (e : State.poisoned? s k f i = some t) : Calm r t := by
  grind [State.poisoned?, calm_meetsPoison]
theorem calm_report (h : Calm r s) (k : Nat) (f : Fibre) (i : Instr) (e : State.report s k f i = some t) : Calm r t := by
  grind [State.report, calm_barTrap, calm_setFibre, calm_userTrap]
theorem calm_charge (h : Calm r s) (core leaf n : Nat) : Calm r (State.charge s core leaf n) := by
  grind [State.charge, calm_modCore]
theorem calm_noteIssue (h : Calm r s) (k : Nat) (f : Fibre) (i : Instr) (executes : Bool) : Calm r
    (State.noteIssue s k f i executes) := by
  grind [State.noteIssue, calm_modJob, calm_modGroup, calm_modCore]
theorem calm_finish (h : Calm r s) (k : Nat) (i : Instr) (f0 f1 : Fibre) : Calm r (State.finish s k i f0 f1) := by
  grind [State.finish, calm_setFibre, calm_noteIssue, calm_invEnd]
theorem calm_finishTo (h : Calm r s) (k : Nat) (i : Instr) (f0 f1 : Fibre) (target : DWord) : Calm r
    (State.finishTo s k i f0 f1 target) := by
  grind [State.finishTo, calm_setFibre, calm_noteIssue]
theorem calm_finishOff (h : Calm r s) (k : Nat) (i : Instr) (f : Fibre) : Calm r (State.finishOff s k i f) := by
  grind [State.finishOff, calm_setFibre, calm_noteIssue]
theorem calm_firstOf (l : List (Option State)) (hl : ∀ o ∈ l, ∀ u, o = some u → Calm r u) (e : firstOf l = some t) : Calm r t := by
  induction l with
  | nil => cases e
  | cons o l ih =>
    cases o with
    | some u => exact hl _ (List.mem_cons_self ..) _ e
    | none => exact ih (fun o ho => hl o (List.mem_cons_of_mem _ ho)) e
theorem calm_gate (h : Calm r s) (i : Instr) (e : gate i s = .held t) : Calm r t := by
  unfold gate at e
  split at e
  · cases e
  · dsimp only at e
    split_ifs at e
    · grind [calm_waitFor]
    · split at e
      · next hf =>
        obtain rfl := Gate.held.inj e
        refine calm_firstOf _ (fun o ho u hu => ?_) hf
        grind [calm_dependence, calm_stallShort, calm_badTarget, calm_privilege, calm_poisonedQ, calm_report]
      · cases e
theorem calm_issueWord (h : Calm r s) (i : Instr) (body : Nat → Fibre → State) (hb : ∀ k f, Calm r (body k f)) :
    CalmOut r (issueWord i s body) := by
  unfold issueWord
  split <;> grind [CalmOut, calm_finishOff, calm_gate]

/-! ## Machine/Regs -/

theorem calm_wsEnter (h : Calm r s) (d : Nat) : Calm r (State.wsEnter s d) := by
  grind [State.wsEnter, calm_modDie]
theorem calm_wsExit (h : Calm r s) (d : Nat) : Calm r (State.wsExit s d) := by
  grind [State.wsExit, calm_modDie]
theorem calm_wsGo (h : Calm r s) (d : Nat) : Calm r (State.wsGo s d) := by
  grind [State.wsGo, calm_modDie]
theorem calm_dtinvStart (h : Calm r s) (d scope : Nat) : Calm r (State.dtinvStart s d scope) := by
  grind [State.dtinvStart, calm_modDie, Calm]
theorem calm_tdClear (h : Calm r s) (core : Nat) : Calm r (State.tdClear s core) := by
  grind [State.tdClear, calm_modCore]
theorem calm_tdFreeze (h : Calm r s) (core : Nat) (on : Bool) : Calm r (State.tdFreeze s core on) := by
  grind [State.tdFreeze, calm_modCore, calm_foldl]
theorem calm_noiseMode (h : Calm r s) (core mode : Nat) : Calm r (State.noiseMode s core mode) := by
  grind [State.noiseMode, calm_modCore]
theorem calm_lockedWrite (h : Calm r s) (fn : Nat) : Calm r (State.lockedWrite s fn) := by
  grind [State.lockedWrite, calm_tdiError, calm_alarm]
theorem calm_pkgWrite (h : Calm r s) (o : Nat) (w : Word) : Calm r (State.pkgWrite s o w) := by
  grind [State.pkgWrite, calm_modPkg, calm_lockedWrite]
theorem calm_dieWrite (h : Calm r s) (d o : Nat) (w : Word) : Calm r (State.dieWrite s d o w) := by
  grind [State.dieWrite, calm_wsEnter, calm_wsExit, calm_wsGo, calm_modDie, calm_dtinvStart]
theorem calm_coreWrite (h : Calm r s) (c o : Nat) (w : Word) : Calm r (State.coreWrite s c o w) := by
  unfold State.coreWrite
  repeat' refine calm_ite ?_ ?_
  all_goals grind [calm_modCore, calm_tdFreeze, calm_tdClear]
theorem calm_regWrite32 (h : Calm r s) (off : Nat) (w : Word) : Calm r (State.regWrite32 s off w) := by
  grind [State.regWrite32, calm_pkgWrite, calm_dieWrite, calm_modCluster, calm_coreWrite]
theorem calm_regWrite (h : Calm r s) (off size : Nat) (v : DWord) : Calm r (State.regWrite s off size v) := by
  unfold State.regWrite
  split <;> grind [calm_regWrite32, Calm]

/-! ## Machine/Link -/

theorem calm_send (h : Calm r s) (p : Site) (job master dst tdie addr : Nat) (a : Acc) (body : PktBody) (op : Option Nat) : Calm r
    (State.send s p job master dst tdie addr a body op).2 := by
  grind [State.send, calm_alarm, calm_fresh, calm_modPkg, calm_post]
theorem calm_sendNamed (h : Calm r s) (port dst die clu tdie hops job : Nat) (body : PktBody) : Calm r
    (State.sendNamed s port dst die clu tdie hops job body) := by
  grind [State.sendNamed, calm_fresh, calm_modPkg, calm_post]

/-! ## Machine/Access -/

theorem calm_recordFault (h : Calm r s) (k : Nat) (a : Access) (kind : MemKind) (t0 : Seat) : Calm r
    (State.recordFault s k a kind t0) := by
  grind [State.recordFault, calm_foldl, calm_modFibre, Calm]
theorem calm_askDebug (h : Calm r s) (k : Nat) (f : Fibre) (span : Bool) : Calm r (State.askDebug s k f span) := by
  grind [State.askDebug, calm_modCore, calm_mapFibres]
theorem calm_watchOf (h : Calm r s) (k core rgi : Nat) (done : List Nat) (spc : Space) (addr n : Nat) (write : Bool) (code : Nat)
    (ord : BitVec 24) (gone : Bool) : Calm r (State.watchOf s k core rgi done spc addr n write code ord gone).2 := by
  grind [State.watchOf, calm_debugRecordOf, calm_askDebug]
theorem calm_watch (h : Calm r s) (k : Nat) (spc : Space) (addr n : Nat) (write : Bool) (code : Nat) (ord : BitVec 24)
    (gone : Bool) : Calm r (State.watch s k spc addr n write code ord gone) := by
  grind [State.watch, calm_watchOf]
theorem calm_watchOp (h : Calm r s) (o : Op) (spc : Space) (addr n : Nat) (write : Bool) : Calm r
    (State.watchOp s o spc addr n write) := by
  grind [State.watchOp, calm_watchOf, calm_modOp]
theorem calm_logUndo (h : Calm r s) (k op loc n : Nat) : Calm r (State.logUndo s k op loc n) := by
  grind [State.logUndo, calm_modFibre, calm_foldl]
theorem calm_releaseLanes (h : Calm r s) : Calm r (State.releaseLanes s) := by
  grind [State.releaseLanes, Calm]
theorem calm_writeAt (h : Calm r s) (req : BitVec 16) (loc : Nat) (bs : List Byte) : Calm r (State.writeAt s req loc bs) := by
  grind [State.writeAt, calm_regWrite, calm_store, calm_modPkg]
theorem calm_writeFor (h : Calm r s) (k : Nat) (f : Fibre) (a : Access) (chain : List Sync) (loc seq : Nat) (bs : List Byte) :
    Calm r (State.writeFor s k f a chain loc seq bs) := by
  grind [State.writeFor, calm_writeAt, calm_notePast, calm_releaseToHost]
theorem calm_chainWrite (h : Calm r s) (k : Nat) (f : Fibre) (rels : List Sync) (change : Bool) (loc : Nat) (bs : List Byte) :
    Calm r (State.chainWrite s k f rels change loc bs) := by
  grind [State.chainWrite, calm_writeAt, calm_notePast]
theorem calm_landPiece (h : Calm r s) (k : Nat) (f : Fibre) (o : Option Op) (loc : Nat) (bs : List Byte) : Calm r
    (State.landPiece s k f o loc bs) := by
  unfold State.landPiece
  split <;> grind [calm_writeAt, calm_notePast, Calm]
theorem calm_loadFor (h : Calm r s) (k : Nat) (f : Fibre) (a : Access) (loc seq : Nat) : Calm r
    (State.loadFor s k f a loc seq).2 := by
  grind [State.loadFor, calm_modFibre, Calm]
theorem calm_tellEntries (h : Calm r s) (k op : Nat) (v : List Nat) : Calm r (State.tellEntries s k op v) := by
  grind [State.tellEntries, Calm]
theorem calm_performAt (h : Calm r s) (k : Nat) (a : Access) (loc : Nat) (t0 : Seat) : Calm r (State.performAt s k a loc t0) := by
  unfold State.performAt
  split <;> grind [calm_recordFault, calm_watch, calm_modPkg, calm_modFibre, calm_loadFor, calm_tellEntries, calm_logUndo,
      calm_writeFor, Calm]
theorem calm_issueAccess (h : Calm r s) (k : Nat) (a : Access) (seq : Nat) (ord : BitVec 24) : Calm r
    (State.issueAccess s k a seq ord) := by
  unfold State.issueAccess
  split <;> grind [calm_fresh, calm_addOp, calm_recordFault, calm_place, calm_startWalk, Calm]
theorem calm_sendRemote (h : Calm r s) (o : Op) : Calm r (State.sendRemote s o) := by
  grind [State.sendRemote, calm_send, calm_dropOp, calm_recordFault, calm_modOp]
theorem calm_sendRemotes (h : Calm r s) : Calm r (State.sendRemotes s) := by
  grind [State.sendRemotes, calm_foldl, calm_sendRemote]
theorem calm_resolveAccess (h : Calm r s) (id : Nat) : Calm r (State.resolveAccess s id) := by
  unfold State.resolveAccess
  split <;> grind [calm_place, calm_modOp, calm_dropOp, calm_recordFault, Calm]

/-! ## Machine/Queues -/

theorem calm_modSlot (h : Calm r s) (a : BitVec 32) (u : AidSlot → AidSlot) : Calm r (State.modSlot s a u) := by
  grind [State.modSlot, calm_modDie]
theorem calm_joinSet (h : Calm r s) (a : BitVec 32) (pkg die : Nat) : Calm r (State.joinSet s a pkg die) := by
  grind [State.joinSet, calm_modSlot]
theorem calm_count (h : Calm r s) (die job : Nat) (u : Counts → Counts) : Calm r (State.count s die job u) := by
  grind [State.count, calm_modDie]
theorem calm_countPushed (h : Calm r s) (die job : Nat) : Calm r (State.countPushed s die job) := by
  grind [State.countPushed, calm_count]
theorem calm_countPopped (h : Calm r s) (die job : Nat) : Calm r (State.countPopped s die job) := by
  grind [State.countPopped, calm_count]
theorem calm_countSent (h : Calm r s) (die job : Nat) : Calm r (State.countSent s die job) := by
  grind [State.countSent, calm_count]
theorem calm_countRecvd (h : Calm r s) (die job : Nat) : Calm r (State.countRecvd s die job) := by
  grind [State.countRecvd, calm_count]
theorem calm_spillEntry (h : Calm r s) (job num : Nat) (e : QEntry) : Calm r (State.spillEntry s job num e) := by
  grind [State.spillEntry, calm_findNow, calm_store, calm_modQueue]
theorem calm_spilledEntry (h : Calm r s) (q : Queue) (e : QEntry) : Calm r (State.spilledEntry s q e).2 := by
  grind [State.spilledEntry, calm_findNow]
theorem calm_behind (h : Calm r s) (job num : Nat) (q : Queue) (e : State.queueStep.behind s job num q = some t) : Calm r t := by
  unfold State.queueStep.behind at e
  grind [calm_modQueue, calm_spillEntry]
theorem calm_queueStep (h : Calm r s) (job num : Nat) (e : State.queueStep s job num = some t) : Calm r t := by
  unfold State.queueStep at e
  split at e
  · cases e
  · dsimp only at e
    split at e
    · split_ifs at e
      · obtain rfl := Option.some.inj e
        exact calm_modQueue (calm_spilledEntry h ..) ..
      · exact calm_behind h _ _ _ e
    · split_ifs at e
      · obtain rfl := Option.some.inj e
        exact calm_modQueue h ..
      · exact calm_behind h _ _ _ e
    · cases e
theorem calm_refillQueue (h : Calm r s) (job num x0 : Nat) : Calm r (State.refillQueue s job num x0) := by
  (fun_induction State.refillQueue s job num x0 <;> grind [calm_queueStep, Calm])
theorem calm_settleQueue (h : Calm r s) (job num : Nat) : Calm r (State.settleQueue s job num) := by
  grind [State.settleQueue, calm_refillQueue]
theorem calm_takeOut (h : Calm r s) (job num i : Nat) : Calm r (State.takeOut s job num i) := by
  grind [State.takeOut, calm_modQueue, calm_settleQueue]
theorem calm_dropDeniedN (h : Calm r s) (job num : Nat) (popped : Bool) (x0 : Nat) : Calm r
    (State.dropDeniedN s job num popped x0) := by
  (fun_induction State.dropDeniedN s job num popped x0 <;> grind [calm_takeOut, calm_countPopped, Calm])
theorem calm_dropDenied (h : Calm r s) (job num : Nat) (popped : Bool) : Calm r (State.dropDenied s job num popped) := by
  grind [State.dropDenied, calm_dropDeniedN]
theorem calm_removeEntry (h : Calm r s) (job num i : Nat) : Calm r (State.removeEntry s job num i) := by
  grind [State.removeEntry, calm_takeOut, calm_dropDenied]
theorem calm_pushAway (h : Calm r s) (p : Site) (master : Nat) (q : Queue) (e : QEntry) : Calm r
    (State.pushAway s p master q e) := by
  grind [State.pushAway, calm_send]
theorem calm_releaseEntry (h : Calm r s) (job num : Nat) (p : Site) (e : QEntry) : Calm r (State.releaseEntry s job num p e) := by
  grind [State.releaseEntry, calm_countSent, calm_pushAway, calm_countPushed, calm_modQueue, calm_spillEntry, calm_postHw,
      calm_dropDenied]
theorem calm_spillNow (h : Calm r s) (job num : Nat) : Calm r (State.spillNow s job num) := by
  grind [State.spillNow, calm_modQueue, calm_settleQueue, calm_dropDenied]
theorem calm_popEntry (h : Calm r s) (job num i k : Nat) (e : QEntry) : Calm r (State.popEntry s job num i k e) := by
  grind [State.popEntry, calm_removeEntry, calm_countPopped, calm_modFibre]
theorem calm_popTaken (h : Calm r s) (job num k x0 : Nat) : Calm r (State.popTaken s job num k x0) := by
  (fun_induction State.popTaken s job num k x0 <;> grind [calm_popEntry, Calm])
theorem calm_abandon (h : Calm r s) (f : Fibre) (num : Nat) (e : QEntry) : Calm r (State.abandon s f num e) := by
  grind [State.abandon, calm_postFibre]
theorem calm_abandonAll (h : Calm r s) (k : Nat) : Calm r (State.abandonAll s k) := by
  grind [State.abandonAll, calm_foldl, calm_abandon, calm_modFibre]
theorem calm_releaseSuccessor (h : Calm r s) (job q : Nat) (succ : List Word) (id : Word) (view : List Sync) : Calm r
    (State.releaseSuccessor s job q succ id view) := by
  grind [State.releaseSuccessor, calm_releaseEntry]
theorem calm_armCounter (h : Calm r s) (job : Nat) (id n : Word) (succ : List Word) (q : Nat)
    (e : State.armCounter s job id n succ q = .ok t) : Calm r t := by
  grind [State.armCounter, calm_releaseSuccessor, calm_modCluster]
theorem calm_decCounter (h : Calm r s) (job : Nat) (id : Word) (who : Locus) (v : List Nat)
    (e : State.decCounter s job id who v = .ok t) : Calm r t := by
  grind [State.decCounter, calm_count, calm_modCluster, calm_releaseSuccessor]
theorem calm_sendMsg (h : Calm r s) (k : Nat) (f : Fibre) (body : MsgBody) : Calm r (State.sendMsg s k f body) := by
  grind [State.sendMsg, calm_fresh, calm_addMsg]
theorem calm_dropMsg (h : Calm r s) (id : Nat) : Calm r (State.dropMsg s id) := by
  grind [State.dropMsg, Calm]
theorem calm_discardWord (h : Calm r s) (m : Msg) (id : Word) (st : Status) : Calm r (State.discardWord s m id st) := by
  grind [State.discardWord, calm_postHw, Calm]
theorem calm_counterWord (h : Calm r s) (m : Msg) (id : Word) (x : Except Status State) (hx : ∀ u, x = .ok u → Calm r u) :
    Calm r (State.counterWord s m id x) := by
  unfold State.counterWord
  split
  · exact calm_dropMsg (hx _ rfl) _
  · exact calm_discardWord h ..

/-! ## Machine/Fabric -/

theorem calm_noteMet (h : Calm r s) (id : Option Nat) (loc n : Nat) : Calm r (State.noteMet s id loc n) := by
  unfold State.noteMet
  split <;> grind [calm_modOp, Calm]
theorem calm_engineReadN (h : Calm r s) (id : Option Nat) (f : Fibre) (spc : Space) (x0 x1 x2 : Nat) : Calm r
    (State.engineReadN s id f spc x0 x1 x2).2 := by
  (fun_induction State.engineReadN s id f spc x0 x1 x2 <;> grind [calm_findNow, calm_noteMet, Calm])
theorem calm_engineRead (h : Calm r s) (id : Option Nat) (f : Fibre) (spc : Space) (addr n : Nat) : Calm r
    (State.engineRead s id f spc addr n).2 := by
  grind [State.engineRead, calm_engineReadN]
theorem calm_engineReadAs (h : Calm r s) (id : Option Nat) (f : Fibre) (seq : Nat) (spc : Space) (addr n : Nat) : Calm r
    (State.engineReadAs s id f seq spc addr n).2 := by
  grind [State.engineReadAs, calm_engineReadN]
theorem calm_engineWriteN (h : Calm r s) (k : Nat) (f : Fibre) (o : Option Op) (spc : Space) (undo : Bool) (x0 x1 : Nat)
    (x2 : List Byte) : Calm r (State.engineWriteN s k f o spc undo x0 x1 x2).2 := by
  (fun_induction State.engineWriteN s k f o spc undo x0 x1 x2 <;> grind [calm_findNow, calm_logUndo, calm_landPiece, Calm])
theorem calm_engineWrite (h : Calm r s) (k : Nat) (f : Fibre) (o : Option Op) (spc : Space) (undo : Bool) (addr : Nat)
    (bs : List Byte) : Calm r (State.engineWrite s k f o spc undo addr bs).2 := by
  grind [State.engineWrite, calm_engineWriteN]
theorem calm_unitWrite (h : Calm r s) (k : Nat) (f : Fibre) (addr : Nat) (bs : List Byte) : Calm r
    (State.unitWrite s k f addr bs) := by
  grind [State.unitWrite, calm_engineWrite]
theorem calm_finishFab (h : Calm r s) (o : Op) (st : Status) : Calm r (State.finishFab s o st) := by
  grind [State.finishFab, calm_finishOp]
theorem calm_startFab (h : Calm r s) (f : Fibre) (o : FabOp) (id : Nat) : Calm r (State.startFab s f o id) := by
  grind [State.startFab, calm_modOp, calm_finishFab]
theorem calm_askPiece (h : Calm r s) (id : Nat) (f : Fibre) (addr n : Nat) (w : Option (List Byte)) :
    Calm r (State.askPiece s id f addr n w).2 := by
  unfold State.askPiece
  split
  · exact h
  · split
    · exact h
    · dsimp only
      split
      · next hs => exact calm_of_eq (calm_snd (calm_send h ..) hs) rfl rfl
      · next hs => exact calm_of_eq (calm_snd (calm_send h ..) hs) rfl rfl
theorem calm_askPieces (h : Calm r s) (id : Nat) (f : Fibre) (start : Nat) (w : Option (List Byte)) (x0 : List (Nat × Nat)) :
    Calm r (State.askPieces s id f start w x0).2 := by
  (fun_induction State.askPieces s id f start w x0 <;> grind [calm_askPiece])
theorem calm_atHand (h : Calm r s) (id : Nat) (f : Fibre) (spc : Space) (addr n : Nat) (w : Option (List Byte)) :
    Calm r (State.atHand s id f spc addr n w).2 := by
  unfold State.atHand
  split
  · exact h
  · exact calm_of_eq (calm_askPieces h ..) rfl rfl
theorem calm_sendAll (h : Calm r s) (p : Site) (job master dst tdie op : Nat) (a : Acc) (x0 : List (Nat × PktBody)) : Calm r
    (State.sendAll s p job master dst tdie op a x0).2 := by
  (fun_induction State.sendAll s p job master dst tdie op a x0 <;> grind [calm_send, Calm])
theorem calm_signalHere (h : Calm r s) (f : Fibre) (o : Option Op) (addr : Nat) (add : Bool) (v : DWord) : Calm r
    (State.signalHere s f o addr add v).2 := by
  grind [State.signalHere, calm_findNow, calm_foldl, calm_chainWrite]
theorem calm_raddHere (h : Calm r s) (f : Fibre) (ty : Ty) (x0 : Nat) (x1 : List Nat) : Calm r (State.raddHere s f ty x0 x1).2 := by
  (fun_induction State.raddHere s f ty x0 x1 <;> grind [calm_findNow, calm_chainWrite, Calm])
theorem calm_localPuts (h : Calm r s) (o : Op) (f : Fibre) (x : FabOp) (dst : DWord) (src : Place) (len : Nat) : Calm r
    (State.localPuts s o f x dst src len) := by
  unfold State.localPuts
  dsimp only
  (repeat' split) <;> grind [calm_atHand, calm_engineRead, calm_finishFab, calm_watchOp, calm_finishOp, calm_modOp, calm_store,
      calm_sendAll, Calm]
theorem calm_localRadd (h : Calm r s) (o : Op) (f : Fibre) (x : FabOp) (ty : Ty) (dst : DWord) (src : Place) (cnt : Nat) : Calm r
    (State.localRadd s o f x ty dst src cnt) := by
  unfold State.localRadd
  dsimp only
  (repeat' split) <;> grind [calm_atHand, calm_engineRead, calm_finishFab, calm_watchOp, calm_finishOp, calm_modOp, calm_sendAll,
      Calm]
theorem calm_endPuts (h : Calm r s) (o : Op) (f : Fibre) (x : FabOp) (dst : DWord) (sig : Option (DWord × DWord × Bool))
    (st : Status) (signalled : Bool) : Calm r (State.endPuts s o f x dst sig st signalled) := by
  unfold State.endPuts
  split <;> grind [calm_finishFab, calm_signalHere, calm_sendAll, calm_modOp, Calm]
theorem calm_inbound (h : Calm r s) (job die off n : Nat) (a : Acc) (port src : Nat) : Calm r
    (State.inbound s job die off n a port src).2 := by
  grind [State.inbound, calm_alarm, calm_missDone]
theorem calm_inboundLocs (h : Calm r s) (job port src die : Nat) (a : Acc) (x0 : List (Nat × Nat)) : Calm r
    (State.inboundLocs s job port src die a x0).2 := by
  (fun_induction State.inboundLocs s job port src die a x0 <;> grind [calm_inbound, Calm])
theorem calm_inboundRead (h : Calm r s) (job port src die : Nat) (x0 : List (Nat × Nat)) : Calm r
    (State.inboundRead s job port src die x0).2 := by
  (fun_induction State.inboundRead s job port src die x0 <;> grind [calm_inbound, Calm])
theorem calm_outsideWrite (h : Calm r s) (job src : Nat) (change : Bool) (loc : Nat) (bs : List Byte) :
    Calm r (State.outsideWrite s job src change loc bs) :=
  calm_of_eq (s := (s.writeAt (s.requester job) loc bs).noteOutside s (packageLocus src) (s.past.map (·.id)) loc bs.length)
    (calm_noteOutside (calm_writeAt h ..) ..) rfl rfl
theorem calm_inboundWrite (h : Calm r s) (job port src die : Nat) (x0 : List (Nat × List Byte)) : Calm r
    (State.inboundWrite s job port src die x0).2 := by
  (fun_induction State.inboundWrite s job port src die x0 <;> grind [calm_inbound, calm_outsideWrite, Calm])
theorem calm_inboundUpdate (h : Calm r s) (job port src die off size : Nat) (a : Acc) (back : Bool) (new : Nat → Nat) :
    Calm r (State.inboundUpdate s job port src die off size a back new).2 := by
  unfold State.inboundUpdate
  split
  · next hl => exact calm_snd (calm_inboundLocs h ..) hl
  · next l u hl =>
    have hu : Calm r u := calm_snd (calm_inboundLocs h ..) hl
    split
    · exact hu
    · exact List.foldlRecOn (motive := fun x : Nat × State => Calm r x.2) l _ hu fun x hx p _ => calm_outsideWrite hx ..
theorem calm_inboundMem (h : Calm r s) (job port src : Nat) (b : PktBody) : Calm r (State.inboundMem s job port src b).2 := by
  unfold State.inboundMem
  split
  · exact calm_inboundRead h ..
  · exact calm_inboundRead h ..
  · exact calm_inboundWrite h ..
  · exact calm_inboundUpdate h ..
  · exact calm_inboundUpdate h ..
  · next vals =>
    refine List.foldlRecOn (motive := fun x : Nat × Answer × State => Calm r x.2.2) vals _ h fun x hx v _ => ?_
    dsimp only
    split
    · exact hx
    · exact calm_inboundUpdate hx ..
  · exact h

/-! ## Machine/Assume -/

theorem calm_storeCkpt (h : Calm r s) (f : Fibre) : Calm r (State.storeCkpt s f) := by
  grind [State.storeCkpt, calm_store]
theorem calm_moveCkpts (h : Calm r s) (core x0 : Nat) : Calm r (State.moveCkpts s core x0) := by
  (fun_induction State.moveCkpts s core x0 <;> grind [calm_setFibre, calm_storeCkpt, Calm])
theorem calm_sendResolution (h : Calm r s) (k : Nat) (f : Fibre) (a : BitVec 32) (r0 : Resolution) (op : Nat) : Calm r
    (State.sendResolution s k f a r0 op) := by
  grind [State.sendResolution, calm_sendMsg, calm_send, calm_finishOp, calm_faultJob]
theorem calm_settleSlot (h : Calm r s) (a : BitVec 32) (r0 : Resolution) (value : Option DWord) : Calm r
    (State.settleSlot s a r0 value) := by
  unfold State.settleSlot
  split <;> grind [calm_modSlot, calm_foldl, calm_send, calm_faultJob, Calm]
theorem calm_resolveHome (h : Calm r s) (job : Nat) (a : BitVec 32) (r0 : Resolution) : Calm r
    (State.resolveHome s job a r0).2 := by
  unfold State.resolveHome
  split <;> grind [calm_settleSlot, Calm]
theorem calm_oqRelease (h : Calm r s) (g q : Nat) : Calm r (State.oqRelease s g q) := by
  grind [State.oqRelease, calm_modGroup]
theorem calm_performHeld (h : Calm r s) (k : Nat) (hw : Held) : Calm r (State.performHeld s k hw) := by
  grind [State.performHeld, calm_sendMsg, calm_publish, calm_modFibre, calm_postFibre, calm_oqRelease, calm_sendResolution,
      calm_startFab]
theorem calm_loseHeld (h : Calm r s) (k : Nat) (f : Fibre) (e : HeldEff) : Calm r (State.loseHeld s k f e) := by
  grind [State.loseHeld, calm_logCore, calm_modFibre, calm_finishOp]
theorem calm_releaseHead (h : Calm r s) (k : Nat) (e : State.releaseHead s k = some t) : Calm r t := by
  unfold State.releaseHead at e
  split at e
  · cases e
  · next f _ =>
    split at e
    · cases e
    · next hd l _ =>
      have h1 : Calm r (s.setFibre k { f with releasing := l }) := calm_setFibre h ..
      dsimp only at e
      split at e
      · grind [calm_loseHeld]
      · split at e
        · cases e
        · split at e <;> grind [calm_modFibre, calm_issueAccess, calm_fenceAt, calm_performHeld]
theorem calm_releaseN (h : Calm r s) (k x0 : Nat) : Calm r (State.releaseN s k x0) := by
  (fun_induction State.releaseN s k x0 <;> grind [calm_releaseHead, Calm])
theorem calm_releaseAll (h : Calm r s) : Calm r (State.releaseAll s) := by
  grind [State.releaseAll, calm_foldl, calm_releaseN]
theorem calm_tentativeSlots (h : Calm r s) (k grp : Nat) (new : SlotState) : Calm r (State.tentativeSlots s k grp new) := by
  grind [State.tentativeSlots, calm_modGroup]
theorem calm_untaint (h : Calm r s) (k : Nat) : Calm r (State.untaint s k) := by
  grind [State.untaint, calm_setFibre, calm_foldl, calm_popTaken, calm_tentativeSlots, calm_releaseN]
theorem calm_markEntries (h : Calm r s) (die : Option Nat) (a : BitVec 32) (deny : Bool) : Calm r
    (State.markEntries s die a deny) := by
  grind [State.markEntries, Calm]
theorem calm_dropFront (h : Calm r s) (die : Option Nat) : Calm r (State.dropFront s die) := by
  grind [State.dropFront, calm_foldl, calm_dropDenied]
theorem calm_applyAffirm (h : Calm r s) (die : Option Nat) (a : BitVec 32) : Calm r (State.applyAffirm s die a) := by
  grind [State.applyAffirm, calm_foldl, calm_modFibre, calm_untaint, calm_markEntries]
theorem calm_stopForDeny (h : Calm r s) (k : Nat) : Calm r (State.stopForDeny s k) := calm_of_eq h rfl rfl
theorem calm_undoWord (h : Calm r s) (grp : Nat) (u : Undo) : Calm r (State.undoWord s grp u) := by
  grind [State.undoWord, calm_modGroup, calm_putBytes]
theorem calm_rollback (h : Calm r s) (k : Nat) (a : BitVec 32) : Calm r (State.rollback s k a) := by
  unfold State.rollback
  split
  · exact h
  · split
    · exact h
    · refine calm_foldl (fun s b hs => calm_settleSlot hs ..) _ _ (calm_opt (calm_retireHead (calm_setFibre (calm_unless
        (calm_tentativeSlots (calm_dropFront ?_ _) ..) fun hs => calm_modCore hs ..) ..) ..) fun hs => calm_debugRecord hs ..)
      refine calm_of_eq (s := List.foldl _ _ _) ?_ rfl rfl
      exact calm_foldl (fun s u hs => calm_undoWord hs ..) _ _ (calm_of_eq h rfl rfl)
theorem calm_noteRestart (h : Calm r s) (die : Option Nat) (a : BitVec 32) : Calm r (State.noteRestart s die a) := by
  grind [State.noteRestart, calm_modFibre]
theorem calm_applyDeny (h : Calm r s) (die : Option Nat) (a : BitVec 32) : Calm r (State.applyDeny s die a).1 := by
  grind [State.applyDeny, calm_foldl, calm_stopForDeny, calm_rollback, calm_markEntries, calm_noteRestart, calm_dropFront]
theorem calm_withdrawJob (h : Calm r s) (job : Nat) : Calm r (State.withdrawJob s job) := by
  grind [State.withdrawJob, calm_foldl, calm_settleSlot]

/-! ## Machine/Saved -/

theorem calm_dump (h : Calm r s) (j cause : Nat) : Calm r (State.dump s j cause) := by
  grind [State.dump, calm_unitWrite]
theorem calm_writeContext (h : Calm r s) (gi : Nat) (g : Group) : Calm r (State.writeContext s gi g) := by
  grind [State.writeContext, calm_unitWrite]
theorem calm_loseWalks (h : Calm r s) (gi : Nat) : Calm r (State.loseWalks s gi) := by
  grind [State.loseWalks, calm_modPkg]
theorem calm_joinTaints (h : Calm r s) (gi : Nat) (d : Nat × Nat) : Calm r (State.joinTaints s gi d) := by
  grind [State.joinTaints, calm_foldl, calm_joinSet]

/-! ## Machine/Jobs -/

theorem calm_enterActive (h : Calm r s) (g : Nat) : Calm r (State.enterActive s g) := by
  grind [State.enterActive, calm_modGroup]
theorem calm_swapIn (h : Calm r s) (core x0 : Nat) : Calm r (State.swapIn s core x0) := by
  (fun_induction State.swapIn s core x0 <;> grind [calm_enterActive, Calm])
theorem calm_leaveActive (h : Calm r s) (g : Nat) : Calm r (State.leaveActive s g) := by
  grind [State.leaveActive, calm_modGroup]
theorem calm_swapAll (h : Calm r s) : Calm r (State.swapAll s) := by
  grind [State.swapAll, calm_foldl, calm_swapIn]
theorem calm_ageGroups (h : Calm r s) (n : Nat) : Calm r (State.ageGroups s n) := by
  grind [State.ageGroups, Calm]
theorem calm_endOne (h : Calm r s) (k : Nat) : Calm r (State.endOne s k) := calm_of_eq h rfl rfl
theorem calm_endHelpers (h : Calm r s) (g fid : Nat) : Calm r (State.endHelpers s g fid) := by
  grind [State.endHelpers, calm_foldl, calm_endOne]
theorem calm_exitGroup (h : Calm r s) (g : Nat) : Calm r (State.exitGroup s g) := by
  unfold State.exitGroup
  split
  · exact h
  · dsimp only
    split
    · exact h
    · refine calm_swapIn (calm_post ?_ ..) ..
      refine calm_of_eq (s := List.foldl _ _ _) ?_ rfl rfl
      exact calm_foldl (fun s (p : Nat × Fibre) hs => calm_endOne hs p.1) _ _ h
theorem calm_releaseEnd (h : Calm r s) (f : Fibre) : Calm r (State.releaseEnd s f) := by
  grind [State.releaseEnd, calm_publish]
theorem calm_endFibre (h : Calm r s) (k : Nat) : Calm r (State.endFibre s k) := by
  unfold State.endFibre
  split <;> grind [calm_modFibre, calm_debugRecord, calm_releaseEnd, calm_endOne, calm_endHelpers, calm_exitGroup, Calm]
theorem calm_freeGroup (h : Calm r s) (g : Nat) : Calm r (State.freeGroup s g) := by
  unfold State.freeGroup
  split
  · exact h
  · dsimp only
    split <;> exact calm_of_eq h rfl rfl
theorem calm_completeJob (h : Calm r s) (j : Nat) (st : Status) : Calm r (State.completeJob s j st) := by
  unfold State.completeJob
  refine calm_of_eq (calm_foldl (fun s p hs => calm_exitGroup (calm_foldl (fun s (m : Nat × Fibre) hs => calm_ite hs
      (calm_endOne hs m.1)) _ _ hs) p.1) _ _
    (calm_ite (calm_dump (calm_modJob h ..) ..) (calm_modJob h ..))) rfl rfl
theorem calm_settleWork (h : Calm r s) (j : Nat) : Calm r (State.settleWork s j) := by
  unfold State.settleWork
  refine calm_foldl (fun s k hs => calm_modFibre hs ..) _ _ (calm_of_eq (calm_withdrawJob ?_ j) rfl rfl)
  exact calm_foldl (fun s k hs => calm_abandonAll hs k) _ _ (calm_foldl (fun s op hs => calm_finishOp hs ..) _ _
    (calm_foldl (fun s op hs => calm_finishOp hs ..) _ _ h))
theorem calm_watchPass (h : Calm r s) (n : Nat) : Calm r (State.watchPass s n) := by
  grind [State.watchPass, Calm]
theorem calm_settleJob (h : Calm r s) (j : Nat) : Calm r (State.settleJob s j) := by
  grind [State.settleJob, calm_settleWork, calm_postHw]
theorem calm_endJob (h : Calm r s) (j cause : Nat) : Calm r (State.endJob s j cause) := by
  grind [State.endJob, calm_modJob, calm_dump, calm_postHw, calm_settleJob]
theorem calm_settleJobs (h : Calm r s) : Calm r (State.settleJobs s) := by
  grind [State.settleJobs, calm_foldl, calm_endJob]
theorem calm_applyAct (h : Calm r s) (x0 : EvAct) : Calm r (State.applyAct s x0) := by
  unfold State.applyAct
  split <;> grind [calm_freeGroup, calm_completeJob, calm_releaseEntry, calm_deliver, calm_modCore, calm_modFibre, calm_spillNow,
      calm_faultJob, calm_modJob, calm_modPkg, calm_settleJob, calm_dropMsg, Calm]
theorem calm_drainEvents (h : Calm r s) (clu x0 : Nat) : Calm r (State.drainEvents s clu x0) := by
  (fun_induction State.drainEvents s clu x0 <;> grind [calm_modCluster, calm_applyAct, Calm])
theorem calm_settleStops (h : Calm r s) : Calm r (State.settleStops s) := by
  grind [State.settleStops, calm_foldl, calm_finishOp]
theorem calm_settleSpans (h : Calm r s) : Calm r (State.settleSpans s) := by
  grind [State.settleSpans, calm_foldl, calm_modCore, calm_debugRecord]
theorem calm_settle (h : Calm r s) : Calm r (State.settle s) := by
  unfold State.settle
  refine calm_foldl (fun s c hs => calm_drainEvents hs ..) _ _ (calm_swapAll (calm_settleSpans (calm_settleStops (calm_settleJobs
    (calm_sendRemotes (calm_releaseAll (calm_releaseLanes ?_)))))))
  exact calm_foldl (fun s c hs => calm_drainEvents hs ..) _ _ h

end Sys2Proof.Form

/-! SUPPORT. The clk and the form of memory through the words, and what they share. -/

namespace Sys2Proof.Form
set_option Elab.async false
open Sys2Proof Sys2Proof.Machine

variable {r s t : State}

/-! ## Machine/Codeword -/

theorem calm_pacerTrap (h : Calm r s) (k : Nat) (f : Fibre) (at_ : RP) : Calm r (State.pacerTrap s k f at_) := by
  grind [State.pacerTrap, calm_setFibre, calm_modGroup, calm_modCore]

/-! ## Machine/IntOps -/

theorem calm_aluWord (h : Calm r s) (i : Instr) (d : Nat) (v : Nat → Fibre → List Word × Conds) : CalmOut r (aluWord i d s v) := by
  grind [CalmOut, aluWord, calm_issueWord, calm_finish]
theorem calm_lateWord (h : Calm r s) (i : Instr) (d : Nat) (v : Nat → Fibre → List Word × Conds) : CalmOut r
    (lateWord i d s v) := by
  grind [CalmOut, lateWord, calm_issueWord, calm_fresh, calm_addOp, calm_finish]
theorem calm_plainWord (h : Calm r s) (i : Instr) (d : Reg) (v : Nat → Fibre → Word) : CalmOut r (plainWord i d s v) := by
  grind [CalmOut, plainWord, calm_aluWord]
theorem calm_binWord (h : Calm r s) (i : Instr) (d a b : Reg) (op : Word → Word → Word) : CalmOut r (binWord i d a b op s) := by
  grind [CalmOut, binWord, calm_plainWord]
theorem calm_unWord (h : Calm r s) (i : Instr) (d a : Reg) (op : Word → Word) : CalmOut r (unWord i d a op s) := by
  grind [CalmOut, unWord, calm_plainWord]
theorem calm_immWord (h : Calm r s) (i : Instr) (d a : Reg) (lit : Word) (op : Word → Word → Word) : CalmOut r
    (immWord i d a lit op s) := by
  grind [CalmOut, immWord, calm_plainWord]
theorem calm_execMov (h : Calm r s) (hw : Head) (d a : Reg) : CalmOut r (execMov hw d a s) := by
  grind [CalmOut, execMov, calm_issueWord, calm_finish]
theorem calm_typedWord (h : Calm r s) (i : Instr) (d a b : Reg) (ty : Ty) (sat : Bool) (op : Int → Int → Int) : CalmOut r
    (typedWord i d a b ty sat op s) := by
  grind [CalmOut, typedWord, calm_aluWord]
theorem calm_typedUnWord (h : Calm r s) (i : Instr) (d a : Reg) (ty : Ty) (sat : Bool) (op : Int → Int) : CalmOut r
    (typedUnWord i d a ty sat op s) := by
  grind [CalmOut, typedUnWord, calm_aluWord]

/-! ## Machine/Noise -/

theorem calm_drawFresh (h : Calm r s) (core gid fid seq : Nat) (wide log : Bool) (x0 : Nat) : Calm r
    (State.drawFresh s core gid fid seq wide log x0).2 := by
  (fun_induction State.drawFresh s core gid fid seq wide log x0 <;> grind [calm_store, calm_modCore, Calm])
theorem calm_drawReplay (h : Calm r s) {core gid fid seq n : Nat} {wide : Bool} {vs : List Nat}
    (e : State.drawReplay s core gid fid seq wide n = .got vs t ∨ State.drawReplay s core gid fid seq wide n = .wait vs t)
        : Calm r t := by
  induction n generalizing s seq vs with
  | zero => grind [State.drawReplay]
  | succ n ih =>
    unfold State.drawReplay at e
    dsimp only at e
    split at e
    · grind
    · split at e
      · grind
      · split at e
        · next hd =>
          obtain e | e := e <;> cases e
          exact ih (calm_modCore h ..) (.inl hd)
        · next hd =>
          obtain e | e := e <;> cases e
          exact ih (calm_modCore h ..) (.inr hd)
        · grind
theorem calm_draw (h : Calm r s) {f : Fibre} {n : Nat} {wide : Bool} {vs : List Nat}
    (e : State.draw s f n wide = .got vs t ∨ State.draw s f n wide = .wait vs t) : Calm r t := by
  unfold State.draw at e
  dsimp only at e
  split at e
  · exact calm_drawReplay h e
  · grind [calm_drawFresh]
  · grind [calm_drawFresh]
theorem calm_draw_got (h : Calm r s) {f : Fibre} {n : Nat} {wide : Bool} {vs : List Nat} (e : State.draw s f n wide = .got vs t) :
    Calm r t :=
  calm_draw h (.inl e)
theorem calm_draw_wait (h : Calm r s) {f : Fibre} {n : Nat} {wide : Bool} {vs : List Nat}
    (e : State.draw s f n wide = .wait vs t) : Calm r t :=
  calm_draw h (.inr e)
theorem calm_withNoise (h : Calm r s) (k : Nat) (f : Fibre) (n : Nat) (wide : Bool) (body : List Nat → State → Fibre → State)
    (hb : ∀ vs u g, Calm r u → Calm r (body vs u g)) : Calm r (State.withNoise s k f n wide body) := by
  unfold State.withNoise
  split
  · exact hb _ _ _ h
  · split
    · next hd => exact hb _ _ _ (calm_draw_got h hd)
    · next hd => exact calm_waitFor (calm_draw_wait h hd) ..
    · exact calm_debugRecord (calm_setFibre (calm_modCore h ..) ..) ..
theorem calm_roundWord (h : Calm r s) (i : Instr) (d : Nat) (r0 : Rnd) (n : Nat) (v : Nat → Fibre → List Nat → List Word × Conds) :
    CalmOut r (roundWord i d r0 n s v) := by
  grind [CalmOut, roundWord, calm_issueWord, calm_withNoise, calm_finish]
theorem calm_lateRoundWord (h : Calm r s) (i : Instr) (d : Nat) (r0 : Rnd) (n : Nat)
    (v : Nat → Fibre → List Nat → List Word × Conds) : CalmOut r (lateRoundWord i d r0 n s v) := by
  grind [CalmOut, lateRoundWord, calm_issueWord, calm_withNoise, calm_fresh, calm_addOp, calm_finish]
theorem calm_execRand (h : Calm r s) (hw : Head) (d : Reg) (ty : Ty) : CalmOut r (execRand hw d ty s) := by
  grind [CalmOut, execRand, calm_issueWord, calm_withNoise, calm_fresh, calm_addOp, calm_finish]

/-! ## Machine/Pred -/

theorem calm_predWord (h : Calm r s) (i : Instr) (v : Nat → Fibre → List (Nat × Bool) × Conds) : CalmOut r (predWord i s v) := by
  grind [CalmOut, predWord, calm_issueWord, calm_finish]

/-! ## Machine/Control -/

theorem calm_execMovsw (h : Calm r s) (hw : Head) (d a : Reg) : CalmOut r (execMovsw hw d a s) := by
  grind [CalmOut, execMovsw, calm_issueWord, calm_modGroup, calm_finish]
theorem calm_jumpWord (h : Calm r s) (i : Instr) (target : Nat → Fibre → DWord) (link : Bool) : CalmOut r
    (jumpWord i s target link) := by
  grind [CalmOut, jumpWord, calm_issueWord, calm_finishTo]
theorem calm_stallTag (h : Calm r s) (k : Nat) (f : Fibre) : Calm r (State.stallTag s k f) := by
  grind [State.stallTag, calm_waitFor]
theorem calm_beginWait (h : Calm r s) (k : Nat) (i : Instr) (f0 f1 : Fibre) (w : Wait) : Calm r
    (State.beginWait s k i f0 f1 w) := by
  grind [State.beginWait, calm_setFibre, calm_noteIssue]
theorem calm_execEndFibre (h : Calm r s) (hw : Head) : CalmOut r (execEndFibre hw s) := by
  grind [CalmOut, execEndFibre, calm_issueWord, calm_endFibre, calm_stallTag, calm_beginWait]
theorem calm_execNap (h : Calm r s) (hw : Head) (a : Reg) : CalmOut r (execNap hw a s) := by
  grind [CalmOut, execNap, calm_issueWord, calm_finish, calm_beginWait]
theorem calm_execTrap (h : Calm r s) (hw : Head) (d : Reg) : CalmOut r (execTrap hw d s) := by
  grind [CalmOut, execTrap, calm_issueWord, calm_barTrap, calm_setFibre, calm_noteIssue, calm_userTrap]
theorem calm_walkLoop (h : Calm r s) (f : Fibre) (endw : DWord) (x0 : Nat) (x1 : DWord) : Calm r
    (State.walkLoop s f endw x0 x1).2 := by
  (fun_induction State.walkLoop s f endw x0 x1 <;> grind [calm_fetchWord, calm_count, calm_fetchWords, Calm])
theorem calm_startLoop (h : Calm r s) (k : Nat) (i : Instr) (f : Fibre) (cnt : Word) (last : BitVec 16) : Calm r
    (State.startLoop s k i f cnt last) := by
  grind [State.startLoop, calm_userTrap, calm_walkLoop, calm_fetchStop, calm_finishTo]
theorem calm_execLoopReg (h : Calm r s) (hw : Head) (a : Reg) (last : BitVec 16) : CalmOut r (execLoopReg hw a last s) := by
  grind [CalmOut, execLoopReg, calm_issueWord, calm_startLoop]
theorem calm_execLoopImm (h : Calm r s) (hw : Head) (cnt last : BitVec 16) : CalmOut r (execLoopImm hw cnt last s) := by
  grind [CalmOut, execLoopImm, calm_issueWord, calm_startLoop]
theorem calm_execLbrk (h : Calm r s) (hw : Head) (n : BitVec 32) : CalmOut r (execLbrk hw n s) := by
  grind [CalmOut, execLbrk, calm_issueWord, calm_userTrap, calm_finishTo]
theorem calm_execFork (h : Calm r s) (hw : Head) (d : Reg) (off : BitVec 32) : CalmOut r (execFork hw d off s) := by
  have give : ∀ (k : Nat) (f : Fibre) (u : State) (o : Op) (g : Fibre), Calm r u → Calm r ((u.fresh.2.addOp o).finish k
      (.fork hw d off) f g) :=
    fun k f u o g hu => calm_finish (calm_addOp (calm_fresh hu) _) ..
  refine calm_issueWord h _ _ fun k f => ?_
  dsimp only
  refine calm_ite (give _ _ _ _ _ h) (calm_ite (calm_stallTag h ..) (calm_ite (calm_waitFor h ..) (calm_ite (calm_waitFor h ..)
      ?_)))
  split
  · split
    · next hm => exact calm_meetsPoison h _ _ _ _ _ hm
    · exact give _ _ _ _ _ (calm_setFibre (calm_fenceAt h ..) ..)
  · exact give _ _ _ _ _ h
theorem calm_execJmpt (h : Calm r s) (hw : Head) (idx : BitVec 20) : CalmOut r (execJmpt hw idx s) := by
  grind [CalmOut, execJmpt, calm_issueWord, calm_systemTrap, calm_userTrap, calm_waitFor, calm_findNow, calm_finishTo]

/-! ## Machine/Mem -/

theorem calm_finishNow (h : Calm r s) (k : Nat) (i : Instr) (f0 : Fibre) : Calm r (State.finishNow s k i f0) := by
  grind [State.finishNow, calm_finish]
theorem calm_pacerLoad (h : Calm r s) (k : Nat) (f : Fibre) (i : Instr) (a : Access) : Calm r (State.pacerLoad s k f i a) := by
  unfold State.pacerLoad
  split <;> grind [calm_sliceFault, calm_find, calm_fresh, calm_addOp, calm_finish, calm_startWalk, calm_waitFor, calm_pacerTrap,
      calm_atHand, calm_dropCarried, Calm]
theorem calm_execLd (h : Calm r s) (hw : Head) (d a : Reg) (spc : Space) (sz : Size) (ord : Order) (sc : Scope) (off : BitVec 16) :
    CalmOut r (execLd hw d a spc sz ord sc off s) := by
  grind [CalmOut, execLd, calm_issueWord, calm_pacerLoad, calm_stallTag, calm_waitFor, calm_issueAccess, calm_finishNow]
theorem calm_issueWrite (h : Calm r s) (k : Nat) (f : Fibre) (i : Instr) (x : Access) : Calm r (State.issueWrite s k f i x) := by
  grind [State.issueWrite, calm_finish, calm_stallTag, calm_find, calm_waitFor, calm_modFibre, calm_issueAccess, calm_finishNow]
theorem calm_execSt (h : Calm r s) (hw : Head) (a b : Reg) (spc : Space) (sz : Size) (ord : Order) (sc : Scope) (off : BitVec 16) :
    CalmOut r (execSt hw a b spc sz ord sc off s) := by
  grind [CalmOut, execSt, calm_issueWord, calm_issueWrite]
theorem calm_execAtom (h : Calm r s) (hw : Head) (d a b : Reg) (spc : Space) (sz : Size) (ord : Order) (sc : Scope) (aop : AtomOp)
    (off : BitVec 16) : CalmOut r (execAtom hw d a b spc sz ord sc aop off s) := by
  grind [CalmOut, execAtom, calm_issueWord, calm_finish, calm_stallTag, calm_waitFor, calm_modFibre, calm_issueAccess,
      calm_finishNow]
theorem calm_execRed (h : Calm r s) (hw : Head) (a b : Reg) (spc : Space) (sz : Size) (ord : Order) (sc : Scope) (aop : AtomOp)
    (off : BitVec 16) : CalmOut r (execRed hw a b spc sz ord sc aop off s) := by
  grind [CalmOut, execRed, calm_issueWord, calm_issueWrite]
theorem calm_execFence (h : Calm r s) (hw : Head) (d a : Reg) : CalmOut r (execFence hw d a s) := by
  grind [CalmOut, execFence, calm_issueWord, calm_stallTag, calm_waitFor, calm_setFibre, calm_fenceAt, calm_finishNow]
theorem calm_execEfence (h : Calm r s) (hw : Head) : CalmOut r (execEfence hw s) := by
  grind [CalmOut, execEfence, calm_issueWord, calm_waitFor, calm_finish, calm_deliver]

/-! ## Machine/Barrier -/

theorem calm_putBarrier (h : Calm r s) (loc : Nat) (b : Barrier) : Calm r (State.putBarrier s loc b) := by
  grind [State.putBarrier, calm_putBytes]
theorem calm_arriveBarrier (h : Calm r s) (loc : Nat) (st : Status) (view : List Nat) : Calm r
    (State.arriveBarrier s loc st view) := by
  have ha : Calm r ((s.putBarrier loc ((s.barrierAt loc).arrive st)).publish (.arrived loc) view) := calm_publish
      (calm_putBarrier h ..) ..
  unfold State.arriveBarrier
  dsimp only
  split
  · exact ha
  · exact calm_withPubs (calm_publish ha ..) _
theorem calm_barrierWord (h : Calm r s) (k : Nat) (f : Fibre) (i : Instr) (off : Word) (body : State → Nat → State)
    (hb : ∀ u loc, Calm r u → Calm r (body u loc)) : Calm r (State.barrierWord s k f i off body) := by
  have fault : ∀ kind : MemKind, Calm r (match s.barTrap k f with
      | some s => s
      | none =>
        let s := if f.replay.length < 8 then
            s.modFibre k (·.takeRecord ⟨{ (default : Access) with kind := .ld, space := .sp, addr := off.setWidth 64, size := 16 },
                kind, s.seatNow f⟩)
          else s
        let w := s.issuedWords f i
        s.deliver k f.rp w.1 w.2) := fun kind => by
    split
    · next hbar => exact calm_barTrap h _ _ hbar
    · exact calm_deliver (calm_opt h fun hs => calm_modFibre hs ..) ..
  unfold State.barrierWord
  refine calm_ite (calm_waitFor h ..) (calm_ite (fault _) ?_)
  split
  · next hl =>
    have hu := calm_snd (calm_find h ..) hl
    exact calm_ite (calm_waitFor hu ..) (hb _ _ hu)
  · exact fault _
theorem calm_execBarinit (h : Calm r s) (hw : Head) (a b : Reg) : CalmOut r (execBarinit hw a b s) := by
  grind [CalmOut, execBarinit, calm_issueWord, calm_finish, calm_stallTag, calm_barrierWord, calm_putBarrier]
theorem calm_execBararr (h : Calm r s) (hw : Head) (a : Reg) : CalmOut r (execBararr hw a s) := by
  grind [CalmOut, execBararr, calm_issueWord, calm_finish, calm_stallTag, calm_barrierWord, calm_arriveBarrier]
theorem calm_execBarwt (h : Calm r s) (hw : Head) (a b : Reg) : CalmOut r (execBarwt hw a b s) := by
  grind [CalmOut, execBarwt, calm_issueWord, calm_barrierWord, calm_finish, calm_beginWait]
theorem calm_execBarst (h : Calm r s) (hw : Head) (d a : Reg) : CalmOut r (execBarst hw d a s) := by
  grind [CalmOut, execBarst, calm_issueWord, calm_barrierWord, calm_finish]
theorem calm_wakeBarriers (h : Calm r s) : Calm r (State.wakeBarriers s) := by
  grind [State.wakeBarriers, calm_mapFibres, calm_find]
theorem calm_execBarwtTimeout (h : Calm r s) (fib : Nat) : CalmOut r (execBarwtTimeout fib s) := by
  unfold execBarwtTimeout
  split <;> grind [CalmOut, calm_setFibre, calm_foldl, calm_debugRecord, calm_userTrap, Calm]

/-! ## Machine/Async -/

theorem calm_launchOp (h : Calm r s) (k : Nat) (f : Fibre) (c : Cls) (d : Option Nat) (body : OpBody) (ord : BitVec 24) : Calm r
    (State.launchOp s k f c d body ord).2.2 := by
  grind [State.launchOp, calm_fresh, calm_addOp]
theorem calm_execCpasync (h : Calm r s) (hw : Head) (d a b c : Reg) (bar : Bool) (ssp dsp : Space) : CalmOut r
    (execCpasync hw d a b c bar ssp dsp s) := by
  grind [CalmOut, execCpasync, calm_issueWord, calm_finish, calm_stallTag, calm_waitFor, calm_launchOp]
theorem calm_endCopy (h : Calm r s) (o : Op) (f : Fibre) (c : Copy) (st : Status) : Calm r (State.endCopy s o f c st) := by
  grind [State.endCopy, calm_find, calm_arriveBarrier, calm_finishOp]
theorem calm_copyBytes (h : Calm r s) (op seq : Nat) (f : Fibre) (c : Copy) (n : Nat) : Calm r
    (State.copyBytes s op seq f c n).2 := by
  grind [State.copyBytes, calm_engineReadAs]
theorem calm_landCopy (h : Calm r s) (o : Op) (f : Fibre) (c : Copy) : Calm r (State.landCopy s o f c) := by
  unfold State.landCopy
  dsimp only
  (repeat' split) <;> grind [calm_endCopy, calm_atHand, calm_copyBytes, calm_engineWrite, calm_watchOp, calm_modOp,
      calm_dropCarried, Calm]
theorem calm_modOq (h : Calm r s) (g q : Nat) (u : OQueue → OQueue) : Calm r (State.modOq s g q u) := by
  grind [State.modOq, calm_modGroup]
theorem calm_reserve (h : Calm r s) (g q n : Nat) (gath : Bool) : Calm r (State.reserve s g q n gath) := by
  grind [State.reserve, calm_modOq, calm_modGroup]
theorem calm_fillSlot (h : Calm r s) (g q num : Nat) (status : Word) (payload : List Byte) (bad : List (Nat × Nat)) : Calm r
    (State.fillSlot s g q num status payload bad) := by
  grind [State.fillSlot, calm_modOq, calm_modGroup]
theorem calm_execGath (h : Calm r s) (hw : Head) (d a b c : Reg) (ssp : Space) (fmt : Fmt) (toq : Bool) : CalmOut r
    (execGath hw d a b c ssp fmt toq s) := by
  grind [CalmOut, execGath, calm_issueWord, calm_finish, calm_stallTag, calm_waitFor, calm_reserve, calm_launchOp, calm_finishOp]
theorem calm_readBlank (h : Calm r s) (id : Option Nat) (f : Fibre) (seq : Nat) (spc : Space) (addr n : Nat) : Calm r
    (State.readBlank s id f seq spc addr n).2 := by
  grind [State.readBlank, calm_engineReadAs]
theorem calm_rowDone (h : Calm r s) (o : Op) (g : Gather) (row : Nat) (st : Status) : Calm r (State.rowDone s o g row st) := by
  grind [State.rowDone, calm_modOp, calm_finishOp]
theorem calm_landRow (h : Calm r s) (o : Op) (f : Fibre) (g : Gather) (row : Nat) : Calm r (State.landRow s o f g row) := by
  have fail : ∀ (u : State) (st : Status), Calm r u → Calm r ((if g.toq then u.fillSlot o.grp g.dst (g.first + row)
      (w32 (if st = .dataerr then 6 else 1)) [] [] else u).rowDone o g row st) :=
    fun u st hu => calm_rowDone (calm_opt hu fun hu => calm_fillSlot hu ..) ..
  have h1 := calm_atHand h o.id f .g (g.table.toNat + 8 * row) 8 none
  unfold State.landRow
  refine calm_ite h1 (calm_ite (calm_pacerTrap (calm_dropCarried h1 _) ..) ?_)
  split
  · next he => exact fail _ _ (calm_dropCarried (calm_snd (calm_engineReadAs h1 ..) he) _)
  · next addr u he =>
    have h2 := calm_atHand (calm_snd (calm_engineReadAs h1 ..) he) o.id f g.space (leNat addr) g.rowLen none
    refine calm_ite h2 (calm_ite (calm_pacerTrap (calm_dropCarried h2 _) ..) ?_)
    dsimp only
    split
    · next hr => exact fail _ _ (calm_pair (calm_dropCarried (calm_readBlank h2 ..) _) hr)
    · next hr =>
      have h3 := calm_watchOp (calm_pair (calm_dropCarried (calm_readBlank h2 ..) _) hr) o g.space (leNat addr) g.rowLen false
      refine calm_ite (calm_rowDone (calm_fillSlot h3 ..) ..) (calm_ite (fail _ _ h3) ?_)
      split
      · next hw => exact calm_rowDone (calm_snd (calm_engineWrite h3 ..) hw) ..
      · next hw => exact calm_rowDone (calm_watchOp (calm_snd (calm_engineWrite h3 ..) hw) ..) ..
theorem calm_execWaitc (h : Calm r s) (hw : Head) (n : BitVec 8) (mask : BitVec 4) : CalmOut r (execWaitc hw n mask s) := by
  grind [CalmOut, execWaitc, calm_issueWord, calm_waitFor, calm_finish]
theorem calm_execFtest (h : Calm r s) (hw : Head) (d a : Reg) : CalmOut r (execFtest hw d a s) := by
  grind [CalmOut, execFtest, calm_issueWord, calm_finish]
theorem calm_endGet (h : Calm r s) (o : Op) (f : Fibre) (bar : Option Nat) (st : Status) : Calm r (State.endGet s o f bar st) := by
  unfold State.endGet
  split <;> grind [calm_find, calm_arriveBarrier, calm_finishFab, Calm]
theorem calm_cancel (h : Calm r s) (o : Op) : Calm r (State.cancel s o) := by
  grind [State.cancel, calm_endCopy, calm_foldl, calm_fillSlot, calm_finishOp, calm_finishFab, calm_modPkg, calm_endGet, Calm]
theorem calm_execFcancel (h : Calm r s) (hw : Head) (d a : Reg) : CalmOut r (execFcancel hw d a s) := by
  grind [CalmOut, execFcancel, calm_issueWord, calm_finish, calm_stallTag, calm_cancel, calm_modFibre, calm_finishNow]

/-! ## Machine/Pacer -/

theorem calm_logPop (h : Calm r s) (f : Fibre) (q n : Nat) (e : Slot) : Calm r (State.logPop s f q n e) := by
  grind [State.logPop, calm_foldl, calm_logCore]
theorem calm_execOqpop (h : Calm r s) (hw : Head) (d a : Reg) (n : BitVec 5) : CalmOut r (execOqpop hw d a n s) := by
  grind [CalmOut, execOqpop, calm_issueWord, calm_finish, calm_logPop, calm_modOq, calm_waitFor]
theorem calm_execOqrel (h : Calm r s) (hw : Head) (a : Reg) : CalmOut r (execOqrel hw a s) := by
  grind [CalmOut, execOqrel, calm_issueWord, calm_finish, calm_stallTag, calm_oqRelease]
theorem calm_execAslice (h : Calm r s) (hw : Head) (d a : Reg) (hd : Bool) : CalmOut r (execAslice hw d a hd s) := by
  unfold execAslice
  refine calm_issueWord h _ _ fun k f => ?_
  refine calm_ite (calm_finish h ..) (calm_ite (calm_stallTag h ..) (calm_ite (calm_waitFor h ..) (calm_ite (calm_waitFor h ..)
      ?_)))
  split
  · next hm => exact calm_meetsPoison h _ _ _ _ _ hm
  · have h1 := calm_atHand h (wordKey k) f .g (f.readPair k a.toNat).toNat 40 none
    refine calm_ite (calm_waitFor h ..) (calm_ite (calm_waitFor h1 ..) ?_)
    split
    next rd u he =>
    have h2 := fun d ord => calm_launchOp (calm_dropCarried (calm_snd (calm_engineRead h1 ..) he) (wordKey k)) k f .none d
        (.slice f.grp) ord
    dsimp only
    split
    · split
      · refine calm_ite (calm_finishOp (calm_finish (h2 ..) ..) ..) (calm_finish (calm_modGroup (calm_withFibres (h2 ..) _) ..) ..)
      · exact calm_finishOp (calm_finish (h2 ..) ..) ..
    · exact calm_finishOp (calm_finish (h2 ..) ..) ..
theorem calm_endSlice (h : Calm r s) (g : Nat) (sl : Slice) (new : SliceState) (st : Status) : Calm r
    (State.endSlice s g sl new st) := by
  grind [State.endSlice, calm_modGroup, calm_modFibre, calm_finishOp]
theorem calm_freeFilling (h : Calm r s) (g k : Nat) : Calm r (State.freeFilling s g k) := by
  grind [State.freeFilling, calm_modGroup]
theorem calm_execAstop (h : Calm r s) (hw : Head) : CalmOut r (execAstop hw s) := by
  unfold execAstop
  refine calm_issueWord h _ _ fun k f => ?_
  split
  · exact calm_ite (calm_stallTag h ..) (calm_finish h ..)
  · refine calm_ite (calm_ite (calm_waitFor h ..) (calm_endSlice (calm_finish h ..) ..)) (calm_ite (calm_finish h ..)
      (calm_ite (calm_stallTag h ..) (calm_ite (calm_finish (calm_endSlice ?_ ..) ..) (calm_finish h ..))))
    exact calm_withOps (calm_freeFilling h ..) _
theorem calm_execPloop (h : Calm r s) (hw : Head) (a : Reg) (last : BitVec 13) : CalmOut r (execPloop hw a last s) := by
  grind [CalmOut, execPloop, calm_issueWord, calm_walkLoop, calm_pacerTrap, calm_startLoop]
theorem calm_execAfeed (h : Calm r s) (hw : Head) (d a b : Reg) (m : BitVec 11) (kind : FeedKind) : CalmOut r
    (execAfeed hw d a b m kind s) := by
  grind [CalmOut, execAfeed, calm_issueWord, calm_sliceFault, calm_waitFor, calm_reserve, calm_fillSlot, calm_finish, calm_launchOp]
theorem calm_execPwait (h : Calm r s) (hw : Head) (d : Reg) (n : BitVec 6) : CalmOut r (execPwait hw d n s) := by
  grind [CalmOut, execPwait, calm_issueWord, calm_sliceFault, calm_waitFor, calm_finish]
theorem calm_execPacerFillComplete (h : Calm r s) (op : Nat) : CalmOut r (execPacerFillComplete op s) := by
  unfold execPacerFillComplete
  dsimp only
  (repeat' split) <;> grind [CalmOut, calm_atHand, calm_dropCarried, calm_pacerTrap, calm_fillSlot, calm_dropOp, calm_readBlank,
      calm_watchOp, Calm]

/-! ## Machine/Matrix -/

theorem calm_setTile (h : Calm r s) (core t0 : Nat) (rows : List (List Word)) : Calm r (State.setTile s core t0 rows) := by
  grind [State.setTile, calm_modCore]
theorem calm_setTileRow (h : Calm r s) (core t0 r0 : Nat) (row : List Word) : Calm r (State.setTileRow s core t0 r0 row) := by
  grind [State.setTileRow, calm_setTile, calm_modCore]
theorem calm_logTile (h : Calm r s) (core rgi : Nat) (lost : List Nat) : Calm r (State.logTile s core rgi lost) := by
  grind [State.logTile, calm_foldl, calm_logCore]
theorem calm_execCvdecl (h : Calm r s) (hw : Head) (c n : Reg) : CalmOut r (execCvdecl hw c n s) := by
  grind [CalmOut, execCvdecl, calm_issueWord, calm_finish, calm_stallTag, calm_waitFor, calm_modGroup]
theorem calm_leaveRound (h : Calm r s) (job : MmaJob) : Calm r (State.leaveRound s job) := by
  grind [State.leaveRound, calm_foldl, calm_modFibre]
theorem calm_enterRound (h : Calm r s) (grp core c : Nat) (make : List (Nat × Nat) → MmaJob) : Calm r
    (State.enterRound s grp core c make) := by
  grind [State.enterRound, calm_modGroup, calm_modCore, calm_leaveRound]
theorem calm_execMma (h : Calm r s) (hw : Head) (d a b c : Reg) (sc s32 fr spSrc reuse x : Bool) (fmt : Fmt) (hreg : Reg)
    (hd : Bool) (ssel : BitVec 2) (sreg : Reg) : CalmOut r
    (execMma hw d a b c sc s32 fr spSrc reuse x fmt hreg hd ssel sreg s) := by
  grind [CalmOut, execMma, calm_issueWord, calm_finish, calm_stallTag, calm_userTrap, calm_waitFor, calm_launchOp, calm_beginWait,
      calm_modGroup, calm_enterRound]
theorem calm_keepEntry (h : Calm r s) (j : MmaJob) : Calm r (State.keepEntry s j) := by
  grind [State.keepEntry, calm_modOq]
theorem calm_logSubst (h : Calm r s) (core rgi : Nat) (a : List (Nat × Nat × Nat × Nat)) (aUnit : Nat) (b : List (Nat × Nat × Nat))
    (bUnit : Nat) (index : Nat → Nat) : Calm r (State.logSubst s core rgi a aUnit b bUnit index) := by
  grind [State.logSubst, calm_foldl, calm_logCore]
theorem calm_operandB (h : Calm r s) {j : MmaJob} {st rec bad ix} (e : State.operandB s j = .got st rec bad ix t) : Calm r t := by
  unfold State.operandB at e
  dsimp only at e
  split_ifs at e
  · split at e
    · cases e
    · split_ifs at e
      split at e
      · next hr =>
        cases e
        exact calm_snd (calm_readBlank h ..) hr
      · cases e
  · grind [calm_modOq]
theorem calm_compute (h : Calm r s) (core : Nat) (j : MmaJob) (b : BSource)
    (hb : ∀ st rec bad ix u, b = .got st rec bad ix u → Calm r u) : Calm r (State.compute s core j b).1 := by
  unfold State.compute
  dsimp only
  split
  · exact calm_modGroup (calm_foldl (fun u x hu => calm_opt hu fun hu => calm_modFibre hu ..) _ _ h) ..
  · exact calm_modGroup (calm_foldl (fun u x hu => calm_opt hu fun hu => calm_modFibre hu ..) _ _ h) ..
  · next st rec bad ix u =>
    have hu := hb st rec bad ix u rfl
    split
    · exact calm_of_eq hu rfl rfl
    · refine calm_foldl (fun u x hu => calm_opt hu fun hu => calm_modFibre hu ..) _ _ ?_
      refine calm_logTile ?_ ..
      refine calm_logSubst ?_ ..
      refine calm_setTile ?_ ..
      exact calm_of_eq hu rfl rfl
theorem calm_execMmaStart (h : Calm r s) (core : Nat) : CalmOut r (execMmaStart core s) := by
  rintro _ ⟨⟩
  split
  · exact h
  · refine calm_ite h ?_
    split
    · exact calm_keepEntry h ..
    · refine calm_leaveRound (calm_modCore (calm_compute h _ _ _ fun st rec bad ix u hu => ?_) ..) ..
      exact calm_operandB h hu
theorem calm_execMmaComplete (h : Calm r s) (core : Nat) : CalmOut r (execMmaComplete core s) := by
  grind [CalmOut, execMmaComplete, calm_foldl, calm_finishOp, calm_modCore]
theorem calm_accWord (h : Calm r s) (k : Nat) (f : Fibre) (f' : Fibre) (i : Instr) (w : AccWork) : Calm r
    (State.accWord s k f f' i w) := by
  grind [State.accWord, calm_launchOp, calm_finish]
theorem calm_execAccz (h : Calm r s) (hw : Head) (d : Reg) : CalmOut r (execAccz hw d s) := by
  grind [CalmOut, execAccz, calm_issueWord, calm_finish, calm_stallTag, calm_waitFor, calm_accWord]
theorem calm_execAccld (h : Calm r s) (hw : Head) (d a : Reg) (spc : Space) : CalmOut r (execAccld hw d a spc s) := by
  grind [CalmOut, execAccld, calm_issueWord, calm_finish, calm_stallTag, calm_waitFor, calm_accWord]
theorem calm_execAccst (h : Calm r s) (hw : Head) (d a b : Reg) (rnd : Rnd) (spc : Space) (adj : Bool) (fmt : Fmt) : CalmOut r
    (execAccst hw d a b rnd spc adj fmt s) := by
  grind [CalmOut, execAccst, calm_issueWord, calm_finish, calm_stallTag, calm_waitFor, calm_withNoise, calm_accWord]
theorem calm_execAccrd (h : Calm r s) (hw : Head) (d a b : Reg) : CalmOut r (execAccrd hw d a b s) := by
  grind [CalmOut, execAccrd, calm_issueWord, calm_launchOp, calm_finish]
theorem calm_rangeFault (h : Calm r s) (f : Fibre) (spc : Space) (acc : Acc) (x0 x1 x2 : Nat) : Calm r
    (State.rangeFault s f spc acc x0 x1 x2).2 := by
  (fun_induction State.rangeFault s f spc acc x0 x1 x2 <;> grind [calm_findNow, Calm])
theorem calm_partsFault (h : Calm r s) (f : Fibre) (spc : Space) (acc : Acc) (x0 : List (Nat × Nat)) : Calm r
    (State.partsFault s f spc acc x0).2 := by
  (fun_induction State.partsFault s f spc acc x0 <;> grind [calm_rangeFault, Calm])
theorem calm_partsAtHand (h : Calm r s) (id : Nat) (f : Fibre) (spc : Space) (write : Bool) (x0 : List (Nat × List Byte)) : Calm r
    (State.partsAtHand s id f spc write x0).2 := by
  (fun_induction State.partsAtHand s id f spc write x0 <;> grind [calm_atHand])
theorem calm_moveRows (h : Calm r s) (o : Op) (f : Fibre) (core x0 : Nat) (x1 : Access) : Calm r
    (State.moveRows s o f core x0 x1).2 := by
  (fun_induction State.moveRows s o f core x0 x1 <;> grind [calm_modOp, calm_partsAtHand, calm_partsFault, calm_setTile,
      calm_recordFault, calm_engineRead, calm_watchOp, calm_setTileRow, calm_foldl, calm_engineWrite, calm_logTile, calm_modFibre,
      Calm])
theorem calm_moveTile (h : Calm r s) (o : Op) (f : Fibre) (core : Nat) (a : Access) : Calm r (State.moveTile s o f core a).2 := by
  grind [State.moveTile, calm_recordFault, calm_moveRows]
theorem calm_execAccTransferComplete (h : Calm r s) (op : Nat) : CalmOut r (execAccTransferComplete op s) := by
  rintro _ ⟨⟩
  split
  · exact h
  · split
    · dsimp only
      refine calm_ite h ?_
      split
      · exact calm_finishOp (calm_setTile h ..) ..
      · refine calm_finishOp ?_ ..
        split
        · exact calm_ite (calm_ite (calm_logTile h ..) (calm_modFibre (calm_logTile h ..) ..))
            (calm_modFibre (calm_ite (calm_logTile h ..) (calm_modFibre (calm_logTile h ..) ..)) ..)
        · exact calm_ite (calm_logTile h ..) (calm_modFibre (calm_logTile h ..) ..)
      · refine calm_ite h ?_
        split
        · next hm => exact calm_finishOp (calm_snd (calm_moveTile h ..) hm) ..
        · next hm => exact calm_snd (calm_moveTile h ..) hm
    · exact h

/-! ## Machine/QueueWords -/

theorem calm_queueTrap (h : Calm r s) (k : Nat) (f : Fibre) (i : Instr) (q : Nat) : Calm r (State.queueTrap s k f i q) := by
  grind [State.queueTrap, calm_userTrap]
theorem calm_holdOr (h : Calm r s) (k : Nat) (f : Fibre) (i : Instr) (e : HeldEff) (now : State) (hn : Calm r now) :
    Calm r (State.holdOr s k f i e now) := by
  unfold State.holdOr
  refine calm_ite (calm_finish h ..) (calm_ite ?_ hn)
  split
  · exact calm_finish h ..
  · exact calm_stallTag h ..
theorem calm_execQpush (h : Calm r s) (hw : Head) (d a b : Reg) (prio : BitVec 8) (t0 : Bool) (n : BitVec 3) : CalmOut r
    (execQpush hw d a b prio t0 n s) := by
  unfold execQpush
  split <;> grind [CalmOut, calm_issueWord, calm_queueTrap, calm_finish, calm_waitFor, calm_stallTag, calm_foldl, calm_joinSet,
      calm_modQueue, calm_countSent, calm_sendMsg, Calm]
theorem calm_execQpop (h : Calm r s) (hw : Head) (d a : Reg) (n : BitVec 3) : CalmOut r (execQpop hw d a n s) := by
  grind [CalmOut, execQpop, calm_issueWord, calm_queueTrap, calm_finish, calm_modQueue, calm_beginWait]
theorem calm_popLook (h : Calm r s) (k : Nat) (f : Fibre) (job num : Nat) : Calm r (State.popLook s k f job num).2 := by
  grind [State.popLook, calm_dropDenied, calm_foldl, calm_joinSet]
theorem calm_execQpeek (h : Calm r s) (hw : Head) (d a c : Reg) (n : BitVec 3) : CalmOut r (execQpeek hw d a c n s) := by
  grind [CalmOut, execQpeek, calm_issueWord, calm_queueTrap, calm_finish, calm_modQueue, calm_popLook, calm_waitFor, calm_stallTag,
      calm_setFibre]
theorem calm_execQcnt (h : Calm r s) (hw : Head) (d a : Reg) : CalmOut r (execQcnt hw d a s) := by
  grind [CalmOut, execQcnt, calm_issueWord, calm_queueTrap, calm_finish]
theorem calm_execDcarm (h : Calm r s) (hw : Head) (a b c q : Reg) : CalmOut r (execDcarm hw a b c q s) := by
  grind [CalmOut, execDcarm, calm_issueWord, calm_holdOr, calm_sendMsg, calm_finish]
theorem calm_execDcdec (h : Calm r s) (hw : Head) (a : Reg) : CalmOut r (execDcdec hw a s) := by
  grind [CalmOut, execDcdec, calm_issueWord, calm_holdOr, calm_sendMsg, calm_finish]
theorem calm_execTrig (h : Calm r s) (hw : Head) : CalmOut r (execTrig hw s) := by
  grind [CalmOut, execTrig, calm_issueWord, calm_finish, calm_holdOr, calm_waitFor, calm_publish]
theorem calm_execDwait (h : Calm r s) (hw : Head) (d : Reg) : CalmOut r (execDwait hw d s) := by
  grind [CalmOut, execDwait, calm_issueWord, calm_finish, calm_waitFor]
theorem calm_execBeat (h : Calm r s) (hw : Head) : CalmOut r (execBeat hw s) := by
  grind [CalmOut, execBeat, calm_issueWord, calm_modGroup, calm_finish]
theorem calm_execEvpost (h : Calm r s) (hw : Head) (a : Reg) : CalmOut r (execEvpost hw a s) := by
  grind [CalmOut, execEvpost, calm_issueWord, calm_holdOr, calm_postFibre, calm_finish, calm_modCluster, calm_waitFor]
theorem calm_execEvpop (h : Calm r s) (hw : Head) (d : Reg) (nb : Bool) : CalmOut r (execEvpop hw d nb s) := by
  grind [CalmOut, execEvpop, calm_issueWord, calm_modCluster, calm_finish, calm_waitFor]
theorem calm_execQueueEntryArrive (h : Calm r s) (msg : Nat) : CalmOut r (execQueueEntryArrive msg s) := by
  unfold execQueueEntryArrive
  split <;> grind [CalmOut, calm_countRecvd, calm_modQueue, calm_releaseEntry, calm_dropMsg, calm_pushAway, Calm]
theorem calm_givePop (h : Calm r s) (k : Nat) (f : Fibre) (job num n d i : Nat) (e : QEntry) (t0 : List (BitVec 32 × Nat)) : Calm r
    (State.givePop s k f job num n d i e t0) := by
  grind [State.givePop, calm_setFibre, calm_modQueue, calm_modFibre, calm_popEntry, calm_fresh]
theorem calm_execQpopReturn (h : Calm r s) (fib : Nat) : CalmOut r (execQpopReturn fib s) := by
  unfold execQpopReturn
  split <;> grind [CalmOut, calm_modFibre, calm_popLook, calm_setFibre, calm_givePop, Calm]
theorem calm_execDcarmArrive (h : Calm r s) (msg : Nat) : CalmOut r (execDcarmArrive msg s) := by
  grind [CalmOut, execDcarmArrive, calm_counterWord, calm_armCounter]
theorem calm_execDcdecArrive (h : Calm r s) (msg : Nat) : CalmOut r (execDcdecArrive msg s) := by
  grind [CalmOut, execDcdecArrive, calm_counterWord, calm_decCounter]
theorem calm_execQueueCreditGrant (h : Calm r s) (job queue die n : Nat) : CalmOut r (execQueueCreditGrant job queue die n s) := by
  grind [CalmOut, execQueueCreditGrant, calm_modQueue]
theorem calm_execQueueCreditReturn (h : Calm r s) (job queue die n : Nat) : CalmOut r
    (execQueueCreditReturn job queue die n s) := by
  grind [CalmOut, execQueueCreditReturn, calm_modQueue]
theorem calm_execQueueDeadlock (h : Calm r s) (job queue : Nat) : CalmOut r (execQueueDeadlock job queue s) := by
  grind [CalmOut, execQueueDeadlock, calm_postHw]
theorem calm_execQuiescenceRound (h : Calm r s) (job : Nat) : CalmOut r (execQuiescenceRound job s) := by
  grind [CalmOut, execQuiescenceRound, calm_modJob, calm_postHw]
theorem calm_execWatchdogTest (h : Calm r s) (job : Nat) : CalmOut r (execWatchdogTest job s) := by
  grind [CalmOut, execWatchdogTest, calm_modJob, calm_faultJob]
theorem calm_execCevdropClear (h : Calm r s) (cluster : Nat) : CalmOut r (execCevdropClear cluster s) := by
  grind [CalmOut, execCevdropClear, calm_modCluster]

/-! ## Machine/AssumeWords -/

theorem calm_guessLoad (h : Calm r s) (k : Nat) (i : Instr) (f : Fibre) (d : Nat) (wide : Bool) (p : Option Place) : Calm r
    (State.guessLoad s k i f d wide p) := by
  grind [State.guessLoad, calm_waitFor, calm_setFibre, calm_issueAccess, calm_recordFault, calm_finishNow]
theorem calm_mint (h : Calm r s) (k : Nat) (i : Instr) (f : Fibre) (slot : Nat) (x : AidSlot) (aidReg : Option Nat) (d : Nat) :
    Calm r (State.mint s k i f slot x aidReg d) := by
  unfold State.mint
  split <;> grind [calm_modDie, calm_finish, Calm]
theorem calm_execGuess (h : Calm r s) (hw : Head) (d a b c : Reg) (ty : Ty) (aidReg : Reg) (aid loc imm sw : Bool) : CalmOut r
    (execGuess hw d a b c ty aidReg aid loc imm sw s) := by
  grind [CalmOut, execGuess, calm_issueWord, calm_watch, calm_finish, calm_guessLoad, calm_place, calm_stallTag, calm_setFibre,
      calm_mint]
theorem calm_resolveWord (h : Calm r s) (k : Nat) (f : Fibre) (i : Instr) (d : Option Nat) (a : BitVec 32) (r0 : Resolution) :
    Calm r (State.resolveWord s k f i d a r0) := by
  unfold State.resolveWord
  split <;> grind [calm_finish, calm_launchOp, calm_stallTag, calm_sendResolution, Calm]
theorem calm_execAffirm (h : Calm r s) (hw : Head) (d a : Reg) (hd : Bool) : CalmOut r (execAffirm hw d a hd s) := by
  grind [CalmOut, execAffirm, calm_issueWord, calm_resolveWord]
theorem calm_execDeny (h : Calm r s) (hw : Head) (d a b : Reg) (ty : Ty) (hd : Bool) : CalmOut r (execDeny hw d a b ty hd s) := by
  grind [CalmOut, execDeny, calm_issueWord, calm_resolveWord]
theorem calm_execTagq (h : Calm r s) (hw : Head) (d a : Reg) (idx : BitVec 2) (mode : TagqMode) : CalmOut r
    (execTagq hw d a idx mode s) := by
  grind [CalmOut, execTagq, calm_issueWord, calm_finish, calm_waitFor]
theorem calm_execWatchedOpResolve (h : Calm r s) (die slot : Nat) : CalmOut r (execWatchedOpResolve die slot s) := by
  have settle : ∀ (c : Prop) [Decidable c] (u : State) (a : BitVec 32) (v : DWord), Calm r u →
      Calm r (if c then u.settleSlot a .affirm none else u.settleSlot a (.deny v) (some v)) := fun c _ u a v hu =>
    calm_ite (calm_settleSlot hu ..) (calm_settleSlot hu ..)
  have fail : ∀ (u : State) (a : BitVec 32), Calm r u → Calm r (u.settleSlot a .withdraw none)
      := fun u a hu => calm_settleSlot hu ..
  rintro _ ⟨⟩
  split
  · exact h
  · split
    · refine calm_ite h ?_
      split
      · exact settle _ _ _ _ h
      · exact fail _ _ h
      · exact fail _ _ h
      · refine calm_ite h (calm_ite (fail _ _ h) (calm_ite ?_ (calm_ite h ?_)))
        · split
          · exact calm_ite (fail _ _ h) (settle _ _ _ _ h)
          · exact fail _ _ h
        · split
          · next hf => exact calm_ite (fail _ _ (calm_snd (calm_findNow h ..) hf)) (settle _ _ _ _ (calm_snd (calm_findNow h ..)
              hf))
          · next hf =>
            have hu := calm_fresh (calm_snd (calm_findNow h ..) hf)
            split
            next id u he =>
            have hu := calm_snd hu he
            split
            · next hs => exact fail _ _ (calm_snd (calm_send hu ..) hs)
            · next hs => exact calm_modSlot (calm_addOp (calm_snd (calm_send hu ..) hs) _) ..
          · next hf => exact fail _ _ (calm_snd (calm_findNow h ..) hf)
    · exact h
theorem calm_execResolutionAtHome (h : Calm r s) (msg : Nat) : CalmOut r (execResolutionAtHome msg s) := by
  unfold execResolutionAtHome
  split <;> grind [CalmOut, calm_resolveHome, calm_finishOp, calm_dropMsg, Calm]
theorem calm_ackSlot (h : Calm r s) (die : Nat) (a : BitVec 32) : Calm r (State.ackSlot s die a) := by
  grind [State.ackSlot, calm_modSlot]
theorem calm_execAffirmApply (h : Calm r s) (die : Nat) (aid : BitVec 32) : CalmOut r (execAffirmApply die aid s) := by
  grind [CalmOut, execAffirmApply, calm_applyAffirm, calm_ackSlot]
theorem calm_execDenyApply (h : Calm r s) (die : Nat) (aid : BitVec 32) : CalmOut r (execDenyApply die aid s) := by
  grind [CalmOut, execDenyApply, calm_applyDeny, calm_ackSlot]
theorem calm_execResolutionAck (h : Calm r s) (die : Nat) (aid : BitVec 32) : CalmOut r (execResolutionAck die aid s) := by
  grind [CalmOut, execResolutionAck, calm_modSlot]
theorem calm_execCheckpointSpillComplete (h : Calm r s) (fib : Nat) : CalmOut r (execCheckpointSpillComplete fib s) := by
  grind [CalmOut, execCheckpointSpillComplete, calm_storeCkpt, calm_setFibre]

/-! ## Machine/FabricWords -/

theorem calm_fabWord (h : Calm r s) (k : Nat) (f : Fibre) (i : Instr) (d : Reg) (lh : Option Nat) (held waits : Bool)
    (make : Option Nat → FabOp) : Calm r (State.fabWord s k f i d lh held waits make) := by
  unfold State.fabWord
  split <;> grind [calm_finish, calm_stallTag, calm_waitFor, calm_launchOp, calm_startFab, Calm]
theorem calm_execPuts (h : Calm r s) (hw : Head) (d a b c lh : Reg) (lhd addSig sig : Bool) (spc : Space) : CalmOut r
    (execPuts hw d a b c lh lhd addSig sig spc s) := by
  grind [CalmOut, execPuts, calm_issueWord, calm_fabWord, calm_place]
theorem calm_execGet (h : Calm r s) (hw : Head) (d a b c : Reg) (bar : Bool) (spc : Space) : CalmOut r
    (execGet hw d a b c bar spc s) := by
  grind [CalmOut, execGet, calm_issueWord, calm_fabWord, calm_place]
theorem calm_execRadd (h : Calm r s) (hw : Head) (d a b c : Reg) (ty : Ty) (lh : Reg) (lhd : Bool) (spc : Space) : CalmOut r
    (execRadd hw d a b c ty lh lhd spc s) := by
  grind [CalmOut, execRadd, calm_issueWord, calm_fabWord, calm_place]
theorem calm_execAnnounce (h : Calm r s) (hw : Head) (d a b c : Reg) (spc : Space) : CalmOut r (execAnnounce hw d a b c spc s) := by
  grind [CalmOut, execAnnounce, calm_issueWord, calm_fabWord, calm_place]
theorem calm_setStore (h : Calm r s) (r0 : Nat) (l : List StoredTile) : Calm r (State.setStore s r0 l) := by
  grind [State.setStore, calm_modPkg, calm_modDie, calm_store]
theorem calm_setCrumbs (h : Calm r s) (r0 : Nat) (l : List Crumb) : Calm r (State.setCrumbs s r0 l) := by
  grind [State.setCrumbs, calm_modPkg, calm_modDie]
theorem calm_keepTile (h : Calm r s) (r0 : Nat) (t0 : StoredTile) (always : Bool) : Calm r (State.keepTile s r0 t0 always) := by
  grind [State.keepTile, calm_setStore]
theorem calm_wantTile (h : Calm r s) (op : Nat) (t0 : TileMsg) : Calm r (State.wantTile s op t0) := by
  grind [State.wantTile, calm_finishFab, calm_modOp]
theorem calm_keepOnWay (h : Calm r s) (r0 : Nat) (t0 : TileMsg) : Calm r (State.keepOnWay s r0 t0) := by
  grind [State.keepOnWay, calm_keepTile]
theorem calm_tileTo (h : Calm r s) (t0 : TileMsg) (x0 x1 : Nat) (x2 : List (FaceTo × Nat)) : Calm r
    (State.tileTo s t0 x0 x1 x2) := by
  (fun_induction State.tileTo s t0 x0 x1 x2 <;> grind [calm_foldl, calm_wantTile, calm_sendNamed, calm_keepOnWay, calm_setCrumbs,
      Calm])
theorem calm_tileAt (h : Calm r s) (r0 : Nat) (t0 : TileMsg) : Calm r (State.tileAt s r0 t0) := by
  grind [State.tileAt, calm_keepOnWay, calm_setCrumbs, calm_tileTo]
theorem calm_setOut (h : Calm r s) (r0 : Nat) (i : Interest) (out : Option Interest) : Calm r (State.setOut s r0 i out) := by
  grind [State.setOut, calm_setCrumbs]
theorem calm_sendOn (h : Calm r s) (next : State → Nat → Interest → Went) (rt : Nat) (i : Interest)
    (hn : ∀ q j u, next s q j = .to u → Calm r u) (e : State.sendOn s next rt i = .to t) : Calm r t := by
  unfold State.sendOn at e
  split at e
  · cases e
    exact h
  · dsimp only at e
    split_ifs at e
    cases e
    exact calm_sendNamed h ..
  · split at e
    · cases e
      exact calm_setOut h ..
    · exact hn _ _ _ e
  · cases e
theorem calm_interestAt (h : Calm r s) (n rt : Nat) (i : Interest) (e : State.interestAt s n rt i = .to t) : Calm r t := by
  induction n generalizing s rt i t with
  | zero =>
    cases e
    exact h
  | succ n ih =>
    have on : ∀ {s t : State}, Calm r s → s.sendOn (fun s q j => State.interestAt s n q j) rt i = .to t → Calm r t :=
      fun hs e => calm_sendOn hs _ _ _ (fun q j u hu => ih hs q j hu) e
    unfold State.interestAt at e
    dsimp only at e
    split at e
    · cases e
      exact calm_tileTo (calm_setStore h ..) ..
    · cases e
      exact calm_tileTo h ..
    · split_ifs at e
      · cases e
        exact calm_setCrumbs h ..
      · cases e
        exact calm_setOut (calm_setCrumbs h ..) ..
      · exact on (calm_setCrumbs h ..) e
    · exact on (calm_setCrumbs h ..) e
    · cases e
theorem calm_retryInterest (h : Calm r s) (rt job : Nat) (name : DWord) : Calm r (State.retryInterest s rt job name) := by
  unfold State.retryInterest
  split
  · split
    · split
      · next hw => exact calm_sendOn (calm_setOut h ..) _ _ _ (fun q j u hu => calm_interestAt (calm_setOut h ..) _ _ _ hu) hw
      · exact h
    · exact h
  · exact h
theorem calm_execWant (h : Calm r s) (hw : Head) (d a b c : Reg) (spc : Space) (life : BitVec 4) : CalmOut r
    (execWant hw d a b c spc life s) := by
  grind [CalmOut, execWant, calm_issueWord, calm_place, calm_finish, calm_waitFor, calm_launchOp, calm_startFab, calm_finishFab]
theorem calm_execInterestArrive (h : Calm r s) (port : Nat) (face : Interest) : CalmOut r (execInterestArrive port face s) := by
  rintro _ ⟨⟩
  split
  · split
    · split
      · refine calm_ite h ?_
        dsimp only
        split
        · next hw => exact calm_interestAt (calm_modOp h ..) _ _ _ hw
        · exact h
        · exact calm_finishFab h ..
      · exact h
    · exact h
  · refine calm_ite ?_ (calm_retryInterest h ..)
    split
    · next hw => exact calm_interestAt h _ _ _ hw
    · exact h
theorem calm_execTileReturn (h : Calm r s) (port : Nat) (tile : TileMsg) : CalmOut r (execTileReturn port tile s) := by
  grind [CalmOut, execTileReturn, calm_tileAt]
theorem calm_execFaceDeadline (h : Calm r s) (port : Nat) (face : Interest) : CalmOut r (execFaceDeadline port face s) := by
  unfold execFaceDeadline
  split <;> grind [CalmOut, calm_setCrumbs, calm_wantTile, Calm]
theorem calm_readSignal (h : Calm r s) (f : Fibre) (addr : DWord) : Calm r (State.readSignal s f addr).2 := by
  grind [State.readSignal, calm_findNow]
theorem calm_execSigwt (h : Calm r s) (hw : Head) (d a b c p : Reg) (cond : SigCond) : CalmOut r
    (execSigwt hw d a b c p cond s) := by
  grind [CalmOut, execSigwt, calm_issueWord, calm_finish, calm_waitFor, calm_beginWait]
theorem calm_lookSignal (h : Calm r s) (k : Nat) (f : Fibre) (addr : DWord) (cond : SigCond) (x : DWord) (d p : Nat)
    (late : Bool) : Calm r (State.lookSignal s k f addr cond x d p late) := by
  unfold State.lookSignal
  dsimp only
  (repeat' split) <;> grind [calm_modFibre, calm_recordFault, calm_dropOp, calm_readSignal, calm_fresh, calm_send, calm_addOp, Calm]
theorem calm_execSigwtRecheck (h : Calm r s) (fib : Nat) : CalmOut r (execSigwtRecheck fib s) := by
  grind [CalmOut, execSigwtRecheck, calm_lookSignal]
theorem calm_execSigwtTimeout (h : Calm r s) (fib : Nat) : CalmOut r (execSigwtTimeout fib s) := by
  grind [CalmOut, execSigwtTimeout, calm_lookSignal]
theorem calm_announceTile (h : Calm r s) (o : Op) (f : Fibre) (src : Place) (name : DWord) (len : Nat) :
    Calm r (State.announceTile s o f src name len) := by
  unfold State.announceTile
  dsimp only
  refine calm_ite (calm_finishFab h ..) (calm_ite (calm_atHand h ..) ?_)
  split
  · next he => exact calm_finishFab (calm_snd (calm_engineRead (calm_atHand h ..) ..) he) ..
  · next he =>
    refine calm_finishFab (calm_publish (calm_foldl (fun s c hs => calm_tileTo hs ..) _ _ (calm_tileTo (calm_setCrumbs
        (calm_keepTile
      (calm_watchOp (calm_snd (calm_engineRead (calm_atHand h ..) ..) he) ..) ..) ..) ..)) ..) ..
theorem calm_requestGet (h : Calm r s) (o : Op) (f : Fibre) (x : FabOp) (dst : Place) (src : DWord) (len : Nat)
    (bar : Option Nat) : Calm r (State.requestGet s o f x dst src len bar) := by
  grind [State.requestGet, calm_modOp, calm_sendAll, calm_endGet]
theorem calm_execLocalCompletion (h : Calm r s) (op : Nat) : CalmOut r (execLocalCompletion op s) := by
  grind [CalmOut, execLocalCompletion, calm_localPuts, calm_localRadd, calm_requestGet, calm_announceTile]
theorem calm_landFab (h : Calm r s) (o : Op) (f : Fibre) (x : FabOp) (pos : Nat) (sent : List Nat) (bs : List Byte) (st : Status) :
    Calm r (State.landFab s o f x pos sent bs st) := by
  unfold State.landFab
  dsimp only
  (repeat' split) <;> grind [calm_modOp, calm_endPuts, calm_engineWrite, calm_finishFab, calm_raddHere, calm_endGet,
      calm_engineRead, calm_watchOp, calm_modFibre, Calm]
theorem calm_execCopyPieceLand (h : Calm r s) (op : Nat) : CalmOut r (execCopyPieceLand op s) := by
  grind [CalmOut, execCopyPieceLand, calm_landCopy, calm_landFab]
theorem calm_execGathRowArrival (h : Calm r s) (op row : Nat) : CalmOut r (execGathRowArrival op row s) := by
  grind [CalmOut, execGathRowArrival, calm_landRow]

end Sys2Proof.Form

/-! SUPPORT. The clk and the form of memory through traps, debugging, the dies, placement and the host. -/

namespace Sys2Proof.Form
set_option Elab.async false
open Sys2Proof Sys2Proof.Machine

variable {r s t : State}

/-! ## Machine/TrapWords -/

theorem calm_execSysc (h : Calm r s) (hw : Head) (n : Reg) : CalmOut r (execSysc hw n s) := by
  grind [CalmOut, execSysc, calm_issueWord, calm_barTrap, calm_setFibre, calm_noteIssue, calm_systemTrap]
theorem calm_reissue (h : Calm r s) (k : Nat) : Calm r (State.reissue s k) := by
  grind [State.reissue, calm_foldl, calm_fresh, calm_addOp, calm_issueAccess, calm_setFibre]
theorem calm_userReturn (h : Calm r s) (k : Nat) (i : Instr) (f : Fibre) (r0 : TrapReturn) (norep : Bool) (mode : RftMode)
    (dest : DWord) : Calm r (State.userReturn s k i f r0 norep mode dest) := by
  unfold State.userReturn
  split <;> grind [calm_report, calm_endFibre, calm_setFibre, calm_noteIssue, calm_faultJob, calm_reissue, Calm]
theorem calm_resumeTarget (h : Calm r s) (t0 : Nat) : Calm r (State.resumeTarget s t0) := by
  grind [State.resumeTarget, calm_modFibre, calm_foldl, calm_postFibre]
theorem calm_handlerReturn (h : Calm r s) (t0 : Nat) (f : Fibre) (norep : Bool) (mode : RftMode) (dest : DWord) : Calm r
    (State.handlerReturn s t0 f norep mode dest).1 := by
  unfold State.handlerReturn
  split <;> grind [calm_endFibre, calm_abandonAll, calm_modFibre, calm_faultJob, calm_setFibre, calm_resumeTarget, calm_reissue,
      Calm]
theorem calm_pacerReturn (h : Calm r s) (g : Nat) (mode : RftMode) : Calm r (State.pacerReturn s g mode) := by
  grind [State.pacerReturn, calm_modGroup, calm_modFibre, calm_sliceFault]
theorem calm_execRft (h : Calm r s) (hw : Head) (a : Reg) (norep : Bool) (mode : RftMode) : CalmOut r
    (execRft hw a norep mode s) := by
  unfold execRft
  dsimp only
  grind [CalmOut, calm_issueWord, calm_userTrap, calm_finish, calm_modFibre, calm_pacerReturn,
      calm_handlerReturn, calm_endFibre, calm_stallTag, calm_userReturn, Calm]
theorem calm_execReplayComplete (h : Calm r s) (fib : Nat) : CalmOut r (execReplayComplete fib s) := by
  unfold execReplayComplete
  split <;> grind [CalmOut, calm_modFibre, calm_resumeTarget, Calm]
theorem calm_execHandlerTakeRecord (h : Calm r s) (core : Nat) : CalmOut r (execHandlerTakeRecord core s) := by
  grind [CalmOut, execHandlerTakeRecord, calm_modCore, calm_setFibre, Calm]
theorem calm_execAwrd (h : Calm r s) (hw : Head) (d a b c : Reg) : CalmOut r (execAwrd hw d a b c s) := by
  grind [CalmOut, execAwrd, calm_issueWord, calm_finish, calm_waitFor]
theorem calm_windowReg (h : Calm r s) (k : Nat) (f : Fibre) (r0 : Nat) (v : Word) : Calm r (State.windowReg s k f r0 v).1 := by
  grind [State.windowReg, calm_modFibre, Calm]
theorem calm_windowWrite (h : Calm r s) (k : Nat) (f : Fibre) (g : Group) (v : Word) (x0 : Item) :
    ∀ t b, State.windowWrite s k f g v x0 = some (t, b) → Calm r t := by
  unfold State.windowWrite
  split <;> grind [calm_windowReg, calm_setFibre, calm_modGroup, calm_dropCarried, calm_count, calm_store, Calm]
theorem calm_execAwwr (h : Calm r s) (hw : Head) (d a b c : Reg) : CalmOut r (execAwwr hw d a b c s) := by
  grind [CalmOut, execAwwr, calm_issueWord, calm_finish, calm_waitFor, calm_windowWrite]
theorem calm_execHstop (h : Calm r s) (hw : Head) (d a : Reg) (grp : Bool) : CalmOut r (execHstop hw d a grp s) := by
  grind [CalmOut, execHstop, calm_issueWord, calm_launchOp, calm_mapFibres, calm_finish]
theorem calm_execHresume (h : Calm r s) (hw : Head) (a : Reg) (grp : Bool) : CalmOut r (execHresume hw a grp s) := by
  grind [CalmOut, execHresume, calm_issueWord, calm_finish, calm_mapFibres, Calm]

/-! ## Machine/DebugWords -/

theorem calm_execBrkp (h : Calm r s) (hw : Head) (n : BitVec 8) : CalmOut r (execBrkp hw n s) := by
  grind [CalmOut, execBrkp, calm_issueWord, calm_finish, calm_debugRecord, calm_setFibre, calm_noteIssue]
theorem calm_execTrace (h : Calm r s) (hw : Head) (a b : Reg) (two : Bool) (id : BitVec 8) : CalmOut r
    (execTrace hw a b two id s) := by
  grind [CalmOut, execTrace, calm_issueWord, calm_finish, calm_debugRecord]
theorem calm_execMark (h : Calm r s) (hw : Head) (m : BitVec 13) : CalmOut r (execMark hw m s) := by
  grind [CalmOut, execMark, calm_issueWord, calm_finish, calm_debugRecord]
theorem calm_commandDone (h : Calm r s) (core : Nat) (found : Bool) : Calm r (State.commandDone s core found) := by
  grind [State.commandDone, calm_modCore]
theorem calm_execDbgStepFibre (h : Calm r s) (core : Nat) : CalmOut r (execDbgStepFibre core s) := by
  grind [CalmOut, execDbgStepFibre, calm_modFibre, calm_commandDone]
theorem calm_execDbgStopSpan (h : Calm r s) (core : Nat) : CalmOut r (execDbgStopSpan core s) := by
  unfold execDbgStopSpan
  split <;> grind [CalmOut, calm_foldl, calm_modFibre, calm_modCore, calm_commandDone, Calm]
theorem calm_execDbgResumeSpan (h : Calm r s) (core : Nat) : CalmOut r (execDbgResumeSpan core s) := by
  grind [CalmOut, execDbgResumeSpan, calm_modCore, calm_foldl, calm_modFibre, calm_commandDone]
theorem calm_execDbgResumeFibre (h : Calm r s) (core : Nat) : CalmOut r (execDbgResumeFibre core s) := by
  grind [CalmOut, execDbgResumeFibre, calm_modFibre, calm_commandDone]
theorem calm_execDbgTokenVerify (h : Calm r s) : CalmOut r (execDbgTokenVerify s) := by
  grind [CalmOut, execDbgTokenVerify, calm_modPkg]
theorem calm_execDbgTokenResult (h : Calm r s) : CalmOut r (execDbgTokenResult s) := by
  grind [CalmOut, execDbgTokenResult, calm_modPkg, calm_alarm]
theorem calm_execTopdownClear (h : Calm r s) (core : Nat) : CalmOut r (execTopdownClear core s) := by
  grind [CalmOut, execTopdownClear, calm_tdClear]
theorem calm_execTopdownFreeze (h : Calm r s) (core : Nat) (on : Bool) : CalmOut r (execTopdownFreeze core on s) := by
  grind [CalmOut, execTopdownFreeze, calm_tdFreeze]
theorem calm_execNoiseModeDirect (h : Calm r s) (core : Nat) : CalmOut r (execNoiseModeDirect core s) := by
  grind [CalmOut, execNoiseModeDirect, calm_noiseMode]
theorem calm_execNoiseModeLog (h : Calm r s) (core : Nat) : CalmOut r (execNoiseModeLog core s) := by
  grind [CalmOut, execNoiseModeLog, calm_noiseMode]
theorem calm_execNoiseModeReplay (h : Calm r s) (core : Nat) : CalmOut r (execNoiseModeReplay core s) := by
  grind [CalmOut, execNoiseModeReplay, calm_noiseMode]
theorem calm_sample (h : Calm r s) (core : Nat) (still : Option Nat) : Calm r (State.sample s core still) := by
  grind [State.sample, calm_modCore, calm_debugRecord, calm_fresh]
theorem calm_chargeSpan (h : Calm r s) (core n : Nat) (still : Option Nat) : Calm r (State.chargeSpan s core n still) := by
  unfold State.chargeSpan
  dsimp only
  split <;> grind [calm_sample, calm_foldl, calm_charge, calm_modFibre, calm_modCore, Calm]
theorem chargeClks_wf (core : Nat) (held : Option Nat) (fuel n : Nat) (s : State) (w : Memory.wf s.mem = true) :
    Memory.wf (State.chargeClks core held fuel n s).mem = true := by
  induction fuel generalizing n s with
  | zero => exact w
  | succ fuel ih =>
    unfold State.chargeClks
    split
    · exact w
    · exact ih _ _ ((calm_chargeSpan (Calm.refl s) ..).2 w)
theorem calm_chargeCores (h : Calm r s) (l : List Nat) (held : Option Nat) (n : Nat) : Calm r (State.chargeCores s l held n) := by
  unfold State.chargeCores
  refine calm_ite h (calm_foldl (fun s c hs => ?_) _ _ h)
  exact ⟨hs.1, fun w => chargeClks_wf _ _ _ _ _ (hs.2 w)⟩
theorem calm_chargeAll (h : Calm r s) (n : Nat) : Calm r (State.chargeAll s n) := by
  grind [State.chargeAll, calm_chargeCores]
theorem calm_execTraceSample (h : Calm r s) (core : Nat) : CalmOut r (execTraceSample core s) := by
  grind [CalmOut, execTraceSample, calm_sample]

/-! ## Machine/Turn -/

theorem calm_decodeTrap (h : Calm r s) (k : Nat) (f : Fibre) (w0 w1 : Word) (cause : Nat) : Calm r
    (State.decodeTrap s k f w0 w1 cause) := by
  grind [State.decodeTrap, calm_sliceFault, calm_userTrap]
theorem calm_fetchFailed (h : Calm r s) (k : Nat) (f : Fibre) (r0 : Fetched) (a : DWord) (w0 w1 : Word) : Calm r
    (State.fetchFailed s k f r0 a w0 w1) := by
  unfold State.fetchFailed
  split <;> grind [calm_pacerTrap, calm_fetchStop, Calm]
theorem calm_openClause (h : Calm r s) (k : Nat) (f : Fibre) : Calm r (State.openClause s k f).2 := by
  grind [State.openClause, calm_sliceFault, calm_fetchFailed, calm_fetchWord, calm_decodeTrap, calm_waitFor, calm_modFibre]
theorem calm_fetchInstr (h : Calm r s) (f : Fibre) (idx count : Nat) : Calm r (State.fetchInstr s f idx count).2 := by
  grind [State.fetchInstr, calm_fetchWord, calm_count]
theorem calm_debugSite (h : Calm r s) (k : Nat) (f : Fibre) (addr : DWord) : Calm r (State.debugSite s k f addr).2 := by
  grind [State.debugSite, calm_setFibre, calm_debugRecord, calm_askDebug, calm_modFibre]
theorem calm_stopSite (h : Calm r s) (k : Nat) (f : Fibre) (addr : DWord) : Calm r (State.stopSite s k f addr).2 := by
  grind [State.stopSite, calm_debugSite, calm_modFibre, calm_foldl]
theorem calm_prepareRep (h : Calm r s) (k : Nat) (f : Fibre) (hw : Header) (r0 : Raw) (nregs ntiles : Nat) : Calm r
    (State.prepareRep s k f hw r0 nregs ntiles).2 := by
  grind [State.prepareRep, calm_count, calm_decodeTrap, calm_fetchInstr, calm_fetchFailed]
theorem calm_prepareInv (h : Calm r s) (k : Nat) (f : Fibre) (hw : Header) (r0 : Raw) (own : List Nat) (nregs ntiles : Nat) :
    Calm r (State.prepareInv s k f hw r0 own nregs ntiles).2 := by
  grind [State.prepareInv, calm_count, calm_fetchWord, calm_fetchWords, calm_decodeTrap, calm_fetchFailed]
theorem calm_repWord (h : Calm r s) (f : Fibre) : Calm r (State.repWord s f).2 := by
  grind [State.repWord, calm_fetchWord]

/-! ## Machine/Completion -/

theorem calm_execVariableLatencyComplete (h : Calm r s) (op : Nat) : CalmOut r (execVariableLatencyComplete op s) := by
  grind [CalmOut, execVariableLatencyComplete, calm_dropOp, calm_modFibre]
theorem calm_completeAccess (h : Calm r s) (op : Nat) (which : Access → Bool) : Calm r (State.completeAccess s op which) := by
  unfold State.completeAccess
  split <;> grind [calm_arriveAt, calm_dropOp, calm_sliceFault, calm_performAt, calm_modOp, calm_recordFault, Calm]
theorem calm_execLoadDataArrival (h : Calm r s) (op : Nat) : CalmOut r (execLoadDataArrival op s) := by
  grind [CalmOut, execLoadDataArrival, calm_completeAccess]
theorem calm_execStoreAck (h : Calm r s) (op : Nat) : CalmOut r (execStoreAck op s) := by
  grind [CalmOut, execStoreAck, calm_completeAccess]
theorem calm_execScratchpadLoadComplete (h : Calm r s) (op : Nat) : CalmOut r (execScratchpadLoadComplete op s) := by
  grind [CalmOut, execScratchpadLoadComplete, calm_completeAccess]
theorem calm_fillAll (h : Calm r s) (die : Nat) (t0 : Tlb) (ws : List Walk) : Calm r (State.fillAll s die t0 ws) := by
  grind [State.fillAll, calm_foldl, calm_tlbFill, calm_modDie]
theorem calm_execWalkComplete (h : Calm r s) (walk : Nat) : CalmOut r (execWalkComplete walk s) := by
  rintro _ ⟨⟩
  split
  · exact h
  · split
    next res u hm =>
    have hu := calm_snd (calm_missDone h ..) hm
    dsimp only
    split
    · exact calm_foldl (fun s id hs => calm_resolveAccess hs id) _ _ (calm_fillAll (calm_modDie hu ..) ..)
    · refine calm_ite ?_ (calm_mapFibres ?_ _)
      all_goals refine calm_foldl (fun s id hs => ?_) _ _ (calm_modDie hu ..)
      all_goals grind [calm_dropOp, calm_recordFault]
theorem calm_execInstructionFetchError (h : Calm r s) (fib : Nat) (second : Bool) : CalmOut r
    (execInstructionFetchError fib second s) := by
  grind [CalmOut, execInstructionFetchError, calm_modCore, calm_logCore, calm_fetchFailed]
theorem calm_execFibreEnd (h : Calm r s) (fib : Nat) : CalmOut r (execFibreEnd fib s) := by
  grind [CalmOut, execFibreEnd, calm_setFibre, calm_deliver, calm_endFibre]
theorem calm_execGroupResourceRelease (h : Calm r s) (grp : Nat) : CalmOut r (execGroupResourceRelease grp s) := by
  grind [CalmOut, execGroupResourceRelease, calm_freeGroup]
theorem calm_execNapWake (h : Calm r s) (fib : Nat) : CalmOut r (execNapWake fib s) := by
  grind [CalmOut, execNapWake, calm_setFibre]
theorem calm_execSwapOut (h : Calm r s) (grp : Nat) : CalmOut r (execSwapOut grp s) := by
  grind [CalmOut, execSwapOut, calm_leaveActive, calm_swapIn]
theorem calm_rotateOut (h : Calm r s) (core n : Nat) (x0 : List (Nat × Group)) : Calm r (State.rotateOut s core n x0) := by
  (fun_induction State.rotateOut s core n x0 <;> grind [calm_leaveActive])
theorem calm_execForcedRotation (h : Calm r s) (core : Nat) : CalmOut r (execForcedRotation core s) := by
  grind [CalmOut, execForcedRotation, calm_rotateOut, calm_swapIn]

/-! ## Machine/DieEvents -/

theorem calm_execWsPhaseEnter (h : Calm r s) (die : Nat) : CalmOut r (execWsPhaseEnter die s) := by
  grind [CalmOut, execWsPhaseEnter, calm_wsEnter]
theorem calm_execWsPhaseLeave (h : Calm r s) (die : Nat) : CalmOut r (execWsPhaseLeave die s) := by
  grind [CalmOut, execWsPhaseLeave, calm_wsExit]
theorem calm_execWsLoadGo (h : Calm r s) (die : Nat) : CalmOut r (execWsLoadGo die s) := by
  grind [CalmOut, execWsLoadGo, calm_wsGo]
theorem calm_loadGranules (h : Calm r s) (die src dst : Nat) (st : Status) (x0 : Nat) : Calm r
    (State.loadGranules s die src dst st x0).2 := by
  (fun_induction State.loadGranules s die src dst st x0 <;> grind [calm_alarm, calm_store, calm_foldl, calm_poison])
theorem calm_execWsLoadComplete (h : Calm r s) (die : Nat) : CalmOut r (execWsLoadComplete die s) := by
  grind [CalmOut, execWsLoadComplete, calm_loadGranules, calm_modDie]
theorem calm_execWsRefreshStart (h : Calm r s) (die bank : Nat) : CalmOut r (execWsRefreshStart die bank s) := by
  grind [CalmOut, execWsRefreshStart, calm_modDie]
theorem calm_execWsRefreshEnd (h : Calm r s) (die bank : Nat) : CalmOut r (execWsRefreshEnd die bank s) := by
  grind [CalmOut, execWsRefreshEnd, calm_modDie]
theorem calm_scrub (h : Calm r s) (die addr loc unit clu : Nat) (x0 : ScrubErr) : Calm r
    (State.scrub s die addr loc unit clu x0) := by
  unfold State.scrub
  split <;> grind [calm_logDie, calm_poison, Calm]
theorem calm_execWsScrubVisit (h : Calm r s) (die off : Nat) (err : ScrubErr) : CalmOut r (execWsScrubVisit die off err s) := by
  grind [CalmOut, execWsScrubVisit, calm_scrub, calm_modDie]
theorem calm_execDramScrubVisit (h : Calm r s) (granule : Nat) (err : ScrubErr) : CalmOut r (execDramScrubVisit granule err s) := by
  grind [CalmOut, execDramScrubVisit, calm_scrub]
theorem calm_dtinvGo (h : Calm r s) (die scope : Nat) : Calm r (State.dtinvGo s die scope) := by
  grind [State.dtinvGo, calm_modDie, calm_dtinvStart]
theorem calm_execDtinvPage (h : Calm r s) (die : Nat) : CalmOut r (execDtinvPage die s) := by
  grind [CalmOut, execDtinvPage, calm_dtinvGo]
theorem calm_execDtinvJob (h : Calm r s) (die : Nat) : CalmOut r (execDtinvJob die s) := by
  grind [CalmOut, execDtinvJob, calm_dtinvGo]
theorem calm_execDtinvAll (h : Calm r s) (die : Nat) : CalmOut r (execDtinvAll die s) := by
  grind [CalmOut, execDtinvAll, calm_dtinvGo]
theorem calm_execDtinvReservedScope (h : Calm r s) (die : Nat) : CalmOut r (execDtinvReservedScope die s) := by
  grind [CalmOut, execDtinvReservedScope, calm_dtinvGo]
theorem calm_execDtinvComplete (h : Calm r s) (die : Nat) : CalmOut r (execDtinvComplete die s) := by
  grind [CalmOut, execDtinvComplete, calm_modDie]
theorem calm_execCeccClear (h : Calm r s) (core : Nat) : CalmOut r (execCeccClear core s) := by
  grind [CalmOut, execCeccClear, calm_modCore]
theorem calm_execDeccClear (h : Calm r s) (die : Nat) : CalmOut r (execDeccClear die s) := by
  grind [CalmOut, execDeccClear, calm_modDie]
theorem calm_execFpstatReplayClear (h : Calm r s) (port : Nat) : CalmOut r (execFpstatReplayClear port s) := by
  grind [CalmOut, execFpstatReplayClear, calm_modPkg]
theorem calm_execRegisterWrite (h : Calm r s) (off size : Nat) (val : BitVec 64) : CalmOut r
    (execRegisterWrite off size val s) := by
  grind [CalmOut, execRegisterWrite, calm_regWrite]
theorem calm_execDieFatalError (h : Calm r s) (die : Nat) : CalmOut r (execDieFatalError die s) := by
  grind [CalmOut, execDieFatalError, calm_logDie, calm_dieFatal]
theorem calm_execUcieLinkDown (h : Calm r s) (die : Nat) : CalmOut r (execUcieLinkDown die s) := by
  grind [CalmOut, execUcieLinkDown, calm_modPkg, calm_alarm, calm_dieFatal, calm_foldl, calm_dropOp, calm_recordFault]
theorem wf_execPackageReset (h : Memory.wf s.mem = true) (e : execPackageReset s = .next t) : Memory.wf t.mem = true := by
  cases e
  exact h
theorem calm_execSalpolLock (h : Calm r s) : CalmOut r (execSalpolLock s) := by
  grind [CalmOut, execSalpolLock, calm_modPkg]
theorem calm_execVoltageClockGlitch (h : Calm r s) : CalmOut r (execVoltageClockGlitch s) := by
  grind [CalmOut, execVoltageClockGlitch, calm_alarm]
theorem calm_execFuseIntegrityFailure (h : Calm r s) : CalmOut r (execFuseIntegrityFailure s) := by
  grind [CalmOut, execFuseIntegrityFailure, calm_alarm]
theorem calm_execThermalShutdown (h : Calm r s) : CalmOut r (execThermalShutdown s) := by
  intro t e
  unfold execThermalShutdown at e
  rw [← Host.Outcome.next.inj e]
  exact calm_foldl (fun s j hs => calm_faultJob hs ..) _ _ (calm_foldl (fun s d hs => calm_dieFatal hs d) _ _ (calm_alarm h ..))
theorem calm_execLifeCycleAdvance (h : Calm r s) (state : BitVec 2) : CalmOut r (execLifeCycleAdvance state s) := by
  grind [CalmOut, execLifeCycleAdvance, calm_modPkg]

/-! ## Machine/Dispatcher -/

theorem calm_giveCohort (h : Calm r s) (job clu cohort : Nat) (units : List Nat) : Calm r
    (State.giveCohort s job clu cohort units) := by
  grind [State.giveCohort, calm_foldl, calm_store, calm_modJob]
theorem calm_clearPlace (h : Calm r s) (core : Nat) (r0 : Room) : Calm r (State.clearPlace s core r0) := by
  grind [State.clearPlace, calm_foldl, calm_store, calm_modCore]
theorem calm_placeNew (h : Calm r s) (job gid core : Nat) (j : Job) (r0 : Room) : Calm r (State.placeNew s job gid core j r0) := by
  unfold State.placeNew
  refine calm_moveCkpts ?_ ..
  exact calm_of_eq (calm_clearPlace h ..) rfl rfl
theorem calm_reload (h : Calm r s) (gi core : Nat) (old : Group) (r0 : Room) : Calm r (State.reload s gi core old r0) := by
  grind [State.reload, calm_joinTaints, calm_clearPlace, calm_setGroup, calm_modCore, calm_foldl, calm_store, calm_modFibre,
      calm_moveCkpts]
theorem calm_evictFor (h : Calm r s) (job gid slots regs spad tiles prio : Nat) (x0 : List Nat) : Calm r
    (State.evictFor s job gid slots regs spad tiles prio x0) := by
  (fun_induction State.evictFor s job gid slots regs spad tiles prio x0 <;> grind [calm_leaveActive, calm_modGroup, calm_foldl,
      calm_modFibre, calm_swapIn, Calm])
theorem calm_placeFirst (h : Calm r s) (clu : Nat) (x0 : List (Nat × Job)) : Calm r (State.placeFirst s clu x0) := by
  (fun_induction State.placeFirst s clu x0 <;> grind [calm_reload, calm_modCluster, calm_evictFor, calm_modJob, calm_giveCohort,
      calm_placeNew, Calm])
theorem calm_execGroupPlace (h : Calm r s) (cluster : Nat) : CalmOut r (execGroupPlace cluster s) := by
  grind [CalmOut, execGroupPlace, calm_placeFirst]
theorem calm_execCohortRelease (h : Calm r s) (job cohort : Nat) : CalmOut r (execCohortRelease job cohort s) := by
  grind [CalmOut, execCohortRelease, calm_modJob]
theorem calm_execEvictionStopTimeout (h : Calm r s) (grp : Nat) : CalmOut r (execEvictionStopTimeout grp s) := by
  grind [CalmOut, execEvictionStopTimeout, calm_modGroup, calm_foldl, calm_modFibre, calm_swapIn]
theorem calm_execEvictionSave (h : Calm r s) (grp : Nat) : CalmOut r (execEvictionSave grp s) := by
  unfold execEvictionSave
  split <;> grind [CalmOut, calm_joinTaints, calm_loseWalks, calm_writeContext, calm_foldl, calm_setFibre, calm_modGroup,
      calm_swapIn, Calm]

/-! ## Machine/Host -/

theorem calm_modTdi (h : Calm r s) (fn : Nat) (u : Tdi → Tdi) : Calm r (State.modTdi s fn u) := by
  grind [State.modTdi, calm_modPkg]
theorem calm_execLockInterfaceRequest (h : Calm r s) (fn : Nat) : CalmOut r (execLockInterfaceRequest fn s) := by
  grind [CalmOut, execLockInterfaceRequest, calm_modTdi]
theorem calm_execStartInterfaceRequest (h : Calm r s) (fn : Nat) (nonce : BitVec 256) : CalmOut r
    (execStartInterfaceRequest fn nonce s) := by
  grind [CalmOut, execStartInterfaceRequest, calm_modTdi]
theorem calm_execStopInterfaceRequest (h : Calm r s) (fn : Nat) : CalmOut r (execStopInterfaceRequest fn s) := by
  grind [CalmOut, execStopInterfaceRequest, calm_foldl, calm_faultJob, calm_modPkg, calm_modTdi]
theorem calm_execGetDeviceInterfaceReport (h : Calm r s) (fn : Nat) : CalmOut r (execGetDeviceInterfaceReport fn s) := by
  grind [CalmOut, execGetDeviceInterfaceReport, calm_modPkg]
theorem calm_tdiFails (h : Calm r s) (fn : Nat) : Calm r (State.tdiFails s fn) := by
  grind [State.tdiFails, calm_lockedWrite]
theorem calm_execLockedFieldWrite (h : Calm r s) (fn : Nat) : CalmOut r (execLockedFieldWrite fn s) := by
  grind [CalmOut, execLockedFieldWrite, calm_tdiFails]
theorem calm_execIdeIntegrityFailure (h : Calm r s) (fn : Nat) : CalmOut r (execIdeIntegrityFailure fn s) := by
  grind [CalmOut, execIdeIntegrityFailure, calm_tdiFails, calm_alarm]
theorem calm_execFunctionLevelReset (h : Calm r s) (fn : Nat) : CalmOut r (execFunctionLevelReset fn s) := by
  grind [CalmOut, execFunctionLevelReset, calm_tdiFails]
theorem calm_modQueueOf (h : Calm r s) (fn q : Nat) (u : HostQueue → HostQueue) : Calm r (State.modQueueOf s fn q u) := by
  grind [State.modQueueOf, calm_modTdi]
theorem calm_drainCompletions (h : Calm r s) (fn q x0 : Nat) : Calm r (State.drainCompletions s fn q x0) := by
  (fun_induction State.drainCompletions s fn q x0 <;> grind [calm_writeAt, calm_modQueueOf, Calm])
theorem calm_completeCmd (h : Calm r s) (fn q : Nat) (c : HostCmd) (data : Nat) (st : Status) : Calm r
    (State.completeCmd s fn q c data st) := by
  grind [State.completeCmd, calm_modQueueOf, calm_drainCompletions]
theorem calm_takeEntries (h : Calm r s) (fn q x0 : Nat) : Calm r (State.takeEntries s fn q x0) := by
  (fun_induction State.takeEntries s fn q x0 <;> grind [calm_fresh, calm_modQueueOf, Calm])
theorem calm_execHqSqDoorbell (h : Calm r s) (fn queue : Nat) (tail : BitVec 32) : CalmOut r
    (execHqSqDoorbell fn queue tail s) := by
  grind [CalmOut, execHqSqDoorbell, calm_modQueueOf, calm_takeEntries]
theorem calm_execHqCqDoorbell (h : Calm r s) (fn queue : Nat) (head : BitVec 32) : CalmOut r
    (execHqCqDoorbell fn queue head s) := by
  grind [CalmOut, execHqCqDoorbell, calm_modQueueOf, calm_drainCompletions]
theorem calm_setCmd (h : Calm r s) (fn q : Nat) (old new : HostCmd) : Calm r (State.setCmd s fn q old new) := by
  grind [State.setCmd, calm_modQueueOf]
theorem calm_hostFetch (h : Calm r s) (fn addr n : Nat) : Calm r (State.hostFetch s fn addr n).2 := by
  grind [State.hostFetch, calm_alarm]
theorem calm_execLaunch (h : Calm r s) (fn queue : Nat) (idx : BitVec 16) : CalmOut r (execLaunch fn queue idx s) := by
  have table : ∀ {u t : State} (j : Job) (d : Except Status (List Byte)), Calm r u →
      (if j.qcount = 0 then (.ok [], u) else u.hostFetch fn j.qtable.toNat (32 * j.qcount)) = (d, t) → Calm r t := by
    intro u t j d hu e
    split at e
    · exact calm_pair hu e
    · exact calm_snd (calm_hostFetch hu ..) e
  rintro _ ⟨⟩
  split
  · exact h
  · refine calm_ite (calm_completeCmd h ..) ?_
    split
    · next hd => exact calm_completeCmd (calm_snd (calm_hostFetch h ..) hd) ..
    · next hd =>
      have hu := calm_snd (calm_hostFetch h ..) hd
      refine calm_ite (calm_completeCmd hu ..) ?_
      dsimp only
      split
      · next ht => exact calm_completeCmd (table _ _ hu ht) ..
      · next ht =>
        refine calm_ite (calm_completeCmd (table _ _ hu ht) ..) (calm_completeCmd ?_ ..)
        exact calm_of_eq (table _ _ hu ht) rfl rfl
theorem calm_execJobwait (h : Calm r s) (fn queue : Nat) (idx : BitVec 16) : CalmOut r (execJobwait fn queue idx s) := by
  grind [CalmOut, execJobwait, calm_completeCmd, calm_setCmd]
theorem calm_wsloadOn (h : Calm r s) (c : HostCmd) (x0 : Nat) : Calm r (State.wsloadOn s c x0).2 := by
  (fun_induction State.wsloadOn s c x0 <;> grind [calm_wsExit, calm_modDie, calm_wsEnter, calm_wsGo, Calm])
theorem calm_execWsload (h : Calm r s) (fn queue : Nat) (idx : BitVec 16) : CalmOut r (execWsload fn queue idx s) := by
  grind [CalmOut, execWsload, calm_completeCmd, calm_wsloadOn, calm_setCmd]
theorem calm_execHalt (h : Calm r s) (fn queue : Nat) (idx : BitVec 16) : CalmOut r (execHalt fn queue idx s) := by
  unfold execHalt
  split <;> grind [CalmOut, calm_completeCmd, calm_mapFibres, calm_modJob, calm_setCmd, Calm]
theorem calm_execResume (h : Calm r s) (fn queue : Nat) (idx : BitVec 16) : CalmOut r (execResume fn queue idx s) := by
  unfold execResume
  split <;> grind [CalmOut, calm_completeCmd, calm_mapFibres, calm_modJob, Calm]
theorem calm_execKill (h : Calm r s) (fn queue : Nat) (idx : BitVec 16) : CalmOut r (execKill fn queue idx s) := by
  grind [CalmOut, execKill, calm_completeCmd, calm_faultJob]
theorem calm_execUnlistedCommand (h : Calm r s) (fn queue : Nat) (idx : BitVec 16) : CalmOut r
    (execUnlistedCommand fn queue idx s) := by
  grind [CalmOut, execUnlistedCommand, calm_completeCmd]
theorem calm_queueReg (h : Calm r s) (fn q off : Nat) (w : Word) : Calm r (State.queueReg s fn q off w) := by
  unfold State.queueReg
  split_ifs
  · split
    · next he => exact calm_execHqSqDoorbell h _ _ _ _ he
    · exact h
  · split
    · next he => exact calm_execHqCqDoorbell h _ _ _ _ he
    · exact h
  all_goals exact calm_modQueueOf h ..
theorem calm_setBar2 (h : Calm r s) (fn off n v : Nat) : Calm r (State.setBar2 s fn off n v) := by
  grind [State.setBar2, calm_lockedWrite, calm_modTdi]
theorem calm_execHostInboundWrite (h : Calm r s) (fn addr : Nat) (bytes : List Byte) : CalmOut r
    (execHostInboundWrite fn addr bytes s) := by
  grind [CalmOut, execHostInboundWrite, calm_setBar2, calm_lockedWrite, calm_queueReg, calm_regWrite, calm_alarm, calm_hostStore]
theorem calm_execHostInboundRead (h : Calm r s) (fn addr len : Nat) : CalmOut r (execHostInboundRead fn addr len s) := by
  grind [CalmOut, execHostInboundRead, calm_modPkg, calm_alarm, calm_hostLoad]

end Sys2Proof.Form

/-! SUPPORT. The clk and the form of memory through walks, collectives, links, soft errors and a whole step. -/

namespace Sys2Proof.Form
set_option Elab.async false
open Sys2Proof Sys2Proof.Machine

variable {r s t : State}

/-! ## Machine/Walks -/

theorem calm_modWalk (h : Calm r s) (id : Nat) (u : TWalk → TWalk) : Calm r (State.modWalk s id u) := by
  grind [State.modWalk, calm_modPkg]
theorem calm_beginTileWalk (h : Calm r s) (o : Op) (port tag die : Nat) (b : List Byte) : Calm r
    (State.beginTileWalk s o port tag die b) := by
  grind [State.beginTileWalk, calm_finishFab, calm_fresh, calm_modPkg]
theorem calm_wordReads (h : Calm r s) (k : Nat) (agent : Fibre) (addr n : Nat) : Calm r (State.wordReads s k agent addr n).2 := by
  grind [State.wordReads, calm_atHand]
theorem calm_issueFab (h : Calm r s) (k : Nat) (i : Instr) (f : Fibre) (d : Reg) (x : FabOp) (go : State → Op → State)
    (hg : ∀ u o, Calm r u → Calm r (go u o)) : Calm r (State.issueFab s k i f d x go) := by
  have h3 := fun ord => calm_startFab (calm_finish (calm_launchOp (calm_dropCarried h (wordKey k)) k f .fx (some d.toNat)
      (.fab x 0 [] none .ok) ord) k i f
    ((s.dropCarried (wordKey k)).launchOp k f .fx (some d.toNat) (.fab x 0 [] none .ok) ord).2.1)
    ((s.dropCarried (wordKey k)).launchOp k f .fx (some d.toNat) (.fab x 0 [] none .ok) ord).2.1 x
    ((s.dropCarried (wordKey k)).launchOp k f .fx (some d.toNat) (.fab x 0 [] none .ok) ord).1
  unfold State.issueFab
  dsimp only
  split
  · exact calm_ite (h3 _) (hg _ _ (h3 _))
  · exact h3 _
theorem calm_execTwalk (h : Calm r s) (hw : Head) (d a : Reg) (tag port : BitVec 6) : CalmOut r (execTwalk hw d a tag port s) := by
  grind [CalmOut, execTwalk, calm_issueWord, calm_finish, calm_stallTag, calm_waitFor, calm_issueFab, calm_finishFab,
      calm_wordReads, calm_engineRead, calm_beginTileWalk]
theorem calm_stage (h : Calm r s) (w : TWalk) (t0 : Staged) : Calm r (State.stage s w t0) := by
  grind [State.stage, calm_modWalk, calm_setStore]
theorem calm_walkMoved (h : Calm r s) (w : TWalk) : Calm r (State.walkMoved s w) := by
  grind [State.walkMoved, calm_modOp]
theorem calm_watchTile (h : Calm r s) (w : TWalk) (spc : Space) (write : Bool) (rows : List Nat) : Calm r
    (State.watchTile s w spc write rows) := by
  grind [State.watchTile, calm_foldl, calm_watchOp]
theorem calm_readPieces (h : Calm r s) (op : Nat) (f : Fibre) (x0 x1 x2 : Nat) : Calm r (State.readPieces s op f x0 x1 x2).2 := by
  (fun_induction State.readPieces s op f x0 x1 x2 <;> grind [calm_readBlank, Calm])
theorem calm_askRow (h : Calm r s) (w : TWalk) (f : Fibre) (addr pos : Nat) (x0 : List (Nat × Nat)) : Calm r
    (State.askRow s w f addr pos x0).2.2 := by
  (fun_induction State.askRow s w f addr pos x0 <;> grind [calm_send, Calm])
theorem calm_readTile (h : Calm r s) (w : TWalk) (i : Nat) (reserve : Bool) : Calm r (State.readTile s w i reserve) := by
  unfold State.readTile
  dsimp only
  refine calm_watchTile (calm_modWalk (calm_stage ?_ ..) ..) ..
  refine calm_folded (fun x : _ × _ × _ × State => x.2.2.2) (fun acc x hx => ?_) h rfl
  split
  · exact calm_readPieces hx ..
  · exact calm_askRow hx ..
theorem calm_rowInto (h : Calm r s) (g : Group) (off : Nat) (bs : List Byte) : Calm r (State.rowInto s g off bs).2 := by
  unfold State.rowInto
  split
  · exact h
  · show Calm r (Prod.snd (List.foldl _ _ _))
    refine calm_folded (fun x : _ × State => x.2) (fun acc x hx => ?_) h rfl
    exact calm_store hx ..
theorem calm_barInto (h : Calm r s) (g : Group) (off : Nat) (st : Status) : Calm r (State.barInto s g off st).2 := by
  grind [State.barInto, calm_arriveBarrier]
theorem calm_deliverTile (h : Calm r s) (w : TWalk) (e i gi : Nat) (g : Group) (t0 : Staged) : Calm r
    (State.deliverTile s w e i gi g t0) := by
  unfold State.deliverTile
  dsimp only
  refine calm_opt (calm_modWalk (calm_walkMoved (calm_barInto ?_ ..) ..) ..) fun hs => calm_watchTile hs ..
  refine calm_folded (fun x : _ × State => x.2) (fun acc x hx => ?_) h rfl
  exact calm_rowInto hx ..
theorem calm_sendTile (h : Calm r s) (w : TWalk) (e i : Nat) (t0 : Staged) : Calm r (State.sendTile s w e i t0) := by
  unfold State.sendTile
  dsimp only
  refine calm_modWalk (calm_walkMoved ?_ ..) ..
  refine calm_folded (fun x : _ × _ × State => x.2.2) (fun acc x hx => ?_) h rfl
  split <;> exact calm_snd (calm_send hx ..) ‹_›
theorem calm_loadTile (h : Calm r s) (w : TWalk) (e : Nat) : Calm r (State.loadTile s w e) := by
  unfold State.loadTile
  split <;> grind [calm_modWalk, calm_readTile, calm_deliverTile, calm_sendTile, Calm]
theorem calm_storeRun (h : Calm r s) (w : TWalk) (f : Fibre) (addr : Nat) (bs : List Byte) : Calm r
    (State.storeRun s w f addr bs).2.2 := by
  unfold State.storeRun
  split
  · exact calm_folded (fun x : _ × _ × State => x.2.2) (fun acc x hx => calm_engineWrite hx ..) h rfl
  · refine calm_folded (fun x : _ × _ × State => x.2.2) (fun acc x hx => ?_) h rfl
    dsimp only
    split <;> exact calm_snd (calm_send hx ..) ‹_›
theorem calm_modStaged (h : Calm r s) (w : TWalk) (i : Nat) (u : Staged → Staged) : Calm r (State.modStaged s w i u) := by
  grind [State.modStaged, calm_modWalk]
theorem calm_writeTile (h : Calm r s) (w : TWalk) (i : Nat) (t0 : Staged) : Calm r (State.writeTile s w i t0) := by
  unfold State.writeTile
  dsimp only
  refine calm_watchTile (calm_modWalk (calm_modStaged (calm_walkMoved ?_ ..) ..) ..) ..
  refine calm_folded (fun x : _ × _ × State => x.2.2) (fun acc x hx => ?_) h rfl
  refine calm_folded (fun x : _ × _ × State => x.2.2) (fun acc x hx => ?_) hx rfl
  exact calm_storeRun hx ..
theorem calm_storeTile (h : Calm r s) (w : TWalk) (i : Nat) (g : Group) (reserve : Bool) : Calm r
    (State.storeTile s w i g reserve) := by
  grind [State.storeTile, calm_foldl, calm_reserve, calm_stage, calm_writeTile]
theorem calm_pullTile (h : Calm r s) (w : TWalk) (i : Nat) (reserve : Bool) : Calm r (State.pullTile s w i reserve) := by
  unfold State.pullTile
  dsimp only
  refine calm_modWalk (calm_stage ?_ ..) ..
  refine calm_folded (fun x : _ × _ × _ × State => x.2.2.2) (fun acc x hx => ?_) h rfl
  split <;> exact calm_snd (calm_send hx ..) ‹_›
theorem calm_tileStored (h : Calm r s) (w : TWalk) (i : Nat) (t0 : Staged) : Calm r (State.tileStored s w i t0) := by
  grind [State.tileStored, calm_send, calm_deliver, calm_modWalk, calm_barInto]
theorem calm_beginStore (h : Calm r s) (w : TWalk) (i : Nat) : Calm r (State.beginStore s w i) := by
  grind [State.beginStore, calm_reserve, calm_storeTile, calm_pullTile]
theorem calm_storerStep (h : Calm r s) (w : TWalk) : Calm r (State.storerStep s w) := by
  grind [State.storerStep, calm_beginStore, calm_tileStored, calm_writeTile, calm_modWalk]
theorem calm_endWalk (h : Calm r s) (id : Nat) : Calm r (State.endWalk s id) := by
  grind [State.endWalk, calm_modPkg, calm_finishFab]
theorem calm_execTileWalkTile (h : Calm r s) (walk : Nat) : CalmOut r (execTileWalkTile walk s) := by
  grind [CalmOut, execTileWalkTile, calm_storerStep, calm_loadTile, calm_endWalk]
theorem calm_execPermit (h : Calm r s) (hw : Head) (d a b : Reg) : CalmOut r (execPermit hw d a b s) := by
  grind [CalmOut, execPermit, calm_issueWord, calm_finish, calm_stallTag, calm_launchOp]
theorem calm_execWalkPermitArrive (h : Calm r s) (op : Nat) : CalmOut r (execWalkPermitArrive op s) := by
  grind [CalmOut, execWalkPermitArrive, calm_dropOp, calm_modWalk, calm_modFibre]

/-! ## Machine/Collective -/

theorem calm_modProg (h : Calm r s) (id : Nat) (u : Prog → Prog) : Calm r (State.modProg s id u) := by
  grind [State.modProg, calm_modPkg]
theorem calm_endProg (h : Calm r s) (p : Prog) (st : Status) : Calm r (State.endProg s p st) := by
  grind [State.endProg, calm_modPkg, calm_finishFab]
theorem calm_sendAborts (h : Calm r s) (p : Prog) (from_ : Option Nat) (st : Status) : Calm r (State.sendAborts s p from_ st) := by
  grind [State.sendAborts, calm_foldl, calm_send]
theorem calm_failProg (h : Calm r s) (p : Prog) (st : Status) : Calm r (State.failProg s p st) := by
  grind [State.failProg, calm_sendAborts, calm_endProg]
theorem calm_nextStep (h : Calm r s) (p : Prog) (bad : Bool) : Calm r (State.nextStep s p bad) := by
  grind [State.nextStep, calm_modProg]
theorem calm_stepDone (h : Calm r s) (p : Prog) (st : Status) : Calm r (State.stepDone s p st) := by
  unfold State.stepDone
  split <;> grind [calm_nextStep, calm_failProg, Calm]
theorem calm_startProg (h : Calm r s) (o : Op) (die tag : Nat) (b : List Byte) : Calm r (State.startProg s o die tag b) := by
  grind [State.startProg, calm_fresh, calm_modPkg, calm_sendAborts, calm_endProg]
theorem calm_readProg (h : Calm r s) (k : Nat) (f : Fibre) (addr : Nat) : Calm r (State.readProg s k f addr).2 := by
  unfold State.readProg
  split <;> grind [calm_wordReads, calm_engineRead, Calm]
theorem calm_execCseq (h : Calm r s) (hw : Head) (d a b : Reg) : CalmOut r (execCseq hw d a b s) := by
  grind [CalmOut, execCseq, calm_issueWord, calm_finish, calm_stallTag, calm_waitFor, calm_issueFab, calm_finishFab, calm_readProg,
      calm_startProg]
theorem calm_readElems (h : Calm r s) (op : Nat) (f : Fibre) (w x0 x1 : Nat) : Calm r (State.readElems s op f w x0 x1).2 := by
  (fun_induction State.readElems s op f w x0 x1 <;> grind [calm_findNow, calm_noteMet, Calm])
theorem calm_sendStep (h : Calm r s) (p : Prog) (dst tdie : Nat) (a : Acc) (l : List (Nat × PktBody)) : Calm r
    (State.sendStep s p dst tdie a l) := by
  grind [State.sendStep, calm_sendAll, calm_modProg, calm_failProg]
theorem calm_awaitStep (h : Calm r s) (p : Prog) (begin_ done : State → State) (hb : ∀ u, Calm r u → Calm r (begin_ u))
    (hd : ∀ u, Calm r u → Calm r (done u)) : Calm r (State.awaitStep s p begin_ done) := by
  unfold State.awaitStep
  split
  · exact hb _ h
  · exact calm_ite (calm_stepDone (hd _ h) ..) (calm_failProg h ..)
  · exact h
theorem calm_collStep (h : Calm r s) (prog op : Nat) (body : Prog → CollStep → State) (hb : ∀ p c, Calm r (body p c)) :
    CalmOut r (State.collStep s prog op body) := by
  rintro _ ⟨⟩
  split
  · exact h
  · exact calm_ite (hb _ _) h
theorem calm_execCollEnd (h : Calm r s) (prog : Nat) : CalmOut r (execCollEnd prog s) := by
  grind [CalmOut, execCollEnd, calm_collStep, calm_endProg]
theorem calm_execCollLoad (h : Calm r s) (prog : Nat) : CalmOut r (execCollLoad prog s) := by
  refine calm_collStep h _ _ _ fun p c => calm_awaitStep h _ _ _ (fun u hu => calm_ite ?_ (calm_sendStep (calm_modProg hu ..) ..))
      fun u hu => hu
  split
  · next he => exact calm_stepDone (calm_modProg (calm_snd (calm_readElems hu ..) he) ..) ..
  · next he => exact calm_failProg (calm_snd (calm_readElems hu ..) he) ..
theorem calm_execCollSend (h : Calm r s) (prog : Nat) : CalmOut r (execCollSend prog s) := by
  grind [CalmOut, execCollSend, calm_collStep, calm_awaitStep, calm_modProg, calm_nextStep, calm_modPkg, calm_sendStep,
      calm_failProg]
theorem calm_raddElems (h : Calm r s) (f : Fibre) (ty : Ty) (x0 : Nat) (x1 : List Nat) : Calm r
    (State.raddElems s f ty x0 x1).2 := by
  (fun_induction State.raddElems s f ty x0 x1 <;> grind [calm_raddHere, Calm])
theorem calm_execCollRadd (h : Calm r s) (prog : Nat) : CalmOut r (execCollRadd prog s) := by
  grind [CalmOut, execCollRadd, calm_collStep, calm_failProg, calm_awaitStep, calm_raddElems, calm_stepDone, calm_sendStep]
theorem calm_receiveStep (h : Calm r s) (p : Prog) (x : CollStep) (add : Bool) : Calm r (State.receiveStep s p x add) := by
  grind [State.receiveStep, calm_count, calm_failProg, calm_modProg, calm_nextStep]
theorem calm_execCollRecvAdd (h : Calm r s) (prog : Nat) : CalmOut r (execCollRecvAdd prog s) := by
  grind [CalmOut, execCollRecvAdd, calm_collStep, calm_receiveStep]
theorem calm_execCollRecvCopy (h : Calm r s) (prog : Nat) : CalmOut r (execCollRecvCopy prog s) := by
  grind [CalmOut, execCollRecvCopy, calm_collStep, calm_receiveStep]
theorem calm_execCollWrite (h : Calm r s) (prog : Nat) : CalmOut r (execCollWrite prog s) := by
  refine calm_collStep h _ _ _ fun p c => calm_awaitStep h _ _ _
    (fun u hu => calm_ite ?_ (calm_ite hu (calm_sendStep hu ..))) fun u hu => calm_modProg hu ..
  split
  · next he => exact calm_stepDone (calm_modProg (calm_snd (calm_engineWrite hu ..) he) ..) ..
  · next he => exact calm_failProg (calm_snd (calm_engineWrite hu ..) he) ..
theorem calm_execCollSignal (h : Calm r s) (prog : Nat) : CalmOut r (execCollSignal prog s) := by
  grind [CalmOut, execCollSignal, calm_collStep, calm_awaitStep, calm_signalHere, calm_stepDone, calm_failProg, calm_sendStep]
theorem calm_execCollWaitge (h : Calm r s) (prog : Nat) : CalmOut r (execCollWaitge prog s) := by
  grind [CalmOut, execCollWaitge, calm_collStep, calm_engineRead, calm_stepDone, calm_failProg]
theorem calm_chunkArrives (h : Calm r s) (m : CollMsg) : Calm r (State.chunkArrives s m) := by
  grind [State.chunkArrives, calm_modProg]
theorem calm_execCollChunkArrive (h : Calm r s) (msg : CollMsg) : CalmOut r (execCollChunkArrive msg s) := by
  grind [CalmOut, execCollChunkArrive, calm_chunkArrives]
theorem calm_creditArrives (h : Calm r s) (m : CollMsg) : Calm r (State.creditArrives s m) := by
  grind [State.creditArrives, calm_modPkg]
theorem calm_execCollCreditGrant (h : Calm r s) (msg : CollMsg) : CalmOut r (execCollCreditGrant msg s) := by
  grind [CalmOut, execCollCreditGrant, calm_creditArrives, calm_send, calm_modProg]
theorem calm_keepAbort (h : Calm r s) (m : CollMsg) : Calm r (State.keepAbort s m) := by
  grind [State.keepAbort, calm_modPkg]
theorem calm_abortArrives (h : Calm r s) (m : CollMsg) : Calm r (State.abortArrives s m) := by
  grind [State.abortArrives, calm_sendAborts, calm_endProg, calm_keepAbort]
theorem calm_execCollAbortReceive (h : Calm r s) (msg : CollMsg) : CalmOut r (execCollAbortReceive msg s) := by
  grind [CalmOut, execCollAbortReceive, calm_abortArrives]

/-! ## Machine/FloatOps -/

theorem calm_floatWord (h : Calm r s) (i : Instr) (d : Reg) (v : Nat → Fibre → Nat × Conds) : CalmOut r (floatWord i d s v) := by
  grind [CalmOut, floatWord, calm_aluWord]
theorem calm_execFdiv (h : Calm r s) (hw : Head) (d a b : Reg) (rnd : Rnd) : CalmOut r (execFdiv hw d a b rnd s) := by
  grind [CalmOut, execFdiv, calm_lateRoundWord]
theorem calm_execFsqrt (h : Calm r s) (hw : Head) (d a : Reg) (rnd : Rnd) : CalmOut r (execFsqrt hw d a rnd s) := by
  grind [CalmOut, execFsqrt, calm_lateRoundWord]

/-! ## Machine/Convert -/

theorem calm_execCvt (h : Calm r s) (hw : Head) (d a : Reg) (ty : Ty) (rnd : Rnd) (sat : Bool) (src : Ty) : CalmOut r
    (execCvt hw d a ty rnd sat src s) := by
  grind [CalmOut, execCvt, calm_roundWord]
theorem calm_execQnt (h : Calm r s) (hw : Head) (d a c : Reg) (rnd : Rnd) (adj : Bool) (fmt : Fmt) : CalmOut r
    (execQnt hw d a c rnd adj fmt s) := by
  grind [CalmOut, execQnt, calm_issueWord, calm_withNoise, calm_fresh, calm_addOp, calm_finish]

/-! ## Machine/CrossLane -/

theorem calm_memberFault (h : Calm r s) (k : Nat) (f : Fibre) (a : Arrival) (cause : Nat) : Calm r
    (State.memberFault s k f a cause) := by
  grind [State.memberFault, calm_setFibre, calm_userTrap]
theorem calm_takeResult (h : Calm r s) (k : Nat) (f : Fibre) (a : Arrival) (g : Given) (taint : List (BitVec 32 × Nat)) : Calm r
    (State.takeResult s k f a g taint) := by
  grind [State.takeResult, calm_setFibre, calm_invEnd]
theorem calm_exchange (h : Calm r s) (fs : List (Nat × Fibre)) (quad : Bool) : Calm r (State.exchange s fs quad) := by
  grind [State.exchange, calm_foldl, calm_modFibre, calm_takeResult]
theorem calm_meet (h : Calm r s) (k : Nat) : Calm r (State.meet s k) := by
  unfold State.meet
  dsimp only
  (repeat' split) <;> grind [calm_memberFault, calm_exchange, calm_foldl, Calm]
theorem calm_meetAll (h : Calm r s) : Calm r (State.meetAll s) := by
  grind [State.meetAll, calm_foldl, calm_meet]
theorem calm_meetAt (h : Calm r s) (k : Nat) (f : Fibre) (i : Instr) (a : Arrival) : Calm r (State.meetAt s k f i a) := by
  grind [State.meetAt, calm_setFibre, calm_noteIssue, calm_meet]
theorem calm_soloCross (h : Calm r s) (k : Nat) (f : Fibre) (i : Instr) (mask : Word) : Calm r (State.soloCross s k f i mask) := by
  grind [State.soloCross, calm_userTrap, calm_finish]
theorem calm_crossWord (h : Calm r s) (i : Instr) (c : Reg) : CalmOut r (crossWord i c s) := by
  have fault : ∀ (b : Prop) [Decidable b] (k : Nat) (g : Fibre) (x : TrapRegs) (p : RP) (n : Bool),
      Calm r (if b then s.setFibre k g else s.userTrap k x p n) := fun b _ k g x p n => calm_ite (calm_setFibre h ..)
          (calm_userTrap h ..)
  unfold crossWord
  dsimp only
  split
  · exact fun t e => nomatch e
  · next hg => exact calm_next (calm_gate h _ hg)
  · exact calmOut_ite (calm_next (calm_finishOff h ..)) (calm_next (calm_meetAt h ..))
  · exact calmOut_ite (calm_next (calm_soloCross h ..)) (calmOut_ite (calm_next (fault ..)) (calmOut_ite (calm_next (fault ..))
      (calm_next (calm_meetAt h ..))))

/-! ## Machine/Links -/

theorem calm_ackAccess (h : Calm r s) (o : Op) (a : Access) (k : Ack) : Calm r (State.ackAccess s o a k) := by
  grind [State.ackAccess, calm_dropOp, calm_recordFault, calm_watch, calm_modFibre]
theorem calm_ackGet (h : Calm r s) (o : Op) (x : FabOp) (pos : Nat) (sent : List Nat) (st : Status) (dst : Place) (src : DWord)
    (off len : Nat) (k : Ack) (e : State.ackGet s o x pos sent st dst src off len k = some t) : Calm r t := by
  grind [State.ackGet, calm_engineWrite, calm_watchOp, calm_modOp]
theorem calm_ackFab (h : Calm r s) (o : Op) (x : FabOp) (pos : Nat) (sent : List Nat) (data : Option (List Byte)) (st : Status)
    (pkt : PktBody)
    (k : Ack) (e : State.ackFab s o x pos sent data st pkt k = some t) : Calm r t := by
  unfold State.ackFab at e
  split at e
  · exact Option.some.inj e ▸ calm_modOp h ..
  · exact calm_ackGet h _ _ _ _ _ _ _ _ _ _ e
  · exact Option.some.inj e ▸ calm_finishFab h ..
  · exact Option.some.inj e ▸ calm_modOp h ..
theorem calm_ackProg (h : Calm r s) (p : Prog) (id : Nat) (pkt : PktBody) (k : Ack) : Calm r (State.ackProg s p id pkt k) := by
  unfold State.ackProg
  split <;> grind [calm_failProg, calm_modProg, Calm]
theorem calm_ackWalk (h : Calm r s) (w : TWalk) (id : Nat) (k : Ack) : Calm r (State.ackWalk s w id k) := by
  grind [State.ackWalk, calm_modWalk, calm_modStaged]
theorem calm_ackWatched (h : Calm r s) (op : Nat) (k : Ack) : Calm r (State.ackWatched s op k) := calm_of_eq
    (calm_dropOp h op) rfl rfl
theorem calm_answered (h : Calm r s) (r0 : Retx) (k : Ack) (e : State.answered s r0 k = some t) : Calm r t := by
  unfold State.answered at e
  split at e
  · exact Option.some.inj e ▸ h
  · split at e
    · exact Option.some.inj e ▸ calm_of_eq h rfl rfl
    · split at e
      · exact Option.some.inj e ▸ calm_ackProg h ..
      · split at e
        · exact Option.some.inj e ▸ calm_ackWalk h ..
        · split at e
          · exact Option.some.inj e ▸ h
          · split at e
            · exact Option.some.inj e ▸ calm_ackWatched h ..
            · split at e
              · exact Option.some.inj e ▸ calm_ackAccess h ..
              · exact calm_ackFab h _ _ _ _ _ _ _ _ e
              · exact Option.some.inj e ▸ calm_finishOp h ..
              · exact Option.some.inj e ▸ h
theorem calm_takeAck (h : Calm r s) (r0 : Retx) (k : Ack) : Calm r (State.takeAck s r0 k) := by
  grind [State.takeAck, calm_answered, calm_modPkg]
theorem calm_execFabricAckArrive (h : Calm r s) (ack : Ack) : CalmOut r (execFabricAckArrive ack s) := by
  grind [CalmOut, execFabricAckArrive, calm_takeAck]
theorem calm_lostInterest (h : Calm r s) (i : Interest) : Calm r (State.lostInterest s i) := by
  grind [State.lostInterest, calm_foldl, calm_finishFab, Calm]
theorem calm_lostPacket (h : Calm r s) (r0 : Retx) : Calm r (State.lostPacket s r0) := by
  grind [State.lostPacket, calm_takeAck, calm_modPkg, calm_lostInterest, calm_faultJob]
theorem calm_resend (h : Calm r s) (r0 : Retx) : Calm r (State.resend s r0) := by
  grind [State.resend, calm_lostPacket, calm_modPkg]
theorem calm_execRetransmitTimeout (h : Calm r s) (seq : Nat) : CalmOut r (execRetransmitTimeout seq s) := by
  grind [CalmOut, execRetransmitTimeout, calm_resend]
theorem calm_modFpstat (h : Calm r s) (port : Nat) (u : Word → Word) : Calm r (State.modFpstat s port u) := by
  grind [State.modFpstat, calm_modPkg]
theorem calm_reroute (h : Calm r s) (r0 : Retx) : Calm r (State.reroute s r0) := by
  grind [State.reroute, calm_lostPacket, calm_modPkg]
theorem calm_linkDown (h : Calm r s) (port : Nat) : Calm r (State.linkDown s port) := by
  grind [State.linkDown, calm_modFpstat, calm_foldl, calm_resend, calm_reroute]
theorem calm_execFlitCrcReplay (h : Calm r s) (port again : Nat) : CalmOut r (execFlitCrcReplay port again s) := by
  grind [CalmOut, execFlitCrcReplay, calm_linkDown, calm_modFpstat]
theorem calm_execFabricLinkDown (h : Calm r s) (port : Nat) : CalmOut r (execFabricLinkDown port s) := by
  grind [CalmOut, execFabricLinkDown, calm_linkDown]
theorem calm_execFabricLinkRetrain (h : Calm r s) (port : Nat) : CalmOut r (execFabricLinkRetrain port s) := by
  grind [CalmOut, execFabricLinkRetrain, calm_modFpstat]
theorem calm_execFabricPacketForward (h : Calm r s) (pkt : Packet) : CalmOut r (execFabricPacketForward pkt s) := by
  grind [CalmOut, execFabricPacketForward, calm_modPkg]
theorem calm_applyDeliver (h : Calm r s) (job die clu core rgi off bar : Nat) (bs : List Byte) (st : Status) {b}
    (e : State.applyDeliver s job die clu core rgi off bar bs st = some (b, t)) : Calm r t := by
  grind [State.applyDeliver, calm_rowInto, calm_barInto, calm_putBarrier]
theorem calm_applyPush (h : Calm r s) (pkt : Packet) (m : PushMsg) : Calm r (State.applyPush s pkt m).1 := by
  grind [State.applyPush, calm_modQueue, calm_foldl, calm_joinSet, calm_countRecvd, calm_releaseEntry]
theorem calm_applyOutcome (h : Calm r s) (pkt : Packet) (aid : BitVec 32) (die : Nat) (r0 : Resolution) : Calm r
    (State.applyOutcome s pkt aid die r0).1 := by
  unfold State.applyOutcome
  split <;> grind [calm_send, calm_faultJob, calm_applyAffirm, calm_applyDeny, Calm]
theorem calm_applyPacket (h : Calm r s) (port : Nat) (pkt : Packet) : Calm r (State.applyPacket s port pkt).2 := by
  grind [State.applyPacket, calm_applyPush, calm_resolveHome, calm_applyOutcome, calm_modSlot, calm_chunkArrives,
      calm_creditArrives, calm_abortArrives, calm_deliver, calm_applyDeliver, calm_report, calm_modJob, calm_inboundMem]
theorem calm_applyNext (h : Calm r s) (port : Nat) (p : Packet) : Calm r (State.applyNext s port p) := by
  grind [State.applyNext, calm_modPkg, calm_applyPacket]
theorem calm_applyHeld (h : Calm r s) (p : Packet) (x0 : Nat) : Calm r (State.applyHeld s p x0) := by
  (fun_induction State.applyHeld s p x0 <;> grind [calm_applyNext, Calm])
theorem calm_namedArrives (h : Calm r s) (pkt : Packet) (go : State → Option State) (hg : ∀ u, go s = some u → Calm r u) :
    Calm r (State.namedArrives s pkt go) := by
  unfold State.namedArrives
  refine calm_ite (calm_modPkg h _) ?_
  cases hs : go s with
  | none => exact h
  | some u =>
    simp only [Option.map_some, Option.getD_some]
    exact calm_modPkg (hg u hs) _
theorem calm_execFabricPacketArrive (h : Calm r s) (port : Nat) (pkt : Packet) : CalmOut r (execFabricPacketArrive port pkt s) := by
  grind [CalmOut, execFabricPacketArrive, calm_namedArrives, calm_tileAt, calm_modPkg, calm_applyNext, calm_applyHeld,
      calm_interestAt]

/-! ## Machine/Strikes -/

theorem calm_strikeReg (h : Calm r s) (k r0 : Nat) (fixed : Bool) : Calm r (State.strikeReg s k r0 fixed) := by
  grind [State.strikeReg, calm_logCore, calm_sliceFaultAt, calm_coreFatal, calm_modFibre]
theorem calm_strikeQueue (h : Calm r s) (g q num off : Nat) (fixed : Bool) : Calm r (State.strikeQueue s g q num off fixed) := by
  grind [State.strikeQueue, calm_logCore, calm_modOq]
theorem calm_strikeBytes (h : Calm r s) (die loc addr unit kind clu job : Nat) (fixed : Bool) : Calm r
    (State.strikeBytes s die loc addr unit kind clu job fixed) := by
  grind [State.strikeBytes, calm_logDie, calm_poison]
theorem calm_strike (h : Calm r s) (x : Strike) : Calm r (State.strike s x) := by
  unfold State.strike
  dsimp only
  split
  · exact calm_strikeReg h ..
  · exact calm_ite (calm_logCore h ..) (calm_ite h (calm_logCore (calm_poison h _) ..))
  · exact calm_ite h (calm_ite (calm_logCore h ..) (calm_modCore h ..))
  · split
    · exact h
    · exact calm_modCore (calm_logCore h ..) ..
  · exact calm_strikeQueue h ..
  · split
    · exact h
    · exact calm_ite (calm_logCore h ..) (calm_modFibre h ..)
  · exact calm_ite (calm_logDie h ..) (calm_ite (calm_logDie h ..) (calm_ite h (calm_logDie (calm_poison (calm_poison h _) _) ..)))
  · exact calm_ite (calm_logDie h ..) (calm_ite (calm_logDie h ..) (calm_dieFatal (calm_logDie h ..) _))
  · exact calm_strikeBytes h ..
  · exact calm_strikeBytes h ..
  · exact calm_strikeBytes h ..
  · exact calm_strikeBytes h ..
  · split
    · exact h
    · exact calm_modCluster (calm_logDie h ..) ..
  · split
    · exact h
    · exact calm_modCore (calm_logDie h ..) ..
  · exact calm_ite h (calm_ite (calm_modDie h ..) (calm_modPkg h _))
  · split
    · exact h
    · exact calm_modDie (calm_logDie h ..) ..
theorem calm_takeStrikes (h : Calm r s) : Calm r (State.takeStrikes s) := by
  grind [State.takeStrikes, calm_foldl, calm_strike, Calm]
theorem wf_pass (w : Memory.wf s.mem = true) (n : Nat) : Memory.wf (s.pass n).mem = true := by
  have h := calm_watchPass (calm_ageGroups (calm_chargeAll (Calm.refl s) n) n) n
  exact (calm_takeStrikes (Calm.refl _)).2 (h.2 w)
theorem wf_passIf {c : Prop} [Decidable c] (w : Memory.wf s.mem = true) : Memory.wf (if c then s.pass 1 else s).mem = true := by
  split
  · exact wf_pass w 1
  · exact w
theorem wf_passIssued (w : Memory.wf s.mem = true) : Memory.wf s.passIssued.mem = true := wf_passIf (wf_passIf w)

theorem wf_withhold (w : Memory.wf s.mem = true) (n : Nat) : Memory.wf (s.withhold n).mem = true := by
  have h := calm_watchPass (calm_mapCores (calm_chargeCores (Calm.refl s.passIssued)
    ((List.range 256).map fun i => coreIx (i / 64) (i / 8 % 8) (i % 8)) (some 19) n)
    fun c => { c with frozen := if s.passIssued.clk < c.frozen then c.frozen + n else c.frozen }) n
  exact h.2 (wf_passIssued w)

/-! ## REP and INV -/

theorem calm_execRep (h : Calm r s) (stop : Bool) (n : BitVec 6) (sd sa sb sc two : Bool) : CalmOut r
    (execRep stop n sd sa sb sc two s) := by
  grind [CalmOut, execRep, calm_issueWord, calm_setFibre, calm_noteIssue]
theorem calm_execInv (h : Calm r s) {hw : Head} {t0 x y : Reg} {k : BitVec 2} {ty : InvTy} {dec : Bool} {tol : BitVec 5}
    {iter : BitVec 6} :
    CalmOut r (execInv hw t0 x k ty y dec tol iter s) := by
  unfold execInv
  dsimp only
  split
  · exact fun _ e => nomatch e
  · next hg => exact calm_next (calm_gate h _ hg)
  · exact calm_next (calm_noteIssue (calm_setFibre h ..) ..)
  · exact calmOut_ite (calm_next (calm_invTrap h ..)) (calm_next (calm_noteIssue (calm_setFibre h ..) ..))

/-! ## Machine/Schedule -/

theorem calm_wakeRetries (h : Calm r s) : Calm r (State.wakeRetries s) := by
  grind [State.wakeRetries, calm_mapFibres]

theorem calm_follow (h : Calm r s) : Calm r (State.follow s) := by
  grind [State.follow, calm_wakeBarriers, calm_meetAll, calm_settle]
theorem calm_followEvent (h : Calm r s) : Calm r (State.followEvent s) := by
  grind [State.followEvent, calm_wakeRetries, calm_follow]
section
variable {i : Instr} (h : Calm r s)
include h
theorem calm_packedWord (d : Reg) (m : Rnd) (op : Nat → Fibre → Nat → Nat → Nat × Conds) : CalmOut r
    (packedWord i d m s op) := calm_roundWord h _ _ _ _ _
theorem calm_floatBin (ty : Ty) (d a b : Reg) (m : Rnd) (op : FF → Rnd → Nat → Nat → Nat → Nat × Conds) : CalmOut r
    (floatBin i ty d a b m op s) := calm_roundWord h _ _ _ _ _
theorem calm_floatFma (ty : Ty) (d a b c : Reg) (m : Rnd) : CalmOut r (floatFma i ty d a b c m s) := calm_roundWord h _ _ _ _ _
theorem calm_floatUn (d a : Reg) (m : Rnd) (op : FF → Rnd → Nat → Nat → Nat × Conds) : CalmOut r
    (floatUn i d a m op s) := calm_roundWord h _ _ _ _ _
theorem calm_floatCmp (ty : Ty) (d a b c : Reg) (cond : BitVec 3) (merge : Bool) (tbl : BitVec 4) : CalmOut r
    (floatCmp i ty d a b c cond merge tbl s) :=
  calm_predWord h _ _
end

/-! ## Machine/Dispatch -/

/-- The rows of the table that let clk pass, or begin them anew. -/
def movesClk : Instr → Bool
  | .packageReset | .powerLimit _ | .thermalThrottle _ => true
  | _ => false

/-- Every word and every event keeps memory in its form; and but for those three it leaves the clk as it is. -/
theorem calm_exec (h : Calm r s) {i : Instr} (hi : movesClk i = false) : CalmOut r (exec i s) := by
  cases i with
  | packageReset | powerLimit | thermalThrottle => cases hi
  | add | sub | mul | and | or | xor | andn | shl | shr | sar | rot =>
    simp only [exec_add, execAdd, exec_sub, execSub, exec_mul, execMul, exec_and, execAnd, exec_or, execOr, exec_xor,
      execXor, exec_andn, execAndn, exec_shl, execShl, exec_shr, execShr, exec_sar, execSar, exec_rot, execRot]
    exact calm_binWord h _ _ _ _ _
  | neg | abs | not | clz | popc | brev =>
    simp only [exec_neg, execNeg, exec_abs, execAbs, exec_not, execNot, exec_clz, execClz, exec_popc, execPopc, exec_brev,
      execBrev]
    exact calm_unWord h _ _ _ _
  | addTyped | subTyped | mulTyped | mulhi | minTyped | maxTyped =>
    simp only [exec_addTyped, execAddTyped, exec_subTyped, execSubTyped, exec_mulTyped, execMulTyped, exec_mulhi, execMulhi,
      exec_minTyped, execMinTyped, exec_maxTyped, execMaxTyped]
    exact calm_typedWord h _ _ _ _ _ _ _
  | div | rem | dqnt =>
    simp only [exec_div, execDiv, exec_rem, execRem, exec_dqnt, execDqnt]
    exact calm_lateWord h _ _ _
  | negTyped | absTyped =>
    simp only [exec_negTyped, execNegTyped, exec_absTyped, execAbsTyped]
    exact calm_typedUnWord h _ _ _ _ _ _
  | mad | bfx | bfi | sel | movhi | movs =>
    simp only [exec_mad, execMad, exec_bfx, execBfx, exec_bfi, execBfi, exec_sel, execSel, exec_movhi, execMovhi, exec_movs,
      execMovs]
    exact calm_aluWord h _ _ _
  | addImm | subImm | mulImm | andImm | orImm | xorImm | andnImm | shlImm | shrImm | sarImm | rotImm | minImm | minImmU |
    maxImm | maxImmU =>
    simp only [exec_addImm, execAddImm, exec_subImm, execSubImm, exec_mulImm, execMulImm, exec_andImm, execAndImm,
      exec_orImm, execOrImm, exec_xorImm, execXorImm, exec_andnImm, execAndnImm, exec_shlImm, execShlImm, exec_shrImm,
      execShrImm, exec_sarImm, execSarImm, exec_rotImm, execRotImm, exec_minImm, execMinImm, exec_minImmU, execMinImmU,
      exec_maxImm, execMaxImm, exec_maxImmU, execMaxImmU]
    exact calm_immWord h _ _ _ _ _
  | movi | moviLit | pmovToReg | fclass =>
    simp only [exec_movi, execMovi, exec_moviLit, execMoviLit, exec_pmovToReg, execPmovToReg, exec_fclass, execFclass]
    exact calm_plainWord h _ _ _
  | setp | plog | pmovToPred =>
    simp only [exec_setp, execSetp, exec_plog, execPlog, exec_pmovToPred, execPmovToPred]
    exact calm_predWord h _ _
  | bra | call | brx | callx | ret =>
    simp only [exec_bra, execBra, exec_call, execCall, exec_brx, execBrx, exec_callx, execCallx, exec_ret, execRet]
    exact calm_jumpWord h _ _ _
  | fadd | fsub | fmul | dadd | dmul =>
    simp only [exec_fadd, execFadd, exec_fsub, execFsub, exec_fmul, execFmul, exec_dadd, execDadd, exec_dmul, execDmul]
    exact calm_floatBin h _ _ _ _ _ _
  | fdiv => exact calm_execFdiv h _ _ _ _ _
  | fsqrt => exact calm_execFsqrt h _ _ _ _
  | ffma | dfma =>
    simp only [exec_ffma, execFfma, exec_dfma, execDfma]
    exact calm_floatFma h _ _ _ _ _ _
  | fmin | fmax | fex2 | flg2 | fsin | fcos | ftanh =>
    simp only [exec_fmin, execFmin, exec_fmax, execFmax, exec_fex2, execFex2, exec_flg2, execFlg2, exec_fsin, execFsin,
      exec_fcos, execFcos, exec_ftanh, execFtanh]
    exact calm_floatWord h _ _ _
  | frcp | frsq | frnd =>
    simp only [exec_frcp, execFrcp, exec_frsq, execFrsq, exec_frnd, execFrnd]
    exact calm_floatUn h _ _ _ _
  | fcmp | dcmp =>
    simp only [exec_fcmp, execFcmp, exec_dcmp, execDcmp]
    exact calm_floatCmp h _ _ _ _ _ _ _ _
  | hadd2 | hmul2 | hfma2 =>
    simp only [exec_hadd2, execHadd2, exec_hmul2, execHmul2, exec_hfma2, execHfma2]
    exact calm_packedWord h _ _ _
  | cvt => exact calm_execCvt h _ _ _ _ _ _ _
  | shfl | vote | spred | qswap | qbc =>
    simp only [exec_shfl, execShfl, exec_vote, execVote, exec_spred, execSpred, exec_qswap, execQswap, exec_qbc, execQbc]
    exact calm_crossWord h _ _
  | inv => exact calm_execInv h
  | mov => exact calm_execMov h _ _ _
  | movsw => exact calm_execMovsw h _ _ _
  | endFibre => exact calm_execEndFibre h _
  | yield => rw [exec_yield, execYield]; exact calm_issueWord h _ _ fun k f => calm_finish h ..
  | nap => exact calm_execNap h _ _
  | nop => rw [exec_nop, execNop]; exact calm_issueWord h _ _ fun k f => calm_finish h ..
  | loopReg => exact calm_execLoopReg h _ _ _
  | loopImm => exact calm_execLoopImm h _ _ _
  | lbrk => exact calm_execLbrk h _ _
  | fork => exact calm_execFork h _ _ _
  | qnt => exact calm_execQnt h _ _ _ _ _ _ _
  | rand => exact calm_execRand h _ _ _
  | jmpt => exact calm_execJmpt h _ _
  | padw => rw [exec_padw, execPadw]; exact calm_issueWord h _ _ fun k f => calm_finish h ..
  | trap => exact calm_execTrap h _ _
  | ld => exact calm_execLd h _ _ _ _ _ _ _ _
  | st => exact calm_execSt h _ _ _ _ _ _ _ _
  | atom => exact calm_execAtom h _ _ _ _ _ _ _ _ _ _
  | red => exact calm_execRed h _ _ _ _ _ _ _ _ _
  | fence => exact calm_execFence h _ _ _
  | efence => exact calm_execEfence h _
  | cpasync => exact calm_execCpasync h _ _ _ _ _ _ _ _
  | gath => exact calm_execGath h _ _ _ _ _ _ _ _
  | waitc => exact calm_execWaitc h _ _ _
  | ftest => exact calm_execFtest h _ _ _
  | fcancel => exact calm_execFcancel h _ _ _
  | oqpop => exact calm_execOqpop h _ _ _ _
  | oqrel => exact calm_execOqrel h _ _
  | aslice => exact calm_execAslice h _ _ _ _
  | astop => exact calm_execAstop h _
  | ploop => exact calm_execPloop h _ _ _
  | afeed => exact calm_execAfeed h _ _ _ _ _ _
  | pwait => exact calm_execPwait h _ _ _
  | barinit => exact calm_execBarinit h _ _ _
  | bararr => exact calm_execBararr h _ _
  | barwt => exact calm_execBarwt h _ _ _
  | barst => exact calm_execBarst h _ _ _
  | cvdecl => exact calm_execCvdecl h _ _ _
  | mma => exact calm_execMma h _ _ _ _ _ _ _ _ _ _ _ _ _ _ _ _
  | accz => exact calm_execAccz h _ _
  | accld => exact calm_execAccld h _ _ _ _
  | accst => exact calm_execAccst h _ _ _ _ _ _ _ _
  | accrd => exact calm_execAccrd h _ _ _ _
  | qpush => exact calm_execQpush h _ _ _ _ _ _ _
  | qpop => exact calm_execQpop h _ _ _ _
  | qpeek => exact calm_execQpeek h _ _ _ _ _
  | qcnt => exact calm_execQcnt h _ _ _
  | dcarm => exact calm_execDcarm h _ _ _ _ _
  | dcdec => exact calm_execDcdec h _ _
  | trig => exact calm_execTrig h _
  | dwait => exact calm_execDwait h _ _
  | beat => exact calm_execBeat h _
  | evpost => exact calm_execEvpost h _ _
  | evpop => exact calm_execEvpop h _ _ _
  | guess => exact calm_execGuess h _ _ _ _ _ _ _ _ _ _ _
  | affirm => exact calm_execAffirm h _ _ _ _
  | deny => exact calm_execDeny h _ _ _ _ _ _
  | tagq => exact calm_execTagq h _ _ _ _ _
  | puts => exact calm_execPuts h _ _ _ _ _ _ _ _ _ _
  | get => exact calm_execGet h _ _ _ _ _ _ _
  | radd => exact calm_execRadd h _ _ _ _ _ _ _ _ _
  | sigwt => exact calm_execSigwt h _ _ _ _ _ _ _
  | want => exact calm_execWant h _ _ _ _ _ _ _
  | announce => exact calm_execAnnounce h _ _ _ _ _ _
  | twalk => exact calm_execTwalk h _ _ _ _ _
  | permit => exact calm_execPermit h _ _ _ _
  | cseq => exact calm_execCseq h _ _ _ _
  | sysc => exact calm_execSysc h _ _
  | rft => exact calm_execRft h _ _ _ _
  | awrd => exact calm_execAwrd h _ _ _ _ _
  | awwr => exact calm_execAwwr h _ _ _ _ _
  | hstop => exact calm_execHstop h _ _ _ _
  | hresume => exact calm_execHresume h _ _ _
  | brkp => exact calm_execBrkp h _ _
  | trace => exact calm_execTrace h _ _ _ _ _
  | mark => exact calm_execMark h _ _
  | rep => exact calm_execRep h _ _ _ _ _ _ _
  | variableLatencyComplete => exact calm_execVariableLatencyComplete h _
  | loadDataArrival => exact calm_execLoadDataArrival h _
  | storeAck => exact calm_execStoreAck h _
  | scratchpadLoadComplete => exact calm_execScratchpadLoadComplete h _
  | fibreEnd => exact calm_execFibreEnd h _
  | groupResourceRelease => exact calm_execGroupResourceRelease h _
  | napWake => exact calm_execNapWake h _
  | swapOut => exact calm_execSwapOut h _
  | checkpointSpillComplete => exact calm_execCheckpointSpillComplete h _
  | pacerFillComplete => exact calm_execPacerFillComplete h _
  | walkComplete => exact calm_execWalkComplete h _
  | mmaStart => exact calm_execMmaStart h _
  | mmaComplete => exact calm_execMmaComplete h _
  | copyPieceLand => exact calm_execCopyPieceLand h _
  | gathRowArrival => exact calm_execGathRowArrival h _ _
  | barwtTimeout => exact calm_execBarwtTimeout h _
  | accTransferComplete => exact calm_execAccTransferComplete h _
  | groupPlace => exact calm_execGroupPlace h _
  | queueEntryArrive => exact calm_execQueueEntryArrive h _
  | qpopReturn => exact calm_execQpopReturn h _
  | dcarmArrive => exact calm_execDcarmArrive h _
  | dcdecArrive => exact calm_execDcdecArrive h _
  | quiescenceRound => exact calm_execQuiescenceRound h _
  | handlerTakeRecord => exact calm_execHandlerTakeRecord h _
  | replayComplete => exact calm_execReplayComplete h _
  | watchedOpResolve => exact calm_execWatchedOpResolve h _ _
  | resolutionAtHome => exact calm_execResolutionAtHome h _
  | affirmApply => exact calm_execAffirmApply h _ _
  | denyApply => exact calm_execDenyApply h _ _
  | resolutionAck => exact calm_execResolutionAck h _ _
  | localCompletion => exact calm_execLocalCompletion h _
  | collEnd => exact calm_execCollEnd h _
  | collLoad => exact calm_execCollLoad h _
  | collSend => exact calm_execCollSend h _
  | collRadd => exact calm_execCollRadd h _
  | collRecvAdd => exact calm_execCollRecvAdd h _
  | collRecvCopy => exact calm_execCollRecvCopy h _
  | collWrite => exact calm_execCollWrite h _
  | collSignal => exact calm_execCollSignal h _
  | collWaitge => exact calm_execCollWaitge h _
  | tileWalkTile => exact calm_execTileWalkTile h _
  | walkPermitArrive => exact calm_execWalkPermitArrive h _
  | sigwtRecheck => exact calm_execSigwtRecheck h _
  | forcedRotation => exact calm_execForcedRotation h _
  | cohortRelease => exact calm_execCohortRelease h _ _
  | queueCreditGrant => exact calm_execQueueCreditGrant h _ _ _ _
  | queueDeadlock => exact calm_execQueueDeadlock h _ _
  | watchdogTest => exact calm_execWatchdogTest h _
  | wsLoadComplete => exact calm_execWsLoadComplete h _
  | dtinvComplete => exact calm_execDtinvComplete h _
  | evictionStopTimeout => exact calm_execEvictionStopTimeout h _
  | evictionSave => exact calm_execEvictionSave h _
  | launch => exact calm_execLaunch h _ _ _
  | jobwait => exact calm_execJobwait h _ _ _
  | wsload => exact calm_execWsload h _ _ _
  | halt => exact calm_execHalt h _ _ _
  | resume => exact calm_execResume h _ _ _
  | kill => exact calm_execKill h _ _ _
  | unlistedCommand => exact calm_execUnlistedCommand h _ _ _
  | fabricPacketArrive => exact calm_execFabricPacketArrive h _ _
  | retransmitTimeout => exact calm_execRetransmitTimeout h _
  | interestArrive => exact calm_execInterestArrive h _ _
  | faceDeadline => exact calm_execFaceDeadline h _ _
  | sigwtTimeout => exact calm_execSigwtTimeout h _
  | dbgTokenResult => exact calm_execDbgTokenResult h
  | traceSample => exact calm_execTraceSample h _
  | instructionFetchError => exact calm_execInstructionFetchError h _ _
  | hostInboundWrite => exact calm_execHostInboundWrite h _ _ _
  | hostInboundRead => exact calm_execHostInboundRead h _ _ _
  | queueCreditReturn => exact calm_execQueueCreditReturn h _ _ _ _
  | wsPhaseEnter => exact calm_execWsPhaseEnter h _
  | wsPhaseLeave => exact calm_execWsPhaseLeave h _
  | wsLoadGo => exact calm_execWsLoadGo h _
  | wsRefreshStart => exact calm_execWsRefreshStart h _ _
  | wsRefreshEnd => exact calm_execWsRefreshEnd h _ _
  | wsScrubVisit => exact calm_execWsScrubVisit h _ _ _
  | dramScrubVisit => exact calm_execDramScrubVisit h _ _
  | dieFatalError => exact calm_execDieFatalError h _
  | dtinvPage => exact calm_execDtinvPage h _
  | dtinvJob => exact calm_execDtinvJob h _
  | dtinvAll => exact calm_execDtinvAll h _
  | dtinvReservedScope => exact calm_execDtinvReservedScope h _
  | ceccClear => exact calm_execCeccClear h _
  | deccClear => exact calm_execDeccClear h _
  | cevdropClear => exact calm_execCevdropClear h _
  | fpstatReplayClear => exact calm_execFpstatReplayClear h _
  | ucieLinkDown => exact calm_execUcieLinkDown h _
  | hqSqDoorbell => exact calm_execHqSqDoorbell h _ _ _
  | hqCqDoorbell => exact calm_execHqCqDoorbell h _ _ _
  | lockInterfaceRequest => exact calm_execLockInterfaceRequest h _
  | startInterfaceRequest => exact calm_execStartInterfaceRequest h _ _
  | stopInterfaceRequest => exact calm_execStopInterfaceRequest h _
  | getDeviceInterfaceReport => exact calm_execGetDeviceInterfaceReport h _
  | lockedFieldWrite => exact calm_execLockedFieldWrite h _
  | ideIntegrityFailure => exact calm_execIdeIntegrityFailure h _
  | functionLevelReset => exact calm_execFunctionLevelReset h _
  | salpolLock => exact calm_execSalpolLock h
  | voltageClockGlitch => exact calm_execVoltageClockGlitch h
  | fuseIntegrityFailure => exact calm_execFuseIntegrityFailure h
  | thermalShutdown => exact calm_execThermalShutdown h
  | flitCrcReplay => exact calm_execFlitCrcReplay h _ _
  | fabricLinkDown => exact calm_execFabricLinkDown h _
  | fabricPacketForward => exact calm_execFabricPacketForward h _
  | fabricAckArrive => exact calm_execFabricAckArrive h _
  | collChunkArrive => exact calm_execCollChunkArrive h _
  | collCreditGrant => exact calm_execCollCreditGrant h _
  | collAbortReceive => exact calm_execCollAbortReceive h _
  | tileReturn => exact calm_execTileReturn h _ _
  | dbgStepFibre => exact calm_execDbgStepFibre h _
  | dbgStopSpan => exact calm_execDbgStopSpan h _
  | dbgResumeSpan => exact calm_execDbgResumeSpan h _
  | dbgResumeFibre => exact calm_execDbgResumeFibre h _
  | dbgTokenVerify => exact calm_execDbgTokenVerify h
  | topdownClear => exact calm_execTopdownClear h _
  | topdownFreeze => exact calm_execTopdownFreeze h _ _
  | noiseModeDirect => exact calm_execNoiseModeDirect h _
  | noiseModeLog => exact calm_execNoiseModeLog h _
  | noiseModeReplay => exact calm_execNoiseModeReplay h _
  | registerWrite => exact calm_execRegisterWrite h _ _ _
  | fabricLinkRetrain => exact calm_execFabricLinkRetrain h _
  | lifeCycleAdvance => exact calm_execLifeCycleAdvance h _

theorem wf_exec {i : Instr} (w : Memory.wf s.mem = true) (e : exec i s = .next t) : Memory.wf t.mem = true := by
  cases hi : movesClk i with
  | false => exact (calm_exec (Calm.refl s) hi t e).2 w
  | true =>
    unfold movesClk at hi
    split at hi
    · exact wf_execPackageReset w e
    · exact Host.Outcome.next.inj e ▸ wf_withhold w _
    · exact Host.Outcome.next.inj e ▸ wf_withhold w _
    · cases hi

/-! ## The turn of a fibre or an event -/

/-- What is left of the machine when a fibre's words have been read. -/
def prepared : Prep → State
  | .done u => u
  | .run u _ => u

theorem calm_done (h : Calm r s) : Calm r (prepared (.done s)) := h
theorem calm_run {i : Instr} (h : Calm r s) : Calm r (prepared (.run s i)) := h
theorem calm_prep_ite {c : Prop} [Decidable c] {p q : Prep} (hp : Calm r (prepared p)) (hq : Calm r (prepared q)) :
    Calm r (prepared (if c then p else q)) := by
  split
  · exact hp
  · exact hq
theorem calm_stopIf {c b : Bool} {k : Nat} {f : Fibre} {a : DWord} (h : Calm r s)
    (e : (if c then s.stopSite k f a else (false, s)) = (b, t)) : Calm r t := by
  split at e
  · exact calm_snd (calm_stopSite h ..) e
  · exact calm_pair h e

theorem calm_openClause_stopped (h : Calm r s) {k : Nat} {f : Fibre} {u : State} (e : s.openClause k f = (some t, u)) :
    Calm r t := by
  unfold State.openClause at e
  grind [calm_sliceFault, calm_fetchFailed, calm_decodeTrap, calm_waitFor, calm_fetchWord]

theorem calm_prepareRep_stopped (h : Calm r s) {k : Nat} {f : Fibre} {hw : Header} {w : Raw} {nregs ntiles : Nat} {u : State}
    (e : s.prepareRep k f hw w nregs ntiles = (some t, u)) : Calm r t := by
  unfold State.prepareRep at e
  grind [calm_fetchFailed, calm_decodeTrap, calm_fetchInstr]

theorem calm_prepareInv_stopped (h : Calm r s) {k : Nat} {f : Fibre} {hw : Header} {w : Raw} {own : List Nat} {nregs ntiles : Nat}
    {u : State}
    (e : s.prepareInv k f hw w own nregs ntiles = (some t, u)) : Calm r t := by
  unfold State.prepareInv at e
  dsimp only at e
  split at e
  · next hf =>
    have h1 := calm_snd (calm_fetchWord h ..) hf
    split at e
    · next hb =>
      have h2 := calm_snd (calm_fetchWords h1 ..) hb
      split at e
      · exact Option.some.inj (Prod.mk.inj e).1 ▸ calm_decodeTrap h2 ..
      · cases e
    · next hb =>
      have h2 := calm_snd (calm_fetchWords h1 ..) hb
      exact Option.some.inj (Prod.mk.inj e).1 ▸ calm_fetchFailed h2 ..
  · next hf =>
    have h1 := calm_snd (calm_fetchWord h ..) hf
    exact Option.some.inj (Prod.mk.inj e).1 ▸ calm_fetchFailed h1 ..

theorem calm_prepareWord (h : Calm r s) (k : Nat) : Calm r (prepared (s.prepareWord k)) := by
  unfold State.prepareWord
  dsimp only
  split
  · exact h
  · refine calm_prep_ite (calm_done (calm_invEnd h ..)) ?_
    split
    · next hr => exact calm_done (calm_fetchFailed (calm_snd (calm_repWord h ..) hr) ..)
    · next hr => exact calm_done (calm_fetchFailed (calm_snd (calm_repWord h ..) hr) ..)
    · next hr =>
      have h1 := calm_snd (calm_repWord h ..) hr
      split
      · next hf => exact calm_done (calm_fetchFailed (calm_snd (calm_fetchInstr h1 ..) hf) ..)
      · next hf =>
        have h2 := calm_snd (calm_fetchInstr h1 ..) hf
        refine calm_prep_ite (calm_done (calm_setFibre h2 ..)) ?_
        split
        · next hs => exact calm_done (calm_stopIf h2 hs)
        · next hs =>
          have h3 := calm_stopIf h2 hs
          refine calm_prep_ite (calm_done (calm_decodeTrap h3 ..)) (calm_prep_ite (calm_done (calm_sliceFault h3 _)) ?_)
          split
          · split
            · next hp => exact calm_done (calm_prepareInv_stopped h3 hp)
            · next hp => exact calm_run (calm_snd (calm_prepareInv h3 ..) hp)
          · split
            · exact calm_done (calm_decodeTrap h3 ..)
            · split
              · split
                · next hp => exact calm_done (calm_prepareRep_stopped h3 hp)
                · next hp => exact calm_run (calm_snd (calm_prepareRep h3 ..) hp)
              · exact calm_run h3
          · exact calm_done (calm_decodeTrap h3 ..)

theorem calm_prepare (h : Calm r s) (k : Nat) : Calm r (prepared (s.prepare k)) := by
  unfold State.prepare
  split
  · exact h
  · split
    · exact h
    · next f hf hi =>
      have hc : Calm r { s with cur := k } := calm_of_eq h rfl rfl
      dsimp only
      split
      · exact calm_userTrap hc ..
      · split
        · exact calm_systemTrap (calm_modFibre hc ..) ..
        · split
          · next ho => exact calm_openClause_stopped hc ho
          · next ho => exact calm_prepareWord (calm_snd (calm_openClause hc ..) ho) k

theorem wf_after {u : State → State} (hu : ∀ s, Calm s (u s)) {o : Host.Outcome State Fault Refusal}
    (ho : ∀ t, o = .next t → Memory.wf t.mem = true)
    (e : after u o = .next t) : Memory.wf t.mem = true := by
  cases o with
  | next s => exact Host.Outcome.next.inj e ▸ (hu s).2 (ho s rfl)
  | fault x => cases e
  | refused x => cases e

theorem wf_take {w : Option Who} (hs : Memory.wf s.mem = true) (e : s.take w = .next t) : Memory.wf t.mem = true := by
  unfold State.take at e
  split at e
  · exact Host.Outcome.next.inj e ▸ hs
  · next k =>
    have hp := (calm_prepare (Calm.refl s) k).2 hs
    split at e
    · next hd =>
      rw [hd] at hp
      exact Host.Outcome.next.inj e ▸ (calm_follow (Calm.refl _)).2 hp
    · next hd =>
      rw [hd] at hp
      exact wf_after (fun s => calm_follow (Calm.refl s)) (fun t ht => wf_exec hp ht) e
  · split at e
    · exact wf_after (fun s => calm_followEvent (Calm.refl s)) (fun t ht => wf_exec hs ht) e
    · exact Host.Outcome.next.inj e ▸ hs

theorem noteTurn_mem (s : State) (w : Who) : (s.noteTurn w).mem = s.mem := by
  unfold State.noteTurn
  split <;> rfl

theorem wf_await (hs : Memory.wf s.mem = true) (x : Turn) : Memory.wf (s.await x).mem = true := wf_passIf (wf_passIf (wf_pass hs _))

theorem wf_nextTurn (hs : Memory.wf s.mem = true) : Memory.wf s.nextTurn.2.mem = true := by
  unfold State.nextTurn
  split
  · simpa only [noteTurn_mem] using wf_await hs _
  · dsimp only
    split
    · simpa only [noteTurn_mem] using wf_pass hs 1
    · exact wf_pass hs 1

/-- Settles O8: no part of a step writes memory but through State.putBytes and State.store, which keep the form. -/
theorem stepsKeepMemoryCanonical : Obligations.StepsKeepMemoryCanonical := by
  intro s t hs e
  exact wf_take (wf_nextTurn hs) e

end Sys2Proof.Form

/-! SUPPORT. The fabric: its words, local completion, named data, signals, links and packets (R316 to R341). -/

namespace Sys2Proof.Fabric
set_option Elab.async false
open Sys2Proof Sys2Proof.Machine Sys2Proof.ControlWords Sys2Proof.Engines

/-! ## The words (R334, R336 to R341) -/

section
variable {h : Head} {d a b c p lh : Reg} {spc : Space} {s : State} {f : Fibre}

/-- A fabric word without a local handle: its operation is launched, the fibre goes on, and the operation starts. -/
theorem fabWord_go (hf : Free f) (hc : f.ocfx ≠ 255) (i : Instr) (held waits : Bool) (make : Option Nat → FabOp) :
    let l := launched s f .fx (some d.toNat) (.fab (make none) 0 [] none .ok)
    s.fabWord s.cur f i d none held waits make = (l.2.2.finish s.cur i f l.2.1).startFab l.2.1 (make none) l.1 := by
  simp only [State.fabWord, hf.1, hf.2, counterFull_false (cls := .fx) hc, Bool.false_and, Bool.false_eq_true, if_false]
  rfl

/-- With a local handle, the handle's own operation is launched first. -/
theorem fabWord_local (hf : Free f) (hc : f.ocfx ≠ 255) (i : Instr) (held waits : Bool) (make : Option Nat → FabOp) :
    let l := launched s f .none (some lh.toNat) .resolve
    let m := l.2.2.launchOp s.cur l.2.1 .fx (some d.toNat) (.fab (make (some l.1)) 0 [] none .ok) (s.ordAt f f.rp)
    s.fabWord s.cur f i d (some lh.toNat) held waits make = (m.2.2.finish s.cur i f m.2.1).startFab m.2.1 (make (some l.1)) m.1 := by
  simp only [State.fabWord, hf.1, hf.2, counterFull_false (cls := .fx) hc, Bool.false_and, Bool.false_eq_true, if_false]
  rfl

theorem want_go {life : BitVec 4} (hx : Executes (.want h d a b c spc life) s f) (hf : Free f) (hc : f.ocfx ≠ 255)
    (hr : s.unrouted (s.jobOf f) (f.readPair s.cur b.toNat) = false) :
    let x := FabOp.want (f.place s.cur spc a) (f.readPair s.cur b.toNat) (f.read s.cur c.toNat).toNat (s.clk + 1500 * 2 ^ life.toNat)
    let l := launched s f .fx (some d.toNat) (.fab x 0 [] none .ok)
    exec (.want h d a b c spc life) s = .next ((l.2.2.finish s.cur (.want h d a b c spc life) f l.2.1).startFab l.2.1 x l.1) := by
  simp only [exec_want, execWant, issueWord_go hx, hf.1, counterFull_false (cls := .fx) hc, hr, Bool.and_false, Bool.false_eq_true, if_false]
  refine congrArg _ ?_
  split <;> rfl

theorem sigwt_go {cond : SigCond} (hx : Executes (.sigwt h d a b c p cond) s f) (hf : Free f) (hd : s.accessesDone s.cur f = true) :
    let n := (f.read s.cur c.toNat).toNat
    BeginsWait (.sigwt h d a b c p cond) s s f f
      (.sigwt (f.readPair s.cur a.toNat) cond (f.readPair s.cur b.toNat) d.toNat p.toNat (if n = 0 then none else some (s.clk + n))) := by
  simp only [BeginsWait, exec_sigwt, execSigwt, issueWord_go hx, hf.1, hd]
  rfl

end

/-- Settles O47: each word through the one launch that all share. -/
theorem fabricWordsLaunch : Obligations.FabricWordsLaunch := by
  intro h d a b c p lh addSig sig bar ty spc life cond s f hf hc
  refine ⟨fun hx => ?_, fun hx => ?_, fun hx => ?_, fun hx => ?_, fun hx => ?_, fun hx => ?_, fun hx hr => want_go hx hf hc hr,
    fun hx hd => sigwt_go hx hf hd⟩
  · simp only [exec_puts, execPuts, issueWord_go hx]
    exact congrArg _ (fabWord_go hf hc ..)
  · simp only [exec_puts, execPuts, issueWord_go hx]
    exact congrArg _ (fabWord_local hf hc ..)
  · simp only [exec_get, execGet, issueWord_go hx]
    exact congrArg _ (fabWord_go hf hc ..)
  · simp only [exec_radd, execRadd, issueWord_go hx]
    exact congrArg _ (fabWord_go hf hc ..)
  · simp only [exec_radd, execRadd, issueWord_go hx]
    exact congrArg _ (fabWord_local hf hc ..)
  · simp only [exec_announce, execAnnounce, issueWord_go hx]
    exact congrArg _ (fabWord_go hf hc ..)

/-! ## What a lost packet leaves of the links (R318, R322) -/

section
variable {α : Type} (s : State)

theorem foldl_pkg {g : State → α → State} (hg : ∀ s x, (g s x).pkg = s.pkg) (l : List α) : ∀ s : State, (l.foldl g s).pkg = s.pkg := by
  induction l with
  | nil => exact fun _ => rfl
  | cons x l ih => exact fun s => (ih _).trans (hg s x)

@[simp] theorem modJob_pkg (j : Nat) (u : Job → Job) : (s.modJob j u).pkg = s.pkg := by
  unfold State.modJob
  split <;> rfl

@[simp] theorem faultJob_pkg (j cause : Nat) : (s.faultJob j cause).pkg = s.pkg := by
  unfold State.faultJob
  split
  · rfl
  · split
    · rfl
    · simp

@[simp] theorem settleReg_pkg (k r op : Nat) (v : Word) : (s.settleReg k r op v).pkg = s.pkg := by
  unfold State.settleReg
  rw [State.modFibre_pkg]
  split
  · split
    · split <;> simp
    · rfl
  · rfl

@[simp] theorem retire_pkg (o : Op) (st : Status) : (s.retire o st).pkg = s.pkg := by
  unfold State.retire
  dsimp only
  split
  · rfl
  · exact foldl_pkg (fun s h => settleReg_pkg s ..) _ _

@[simp] theorem retireHead_pkg (fib : Nat) (c : Cls) : (s.retireHead fib c).pkg = s.pkg :=
  foldl_pkg (fun s _ => retire_pkg s ..) _ s

@[simp] theorem finishOp_pkg (id : Nat) (st : Status) : (s.finishOp id st).pkg = s.pkg := by
  unfold State.finishOp
  split
  · rfl
  · split <;> simp

@[simp] theorem finishFab_pkg (o : Op) (st : Status) : (s.finishFab o st).pkg = s.pkg := by
  unfold State.finishFab
  split
  · split <;> simp
  · simp

@[simp] theorem recordFault_pkg (k : Nat) (a : Access) (kind : MemKind) (t : Seat) : (s.recordFault k a kind t).pkg = s.pkg := by
  unfold State.recordFault
  split
  · rfl
  · refine foldl_pkg (fun s o => ?_) _ _
    split
    · split <;> simp
    · rfl

/-- Two machines whose ports stand alike. -/
def SamePorts (s t : State) : Prop := t.pkg.fpstat = s.pkg.fpstat

variable {s} {t u : State}

theorem SamePorts.of_pkg (h : t.pkg = s.pkg) : SamePorts s t := congrArg Pkg.fpstat h
theorem SamePorts.trans (h : SamePorts s t) (h' : SamePorts t u) : SamePorts s u := Eq.trans h' h

theorem samePorts_foldl {g : State → α → State} (hg : ∀ s x, SamePorts s (g s x)) (l : List α) : ∀ s : State, SamePorts s (l.foldl g s) := by
  induction l with
  | nil => exact fun _ => rfl
  | cons x l ih => exact fun s => (hg s x).trans (ih _)

end

section
variable {s : State} {r : Retx} {k : Ack}

theorem advance_fpstat (now : Nat) : ∀ (n : Nat) (p : Pkg), (Pkg.advance now n p).fpstat = p.fpstat
  | 0, _ => rfl
  | n + 1, p => by
    unfold Pkg.advance
    split
    · rfl
    · split
      · exact advance_fpstat now n _
      · rfl

/-- The answer of a failed link brings a GET no bytes to land. -/
theorem ackGet_ports (hk : k.status = .linkfail) (o : Op) (x : FabOp) (pos : Nat) (sent : List Nat) (st : Status) (dst : Place) (src : DWord)
    (off len : Nat) : ∀ t ∈ s.ackGet o x pos sent st dst src off len k, SamePorts s t := by
  have hland : (k.status == .ok || k.status == .dataerr) = false := by rw [hk]; rfl
  intro t ht
  unfold State.ackGet at ht
  split at ht
  · obtain rfl := Option.some.inj ht
    rfl
  · simp only [hland, Bool.false_and, Bool.false_eq_true, if_false] at ht
    obtain rfl := Option.some.inj ht
    exact .of_pkg rfl

theorem ackFab_ports (hk : k.status = .linkfail) (o : Op) (x : FabOp) (pos : Nat) (sent : List Nat) (data : Option (List Byte)) (st : Status)
    (pkt : PktBody) : ∀ t ∈ s.ackFab o x pos sent data st pkt k, SamePorts s t := by
  intro t ht
  unfold State.ackFab at ht
  dsimp only at ht
  split at ht
  · obtain rfl := Option.some.inj ht
    exact .of_pkg rfl
  · exact ackGet_ports hk _ _ _ _ _ _ _ _ _ t ht
  · obtain rfl := Option.some.inj ht
    exact .of_pkg (finishFab_pkg ..)
  · obtain rfl := Option.some.inj ht
    exact .of_pkg rfl

theorem ackAccess_ports (hk : k.status = .linkfail) (o : Op) (a : Access) : SamePorts s (s.ackAccess o a k) := by
  have hst : (k.status != .ok) = true := by rw [hk]; rfl
  unfold State.ackAccess
  simp only [hst, if_true]
  split
  · exact .of_pkg rfl
  · exact .of_pkg (recordFault_pkg ..)

theorem ackProg_ports (hk : k.status = .linkfail) (p : Prog) (id : Nat) (pkt : PktBody) : SamePorts s (s.ackProg p id pkt k) := by
  unfold State.ackProg
  split
  · next h => exact absurd (hk.symm.trans h) (by decide)
  · rfl

theorem ackWalk_ports (w : TWalk) (id : Nat) : SamePorts s (s.ackWalk w id k) := by
  unfold State.ackWalk
  split
  · rfl
  · dsimp only
    split_ifs <;> rfl

/-- The answer of a link that has failed ends operations and steps; no port is written. -/
theorem answered_ports (hk : k.status = .linkfail) : ∀ t ∈ s.answered r k, SamePorts s t := by
  intro t ht
  unfold State.answered at ht
  split at ht
  · obtain rfl := Option.some.inj ht
    rfl
  split at ht
  · obtain rfl := Option.some.inj ht
    rfl
  split at ht
  · obtain rfl := Option.some.inj ht
    exact ackProg_ports hk ..
  split at ht
  · obtain rfl := Option.some.inj ht
    exact ackWalk_ports ..
  split at ht
  · obtain rfl := Option.some.inj ht
    rfl
  split at ht
  · obtain rfl := Option.some.inj ht
    rfl
  split at ht
  · obtain rfl := Option.some.inj ht
    exact ackAccess_ports hk ..
  · exact ackFab_ports hk _ _ _ _ _ _ _ t ht
  · obtain rfl := Option.some.inj ht
    exact .of_pkg (finishOp_pkg ..)
  · obtain rfl := Option.some.inj ht
    rfl

theorem takeAck_ports (hk : k.status = .linkfail) : SamePorts s (s.takeAck r k) := by
  unfold State.takeAck
  split
  · next t ht => exact (answered_ports hk t ht).trans (advance_fpstat ..)
  · rfl

theorem lostInterest_ports (i : Interest) : SamePorts s (s.lostInterest i) := by
  unfold State.lostInterest
  refine .of_pkg (foldl_pkg (fun s id => ?_) _ _)
  split
  · exact finishFab_pkg ..
  · rfl

theorem lostPacket_ports : SamePorts s (s.lostPacket r) := by
  have htake : SamePorts s ((s.takeAck r ⟨r.id, .linkfail, some .dataError, []⟩).modPkg fun p =>
      { p with outq := p.outq.filter fun x => x.id != r.id }) := takeAck_ports rfl
  unfold State.lostPacket
  dsimp only
  split
  · exact htake.trans (lostInterest_ports _)
  · exact htake.trans (.of_pkg (faultJob_pkg ..))
  · exact htake.trans (.of_pkg (faultJob_pkg ..))
  · exact htake.trans (.of_pkg (faultJob_pkg ..))
  · exact htake

theorem reroute_ports : SamePorts s (s.reroute r) := by
  unfold State.reroute
  split
  · exact lostPacket_ports
  · rfl

end

/-! ## Links and packets (R316 to R322) -/

section
variable {s : State} {port : Nat}

theorem portUp_modFpstat (hp : port < s.pkg.fpstat.length) (u : Word → Word) :
    (s.modFpstat port u).pkg.portUp port = (u (s.pkg.fpstat.getD port 0)).getLsbD 31 := by
  simp [State.modFpstat, State.modPkg, Pkg.portUp, hp]

/-- With no copy of its own in the buffer, a link that goes down only moves what waits to leave by it. -/
theorem linkDown_ports (hu : s.pkg.portUp port = true) (hr : ∀ r ∈ s.pkg.retx, r.port ≠ some port) :
    SamePorts (s.modFpstat port fun w => (w &&& 0x7FFFFFFF) ||| 0x00010000) (s.linkDown port) := by
  have hnone : (s.pkg.retx.filter fun r => r.port == some port) = [] := by
    simpa only [List.filter_eq_nil_iff, beq_iff_eq] using hr
  have hretx : (s.modFpstat port fun w => (w &&& 0x7FFFFFFF) ||| 0x00010000).pkg.retx = s.pkg.retx := rfl
  unfold State.linkDown
  simp only [hu, hretx, hnone, Bool.not_true, Bool.false_eq_true, if_false, List.foldl_nil]
  exact samePorts_foldl (fun s r => reroute_ports) _ _

theorem linkDown_then_retrain (hu : s.pkg.portUp port = true) (hr : ∀ r ∈ s.pkg.retx, r.port ≠ some port) (hp : port < s.pkg.fpstat.length) :
    ∃ u, exec (.fabricLinkDown port) s = .next u ∧ u.pkg.portUp port = false ∧
      (∃ v, exec (.fabricLinkRetrain port) u = .next v ∧ v.pkg.portUp port = true) := by
  have ports := linkDown_ports hu hr
  have hlen : port < (s.linkDown port).pkg.fpstat.length := by
    rw [show (s.linkDown port).pkg.fpstat = _ from ports]
    simpa [State.modFpstat, State.modPkg] using hp
  refine ⟨_, rfl, ?_, _, rfl, ?_⟩
  · have down := portUp_modFpstat hp fun w => (w &&& 0x7FFFFFFF) ||| 0x00010000
    rw [Pkg.portUp, show (s.linkDown port).pkg.fpstat = _ from ports]
    exact down.trans (by simp)
  · exact (portUp_modFpstat hlen _).trans (by simp)

theorem fabricAckArrive_go {ack : Ack} {t : State} {r : Retx} (hr : s.pkg.retx.find? (fun r => r.id == ack.id) = some r)
    (ht : s.answered r ack = some t) : exec (.fabricAckArrive ack) s = .next (t.modPkg fun p => p.drop s.clk r.id) := by
  simp only [exec_fabricAckArrive, execFabricAckArrive, hr, State.takeAck, ht, (Form.calm_answered (Form.Calm.refl s) r ack ht).1]

theorem retransmitTimeout_go {seq : Nat} {r : Retx} (hr : s.pkg.retx.find? (fun r => r.id == seq) = some r) :
    (r.clk + 150000 ≤ s.clk → exec (.retransmitTimeout seq) s = .next (s.resend r)) ∧
    (s.clk < r.clk + 150000 → exec (.retransmitTimeout seq) s = .next s) := by
  simp only [exec_retransmitTimeout, execRetransmitTimeout, hr]
  exact ⟨fun h => congrArg _ (if_pos h), fun h => congrArg _ (if_neg (Nat.not_le.2 h))⟩

theorem flitCrcReplay_go {again : Nat} (hu : s.pkg.portUp port = true) :
    (8 < again → exec (.flitCrcReplay port again) s = .next (s.linkDown port)) ∧
    (again ≤ 8 → exec (.flitCrcReplay port again) s =
      .next (s.modFpstat port fun w => if bitsOf w.toNat 15 0 = 0xFFFF then w else w + 1)) := by
  simp only [exec_flitCrcReplay, execFlitCrcReplay, hu]
  exact ⟨fun h => congrArg _ (if_pos h), fun h => congrArg _ (if_neg (Nat.not_lt.2 h))⟩

theorem fabricPacketForward_go {pkt : Packet} (hd : pkt.dst ≠ Config.pkgNumber) (hh : 1 < pkt.hops)
    (he : s.pkg.egress pkt.dst pkt.die pkt.clu pkt.tdie = .ok port) :
    exec (.fabricPacketForward pkt) s = .next (s.modPkg fun p => { p with fwd := p.fwd ++ [(port, { pkt with hops := pkt.hops - 1 })] }) := by
  simp only [exec_fabricPacketForward, execFabricPacketForward, he]
  refine congrArg _ (if_neg ?_)
  simpa only [Bool.or_eq_true, decide_eq_true_eq, not_or, Nat.not_le] using And.intro hd hh

/-- A packet of this package with no named data is kept while an earlier one of its flow is missing, and applied in its turn. -/
theorem fabricPacketArrive_eq {pkt : Packet} (hp : port < 36) (hd : pkt.dst = Config.pkgNumber) (hi : ∀ i, pkt.body ≠ .interest i)
    (ht : ∀ i, pkt.body ≠ .tile i) (hn : s.expected pkt ≤ pkt.seq) : exec (.fabricPacketArrive port pkt) s = .next
      (if s.expected pkt < pkt.seq then s.modPkg fun p =>
        { p with early := if p.early.any fun e => flowOf e.2 == flowOf pkt && e.2.seq == pkt.seq then p.early else p.early ++ [(port, pkt)] }
      else (s.applyNext port pkt).applyHeld pkt (s.pkg.early.length + 1)) := by
  have hdst : (pkt.dst != Config.pkgNumber) = false := by simp [hd]
  simp only [exec_fabricPacketArrive, execFabricPacketArrive]
  refine congrArg _ ((if_neg (Nat.not_le.2 hp)).trans ?_)
  rw [hdst, if_neg Bool.false_ne_true, if_neg (Nat.not_lt.2 hn)]

theorem fabricPacketArrive_go {pkt : Packet} (hp : port < 36) (hd : pkt.dst = Config.pkgNumber) (hi : ∀ i, pkt.body ≠ .interest i)
    (ht : ∀ i, pkt.body ≠ .tile i) :
    (pkt.seq = s.expected pkt →
      exec (.fabricPacketArrive port pkt) s = .next ((s.applyNext port pkt).applyHeld pkt (s.pkg.early.length + 1))) ∧
    (s.expected pkt < pkt.seq → (∀ e ∈ s.pkg.early, flowOf e.2 ≠ flowOf pkt) →
      exec (.fabricPacketArrive port pkt) s = .next (s.modPkg fun p => { p with early := p.early ++ [(port, pkt)] })) := by
  refine ⟨fun hs => ?_, fun hs hearly => ?_⟩
  · rw [fabricPacketArrive_eq hp hd hi ht hs.ge, if_neg (by omega)]
  · have hnone : (s.pkg.early.any fun e => flowOf e.2 == flowOf pkt && e.2.seq == pkt.seq) = false := by
      simp only [List.any_eq_false, Bool.and_eq_true, beq_iff_eq, not_and]
      exact fun e he hf => absurd hf (hearly e he)
    rw [fabricPacketArrive_eq hp hd hi ht hs.le, if_pos hs]
    simp only [State.modPkg, hnone, Bool.false_eq_true, if_false]

end

/-! ## Local completion (R321) -/

section
variable {op : Nat} {s t : State} {o : Op} {f : Fibre} (ho : s.op? op = some o) (hf : s.fibre? o.fib = some f)
  (hh : f.holdsOp op = false) (hold : s.olderDone o = true) (hd : o.done = none)
include ho hf hh hold hd

/-- A GET from this package has its source at hand at once. -/
theorem localCompletion_get {dst : Place} {from_ : DWord} {len : Nat} {bar : Option Nat}
    (hb : o.body = .fab (.get dst from_ len bar) 0 [] none .ok) (hfl : s.flowReady o f (.get dst from_ len bar) = true)
    (hsys : dst.space ≠ .sys) (hbar : ∀ b, bar = some b → s.pieceBlocked o.fib f .sp b 16 = false)
    (hp : pkgOf from_.toNat = Config.pkgNumber) :
    exec (.localCompletion op) s = .next (s.modOp op fun y => { y with body := .fab (.get dst from_ len bar) 0 [] (some []) .ok }) := by
  have hid : o.id = op := by simpa using List.find?_some ho
  simp only [exec_localCompletion, execLocalCompletion, ho, hb, hf, hh, hold, hd, hfl, State.requestGet, hp, hid]
  refine congrArg _ ((if_neg (by decide)).trans ((if_neg ?_).trans (if_pos trivial)))
  cases bar with
  | none => simp [hsys]
  | some b => simp [hsys, hbar b rfl]

/-- A PUTS whose target is on this package takes its data and completes its local handle. -/
theorem localCompletion_puts {dst : DWord} {from_ : Place} {len l : Nat} {sg : Option (DWord × DWord × Bool)} {bs : List Byte}
    (hb : o.body = .fab (.puts dst from_ len sg (some l)) 0 [] none .ok)
    (hpb : s.pieceBlocked o.fib f from_.space from_.addr.toNat len = false) (hfl : s.flowReady o f (.puts dst from_ len sg (some l)) = true)
    (hp : pkgOf dst.toNat = Config.pkgNumber) (hg : from_.space = .g → pkgOf from_.addr.toNat = Config.pkgNumber)
    (hr : s.engineRead (some o.id) f from_.space from_.addr.toNat len = (.ok bs, t)) :
    exec (.localCompletion op) s = .next (((t.watchOp o from_.space from_.addr.toNat len false).finishOp l .ok).modOp o.id fun y =>
      { y with body := .fab (.puts dst from_ len sg (some l)) 0 [] (some bs) .ok }) := by
  have hhere : s.atHand o.id f from_.space from_.addr.toNat len none = (true, s) := atHand_here (by
    by_cases h : from_.space = .g
    · exact .inr (hg h)
    · exact .inl h)
  simp only [exec_localCompletion, execLocalCompletion, ho, hb, hf, hh, hold, hd, hfl, hpb, State.localPuts, hhere, hr, hp]
  rfl

end

/-! ## Named data and signals (R329, R331, R339) -/

section
variable {port : Nat} {s t : State}

theorem interestArrive_port {face : Interest} (hf : face.face = .port port) (hp : port < 36) :
    exec (.interestArrive port face) s = .next (match s.interestAt 4 port face with | .to u => u | _ => s) := by
  simp only [exec_interestArrive, execInterestArrive, hf]
  refine congrArg _ ((if_pos (by simp [hp])).trans ?_)
  cases s.interestAt 4 port face <;> rfl

theorem faceDeadline_want {op : Nat} {face : Interest} {o : Op} {dst : Place} {name : DWord} {cap dl : Nat} {sent : List Nat}
    (ho : s.op? op = some o) (hb : o.body = .fab (.want dst name cap dl) 0 sent none .ok) (hd : o.done = none) (hl : dl ≤ s.clk)
    (hc : s.crumbsAt port = []) :
    exec (.faceDeadline port ⟨o.job, face.name, .op op, dl, face.die, face.clu, face.hops⟩) s =
      .next ((s.setCrumbs port []).wantTile op ⟨o.job, face.name, [], false, true⟩) := by
  simp only [exec_faceDeadline, execFaceDeadline, ho, hb, hc, hd]
  exact congrArg _ (if_pos (by simp [hl]))

variable {fib : Nat} {f : Fibre} {addr x v : DWord} {cond : SigCond} {d p : Nat} {dl : Option Nat}

/-- A look at a signal on this package: its value returns to the fibre where the condition holds, or its time is over. -/
theorem lookSignal_value (hs : s.signalOp fib = none) (hw : s.walkBlocked f .g addr.toNat 8 .read = false)
    (hr : s.readSignal f addr = (.value v, t)) (late : Bool) : s.lookSignal fib f addr cond x d p late =
      if sigHolds cond v x || late then
        t.modFibre fib fun g => ((((t.acquireSignal f addr d g).setRun d (dwords v)).setPred p (sigHolds cond v x)).leaveWait 2)
      else t := by
  simp only [State.lookSignal, hs, hw, hr]
  rfl

theorem sigwt_events (hf : s.fibre? fib = some f) (hrun : f.run = .waiting .sigwt) (hwait : f.wait = some (.sigwt addr cond x d p dl))
    (hs : s.signalOp fib = none) (hw : s.walkBlocked f .g addr.toNat 8 .read = false) (hr : s.readSignal f addr = (.value v, t)) :
    let back : Bool → Host.Outcome State Fault Refusal := fun hit =>
      .next (t.modFibre fib fun g => ((((t.acquireSignal f addr d g).setRun d (dwords v)).setPred p hit).leaveWait 2))
    (sigHolds cond v x = true → exec (.sigwtRecheck fib) s = back true) ∧ (sigHolds cond v x = false → exec (.sigwtRecheck fib) s = .next t) ∧
    (∀ t0, dl = some t0 → t0 ≤ s.clk → exec (.sigwtTimeout fib) s = back (sigHolds cond v x)) := by
  intro back
  simp only [exec_sigwtRecheck, execSigwtRecheck, exec_sigwtTimeout, execSigwtTimeout, hf, hrun, hwait]
  refine ⟨fun hc => ?_, fun hc => ?_, fun t0 ht hle => ?_⟩
  · rw [lookSignal_value hs hw hr, hc]
    rfl
  · rw [lookSignal_value hs hw hr, hc]
    rfl
  · subst ht
    refine congrArg _ ((if_neg (Nat.not_lt.2 hle)).trans ?_)
    rw [lookSignal_value hs hw hr, Bool.or_true, if_pos rfl]

theorem sigHolds_eq : sigHolds cond v x =
    match cond with | .ge => decide (x.toNat ≤ v.toNat) | .eq => decide (v = x) | .ne => decide (v ≠ x) := by
  cases cond
  · rfl
  · rfl
  · simp [sigHolds, bne, beq_eq_decide]

end

/-- Settles O48: the events of operations by where their data are, those of links by the packet or port they name. -/
theorem fabricEventsAct : Obligations.FabricEventsAct := by
  refine ⟨fun op port fib face tile s t o f v cond x addr d p dl bs => ?_, fun port again seq ack pkt s t r => ?_⟩
  · refine ⟨fun dst from_ len bar ho hb hf hh hold hd hfl hsys hbar hp => localCompletion_get ho hf hh hold hd hb hfl hsys hbar hp,
      fun dst from_ len sg l ho hb hf hh hold hd hpb hfl hp hg hr => localCompletion_puts ho hf hh hold hd hb hpb hfl hp hg hr,
      interestArrive_port, fun hp => congrArg _ (if_pos hp),
      fun dst name cap dl sent ho hb hd hl hc hp => faceDeadline_want ho hb hd hl hc, fun hf hrun hwait hs hw hr => ?_⟩
    have events := sigwt_events hf hrun hwait hs hw hr
    rw [sigHolds_eq] at events
    exact events
  · exact ⟨fabricAckArrive_go, retransmitTimeout_go, flitCrcReplay_go, linkDown_then_retrain, fabricPacketForward_go, fabricPacketArrive_go⟩

end Sys2Proof.Fabric

/-! SUPPORT. Tile walks, their permits and collective programs as they start (R326, R342 to R344). -/

namespace Sys2Proof.Walks
set_option Elab.async false
open Sys2Proof Sys2Proof.Machine Sys2Proof.ControlWords Sys2Proof.Engines

section
variable {h : Head} {d a b : Reg} {s : State} {f : Fibre}

/-- A range of this package whose pages have no walk to wait for is at hand. -/
theorem wordReads_here {k addr n : Nat} {g : Fibre} (hw : s.walkBlocked g .g addr n .read = false) (hp : pkgOf addr = Config.pkgNumber) :
    s.wordReads k g addr n = (true, s) := by
  simp only [State.wordReads, hw, Bool.false_eq_true, if_false]
  exact atHand_here (.inr hp)

/-- How a fabric word that has waited for its room and its descriptor starts. -/
def Starts (s : State) (i : Instr) (d : Reg) (f : Fibre) (u : State) (x : FabOp) (go : State → Op → State) : Prop :=
  exec i s = .next (u.issueFab s.cur i f d x go)

theorem twalk_fault {tag port : BitVec 6} (hx : Executes (.twalk h d a tag port) s f) (hf : Free f)
    (hd : s.accessesDone s.cur f = true) (hc : f.ocfx ≠ 255) (hw : (s.pkg.walks.filter fun w => w.port == port.toNat).length < 64)
    (hn : ¬(s.fabOk f (.twalk (f.readPair s.cur a.toNat) port.toNat tag.toNat) = true ∧
      s.walkOfKey (s.jobOf f) port.toNat tag.toNat = none)) :
    Starts s (.twalk h d a tag port) d f s (.twalk (f.readPair s.cur a.toNat) port.toNat tag.toNat) fun u o => u.finishFab o .fault := by
  simp only [Starts, exec_twalk, execTwalk, issueWord_go hx, hf.1, hf.2, counterFull_false (cls := .fx) hc, hd, Nat.not_le.2 hw,
    Bool.false_eq_true, Bool.not_true, if_false]
  refine congrArg _ (if_pos ?_)
  rw [Bool.or_eq_true, Bool.not_eq_true', Option.isSome_iff_ne_none, ← Bool.not_eq_true]
  exact not_and_or.1 hn

theorem twalk_starts {tag port : BitVec 6} {bs : List Byte} {t : State} (hx : Executes (.twalk h d a tag port) s f) (hf : Free f)
    (hd : s.accessesDone s.cur f = true) (hc : f.ocfx ≠ 255) (hw : (s.pkg.walks.filter fun w => w.port == port.toNat).length < 64)
    (ho : s.fabOk f (.twalk (f.readPair s.cur a.toNat) port.toNat tag.toNat) = true)
    (hk : s.walkOfKey (s.jobOf f) port.toNat tag.toNat = none) (hp : pkgOf (f.readPair s.cur a.toNat).toNat = Config.pkgNumber)
    (hb : s.walkBlocked (s.agent (s.site f).die (s.jobOf f) (0x4301 + port.toNat)) .g (f.readPair s.cur a.toNat).toNat 160 .read = false)
    (hr : s.engineRead none (s.agent (s.site f).die (s.jobOf f) (0x4301 + port.toNat)) .g (f.readPair s.cur a.toNat).toNat 160 = (.ok bs, t)) :
    Starts s (.twalk h d a tag port) d f t (.twalk (f.readPair s.cur a.toNat) port.toNat tag.toNat)
      fun u o => u.beginTileWalk o port.toNat tag.toNat (s.site f).die bs := by
  simp only [Starts, exec_twalk, execTwalk, issueWord_go hx, hf.1, hf.2, counterFull_false (cls := .fx) hc, hd, Nat.not_le.2 hw,
    ho, hk, wordReads_here hb hp, hr, Option.isSome_none, Bool.or_false, Bool.false_eq_true, Bool.not_true, if_false]

theorem cseq_starts {bs : List Byte} {t : State} (hx : Executes (.cseq h d a b) s f) (hf : Free f) (hd : s.accessesDone s.cur f = true)
    (hc : f.ocfx ≠ 255) (hw : (s.pkg.progs.filter (·.live)).length < 64)
    (ho : s.fabOk f (.cseq (f.readPair s.cur a.toNat) (f.read s.cur b.toNat)) = true)
    (hk : s.progOf (s.jobOf f) (f.read s.cur b.toNat).toNat = none)
    (hr : s.readProg s.cur (s.agent (s.site f).die (s.jobOf f) 0x4300) (f.readPair s.cur a.toNat).toNat = (some (.ok bs), t))
    (hm : t.chunkRoom bs = true) :
    Starts s (.cseq h d a b) d f t (.cseq (f.readPair s.cur a.toNat) (f.read s.cur b.toNat))
      fun u o => u.startProg o (s.site f).die (f.read s.cur b.toNat).toNat bs := by
  simp only [Starts, exec_cseq, execCseq, issueWord_go hx, hf.1, hf.2, counterFull_false (cls := .fx) hc, hd, Nat.not_le.2 hw,
    ho, hk, hr, hm, Option.isSome_none, Bool.or_false, Bool.false_eq_true, Bool.not_true, if_false]

theorem permit_none (hx : Executes (.permit h d a b) s f) (hf : Free f)
    (hk : s.walkOfKey (s.jobOf f) (bitsOf (f.read s.cur a.toNat).toNat 5 0) (bitsOf (f.read s.cur a.toNat).toNat 11 6) = none) :
    Leaves (.permit h d a b) s s f (f.setPred d.toNat false) := by
  simp only [Leaves, exec_permit, execPermit, issueWord_go hx, hf.1, hf.2, hk, Bool.false_eq_true, if_false]

theorem permit_launches {w : TWalk} (hx : Executes (.permit h d a b) s f) (hf : Free f)
    (hk : s.walkOfKey (s.jobOf f) (bitsOf (f.read s.cur a.toNat).toNat 5 0) (bitsOf (f.read s.cur a.toNat).toNat 11 6) = some w)
    (h15 : (f.read s.cur a.toNat).toNat < 2 ^ 15) (he : bitsOf (f.read s.cur a.toNat).toNat 14 12 < w.dests.length)
    (hb : (f.read s.cur b.toNat).toNat < w.k) :
    Launches (.permit h d a b) s f .none none
      (.permit w.id (bitsOf (f.read s.cur a.toNat).toNat 14 12) (f.read s.cur b.toNat).toNat d.toNat) := by
  simp only [Launches, Leaves, exec_permit, execPermit, issueWord_go hx, hf.1, hf.2, hk, ge_iff_le, Nat.not_le.2 h15, Nat.not_le.2 he,
    Nat.not_le.2 hb, decide_false, Bool.or_false, Bool.false_eq_true, if_false]
  rfl

/-- A permit that arrives at its walk is counted there, once, and told to its fibre. -/
theorem walkPermitArrive_go {op e buf pd : Nat} {o : Op} {w : TWalk} (ho : s.op? op = some o) (hb : o.body = .permit w.id e buf pd)
    (hold : s.olderDone o = true) (hg : o.gone = false) (hw : s.walk? w.id = some w) (hn : (e, buf) ∉ w.permits) :
    exec (.walkPermitArrive op) s = .next (((s.dropOp op).modWalk w.id fun w =>
      if w.permits.contains (e, buf) then w else { w with permits := w.permits ++ [(e, buf)] }).modFibre o.fib fun f => f.setPred pd true) := by
  have ht : w.permits.contains (e, buf) = false := by simpa using hn
  simp only [exec_walkPermitArrive, execWalkPermitArrive, ho, hb, hold, hg, hw, Option.map_some, Option.getD_some, Bool.not_true,
    Bool.false_eq_true, if_false, ht, Bool.not_false]

end

section
variable {s : State} {w : TWalk} {walk : Nat} (hw : s.walk? walk = some w)
include hw

theorem tileWalkTile_storer (ho : w.openDests ≠ []) (hs : w.storer = true) :
    exec (.tileWalkTile walk) s = .next ((s.storerStep w).endWalk walk) := by
  simp only [exec_tileWalkTile, execTileWalkTile, hw, hs, List.isEmpty_eq_false_iff.2 ho, Bool.false_eq_true, if_false, if_true]

theorem tileWalkTile_loader {e : Nat} (ho : w.openDests ≠ []) (hs : w.storer = false) (hn : s.nextDest w = some e) :
    exec (.tileWalkTile walk) s = .next ((s.loadTile w e).endWalk walk) := by
  simp only [exec_tileWalkTile, execTileWalkTile, hw, hs, hn, List.isEmpty_eq_false_iff.2 ho, Bool.false_eq_true, if_false]

/-- A walk whose destinations have had their tiles, and whose packets are acknowledged, ends with its status. -/
theorem tileWalkTile_ends {o : Op} (hd : w.openDests = []) (ha : w.acks = []) (ho : s.op? w.op = some o) :
    exec (.tileWalkTile walk) s =
      .next ((s.modPkg fun p => { p with walks := p.walks.filter fun x => x.id != walk }).finishFab o w.st) := by
  have ho' : (s.modPkg fun p => { p with walks := p.walks.filter fun x => x.id != walk }).op? w.op = some o := ho
  simp only [exec_tileWalkTile, execTileWalkTile, State.endWalk, hw, hd, ha, List.isEmpty_nil, if_true, Bool.not_true, Bool.or_false,
    Bool.false_eq_true, if_false, ho']

end

/-- Settles O49: the words start what their registers give, a permit arrives once, and a walk serves its next destination or ends. -/
theorem walksAct : Obligations.WalksAct := by
  refine ⟨fun h d a b tag port op s t f o w bs => ⟨fun hx hf hd hc hw => ⟨fun hn => ?_, fun hfree hp hb hr => ?_⟩,
    fun hx hf hd hc hw ho hk hr hm => ?_, fun hx hf => ⟨permit_none hx hf, permit_launches hx hf⟩,
    fun e buf pd ho hb hold hg hw hn => walkPermitArrive_go ho hb hold hg hw hn⟩,
    fun walk e s w hw => ⟨tileWalkTile_storer hw, tileWalkTile_loader hw, fun o hd ha ho => tileWalkTile_ends hw hd ha ho⟩⟩
  · exact twalk_fault hx hf hd hc hw hn
  · exact twalk_starts hx hf hd hc hw hfree.1 hfree.2 hp hb hr
  · exact cseq_starts hx hf hd hc hw ho hk hr hm

end Sys2Proof.Walks

/-! SUPPORT. The steps of a collective program on this package, and what comes to it from another (R323 to R325). -/

namespace Sys2Proof.Collectives
set_option Elab.async false
open Sys2Proof Sys2Proof.Machine

/-! ## The steps (R324) -/

/-- The chunk that a program's SEND puts in a slot. -/
def outChunk (p : Prog) : CollMsg :=
  ⟨p.job, p.tag, Config.pkgNumber, p.step.s, p.ty, (p.accOf p.step.c).map fun v => w64 (wire p.ty v.toNat), p.ord, .ok⟩

section
variable {prog : Nat} {s t : State} {p : Prog}

theorem receiveStep_go {m : CollMsg} (hm : look p.step.s p.slots = some m) (hty : m.ty = p.ty) (hn : m.values.length = p.count p.step.c) (add : Bool) :
    s.receiveStep p p.step add =
      (s.modProg p.id fun q =>
        { q.setAcc p.step.c (if add then ((p.accOf p.step.c).zip (m.values.map fun v => widen p.ty v.toNat)).map fun e =>
            w64 (collAdd p.ty e.1.toNat e.2) else (m.values.map fun v => widen p.ty v.toNat).map w64) with
          slots := q.slots.filter fun e => e.1 != p.step.s }).nextStep p false := by
  have hok : (m.ty != p.ty || m.values.length != p.count p.step.c) = false := by simp [hty, hn]
  simp only [State.receiveStep, hm, hok, Bool.false_eq_true, if_false]

/-- A step whose packets are not out begins. -/
theorem awaitStep_begins (hs : p.sent = none) (u : State) (begin_ done : State → State) : u.awaitStep p begin_ done = begin_ u := by
  simp only [State.awaitStep, hs]

variable (hp : s.prog? prog = some p)
include hp

/-- The event of a step acts where the program stands at a step of its OP. -/
theorem collStep_go {op : Nat} (ho : p.step.op = op) (body : Prog → CollStep → State) : s.collStep prog op body = .next (body p p.step) := by
  simp only [State.collStep, hp, ho, if_true]

theorem collEnd_go (ho : p.step.op = 0) : exec (.collEnd prog) s = .next (s.endProg p (if p.bad then .dataerr else .ok)) := by
  simp only [exec_collEnd, execCollEnd]
  exact collStep_go hp ho _

theorem collRecvAdd_go {m : CollMsg} (ho : p.step.op = 4) (hm : look p.step.s p.slots = some m) (hty : m.ty = p.ty)
    (hn : m.values.length = p.count p.step.c) :
    exec (.collRecvAdd prog) s = .next ((s.modProg p.id fun q =>
      { q.setAcc p.step.c (((p.accOf p.step.c).zip (m.values.map fun v => widen p.ty v.toNat)).map fun e => w64 (collAdd p.ty e.1.toNat e.2)) with
        slots := q.slots.filter fun e => e.1 != p.step.s }).nextStep p false) := by
  simp only [exec_collRecvAdd, execCollRecvAdd, collStep_go hp ho, receiveStep_go hm hty hn, if_true]

theorem collRecvCopy_go {m : CollMsg} (ho : p.step.op = 5) (hm : look p.step.s p.slots = some m) (hty : m.ty = p.ty)
    (hn : m.values.length = p.count p.step.c) :
    exec (.collRecvCopy prog) s = .next ((s.modProg p.id fun q =>
      { q.setAcc p.step.c ((m.values.map fun v => widen p.ty v.toNat).map w64) with
        slots := q.slots.filter fun e => e.1 != p.step.s }).nextStep p false) := by
  simp only [exec_collRecvCopy, execCollRecvCopy, collStep_go hp ho, receiveStep_go hm hty hn, Bool.false_eq_true, if_false]

theorem collWaitge_go {bs : List Byte} (ho : p.step.op = 8) (hr : s.engineRead (some p.op) (p.agent s) .g p.step.a 8 = (.ok bs, t)) :
    (p.step.c ≤ leNat bs → exec (.collWaitge prog) s = .next (t.nextStep p false)) ∧
    (leNat bs < p.step.c → exec (.collWaitge prog) s = .next t) := by
  simp only [exec_collWaitge, execCollWaitge, collStep_go hp ho, hr]
  exact ⟨fun h => congrArg _ (if_pos h), fun h => congrArg _ (if_neg (Nat.not_le.2 h))⟩

variable (hs : p.sent = none)
include hs

theorem collLoad_go {vs : List DWord} {bad : Bool} (ho : p.step.op = 1)
    (hh : pkgOf ((p.src.toNat + p.first p.step.c * collWidth p.ty) % 2 ^ 64) = Config.pkgNumber)
    (hr : s.readElems p.op (p.agent s) (collWidth p.ty) ((p.src.toNat + p.first p.step.c * collWidth p.ty) % 2 ^ 64) (p.count p.step.c) =
      (.ok (vs, bad), t)) :
    exec (.collLoad prog) s = .next ((t.modProg p.id fun q => q.setAcc p.step.c vs).nextStep p bad) := by
  simp only [exec_collLoad, execCollLoad, collStep_go hp ho, awaitStep_begins hs, hh, if_true, hr]
  cases bad <;> rfl

theorem collSend_go (ho : p.step.op = 2) (hh : p.step.p = Config.pkgNumber) (hl : look p.step.s p.slots = none) (hg : p.step.s ∉ p.granted) :
    exec (.collSend prog) s = .next ((s.modProg p.id fun q => { q with slots := assign p.step.s (outChunk p) q.slots }).nextStep p false) := by
  have hgc : p.granted.contains p.step.s = false := by simpa using hg
  simp only [exec_collSend, execCollSend, collStep_go hp ho, awaitStep_begins hs, hh, hl, hgc, if_true, Option.isSome_none, Bool.or_self,
    Bool.false_eq_true, if_false, outChunk]

theorem collRadd_go (ho : p.step.op = 3) (hty : p.ty ≠ 0) (hh : pkgOf p.step.a = Config.pkgNumber)
    (hr : s.raddElems (p.agent s) (if p.ty = 2 then .s64 else .s32) p.step.a ((p.accOf p.step.c).map (·.toNat)) = (.ok, t)) :
    exec (.collRadd prog) s = .next (t.nextStep p false) := by
  simp only [exec_collRadd, execCollRadd, collStep_go hp ho, hty, if_false, awaitStep_begins hs, hh, if_true, hr]
  rfl

theorem collWrite_go (ho : p.step.op = 6)
    (hh : pkgOf ((p.dst.toNat + p.first p.step.c * (if p.dfmt = 1 then 2 else collWidth p.ty)) % 2 ^ 64) = Config.pkgNumber)
    (hw : s.engineWrite s.fibres.length (p.agent s) none .g false
      ((p.dst.toNat + p.first p.step.c * (if p.dfmt = 1 then 2 else collWidth p.ty)) % 2 ^ 64) ((p.accOf p.step.c).flatMap p.outBytes) =
        (none, t)) :
    exec (.collWrite prog) s = .next ((t.modProg p.id fun q => { q with acc := q.acc.filter fun e => e.1 != p.step.c }).nextStep p false) := by
  simp only [exec_collWrite, execCollWrite, collStep_go hp ho, awaitStep_begins hs, hh, if_true, hw]
  rfl

theorem collSignal_go (ho : p.step.op = 7) (hh : pkgOf p.step.a = Config.pkgNumber)
    (hw : s.signalHere (p.agent s) none p.step.a true 1 = (none, t)) : exec (.collSignal prog) s = .next (t.nextStep p false) := by
  simp only [exec_collSignal, execCollSignal, collStep_go hp ho, awaitStep_begins hs, hh, if_true, hw]
  rfl

end

/-! ## Between sequencers (R324, R325) -/

section
variable {m : CollMsg} {s t : State} {p : Prog}

/-- A chunk enters the empty slot whose credit its program gave out. -/
theorem collChunkArrive_go (hp : s.progOf m.job m.tag = some p) (hn : m.slot < 16) (hg : m.slot ∈ p.granted) (hl : look m.slot p.slots = none) :
    exec (.collChunkArrive m) s = .next (s.modProg p.id fun q =>
      { q with slots := assign m.slot m q.slots, granted := q.granted.filter (· != m.slot) }) := by
  have hgc : p.granted.contains m.slot = true := by simpa using hg
  simp only [exec_collChunkArrive, execCollChunkArrive, State.chunkArrives, hp, ge_iff_le, Nat.not_le.2 hn, hgc, hl, decide_false,
    Bool.not_true, Bool.or_self, Option.isSome_none, Bool.false_eq_true, if_false]

/-- A credit of another package is kept once. -/
theorem collCreditGrant_kept (hm : m.peer ≠ Config.pkgNumber) (hc : (m.job, m.tag, m.peer, m.slot) ∉ s.pkg.credits) :
    exec (.collCreditGrant m) s = .next (s.modPkg fun p => { p with credits := p.credits ++ [(m.job, m.tag, m.peer, m.slot)] }) := by
  have hcc : s.pkg.credits.contains (m.job, m.tag, m.peer, m.slot) = false := by simpa using hc
  simp only [exec_collCreditGrant, execCollCreditGrant, bne_iff_ne.2 hm, if_true, State.creditArrives, hcc, Bool.false_eq_true, if_false]

/-- The credit of an empty slot of a running program is sent. -/
theorem collCreditGrant_sent {id : Nat} (hm : m.peer = Config.pkgNumber) (hp : s.progOf m.job m.tag = some p) (hn : m.slot < 16)
    (ho : m.ord ≠ Config.pkgNumber) (hg : m.slot ∉ p.granted) (hl : look m.slot p.slots = none)
    (hs : s.send ⟨p.die, 0, 0⟩ p.job 0x4300 m.ord 0 0 .write (.credit ⟨p.job, p.tag, Config.pkgNumber, m.slot, 0, [], 0, .ok⟩) none = (.ok id, t)) :
    exec (.collCreditGrant m) s = .next (t.modProg p.id fun q => { q with granted := q.granted ++ [m.slot] }) := by
  have hgc : p.granted.contains m.slot = false := by simpa using hg
  simp only [exec_collCreditGrant, execCollCreditGrant, hm, bne_self_eq_false, Bool.false_eq_true, if_false, hp, ge_iff_le, Nat.not_le.2 hn,
    ho, hgc, hl, Option.isSome_none, decide_false, Bool.or_self, hs]

/-- An abort ends the run it names. -/
theorem collAbortReceive_ends (hp : s.progOf m.job m.tag = some p) (ho : p.ord = m.ord) :
    exec (.collAbortReceive m) s = .next ((s.sendAborts p (some m.peer) m.status).endProg p m.status) := by
  simp only [exec_collAbortReceive, execCollAbortReceive, State.abortArrives, hp]
  exact congrArg _ (if_pos ho)

/-- An abort of a run that has been is nothing. -/
theorem collAbortReceive_past (hp : s.progOf m.job m.tag = none) (ho : m.ord ≤ s.runsOf m.job m.tag) :
    exec (.collAbortReceive m) s = .next s := by
  simp only [exec_collAbortReceive, execCollAbortReceive, State.abortArrives, hp]
  exact congrArg _ (if_pos ho)

end

/-- Settles O50: each step from its program's registers, chunks and credits. -/
theorem collectivesRun : Obligations.CollectivesRun := by
  refine ⟨fun prog s t p x hp hx hs => ?_, fun m s t p id => ⟨collChunkArrive_go, collCreditGrant_kept, collCreditGrant_sent,
    collAbortReceive_ends, collAbortReceive_past⟩⟩
  subst hx
  exact ⟨collEnd_go hp, fun vs bad => collLoad_go hp hs, collSend_go hp hs, collRadd_go hp hs,
    fun m hm hty hn => ⟨fun ho => collRecvAdd_go hp ho hm hty hn, fun ho => collRecvCopy_go hp ho hm hty hn⟩,
    collWrite_go hp hs, collSignal_go hp hs, fun bs => collWaitge_go hp⟩

end Sys2Proof.Collectives

/-! SUPPORT. What an access changes as it is issued and as it is performed (R164, R165, R167, R288). -/

namespace Sys2Proof.AccessFrames
set_option Elab.async false
open Sys2Proof Sys2Proof.Machine Sys2Proof.MemoryWords

/-! ## Memory, queues and the clk as they were -/

/-- Memory, queues and the clk are as they were. -/
def Still (s t : State) : Prop := t.mem = s.mem ∧ t.queues = s.queues ∧ t.clk = s.clk
/-- And no checkpoint has come to lie in a backing area. -/
def Quiet (s t : State) : Prop := Still s t ∧ (NoneSpilled s → NoneSpilled t)

section
variable {r s t : State}

theorem Still.refl (s : State) : Still s s := ⟨rfl, rfl, rfl⟩
theorem Still.trans (h : Still r s) (h' : Still s t) : Still r t := by
  obtain ⟨hm, hq, hc⟩ := h
  obtain ⟨hm', hq', hc'⟩ := h'
  exact ⟨hm'.trans hm, hq'.trans hq, hc'.trans hc⟩
theorem Quiet.refl (s : State) : Quiet s s := ⟨.refl s, id⟩
theorem Quiet.trans (h : Quiet r s) (h' : Quiet s t) : Quiet r t := ⟨h.1.trans h'.1, fun hn => h'.2 (h.2 hn)⟩

theorem quiet_of_eq (h : Quiet r s) (hst : Still s t) (hf : t.fibres = s.fibres) : Quiet r t := by
  refine ⟨h.1.trans hst, fun hn f hm => h.2 hn f ?_⟩
  rwa [hf] at hm

theorem quiet_mapFibres (h : Quiet r s) {u : Nat → Fibre → Fibre} (hu : ∀ k f, (u k f).ckpt = f.ckpt) : Quiet r (s.mapFibres u) := by
  refine ⟨h.1, fun hn g hg c hc => ?_⟩
  obtain ⟨i, hi, rfl⟩ := List.mem_mapIdx.1 hg
  exact h.2 hn _ (List.getElem_mem hi) c (by rw [← hu]; exact hc)

theorem quiet_modFibre (h : Quiet r s) (k : Nat) {u : Fibre → Fibre} (hu : ∀ f c, (∀ c, f.ckpt = some c → c.spilled = none) → (u f).ckpt = some c →
    c.spilled = none) : Quiet r (s.modFibre k u) := by
  refine ⟨h.1, fun hn g hg c hc => ?_⟩
  obtain ⟨i, hi, rfl⟩ := List.getElem_of_mem hg
  simp only [State.modFibre_fibres, List.length_modify] at hi
  simp only [State.modFibre_fibres, List.getElem_modify] at hc
  have hs := h.2 hn _ (List.getElem_mem hi)
  split at hc
  · exact hu _ _ hs hc
  · exact hs c hc

theorem quiet_foldl {α : Type} {g : State → α → State} (hg : ∀ s x, Quiet r s → Quiet r (g s x)) (l : List α) :
    ∀ s, Quiet r s → Quiet r (l.foldl g s) := by
  induction l with
  | nil => exact fun _ h => h
  | cons x l ih => exact fun s h => ih _ (hg s x h)

theorem quiet_ite {c : Prop} [Decidable c] (hs : Quiet r s) (ht : Quiet r t) : Quiet r (if c then s else t) := by
  split
  · exact hs
  · exact ht

theorem quiet_snd {α : Type} {p : α × State} {a : α} (h : Quiet r p.2) (e : p = (a, t)) : Quiet r t := by
  subst e
  exact h

theorem quiet_modPkg (h : Quiet r s) (u : Pkg → Pkg) : Quiet r (s.modPkg u) := quiet_of_eq h (.refl s) rfl
theorem quiet_fresh (h : Quiet r s) : Quiet r s.fresh.2 := quiet_of_eq h (.refl s) rfl
theorem quiet_modJob (h : Quiet r s) (j : Nat) (u : Job → Job) : Quiet r (s.modJob j u) := by
  unfold State.modJob
  exact quiet_ite h (quiet_of_eq h (.refl s) rfl)

/-! ## Alarms: a fault of a job stops its fibres and writes nothing -/

theorem hold_ckpt (f : Fibre) (clk : Nat) (x : Holder) : (f.hold clk x).ckpt = f.ckpt := by
  unfold Fibre.hold
  split <;> rfl

theorem askStop_ckpt (f : Fibre) (clk : Nat) (x : Holder) : (f.askStop clk x).ckpt = f.ckpt := by
  unfold Fibre.askStop
  simp only [apply_ite Fibre.ckpt, hold_ckpt, ite_self]

theorem quiet_faultJob (h : Quiet r s) (j cause : Nat) : Quiet r (s.faultJob j cause) := by
  unfold State.faultJob
  split
  · exact h
  · refine quiet_ite h (quiet_mapFibres (quiet_modJob h ..) fun k f => ?_)
    split
    · split
      · exact hold_ckpt ..
      · exact askStop_ckpt ..
    · rfl

theorem quiet_tdiError (h : Quiet r s) (fn : Nat) : Quiet r (s.tdiError fn) :=
  quiet_foldl (fun _ j hs => quiet_faultJob hs j 3) _ _ (quiet_modPkg h _)

theorem quiet_alarm (h : Quiet r s) (src addr target master job : Nat) : Quiet r (s.alarm src addr target master job) := by
  grind [State.alarm, quiet_modPkg, quiet_faultJob, quiet_foldl, quiet_tdiError]

/-! ## Finding a place -/

theorem quiet_checkTarget (h : Quiet r s) (now : Bool) (target master job : Nat) (a : Acc) (addr loc : Nat) :
    Quiet r (s.checkTarget now target master job a addr loc).2 := by
  unfold State.checkTarget
  split_ifs
  · exact h
  · exact h
  · exact h
  · exact quiet_alarm h ..

theorem quiet_checkLeaf (h : Quiet r s) (now : Bool) (x : Tlb) (die va master job : Nat) (spc : Space) (a : Acc) :
    Quiet r (s.checkLeaf now x die va master job spc a).2 := by
  unfold State.checkLeaf
  split
  · exact h
  · exact quiet_checkTarget h ..

theorem quiet_findLocal (h : Quiet r s) (now : Bool) (p : Site) (job va master : Nat) (spc : Space) (a : Acc) :
    Quiet r (s.findLocal now p job va master spc a).2 := by
  unfold State.findLocal
  split
  · exact h
  · split
    · exact quiet_checkLeaf h ..
    · split <;> exact h

theorem quiet_place (h : Quiet r s) (now : Bool) (f : Fibre) (spc : Space) (addr n : Nat) (a : Acc) : Quiet r (s.place now f spc addr n a).2 := by
  unfold State.place
  split <;> grind [quiet_checkTarget, quiet_findLocal]

theorem quiet_arriveAt (h : Quiet r s) (master job : Nat) (a : Acc) (off loc : Nat) : Quiet r (s.arriveAt master job a off loc).2 := by
  unfold State.arriveAt
  split
  · exact quiet_checkTarget h ..
  · exact h

/-! ## Packets of another package's bytes -/

theorem quiet_send (h : Quiet r s) (p : Site) (job master dst tdie addr : Nat) (a : Acc) (body : PktBody) (op : Option Nat) :
    Quiet r (s.send p job master dst tdie addr a body op).2 := by
  unfold State.send
  split
  · exact h
  · split
    · exact quiet_alarm h ..
    · exact quiet_modPkg (quiet_fresh h) _

theorem quiet_withCarried (h : Quiet r s) (x : List Carry) : Quiet r { s with carried := x } := quiet_of_eq h (.refl s) rfl

theorem quiet_askPiece (h : Quiet r s) (id : Nat) (f : Fibre) (addr n : Nat) (w : Option (List Byte)) : Quiet r (s.askPiece id f addr n w).2 := by
  unfold State.askPiece
  split
  · exact h
  · split
    · exact h
    · dsimp only
      split
      · next hs => exact quiet_withCarried (quiet_snd (quiet_send h ..) hs) _
      · next hs => exact quiet_withCarried (quiet_snd (quiet_send h ..) hs) _

theorem quiet_askPieces (h : Quiet r s) (id : Nat) (f : Fibre) (start : Nat) (w : Option (List Byte)) (l : List (Nat × Nat)) :
    Quiet r (s.askPieces id f start w l).2 := by
  induction l generalizing s with
  | nil => exact h
  | cons p l ih => exact ih (quiet_askPiece h ..)

theorem quiet_atHand (h : Quiet r s) (id : Nat) (f : Fibre) (spc : Space) (addr n : Nat) (w : Option (List Byte)) :
    Quiet r (s.atHand id f spc addr n w).2 := by
  unfold State.atHand
  split
  · exact h
  · exact quiet_withCarried (quiet_askPieces h ..) _

/-! ## An access-slice fault, where no checkpoint lies in a backing area -/

/-- Memory, queues and the clk are as they were, and no checkpoint lies in a backing area. -/
def Lies (s t : State) : Prop := Still s t ∧ NoneSpilled t

theorem Lies.quiet (h : Lies r s) (h' : Quiet s t) : Lies r t := ⟨h.1.trans h'.1, h'.2 h.2⟩
theorem lies_of_eq (h : Lies r s) (hst : Still s t) (hf : t.fibres = s.fibres) : Lies r t := h.quiet (quiet_of_eq (.refl s) hst hf)

theorem lies_foldl {α : Type} {g : State → α → State} (hg : ∀ s x, Lies r s → Lies r (g s x)) (l : List α) :
    ∀ s, Lies r s → Lies r (l.foldl g s) := by
  induction l with
  | nil => exact fun _ h => h
  | cons x l ih => exact fun s h => ih _ (hg s x h)

theorem lies_modFibre (h : Lies r s) (k : Nat) {u : Fibre → Fibre} (hu : ∀ f, (u f).ckpt = f.ckpt) : Lies r (s.modFibre k u) :=
  h.quiet (quiet_modFibre (.refl s) k fun f c hs hc => hs c (by rwa [hu] at hc))

theorem settled_spilled (c : Checkpoint) (q op : Nat) (v : Word) : (c.settled q op v).spilled = c.spilled := by
  unfold Checkpoint.settled
  split <;> rfl

/-- A result enters its register, and the copy its fibre's checkpoint has of it, which lies in no backing area. -/
theorem lies_settleReg (h : Lies r s) (k q op : Nat) (v : Word) : Lies r (s.settleReg k q op v) := by
  unfold State.settleReg
  refine Lies.quiet ?_ (quiet_modFibre (.refl _) k fun f c hf hc => ?_)
  · split
    · next c hc =>
      obtain ⟨f, hf, hc⟩ := Option.bind_eq_some_iff.1 hc
      simp only [h.2 f (List.mem_of_getElem? hf) c hc]
      exact h
    · exact h
  · obtain ⟨c', hc', rfl⟩ := Option.map_eq_some_iff.1 hc
    exact (settled_spilled ..).trans (hf c' hc')

theorem setOc_ckpt (f : Fibre) (c : Cls) (v : BitVec 8) : (f.setOc c v).ckpt = f.ckpt := by cases c <;> rfl

theorem lies_retire (h : Lies r s) (o : Op) (st : Status) : Lies r (s.retire o st) := by
  unfold State.retire
  dsimp only
  split
  · exact lies_of_eq h (.refl s) rfl
  · exact lies_foldl (fun s x hs => lies_settleReg hs ..) _ _ (lies_modFibre (lies_of_eq h (.refl s) rfl) _ fun f => setOc_ckpt ..)

theorem lies_finishOp (h : Lies r s) (id : Nat) (st : Status) : Lies r (s.finishOp id st) := by
  unfold State.finishOp
  split
  · exact h
  · split
    · exact lies_retire h ..
    · exact lies_foldl (fun s o hs => lies_retire hs ..) _ _ (lies_of_eq h (.refl s) rfl)

theorem lies_sliceFault (h : Lies r s) (g : Nat) : Lies r (s.sliceFault g) := by
  unfold State.sliceFault State.sliceFaultAt
  split
  · exact h
  · split
    · exact h
    · refine lies_finishOp (lies_modFibre ?_ _ ?_) ..
      · exact lies_of_eq h (.refl s) rfl
      · exact fun _ => rfl

theorem setRun_inv (f : Fibre) (d : Nat) (ws : List Word) : (f.setRun d ws).inv = f.inv := by
  obtain ⟨rs, po, hs, h, -⟩ := f.setRun_agrees ws d
  rw [h]

/-! ## What a word leaves when it is issued, or waits -/

theorem still_setFibre (h : Still r s) (k : Nat) (f : Fibre) : Still r (s.setFibre k f) := h
theorem still_waitFor (h : Still r s) (k : Nat) (f : Fibre) (w : Why) : Still r (s.waitFor k f w) := h

theorem still_noteIssue (h : Still r s) (k : Nat) (f : Fibre) (i : Instr) (x : Bool) : Still r (s.noteIssue k f i x) :=
  h.trans ⟨by simp, by simp, by simp⟩

theorem still_finish (h : Still r s) (k : Nat) (i : Instr) (f : Fibre) {g : Fibre} (hi : g.inv = none) : Still r (s.finish k i f g) := by
  cases hf : s.fibre? k with
  | some f0 =>
    rw [State.finish_eq hi hf]
    exact still_noteIssue (still_setFibre h ..) ..
  | none =>
    have hnone : ((s.setFibre k ((g.counted f i true s.clk).pass i.size)).noteIssue k f i true).fibre? k = none := by
      rw [State.noteIssue_fibre?]
      simpa [State.fibre?, State.setFibre] using hf
    unfold State.finish State.invEnd
    rw [hnone]
    exact still_noteIssue (still_setFibre h ..) ..

theorem still_recordFault (h : Still r s) (k : Nat) (a : Access) (kind : MemKind) (x : Seat) : Still r (s.recordFault k a kind x) := by
  unfold State.recordFault
  split
  · exact h
  · refine List.foldlRecOn (motive := Still r) _ _ h fun u hu o _ => ?_
    split
    · split <;> exact hu
    · exact hu

theorem still_startWalk (h : Still r s) (p : Site) (job va : Nat) : Still r (s.startWalk p job va) := by
  unfold State.startWalk
  dsimp only
  split <;> exact h

theorem still_pacerTrap (h : Still r s) (k : Nat) (f : Fibre) (p : RP) : Still r (s.pacerTrap k f p) := by
  unfold State.pacerTrap
  split <;> exact h

/-- A Pacer context's load changes no memory: it is sent, waits, or ends its access slice. -/
theorem still_pacerLoad {k : Nat} {f : Fibre} (i : Instr) (a : Access) (hn : NoneSpilled s) (hi : f.inv = none) : Still s (s.pacerLoad k f i a) := by
  have slice : ∀ {u : State} (g : Nat), Quiet s u → Still s (u.sliceFault g) := fun g hu =>
    (lies_sliceFault ⟨hu.1, hu.2 hn⟩ g).1
  have hfind : Quiet s (s.find f a.space a.addr.toNat a.size .read).2 := quiet_place (.refl s) ..
  unfold State.pacerLoad
  split
  · exact slice _ (.refl s)
  · split
    · next hf =>
      have hu := quiet_snd hfind hf
      split
      · exact slice _ hu
      · show Still s ((State.addOp _ _).finish k i f f)
        refine still_finish ?_ _ _ _ hi
        exact hu.1
    · next hf =>
      have hu := quiet_snd hfind hf
      split
      · exact slice _ hu
      · exact still_waitFor (still_startWalk hu.1 ..) ..
    · next hf => exact still_pacerTrap (quiet_snd hfind hf).1 ..
    · next hf => exact slice _ (quiet_snd hfind hf)
    · next u hf =>
      have hu : Quiet s (u.atHand (wordKey k) f .g a.addr.toNat a.size none).2 := quiet_atHand (quiet_snd hfind hf) ..
      dsimp only
      split
      · exact still_waitFor hu.1 ..
      · split
        · refine still_finish ?_ _ _ _ ((setRun_inv ..).trans hi)
          exact hu.1
        · refine still_pacerTrap ?_ ..
          exact hu.1
        · exact slice _ (quiet_of_eq hu (.refl _) rfl)

end

/-! ## What sending an access leaves of its fibre -/

/-- Two fibres have the same predicates, link register, conditions, trap registers, %ks and inversion. -/
def Alike (f g : Fibre) : Prop :=
  g.preds = f.preds ∧ g.lr = f.lr ∧ g.astat = f.astat ∧ g.atrap = f.atrap ∧ g.mxerr = f.mxerr ∧ g.xr = f.xr ∧ g.ks = f.ks ∧ g.inv = f.inv

theorem Alike.refl (f : Fibre) : Alike f f := ⟨rfl, rfl, rfl, rfl, rfl, rfl, rfl, rfl⟩
theorem Alike.trans {f g x : Fibre} (h : Alike f g) (h' : Alike g x) : Alike f x := by
  obtain ⟨h1, h2, h3, h4, h5, h6, h7, h8⟩ := h
  obtain ⟨e1, e2, e3, e4, e5, e6, e7, e8⟩ := h'
  exact ⟨e1.trans h1, e2.trans h2, e3.trans h3, e4.trans h4, e5.trans h5, e6.trans h6, e7.trans h7, e8.trans h8⟩

theorem alike_setRun (f : Fibre) (d : Nat) (ws : List Word) : Alike f (f.setRun d ws) := by
  obtain ⟨rs, po, hs, h, -⟩ := f.setRun_agrees ws d
  rw [h]
  exact .refl _

theorem alike_passed (g f0 : Fibre) (i : Instr) (clk : Nat) :
    Alike g ((g.counted f0 i true clk).pass i.size) ∧ ((g.counted f0 i true clk).pass i.size).regs = g.regs := by
  obtain ⟨rp, hdr, lc, loops, rc, rep, h⟩ := Frames.pass_eq (g.counted f0 i true clk) i.size
  rw [h]
  exact ⟨.refl g, rfl⟩

theorem alike_takeRecord (f : Fibre) (x : Replay) : Alike f (f.takeRecord x) ∧ (f.takeRecord x).regs = f.regs := by
  unfold Fibre.takeRecord
  refine List.foldlRecOn (motive := fun g => Alike f g ∧ g.regs = f.regs) _ _ ⟨.refl f, rfl⟩ fun g hg r _ => ?_
  exact ⟨hg.1.trans (.refl g), hg.2⟩

/-- Memory, queues, the clk and every other fibre are as they were; fibre k, which was f, is like f and has the registers rs. -/
def Sends (k : Nat) (f : Fibre) (rs : List Word) (s t : State) : Prop :=
  Still s t ∧ OthersSame k s t ∧ ∃ g, t.fibre? k = some g ∧ Alike f g ∧ g.regs = rs

section
variable {k : Nat} {f g f0 : Fibre} {rs : List Word} {s t u : State}

theorem sends_refl (hf : s.fibre? k = some f) : Sends k f f.regs s s := ⟨.refl s, ⟨rfl, fun _ _ => rfl⟩, f, hf, .refl f, rfl⟩

theorem sends_ite {c : Prop} [Decidable c] (ht : Sends k f rs s t) (hu : Sends k f rs s u) : Sends k f rs s (if c then t else u) := by
  split
  · exact ht
  · exact hu

theorem sends_of_eq (h : Sends k f rs s t) (hst : Still t u) (hf : u.fibres = t.fibres) : Sends k f rs s u := by
  obtain ⟨hs, ⟨hl, ho⟩, g, hg, ha⟩ := h
  have hfib : ∀ j, u.fibre? j = t.fibre? j := fun j => congrArg (·[j]?) hf
  exact ⟨hs.trans hst, ⟨(congrArg _ hf).trans hl, fun j hj => (hfib j).trans (ho j hj)⟩, g, (hfib k).trans hg, ha⟩

theorem sends_setFibre (h : Sends k f rs s t) (hg : Alike f g) : Sends k f g.regs s (t.setFibre k g) := by
  obtain ⟨hs, ⟨hl, ho⟩, x, hx, -⟩ := h
  obtain ⟨hl', ho'⟩ := State.setFibre_others t k g
  exact ⟨hs, ⟨hl'.trans hl, fun j hj => (ho' j hj).trans (ho j hj)⟩, g, State.setFibre_fibre?_same hx, hg, rfl⟩

theorem sends_modFibre (h : Sends k f rs s t) {v : Fibre → Fibre} (hv : ∀ g, Alike g (v g) ∧ (v g).regs = g.regs) :
    Sends k f rs s (t.modFibre k v) := by
  obtain ⟨hs, ⟨hl, ho⟩, x, hx, ha, hr⟩ := h
  obtain ⟨hl', ho'⟩ := othersSame_modFibre t k v
  exact ⟨hs, ⟨hl'.trans hl, fun j hj => (ho' j hj).trans (ho j hj)⟩, v x, by rw [fibre?_modFibre_same, hx, Option.map_some],
    ha.trans (hv x).1, (hv x).2.trans hr⟩

theorem sends_waitFor (h : Sends k f rs s t) (w : Why) : Sends k f f.regs s (t.waitFor k f w) :=
  sends_setFibre h (g := { f with run := .waiting w, woken := false }) (.refl f)

theorem sends_finish (h : Sends k f rs s t) (i : Instr) (hi : f.inv = none) (hg : Alike f g) : Sends k f g.regs s (t.finish k i f0 g) := by
  have hgi : g.inv = none := by
    obtain ⟨-, -, -, -, -, -, -, hinv⟩ := hg
    exact hinv.trans hi
  have h' := h
  obtain ⟨-, -, x, hx, -⟩ := h'
  obtain ⟨hpass, hregs⟩ := alike_passed g f0 i t.clk
  rw [State.finish_eq hgi hx, ← hregs]
  exact sends_of_eq (sends_setFibre h (hg.trans hpass)) (still_noteIssue (.refl _) ..) (State.noteIssue_fibres ..)

theorem sends_finishNow (h : Sends k f rs s t) (i : Instr) (hi : f.inv = none) : Sends k f rs s (t.finishNow k i f) := by
  have h' := h
  obtain ⟨-, -, x, hx, ha, rfl⟩ := h'
  unfold State.finishNow
  rw [hx]
  exact sends_finish h i hi ha

theorem sends_recordFault (h : Sends k f rs s t) (a : Access) (kind : MemKind) (x : Seat) : Sends k f rs s (t.recordFault k a kind x) := by
  unfold State.recordFault
  split
  · exact h
  · refine List.foldlRecOn (motive := Sends k f rs s) _ _ (sends_modFibre (sends_of_eq h (.refl t) rfl) fun g => alike_takeRecord ..)
      fun u hu o _ => ?_
    split
    · split
      · exact hu
      · exact sends_modFibre hu fun g => alike_takeRecord ..
    · exact hu

/-- Where an access is only placed, and not yet arrives, nothing is asked of a target. -/
theorem place_state (s : State) (f : Fibre) (spc : Space) (addr n : Nat) (a : Acc) : (s.place false f spc addr n a).2 = s := by
  have target : ∀ target master job x loc, (s.checkTarget false target master job a x loc).2 = s := fun _ _ _ _ _ => rfl
  have leaf : ∀ (x : Tlb) die va master job spc, (s.checkLeaf false x die va master job spc a).2 = s := fun x die va master job spc => by
    unfold State.checkLeaf
    split
    · rfl
    · exact target ..
  have loc : ∀ p job va master spc, (s.findLocal false p job va master spc a).2 = s := fun p job va master spc => by
    unfold State.findLocal
    split
    · rfl
    · split
      · exact leaf ..
      · split <;> rfl
  unfold State.place
  split <;> grind

theorem sends_startWalk (h : Sends k f rs s t) (p : Site) (job va : Nat) : Sends k f rs s (t.startWalk p job va) := by
  refine sends_of_eq h (still_startWalk (.refl t) ..) ?_
  unfold State.startWalk
  dsimp only
  split <;> rfl

theorem alike_hold {e : HeldEff} {ord : BitVec 24} (h : s.hold f e ord = some g) : Alike f g ∧ g.regs = f.regs := by
  unfold State.hold at h
  split at h
  · cases h
  · obtain rfl := Option.some.inj h
    exact ⟨.refl f, rfl⟩

theorem sends_issueAccess (h : Sends k f rs s t) (a : Access) (seq : Nat) (ord : BitVec 24) : Sends k f rs s (t.issueAccess k a seq ord) := by
  have hfresh : Sends k f rs s t.fresh.2 := sends_of_eq h (.refl t) rfl
  unfold State.issueAccess
  split
  · exact h
  · next x _ =>
    dsimp only
    split
    · exact sends_recordFault hfresh ..
    · split
      · exact sends_recordFault hfresh ..
      · have hplace : ∀ {r : Found} {u : State}, t.fresh.2.place false x a.space a.addr.toNat a.size a.kind.acc = (r, u) → Sends k f rs s u :=
          fun {r u} he => by
            have hu : u = t.fresh.2 := (congrArg Prod.snd he).symm.trans (place_state ..)
            rw [hu]
            exact hfresh
        split
        · next he => exact sends_recordFault (hplace he) ..
        · next he => exact sends_of_eq (hplace he) (.refl _) rfl
        · next he => exact sends_of_eq (sends_startWalk (hplace he) ..) (.refl _) rfl
        · next he => exact sends_of_eq (hplace he) (.refl _) rfl

/-- ST and RED, in every fibre: done without effect, held, waiting or sent. -/
theorem sends_issueWrite (hf : s.fibre? k = some f) (hi : f.inv = none) (i : Instr) (a : Access) :
    Sends k f f.regs s (s.issueWrite k f i a) := by
  have h := sends_refl hf
  have hsent : Sends k f f.regs s ((s.modFibre k fun f => { f with wseq := f.wseq + 1 }).issueAccess k a (f.wseq + 1) (s.ordAt f f.rp)) :=
    sends_issueAccess (sends_modFibre h (v := fun f => { f with wseq := f.wseq + 1 }) fun g => ⟨.refl g, rfl⟩) ..
  unfold State.issueWrite
  split
  · exact sends_finish h i hi (.refl f)
  · split
    · split
      · next g hg =>
        obtain ⟨ha, hr⟩ := alike_hold hg
        rw [← hr]
        exact sends_finish h i hi ha
      · exact sends_waitFor h _
    · exact sends_ite (sends_waitFor h _) (sends_ite (sends_waitFor h _) (sends_finishNow hsent i hi))

end

/-- A word that executes is its fibre's. -/
theorem fibre?_of_gate {i : Instr} {s : State} {f : Fibre} (h : gate i s = .go f) : s.fibre? s.cur = some f := by
  grind [gate]

/-- A register that is none of an atomic's destination lies outside its run. -/
theorem outside_of_notMem_slots {hd : Head} {d a b : Reg} {spc : Space} {sz : Size} {ord : Order} {sc : Scope} {aop : AtomOp} {off : BitVec 16}
    {r : Nat} (h : r ∉ (Instr.atom hd d a b spc sz ord sc aop off).slots) : r < d.toNat ∨ d.toNat + (sz.run d).len ≤ r := by
  by_contra hin
  have hd : (sz.run d).start = d.toNat := by cases sz <;> rfl
  refine h (List.mem_append_left _ (List.mem_flatMap.2 ⟨sz.run d, List.mem_singleton_self _, List.mem_map.2 ⟨r - d.toNat, ?_, ?_⟩⟩))
  · exact List.mem_range.2 (by omega)
  · omega

/-- Of a word that sends an access: what it leaves of the machine; of a fibre that is no Pacer context, what it leaves of that fibre too. -/
theorem accessWord_sends {i : Instr} {s t : State} {f : Fibre} (hw : accessWord i = true) (hx : Executes i s f) (hi : f.inv = none)
    (hn : f.isPacer = true → NoneSpilled s) (e : exec i s = .next t) :
    Still s t ∧ (f.isPacer = false → ∃ rs, Sends s.cur f rs s t ∧ (f.isHelper = false → rs = f.regs) ∧
      ∀ r, r ∉ i.slots → rs.getD r 0 = f.reg r) := by
  have hf := fibre?_of_gate hx
  have plain : Sends s.cur f f.regs s t → Still s t ∧ (f.isPacer = false → ∃ rs, Sends s.cur f rs s t ∧ (f.isHelper = false → rs = f.regs) ∧
      ∀ r, r ∉ i.slots → rs.getD r 0 = f.reg r) := fun h => ⟨h.1, fun _ => ⟨f.regs, h, fun _ => rfl, fun _ _ => rfl⟩⟩
  have h := sends_refl hf
  cases i with
  | ld hd d a spc sz ord sc off =>
    simp only [exec_ld, execLd, issueWord_go hx] at e
    by_cases hp : f.isPacer = true
    · rw [if_pos hp] at e
      exact ⟨Host.Outcome.next.inj e ▸ still_pacerLoad _ _ (hn hp) hi, fun h => absurd hp (by simp [h])⟩
    · rw [if_neg hp] at e
      exact plain (Host.Outcome.next.inj e ▸ sends_ite (sends_waitFor h _) (sends_ite (sends_waitFor h _)
        (sends_finishNow (sends_issueAccess h ..) _ hi)))
  | st hd a b spc sz ord sc off =>
    simp only [exec_st, execSt, issueWord_go hx] at e
    exact plain (Host.Outcome.next.inj e ▸ sends_issueWrite hf hi ..)
  | red hd a b spc sz ord sc aop off =>
    simp only [exec_red, execRed, issueWord_go hx] at e
    exact plain (Host.Outcome.next.inj e ▸ sends_issueWrite hf hi ..)
  | atom hd d a b spc sz ord sc aop off =>
    simp only [exec_atom, execAtom, issueWord_go hx] at e
    by_cases hh : f.isHelper = true
    · rw [if_pos hh] at e
      have hdone := sends_finish (f0 := f) h (.atom hd d a b spc sz ord sc aop off) hi
        (alike_setRun f d.toNat (List.replicate (sz.run d).len 0))
      rw [Host.Outcome.next.inj e] at hdone
      refine ⟨hdone.1, fun _ => ⟨_, hdone, fun h => absurd hh (by simp [h]), fun r hr => f.setRun_reg_other _ _ _ ?_⟩⟩
      rw [List.length_replicate]
      exact outside_of_notMem_slots hr
    · rw [if_neg hh] at e
      exact plain (Host.Outcome.next.inj e ▸ sends_ite (sends_waitFor h _) (sends_ite (sends_waitFor h _) (sends_finishNow (sends_issueAccess
        (sends_modFibre h (v := fun f => { f with wseq := f.wseq + 1 }) fun g => ⟨.refl g, rfl⟩) ..) _ hi)))
  | _ => cases hw

/-! ## An access in its turn (R164, R167, R288) -/

/-- What performing the access a at its place changes at most: the bytes there, a load none. -/
def Performs (a : Access) (loc : Nat) (s t : State) : Prop :=
  (a.kind = .ld → t.mem = s.mem) ∧ (∀ x, x < loc ∨ loc + a.size ≤ x → Memory.get t.mem x = Memory.get s.mem x) ∧ SameEntries s t ∧ t.clk = s.clk

section
variable {a : Access} {loc k : Nat} {s t u : State} {f : Fibre}

theorem performs_of_still (h : Still s t) : Performs a loc s t := by
  obtain ⟨hm, hq, hc⟩ := h
  exact ⟨fun _ => hm, fun x _ => by rw [hm], by rw [SameEntries, hq], hc⟩

theorem performs_after (h : Still s t) (h' : Performs a loc t u) : Performs a loc s u := by
  obtain ⟨hm, hq, hc⟩ := h
  obtain ⟨hl, ho, he, hc'⟩ := h'
  exact ⟨fun hk => (hl hk).trans hm, fun x hx => by rw [ho x hx, hm], by rwa [SameEntries, hq] at he, hc'.trans hc⟩

theorem performs_then (h : Performs a loc s t) (h' : Still t u) : Performs a loc s u := by
  obtain ⟨hm, hq, hc⟩ := h'
  obtain ⟨hl, ho, he, hc'⟩ := h
  exact ⟨fun hk => hm.trans (hl hk), fun x hx => by rw [hm, ho x hx], by rw [SameEntries, hq, he], hc.trans hc'⟩

theorem performs_of_learns (h : Learns k s t) (hm : t.mem = s.mem) : Performs a loc s t := by
  obtain ⟨-, hc, hq, -⟩ := h
  exact ⟨fun _ => hm, fun x _ => by rw [hm], hq, hc⟩

/-- What is stored at the place of an access that is no load lies within its bytes. -/
theorem performs_of_writes {bs : List Byte} (h : Learns k s t) (hk : a.kind ≠ .ld) (hm : t.mem = Memory.putAll s.mem loc bs)
    (hb : bs.length ≤ a.size) : Performs a loc s t := by
  obtain ⟨-, hc, hq, -⟩ := h
  refine ⟨fun h => absurd h hk, fun x hx => ?_, hq, hc⟩
  rw [hm]
  exact Memory.get_putAll_other _ _ _ _ (by omega)

theorem still_undoIf {c : Prop} [Decidable c] (op n : Nat) : Still s (if c then s.logUndo k op loc n else s) := by
  split <;> exact .refl s

theorem storeBytes_length (n : Nat) (l : List Word) : (storeBytes n l).length ≤ n := List.length_take_le ..

theorem leBytes_length (n : Nat) : ∀ x, (leBytes n x).length = n := by
  induction n with
  | zero => exact fun _ => rfl
  | succ n ih => exact fun x => congrArg (· + 1) (ih _)

theorem atomBytes_length (a : Access) (old : List Byte) : (atomBytes a old).length = a.size := leBytes_length ..

/-- An atomic's write, after which the old contents reach its registers. -/
theorem performs_atomic (hr : regOffset loc = none) (hk : a.kind ≠ .ld) (g : Fibre) (v : List Nat) (op seq : Nat) (chain : List Sync)
    (old : List Byte) :
    Performs a loc s ((((s.modFibre k fun f => { f with seen := g.seen, acqs := g.acqs }).tellEntries k op v).writeFor k g a chain loc seq
      (atomBytes a old)).modFibre k fun f => f.receive a (loadWords old)) := by
  have learns := ((learns_modFibre s k (fun f => { f with seen := g.seen, acqs := g.acqs }) fun _ => rfl).trans
    (learns_tellEntries _ k op v)).trans (learns_writeFor hr k g a chain seq (atomBytes a old))
  exact performs_then (performs_of_writes learns hk (writeFor_mem hr ..) (atomBytes_length a old).le) (.refl _)

theorem performs_performAt (hf : s.fibre? k = some f) (hr : regOffset loc = none)
    (hu : Unwatched s f a.space a.addr.toNat a.size a.kind.writes) (x : Seat) : Performs a loc s (s.performAt k a loc x) := by
  have fault : ∀ kind, Performs a loc s (s.recordFault k a kind x) := fun kind => performs_of_still (still_recordFault (.refl s) ..)
  unfold State.performAt
  simp only [hf, watch_unwatched hf hu]
  split
  · exact fault _
  · split
    · exact fault _
    · split
      · split
        · exact performs_of_still (.refl s)
        · have learns := (learns_loadFor s k f a loc x.seq).trans (learns_tellEntries _ k x.num
            ((((s.loadFor k f a loc x.seq).2.fibre? k).map fun g => g.seen.filter fun i => !f.seen.contains i).getD []))
          exact performs_then (performs_of_learns learns (loadFor_mem ..)) (.refl _)
      · next hk =>
        exact performs_after (still_undoIf ..) (performs_of_writes (learns_writeFor hr k f a [] x.seq _) (by simp [hk]) (writeFor_mem hr ..)
          (storeBytes_length ..))
      · next hld hst => exact performs_after (still_undoIf ..) (performs_atomic hr hld ..)

/-- An access that is let through by its target leaves the machine as it was. -/
theorem arriveAt_state {master job l off : Nat} {c : Acc} (h : s.arriveAt master job c off loc = (.at_ l, u)) : u = s := by
  unfold State.arriveAt at h
  split at h
  · unfold State.checkTarget at h
    split_ifs at h <;> cases h <;> rfl
  · cases h
    rfl

theorem performs_completeAccess {op : Nat} {o : Op} (ho : s.op? op = some o) (hb : o.body = .mem a (.at_ loc)) (hr : regOffset loc = none)
    (hu : ∀ f, s.fibre? o.fib = some f → Unwatched s f a.space a.addr.toNat a.size a.kind.writes ∧ (f.isPacer = true → NoneSpilled s))
    (which : Access → Bool) : Performs a loc s (s.completeAccess op which) := by
  unfold State.completeAccess
  simp only [ho, hb]
  cases hf : s.fibre? o.fib with
  | none => exact performs_of_still (.refl s)
  | some f =>
    obtain ⟨hwatch, hspill⟩ := hu f hf
    have harr : Quiet s (s.arriveAt (s.master f) (s.jobOf f) a.kind.acc a.addr.toNat loc).2 := quiet_arriveAt (.refl s) ..
    have hperform : Performs a loc s ((s.dropOp op).performAt o.fib a loc o.seat) := performs_performAt (s := s.dropOp op) hf hr hwatch _
    dsimp only
    split
    · exact performs_of_still (.refl s)
    · split
      · next u he =>
        obtain rfl := arriveAt_state he
        split
        · next hp =>
          have hpacer : f.isPacer = true := (Bool.and_eq_true_iff.1 hp).1
          exact performs_of_still (lies_sliceFault (s := u.dropOp op) ⟨.refl u, hspill hpacer⟩ _).1
        · split
          · exact performs_then (performs_performAt hf hr hwatch _) (.refl _)
          · exact hperform
      · next he =>
        have hq := quiet_snd harr he
        split
        · next hp => exact performs_of_still (lies_sliceFault (s := State.dropOp _ op) ⟨hq.1, hq.2 (hspill hp)⟩ _).1
        · exact performs_of_still (still_recordFault (s := State.dropOp _ op) hq.1 ..)
      · next he => exact performs_of_still (quiet_snd harr he).1

end

/-- Settles O13: issuing writes nothing but an atomic's destination in a helper; performing writes the bytes at the access's place. -/
theorem accessesLeaveTheRest : Obligations.AccessesLeaveTheRest := by
  refine ⟨fun i s t f hw hx hi hn e => ?_, fun op loc s t o a i ho hb hev e hr hu => ?_⟩
  · obtain ⟨⟨hm, hq, hc⟩, hsent⟩ := accessWord_sends hw hx hi hn e
    refine ⟨hm, hq, hc, fun hp => ?_⟩
    obtain ⟨rs, ⟨-, hothers, g, hg, ⟨hpr, hlr, hast, hat, hmx, hxr, hks, -⟩, rfl⟩, hregs, hslots⟩ := hsent hp
    exact ⟨hothers, g, hg, hpr, hlr, hast, hat, hmx, hxr, hks, hregs, hslots⟩
  · obtain ⟨which, rfl⟩ : ∃ which, t = s.completeAccess op which := by
      rcases hev with rfl | rfl | rfl
      all_goals exact ⟨_, (Host.Outcome.next.inj e).symm⟩
    obtain ⟨hld, hother, hq, hc⟩ := performs_completeAccess ho hb hr hu which
    exact ⟨fun hk x => by rw [hld hk], hother, hq, hc⟩

end Sys2Proof.AccessFrames
